-- ==== Sys2Proof/Word.lean ====
section
/-! DEFINITION. The word types of the machine and their plainest arithmetic: lane registers are 32 bits wide, uniform
registers and addresses 64 bits, masks have one bit for each of the 1,024 lanes a team may have. -/
namespace Sys2Proof

/-- One byte of memory (spec/01_machine.md). -/
abbrev Byte := BitVec 8
/-- One lane register, and one instruction word (spec/03_encoding.md R29, R35). -/
abbrev W32 := BitVec 32
/-- One uniform register, and one address before its checks (spec/03_encoding.md R35, spec/06_instructions_memory.md R117). -/
abbrev W64 := BitVec 64
/-- One bit for each lane of a team of up to 1,024 lanes (spec/15_group_lifecycle.md R260). -/
abbrev Mask := BitVec 1024

end Sys2Proof
end

