-- ==== Sys2Proof/Syntax.lean ====
section
/-! DEFINITION. The syntax of the machine: the operand forms of spec/03_encoding.md, the fields of the formats as types
of their own, the identities that the events of spec/opcode_table.json carry, and `Instr`, the one inductive with a
constructor for each row of that table. -/
namespace Sys2Proof

/-! ## Operands -/

/-- A lane source (R35): every code of the column "Lane source". `konst n` is the constant code 0xE8 + n, `lit` the
literal of code 0xF0, `lit64` the two-word literal of code 0xF1, `idx n` the indexed code 0xF4 + n. -/
inductive Src where
  | v (r : Fin 192) | s (r : Fin 32) | lane | team | core | clock
  | konst (n : Fin 8) | lit (w : W32) | lit64 (w : W64) | idx (n : Fin 4)
  deriving DecidableEq, Repr

/-- A uniform source (R35, R36). -/
inductive USrc where
  | s (r : Fin 32) | team | core | clock | konst (n : Fin 8) | lit (w : W32) | lit64 (w : W64)
  deriving DecidableEq, Repr

/-- A count operand of the T and G formats, and the length of `xwin` (R34, R46): s code, constant or literal. -/
inductive Cnt where
  | s (r : Fin 32) | konst (n : Fin 8) | lit (w : W32) | lit64 (w : W64)
  deriving DecidableEq, Repr

/-- The address operand of `acld` (R36): an s code or a literal. -/
inductive ASrc where
  | s (r : Fin 32) | lit (w : W32) | lit64 (w : W64)
  deriving DecidableEq, Repr

/-- A lane destination (R35). -/
inductive Dst where
  | v (r : Fin 192) | idx (n : Fin 4)
  deriving DecidableEq, Repr

/-- The address operand of a lane-memory instruction (R47, R117). -/
inductive Base where
  | v (r : Fin 192) | s (r : Fin 32) | idx (n : Fin 4)
  deriving DecidableEq, Repr

/-- An s code (R35). -/
abbrev SReg := Fin 32
/-- A predicate register; p0 reads true (R34). -/
abbrev PReg := Fin 8
/-- An ordering stream (R33, format M). -/
abbrev Stream := Fin 16
/-- The signed byte offset of an M-format word with LIT = 1 (R30, R47). -/
abbrev Offset := Option W32

/-! ## Fields of the formats -/

/-- Element types (R43). -/
inductive Ty where
  | i32 | u32 | i64 | u64 | i16x2 | u16x2 | i8x4 | u8x4 | f32 | f64 | f16x2 | bf16x2
  | e4m3x4 | e5m2x4 | e2m1x8 | tern16 | i4x8
  deriving DecidableEq, Repr

/-- Rounding modes (R41). -/
inductive Rnd where
  | rne | rtz | rup | rdn | rna
  deriving DecidableEq, Repr

/-- Scopes (R12, R34). -/
inductive Scope where
  | core | quad | die | pkg | pod
  deriving DecidableEq, Repr

/-- The MODE field that a `setm` word writes, with its new value (R42). -/
inductive ModeField where
  | g (gn : Bool) (p : PReg) | s (p : PReg) | t (ty : Ty) | rnd (r : Rnd)
  | sat (b : Bool) | ftz (b : Bool) | df (b : Bool) | sc (c : Scope)
  deriving DecidableEq, Repr

/-- Relations of `cmp` and `ucmp` (R34). -/
inductive Rel where
  | eq | ne | lt | le | gt | ge | nan | num
  deriving DecidableEq, Repr

/-- Tests of `class` (R34). -/
inductive ClassTest where
  | nan | inf | zero | sub | norm | neg
  deriving DecidableEq, Repr

/-- Functions of `vote` (R34). -/
inductive VoteFn where
  | every | some | same | odd
  deriving DecidableEq, Repr

/-- Kinds of `fence` (R34, R132). -/
inductive FenceKind where
  | acq | rel | acqrel | sc
  deriving DecidableEq, Repr

/-- Access forms of FN 0 to 5 (R47): natural, ×2, ×4, byte, halfword, and the acquire or release form. -/
inductive MemForm where
  | nat | x2 | x4 | byte | half | sync
  deriving DecidableEq, Repr

/-- Functions of the atomics (R47, R129). -/
inductive AtomFn where
  | add | min | max | and | or | xor | exch | incw
  deriving DecidableEq, Repr

/-- The place a `pref` brings its line to (R47, R135). -/
inductive PrefLevel where
  | l1 | home | msc
  deriving DecidableEq, Repr

/-- The extent of `clean` and `inval` (R136). -/
inductive Extent where
  | line | page
  deriving DecidableEq, Repr

/-- Engine class and context of `tlwait` (R34). -/
inductive TlCtx where
  | copy (c : Fin 16) | sift (c : Fin 4) | matrix | settle
  deriving DecidableEq, Repr

/-- Barrier levels (R34, R146). -/
inductive BarLevel where
  | cohort | gang | die | pkg | pod
  deriving DecidableEq, Repr

/-- Control registers: every number that the map of R147 assigns. -/
inductive Csr where
  | mode | flags | regions | repc | rdepth | trapvec | stkdepth | rescap | resstall | mprog | mfill | spbankc
  | cycle | passes | clears | tslice | rtmo | tlcopy (n : Fin 16) | tlsift (n : Fin 4) | tlmat | tlsettle
  | nxcopy (n : Fin 16) | nxsift (n : Fin 4) | nxmat | nxsettle
  deriving DecidableEq, Repr

/-! ## What the events carry -/

/-- The unit that owns a barrier instance (R274), by the model's index of the cohort, gang or kernel. -/
inductive BarUnit where
  | cohort (c : Nat) | gang (g : Nat) | die (k d : Nat) | pkg (k : Nat) | pod (k : Nat)
  deriving DecidableEq, Repr

/-- One barrier instance: its unit and its id (R274). -/
structure BarRef where
  unit : BarUnit
  id   : Fin 16
  deriving DecidableEq, Repr

/-- Who waits for Chandler on a PAGE or PROT (R306, R338): a team, an engine context, the matrix unit of a bench, or an
inbound fabric request (R351) by its place in the list of held requests. -/
inductive FaultParty where
  | team (t : Nat) | copy (core ctx : Nat) | sifter (core ctx : Nat) | settle (core : Nat)
  | matrix (core bench : Nat) | inbound (n : Nat)
  deriving DecidableEq, Repr

/-- What Chandler does with a PAGE or PROT (R338): map a frame (the leaf entry written, and the bytes that fill the
frame from its start, the rest zero), hold it under R337, or report it. -/
inductive FaultAct where
  | map (pte : W64) (fill : List Byte) | hold | report
  deriving DecidableEq, Repr

/-- One budget set of a context (R300): CORELIM, the rate and the depth of each channel's bucket in bytes, PWRLIM in
tenths of a watt. -/
structure Budget where
  corelim : Nat
  rate    : Nat
  depth   : Nat
  pwrlim  : Nat
  deriving DecidableEq, Repr

/-- The fields of a queue state record that Chandler writes when it creates the queue (R294). -/
structure QueueInit where
  number : Nat
  addr   : W64
  rbase  : W64
  rsize  : W32
  cbase  : W64
  csize  : W32
  prio   : Fin 8
  deriving DecidableEq, Repr

/-- A region registered for RMA (R346): context, virtual base, length and rights. -/
structure RmaRegion where
  ctx   : Nat
  base  : W64
  len   : Nat
  read  : Bool
  write : Bool
  deriving DecidableEq, Repr

/-- What a create request gives Chandler (R318, R319): where Chandler holds the context record, the fields of it that Chandler
writes, its budget sets, its queues and its registered regions, the ranges of addresses that it reserves (R338), and the entries
of its page table, each by an address, a level and the entry (R327, R335). -/
structure CtxInit where
  recAt    : Nat
  ctxid    : Nat
  keyidx   : Nat
  key      : BitVec 512
  ptroot   : W64
  budgetAt : W64
  budgets  : List Budget
  qtable   : W64
  savebase : W64
  savesize : Nat
  fbase    : W64
  fsize    : Nat
  queues   : List QueueInit
  regions  : List RmaRegion
  reserved : List (W64 × W64)
  maps     : List (W64 × Fin 3 × W64)
  deriving DecidableEq, Repr

/-- An entry of the ingress import table (R350). -/
structure Ingress where
  key   : W32
  ctx   : BitVec 13
  src   : BitVec 10
  any   : Bool
  base  : BitVec 48
  bound : BitVec 12
  a     : Bool
  w     : Bool
  r     : Bool
  v     : Bool
  deriving DecidableEq, Repr

/-- An entry of the egress table (R349). -/
structure Egress where
  v      : Bool
  target : BitVec 10
  index  : BitVec 12
  key    : W32
  deriving DecidableEq, Repr

/-- One port of the module (R346, R348). -/
inductive PortRef where
  | ue (p : Fin 4) | span (p : Fin 16)
  deriving DecidableEq, Repr

/-- What a fabric request asks for (R348, R351): bytes to read, bytes to write, the lanes of an atomic
(R129) or a compare-and-swap (R130) combined on one element (R131), with their old values as the answer, a splat of an f32
sum onto an entry element (R218), a splat onto a 128-bit shadow (R219), the settling of an entry element and its shadow at
an offset of the same window, or in two actions where shadow and entry have different homes (R222, log 24), or bytes that an
engine writes at the exporter's home (R184). -/
inductive FabricOp where
  | read (len : Nat) | write (bytes : List Byte) | atomic (fn : AtomFn) (ty : Ty) (bs : List W64)
  | cas (wide : Bool) (ps : List (W64 × W64)) | splat (etype : Fin 4) (x : W32) | shadow (z : BitVec 128)
  | settle (etype : Fin 4) (elo : BitVec 8) (shadowOff : BitVec 29)
  | settleTake | settleAdd (etype : Fin 4) (elo : BitVec 8) (z : BitVec 128) | engine (bytes : List Byte)
  deriving DecidableEq, Repr

/-- A fabric request (R348, R349, R352), with the plane that it travels on (R348), the importing die (R342) and whether it is a
synchronising access (R190). -/
structure SpanReq where
  op       : FabricOp
  plane    : Fin 16
  src      : BitVec 10
  die      : Fin 4
  sync     : Bool
  index    : BitVec 12
  off      : BitVec 29
  key      : W32
  tag      : BitVec 16
  deadline : W64
  deriving DecidableEq, Repr

/-- A packet that a port has received (R348): a request, or the answer to a request of the module. -/
inductive SpanIn where
  | request (r : SpanReq) | response (tag : BitVec 16) (bytes : List Byte) | nack (tag : BitVec 16)
  deriving DecidableEq, Repr

/-- A unit that reports errors (R360): a DRAM row by its channel and row, an SRAM line of a home slice, of a core's L1,
pool, instruction cache or constant cache or of a base die's memory-side cache, or a bank of a register file. -/
inductive UnitRef where
  | row (channel row : Nat) | line (slice line : Nat) | l1 (core line : Nat) | pool (core line : Nat) | msc (die : Fin 8) (line : Nat)
  | bank (core bank : Nat) | icache (core line : Nat) | ccache (core line : Nat)
  deriving DecidableEq, Repr

/-- What is disabled where no spare remains (R360). -/
inductive Disable where
  | line | way | slice
  deriving DecidableEq, Repr

/-- What consumed data with an uncorrectable error (R306): an access of a team in flight, with the lanes and the address that
failed (R121); one that a team has issued at a PC and that is no longer in flight, as an `spl` (R225); the instruction at a team's PC,
which fails for the whole team (R149); the oldest command of an engine or a matrix unit (R138, R239); or an inbound fabric request
(R351). -/
inductive EccUse where
  | access (t id : Nat) (lanes : Mask) (addr : W64) | issued (t : Nat) (pc : W64) (lanes : Mask) (addr : W64) | team (t : Nat)
  | command (p : FaultParty) | request (r : SpanReq)
  deriving DecidableEq, Repr

/-- The addresses of an Ultra Ethernet port (R346). -/
structure PortAddr where
  mac : BitVec 48
  ips : List (BitVec 128)
  deriving DecidableEq, Repr

/-- The configuration record (R363): HBM mode, port addresses, default TSLICE and RTMO, HTHRESH, refresh limits. -/
structure ConfigRec where
  hbmCache : Bool
  ports    : List PortAddr
  tslice   : Nat
  rtmo     : Nat
  hthresh  : Nat
  refresh  : List Nat
  deriving DecidableEq, Repr, Inhabited

/-- One Span flit as it arrives (R348): payload, flit sequence, virtual channel, CRC. -/
structure Flit where
  payload : List Byte
  fseq    : BitVec 12
  vc      : Fin 4
  crc     : BitVec 16
  deriving DecidableEq, Repr

/-- A request sent to Chandler (R347): what it asks to be done. -/
inductive ChReq where
  | create (c : CtxInit) | enable (ctx q : Nat) | clearHalt (ctx q : Nat) | abort (ctx : Nat) | destroy (ctx : Nat)
  | register (r : RmaRegion) | comparator (ctx i : Nat) (addr ctl : W64) (pod : Bool) | ranges (ctx : Nat) (r : List (W64 × W64))
  | resume (ctx : Nat) | laneCycles (core bench : Nat) | freeze | attest (nonce : W64) | session
  | faultHead (ctx : Nat) (head : W64)
  deriving DecidableEq, Repr
/-- A request as it arrives: what it asks, and whether its transport security check has passed (R346). -/
structure ChMsg where
  req : ChReq
  tss : Bool
  deriving DecidableEq, Repr
/-- Where an RMA access comes from (R346): its source address and its flow. -/
structure RmaFlow where
  src : BitVec 128
  label : W64
  deriving DecidableEq, Repr
/-- What a comparator is set to beside its address: its control word (R355) and the pod option (R356). -/
structure CompCtl where
  word : W64
  pod : Bool
  deriving DecidableEq, Repr

/-! ## The instructions and the events -/

/-- One constructor for each row of spec/opcode_table.json, in the table's order. The first 136 are instruction words
(`sw` is the switch marker S of R29; a field that the instruction does not use is no argument, R33); the others are steps
of other agents, with the identity of what moves and what comes from outside. -/
inductive Instr where
  /-- NOP, R75. -/
  | nop (sw : Bool)
  /-- SETM, R86. -/
  | setm (sw : Bool) (f : ModeField)
  /-- BRA, R75. -/
  | bra (sw : Bool) (off : BitVec 24)
  /-- BRALL, R76. -/
  | brall (sw : Bool) (p : PReg) (neg : Bool) (off : BitVec 20)
  /-- BRANY, R76. -/
  | brany (sw : Bool) (p : PReg) (neg : Bool) (off : BitVec 20)
  /-- BRD, R77. -/
  | brd (sw : Bool) (p : PReg) (neg : Bool) (off : BitVec 20) (joinOff : W32)
  /-- JOIN, R78. -/
  | join (sw : Bool)
  /-- CALL, R75. -/
  | call (sw : Bool) (off : BitVec 24)
  /-- RET, R75. -/
  | ret (sw : Bool)
  /-- JMPI, R75. -/
  | jmpi (sw : Bool) (a : USrc)
  /-- EXIT, R80. -/
  | exit (sw : Bool)
  /-- TRAP, R81. -/
  | trap (sw : Bool) (code : BitVec 24)
  /-- YIELD, R82. -/
  | yield (sw : Bool)
  /-- REGION, R83. -/
  | region (sw : Bool)
  /-- DRAIN, R85. -/
  | drain (sw : Bool)
  /-- LOOP, R79. -/
  | loop (sw : Bool) (c : SReg) (off : BitVec 16)
  /-- ADD, R87. -/
  | add (sw : Bool) (d : Dst) (a b : Src)
  /-- SUB, R87. -/
  | sub (sw : Bool) (d : Dst) (a b : Src)
  /-- MUL, R87. -/
  | mul (sw : Bool) (d : Dst) (a b : Src)
  /-- FMA, R87. -/
  | fma (sw : Bool) (d : Dst) (a b : Src)
  /-- FMS, R87. -/
  | fms (sw : Bool) (d : Dst) (a b : Src)
  /-- MIN, R87. -/
  | min (sw : Bool) (d : Dst) (a b : Src)
  /-- MAX, R87. -/
  | max (sw : Bool) (d : Dst) (a b : Src)
  /-- ABS, R87. -/
  | abs (sw : Bool) (d : Dst) (a : Src)
  /-- NEG, R87. -/
  | neg (sw : Bool) (d : Dst) (a : Src)
  /-- CMP, R88. -/
  | cmp (sw : Bool) (p : PReg) (f : Rel) (a b : Src)
  /-- SEL, R89. -/
  | sel (sw : Bool) (d : Dst) (a b : Src)
  /-- CVT, R90. -/
  | cvt (sw : Bool) (d : Dst) (a : Src) (ty : Ty)
  /-- RCP, R91. -/
  | rcp (sw : Bool) (d : Dst) (a : Src)
  /-- RSQ, R91. -/
  | rsq (sw : Bool) (d : Dst) (a : Src)
  /-- SQRT, R91. -/
  | sqrt (sw : Bool) (d : Dst) (a : Src)
  /-- DIV, R91. -/
  | div (sw : Bool) (d : Dst) (a b : Src)
  /-- EXP2, R91. -/
  | exp2 (sw : Bool) (d : Dst) (a : Src)
  /-- LOG2, R91. -/
  | log2 (sw : Bool) (d : Dst) (a : Src)
  /-- SIN, R91. -/
  | sin (sw : Bool) (d : Dst) (a : Src)
  /-- COS, R91. -/
  | cos (sw : Bool) (d : Dst) (a : Src)
  /-- RINT, R91. -/
  | rint (sw : Bool) (d : Dst) (a : Src)
  /-- CLASS, R92. -/
  | class (sw : Bool) (p : PReg) (f : ClassTest) (a : Src)
  /-- WMAD, R93. -/
  | wmad (sw : Bool) (d : Dst) (a b : Src)
  /-- DOT4, R94. -/
  | dot4 (sw : Bool) (d : Dst) (a b : Src)
  /-- AND, R95. -/
  | and (sw : Bool) (d : Dst) (a b : Src)
  /-- OR, R95. -/
  | or (sw : Bool) (d : Dst) (a b : Src)
  /-- XOR, R95. -/
  | xor (sw : Bool) (d : Dst) (a b : Src)
  /-- NOT, R95. -/
  | not (sw : Bool) (d : Dst) (a : Src)
  /-- SHL, R96. -/
  | shl (sw : Bool) (d : Dst) (a b : Src)
  /-- SHR, R96. -/
  | shr (sw : Bool) (d : Dst) (a b : Src)
  /-- ROL, R96. -/
  | rol (sw : Bool) (d : Dst) (a b : Src)
  /-- POPC, R97. -/
  | popc (sw : Bool) (d : Dst) (a : Src)
  /-- CLZ, R97. -/
  | clz (sw : Bool) (d : Dst) (a : Src)
  /-- BREV, R97. -/
  | brev (sw : Bool) (d : Dst) (a : Src)
  /-- BFE, R98. -/
  | bfe (sw : Bool) (d : Dst) (a b : Src)
  /-- BFI, R98. -/
  | bfi (sw : Bool) (d : Dst) (a b : Src)
  /-- MULHI, R99. -/
  | mulhi (sw : Bool) (d : Dst) (a b : Src)
  /-- ADDC, R100. -/
  | addc (sw : Bool) (d : Dst) (a b : Src)
  /-- LEA, R101. -/
  | lea (sw : Bool) (d : Dst) (a b : Src)
  /-- MOV, R95. -/
  | mov (sw : Bool) (d : Dst) (a : Src)
  /-- PLOG, R102. -/
  | plog (sw : Bool) (p a b : PReg) (table : BitVec 4)
  /-- VTOP, R103. -/
  | vtop (sw : Bool) (p : PReg) (a : Src)
  /-- PTOV, R103. -/
  | ptov (sw : Bool) (d : Dst) (p : PReg)
  /-- SHFL, R104. -/
  | shfl (sw : Bool) (d : Dst) (a b : Src)
  /-- SHFX, R104. -/
  | shfx (sw : Bool) (d : Dst) (a b : Src)
  /-- SHFU, R104. -/
  | shfu (sw : Bool) (d : Dst) (a b : Src)
  /-- SHFD, R104. -/
  | shfd (sw : Bool) (d : Dst) (a b : Src)
  /-- VOTE, R105. -/
  | vote (sw : Bool) (p : PReg) (f : VoteFn) (a : Src)
  /-- BALLOT, R106. -/
  | ballot (sw : Bool) (d : SReg) (a : Src) (b : USrc)
  /-- PSUM, R107. -/
  | psum (sw : Bool) (d : Dst) (a : Src)
  /-- REDU, R108. -/
  | redu (sw : Bool) (d : SReg) (a : Src)
  /-- VCONF, R109. -/
  | vconf (sw : Bool) (d : Dst) (a : Src)
  /-- RDLANE, R110. -/
  | rdlane (sw : Bool) (d : SReg) (a : Src) (b : USrc)
  /-- XSET, R111. -/
  | xset (sw : Bool) (x : Fin 4) (a : Src)
  /-- XWIN, R112. -/
  | xwin (sw : Bool) (x : Fin 4) (base : Fin 192) (len : Cnt)
  /-- UADD, R113. -/
  | uadd (sw : Bool) (d : SReg) (a b : USrc)
  /-- USUB, R113. -/
  | usub (sw : Bool) (d : SReg) (a b : USrc)
  /-- UMUL, R113. -/
  | umul (sw : Bool) (d : SReg) (a b : USrc)
  /-- UAND, R113. -/
  | uand (sw : Bool) (d : SReg) (a b : USrc)
  /-- UOR, R113. -/
  | uor (sw : Bool) (d : SReg) (a b : USrc)
  /-- UXOR, R113. -/
  | uxor (sw : Bool) (d : SReg) (a b : USrc)
  /-- USHL, R113. -/
  | ushl (sw : Bool) (d : SReg) (a b : USrc)
  /-- USHR, R113. -/
  | ushr (sw : Bool) (d : SReg) (a b : USrc)
  /-- UMOV, R113. -/
  | umov (sw : Bool) (d : SReg) (a : USrc)
  /-- UMOV_PUSH_Q0, R137. -/
  | umovPushQ0 (sw : Bool) (a : USrc)
  /-- UMOV_PUSH_Q2, R137. -/
  | umovPushQ2 (sw : Bool) (a : USrc)
  /-- UMOV_POP_Q3, R115. -/
  | umovPopQ3 (sw : Bool) (d : SReg)
  /-- UCMP, R114. -/
  | ucmp (sw : Bool) (p : PReg) (f : Rel) (a b : USrc)
  /-- UMIN, R113. -/
  | umin (sw : Bool) (d : SReg) (a b : USrc)
  /-- UMAX, R113. -/
  | umax (sw : Bool) (d : SReg) (a b : USrc)
  /-- UDIV, R113. -/
  | udiv (sw : Bool) (d : SReg) (a b : USrc)
  /-- UREM, R113. -/
  | urem (sw : Bool) (d : SReg) (a b : USrc)
  /-- LD, R122. -/
  | ld (sw : Bool) (d : Dst) (a : Base) (off : Offset) (str : Stream) (form : MemForm)
  /-- ST, R122. -/
  | st (sw : Bool) (b : Src) (a : Base) (off : Offset) (str : Stream) (form : MemForm)
  /-- LDC, R125. -/
  | ldc (sw : Bool) (d : Dst) (a : Base) (off : Offset) (form : MemForm)
  /-- LDS, R122. -/
  | lds (sw : Bool) (d : Dst) (a : Base) (off : Offset) (str : Stream) (form : MemForm)
  /-- STS, R122. -/
  | sts (sw : Bool) (b : Src) (a : Base) (off : Offset) (str : Stream) (form : MemForm)
  /-- ATOM, R128. -/
  | atom (sw : Bool) (d : Option Dst) (a : Base) (off : Offset) (str : Stream) (fn : AtomFn)
  /-- ATOMS, R128. -/
  | atoms (sw : Bool) (d : Option Dst) (a : Base) (off : Offset) (str : Stream) (fn : AtomFn)
  /-- CAS, R130. -/
  | cas (sw : Bool) (d : Dst) (a : Base) (off : Offset) (str : Stream)
  /-- ULD, R127. -/
  | uld (sw : Bool) (d : SReg) (a : SReg) (off : Offset) (str : Stream) (form : MemForm)
  /-- UST, R127. -/
  | ust (sw : Bool) (b : USrc) (a : SReg) (off : Offset) (str : Stream) (form : MemForm)
  /-- FENCE, R132. -/
  | fence (sw : Bool) (mask : BitVec 16) (sc : Scope) (k : FenceKind)
  /-- MONITOR, R133. -/
  | monitor (sw : Bool) (a : SReg) (off : Offset)
  /-- MWAIT, R134. -/
  | mwait (sw : Bool)
  /-- PREF, R135. -/
  | pref (sw : Bool) (a : Base) (off : Offset) (str : Stream) (lvl : PrefLevel)
  /-- CLEAN, R136. -/
  | clean (sw : Bool) (a : Base) (off : Offset) (e : Extent)
  /-- INVAL, R136. -/
  | inval (sw : Bool) (a : Base) (off : Offset) (e : Extent)
  /-- LDI, R216. -/
  | ldi (sw : Bool) (d : Fin 192) (grad : Bool) (crd : Fin 128) (str : Stream) (lat : Fin 16)
  /-- SPL, R218. -/
  | spl (sw : Bool) (d : Fin 192) (grad : Bool) (crd : Fin 128) (str : Stream) (lat : Fin 16)
  /-- LDLAT, R207. -/
  | ldlat (sw : Bool) (n : Fin 16) (a : USrc)
  /-- SETTLE, R222. -/
  | settle (sw : Bool) (n : Fin 16)
  /-- ATOMAR, R128. -/
  | atomar (sw : Bool) (d : Option Dst) (a : Base) (off : Offset) (str : Stream) (fn : AtomFn)
  /-- LDQ, R122. -/
  | ldq (sw : Bool) (d : Dst) (a : Base) (off : Offset) (str : Stream) (form : MemForm)
  /-- STQ, R122. -/
  | stq (sw : Bool) (b : Src) (a : Base) (off : Offset) (str : Stream) (form : MemForm)
  /-- MMA, R233. -/
  | mma (sw : Bool) (n : Fin 8) (a b : Fin 30)
  /-- MMAB, R243. -/
  | mmab (sw : Bool) (n : Fin 8) (a : SReg) (b : Fin 30)
  /-- MMAR, R244. -/
  | mmar (sw : Bool) (n : Fin 8) (a : SReg) (b : Fin 30)
  /-- ACLR, R245. -/
  | aclr (sw : Bool) (n : Fin 8)
  /-- ACST, R248. -/
  | acst (sw : Bool) (n : Fin 8) (a b : USrc)
  /-- ACLD, R246. -/
  | acld (sw : Bool) (n : Fin 8) (a : ASrc) (b : USrc)
  /-- ACRD, R247. -/
  | acrd (sw : Bool) (d : Dst) (n : Fin 8) (b : USrc)
  /-- MHINT, R237. -/
  | mhint (sw : Bool) (a : USrc)
  /-- HADQ, R252. -/
  | hadq (sw : Bool) (d : Dst) (a : Src) (b : Fin 31)
  /-- QNT, R250. -/
  | qnt (sw : Bool) (d : Dst) (a : Src)
  /-- DQNT, R251. -/
  | dqnt (sw : Bool) (d : Dst) (a : Src)
  /-- TLWAIT, R142. -/
  | tlwait (sw : Bool) (c : TlCtx) (n : Cnt)
  /-- RING_INIT, R144; it has no count, and its B field is ignored (R33). -/
  | ringInit (sw : Bool) (r : Fin 16) (a : USrc) (unused : Byte)
  /-- RING_RSV, R145. -/
  | ringRsv (sw : Bool) (r : Fin 16) (a : Option SReg) (k : USrc)
  /-- RING_CMT, R145. -/
  | ringCmt (sw : Bool) (r : Fin 16) (k : USrc)
  /-- RING_WAIT, R145. -/
  | ringWait (sw : Bool) (r : Fin 16) (a : Option SReg) (k : USrc)
  /-- RING_REL, R145. -/
  | ringRel (sw : Bool) (r : Fin 16) (k : USrc)
  /-- RING_STAT, R145. -/
  | ringStat (sw : Bool) (r : Fin 16) (a : SReg) (k : USrc)
  /-- BAR_SYNC, R146. -/
  | barSync (sw : Bool) (l : BarLevel) (id : Fin 16) (n : Cnt)
  /-- BAR_ARRIVE, R277. -/
  | barArrive (sw : Bool) (l : BarLevel) (id : Fin 16) (n : Cnt)
  /-- BAR_WAIT, R277. -/
  | barWait (sw : Bool) (l : BarLevel) (id : Fin 16) (n : Cnt)
  /-- CSRR, R147. -/
  | csrr (sw : Bool) (d : SReg) (r : Csr)
  /-- CSRW, R147. -/
  | csrw (sw : Bool) (a : USrc) (r : Csr)
  /-- FLAGS_CLEAR, R59. -/
  | flagsClear (sw : Bool) (a : USrc)
  /-- TRAPVEC_WRITE, R315. -/
  | trapvecWrite (sw : Bool) (a : USrc)
  /-- LOAD_LANDS, R155. -/
  | loadLands (t id : Nat)
  /-- RESIDUE_RUN, R160. -/
  | residueRun (t : Nat)
  /-- CARTER_COPY, R139. -/
  | carterCopy (core ctx : Nat)
  /-- CARTER_COPY2D, R139. -/
  | carterCopy2d (core ctx : Nat)
  /-- CARTER_FILL, R139. -/
  | carterFill (core ctx : Nat)
  /-- SIFTER_SORTED_INDEX, R253. -/
  | sifterSortedIndex (core ctx : Nat)
  /-- SIFTER_BITMAP, R254. -/
  | sifterBitmap (core ctx : Nat)
  /-- MATRIX_UNIT_EXECUTE, R233. -/
  | matrixUnitExecute (core bench : Nat)
  /-- MATRIX_RAMP_UP_DONE, R236. -/
  | matrixRampUpDone (core bench : Nat)
  /-- MATRIX_HOLD_EXPIRY, R236. -/
  | matrixHoldExpiry (core bench : Nat)
  /-- MATRIX_RAMP_DOWN_DONE, R236. -/
  | matrixRampDownDone (core bench : Nat)
  /-- SETTLE_EXECUTE, R222. -/
  | settleExecute (core : Nat)
  /-- BARRIER_GENERATION_COMPLETE, R276. -/
  | barrierGenerationComplete (b : BarRef)
  /-- TAIL_WRITE, R295. -/
  | tailWrite (ctx q : Nat) (tail : W64)
  /-- LAUNCH_RECORD, R302. -/
  | launchRecord (ctx q : Nat)
  /-- SLOT_ASSIGNMENT, R297. -/
  | slotAssignment (ctx q : Nat)
  /-- DEPENDENCES_SATISFIED, R289. -/
  | dependencesSatisfied (k : Nat)
  /-- GANG_PLACEMENT, R265. -/
  | gangPlacement (k quad base : Nat)
  /-- TIME_SLICE_EXPIRY, R299. -/
  | timeSliceExpiry (slot : Nat)
  /-- GANG_CAPTURE, R269. -/
  | gangCapture (g : Nat)
  /-- GANG_RESTORATION, R270. -/
  | gangRestoration (g quad base : Nat)
  /-- KERNEL_DRAIN, R290. -/
  | kernelDrain (k : Nat)
  /-- KERNEL_COMPLETION, R291. -/
  | kernelCompletion (k : Nat)
  /-- CHANDLER_FAULT_SERVICE, R338. -/
  | chandlerFaultService (p : FaultParty) (act : FaultAct)
  /-- CHANDLER_RESUMPTION, R310. -/
  | chandlerResumption (p : FaultParty)
  /-- CONTEXT_CREATE, R319. -/
  | contextCreate (c : CtxInit)
  /-- QUEUE_ENABLE, R296. -/
  | queueEnable (ctx q : Nat)
  /-- CONTEXT_ABORT, R323. -/
  | contextAbort (ctx : Nat) (code : Byte)
  /-- CONTEXT_DESTROY, R324. -/
  | contextDestroy (ctx : Nat)
  /-- PTE_CHANGE, R336. -/
  | pteChange (ctx : Nat) (va : W64) (level : Fin 3) (pte : W64) (eg : Option (BitVec 12 × Egress))
  /-- PAGE_MIGRATION, R337. -/
  | pageMigration (ctx : Nat) (va : W64) (pte : W64)
  /-- EXPORT_GRANT, R350. -/
  | exportGrant (n : BitVec 12) (x : Ingress)
  /-- EXPORT_REVOKE, R335. -/
  | exportRevoke (n : BitVec 12)
  /-- BLOOM_FILTER_ROTATION, R339. -/
  | bloomFilterRotation (slice : Nat)
  /-- HELD_ROW_REFRESH, R341. -/
  | heldRowRefresh (channel : Nat)
  /-- ERROR_SELF_TEST, R360. -/
  | errorSelfTest (u : UnitRef) (key : Option Nat) (consumer : Option EccUse) (pass : Bool) (dis : Disable)
  /-- RMA_WRITE, R346. -/
  | rmaWrite (sess : Nat) (flow : RmaFlow) (ctx : Nat) (va : W64) (bytes : List Byte) (tss : Bool)
  /-- RMA_READ, R346. -/
  | rmaRead (sess : Nat) (flow : RmaFlow) (ctx : Nat) (va : W64) (len : Nat) (tss : Bool)
  /-- CHANDLER_REQUEST, R347. -/
  | chandlerRequest (sess : Nat) (rseq : W64) (msg : ChMsg)
  /-- FLIT_RECEIVED, R348. -/
  | flitReceived (p : Fin 16) (f : Flit)
  /-- SPAN_REQUEST, R351. -/
  | spanRequest (r : SpanReq)
  /-- NACK_RECEIVED, R365. -/
  | nackReceived (tag : BitVec 16)
  /-- REQUEST_DEADLINE, R352. -/
  | requestDeadline (tag : BitVec 16)
  /-- PORT_ENABLE, R353. -/
  | portEnable (p : PortRef)
  /-- TRAINING_END, R353. -/
  | trainingEnd (p : PortRef) (lanes : Nat)
  /-- LANE_LOSS, R353. -/
  | laneLoss (p : PortRef)
  /-- REPLAY_THRESHOLD, R353. -/
  | replayThreshold (p : PortRef)
  /-- PORT_DRAIN, R353. -/
  | portDrain (p : PortRef)
  /-- DRAIN_COMPLETE, R353. -/
  | drainComplete (p : PortRef)
  /-- PORT_RESET, R353. -/
  | portReset (p : PortRef)
  /-- FREEZE, R354. -/
  | freeze
  /-- COMPARATOR_WRITE, R355. -/
  | comparatorWrite (ctx i : Nat) (addr : W64) (ctl : CompCtl)
  /-- CONTEXT_RESUME, R356. -/
  | contextResume (ctx : Nat)
  /-- LANE_CYCLE_READ_CLEAR, R358. -/
  | laneCycleReadClear (core bench : Nat)
  /-- COLD_RESET, R362. -/
  | coldReset
  /-- FIRMWARE_IMAGE, R362. -/
  | firmwareImage (image : List Byte)
  /-- CONFIGURATION_RECORD, R363. -/
  | configurationRecord (record signature : List Byte)
  /-- ATTESTATION_REQUEST, R364. -/
  | attestationRequest (nonce : W64)
  /-- ILLEGAL_INSTRUCTION, R48. -/
  | illegalInstruction (w : W32)
  /-- SPAN_RESPONSE, R352. -/
  | spanResponse (tag : BitVec 16) (bytes : List Byte)
  /-- IMPORTED_COPY_INVALIDATION, R184. -/
  | importedCopyInvalidation (die : Nat) (page : Nat)
  /-- TOKEN_BUCKET_REFILL, R300. -/
  | tokenBucketRefill (ctx cls channel us : Nat)
  /-- HOTNESS_ENTRY_CLEAR, R340. -/
  | hotnessEntryClear (die block src : Nat)
  deriving DecidableEq, Repr

end Sys2Proof
end

