-- ==== Sys2Proof/WellFormed.lean ====
section
/-! DEFINITION. Which instructions are well formed (spec/03_encoding.md R30, R34, R47, R48): the checks that decode makes
on a word beyond those that the types of the fields already make. -/
namespace Sys2Proof

/-- Literal codes that a lane source uses (R30). -/
def Src.lits : Src → Nat
  | .lit _ => 1 | .lit64 _ => 1 | _ => 0
/-- Literal codes that a uniform source uses (R30). -/
def USrc.lits : USrc → Nat
  | .lit _ => 1 | .lit64 _ => 1 | _ => 0
/-- Literal codes that a count operand uses (R30). -/
def Cnt.lits : Cnt → Nat
  | .lit _ => 1 | .lit64 _ => 1 | _ => 0
/-- Literal codes that the address of `acld` uses (R30). -/
def ASrc.lits : ASrc → Nat
  | .lit _ => 1 | .lit64 _ => 1 | .s _ => 0
/-- The literal of LIT = 1 (R30). -/
def offLits : Offset → Nat
  | some _ => 1 | none => 0

/-- The instruction is one that decode gives (R48): at most one literal (R30), no acquire form of `ldc` and no ×2 or ×4
form of `uld` and `ust` (R47), at least one stream in a `fence` (R34), and `csrw` to FLAGS and TRAPVEC under the rows of
their own. Every event is well formed. -/
def Instr.wf : Instr → Bool
  | .nop _ => true
  | .setm _ _ => true
  | .bra _ _ => true
  | .brall _ _ _ _ => true
  | .brany _ _ _ _ => true
  | .brd _ _ _ _ _ => true
  | .join _ => true
  | .call _ _ => true
  | .ret _ => true
  | .jmpi _ _ => true
  | .exit _ => true
  | .trap _ _ => true
  | .yield _ => true
  | .region _ => true
  | .drain _ => true
  | .loop _ _ _ => true
  | .add _ _ a b => decide (a.lits + b.lits ≤ 1)
  | .sub _ _ a b => decide (a.lits + b.lits ≤ 1)
  | .mul _ _ a b => decide (a.lits + b.lits ≤ 1)
  | .fma _ _ a b => decide (a.lits + b.lits ≤ 1)
  | .fms _ _ a b => decide (a.lits + b.lits ≤ 1)
  | .min _ _ a b => decide (a.lits + b.lits ≤ 1)
  | .max _ _ a b => decide (a.lits + b.lits ≤ 1)
  | .abs _ _ _ => true
  | .neg _ _ _ => true
  | .cmp _ _ _ a b => decide (a.lits + b.lits ≤ 1)
  | .sel _ _ a b => decide (a.lits + b.lits ≤ 1)
  | .cvt _ _ _ _ => true
  | .rcp _ _ _ => true
  | .rsq _ _ _ => true
  | .sqrt _ _ _ => true
  | .div _ _ a b => decide (a.lits + b.lits ≤ 1)
  | .exp2 _ _ _ => true
  | .log2 _ _ _ => true
  | .sin _ _ _ => true
  | .cos _ _ _ => true
  | .rint _ _ _ => true
  | .class _ _ _ _ => true
  | .wmad _ _ a b => decide (a.lits + b.lits ≤ 1)
  | .dot4 _ _ a b => decide (a.lits + b.lits ≤ 1)
  | .and _ _ a b => decide (a.lits + b.lits ≤ 1)
  | .or _ _ a b => decide (a.lits + b.lits ≤ 1)
  | .xor _ _ a b => decide (a.lits + b.lits ≤ 1)
  | .not _ _ _ => true
  | .shl _ _ a b => decide (a.lits + b.lits ≤ 1)
  | .shr _ _ a b => decide (a.lits + b.lits ≤ 1)
  | .rol _ _ a b => decide (a.lits + b.lits ≤ 1)
  | .popc _ _ _ => true
  | .clz _ _ _ => true
  | .brev _ _ _ => true
  | .bfe _ _ a b => decide (a.lits + b.lits ≤ 1)
  | .bfi _ _ a b => decide (a.lits + b.lits ≤ 1)
  | .mulhi _ _ a b => decide (a.lits + b.lits ≤ 1)
  | .addc _ _ a b => decide (a.lits + b.lits ≤ 1)
  | .lea _ _ a b => decide (a.lits + b.lits ≤ 1)
  | .mov _ _ _ => true
  | .plog _ _ _ _ _ => true
  | .vtop _ _ _ => true
  | .ptov _ _ _ => true
  | .shfl _ _ a b => decide (a.lits + b.lits ≤ 1)
  | .shfx _ _ a b => decide (a.lits + b.lits ≤ 1)
  | .shfu _ _ a b => decide (a.lits + b.lits ≤ 1)
  | .shfd _ _ a b => decide (a.lits + b.lits ≤ 1)
  | .vote _ _ _ _ => true
  | .ballot _ _ a b => decide (a.lits + b.lits ≤ 1)
  | .psum _ _ _ => true
  | .redu _ _ _ => true
  | .vconf _ _ _ => true
  | .rdlane _ _ a b => decide (a.lits + b.lits ≤ 1)
  | .xset _ _ _ => true
  | .xwin _ _ _ _ => true
  | .uadd _ _ a b => decide (a.lits + b.lits ≤ 1)
  | .usub _ _ a b => decide (a.lits + b.lits ≤ 1)
  | .umul _ _ a b => decide (a.lits + b.lits ≤ 1)
  | .uand _ _ a b => decide (a.lits + b.lits ≤ 1)
  | .uor _ _ a b => decide (a.lits + b.lits ≤ 1)
  | .uxor _ _ a b => decide (a.lits + b.lits ≤ 1)
  | .ushl _ _ a b => decide (a.lits + b.lits ≤ 1)
  | .ushr _ _ a b => decide (a.lits + b.lits ≤ 1)
  | .umov _ _ _ => true
  | .umovPushQ0 _ _ => true
  | .umovPushQ2 _ _ => true
  | .umovPopQ3 _ _ => true
  | .ucmp _ _ _ a b => decide (a.lits + b.lits ≤ 1)
  | .umin _ _ a b => decide (a.lits + b.lits ≤ 1)
  | .umax _ _ a b => decide (a.lits + b.lits ≤ 1)
  | .udiv _ _ a b => decide (a.lits + b.lits ≤ 1)
  | .urem _ _ a b => decide (a.lits + b.lits ≤ 1)
  | .ld _ _ _ _ _ _ => true
  | .st _ b _ off _ _ => decide (b.lits + offLits off ≤ 1)
  | .ldc _ _ _ _ form => form != .sync
  | .lds _ _ _ _ _ _ => true
  | .sts _ b _ off _ _ => decide (b.lits + offLits off ≤ 1)
  | .atom _ _ _ _ _ _ => true
  | .atoms _ _ _ _ _ _ => true
  | .cas _ _ _ _ _ => true
  | .uld _ _ _ _ _ form => form != .x2 && form != .x4
  | .ust _ b _ off _ form => form != .x2 && form != .x4 && decide (b.lits + offLits off ≤ 1)
  | .fence _ mask _ _ => mask != 0
  | .monitor _ _ _ => true
  | .mwait _ => true
  | .pref _ _ _ _ _ => true
  | .clean _ _ _ _ => true
  | .inval _ _ _ _ => true
  | .ldi _ _ _ _ _ _ => true
  | .spl _ _ _ _ _ _ => true
  | .ldlat _ _ _ => true
  | .settle _ _ => true
  | .atomar _ _ _ _ _ _ => true
  | .ldq _ _ _ _ _ _ => true
  | .stq _ b _ off _ _ => decide (b.lits + offLits off ≤ 1)
  | .mma _ _ _ _ => true
  | .mmab _ _ _ _ => true
  | .mmar _ _ _ _ => true
  | .aclr _ _ => true
  | .acst _ _ a b => decide (a.lits + b.lits ≤ 1)
  | .acld _ _ a b => decide (a.lits + b.lits ≤ 1)
  | .acrd _ _ _ _ => true
  | .mhint _ _ => true
  | .hadq _ _ _ _ => true
  | .qnt _ _ _ => true
  | .dqnt _ _ _ => true
  | .tlwait _ _ _ => true
  | .ringInit _ _ _ _ => true
  | .ringRsv _ _ _ _ => true
  | .ringCmt _ _ _ => true
  | .ringWait _ _ _ _ => true
  | .ringRel _ _ _ => true
  | .ringStat _ _ _ _ => true
  | .barSync _ _ _ _ => true
  | .barArrive _ _ _ _ => true
  | .barWait _ _ _ _ => true
  | .csrr _ _ _ => true
  | .csrw _ _ r => r != .flags && r != .trapvec
  | .flagsClear _ _ => true
  | .trapvecWrite _ _ => true
  | .loadLands _ _ => true
  | .residueRun _ => true
  | .carterCopy _ _ => true
  | .carterCopy2d _ _ => true
  | .carterFill _ _ => true
  | .sifterSortedIndex _ _ => true
  | .sifterBitmap _ _ => true
  | .matrixUnitExecute _ _ => true
  | .matrixRampUpDone _ _ => true
  | .matrixHoldExpiry _ _ => true
  | .matrixRampDownDone _ _ => true
  | .settleExecute _ => true
  | .barrierGenerationComplete _ => true
  | .tailWrite _ _ _ => true
  | .launchRecord _ _ => true
  | .slotAssignment _ _ => true
  | .dependencesSatisfied _ => true
  | .gangPlacement _ _ _ => true
  | .timeSliceExpiry _ => true
  | .gangCapture _ => true
  | .gangRestoration _ _ _ => true
  | .kernelDrain _ => true
  | .kernelCompletion _ => true
  | .chandlerFaultService _ _ => true
  | .chandlerResumption _ => true
  | .contextCreate _ => true
  | .queueEnable _ _ => true
  | .contextAbort _ _ => true
  | .contextDestroy _ => true
  | .pteChange _ _ _ _ _ => true
  | .pageMigration _ _ _ => true
  | .exportGrant _ _ => true
  | .exportRevoke _ => true
  | .bloomFilterRotation _ => true
  | .heldRowRefresh _ => true
  | .errorSelfTest _ _ _ _ _ => true
  | .rmaWrite _ _ _ _ _ _ => true
  | .rmaRead _ _ _ _ _ _ => true
  | .chandlerRequest _ _ _ => true
  | .flitReceived _ _ => true
  | .spanRequest _ => true
  | .nackReceived _ => true
  | .requestDeadline _ => true
  | .portEnable _ => true
  | .trainingEnd _ _ => true
  | .laneLoss _ => true
  | .replayThreshold _ => true
  | .portDrain _ => true
  | .drainComplete _ => true
  | .portReset _ => true
  | .freeze => true
  | .comparatorWrite _ _ _ _ => true
  | .contextResume _ => true
  | .laneCycleReadClear _ _ => true
  | .coldReset => true
  | .firmwareImage _ => true
  | .configurationRecord _ _ => true
  | .attestationRequest _ => true
  | .illegalInstruction _ => true
  | .spanResponse _ _ => true
  | .importedCopyInvalidation _ _ => true
  | .tokenBucketRefill _ _ _ _ => true
  | .hotnessEntryClear _ _ _ => true

/-- The constructor is an instruction word; the others are steps of other agents (spec/opcode_table.json). -/
def Instr.isWord : Instr → Bool
  | .nop _ => true
  | .setm _ _ => true
  | .bra _ _ => true
  | .brall _ _ _ _ => true
  | .brany _ _ _ _ => true
  | .brd _ _ _ _ _ => true
  | .join _ => true
  | .call _ _ => true
  | .ret _ => true
  | .jmpi _ _ => true
  | .exit _ => true
  | .trap _ _ => true
  | .yield _ => true
  | .region _ => true
  | .drain _ => true
  | .loop _ _ _ => true
  | .add _ _ _ _ => true
  | .sub _ _ _ _ => true
  | .mul _ _ _ _ => true
  | .fma _ _ _ _ => true
  | .fms _ _ _ _ => true
  | .min _ _ _ _ => true
  | .max _ _ _ _ => true
  | .abs _ _ _ => true
  | .neg _ _ _ => true
  | .cmp _ _ _ _ _ => true
  | .sel _ _ _ _ => true
  | .cvt _ _ _ _ => true
  | .rcp _ _ _ => true
  | .rsq _ _ _ => true
  | .sqrt _ _ _ => true
  | .div _ _ _ _ => true
  | .exp2 _ _ _ => true
  | .log2 _ _ _ => true
  | .sin _ _ _ => true
  | .cos _ _ _ => true
  | .rint _ _ _ => true
  | .class _ _ _ _ => true
  | .wmad _ _ _ _ => true
  | .dot4 _ _ _ _ => true
  | .and _ _ _ _ => true
  | .or _ _ _ _ => true
  | .xor _ _ _ _ => true
  | .not _ _ _ => true
  | .shl _ _ _ _ => true
  | .shr _ _ _ _ => true
  | .rol _ _ _ _ => true
  | .popc _ _ _ => true
  | .clz _ _ _ => true
  | .brev _ _ _ => true
  | .bfe _ _ _ _ => true
  | .bfi _ _ _ _ => true
  | .mulhi _ _ _ _ => true
  | .addc _ _ _ _ => true
  | .lea _ _ _ _ => true
  | .mov _ _ _ => true
  | .plog _ _ _ _ _ => true
  | .vtop _ _ _ => true
  | .ptov _ _ _ => true
  | .shfl _ _ _ _ => true
  | .shfx _ _ _ _ => true
  | .shfu _ _ _ _ => true
  | .shfd _ _ _ _ => true
  | .vote _ _ _ _ => true
  | .ballot _ _ _ _ => true
  | .psum _ _ _ => true
  | .redu _ _ _ => true
  | .vconf _ _ _ => true
  | .rdlane _ _ _ _ => true
  | .xset _ _ _ => true
  | .xwin _ _ _ _ => true
  | .uadd _ _ _ _ => true
  | .usub _ _ _ _ => true
  | .umul _ _ _ _ => true
  | .uand _ _ _ _ => true
  | .uor _ _ _ _ => true
  | .uxor _ _ _ _ => true
  | .ushl _ _ _ _ => true
  | .ushr _ _ _ _ => true
  | .umov _ _ _ => true
  | .umovPushQ0 _ _ => true
  | .umovPushQ2 _ _ => true
  | .umovPopQ3 _ _ => true
  | .ucmp _ _ _ _ _ => true
  | .umin _ _ _ _ => true
  | .umax _ _ _ _ => true
  | .udiv _ _ _ _ => true
  | .urem _ _ _ _ => true
  | .ld _ _ _ _ _ _ => true
  | .st _ _ _ _ _ _ => true
  | .ldc _ _ _ _ _ => true
  | .lds _ _ _ _ _ _ => true
  | .sts _ _ _ _ _ _ => true
  | .atom _ _ _ _ _ _ => true
  | .atoms _ _ _ _ _ _ => true
  | .cas _ _ _ _ _ => true
  | .uld _ _ _ _ _ _ => true
  | .ust _ _ _ _ _ _ => true
  | .fence _ _ _ _ => true
  | .monitor _ _ _ => true
  | .mwait _ => true
  | .pref _ _ _ _ _ => true
  | .clean _ _ _ _ => true
  | .inval _ _ _ _ => true
  | .ldi _ _ _ _ _ _ => true
  | .spl _ _ _ _ _ _ => true
  | .ldlat _ _ _ => true
  | .settle _ _ => true
  | .atomar _ _ _ _ _ _ => true
  | .ldq _ _ _ _ _ _ => true
  | .stq _ _ _ _ _ _ => true
  | .mma _ _ _ _ => true
  | .mmab _ _ _ _ => true
  | .mmar _ _ _ _ => true
  | .aclr _ _ => true
  | .acst _ _ _ _ => true
  | .acld _ _ _ _ => true
  | .acrd _ _ _ _ => true
  | .mhint _ _ => true
  | .hadq _ _ _ _ => true
  | .qnt _ _ _ => true
  | .dqnt _ _ _ => true
  | .tlwait _ _ _ => true
  | .ringInit _ _ _ _ => true
  | .ringRsv _ _ _ _ => true
  | .ringCmt _ _ _ => true
  | .ringWait _ _ _ _ => true
  | .ringRel _ _ _ => true
  | .ringStat _ _ _ _ => true
  | .barSync _ _ _ _ => true
  | .barArrive _ _ _ _ => true
  | .barWait _ _ _ _ => true
  | .csrr _ _ _ => true
  | .csrw _ _ _ => true
  | .flagsClear _ _ => true
  | .trapvecWrite _ _ => true
  | .loadLands _ _ => false
  | .residueRun _ => false
  | .carterCopy _ _ => false
  | .carterCopy2d _ _ => false
  | .carterFill _ _ => false
  | .sifterSortedIndex _ _ => false
  | .sifterBitmap _ _ => false
  | .matrixUnitExecute _ _ => false
  | .matrixRampUpDone _ _ => false
  | .matrixHoldExpiry _ _ => false
  | .matrixRampDownDone _ _ => false
  | .settleExecute _ => false
  | .barrierGenerationComplete _ => false
  | .tailWrite _ _ _ => false
  | .launchRecord _ _ => false
  | .slotAssignment _ _ => false
  | .dependencesSatisfied _ => false
  | .gangPlacement _ _ _ => false
  | .timeSliceExpiry _ => false
  | .gangCapture _ => false
  | .gangRestoration _ _ _ => false
  | .kernelDrain _ => false
  | .kernelCompletion _ => false
  | .chandlerFaultService _ _ => false
  | .chandlerResumption _ => false
  | .contextCreate _ => false
  | .queueEnable _ _ => false
  | .contextAbort _ _ => false
  | .contextDestroy _ => false
  | .pteChange _ _ _ _ _ => false
  | .pageMigration _ _ _ => false
  | .exportGrant _ _ => false
  | .exportRevoke _ => false
  | .bloomFilterRotation _ => false
  | .heldRowRefresh _ => false
  | .errorSelfTest _ _ _ _ _ => false
  | .rmaWrite _ _ _ _ _ _ => false
  | .rmaRead _ _ _ _ _ _ => false
  | .chandlerRequest _ _ _ => false
  | .flitReceived _ _ => false
  | .spanRequest _ => false
  | .nackReceived _ => false
  | .requestDeadline _ => false
  | .portEnable _ => false
  | .trainingEnd _ _ => false
  | .laneLoss _ => false
  | .replayThreshold _ => false
  | .portDrain _ => false
  | .drainComplete _ => false
  | .portReset _ => false
  | .freeze => false
  | .comparatorWrite _ _ _ _ => false
  | .contextResume _ => false
  | .laneCycleReadClear _ _ => false
  | .coldReset => false
  | .firmwareImage _ => false
  | .configurationRecord _ _ => false
  | .attestationRequest _ => false
  | .illegalInstruction _ => false
  | .spanResponse _ _ => false
  | .importedCopyInvalidation _ _ => false
  | .tokenBucketRefill _ _ _ _ => false
  | .hotnessEntryClear _ _ _ => false

end Sys2Proof
end

