-- ==== Sys2Proof/Decode.lean ====
section
/-! DEFINITION. Decoding and encoding of instruction words (spec/03_encoding.md): the codes of the operands and fields, the
opcode map of R45, `decodeWord` (total: `none` for every encoding that R48 refuses at decode), `encode` from the same
tables, and `decodeTableWord` for words numbered as spec/opcode_table.json numbers them. -/
namespace Sys2Proof

/-! ## Fields of a word -/

/-- Bits [lo + n − 1 : lo] of a word (R3). -/
def fld (w lo n : Nat) : Nat := w / 2 ^ lo % 2 ^ n
/-- The word of major opcode `maj` with switch marker `sw` and bits 23:0 `body` (R29). -/
def mkWord (sw : Bool) (maj body : Nat) : W32 := BitVec.ofNat 32 (sw.toNat * 2 ^ 31 + maj * 2 ^ 24 + body)
/-- Bits 23:0 of formats R and C: three bytes D, A, B (R33). -/
def bodyR (d a b : Nat) : Nat := d * 2 ^ 16 + a * 2 ^ 8 + b
/-- Bits 23:0 of format M (R33). -/
def bodyM (d a str lit fn : Nat) : Nat := d * 2 ^ 16 + a * 2 ^ 8 + str * 2 ^ 4 + lit * 2 ^ 3 + fn

/-! ## Operand codes (R35) -/

/-- The code of a lane source. -/
def Src.code : Src → Nat
  | .v r => r.val | .s r => 192 + r.val | .lane => 224 | .team => 225 | .core => 226 | .clock => 227
  | .konst n => 232 + n.val | .lit _ => 240 | .lit64 _ => 241 | .idx n => 244 + n.val
/-- The code of a uniform source. -/
def USrc.code : USrc → Nat
  | .s r => 192 + r.val | .team => 225 | .core => 226 | .clock => 227
  | .konst n => 232 + n.val | .lit _ => 240 | .lit64 _ => 241
/-- The code of a count operand. -/
def Cnt.code : Cnt → Nat
  | .s r => 192 + r.val | .konst n => 232 + n.val | .lit _ => 240 | .lit64 _ => 241
/-- The code of the address operand of `acld`. -/
def ASrc.code : ASrc → Nat
  | .s r => 192 + r.val | .lit _ => 240 | .lit64 _ => 241
/-- The code of a lane destination. -/
def Dst.code : Dst → Nat
  | .v r => r.val | .idx n => 244 + n.val
/-- The code of a lane-memory address. -/
def Base.code : Base → Nat
  | .v r => r.val | .s r => 192 + r.val | .idx n => 244 + n.val
/-- The code of an atomic's operand: 0xE8 is the form without old value (R35, R128). -/
def atomDstCode : Option Dst → Nat
  | some d => d.code | none => 232
/-- The code of the s destination of ring rsv and wait: 0xE8 discards the count (R145). -/
def ringDstCode : Option SReg → Nat
  | some r => 192 + r.val | none => 232

/-- The 64-bit literal of two words, low word first (R30). -/
def lit2 (l0 l1 : W32) : W64 := BitVec.ofNat 64 (l1.toNat * 2 ^ 32 + l0.toNat)

/-- A lane source from its code and the words that follow (column "Lane source" of R35). -/
def Src.dec (c : Nat) (l0 l1 : W32) : Option Src :=
  if c < 192 then some (.v (Fin.ofNat 192 c))
  else if c < 224 then some (.s (Fin.ofNat 32 (c - 192)))
  else if c = 224 then some .lane
  else if c = 225 then some .team
  else if c = 226 then some .core
  else if c = 227 then some .clock
  else if c < 232 then none
  else if c < 240 then some (.konst (Fin.ofNat 8 (c - 232)))
  else if c = 240 then some (.lit l0)
  else if c = 241 then some (.lit64 (lit2 l0 l1))
  else if c < 244 then none
  else if c < 248 then some (.idx (Fin.ofNat 4 (c - 244)))
  else none
/-- A uniform source from its code (column "Uniform source" of R35). -/
def USrc.dec (c : Nat) (l0 l1 : W32) : Option USrc :=
  if c < 192 then none
  else if c < 224 then some (.s (Fin.ofNat 32 (c - 192)))
  else if c = 225 then some .team
  else if c = 226 then some .core
  else if c = 227 then some .clock
  else if c < 232 then none
  else if c < 240 then some (.konst (Fin.ofNat 8 (c - 232)))
  else if c = 240 then some (.lit l0)
  else if c = 241 then some (.lit64 (lit2 l0 l1))
  else none
/-- A count operand from its code (R34, R46). -/
def Cnt.dec (c : Nat) (l0 l1 : W32) : Option Cnt :=
  if c < 192 then none
  else if c < 224 then some (.s (Fin.ofNat 32 (c - 192)))
  else if c < 232 then none
  else if c < 240 then some (.konst (Fin.ofNat 8 (c - 232)))
  else if c = 240 then some (.lit l0)
  else if c = 241 then some (.lit64 (lit2 l0 l1))
  else none
/-- The address operand of `acld` from its code (R36). -/
def ASrc.dec (c : Nat) (l0 l1 : W32) : Option ASrc :=
  if c < 192 then none
  else if c < 224 then some (.s (Fin.ofNat 32 (c - 192)))
  else if c = 240 then some (.lit l0)
  else if c = 241 then some (.lit64 (lit2 l0 l1))
  else none
/-- A lane destination from its code (R35). -/
def Dst.dec (c : Nat) : Option Dst :=
  if c < 192 then some (.v (Fin.ofNat 192 c))
  else if c < 244 then none
  else if c < 248 then some (.idx (Fin.ofNat 4 (c - 244)))
  else none
/-- A lane-memory address from its code (R47). -/
def Base.dec (c : Nat) : Option Base :=
  if c < 192 then some (.v (Fin.ofNat 192 c))
  else if c < 224 then some (.s (Fin.ofNat 32 (c - 192)))
  else if c < 244 then none
  else if c < 248 then some (.idx (Fin.ofNat 4 (c - 244)))
  else none
/-- An s code (R35). -/
def sregDec (c : Nat) : Option SReg :=
  if c < 192 then none else if c < 224 then some (Fin.ofNat 32 (c - 192)) else none
/-- A code below `n` (a v code, or a sub-field with reserved values above). -/
def finDec (n : Nat) [NeZero n] (c : Nat) : Option (Fin n) :=
  if c < n then some (Fin.ofNat n c) else none
/-- The operand of an atomic (R35, R47). -/
def atomDstDec (c : Nat) : Option (Option Dst) :=
  if c = 232 then some none else (Dst.dec c).map some
/-- The destination of ring rsv and wait (R145). -/
def ringDstDec (c : Nat) : Option (Option SReg) :=
  if c = 232 then some none else (sregDec c).map some
/-- The offset of a memory word: the literal where LIT = 1 (R30). -/
def offDec (lit : Nat) (l0 : W32) : Offset := if lit = 0 then none else some l0

/-! ## Codes of the other fields -/

/-- Element-type codes (R43). -/
def Ty.code : Ty → Nat
  | .i32 => 0
  | .u32 => 1
  | .i64 => 2
  | .u64 => 3
  | .i16x2 => 4
  | .u16x2 => 5
  | .i8x4 => 6
  | .u8x4 => 7
  | .f32 => 8
  | .f64 => 9
  | .f16x2 => 10
  | .bf16x2 => 11
  | .e4m3x4 => 12
  | .e5m2x4 => 13
  | .e2m1x8 => 14
  | .tern16 => 15
  | .i4x8 => 16

/-- Element-type codes (R43). Other codes are reserved. -/
def Ty.dec : Nat → Option Ty
  | 0 => Option.some .i32
  | 1 => Option.some .u32
  | 2 => Option.some .i64
  | 3 => Option.some .u64
  | 4 => Option.some .i16x2
  | 5 => Option.some .u16x2
  | 6 => Option.some .i8x4
  | 7 => Option.some .u8x4
  | 8 => Option.some .f32
  | 9 => Option.some .f64
  | 10 => Option.some .f16x2
  | 11 => Option.some .bf16x2
  | 12 => Option.some .e4m3x4
  | 13 => Option.some .e5m2x4
  | 14 => Option.some .e2m1x8
  | 15 => Option.some .tern16
  | 16 => Option.some .i4x8
  | _ => none

/-- Rounding codes (R41). -/
def Rnd.code : Rnd → Nat
  | .rne => 0
  | .rtz => 1
  | .rup => 2
  | .rdn => 3
  | .rna => 4

/-- Rounding codes (R41). Other codes are reserved. -/
def Rnd.dec : Nat → Option Rnd
  | 0 => Option.some .rne
  | 1 => Option.some .rtz
  | 2 => Option.some .rup
  | 3 => Option.some .rdn
  | 4 => Option.some .rna
  | _ => none

/-- Scope codes (R12). -/
def Scope.code : Scope → Nat
  | .core => 0
  | .quad => 1
  | .die => 2
  | .pkg => 3
  | .pod => 4

/-- Scope codes (R12). Other codes are reserved. -/
def Scope.dec : Nat → Option Scope
  | 0 => Option.some .core
  | 1 => Option.some .quad
  | 2 => Option.some .die
  | 3 => Option.some .pkg
  | 4 => Option.some .pod
  | _ => none

/-- Functions of `cmp` and `ucmp` (R34). -/
def Rel.code : Rel → Nat
  | .eq => 0
  | .ne => 1
  | .lt => 2
  | .le => 3
  | .gt => 4
  | .ge => 5
  | .nan => 6
  | .num => 7

/-- Functions of `cmp` and `ucmp` (R34). Other codes are reserved. -/
def Rel.dec : Nat → Option Rel
  | 0 => Option.some .eq
  | 1 => Option.some .ne
  | 2 => Option.some .lt
  | 3 => Option.some .le
  | 4 => Option.some .gt
  | 5 => Option.some .ge
  | 6 => Option.some .nan
  | 7 => Option.some .num
  | _ => none

/-- Functions of `class` (R34). -/
def ClassTest.code : ClassTest → Nat
  | .nan => 0
  | .inf => 1
  | .zero => 2
  | .sub => 3
  | .norm => 4
  | .neg => 5

/-- Functions of `class` (R34). Other codes are reserved. -/
def ClassTest.dec : Nat → Option ClassTest
  | 0 => Option.some .nan
  | 1 => Option.some .inf
  | 2 => Option.some .zero
  | 3 => Option.some .sub
  | 4 => Option.some .norm
  | 5 => Option.some .neg
  | _ => none

/-- Functions of `vote` (R34). -/
def VoteFn.code : VoteFn → Nat
  | .every => 0
  | .some => 1
  | .same => 2
  | .odd => 3

/-- Functions of `vote` (R34). Other codes are reserved. -/
def VoteFn.dec : Nat → Option VoteFn
  | 0 => Option.some .every
  | 1 => Option.some .some
  | 2 => Option.some .same
  | 3 => Option.some .odd
  | _ => none

/-- Kinds of `fence` (R34). -/
def FenceKind.code : FenceKind → Nat
  | .acq => 0
  | .rel => 1
  | .acqrel => 2
  | .sc => 3

/-- Kinds of `fence` (R34). Other codes are reserved. -/
def FenceKind.dec : Nat → Option FenceKind
  | 0 => Option.some .acq
  | 1 => Option.some .rel
  | 2 => Option.some .acqrel
  | 3 => Option.some .sc
  | _ => none

/-- FN of the loads and stores (R47). -/
def MemForm.code : MemForm → Nat
  | .nat => 0
  | .x2 => 1
  | .x4 => 2
  | .byte => 3
  | .half => 4
  | .sync => 5

/-- FN of the loads and stores (R47). Other codes are reserved. -/
def MemForm.dec : Nat → Option MemForm
  | 0 => Option.some .nat
  | 1 => Option.some .x2
  | 2 => Option.some .x4
  | 3 => Option.some .byte
  | 4 => Option.some .half
  | 5 => Option.some .sync
  | _ => none

/-- FN of the atomics (R47). -/
def AtomFn.code : AtomFn → Nat
  | .add => 0
  | .min => 1
  | .max => 2
  | .and => 3
  | .or => 4
  | .xor => 5
  | .exch => 6
  | .incw => 7

/-- FN of the atomics (R47). Other codes are reserved. -/
def AtomFn.dec : Nat → Option AtomFn
  | 0 => Option.some .add
  | 1 => Option.some .min
  | 2 => Option.some .max
  | 3 => Option.some .and
  | 4 => Option.some .or
  | 5 => Option.some .xor
  | 6 => Option.some .exch
  | 7 => Option.some .incw
  | _ => none

/-- FN of `pref` (R47). -/
def PrefLevel.code : PrefLevel → Nat
  | .l1 => 0
  | .home => 1
  | .msc => 2

/-- FN of `pref` (R47). Other codes are reserved. -/
def PrefLevel.dec : Nat → Option PrefLevel
  | 0 => Option.some .l1
  | 1 => Option.some .home
  | 2 => Option.some .msc
  | _ => none

/-- FN of `clean` and `inval` (R47). -/
def Extent.code : Extent → Nat
  | .line => 0
  | .page => 1

/-- FN of `clean` and `inval` (R47). Other codes are reserved. -/
def Extent.dec : Nat → Option Extent
  | 0 => Option.some .line
  | 1 => Option.some .page
  | _ => none

/-- Barrier levels (R34). -/
def BarLevel.code : BarLevel → Nat
  | .cohort => 0
  | .gang => 1
  | .die => 2
  | .pkg => 3
  | .pod => 4

/-- Barrier levels (R34). Other codes are reserved. -/
def BarLevel.dec : Nat → Option BarLevel
  | 0 => Option.some .cohort
  | 1 => Option.some .gang
  | 2 => Option.some .die
  | 3 => Option.some .pkg
  | 4 => Option.some .pod
  | _ => none

/-- Class × 16 + context of `tlwait` (R34). -/
def TlCtx.code : TlCtx → Nat
  | .copy c => c.val | .sift c => 16 + c.val | .matrix => 32 | .settle => 48
/-- Class and context of `tlwait` (R34); classes 4 to 15 and contexts out of range are reserved. -/
def TlCtx.dec (c : Nat) : Option TlCtx :=
  if c < 16 then some (.copy (Fin.ofNat 16 c))
  else if c < 20 then some (.sift (Fin.ofNat 4 (c - 16)))
  else if c = 32 then some .matrix
  else if c = 48 then some .settle
  else none

/-- FIELD × 2^20 + VALUE of `setm` (R42). -/
def ModeField.code : ModeField → Nat
  | .g gn p => gn.toNat * 8 + p.val
  | .s p => 1 * 2 ^ 20 + p.val
  | .t ty => 2 * 2 ^ 20 + ty.code
  | .rnd r => 3 * 2 ^ 20 + r.code
  | .sat b => 4 * 2 ^ 20 + b.toNat
  | .ftz b => 5 * 2 ^ 20 + b.toNat
  | .df b => 6 * 2 ^ 20 + b.toNat
  | .sc c => 7 * 2 ^ 20 + c.code
/-- A one-bit VALUE of `setm` (R42). -/
def bitDec (v : Nat) : Option Bool := if v < 2 then some (v == 1) else none
/-- FIELD and VALUE of `setm`; fields 8 to 15 and values outside their sets are refused (R42). -/
def ModeField.dec (f v : Nat) : Option ModeField :=
  if f = 0 then (if v < 16 then some (.g (v / 8 == 1) (Fin.ofNat 8 (v % 8))) else none)
  else if f = 1 then (if v < 8 then some (.s (Fin.ofNat 8 v)) else none)
  else if f = 2 then (Ty.dec v).map .t
  else if f = 3 then (Rnd.dec v).map .rnd
  else if f = 4 then (bitDec v).map .sat
  else if f = 5 then (bitDec v).map .ftz
  else if f = 6 then (bitDec v).map .df
  else if f = 7 then (Scope.dec v).map .sc
  else none

/-- Control-register numbers (R147). -/
def Csr.code : Csr → Nat
  | .mode => 0
  | .flags => 1
  | .regions => 2
  | .repc => 3
  | .rdepth => 4
  | .trapvec => 5
  | .stkdepth => 6
  | .rescap => 8
  | .resstall => 9
  | .mprog => 16
  | .mfill => 17
  | .spbankc => 24
  | .cycle => 32
  | .passes => 33
  | .clears => 34
  | .tslice => 48
  | .rtmo => 49
  | .tlmat => 280
  | .tlsettle => 284
  | .nxmat => 312
  | .nxsettle => 316
  | .tlcopy n => 256 + n.val
  | .tlsift n => 272 + n.val
  | .nxcopy n => 288 + n.val
  | .nxsift n => 304 + n.val

/-- The register of a number; unassigned numbers are refused (R34, R147). -/
def Csr.dec (n : Nat) : Option Csr :=
  if n = 0 then some .mode
  else if n = 1 then some .flags
  else if n = 2 then some .regions
  else if n = 3 then some .repc
  else if n = 4 then some .rdepth
  else if n = 5 then some .trapvec
  else if n = 6 then some .stkdepth
  else if n = 8 then some .rescap
  else if n = 9 then some .resstall
  else if n = 16 then some .mprog
  else if n = 17 then some .mfill
  else if n = 24 then some .spbankc
  else if n = 32 then some .cycle
  else if n = 33 then some .passes
  else if n = 34 then some .clears
  else if n = 48 then some .tslice
  else if n = 49 then some .rtmo
  else if n = 280 then some .tlmat
  else if n = 284 then some .tlsettle
  else if n = 312 then some .nxmat
  else if n = 316 then some .nxsettle
  else if n < 256 then none
  else if n < 272 then some (.tlcopy (Fin.ofNat 16 (n - 256)))
  else if n < 276 then some (.tlsift (Fin.ofNat 4 (n - 272)))
  else if n < 288 then none
  else if n < 304 then some (.nxcopy (Fin.ofNat 16 (n - 288)))
  else if n < 308 then some (.nxsift (Fin.ofNat 4 (n - 304)))
  else none

/-! ## Decoding (R45 to R48) -/

/-- The functions of `ring` (R46, R145); 6 and 7 are reserved. `init` has no count (R144): any
B field is ignored (R33). -/
def ringDec (sw : Bool) (r : Fin 16) (fn a b : Nat) (l0 l1 : W32) : Option Instr :=
  if fn = 0 then (USrc.dec a l0 l1).bind fun a => some (.ringInit sw r a (BitVec.ofNat 8 b))
  else (USrc.dec b l0 l1).bind fun k =>
  if fn = 1 then (ringDstDec a).bind fun a => some (.ringRsv sw r a k)
  else if fn = 2 then some (.ringCmt sw r k)
  else if fn = 3 then (ringDstDec a).bind fun a => some (.ringWait sw r a k)
  else if fn = 4 then some (.ringRel sw r k)
  else if fn = 5 then (sregDec a).bind fun a => some (.ringStat sw r a k)
  else none
/-- The functions of `bar` (R34); 3 is reserved. -/
def barDec (sw : Bool) (l : BarLevel) (id : Fin 16) (fn : Nat) (n : Cnt) : Option Instr :=
  if fn = 0 then some (.barSync sw l id n)
  else if fn = 1 then some (.barArrive sw l id n)
  else if fn = 2 then some (.barWait sw l id n)
  else none
/-- `csrw`, with the rows of their own of FLAGS and TRAPVEC. -/
def csrwDec (sw : Bool) (a : USrc) (r : Csr) : Instr :=
  if r = .flags then .flagsClear sw a else if r = .trapvec then .trapvecWrite sw a else .csrw sw a r

/-- Row 0x0_ of the opcode map (R45): `lo` is bits 27:24, `d`, `a`, `b` the bytes of the word, `w` the word. -/
def decRow0 (sw : Bool) (lo w d a _b : Nat) (l0 l1 : W32) : Option Instr :=
  if lo = 0 then some (.nop sw)
  else if lo = 1 then (ModeField.dec (fld w 20 4) (fld w 0 20)).bind fun f => some (.setm sw f)
  else if lo = 2 then some (.bra sw (BitVec.ofNat 24 (fld w 0 24)))
  else if lo = 3 then some (.brall sw (Fin.ofNat 8 (fld w 21 3)) (fld w 20 1 == 1) (BitVec.ofNat 20 (fld w 0 20)))
  else if lo = 4 then some (.brany sw (Fin.ofNat 8 (fld w 21 3)) (fld w 20 1 == 1) (BitVec.ofNat 20 (fld w 0 20)))
  else if lo = 5 then some (.brd sw (Fin.ofNat 8 (fld w 21 3)) (fld w 20 1 == 1) (BitVec.ofNat 20 (fld w 0 20)) l0)
  else if lo = 6 then some (.join sw)
  else if lo = 7 then some (.call sw (BitVec.ofNat 24 (fld w 0 24)))
  else if lo = 8 then some (.ret sw)
  else if lo = 9 then (USrc.dec a l0 l1).bind fun a => some (.jmpi sw a)
  else if lo = 10 then some (.exit sw)
  else if lo = 11 then some (.trap sw (BitVec.ofNat 24 (fld w 0 24)))
  else if lo = 12 then some (.yield sw)
  else if lo = 13 then some (.region sw)
  else if lo = 14 then some (.drain sw)
  else if lo = 15 then (sregDec d).bind fun c => some (.loop sw c (BitVec.ofNat 16 (fld w 0 16)))
  else none

/-- Row 0x1_ of the opcode map (R45): `lo` is bits 27:24, `d`, `a`, `b` the bytes of the word, `w` the word. -/
def decRow1 (sw : Bool) (lo w d a b : Nat) (l0 l1 : W32) : Option Instr :=
  if lo = 0 then (Dst.dec d).bind fun d => (Src.dec a l0 l1).bind fun a => (Src.dec b l0 l1).bind fun b => some (.add sw d a b)
  else if lo = 1 then (Dst.dec d).bind fun d => (Src.dec a l0 l1).bind fun a => (Src.dec b l0 l1).bind fun b => some (.sub sw d a b)
  else if lo = 2 then (Dst.dec d).bind fun d => (Src.dec a l0 l1).bind fun a => (Src.dec b l0 l1).bind fun b => some (.mul sw d a b)
  else if lo = 3 then (Dst.dec d).bind fun d => (Src.dec a l0 l1).bind fun a => (Src.dec b l0 l1).bind fun b => some (.fma sw d a b)
  else if lo = 4 then (Dst.dec d).bind fun d => (Src.dec a l0 l1).bind fun a => (Src.dec b l0 l1).bind fun b => some (.fms sw d a b)
  else if lo = 5 then (Dst.dec d).bind fun d => (Src.dec a l0 l1).bind fun a => (Src.dec b l0 l1).bind fun b => some (.min sw d a b)
  else if lo = 6 then (Dst.dec d).bind fun d => (Src.dec a l0 l1).bind fun a => (Src.dec b l0 l1).bind fun b => some (.max sw d a b)
  else if lo = 7 then (Dst.dec d).bind fun d => (Src.dec a l0 l1).bind fun a => some (.abs sw d a)
  else if lo = 8 then (Dst.dec d).bind fun d => (Src.dec a l0 l1).bind fun a => some (.neg sw d a)
  else if lo = 9 then (Rel.dec (fld w 16 5)).bind fun f => (Src.dec a l0 l1).bind fun a => (Src.dec b l0 l1).bind fun b => some (.cmp sw (Fin.ofNat 8 (fld w 21 3)) f a b)
  else if lo = 10 then (Dst.dec d).bind fun d => (Src.dec a l0 l1).bind fun a => (Src.dec b l0 l1).bind fun b => some (.sel sw d a b)
  else if lo = 11 then (Dst.dec d).bind fun d => (Src.dec a l0 l1).bind fun a => (Ty.dec b).bind fun t => some (.cvt sw d a t)
  else if lo = 12 then (Dst.dec d).bind fun d => (Src.dec a l0 l1).bind fun a => some (.rcp sw d a)
  else if lo = 13 then (Dst.dec d).bind fun d => (Src.dec a l0 l1).bind fun a => some (.rsq sw d a)
  else if lo = 14 then (Dst.dec d).bind fun d => (Src.dec a l0 l1).bind fun a => some (.sqrt sw d a)
  else if lo = 15 then (Dst.dec d).bind fun d => (Src.dec a l0 l1).bind fun a => (Src.dec b l0 l1).bind fun b => some (.div sw d a b)
  else none

/-- Row 0x2_ of the opcode map (R45): `lo` is bits 27:24, `d`, `a`, `b` the bytes of the word, `w` the word. -/
def decRow2 (sw : Bool) (lo w d a b : Nat) (l0 l1 : W32) : Option Instr :=
  if lo = 0 then (Dst.dec d).bind fun d => (Src.dec a l0 l1).bind fun a => some (.exp2 sw d a)
  else if lo = 1 then (Dst.dec d).bind fun d => (Src.dec a l0 l1).bind fun a => some (.log2 sw d a)
  else if lo = 2 then (Dst.dec d).bind fun d => (Src.dec a l0 l1).bind fun a => some (.sin sw d a)
  else if lo = 3 then (Dst.dec d).bind fun d => (Src.dec a l0 l1).bind fun a => some (.cos sw d a)
  else if lo = 4 then (Dst.dec d).bind fun d => (Src.dec a l0 l1).bind fun a => some (.rint sw d a)
  else if lo = 5 then (ClassTest.dec (fld w 16 5)).bind fun f => (Src.dec a l0 l1).bind fun a => some (.class sw (Fin.ofNat 8 (fld w 21 3)) f a)
  else if lo = 6 then (Dst.dec d).bind fun d => (Src.dec a l0 l1).bind fun a => (Src.dec b l0 l1).bind fun b => some (.wmad sw d a b)
  else if lo = 7 then (Dst.dec d).bind fun d => (Src.dec a l0 l1).bind fun a => (Src.dec b l0 l1).bind fun b => some (.dot4 sw d a b)
  else if lo = 8 then (Dst.dec d).bind fun d => (Src.dec a l0 l1).bind fun a => (Src.dec b l0 l1).bind fun b => some (.and sw d a b)
  else if lo = 9 then (Dst.dec d).bind fun d => (Src.dec a l0 l1).bind fun a => (Src.dec b l0 l1).bind fun b => some (.or sw d a b)
  else if lo = 10 then (Dst.dec d).bind fun d => (Src.dec a l0 l1).bind fun a => (Src.dec b l0 l1).bind fun b => some (.xor sw d a b)
  else if lo = 11 then (Dst.dec d).bind fun d => (Src.dec a l0 l1).bind fun a => some (.not sw d a)
  else if lo = 12 then (Dst.dec d).bind fun d => (Src.dec a l0 l1).bind fun a => (Src.dec b l0 l1).bind fun b => some (.shl sw d a b)
  else if lo = 13 then (Dst.dec d).bind fun d => (Src.dec a l0 l1).bind fun a => (Src.dec b l0 l1).bind fun b => some (.shr sw d a b)
  else if lo = 14 then (Dst.dec d).bind fun d => (Src.dec a l0 l1).bind fun a => (Src.dec b l0 l1).bind fun b => some (.rol sw d a b)
  else if lo = 15 then (Dst.dec d).bind fun d => (Src.dec a l0 l1).bind fun a => some (.popc sw d a)
  else none

/-- Row 0x3_ of the opcode map (R45): `lo` is bits 27:24, `d`, `a`, `b` the bytes of the word, `w` the word. -/
def decRow3 (sw : Bool) (lo w d a b : Nat) (l0 l1 : W32) : Option Instr :=
  if lo = 0 then (Dst.dec d).bind fun d => (Src.dec a l0 l1).bind fun a => some (.clz sw d a)
  else if lo = 1 then (Dst.dec d).bind fun d => (Src.dec a l0 l1).bind fun a => some (.brev sw d a)
  else if lo = 2 then (Dst.dec d).bind fun d => (Src.dec a l0 l1).bind fun a => (Src.dec b l0 l1).bind fun b => some (.bfe sw d a b)
  else if lo = 3 then (Dst.dec d).bind fun d => (Src.dec a l0 l1).bind fun a => (Src.dec b l0 l1).bind fun b => some (.bfi sw d a b)
  else if lo = 4 then (Dst.dec d).bind fun d => (Src.dec a l0 l1).bind fun a => (Src.dec b l0 l1).bind fun b => some (.mulhi sw d a b)
  else if lo = 5 then (Dst.dec d).bind fun d => (Src.dec a l0 l1).bind fun a => (Src.dec b l0 l1).bind fun b => some (.addc sw d a b)
  else if lo = 6 then (Dst.dec d).bind fun d => (Src.dec a l0 l1).bind fun a => (Src.dec b l0 l1).bind fun b => some (.lea sw d a b)
  else if lo = 7 then (Dst.dec d).bind fun d => (Src.dec a l0 l1).bind fun a => some (.mov sw d a)
  else if lo = 8 then some (.plog sw (Fin.ofNat 8 (fld w 21 3)) (Fin.ofNat 8 (fld w 18 3)) (Fin.ofNat 8 (fld w 15 3)) (BitVec.ofNat 4 (fld w 11 4)))
  else if lo = 9 then (finDec 8 d).bind fun p => (Src.dec a l0 l1).bind fun a => some (.vtop sw p a)
  else if lo = 10 then (Dst.dec d).bind fun d => (finDec 8 a).bind fun p => some (.ptov sw d p)
  else if lo = 11 then (Dst.dec d).bind fun d => (Src.dec a l0 l1).bind fun a => (Src.dec b l0 l1).bind fun b => some (.shfl sw d a b)
  else if lo = 12 then (Dst.dec d).bind fun d => (Src.dec a l0 l1).bind fun a => (Src.dec b l0 l1).bind fun b => some (.shfx sw d a b)
  else if lo = 13 then (Dst.dec d).bind fun d => (Src.dec a l0 l1).bind fun a => (Src.dec b l0 l1).bind fun b => some (.shfu sw d a b)
  else if lo = 14 then (Dst.dec d).bind fun d => (Src.dec a l0 l1).bind fun a => (Src.dec b l0 l1).bind fun b => some (.shfd sw d a b)
  else if lo = 15 then (VoteFn.dec (fld w 16 5)).bind fun f => (Src.dec a l0 l1).bind fun a => some (.vote sw (Fin.ofNat 8 (fld w 21 3)) f a)
  else none

/-- Row 0x4_ of the opcode map (R45): `lo` is bits 27:24, `d`, `a`, `b` the bytes of the word, `w` the word. -/
def decRow4 (sw : Bool) (lo _w d a b : Nat) (l0 l1 : W32) : Option Instr :=
  if lo = 0 then (sregDec d).bind fun d => (Src.dec a l0 l1).bind fun a => (USrc.dec b l0 l1).bind fun b => some (.ballot sw d a b)
  else if lo = 1 then (Dst.dec d).bind fun d => (Src.dec a l0 l1).bind fun a => some (.psum sw d a)
  else if lo = 2 then (sregDec d).bind fun d => (Src.dec a l0 l1).bind fun a => some (.redu sw d a)
  else if lo = 3 then (Dst.dec d).bind fun d => (Src.dec a l0 l1).bind fun a => some (.vconf sw d a)
  else if lo = 4 then (sregDec d).bind fun d => (Src.dec a l0 l1).bind fun a => (USrc.dec b l0 l1).bind fun b => some (.rdlane sw d a b)
  else if lo = 5 then (finDec 4 d).bind fun x => (Src.dec a l0 l1).bind fun a => some (.xset sw x a)
  else if lo = 6 then (finDec 4 d).bind fun x => (finDec 192 a).bind fun v => (Cnt.dec b l0 l1).bind fun n => some (.xwin sw x v n)
  else if lo = 8 then (sregDec d).bind fun d => (USrc.dec a l0 l1).bind fun a => (USrc.dec b l0 l1).bind fun b => some (.uadd sw d a b)
  else if lo = 9 then (sregDec d).bind fun d => (USrc.dec a l0 l1).bind fun a => (USrc.dec b l0 l1).bind fun b => some (.usub sw d a b)
  else if lo = 10 then (sregDec d).bind fun d => (USrc.dec a l0 l1).bind fun a => (USrc.dec b l0 l1).bind fun b => some (.umul sw d a b)
  else if lo = 11 then (sregDec d).bind fun d => (USrc.dec a l0 l1).bind fun a => (USrc.dec b l0 l1).bind fun b => some (.uand sw d a b)
  else if lo = 12 then (sregDec d).bind fun d => (USrc.dec a l0 l1).bind fun a => (USrc.dec b l0 l1).bind fun b => some (.uor sw d a b)
  else if lo = 13 then (sregDec d).bind fun d => (USrc.dec a l0 l1).bind fun a => (USrc.dec b l0 l1).bind fun b => some (.uxor sw d a b)
  else if lo = 14 then (sregDec d).bind fun d => (USrc.dec a l0 l1).bind fun a => (USrc.dec b l0 l1).bind fun b => some (.ushl sw d a b)
  else if lo = 15 then (sregDec d).bind fun d => (USrc.dec a l0 l1).bind fun a => (USrc.dec b l0 l1).bind fun b => some (.ushr sw d a b)
  else none

/-- Row 0x5_ of the opcode map (R45): `lo` is bits 27:24, `d`, `a`, `b` the bytes of the word, `w` the word. -/
def decRow5 (sw : Bool) (lo w d a b : Nat) (l0 l1 : W32) : Option Instr :=
  if lo = 0 then (
    if d = 248 then (USrc.dec a l0 l1).bind fun a => some (.umovPushQ0 sw a)
      else if d = 250 then (USrc.dec a l0 l1).bind fun a => some (.umovPushQ2 sw a)
      else if a = 251 then (sregDec d).bind fun d => some (.umovPopQ3 sw d)
      else (sregDec d).bind fun d => (USrc.dec a l0 l1).bind fun a => some (.umov sw d a))
  else if lo = 1 then (Rel.dec (fld w 16 5)).bind fun f => (USrc.dec a l0 l1).bind fun a => (USrc.dec b l0 l1).bind fun b => some (.ucmp sw (Fin.ofNat 8 (fld w 21 3)) f a b)
  else if lo = 2 then (sregDec d).bind fun d => (USrc.dec a l0 l1).bind fun a => (USrc.dec b l0 l1).bind fun b => some (.umin sw d a b)
  else if lo = 3 then (sregDec d).bind fun d => (USrc.dec a l0 l1).bind fun a => (USrc.dec b l0 l1).bind fun b => some (.umax sw d a b)
  else if lo = 4 then (sregDec d).bind fun d => (USrc.dec a l0 l1).bind fun a => (USrc.dec b l0 l1).bind fun b => some (.udiv sw d a b)
  else if lo = 5 then (sregDec d).bind fun d => (USrc.dec a l0 l1).bind fun a => (USrc.dec b l0 l1).bind fun b => some (.urem sw d a b)
  else if lo = 8 then (Dst.dec d).bind fun d => (Base.dec a).bind fun a => (MemForm.dec (fld w 0 3)).bind fun f => some (.ld sw d a (offDec (fld w 3 1) l0) (Fin.ofNat 16 (fld w 4 4)) f)
  else if lo = 9 then (Src.dec d l0 l1).bind fun d => (Base.dec a).bind fun a => (MemForm.dec (fld w 0 3)).bind fun f => some (.st sw d a (offDec (fld w 3 1) l0) (Fin.ofNat 16 (fld w 4 4)) f)
  else if lo = 10 then (Dst.dec d).bind fun d => (Base.dec a).bind fun a => (MemForm.dec (fld w 0 3)).bind fun f => some (.ldc sw d a (offDec (fld w 3 1) l0) f)
  else if lo = 11 then (Dst.dec d).bind fun d => (Base.dec a).bind fun a => (MemForm.dec (fld w 0 3)).bind fun f => some (.lds sw d a (offDec (fld w 3 1) l0) (Fin.ofNat 16 (fld w 4 4)) f)
  else if lo = 12 then (Src.dec d l0 l1).bind fun d => (Base.dec a).bind fun a => (MemForm.dec (fld w 0 3)).bind fun f => some (.sts sw d a (offDec (fld w 3 1) l0) (Fin.ofNat 16 (fld w 4 4)) f)
  else if lo = 13 then (atomDstDec d).bind fun d => (Base.dec a).bind fun a => (AtomFn.dec (fld w 0 3)).bind fun f => some (.atom sw d a (offDec (fld w 3 1) l0) (Fin.ofNat 16 (fld w 4 4)) f)
  else if lo = 14 then (atomDstDec d).bind fun d => (Base.dec a).bind fun a => (AtomFn.dec (fld w 0 3)).bind fun f => some (.atoms sw d a (offDec (fld w 3 1) l0) (Fin.ofNat 16 (fld w 4 4)) f)
  else if lo = 15 then if fld w 0 3 = 0 then (Dst.dec d).bind fun d => (Base.dec a).bind fun a => some (.cas sw d a (offDec (fld w 3 1) l0) (Fin.ofNat 16 (fld w 4 4))) else none
  else none

/-- Row 0x6_ of the opcode map (R45): `lo` is bits 27:24, `d`, `a`, `b` the bytes of the word, `w` the word. -/
def decRow6 (sw : Bool) (lo w d a _b : Nat) (l0 l1 : W32) : Option Instr :=
  if lo = 0 then (sregDec d).bind fun d => (sregDec a).bind fun a => (MemForm.dec (fld w 0 3)).bind fun f => some (.uld sw d a (offDec (fld w 3 1) l0) (Fin.ofNat 16 (fld w 4 4)) f)
  else if lo = 1 then (USrc.dec d l0 l1).bind fun d => (sregDec a).bind fun a => (MemForm.dec (fld w 0 3)).bind fun f => some (.ust sw d a (offDec (fld w 3 1) l0) (Fin.ofNat 16 (fld w 4 4)) f)
  else if lo = 2 then (Scope.dec (fld w 5 3)).bind fun c => (FenceKind.dec (fld w 3 2)).bind fun k => some (.fence sw (BitVec.ofNat 16 (fld w 8 16)) c k)
  else if lo = 3 then if fld w 0 3 = 0 then (sregDec a).bind fun a => some (.monitor sw a (offDec (fld w 3 1) l0)) else none
  else if lo = 4 then some (.mwait sw)
  else if lo = 5 then (Base.dec a).bind fun a => (PrefLevel.dec (fld w 0 3)).bind fun l => some (.pref sw a (offDec (fld w 3 1) l0) (Fin.ofNat 16 (fld w 4 4)) l)
  else if lo = 6 then (Base.dec a).bind fun a => (Extent.dec (fld w 0 3)).bind fun e => some (.clean sw a (offDec (fld w 3 1) l0) e)
  else if lo = 7 then (Base.dec a).bind fun a => (Extent.dec (fld w 0 3)).bind fun e => some (.inval sw a (offDec (fld w 3 1) l0) e)
  else if lo = 8 then (finDec 192 d).bind fun d => some (.ldi sw d (fld w 15 1 == 1) (Fin.ofNat 128 (fld w 8 7)) (Fin.ofNat 16 (fld w 4 4)) (Fin.ofNat 16 (fld w 0 4)))
  else if lo = 9 then (finDec 192 d).bind fun d => some (.spl sw d (fld w 15 1 == 1) (Fin.ofNat 128 (fld w 8 7)) (Fin.ofNat 16 (fld w 4 4)) (Fin.ofNat 16 (fld w 0 4)))
  else if lo = 10 then (finDec 16 d).bind fun n => (USrc.dec a l0 l1).bind fun a => some (.ldlat sw n a)
  else if lo = 11 then (finDec 16 d).bind fun n => some (.settle sw n)
  else if lo = 12 then (atomDstDec d).bind fun d => (Base.dec a).bind fun a => (AtomFn.dec (fld w 0 3)).bind fun f => some (.atomar sw d a (offDec (fld w 3 1) l0) (Fin.ofNat 16 (fld w 4 4)) f)
  else if lo = 13 then (Dst.dec d).bind fun d => (Base.dec a).bind fun a => (MemForm.dec (fld w 0 3)).bind fun f => some (.ldq sw d a (offDec (fld w 3 1) l0) (Fin.ofNat 16 (fld w 4 4)) f)
  else if lo = 14 then (Src.dec d l0 l1).bind fun d => (Base.dec a).bind fun a => (MemForm.dec (fld w 0 3)).bind fun f => some (.stq sw d a (offDec (fld w 3 1) l0) (Fin.ofNat 16 (fld w 4 4)) f)
  else none

/-- Row 0x7_ of the opcode map (R45): `lo` is bits 27:24, `d`, `a`, `b` the bytes of the word, `w` the word. The count of `bar` is
checked for `wait` too, which ignores it (R34, R277): the model's choice (log 117). -/
def decRow7 (sw : Bool) (lo w d a b : Nat) (l0 l1 : W32) : Option Instr :=
  if lo = 0 then (finDec 8 d).bind fun n => (if a < 192 then none else finDec 30 (a - 192)).bind fun a => (if b < 192 then none else finDec 30 (b - 192)).bind fun b => some (.mma sw n a b)
  else if lo = 1 then (finDec 8 d).bind fun n => (sregDec a).bind fun a => (if b < 192 then none else finDec 30 (b - 192)).bind fun b => some (.mmab sw n a b)
  else if lo = 2 then (finDec 8 d).bind fun n => (sregDec a).bind fun a => (if b < 192 then none else finDec 30 (b - 192)).bind fun b => some (.mmar sw n a b)
  else if lo = 3 then (finDec 8 d).bind fun n => some (.aclr sw n)
  else if lo = 4 then (finDec 8 d).bind fun n => (USrc.dec a l0 l1).bind fun a => (USrc.dec b l0 l1).bind fun b => some (.acst sw n a b)
  else if lo = 5 then (finDec 8 d).bind fun n => (ASrc.dec a l0 l1).bind fun a => (USrc.dec b l0 l1).bind fun b => some (.acld sw n a b)
  else if lo = 6 then (Dst.dec d).bind fun d => (finDec 8 a).bind fun n => (USrc.dec b l0 l1).bind fun b => some (.acrd sw d n b)
  else if lo = 7 then (USrc.dec a l0 l1).bind fun a => some (.mhint sw a)
  else if lo = 8 then (Dst.dec d).bind fun d => (Src.dec a l0 l1).bind fun a => (if b < 192 then none else finDec 31 (b - 192)).bind fun b => some (.hadq sw d a b)
  else if lo = 9 then (Dst.dec d).bind fun d => (Src.dec a l0 l1).bind fun a => some (.qnt sw d a)
  else if lo = 10 then (Dst.dec d).bind fun d => (Src.dec a l0 l1).bind fun a => some (.dqnt sw d a)
  else if lo = 11 then (TlCtx.dec d).bind fun c => (Cnt.dec a l0 l1).bind fun n => some (.tlwait sw c n)
  else if lo = 12 then (finDec 16 (d / 8)).bind fun r => ringDec sw r (d % 8) a b l0 l1
  else if lo = 13 then (BarLevel.dec (fld w 21 3)).bind fun l => (Cnt.dec b l0 l1).bind fun n => barDec sw l (Fin.ofNat 16 (fld w 17 4)) (fld w 15 2) n
  else if lo = 14 then (sregDec d).bind fun d => (Csr.dec (fld w 0 16)).bind fun r => some (.csrr sw d r)
  else if lo = 15 then (USrc.dec d l0 l1).bind fun a => (Csr.dec (fld w 0 16)).bind fun r => some (csrwDec sw a r)
  else none

/-- The instruction of a word, before the checks of `Instr.wf`; `l0` and `l1` are the two words that follow it. -/
def decodeRaw (w l0 l1 : W32) : Option Instr :=
  let n := w.toNat
  let sw := fld n 31 1 == 1
  let lo := fld n 24 4
  let d := fld n 16 8
  let a := fld n 8 8
  let b := fld n 0 8
  match fld n 28 3 with
  | 0 => decRow0 sw lo n d a b l0 l1
  | 1 => decRow1 sw lo n d a b l0 l1
  | 2 => decRow2 sw lo n d a b l0 l1
  | 3 => decRow3 sw lo n d a b l0 l1
  | 4 => decRow4 sw lo n d a b l0 l1
  | 5 => decRow5 sw lo n d a b l0 l1
  | 6 => decRow6 sw lo n d a b l0 l1
  | _ => decRow7 sw lo n d a b l0 l1

/-- The instruction of a word whose next two words are `l0` and `l1`; `none` where decode refuses it (R48). -/
def decodeWord (w l0 l1 : W32) : Option Instr :=
  (decodeRaw w l0 l1).bind fun i => if i.wf then some i else none

/-! ## Literal words and encoding -/

/-- The literal words of a lane source (R30). -/
def Src.words : Src → List W32
  | .lit w => [w] | .lit64 w => [w.setWidth 32, (w >>> 32).setWidth 32] | _ => []
/-- The literal words of a uniform source (R30). -/
def USrc.words : USrc → List W32
  | .lit w => [w] | .lit64 w => [w.setWidth 32, (w >>> 32).setWidth 32] | _ => []
/-- The literal words of a count operand (R30). -/
def Cnt.words : Cnt → List W32
  | .lit w => [w] | .lit64 w => [w.setWidth 32, (w >>> 32).setWidth 32] | _ => []
/-- The literal words of the address of `acld` (R30). -/
def ASrc.words : ASrc → List W32
  | .lit w => [w] | .lit64 w => [w.setWidth 32, (w >>> 32).setWidth 32] | .s _ => []
/-- The literal word of LIT = 1 (R30). -/
def offWords : Offset → List W32
  | some w => [w] | none => []
/-- LIT of a memory word (R30). -/
def offBit : Offset → Nat
  | some _ => 1 | none => 0

/-- The first word of an instruction (R29 to R47). An event has none. -/
def encodeHead : Instr → W32
  | .nop sw => mkWord sw 0 0
  | .setm sw f => mkWord sw 1 f.code
  | .bra sw off => mkWord sw 2 off.toNat
  | .brall sw p neg off => mkWord sw 3 (p.val * 2 ^ 21 + neg.toNat * 2 ^ 20 + off.toNat)
  | .brany sw p neg off => mkWord sw 4 (p.val * 2 ^ 21 + neg.toNat * 2 ^ 20 + off.toNat)
  | .brd sw p neg off _ => mkWord sw 5 (p.val * 2 ^ 21 + neg.toNat * 2 ^ 20 + off.toNat)
  | .join sw => mkWord sw 6 0
  | .call sw off => mkWord sw 7 off.toNat
  | .ret sw => mkWord sw 8 0
  | .jmpi sw a => mkWord sw 9 (bodyR 0 a.code 0)
  | .exit sw => mkWord sw 10 0
  | .trap sw code => mkWord sw 11 code.toNat
  | .yield sw => mkWord sw 12 0
  | .region sw => mkWord sw 13 0
  | .drain sw => mkWord sw 14 0
  | .loop sw c off => mkWord sw 15 ((192 + c.val) * 2 ^ 16 + off.toNat)
  | .add sw d a b => mkWord sw 16 (bodyR d.code a.code b.code)
  | .sub sw d a b => mkWord sw 17 (bodyR d.code a.code b.code)
  | .mul sw d a b => mkWord sw 18 (bodyR d.code a.code b.code)
  | .fma sw d a b => mkWord sw 19 (bodyR d.code a.code b.code)
  | .fms sw d a b => mkWord sw 20 (bodyR d.code a.code b.code)
  | .min sw d a b => mkWord sw 21 (bodyR d.code a.code b.code)
  | .max sw d a b => mkWord sw 22 (bodyR d.code a.code b.code)
  | .abs sw d a => mkWord sw 23 (bodyR d.code a.code 0)
  | .neg sw d a => mkWord sw 24 (bodyR d.code a.code 0)
  | .cmp sw p f a b => mkWord sw 25 (bodyR (p.val * 2 ^ 5 + f.code) a.code b.code)
  | .sel sw d a b => mkWord sw 26 (bodyR d.code a.code b.code)
  | .cvt sw d a ty => mkWord sw 27 (bodyR d.code a.code ty.code)
  | .rcp sw d a => mkWord sw 28 (bodyR d.code a.code 0)
  | .rsq sw d a => mkWord sw 29 (bodyR d.code a.code 0)
  | .sqrt sw d a => mkWord sw 30 (bodyR d.code a.code 0)
  | .div sw d a b => mkWord sw 31 (bodyR d.code a.code b.code)
  | .exp2 sw d a => mkWord sw 32 (bodyR d.code a.code 0)
  | .log2 sw d a => mkWord sw 33 (bodyR d.code a.code 0)
  | .sin sw d a => mkWord sw 34 (bodyR d.code a.code 0)
  | .cos sw d a => mkWord sw 35 (bodyR d.code a.code 0)
  | .rint sw d a => mkWord sw 36 (bodyR d.code a.code 0)
  | .class sw p f a => mkWord sw 37 (bodyR (p.val * 2 ^ 5 + f.code) a.code 0)
  | .wmad sw d a b => mkWord sw 38 (bodyR d.code a.code b.code)
  | .dot4 sw d a b => mkWord sw 39 (bodyR d.code a.code b.code)
  | .and sw d a b => mkWord sw 40 (bodyR d.code a.code b.code)
  | .or sw d a b => mkWord sw 41 (bodyR d.code a.code b.code)
  | .xor sw d a b => mkWord sw 42 (bodyR d.code a.code b.code)
  | .not sw d a => mkWord sw 43 (bodyR d.code a.code 0)
  | .shl sw d a b => mkWord sw 44 (bodyR d.code a.code b.code)
  | .shr sw d a b => mkWord sw 45 (bodyR d.code a.code b.code)
  | .rol sw d a b => mkWord sw 46 (bodyR d.code a.code b.code)
  | .popc sw d a => mkWord sw 47 (bodyR d.code a.code 0)
  | .clz sw d a => mkWord sw 48 (bodyR d.code a.code 0)
  | .brev sw d a => mkWord sw 49 (bodyR d.code a.code 0)
  | .bfe sw d a b => mkWord sw 50 (bodyR d.code a.code b.code)
  | .bfi sw d a b => mkWord sw 51 (bodyR d.code a.code b.code)
  | .mulhi sw d a b => mkWord sw 52 (bodyR d.code a.code b.code)
  | .addc sw d a b => mkWord sw 53 (bodyR d.code a.code b.code)
  | .lea sw d a b => mkWord sw 54 (bodyR d.code a.code b.code)
  | .mov sw d a => mkWord sw 55 (bodyR d.code a.code 0)
  | .plog sw p a b table => mkWord sw 56 (p.val * 2 ^ 21 + a.val * 2 ^ 18 + b.val * 2 ^ 15 + table.toNat * 2 ^ 11)
  | .vtop sw p a => mkWord sw 57 (bodyR p.val a.code 0)
  | .ptov sw d p => mkWord sw 58 (bodyR d.code p.val 0)
  | .shfl sw d a b => mkWord sw 59 (bodyR d.code a.code b.code)
  | .shfx sw d a b => mkWord sw 60 (bodyR d.code a.code b.code)
  | .shfu sw d a b => mkWord sw 61 (bodyR d.code a.code b.code)
  | .shfd sw d a b => mkWord sw 62 (bodyR d.code a.code b.code)
  | .vote sw p f a => mkWord sw 63 (bodyR (p.val * 2 ^ 5 + f.code) a.code 0)
  | .ballot sw d a b => mkWord sw 64 (bodyR (192 + d.val) a.code b.code)
  | .psum sw d a => mkWord sw 65 (bodyR d.code a.code 0)
  | .redu sw d a => mkWord sw 66 (bodyR (192 + d.val) a.code 0)
  | .vconf sw d a => mkWord sw 67 (bodyR d.code a.code 0)
  | .rdlane sw d a b => mkWord sw 68 (bodyR (192 + d.val) a.code b.code)
  | .xset sw x a => mkWord sw 69 (bodyR x.val a.code 0)
  | .xwin sw x base len => mkWord sw 70 (bodyR x.val base.val len.code)
  | .uadd sw d a b => mkWord sw 72 (bodyR (192 + d.val) a.code b.code)
  | .usub sw d a b => mkWord sw 73 (bodyR (192 + d.val) a.code b.code)
  | .umul sw d a b => mkWord sw 74 (bodyR (192 + d.val) a.code b.code)
  | .uand sw d a b => mkWord sw 75 (bodyR (192 + d.val) a.code b.code)
  | .uor sw d a b => mkWord sw 76 (bodyR (192 + d.val) a.code b.code)
  | .uxor sw d a b => mkWord sw 77 (bodyR (192 + d.val) a.code b.code)
  | .ushl sw d a b => mkWord sw 78 (bodyR (192 + d.val) a.code b.code)
  | .ushr sw d a b => mkWord sw 79 (bodyR (192 + d.val) a.code b.code)
  | .umov sw d a => mkWord sw 80 (bodyR (192 + d.val) a.code 0)
  | .umovPushQ0 sw a => mkWord sw 80 (bodyR 248 a.code 0)
  | .umovPushQ2 sw a => mkWord sw 80 (bodyR 250 a.code 0)
  | .umovPopQ3 sw d => mkWord sw 80 (bodyR (192 + d.val) 251 0)
  | .ucmp sw p f a b => mkWord sw 81 (bodyR (p.val * 2 ^ 5 + f.code) a.code b.code)
  | .umin sw d a b => mkWord sw 82 (bodyR (192 + d.val) a.code b.code)
  | .umax sw d a b => mkWord sw 83 (bodyR (192 + d.val) a.code b.code)
  | .udiv sw d a b => mkWord sw 84 (bodyR (192 + d.val) a.code b.code)
  | .urem sw d a b => mkWord sw 85 (bodyR (192 + d.val) a.code b.code)
  | .ld sw d a off str form => mkWord sw 88 (bodyM d.code a.code str.val (offBit off) form.code)
  | .st sw b a off str form => mkWord sw 89 (bodyM b.code a.code str.val (offBit off) form.code)
  | .ldc sw d a off form => mkWord sw 90 (bodyM d.code a.code 0 (offBit off) form.code)
  | .lds sw d a off str form => mkWord sw 91 (bodyM d.code a.code str.val (offBit off) form.code)
  | .sts sw b a off str form => mkWord sw 92 (bodyM b.code a.code str.val (offBit off) form.code)
  | .atom sw d a off str fn => mkWord sw 93 (bodyM (atomDstCode d) a.code str.val (offBit off) fn.code)
  | .atoms sw d a off str fn => mkWord sw 94 (bodyM (atomDstCode d) a.code str.val (offBit off) fn.code)
  | .cas sw d a off str => mkWord sw 95 (bodyM d.code a.code str.val (offBit off) 0)
  | .uld sw d a off str form => mkWord sw 96 (bodyM (192 + d.val) (192 + a.val) str.val (offBit off) form.code)
  | .ust sw b a off str form => mkWord sw 97 (bodyM b.code (192 + a.val) str.val (offBit off) form.code)
  | .fence sw mask sc k => mkWord sw 98 (mask.toNat * 2 ^ 8 + sc.code * 2 ^ 5 + k.code * 2 ^ 3)
  | .monitor sw a off => mkWord sw 99 (bodyM 0 (192 + a.val) 0 (offBit off) 0)
  | .mwait sw => mkWord sw 100 0
  | .pref sw a off str lvl => mkWord sw 101 (bodyM 0 a.code str.val (offBit off) lvl.code)
  | .clean sw a off e => mkWord sw 102 (bodyM 0 a.code 0 (offBit off) e.code)
  | .inval sw a off e => mkWord sw 103 (bodyM 0 a.code 0 (offBit off) e.code)
  | .ldi sw d grad crd str lat => mkWord sw 104 (d.val * 2 ^ 16 + grad.toNat * 2 ^ 15 + crd.val * 2 ^ 8 + str.val * 2 ^ 4 + lat.val)
  | .spl sw d grad crd str lat => mkWord sw 105 (d.val * 2 ^ 16 + grad.toNat * 2 ^ 15 + crd.val * 2 ^ 8 + str.val * 2 ^ 4 + lat.val)
  | .ldlat sw n a => mkWord sw 106 (bodyR n.val a.code 0)
  | .settle sw n => mkWord sw 107 (bodyR n.val 0 0)
  | .atomar sw d a off str fn => mkWord sw 108 (bodyM (atomDstCode d) a.code str.val (offBit off) fn.code)
  | .ldq sw d a off str form => mkWord sw 109 (bodyM d.code a.code str.val (offBit off) form.code)
  | .stq sw b a off str form => mkWord sw 110 (bodyM b.code a.code str.val (offBit off) form.code)
  | .mma sw n a b => mkWord sw 112 (bodyR n.val (192 + a.val) (192 + b.val))
  | .mmab sw n a b => mkWord sw 113 (bodyR n.val (192 + a.val) (192 + b.val))
  | .mmar sw n a b => mkWord sw 114 (bodyR n.val (192 + a.val) (192 + b.val))
  | .aclr sw n => mkWord sw 115 (bodyR n.val 0 0)
  | .acst sw n a b => mkWord sw 116 (bodyR n.val a.code b.code)
  | .acld sw n a b => mkWord sw 117 (bodyR n.val a.code b.code)
  | .acrd sw d n b => mkWord sw 118 (bodyR d.code n.val b.code)
  | .mhint sw a => mkWord sw 119 (bodyR 0 a.code 0)
  | .hadq sw d a b => mkWord sw 120 (bodyR d.code a.code (192 + b.val))
  | .qnt sw d a => mkWord sw 121 (bodyR d.code a.code 0)
  | .dqnt sw d a => mkWord sw 122 (bodyR d.code a.code 0)
  | .tlwait sw c n => mkWord sw 123 (bodyR c.code n.code 0)
  | .ringInit sw r a b => mkWord sw 124 (bodyR (r.val * 8 + 0) a.code b.toNat)
  | .ringRsv sw r a k => mkWord sw 124 (bodyR (r.val * 8 + 1) (ringDstCode a) k.code)
  | .ringCmt sw r k => mkWord sw 124 (bodyR (r.val * 8 + 2) 0 k.code)
  | .ringWait sw r a k => mkWord sw 124 (bodyR (r.val * 8 + 3) (ringDstCode a) k.code)
  | .ringRel sw r k => mkWord sw 124 (bodyR (r.val * 8 + 4) 0 k.code)
  | .ringStat sw r a k => mkWord sw 124 (bodyR (r.val * 8 + 5) (192 + a.val) k.code)
  | .barSync sw l id n => mkWord sw 125 (l.code * 2 ^ 21 + id.val * 2 ^ 17 + 0 * 2 ^ 15 + n.code)
  | .barArrive sw l id n => mkWord sw 125 (l.code * 2 ^ 21 + id.val * 2 ^ 17 + 1 * 2 ^ 15 + n.code)
  | .barWait sw l id n => mkWord sw 125 (l.code * 2 ^ 21 + id.val * 2 ^ 17 + 2 * 2 ^ 15 + n.code)
  | .csrr sw d r => mkWord sw 126 ((192 + d.val) * 2 ^ 16 + r.code)
  | .csrw sw a r => mkWord sw 127 (a.code * 2 ^ 16 + r.code)
  | .flagsClear sw a => mkWord sw 127 (a.code * 2 ^ 16 + 1)
  | .trapvecWrite sw a => mkWord sw 127 (a.code * 2 ^ 16 + 5)
  | .loadLands _ _ => 0
  | .residueRun _ => 0
  | .carterCopy _ _ => 0
  | .carterCopy2d _ _ => 0
  | .carterFill _ _ => 0
  | .sifterSortedIndex _ _ => 0
  | .sifterBitmap _ _ => 0
  | .matrixUnitExecute _ _ => 0
  | .matrixRampUpDone _ _ => 0
  | .matrixHoldExpiry _ _ => 0
  | .matrixRampDownDone _ _ => 0
  | .settleExecute _ => 0
  | .barrierGenerationComplete _ => 0
  | .tailWrite _ _ _ => 0
  | .launchRecord _ _ => 0
  | .slotAssignment _ _ => 0
  | .dependencesSatisfied _ => 0
  | .gangPlacement _ _ _ => 0
  | .timeSliceExpiry _ => 0
  | .gangCapture _ => 0
  | .gangRestoration _ _ _ => 0
  | .kernelDrain _ => 0
  | .kernelCompletion _ => 0
  | .chandlerFaultService _ _ => 0
  | .chandlerResumption _ => 0
  | .contextCreate _ => 0
  | .queueEnable _ _ => 0
  | .contextAbort _ _ => 0
  | .contextDestroy _ => 0
  | .pteChange _ _ _ _ _ => 0
  | .pageMigration _ _ _ => 0
  | .exportGrant _ _ => 0
  | .exportRevoke _ => 0
  | .bloomFilterRotation _ => 0
  | .heldRowRefresh _ => 0
  | .errorSelfTest _ _ _ _ _ => 0
  | .rmaWrite _ _ _ _ _ _ => 0
  | .rmaRead _ _ _ _ _ _ => 0
  | .chandlerRequest _ _ _ => 0
  | .flitReceived _ _ => 0
  | .spanRequest _ => 0
  | .nackReceived _ => 0
  | .requestDeadline _ => 0
  | .portEnable _ => 0
  | .trainingEnd _ _ => 0
  | .laneLoss _ => 0
  | .replayThreshold _ => 0
  | .portDrain _ => 0
  | .drainComplete _ => 0
  | .portReset _ => 0
  | .freeze => 0
  | .comparatorWrite _ _ _ _ => 0
  | .contextResume _ => 0
  | .laneCycleReadClear _ _ => 0
  | .coldReset => 0
  | .firmwareImage _ => 0
  | .configurationRecord _ _ => 0
  | .attestationRequest _ => 0
  | .illegalInstruction _ => 0
  | .spanResponse _ _ => 0
  | .importedCopyInvalidation _ _ => 0
  | .tokenBucketRefill _ _ _ _ => 0
  | .hotnessEntryClear _ _ _ => 0

/-- The literal words of an instruction (R30). -/
def litWords : Instr → List W32
  | .nop _ => []
  | .setm _ _ => []
  | .bra _ _ => []
  | .brall _ _ _ _ => []
  | .brany _ _ _ _ => []
  | .brd _ _ _ _ joinOff => [joinOff]
  | .join _ => []
  | .call _ _ => []
  | .ret _ => []
  | .jmpi _ a => a.words
  | .exit _ => []
  | .trap _ _ => []
  | .yield _ => []
  | .region _ => []
  | .drain _ => []
  | .loop _ _ _ => []
  | .add _ _ a b => a.words ++ b.words
  | .sub _ _ a b => a.words ++ b.words
  | .mul _ _ a b => a.words ++ b.words
  | .fma _ _ a b => a.words ++ b.words
  | .fms _ _ a b => a.words ++ b.words
  | .min _ _ a b => a.words ++ b.words
  | .max _ _ a b => a.words ++ b.words
  | .abs _ _ a => a.words
  | .neg _ _ a => a.words
  | .cmp _ _ _ a b => a.words ++ b.words
  | .sel _ _ a b => a.words ++ b.words
  | .cvt _ _ a _ => a.words
  | .rcp _ _ a => a.words
  | .rsq _ _ a => a.words
  | .sqrt _ _ a => a.words
  | .div _ _ a b => a.words ++ b.words
  | .exp2 _ _ a => a.words
  | .log2 _ _ a => a.words
  | .sin _ _ a => a.words
  | .cos _ _ a => a.words
  | .rint _ _ a => a.words
  | .class _ _ _ a => a.words
  | .wmad _ _ a b => a.words ++ b.words
  | .dot4 _ _ a b => a.words ++ b.words
  | .and _ _ a b => a.words ++ b.words
  | .or _ _ a b => a.words ++ b.words
  | .xor _ _ a b => a.words ++ b.words
  | .not _ _ a => a.words
  | .shl _ _ a b => a.words ++ b.words
  | .shr _ _ a b => a.words ++ b.words
  | .rol _ _ a b => a.words ++ b.words
  | .popc _ _ a => a.words
  | .clz _ _ a => a.words
  | .brev _ _ a => a.words
  | .bfe _ _ a b => a.words ++ b.words
  | .bfi _ _ a b => a.words ++ b.words
  | .mulhi _ _ a b => a.words ++ b.words
  | .addc _ _ a b => a.words ++ b.words
  | .lea _ _ a b => a.words ++ b.words
  | .mov _ _ a => a.words
  | .plog _ _ _ _ _ => []
  | .vtop _ _ a => a.words
  | .ptov _ _ _ => []
  | .shfl _ _ a b => a.words ++ b.words
  | .shfx _ _ a b => a.words ++ b.words
  | .shfu _ _ a b => a.words ++ b.words
  | .shfd _ _ a b => a.words ++ b.words
  | .vote _ _ _ a => a.words
  | .ballot _ _ a b => a.words ++ b.words
  | .psum _ _ a => a.words
  | .redu _ _ a => a.words
  | .vconf _ _ a => a.words
  | .rdlane _ _ a b => a.words ++ b.words
  | .xset _ _ a => a.words
  | .xwin _ _ _ len => len.words
  | .uadd _ _ a b => a.words ++ b.words
  | .usub _ _ a b => a.words ++ b.words
  | .umul _ _ a b => a.words ++ b.words
  | .uand _ _ a b => a.words ++ b.words
  | .uor _ _ a b => a.words ++ b.words
  | .uxor _ _ a b => a.words ++ b.words
  | .ushl _ _ a b => a.words ++ b.words
  | .ushr _ _ a b => a.words ++ b.words
  | .umov _ _ a => a.words
  | .umovPushQ0 _ a => a.words
  | .umovPushQ2 _ a => a.words
  | .umovPopQ3 _ _ => []
  | .ucmp _ _ _ a b => a.words ++ b.words
  | .umin _ _ a b => a.words ++ b.words
  | .umax _ _ a b => a.words ++ b.words
  | .udiv _ _ a b => a.words ++ b.words
  | .urem _ _ a b => a.words ++ b.words
  | .ld _ _ _ off _ _ => offWords off
  | .st _ b _ off _ _ => b.words ++ offWords off
  | .ldc _ _ _ off _ => offWords off
  | .lds _ _ _ off _ _ => offWords off
  | .sts _ b _ off _ _ => b.words ++ offWords off
  | .atom _ _ _ off _ _ => offWords off
  | .atoms _ _ _ off _ _ => offWords off
  | .cas _ _ _ off _ => offWords off
  | .uld _ _ _ off _ _ => offWords off
  | .ust _ b _ off _ _ => b.words ++ offWords off
  | .fence _ _ _ _ => []
  | .monitor _ _ off => offWords off
  | .mwait _ => []
  | .pref _ _ off _ _ => offWords off
  | .clean _ _ off _ => offWords off
  | .inval _ _ off _ => offWords off
  | .ldi _ _ _ _ _ _ => []
  | .spl _ _ _ _ _ _ => []
  | .ldlat _ _ a => a.words
  | .settle _ _ => []
  | .atomar _ _ _ off _ _ => offWords off
  | .ldq _ _ _ off _ _ => offWords off
  | .stq _ b _ off _ _ => b.words ++ offWords off
  | .mma _ _ _ _ => []
  | .mmab _ _ _ _ => []
  | .mmar _ _ _ _ => []
  | .aclr _ _ => []
  | .acst _ _ a b => a.words ++ b.words
  | .acld _ _ a b => a.words ++ b.words
  | .acrd _ _ _ b => b.words
  | .mhint _ a => a.words
  | .hadq _ _ a _ => a.words
  | .qnt _ _ a => a.words
  | .dqnt _ _ a => a.words
  | .tlwait _ _ n => n.words
  | .ringInit _ _ a _ => a.words
  | .ringRsv _ _ _ k => k.words
  | .ringCmt _ _ k => k.words
  | .ringWait _ _ _ k => k.words
  | .ringRel _ _ k => k.words
  | .ringStat _ _ _ k => k.words
  | .barSync _ _ _ n => n.words
  | .barArrive _ _ _ n => n.words
  | .barWait _ _ _ n => n.words
  | .csrr _ _ _ => []
  | .csrw _ a _ => a.words
  | .flagsClear _ a => a.words
  | .trapvecWrite _ a => a.words
  | .loadLands _ _ => []
  | .residueRun _ => []
  | .carterCopy _ _ => []
  | .carterCopy2d _ _ => []
  | .carterFill _ _ => []
  | .sifterSortedIndex _ _ => []
  | .sifterBitmap _ _ => []
  | .matrixUnitExecute _ _ => []
  | .matrixRampUpDone _ _ => []
  | .matrixHoldExpiry _ _ => []
  | .matrixRampDownDone _ _ => []
  | .settleExecute _ => []
  | .barrierGenerationComplete _ => []
  | .tailWrite _ _ _ => []
  | .launchRecord _ _ => []
  | .slotAssignment _ _ => []
  | .dependencesSatisfied _ => []
  | .gangPlacement _ _ _ => []
  | .timeSliceExpiry _ => []
  | .gangCapture _ => []
  | .gangRestoration _ _ _ => []
  | .kernelDrain _ => []
  | .kernelCompletion _ => []
  | .chandlerFaultService _ _ => []
  | .chandlerResumption _ => []
  | .contextCreate _ => []
  | .queueEnable _ _ => []
  | .contextAbort _ _ => []
  | .contextDestroy _ => []
  | .pteChange _ _ _ _ _ => []
  | .pageMigration _ _ _ => []
  | .exportGrant _ _ => []
  | .exportRevoke _ => []
  | .bloomFilterRotation _ => []
  | .heldRowRefresh _ => []
  | .errorSelfTest _ _ _ _ _ => []
  | .rmaWrite _ _ _ _ _ _ => []
  | .rmaRead _ _ _ _ _ _ => []
  | .chandlerRequest _ _ _ => []
  | .flitReceived _ _ => []
  | .spanRequest _ => []
  | .nackReceived _ => []
  | .requestDeadline _ => []
  | .portEnable _ => []
  | .trainingEnd _ _ => []
  | .laneLoss _ => []
  | .replayThreshold _ => []
  | .portDrain _ => []
  | .drainComplete _ => []
  | .portReset _ => []
  | .freeze => []
  | .comparatorWrite _ _ _ _ => []
  | .contextResume _ => []
  | .laneCycleReadClear _ _ => []
  | .coldReset => []
  | .firmwareImage _ => []
  | .configurationRecord _ _ => []
  | .attestationRequest _ => []
  | .illegalInstruction _ => []
  | .spanResponse _ _ => []
  | .importedCopyInvalidation _ _ => []
  | .tokenBucketRefill _ _ _ _ => []
  | .hotnessEntryClear _ _ _ => []

/-- The words of an instruction, first word first (R29, R30). -/
def encode (i : Instr) : List W32 := encodeHead i :: litWords i

/-- Length of an instruction in bytes (R30). -/
def instrBytes (i : Instr) : Nat := 4 + 4 * (litWords i).length

/-- The two words that may follow a first word, zero where the list ends. -/
def litsOf : List W32 → W32 × W32
  | [] => (0, 0)
  | [l0] => (l0, 0)
  | l0 :: l1 :: _ => (l0, l1)

/-- Decoding of a list of words: the instruction and the words after it (R30), or nothing where decode refuses. -/
def decodeWords : List W32 → Option (Instr × List W32)
  | [] => none
  | w :: ws =>
    (decodeWord w (litsOf ws).1 (litsOf ws).2).bind fun i =>
      if (litWords i).length ≤ ws.length then some (i, ws.drop (litWords i).length) else none

/-! ## Bytes -/

/-- A word from four bytes, least significant byte first (R3). -/
def wordOf (b0 b1 b2 b3 : Byte) : W32 :=
  BitVec.ofNat 32 (b0.toNat + b1.toNat * 2 ^ 8 + b2.toNat * 2 ^ 16 + b3.toNat * 2 ^ 24)
/-- The bytes of a number, least significant byte first (R3). -/
def bytesOf : Nat → Nat → List Byte
  | 0, _ => []
  | n + 1, x => BitVec.ofNat 8 (x % 256) :: bytesOf n (x / 256)
/-- The number whose bytes, least significant first, are given (R3). -/
def natOf : List Byte → Nat
  | [] => 0
  | b :: bs => b.toNat + 256 * natOf bs
/-- The words of a byte list; a tail shorter than a word is left out. -/
def wordsOf : List Byte → List W32
  | b0 :: b1 :: b2 :: b3 :: r => wordOf b0 b1 b2 b3 :: wordsOf r
  | _ => []
/-- Decoding of bytes as they stand in memory (R29, R30): the instruction and its length in bytes. -/
def decodeBytes (bs : List Byte) : Option (Instr × Nat) :=
  (decodeWords (wordsOf bs)).map fun r => (r.1, instrBytes r.1)

/-- The bytes of an instruction whose bits are `w`, numbered as spec/opcode_table.json numbers them: three words, with the
bits from `nbits` up zero. -/
def tableBytes (nbits w : Nat) : List Byte := bytesOf 12 (w % 2 ^ nbits)
/-- The instruction that the decoder reads from a word of spec/opcode_table.json. -/
def decodeTableWord (nbits w : Nat) : Option Instr := (decodeBytes (tableBytes nbits w)).map (·.1)

end Sys2Proof
end

