-- ==== Sys2Proof/Config.lean ====
section
/-! DEFINITION. What the spec leaves open: constants without a body, so that no proof can lean on a value. Each is named in
the assumption log. -/
namespace Sys2Proof

/-- A free 64-bit value for each draw; `State.tick` numbers the draws (R6, log 6). -/
opaque Config.freeWord : Nat → W64
/-- A free choice between two stated outcomes for each draw (R6, log 6). -/
opaque Config.freeBool : Nat → Bool
/-- Core cycles that pass in a step beyond the passes it issues, for each step (log 5). -/
opaque Config.elapsed : Nat → Nat
/-- Nanoseconds of the pod time base that pass in a step, for each step (R352, log 5). -/
opaque Config.elapsedNs : Nat → Nat
/-- Which of the two representable values that bracket an exact result a function returns, for each function and input: the
same on every core and in every device (R62, log 7). -/
opaque Config.upperNeighbour : Nat → Nat → Bool
/-- The CRC-16 of a flit's bytes 0 to 61 (R348); the spec gives no polynomial (log 14). -/
opaque Config.crc16 : List Byte → BitVec 16
/-- The two hashes of a line address in the Bloom filters (R339; log 14). -/
opaque Config.bloomHash : Bool → Nat → BitVec 16
/-- Whether an SLH-DSA-SHA2-192s signature of an image or a record verifies (R362, R363; log 14). -/
opaque Config.sigValid : List Byte → Bool
/-- The hash of an image or a record (R364; log 14). -/
opaque Config.hash : List Byte → BitVec 384
/-- The signature of an attestation answer under the identity key (R364; log 14). -/
opaque Config.sign : List Byte → List Byte
/-- The hash of the ROM (R364; log 14). -/
opaque Config.romHash : BitVec 384
/-- Whether the signature (third argument) of a configuration record (second argument) verifies under the owner key that a
firmware image (first argument) names (R363; log 14). -/
opaque Config.ownerSigned : List Byte → List Byte → List Byte → Bool
/-- The fields that the signed bytes of a configuration record carry; the spec gives no encoding (R363; log 14). -/
opaque Config.readConfig : List Byte → ConfigRec
/-- The IPv6 link-local address of port 0 derived from the module serial, which the spec does not give (R362; log 14). -/
opaque Config.linkLocal : BitVec 128
/-- Whether the self-check of the ROM passes (R362; log 14). -/
opaque Config.romSelfCheck : Bool
/-- The code in bits 3:0 of a packet header for read 0, write 1, atomic 2, response 3 and NACK 4 (R348; log 14). -/
opaque Config.headerType : Nat → BitVec 4
/-- Bits 127:24 of a packet header: import index, offset, tag and deadline, whose places the spec does not give (R348; log
14). -/
opaque Config.headerRest : BitVec 12 → BitVec 29 → BitVec 16 → W64 → BitVec 104
/-- The bytes after the header of a request: the KEY of its window, which every request carries (R350), and what it asks for (R348; log
14). -/
opaque Config.requestBody : W32 → FabricOp → List Byte
/-- The packet that begins a received stream and the bytes it takes, once the stream holds it whole (R348; log 14). -/
opaque Config.readPacket : List Byte → Option (Nat × SpanIn)
/-- The plane on which the answer to a request or a refusal travels, by its place among the packets sent; the spec gives none (R348; log
14). -/
opaque Config.replyPlane : Nat → Fin 16
/-- The module number of this module in its pod (R348; log 14). -/
opaque Config.moduleNo : BitVec 10
/-- Gangs of a co-operative kernel that are alive on other packages, for each arrival that asks (R292; log 52). -/
opaque Config.otherGangs : Nat → Nat
/-- Memory channels of the package (R300; log 15). -/
opaque Config.channels : Nat
/-- Spare units that the device was made with (R360): the spec gives no number (log 15). -/
opaque Config.spares : Nat
/-- The bytes in which a captured team's and cohort's state is saved, for each capture and byte: the spec gives no layout (R269, R321;
log 82). -/
opaque Config.savedState : Nat → Nat → Byte
/-- The home slice of a physical line: a hash that the spec does not give (R15; log 13). -/
opaque Config.homeSlice : Nat → Fin 256

end Sys2Proof
end

