-- ==== Sys2Proof/Machine/State.lean ====
section
/-! DEFINITION. The state of the machine as plain data: every piece of state that spec/ names, the reasons a step can stop,
and the state after reset. INVENTORY.md lists the fields with their rules and reset values. -/
namespace Sys2Proof.Machine

/-! ## Outcomes -/

/-- Why a step stops without a next state. Every fault that the spec gives a team, an engine or a request is a NEXT state;
these reasons say that what the step was asked to do cannot take place. All are safe: they allow no behaviour. -/
inductive Fault where
  /-- Raised by an instruction word when `State.cur` names no team. Safe. -/
  | noTeam
  /-- Raised by an instruction word whose team is waiting, stopped, captured, retired or halted: a bench does not issue it
  (R150). Safe. -/
  | notReady
  /-- Raised by an event that names a core, engine, team, gang, kernel, queue, context, port or request that is not there.
  Safe. -/
  | noSuch
  /-- Raised by an event whose cause has not arisen: nothing to land, no command queued, no dependence met, no place free.
  Safe. -/
  | notEnabled
  /-- Raised by everything but COLD_RESET while the package is frozen (R354). Safe. -/
  | frozen
  deriving DecidableEq, Repr

/-- Why a step has no meaning. -/
inductive Refusal where
  /-- Raised by an arm of `exec` whose instruction has no meaning yet. Safe. -/
  | notModelled (mnemonic : String)
  deriving DecidableEq, Repr

/-- The outcome of one step. -/
abbrev Outcome (σ : Type) := Host.Outcome σ Fault Refusal

/-! ## Sparse tables -/

/-- A table from a natural key to a bit vector in one canonical form: keys strictly rising, no entry zero. A key that is
not listed reads as zero. -/
abbrev Sparse (w : Nat) := List (Nat × BitVec w)

/-! ## Registers of a team -/

/-- A window of `xwin` (R111). -/
structure Window where
  base : Nat
  len  : Nat
  deriving DecidableEq, Repr

/-- The registers of a team (R35, R111, R264). `v` is keyed by register × 1,024 + lane, `u` by register, `p` by predicate
number 1 to 7 with one bit for each lane, `x` by index register × 1,024 + lane; `win` holds the four windows. -/
structure Regs where
  v   : Sparse 32
  u   : Sparse 64
  p   : Sparse 1024
  x   : Sparse 8
  win : List Window
  deriving DecidableEq, Repr

/-- The fields of MODE (R41). -/
structure Mode where
  g   : PReg
  gn  : Bool
  s   : PReg
  t   : Ty
  rnd : Rnd
  sat : Bool
  ftz : Bool
  df  : Bool
  sc  : Scope
  deriving DecidableEq, Repr

/-- The sticky flags: TERNX 6, SATF 5, NX 4, UF 3, OF 2, DZ 1, NV 0 (R59). -/
abbrev Flags := BitVec 7

/-- A register as issue tracks it (R155, R157). -/
inductive RegKey where
  | v (n : Nat) | s (n : Nat) | p (n : Nat)
  deriving DecidableEq, Repr

/-- Engine classes with the core and the context or bench (R34). -/
inductive EngRef where
  | copy (core ctx : Nat) | sift (core ctx : Nat) | matrix (core bench : Nat) | settle (core : Nat)
  deriving DecidableEq, Repr

/-- What a waiting team waits for (R267): every value has landed (a marker, R156); nothing deferred and nothing outstanding
(R164); no residue remains (R163); the listed registers are ready (R158); the listed streams' residues have drained (R132); a residue entry is free
or the registers are ready (R166); room in an engine queue (R137); a timeline (R142); a barrier generation (R146); the
team's ring request has been granted (R145); a Sifter completion word (R115); the wake flag (R134); Chandler (R310); a
pre-emption (R82); fabric answers (R185); the answers to every forwarded write (R185); a handler's entry (R313); every earlier
tile write of the bench (R247); the team's posted updates of a ring (R145). -/
inductive Wake where
  | landed | drained | residues | ready (keys : List RegKey) | streams (mask : BitVec 16) | entry (keys : List RegKey)
  | room (e : EngRef) | timeline (e : EngRef) (n : W64) | barrier (b : BarRef) (g : W32) | ring | q3 | monitor
  | chandler | preempted | fabric (tags : List Nat) | forwards | handler (code : Byte) (info : BitVec 24) (lanes : Mask) (fpc addr : W64)
  | tiles (q : W64) | posts (ring : Nat)
  deriving DecidableEq, Repr

/-- The record of a TRAP entry (R313), with what its team was waiting for at the instruction that it resumes. -/
structure TrapRec where
  pc   : W64
  mode : Mode
  s28  : W64
  s29  : W64
  s30  : W64
  s31  : W64
  wake : Option Wake
  deriving DecidableEq, Repr

/-- Kinds of stack entries (R74). -/
inductive EntryKind where
  | pend | div | call | trap (r : TrapRec)
  deriving DecidableEq, Repr

/-- One entry of the reconvergence stack (R74). -/
structure Entry where
  kind : EntryKind
  pc   : W64
  mask : Mask
  deriving DecidableEq, Repr

/-- A register that waits for the value of the access or residue `id`: outstanding (R155), or pending (R157). The producer
writes the lanes of `lanes`, but for those of `skip`, which another instruction's value has taken. -/
structure Claim where
  key     : RegKey
  id      : Nat
  pending : Bool
  skip    : Mask
  lanes   : Mask
  deriving DecidableEq, Repr

/-- What an instruction writes into its team's registers: lane registers (register × 1,024 + lane), uniform registers,
predicates (number, lanes written, bits), indices (index register × 1,024 + lane) and flags. -/
structure Writes where
  v     : List (Nat × W32)
  u     : List (Nat × W64)
  p     : List (Nat × Mask × Mask)
  x     : List (Nat × Byte)
  flags : Flags
  deriving DecidableEq, Repr

/-- A byte that an access returned, or the place of a byte in the answer to a fabric request that has none yet (R184). -/
inductive PByte where
  | known (b : Byte) | hole (tag i : Nat)
  deriving DecidableEq, Repr

/-- What an instruction sees of its team when it issues or is deferred (R44, R71, R159, R206): PC, MODE, active mask,
registers, the values of %team, %core and %clock, the lanes of the team, and the lattice slots of its cohort. -/
structure Frame where
  pc    : W64
  mode  : Mode
  mask  : Mask
  regs  : Regs
  team  : Nat
  core  : Nat
  clock : W64
  lanes : Nat
  lats  : List (Option (BitVec 512))
  deriving DecidableEq, Repr

/-- A match that raises WATCH (R313, R356): the lanes that matched, in which a handler runs, the lanes that a record reports (R167), and
the address. -/
structure Hit where
  lanes  : Mask
  report : Mask
  addr   : W64
  deriving DecidableEq, Repr

/-- What the comparators have seen of an access (R356): those that halt the context, and a match that raises WATCH. -/
structure Seen where
  halts : List Nat
  hit   : Option Hit
  deriving DecidableEq, Repr

/-- An access that has been issued and whose value has not landed (R155): its bytes, or its finished writes, the fabric
requests that have no answer yet, those that were refused and those past their deadline with their lanes and addresses (R365),
for an `acrd` the number of the last earlier write of its tile, until that has completed (R230, R247), and what the comparators
have seen of it, which takes effect once it has acted in every lane (R313). -/
structure InFlight where
  id     : Nat
  instr  : Instr
  frame  : Frame
  stream : Option Nat
  dests  : List RegKey
  bytes  : List PByte
  writes : Writes
  need   : List Nat
  nacked : List (Nat × Mask × W64)
  late   : List (Nat × Mask × W64)
  tile   : Option W64
  seen   : Option Seen
  deriving DecidableEq, Repr

/-- A residue (R159): its frame holds the operands that were ready, `waits` are the references to producers. The indices
and windows of the frame are those of its deferral, so an indexed operand is resolved there. -/
structure Residue where
  id      : Nat
  instr   : Instr
  frame   : Frame
  stream  : Option Nat
  dests   : List RegKey
  waits   : List Claim
  deriving DecidableEq, Repr

/-- A counter update that waits for the team's earlier accesses (R145, R146): ring `cmt`, ring `rel`, or a barrier
arrival. -/
inductive PostAct where
  | cmt (ring : Nat) (k : W32) | rel (ring : Nat) (k : W32) | arrive (b : BarRef) (g : W32)
  deriving DecidableEq, Repr

/-- A posted update of the instruction at `pc`; it is applied once no access or residue older than `id` is left. -/
structure Post where
  id  : Nat
  pc  : W64
  act : PostAct
  deriving DecidableEq, Repr

/-- A team's own use of a barrier instance (R275). -/
structure BarUse where
  bar : BarRef
  arr : Bool
  g   : W32
  deriving DecidableEq, Repr

/-- States of a team (R267). -/
inductive Status where
  | running | parked (w : Wake) | blocked (w : Wake) | stopped | captured (w : Option Wake) | retired
  deriving DecidableEq, Repr

/-- What a fault reports of itself (R308): code, INFO, ADDR, lane mask, FPC, the engine fields, and for an engine fault REC, RDEPTH
and REPC of the team that issued the command, as they stood at the fault; and the address whose translation failed where that is not
ADDR: that of a word which was not fetched, or of the second page of an element (R310). -/
structure FaultInfo where
  code     : Byte
  info     : BitVec 24
  addr     : W64
  mask     : Mask
  fpc      : W64
  engSeq   : W64
  engClass : Byte
  engCtx   : Byte
  mprog    : W32
  region   : Option (W32 × Nat × W64)
  page     : Option W64
  deriving DecidableEq, Repr

/-- A request of a plain store's write-back that has failed while others of that store have no end yet (R365): the PC of the store, the
tick of its execution, its tag, whether it was refused, its lanes and its address. -/
structure Lost where
  pc     : W64
  tick   : Nat
  tag    : Nat
  remote : Bool
  lanes  : Mask
  va     : W64
  deriving DecidableEq, Repr

/-- A team (R264). `cohort` is the model's index of its cohort, `idx` its number in the cohort, `age` the passes that its bench had
issued when the team last issued and `since` those when the bench last found it not ready (R150), `owed` the remaining mask words of
its last instruction with their passes, which further turns issue (R151), and `banks` the bank cycles of its last scratchpad access by
mask word and cohort: those of words that are owed still are yet to come (R126, R259). `before` is what the team was waiting for at the
instruction at its PC when a fetch from another package, or a handler, came between (R267, R313). -/
structure Team where
  cohort   : Nat
  idx      : Nat
  lanes    : Nat
  regs     : Regs
  mode     : Mode
  active   : Mask
  live     : Mask
  pc       : W64
  stack    : List Entry
  regions  : W32
  repc     : W64
  rmask    : Mask
  rdepth   : Nat
  flags    : Flags
  resstall : W64
  passes   : W64
  clears   : W64
  trapvec  : W64
  rescap   : Nat
  resflt   : Bool
  stalled  : Bool
  monitor  : Option Nat
  wake     : Bool
  stage0   : List W64
  stage2   : List W64
  status   : Status
  claims   : List Claim
  inflight : List InFlight
  residues : List Residue
  posts    : List Post
  nextId   : Nat
  bars     : List BarUse
  fault    : Option FaultInfo
  halted   : Bool
  resumed  : Bool
  before   : Option Wake
  podPages : List Nat
  podTags  : List Nat
  age      : Nat
  since    : Nat
  owed     : List (Nat × Nat)
  banks    : List (Nat × Nat × Nat)
  lost     : List Lost
  deriving DecidableEq, Repr

/-! ## Cohorts, gangs, kernels -/

/-- A ring (R144): descriptor and counters. -/
structure Ring where
  base   : W32
  slotsz : W32
  nslot  : W32
  rsv    : W32
  cmt    : W32
  cns    : W32
  rel    : W32
  deriving DecidableEq, Repr

/-- Who asked for ring slots: a team, by its index and the number of handlers that it was in, or a Sifter context (R140). -/
inductive RingAsker where
  | team (t depth : Nat) | sifter (ctx : Nat)
  deriving DecidableEq, Repr

/-- A waiting `rsv` (or, with `wait`, a waiting `wait`) of `k` slots (R145); `granted` holds the count it received. -/
structure RingReq where
  who     : RingAsker
  ring    : Nat
  wait    : Bool
  k       : W32
  granted : Option W32
  deriving DecidableEq, Repr

/-- States of a barrier instance (R276). -/
inductive BarState where
  | idle | counting | complete | faulted
  deriving DecidableEq, Repr

/-- A barrier instance (R275): generation, the count operand of the generation's first arrive (0: every live member), its
target, state, and the teams that have arrived. The count of R275 is computed from them. -/
structure Bar where
  gen     : W32
  operand : Option W64
  target  : Nat
  state   : BarState
  members : List Nat
  deriving DecidableEq, Repr

/-- A cohort on its core (R261 to R263). -/
structure Cohort where
  gang    : Nat
  k       : Nat
  sp      : Sparse 8
  tiles   : Sparse 32
  lats    : List (Option (BitVec 512))
  rings   : List (Option Ring)
  ringq   : List RingReq
  bars    : List Bar
  compq   : List W64
  spbankc : W64
  deriving DecidableEq, Repr

/-- States of a gang (R267). -/
inductive GangState where
  | resident | capturing | captured | retired
  deriving DecidableEq, Repr

/-- A gang (R261, R265): kernel, linear index, quad, base position, the die group it was first placed in (R281), its cores in
order of cohort, its cohorts and teams, state, barriers, bytes reserved in the save pool and the stretches of it that they are
(offset, bytes; R321), and whether a fault of a matrix unit has discarded its instructions (R239). -/
structure Gang where
  kernel  : Nat
  index   : W64
  quad    : Nat
  base    : Nat
  group   : Nat
  cores   : List Nat
  cohorts : List Nat
  teams   : List Nat
  state   : GangState
  bars    : List Bar
  saved   : Nat
  saveAt  : List (Nat × Nat)
  mfault  : Bool
  deriving DecidableEq, Repr

/-- A launch record (R284). -/
structure LaunchRec where
  seq    : W64
  entry  : W64
  args   : W64
  gx     : Nat
  gy     : Nat
  gz     : Nat
  cores  : Nat
  teams  : Nat
  lanes  : Nat
  rescap : Nat
  resflt : Bool
  rf     : Nat
  sp     : Nat
  acc    : Nat
  yi     : Nat
  df     : Bool
  coop   : Bool
  prio   : Nat
  bclass : Nat
  deriving DecidableEq, Repr

/-- One dependence (R286). -/
inductive Dep where
  | timeline (e : EngRef) (n : W64) | edge (queue : Nat) (seq : W64) | join (packages : Nat) (key : W64)
  deriving DecidableEq, Repr

/-- States of a kernel (R288). -/
inductive KState where
  | submitted | waiting | dispatching | running | draining | complete
  deriving DecidableEq, Repr

/-- A kernel (R284 to R292): record, owner, state, dependences, out-regions, gangs placed so far, cores that ran one, the
time of DISPATCHING if it was dispatched, the requests that its write-backs of R290 have sent, completion status and code, the
barriers of its dies, its package and the pod. -/
structure Kernel where
  ctx     : Nat
  queue   : Nat
  launch  : LaunchRec
  state   : KState
  deps    : List Dep
  outs    : List (W64 × W64)
  placed  : Nat
  cores   : List Nat
  began   : Option W64
  drain   : List Nat
  status  : Byte
  code    : Byte
  dieBars : List (List Bar)
  pkgBars : List Bar
  podBars : List Bar
  deriving DecidableEq, Repr

/-! ## Queues, slots, contexts -/

/-- States of a queue (R296). -/
inductive QState where
  | disabled | idle | pending | active | quiet
  deriving DecidableEq, Repr

/-- A user queue: its context, number, the virtual address of its state record (R294), state, and the order of its last
TAIL write and of its becoming QUIET. -/
structure Queue where
  ctx     : Nat
  num     : Nat
  addr    : W64
  state   : QState
  tailAt  : Nat
  quietAt : Nat
  deriving DecidableEq, Repr

/-- A hardware queue slot (R296, R299): the queue it holds, TSLICE in µs, whether its slice has expired, whether a gang of
it has been placed since, and the run list of captured gangs. -/
structure Slot where
  queue   : Option (Nat × Nat)
  tslice  : Nat
  started : Bool
  expired : Bool
  runList : List Nat
  offered : Nat
  deriving DecidableEq, Repr

/-- States of a context (R318). -/
inductive CState where
  | created | active | switched | aborted | destroyed
  deriving DecidableEq, Repr

/-- A debug comparator (R355), with the pod option of the request that set it (R356). -/
structure Comparator where
  addr : W64
  ctl  : W64
  pod  : Bool
  deriving DecidableEq, Repr

/-- A context (R318, R300, R355, R358): the fields of its record; `buckets` are the tokens of each class and channel;
`held` the fault records that wait for room; `recAt` is where Chandler holds the record; `reserved` are the ranges of addresses
that the context has reserved (R338). -/
structure Ctx where
  id       : Nat
  state    : CState
  acode    : Byte
  keyidx   : Nat
  asid     : Option Nat
  ptroot   : W64
  budgets  : List Budget
  buckets  : List (Nat × Nat × Nat)
  refusal  : Option Nat
  qtable   : W64
  savebase : W64
  savesize : Nat
  saveused : Nat
  recAt    : Nat
  budgetAt : W64
  reserved : List (W64 × W64)
  fbase    : W64
  fsize    : Nat
  ftail    : W64
  fhead    : W64
  held     : List (List Byte)
  lastrun  : W64
  comps    : List Comparator
  ranges   : List (W64 × W64)
  halted   : Bool
  deriving DecidableEq, Repr

/-! ## Cores -/

/-- The store that left a dirty byte of an imported line: its team, the tick of its execution, PC, lanes and address, for the fault that
its request may raise (R351, R352, R365). -/
structure Author where
  team  : Nat
  tick  : Nat
  pc    : W64
  lanes : Mask
  va    : W64
  deriving DecidableEq, Repr

/-- A line of an L1 (R13, R172 to R175, R332): physical line, ASID, P, the clean bytes as they were filled (none: not
held), the dirty bytes by offset, and the authors of those of an imported line. -/
structure L1Line where
  line  : Nat
  asid  : Nat
  priv  : Bool
  clean : Option (Sparse 8)
  dirty : List (Nat × Byte)
  who   : List (Nat × Author)
  deriving DecidableEq, Repr

/-- A line of a constant cache (R125). -/
structure CLine where
  line : Nat
  asid : Nat
  data : Sparse 8
  deriving DecidableEq, Repr

/-- A line of an instruction cache (R13): its bytes as they were when it was filled. -/
structure ILine where
  line : Nat
  data : Sparse 8
  deriving DecidableEq, Repr

/-- Where a command came from, as it stood at the push (R138): team, its context, cohort, gang, kernel, the PC, the active
mask, and the numbers that a fault record names. -/
structure Origin where
  team   : Nat
  ctx    : Nat
  cohort : Nat
  gang   : Nat
  kernel : Nat
  pc     : W64
  mask   : Mask
  tnum   : Nat
  core   : Nat
  bench  : Nat
  deriving DecidableEq, Repr

/-- A command of Carter, Sifter or settle (R138 to R141, R222): number, words, the lattice descriptor of a `settle`, its
origin, and, once a Sifter command has run, the entries that it has still to emit and the pairs emitted. -/
structure Cmd where
  n      : W64
  words  : List W64
  desc   : BitVec 512
  origin : Origin
  emit   : Option (List W64)
  pairs  : Nat
  deriving DecidableEq, Repr

/-- An engine context (R138): queue, NEXT, TL, halted, a fault that waits for Chandler, fabric lines it waits for, the imported
lines that its oldest command has read at their home (R179), the
global ranges that its completed commands wrote (number, ASID, base, length), for the acquire of `tlwait` (R142), and the first number
that an abort has taken from its queue, which TL does not pass (R323). -/
structure Engine where
  queue  : List Cmd
  next   : W64
  tl     : W64
  halted : Bool
  fault  : Option FaultInfo
  need   : List Nat
  got    : List (Nat × List Byte)
  ranges : List (W64 × Nat × W64 × Nat)
  stuck  : Option W64
  deriving DecidableEq, Repr

/-- Ramp states of a matrix unit (R236). -/
inductive Ramp where
  | idle | up | run | hold | down
  deriving DecidableEq, Repr

/-- A numbered matrix instruction (R233): number, instruction, MODE, the uniform operands it captured, its origin, whether it
has been discarded (R239), and whether the unit has begun it. -/
structure MCmd where
  q      : W64
  instr  : Instr
  mode   : Mode
  args   : List W64
  origin : Origin
  skip   : Bool
  begun  : Bool
  deriving DecidableEq, Repr

/-- A bench (R13, R229 to R240, R358): its matrix unit's queue, NXMAT, TL, MPROG, ramp state, BURST, MFILL, a fault that
waits for Chandler, the lane-cycle record (range × 4 + class) with the IDLE counter, the passes it has issued (R150), and the first
number that an abort has taken from its queue, which TL does not pass (R323). -/
structure Bench where
  queue  : List MCmd
  nxmat  : W64
  tl     : W64
  mprog  : W32
  ramp   : Ramp
  burst  : BitVec 16
  mfill  : W64
  fault  : Option FaultInfo
  need   : List Nat
  counts : Sparse 48
  idle   : BitVec 48
  issued : Nat
  stuck  : Option W64
  deriving DecidableEq, Repr

/-- A core (R13): its caches, engine contexts and benches. -/
structure Core where
  l1      : List L1Line
  icache  : List ILine
  ccache  : List CLine
  carter  : List Engine
  sifter  : List Engine
  settle  : Engine
  benches : List Bench
  deriving DecidableEq, Repr

/-! ## Memory system and links -/

/-- A leaf in a quad's TLB (R331): ASID, virtual page number in 64 KiB units of its first byte, 64 KiB pages covered, the
physical address of the entry, and the entry. -/
structure TlbEntry where
  asid  : Nat
  page  : Nat
  pages : Nat
  home  : Nat
  pte   : W64
  deriving DecidableEq, Repr

/-- A releaser outside the package is named by the link that its release came from (R190), else the releaser is a core. -/
inductive Releaser where
  | core (c : Nat) | link (plane : Fin 16)
  deriving DecidableEq, Repr

/-- The releaser tag of a home line (R172, R190): releaser, ASID, scope, CLEARED. -/
structure Tag where
  line    : Nat
  by_     : Releaser
  asid    : Nat
  scope   : Scope
  cleared : Bool
  deriving DecidableEq, Repr

/-- A copy of an imported line in a die's memory-side cache (R184): the key index of the importing context (R322), the whole line
where it has been fetched, the bytes that the die has written, and how many of its forwarded writes the exporter has not
confirmed. -/
structure DieCopy where
  die     : Nat
  line    : Nat
  key     : Nat
  full    : Option (Sparse 8)
  written : List (Nat × Byte)
  unsent  : Nat
  deriving DecidableEq, Repr

/-- What a fabric request was sent for: an access of a team, an engine, a write-back of bytes that a team stored (tick and
PC of the store), or a prefetch, with the ASID and the P of its page, and whether it asks for the line in L1 (R135). -/
inductive ReqOwner where
  | team (t id : Nat) | engine (e : EngRef) | forward (t tick : Nat) (pc : W64) | prefetch (asid : Nat) (priv l1 : Bool)
  deriving DecidableEq, Repr

/-- A fabric request without an end (R348, R352): tag, port, owner, the core that sent it, the physical and virtual address
it concerns, the key index of its context, the lanes it was sent for, whether it reads a whole line into the die's copy, the bytes
of the die's copy that it forwards (0 for none), the bytes of the element that it changes at the exporter's home (0 for none), and its
deadline. -/
structure Req where
  tag      : Nat
  port     : Nat
  owner    : ReqOwner
  core     : Nat
  key      : Nat
  pa       : Nat
  va       : W64
  lanes    : Mask
  fill     : Bool
  forward  : Nat
  elem     : Nat
  deadline : W64
  deriving DecidableEq, Repr

/-- The directory entry of an exported page (R342): physical page, dies (module × 4 + die) that hold copies, OVF, and the
invalidations not yet acknowledged, by die and of every die. -/
structure DirEntry where
  page : Nat
  dies : List Nat
  ovf  : Bool
  owed : List Nat
  all  : Bool
  deriving DecidableEq, Repr

/-- A hotness entry (R340). -/
structure HotEntry where
  die      : Nat
  block    : Nat
  src      : Nat
  count    : BitVec 16
  notified : Bool
  deriving DecidableEq, Repr

/-- The two Bloom filters of a memory-side cache slice (R339), by their set bits. -/
structure Bloom where
  slice : Nat
  cur   : List Nat
  prev  : List Nat
  deriving DecidableEq, Repr

/-- States of a port (R353). -/
inductive PState where
  | down | training | up | degraded | draining | faulted
  deriving DecidableEq, Repr

/-- A line that the memory-side cache of a base die holds for its stack (R15, R339), with its key index (R322). Its bytes are those at
home. -/
structure MscLine where
  die  : Fin 8
  line : Nat
  key  : Nat
  deriving DecidableEq, Repr

/-- A port (R346, R348, R353): state, lanes in use, failed training attempts, the next flit sequences to send and to
receive, the last 512 flits sent, replays asked for, payload received in order, and how many of the module's packets for it have
been sent. -/
structure Port where
  state    : PState
  lanes    : Nat
  attempts : Nat
  txSeq    : BitVec 12
  rxSeq    : BitVec 12
  replay   : List Flit
  replays  : Nat
  received : List Byte
  sent     : Nat
  deriving DecidableEq, Repr

/-- A packet that the module has sent over Span (R348, R351, R365, R184): a request, the answer to one, a NACK, an
invalidation of an importer's copies or its acknowledgement, or for the other members of a co-operative kernel, named by the
count and the group key of their join entries, a halt (R356) or a BARRIER on an instance of the pod level (R279, R292). -/
inductive SpanPkt where
  | request (dst : BitVec 10) (port : Nat) (r : SpanReq) | response (dst : BitVec 10) (tag : BitVec 16) (bytes : List Byte)
  | nack (dst : BitVec 10) (tag : BitVec 16) | invalidate (die : Nat) (page : Nat) | invalidateAll (page : Nat) (but : Option Nat)
  | ack (die page : Nat) | halt (group : Nat × W64) | barrier (group : Nat × W64) (id : Fin 16)
  deriving DecidableEq, Repr

/-- A packet that the module has sent over Ultra Ethernet (R346, R347, R363, R364). -/
inductive UePkt where
  | data (sess : Nat) (bytes : List Byte) | done (sess : Nat) | error (sess : Nat)
  | answer (sess : Nat) (rseq : W64) (status : Byte) (bytes : List Byte)
  | config (accepted : Bool) | attest (nonce : W64) (rom fw cfg : BitVec 384) (state : Byte) (signature : List Byte)
  deriving DecidableEq, Repr

/-- A requester session (R347): last accepted RSEQ, the first missing RSEQ and the count of the gap, and the last 64
answers. -/
structure Session where
  id       : Nat
  last     : W64
  gapFirst : W64
  gapCnt   : W64
  answers  : List (W64 × Byte × List Byte)
  deriving DecidableEq, Repr

/-- A record on Chandler's service queue: a refused RMA access (R346), a refused fabric request (R351), a hotness
notification (R340), a port change (R353), a self-test result (R360), comparators that matched a halt (R357) with the pair that
names where (R359). -/
inductive SvcRec where
  | rma (time : W64) (src : BitVec 128) (flow : W64) (ctx : Nat) (va : W64) (len : Nat) (reason : Byte)
  | fabric (time : W64) (src : BitVec 10) (index : BitVec 12) (off : BitVec 29) (tag : BitVec 16) (reason : Byte)
  | hot (block src : Nat) (count : BitVec 16)
  | port (p : PortRef) (s : PState)
  | test (u : UnitRef) (lasting replaced : Bool) (disabled : Option Disable)
  | halt (ctx : Nat) (comps : List Nat) (pc seq : W64)
  | counts (core bench : Nat) (counts : Sparse 48) (idle : BitVec 48)
  deriving DecidableEq, Repr

/-- An inbound fabric request that waits for Chandler (R351), with the code of its fault, the address whose translation failed, and the
pod time at which it arrived. -/
structure Inbound where
  req     : SpanReq
  code    : Byte
  va      : W64
  arrived : W64
  deriving DecidableEq, Repr

/-- Bring-up states (R362). -/
inductive Boot where
  | rom | listen | verify | firmware | ready
  deriving DecidableEq, Repr

/-- What comes before the default choice of the scheduler (log 1): an event, the next issue of a bench, or an eviction; from another
package a halt (R356) or a BARRIER of a member of a co-operative kernel, by its count and group key (R279, R292), and the acknowledgement of
an invalidation by a die or by every die (R342); a TAIL write that a write at home has performed, with the value left (R295); and what ports, service cores and Chandler do without a row of the opcode table:
the next packet of a port is sent, or flits are replayed from a flit sequence on (R348), bring-up goes on (R362), and HTHRESH of a
base die is set (R340). -/
inductive Happening where
  | event (i : Instr) | issue (core bench : Nat) | evictL1 (core line : Nat) | evictHome (line : Nat)
  | evictConst (core line : Nat) | evictInstr (core line : Nat) | evictMsc (line : Nat)
  | podHalt (group : Nat × W64) | podBarrier (group : Nat × W64) (id : Fin 16) | ack (die page : Nat) | ackAll (page : Nat)
  | tail (ctx queue : Nat) (value : W64)
  | transmit (p : Fin 16) | replay (p : Fin 16) (fseq : BitVec 12) | bringUp | hthresh (die : Fin 8) (n : BitVec 16)
  deriving DecidableEq, Repr

/-! ## The machine -/

/-- The whole state of the machine. INVENTORY.md gives each field's rule and reset value. -/
structure State where
  agenda    : List Happening
  cur       : Nat
  tick      : Nat
  now       : Nat
  cycle     : W64
  podTime   : W64
  teams     : List Team
  cohorts   : List Cohort
  gangs     : List Gang
  kernels   : List Kernel
  queues    : List Queue
  slots     : List Slot
  ctxs      : List Ctx
  cores     : List Core
  tlbs      : List (List TlbEntry)
  mem       : Sparse 8
  lineKey   : List (Nat × Nat)
  tags      : List Tag
  dieCopies : List DieCopy
  reqs      : List Req
  nextTag   : BitVec 16
  directory : List DirEntry
  ingress   : List (Nat × Ingress)
  egress    : List (Nat × Egress)
  revoking  : List (BitVec 12)
  inbound   : List Inbound
  msc       : List MscLine
  bloom     : List Bloom
  hot       : List HotEntry
  hthresh   : List (BitVec 16)
  uePorts   : List Port
  spanPorts : List Port
  ueOut     : List UePkt
  spanOut   : List SpanPkt
  flitsOut  : List (Fin 16 × Flit)
  svcQ      : List SvcRec
  sessions  : List Session
  regions   : List RmaRegion
  keys      : List (Nat × BitVec 512)
  replaced  : List UnitRef
  disabled  : List (UnitRef × Disable)
  boot      : Boot
  image     : List Byte
  fwHash    : Option (BitVec 384)
  cfgHash   : Option (BitVec 384)
  cfg       : ConfigRec
  frozen    : Bool
  deriving DecidableEq, Repr

/-- An engine context when the device starts: NEXT 1, TL 0 (R138). -/
def Engine.reset : Engine := ⟨[], 1, 0, false, none, [], [], [], none⟩
/-- A bench when the device starts: NXMAT 1, TL 0, MPROG 0, MFILL 0 (R138, R147), ramp IDLE and BURST 0 (R236). -/
def Bench.reset : Bench := ⟨[], 1, 0, 0, .idle, 0, 0, none, [], [], 0, 0, none⟩
/-- A core when the device starts: caches empty, engines idle. -/
def Core.reset : Core :=
  ⟨[], [], [], List.replicate 16 Engine.reset, List.replicate 4 Engine.reset, Engine.reset, List.replicate 4 Bench.reset⟩
/-- A port before Chandler enables it (R353). -/
def Port.reset : Port := ⟨.down, 0, 0, 0, 0, [], 0, [], 0⟩
/-- A free hardware queue slot (R296). -/
def Slot.reset : Slot := ⟨none, 1000, false, false, [], 0⟩
/-- The configuration before a record is accepted (R363): RTMO 20 µs (R147); the other values are log 20's. -/
def ConfigRec.reset : ConfigRec := ⟨false, [], 1000, 20, 65535, []⟩

/-- The machine right after reset (R362): the service cores start from ROM; no context, queue, kernel or team exists; every
cache, table and queue is empty; memory lists nothing. -/
def State.reset : State where
  agenda := []
  cur := 0
  tick := 0
  now := 0
  cycle := 0
  podTime := 0
  teams := []
  cohorts := []
  gangs := []
  kernels := []
  queues := []
  slots := List.replicate 64 Slot.reset
  ctxs := []
  cores := List.replicate 128 Core.reset
  tlbs := List.replicate 32 []
  mem := []
  lineKey := []
  tags := []
  dieCopies := []
  reqs := []
  nextTag := 0
  directory := []
  ingress := []
  egress := []
  revoking := []
  inbound := []
  msc := []
  bloom := []
  hot := []
  hthresh := List.replicate 8 65535
  uePorts := List.replicate 4 Port.reset
  spanPorts := List.replicate 16 Port.reset
  ueOut := []
  spanOut := []
  flitsOut := []
  svcQ := []
  sessions := []
  regions := []
  keys := []
  replaced := []
  disabled := []
  boot := .rom
  image := []
  fwHash := none
  cfgHash := none
  cfg := ConfigRec.reset
  frozen := false

end Sys2Proof.Machine
end

