-- ==== Sys2Proof/Machine/Tables.lean ====
section
/-! DEFINITION. The plain operations that everything else uses: sparse tables, lane masks, registers, and lookup of the
units of the machine. -/
namespace Sys2Proof.Machine

/-! ## Sparse tables -/

/-- The entry of a key; zero where none is listed. -/
def sget {w : Nat} : Sparse w → Nat → BitVec w
  | [], _ => 0
  | (a, x) :: t, k => if a = k then x else sget t k

/-- Writes one entry and keeps the canonical form: keys rising, no zero listed. -/
def sset {w : Nat} : Sparse w → Nat → BitVec w → Sparse w
  | [], k, x => if x = 0 then [] else [(k, x)]
  | (a, y) :: t, k, x =>
    if k < a then (if x = 0 then (a, y) :: t else (k, x) :: (a, y) :: t)
    else if k = a then (if x = 0 then t else (k, x) :: t)
    else (a, y) :: sset t k x

/-- Writes entries in the order given. -/
def ssetAll {w : Nat} (m : Sparse w) (ws : List (Nat × BitVec w)) : Sparse w :=
  ws.foldl (fun m p => sset m p.1 p.2) m

/-- All keys of `m` lie above `k`. -/
def sabove {w : Nat} (k : Nat) : Sparse w → Bool
  | [] => true
  | (a, _) :: t => decide (k < a) && sabove k t

/-- The canonical form: keys strictly rising, no entry zero. -/
def swf {w : Nat} : Sparse w → Bool
  | [] => true
  | (a, x) :: t => x != 0 && sabove a t && swf t

/-- The canonical form of memory. -/
def Memory.wf (m : Sparse 8) : Bool := swf m

/-- Applies a function to the entry at an index of a list; nothing where there is none. -/
def modAt {α : Type} (f : α → α) : List α → Nat → List α
  | [], _ => []
  | x :: t, 0 => f x :: t
  | x :: t, n + 1 => x :: modAt f t n

/-- Puts an element into a list before the first one that it may precede. -/
def insertBy {α : Type} (le : α → α → Bool) (x : α) : List α → List α
  | [] => [x]
  | y :: r => if le x y then x :: y :: r else y :: insertBy le x r
/-- A list in the order of `le`; equal elements keep their places. -/
def sortBy {α : Type} (le : α → α → Bool) : List α → List α
  | [] => []
  | x :: r => insertBy le x (sortBy le r)

/-! ## Lane masks -/

/-- The number of lanes that a mask reaches up to: one more than its highest lane. -/
def maskTop (m : Mask) : Nat := if m = 0 then 0 else m.toNat.log2 + 1
/-- The lanes of a mask in ascending order (R7). -/
def lanesOf (m : Mask) : List Nat := (List.range (maskTop m)).filter fun l => m.getLsbD l
/-- One lane as a mask. -/
def laneBit (l : Nat) : Mask := BitVec.ofNat 1024 (2 ^ l)
/-- The mask of a list of lanes. -/
def maskOf (ls : List Nat) : Mask := ls.foldl (fun m l => m ||| laneBit l) 0
/-- Lanes 0 to n − 1. -/
def maskBelow (n : Nat) : Mask := BitVec.ofNat 1024 (2 ^ n - 1)
/-- The 32 lanes of mask word `w` (R260). -/
def wordMask (w : Nat) : Mask := BitVec.ofNat 1024 ((2 ^ 32 - 1) * 2 ^ (32 * w))
/-- The mask words that hold a lane of the mask, ascending (R152): the summary word of R260. -/
def wordsOfMask (m : Mask) : List Nat := (List.range ((maskTop m + 31) / 32)).filter fun w => m &&& wordMask w != 0
/-- Bit w of the summary word is 1 exactly when mask word w is non-empty (R260). -/
def summary (m : Mask) : W32 := (wordsOfMask m).foldl (fun x w => x ||| BitVec.ofNat 32 (2 ^ w)) 0

/-! ## Registers -/

/-- The key of lane register `r` of lane `l`. -/
def vKey (r l : Nat) : Nat := r * 1024 + l

/-- Lane register `r` of lane `l`. -/
def Regs.vget (g : Regs) (r l : Nat) : W32 := sget g.v (vKey r l)
/-- Uniform register `r`. -/
def Regs.uget (g : Regs) (r : Nat) : W64 := sget g.u r
/-- Predicate register `n`; p0 reads true in every lane (R34). -/
def Regs.pget (g : Regs) (n : Nat) : Mask := if n = 0 then BitVec.allOnes 1024 else sget g.p n
/-- Index register `n` of lane `l` (R111). -/
def Regs.xget (g : Regs) (n l : Nat) : Byte := sget g.x (vKey n l)
/-- The window of index register `n` (R111). -/
def Regs.window (g : Regs) (n : Nat) : Window := g.win.getD n ⟨0, 0⟩
/-- Writes uniform register `r`. -/
def Regs.uset (g : Regs) (r : Nat) (x : W64) : Regs := { g with u := sset g.u r x }
/-- Writes the lanes of `m` of predicate `n` with the bits of `b`; a write to p0 is discarded (R34). -/
def Regs.pset (g : Regs) (n : Nat) (m b : Mask) : Regs :=
  if n = 0 then g else { g with p := sset g.p n ((sget g.p n &&& ~~~m) ||| (b &&& m)) }
/-- Writes lane registers. -/
def Regs.vsetAll (g : Regs) (ws : List (Nat × W32)) : Regs := { g with v := ssetAll g.v ws }
/-- Writes uniform registers. -/
def Regs.usetAll (g : Regs) (ws : List (Nat × W64)) : Regs := { g with u := ssetAll g.u ws }
/-- Writes index registers. -/
def Regs.xsetAll (g : Regs) (ws : List (Nat × Byte)) : Regs := { g with x := ssetAll g.x ws }
/-- Writes predicates. -/
def Regs.psetAll (g : Regs) (ws : List (Nat × Mask × Mask)) : Regs :=
  ws.foldl (fun g w => g.pset w.1 w.2.1 w.2.2) g
/-- The registers of a team at launch, before s0 to s4 are set (R264). -/
def Regs.zero : Regs := ⟨[], [], [], [], List.replicate 4 ⟨0, 0⟩⟩

/-- Nothing written. -/
def Writes.none : Writes := ⟨[], [], [], [], 0⟩
/-- Lane registers written. -/
def Writes.ofV (ws : List (Nat × W32)) : Writes := { Writes.none with v := ws }
/-- A uniform register written. -/
def Writes.ofU (r : Nat) (x : W64) : Writes := { Writes.none with u := [(r, x)] }
/-- A predicate written in the lanes of `m`. -/
def Writes.ofP (n : Nat) (m b : Mask) : Writes := { Writes.none with p := [(n, m, b)] }

/-- The registers after the writes. -/
def Regs.apply (g : Regs) (w : Writes) : Regs :=
  (((g.vsetAll w.v).usetAll w.u).psetAll w.p).xsetAll w.x

/-! ## MODE -/

/-- MODE as the bits of R41. -/
def Mode.bits (m : Mode) : W32 :=
  BitVec.ofNat 32 (m.sc.code * 2 ^ 18 + m.df.toNat * 2 ^ 17 + m.ftz.toNat * 2 ^ 16 + m.sat.toNat * 2 ^ 15
    + m.rnd.code * 2 ^ 12 + m.t.code * 2 ^ 7 + m.s.val * 2 ^ 4 + m.gn.toNat * 2 ^ 3 + m.g.val)
/-- MODE at team launch (R41). -/
def Mode.launch (df : Bool) : Mode := ⟨0, false, 1, .f32, .rne, false, false, df, .pkg⟩
/-- The effect of a `setm` word on MODE (R42). -/
def Mode.set (m : Mode) : ModeField → Mode
  | .g gn p => { m with gn := gn, g := p }
  | .s p => { m with s := p }
  | .t ty => { m with t := ty }
  | .rnd r => { m with rnd := r }
  | .sat b => { m with sat := b }
  | .ftz b => { m with ftz := b }
  | .df b => { m with df := b }
  | .sc c => { m with sc := c }

/-! ## Frames -/

/-- The guard of a frame: p_G, negated by GN (R41). -/
def Frame.guard (f : Frame) : Mask :=
  if f.mode.gn then ~~~(f.regs.pget f.mode.g.val) else f.regs.pget f.mode.g.val
/-- The lanes that take part: active and guarded on (R7, R71). -/
def Frame.part (f : Frame) : Mask := f.mask &&& f.guard
/-- The lanes that take part, ascending. -/
def Frame.on (f : Frame) : List Nat := lanesOf f.part

/-! ## Lookup -/

/-- Where a team runs: its index, its record, and the cohort, gang, kernel and context it belongs to. `wake` is what it was
waiting for when it issued, `time` the cycle counter. -/
structure Here where
  t    : Nat
  tm   : Team
  co   : Cohort
  g    : Nat
  ga   : Gang
  k    : Nat
  ke   : Kernel
  cx   : Ctx
  core : Nat
  asid : Nat
  time : W64
  wake : Option Wake
  deriving DecidableEq, Repr

/-- The context of a number. -/
def State.ctx? (s : State) (id : Nat) : Option Ctx := s.ctxs.find? fun c => c.id = id
/-- The queue of a context and number. -/
def State.queue? (s : State) (ctx q : Nat) : Option Queue := s.queues.find? fun x => x.ctx = ctx && x.num = q
/-- Replaces the context of the same number. -/
def State.setCtx (s : State) (c : Ctx) : State :=
  { s with ctxs := s.ctxs.map fun x => if x.id = c.id then c else x }
/-- Replaces the queue of the same context and number. -/
def State.setQueue (s : State) (q : Queue) : State :=
  { s with queues := s.queues.map fun x => if x.ctx = q.ctx && x.num = q.num then q else x }
/-- Replaces a team. -/
def State.setTeam (s : State) (t : Nat) (tm : Team) : State := { s with teams := s.teams.set t tm }
/-- Changes a team. -/
def State.modTeam (s : State) (t : Nat) (f : Team → Team) : State := { s with teams := modAt f s.teams t }
/-- Changes a cohort. -/
def State.modCohort (s : State) (c : Nat) (f : Cohort → Cohort) : State := { s with cohorts := modAt f s.cohorts c }
/-- Changes a gang. -/
def State.modGang (s : State) (g : Nat) (f : Gang → Gang) : State := { s with gangs := modAt f s.gangs g }
/-- Changes a kernel. -/
def State.modKernel (s : State) (k : Nat) (f : Kernel → Kernel) : State := { s with kernels := modAt f s.kernels k }
/-- Changes a core. -/
def State.modCore (s : State) (c : Nat) (f : Core → Core) : State := { s with cores := modAt f s.cores c }
/-- Changes a bench of a core. -/
def State.modBench (s : State) (c b : Nat) (f : Bench → Bench) : State :=
  s.modCore c fun x => { x with benches := modAt f x.benches b }

/-- The core of a cohort: the one at its position among its gang's cores (R261). -/
def coreOf (ga : Gang) (co : Cohort) : Nat := ga.cores.getD co.k 0

/-- Where team `t` runs, if all its units are there. -/
def here (s : State) (t : Nat) : Option Here :=
  (s.teams[t]?).bind fun tm => (s.cohorts[tm.cohort]?).bind fun co => (s.gangs[co.gang]?).bind fun ga =>
  (s.kernels[ga.kernel]?).bind fun ke => (s.ctx? ke.ctx).bind fun cx => cx.asid.bind fun asid =>
    some ⟨t, tm, co, co.gang, ga, ga.kernel, ke, cx, coreOf ga co, asid, s.cycle, none⟩

/-- The bench of a team (R261). -/
def Here.bench (h : Here) : Nat := h.tm.idx % 4
/-- The frame in which the team's next instruction issues (R44). -/
def Here.frame (h : Here) : Frame :=
  ⟨h.tm.pc, h.tm.mode, h.tm.active, h.tm.regs, h.tm.idx, h.core, h.time, h.tm.lanes, h.co.lats⟩
/-- The quad of a core (R12), 0 to 31. -/
def quadOf (core : Nat) : Nat := core / 4
/-- The compute die of a core (R12). -/
def dieOf (core : Nat) : Nat := core / 32

/-- Numbers the next free value (log 6). -/
def State.bump (s : State) : State := { s with tick := s.tick + 1 }

/-! ## Bytes and numbers -/

/-- A 64-bit number as an integer in two's complement. -/
def sx (w x : Nat) : Int := if x < 2 ^ (w - 1) then (x : Int) else (x : Int) - 2 ^ w
/-- An integer as a number of `w` bits. -/
def ux (w : Nat) (x : Int) : Nat := (x % (2 ^ w : Int)).toNat
/-- A 32-bit word sign-extended to 64 bits (R32). -/
def sext64 (x : W32) : W64 := x.signExtend 64

end Sys2Proof.Machine
end

