-- ==== Sys2Proof/Machine/Home.lean ====
section
/-! DEFINITION. Memory at its home (spec/01_machine.md R15, spec/08_memory_model.md R170): reads and writes of physical
bytes, and translation of virtual addresses (spec/06_instructions_memory.md R118, spec/22_page_lifecycle.md R327 to R334). -/
namespace Sys2Proof.Machine

/-! ## Physical memory -/

/-- The 128-byte line of a physical address. -/
def lineOf (pa : Nat) : Nat := pa / 128
/-- `n` bytes from physical address `pa`. -/
def readBytes (m : Sparse 8) (pa n : Nat) : List Byte := (List.range n).map fun i => sget m (pa + i)
/-- The number of `n` bytes from `pa`, little-endian (R3). -/
def readNat (m : Sparse 8) (pa n : Nat) : Nat := natOf (readBytes m pa n)
/-- Bytes paired with consecutive addresses. -/
def atAddrs (pa : Nat) (bs : List Byte) : List (Nat × Byte) := bs.mapIdx fun i b => (pa + i, b)

/-- First address of the fabric aperture (R329). -/
def apertureBase : Nat := 2 ^ 51
/-- The physical address is in HBM (R329). -/
def inHbm (s : State) (pa : Nat) : Bool := !s.cfg.hbmCache && decide (pa < 0x6000000000)
/-- The physical address is in LPDDR6 (R329). -/
def inLpddr (pa : Nat) : Bool := decide (0x100000000000 ≤ pa) && decide (pa < 0x118000000000)
/-- The physical address is in the fabric aperture (R329). -/
def inAperture (pa : Nat) : Bool := decide (apertureBase ≤ pa) && decide (pa < 2 ^ 52)

/-- The key index of a line of memory (R322); 0 where none has been written under a key. -/
def keyOf (s : State) (line : Nat) : Nat := ((s.lineKey.find? fun p => p.1 = line).map (·.2)).getD 0
/-- Tags a line with a key index (R322). -/
def setKey (ks : List (Nat × Nat)) (line key : Nat) : List (Nat × Nat) :=
  (line, key) :: ks.filter fun p => p.1 != line

/-! ## Memory-side caches (R15, R339) -/

/-- The stack whose base die holds a physical line: the XOR of the fifteen 3-bit groups of PA[51:7] (R329). -/
def stackOf (line : Nat) : Fin 8 := Fin.ofNat 8 ((List.range 15).foldl (fun x i => x ^^^ (line / 8 ^ i % 8)) 0)
/-- The Bloom filters of a base die's cache. -/
def bloomOf (s : State) (die : Nat) : Bloom := (s.bloom.find? fun x => x.slice = die).getD ⟨die, [], []⟩
/-- The bits of a line address in a Bloom filter (R339). -/
def bloomBits (line : Nat) : List Nat := [(Config.bloomHash false line).toNat, (Config.bloomHash true line).toNat]
/-- A read miss of the line has been seen in the window: both of its bits are set in one of the filters (R339). -/
def bloomSeen (s : State) (line : Nat) : Bool :=
  let b := bloomOf s (stackOf line).val
  (bloomBits line).all b.cur.contains || (bloomBits line).all b.prev.contains
/-- Records a first read miss (R339). -/
def bloomNote (s : State) (line : Nat) : State :=
  let b := bloomOf s (stackOf line).val
  { s with bloom := { b with cur := (b.cur ++ bloomBits line).eraseDups } :: s.bloom.filter fun x => x.slice != b.slice }
/-- The line allocates in the cache of its stack's base die (R339), tagged with its key index (R322). -/
def mscPut (s : State) (line : Nat) : State :=
  { s with msc := ⟨stackOf line, line, keyOf s line⟩ :: s.msc.filter fun x => x.line != line }
/-- A read of a local line at home: on a miss in the memory-side cache the line allocates if a miss of it has been seen in the
window, and is recorded otherwise (R339). -/
def mscRead (s : State) (line : Nat) : State :=
  let misses := !(inAperture (line * 128) || s.msc.any fun x => x.line = line)
  let seen := bloomSeen s line
  { s with
    msc := if misses && seen then (mscPut s line).msc else s.msc
    bloom := if misses && !seen then (bloomNote s line).bloom else s.bloom }
/-- Reads of several lines. -/
def mscReads (s : State) (lines : List Nat) : State := lines.foldl mscRead s

/-- A write at home sets the wake flag of every team whose monitor is on one of the lines (R133). -/
def wakeLines (s : State) (lines : List Nat) : State :=
  { s with teams := s.teams.map fun tm =>
      match tm.monitor with
      | some l => if lines.contains l then { tm with wake := true } else tm
      | none => tm }

/-- Bytes written at home under a key (R170): memory, key tags and wake flags. -/
def homeWriteRaw (s : State) (key : Nat) (ws : List (Nat × Byte)) : State :=
  let lines := (ws.map fun p => lineOf p.1).eraseDups
  wakeLines { s with mem := ssetAll s.mem ws, lineKey := lines.foldl (fun ks l => setKey ks l key) s.lineKey } lines

/-! ## Addresses -/

/-- The 55-bit sign extension of R117 and R118: bits 63:54 are all equal. -/
def canonical (va : W64) : Bool :=
  va.toNat / 2 ^ 54 == 0 || va.toNat / 2 ^ 54 == 2 ^ 10 - 1
/-- First address of the scratchpad window (R118). -/
def windowBase : Nat := 0x003FFF0000000000
/-- The address is in the scratchpad window (R118). -/
def inWindow (va : W64) : Bool := decide (windowBase ≤ va.toNat) && decide (va.toNat < windowBase + 0x1000000)
/-- The address is in the reserved range above the window (R118). -/
def inReserved (va : W64) : Bool := decide (windowBase + 0x1000000 ≤ va.toNat) && decide (va.toNat < 2 ^ 54)
/-- The address may be translated: canonical, outside the window and the reserved range (R118, R327). -/
def ordinary (va : W64) : Bool := canonical va && !inWindow va && !inReserved va

/-! ## Page-table entries (R328) -/

/-- One bit of an entry. -/
def pteBit (e n : Nat) : Bool := e / 2 ^ n % 2 == 1
/-- The physical address that an entry names: PAGE, bits 51:16. -/
def ptePage (e : Nat) : Nat := e / 2 ^ 16 % 2 ^ 36 * 2 ^ 16
/-- TIER of a leaf. -/
def pteTier (e : Nat) : Nat := e / 2 ^ 9 % 4

/-- What an access asks of a leaf (R330). -/
inductive Need where
  | fetch | read | write | both
  deriving DecidableEq, Repr

/-- The access writes. -/
def Need.writes : Need → Bool
  | .write => true | .both => true | .fetch => false | .read => false
/-- The access reads data. -/
def Need.reads : Need → Bool
  | .read => true | .both => true | .fetch => false | .write => false

/-- The two faults of a walk (R330), and the fault codes they have (R306). -/
inductive WalkFault where
  | page | prot
  deriving DecidableEq, Repr
/-- The fault code of R306. -/
def WalkFault.code : WalkFault → Byte
  | .page => 0x05 | .prot => 0x06

/-- A leaf that a walk found: the physical address of its entry, the entry, and the pages of 64 KiB that it covers. -/
structure Leaf where
  home  : Nat
  pte   : Nat
  page  : Nat
  pages : Nat
  deriving DecidableEq, Repr

/-- Reserved bits of any entry are zero (R328). -/
def pteReservedOk (e : Nat) : Bool := e / 2 ^ 52 % 16 == 0
/-- A non-leaf entry is well formed: its bits 15:1 and its reserved bits are zero, and it names a node in local memory
(R328 to R330). -/
def nodeOk (s : State) (e : Nat) : Bool :=
  pteReservedOk e && e / 2 % 2 ^ 15 == 0 && (inHbm s (ptePage e) || inLpddr (ptePage e))
/-- A leaf is well formed and in one of the states of R334 (R328 to R330). -/
def leafOk (s : State) (e : Nat) (large : Bool) : Bool :=
  let pa := ptePage e
  let tierOk :=
    if pteTier e = 2 then inAperture pa
    else if pteTier e = 3 then false
    else if s.cfg.hbmCache then inLpddr pa
    else if pteTier e = 0 then inHbm s pa else inLpddr pa
  pteReservedOk e && e / 2 ^ 13 % 8 == 0 && tierOk
    && pteBit e 4 == large
    && (!large || pa % 2 ^ 29 == 0)
    && !(pteBit e 11 && pteBit e 12)
    && !(pteTier e == 2 && (pteBit e 11 || pteBit e 12))

/-- The walk of R327 from root `root`, each entry read at its home. -/
def walk (s : State) (root : Nat) (va : W64) : Except WalkFault Leaf :=
  let a := va.toNat
  let e0 := readNat s.mem (root + 8 * (a / 2 ^ 42 % 2 ^ 13)) 8
  if !pteBit e0 0 then .error .page
  else if !nodeOk s e0 then .error .prot
  else
    let h1 := ptePage e0 + 8 * (a / 2 ^ 29 % 2 ^ 13)
    let e1 := readNat s.mem h1 8
    if !pteBit e1 0 then .error .page
    else if pteBit e1 4 then
      if leafOk s e1 true then .ok ⟨h1, e1, a / 2 ^ 29 % 2 ^ 26 * 2 ^ 13, 2 ^ 13⟩ else .error .prot
    else if !nodeOk s e1 then .error .prot
    else
      let h2 := ptePage e1 + 8 * (a / 2 ^ 16 % 2 ^ 13)
      let e2 := readNat s.mem h2 8
      if !pteBit e2 0 then .error .page
      else if leafOk s e2 false then .ok ⟨h2, e2, a / 2 ^ 16 % 2 ^ 39, 1⟩ else .error .prot

/-- The 64 KiB virtual page number of a canonical address, its 55 significant bits (R327). -/
def vpage (va : W64) : Nat := va.toNat / 2 ^ 16 % 2 ^ 39

/-- The physical address of a virtual address under a leaf (R327). -/
def leafPa (l : Leaf) (va : W64) : Nat :=
  if l.pages = 1 then ptePage l.pte + va.toNat % 2 ^ 16 else ptePage l.pte + va.toNat % 2 ^ 29

/-- The rights that a leaf gives an access (R330, R337): a write to a migrating page takes PAGE, even where W = 0, since Chandler
treats a PROT of such a store as PAGE (R338, log 110). -/
def leafRights (pte : Nat) (n : Need) : Option WalkFault :=
  if n = .fetch && !pteBit pte 3 then some .prot
  else if n.reads && !pteBit pte 1 then some .prot
  else if n.writes && pteBit pte 11 then some .page
  else if n.writes && !pteBit pte 2 then some .prot
  else none

/-- The egress entry of an aperture address is usable (R349). -/
def egressOk (s : State) (pa : Nat) : Bool :=
  pa / 2 ^ 41 % 2 ^ 10 == 0 &&
    match s.egress.find? fun p => p.1 = pa / 2 ^ 29 % 2 ^ 12 with
    | some (_, e) => e.v
    | none => false

/-- The entry that the quad's TLB holds for a page of an ASID (R331). -/
def tlbFind (es : List TlbEntry) (asid page : Nat) : Option TlbEntry :=
  es.find? fun e => e.asid = asid && decide (e.page ≤ page) && decide (page < e.page + e.pages)

/-- What a translation gives: the physical address, P and C of the leaf, and whether it is imported. -/
structure Xlat where
  pa   : Nat
  priv : Bool
  cach : Bool
  imp  : Bool
  deriving DecidableEq, Repr

/-- The physical address of `va` under an entry. -/
def xlatOf (l : Leaf) (va : W64) : Xlat := ⟨leafPa l va, pteBit l.pte 5, pteBit l.pte 6, pteTier l.pte == 2⟩

/-- The entry with A set, and D where the access writes (R331). -/
def pteTouch (pte : Nat) (n : Need) : Nat :=
  let a := if pteBit pte 7 then pte else pte + 2 ^ 7
  if n.writes && !pteBit a 8 then a + 2 ^ 8 else a

/-- Translation of an ordinary virtual address for a quad, an ASID and a root (R327 to R331): from the quad's TLB, or by a
walk that fills it; A and D are set by an atomic OR at the entry's home before the translation completes, with which its line
allocates in the memory-side cache (R339). Key slot 0 is
the key of Chandler's own page tables (R322). -/
def translate (s : State) (quad asid root : Nat) (va : W64) (n : Need) : Except WalkFault (State × Xlat) :=
  let hit := tlbFind (s.tlbs.getD quad []) asid (vpage va)
  let found : Except WalkFault Leaf :=
    match hit with
    | some e => .ok ⟨e.home, e.pte.toNat, e.page, e.pages⟩
    | none => walk s root va
  match found with
  | .error f => .error f
  | .ok l =>
    match leafRights l.pte n with
    | some f => .error f
    | none =>
      if pteTier l.pte == 2 && !egressOk s (leafPa l va) then .error .prot
      else
        let pte' := pteTouch l.pte n
        let s1 :=
          if pte' = l.pte then s
          else mscPut (homeWriteRaw s 0 (atAddrs l.home (bytesOf 8 (readNat s.mem l.home 8 ||| pte')))) (lineOf l.home)
        let e' : TlbEntry := ⟨asid, l.page, l.pages, l.home, BitVec.ofNat 64 pte'⟩
        let s2 :=
          if pte' = l.pte && hit.isSome then s1
          else { s1 with tlbs := modAt (fun es => e' :: es.filter fun e => !(e.asid = asid && e.page = l.page)) s1.tlbs quad }
        .ok (s2, xlatOf ⟨l.home, pte', l.page, l.pages⟩ va)

/-- Translation by the device itself, without the TLB and without rights: queue records, rings of records and the save
pool, which Chandler maps (log 11). No address that R118 refuses is translated (R327). -/
def devXlat (s : State) (root : Nat) (va : W64) : Option Nat :=
  if ordinary va then
    match walk s root va with
    | .ok l => if pteTier l.pte == 2 then none else some (leafPa l va)
    | .error _ => none
  else none

/-- A number of `n` bytes at a context's virtual address, read by the device at home (log 11). -/
def devRead (s : State) (root : Nat) (va : W64) (n : Nat) : Option Nat :=
  (devXlat s root va).map fun pa => readNat s.mem pa n

end Sys2Proof.Machine
end

