-- ==== Sys2Proof/Machine/Members.lean ====
section
/-! DEFINITION. What teams share: the members of units, barrier instances (spec/16_barrier_lifecycle.md) and the counters of rings
(spec/06_instructions_memory.md R145), with the updates that a team has posted to them. -/
namespace Sys2Proof.Machine

/-! ## Units and members -/

/-- A team that is alive (R74). -/
def Team.alive (tm : Team) : Bool := tm.live != 0 && tm.status != .retired
/-- Some team of a gang is alive. -/
def gangAlive (s : State) (ga : Gang) : Bool := ga.teams.any fun t => ((s.teams[t]?).map Team.alive).getD false
/-- The gangs of a kernel that a condition picks, by index. -/
def gangsOf (s : State) (k : Nat) (p : Gang → Bool) : List Nat :=
  (s.gangs.zipIdx.filter fun g => g.1.kernel = k && p g.1).map (·.2)

/-- The teams of a unit's members that are alive (R146). -/
def unitTeams (s : State) (u : BarUnit) : List Nat :=
  let alive := fun t => ((s.teams[t]?).map Team.alive).getD false
  match u with
  | .cohort c => (List.range s.teams.length).filter fun t => ((s.teams[t]?).map fun tm => tm.cohort == c).getD false && alive t
  | .gang g => (((s.gangs[g]?).map (·.teams)).getD []).filter alive
  | .die k d => ((gangsOf s k fun ga => ga.group == d).flatMap fun g => ((s.gangs[g]?).map (·.teams)).getD []).filter alive
  | .pkg k => ((gangsOf s k fun _ => true).flatMap fun g => ((s.gangs[g]?).map (·.teams)).getD []).filter alive
  | .pod k => ((gangsOf s k fun _ => true).flatMap fun g => ((s.gangs[g]?).map (·.teams)).getD []).filter alive

/-- The gangs that are members of a unit above the gang level. -/
def unitGangs (s : State) (u : BarUnit) : List Nat :=
  match u with
  | .cohort _ => [] | .gang _ => []
  | .die k d => gangsOf s k fun ga => ga.group == d
  | .pkg k => gangsOf s k fun _ => true
  | .pod k => gangsOf s k fun _ => true

/-- The members of a unit are teams (R146). -/
def ofTeams : BarUnit → Bool
  | .cohort _ => true | .gang _ => true | .die .. => false | .pkg _ => false | .pod _ => false

/-- The live members of a unit (R146, R276). -/
def liveMembers (s : State) (u : BarUnit) : Nat :=
  if ofTeams u then (unitTeams s u).length
  else ((unitGangs s u).filter fun g => ((s.gangs[g]?).map (gangAlive s)).getD false).length

/-- The participants that have arrived (R275): teams, or gangs whose last live team has arrived. A gang of which a team has arrived and
no live team is left without an arrival counts, although its last live team retired: the model's reading (log 120). -/
def arrivals (s : State) (u : BarUnit) (members : List Nat) : Nat :=
  if ofTeams u then members.length
  else ((unitGangs s u).filter fun g => match s.gangs[g]? with
    | some (ga : Gang) => ga.teams.any members.contains
        && ga.teams.all fun t => members.contains t || !((s.teams[t]?).map Team.alive).getD false
    | none => false).length

/-! ## Barrier instances -/

/-- The barrier instance of a reference (R274). -/
def State.bar? (s : State) (b : BarRef) : Option Bar :=
  match b.unit with
  | .cohort c => (s.cohorts[c]?).bind fun x => x.bars[b.id.val]?
  | .gang g => (s.gangs[g]?).bind fun x => x.bars[b.id.val]?
  | .die k d => (s.kernels[k]?).bind fun x => (x.dieBars[d]?).bind fun l => l[b.id.val]?
  | .pkg k => (s.kernels[k]?).bind fun x => x.pkgBars[b.id.val]?
  | .pod k => (s.kernels[k]?).bind fun x => x.podBars[b.id.val]?

/-- A barrier instance at its reset (R274). -/
def Bar.reset : Bar := ⟨0, none, 0, .idle, []⟩
/-- The sixteen instances of a unit. -/
def freshBars : List Bar := List.replicate 16 Bar.reset

/-- Changes a barrier instance. -/
def State.modBar (s : State) (b : BarRef) (f : Bar → Bar) : State :=
  let g (l : List Bar) : List Bar := modAt f l b.id.val
  match b.unit with
  | .cohort c => s.modCohort c fun x => { x with bars := g x.bars }
  | .gang n => s.modGang n fun x => { x with bars := g x.bars }
  | .die k d => s.modKernel k fun x => { x with dieBars := modAt g x.dieBars d }
  | .pkg k => s.modKernel k fun x => { x with pkgBars := g x.pkgBars }
  | .pod k => s.modKernel k fun x => { x with podBars := g x.podBars }

/-- The end of a generation (R276): G rises and the count starts again. -/
def Bar.next (x : Bar) : Bar := ⟨x.gen + 1, none, 0, .idle, []⟩

/-- The unit is a pod whose kernel has a join entry (R292): gangs of other packages are members too. -/
def joined (s : State) (u : BarUnit) : Bool :=
  match u with
  | .cohort _ => false | .gang _ => false | .die .. => false | .pkg _ => false
  | .pod k => ((s.kernels[k]?).map fun k => k.deps.any fun d => match d with
      | .join .. => true
      | .timeline .. => false | .edge .. => false).getD false

/-- The count of the generation's first arrival is an explicit one (R146). -/
def Bar.explicit (x : Bar) : Bool := match x.operand with
  | some n => n != 0
  | none => false
/-- In a joined pod the arrivals of other packages' gangs may meet the target (R292, log 52): under an explicit count they may be all
that it takes, and while no gang of this package has arrived the count is theirs; else every live gang of this package has arrived. -/
def othersMay (s : State) (b : BarRef) (x : Bar) : Bool :=
  joined s b.unit && (x.state == .idle || x.state == .counting)
    && (x.operand != some 0 || decide (liveMembers s b.unit ≤ arrivals s b.unit x.members))
/-- The most gangs that one package holds at once: 16 teams on a bench, and each gang has its team 0 on bench 0 of one of 128 cores (R13,
R261). -/
def gangsHeld : Nat := 2048
/-- Live gangs of other packages that are members of a unit (R292): of a joined pod a free number, as many as those packages can hold
(log 52). -/
def otherGangs (s : State) (u : BarUnit) : Nat :=
  match u with
  | .cohort _ => 0 | .gang _ => 0 | .die .. => 0 | .pkg _ => 0
  | .pod k =>
    let most := gangsHeld * (((s.kernels[k]?).map fun k => (k.deps.map fun d => match d with
      | .join packages _ => packages - 1
      | .timeline .. => 0 | .edge .. => 0).foldl max 0).getD 0)
    if most = 0 then 0 else min (Config.otherGangs s.tick) most

/-- A COUNTING instance whose target is met by the arrivals counted here becomes COMPLETE; at the cohort level it goes on at once (R276).
In a joined pod these meet an explicit count only: every live member is there more than this package's (R292). -/
def settleBar (s : State) (b : BarRef) : State :=
  match s.bar? b with
  | some x =>
    if x.state == .counting && (x.explicit || !joined s b.unit) && decide (x.target ≤ arrivals s b.unit x.members) then
      match b.unit with
      | .cohort _ => s.modBar b Bar.next
      | .gang _ => s.modBar b fun x => { x with state := .complete }
      | .die .. => s.modBar b fun x => { x with state := .complete }
      | .pkg _ => s.modBar b fun x => { x with state := .complete }
      | .pod _ => s.modBar b fun x => { x with state := .complete }
    else s
  | none => s

/-- The arrival of a team in generation `g` counts (R276). One that takes effect once its generation has ended, because it was posted
behind an access, counts in none: the model's reading (log 54). -/
def countArrival (s : State) (b : BarRef) (t : Nat) (g : W32) : State :=
  match s.bar? b with
  | some x =>
    if x.gen != g || x.state == .complete || x.state == .faulted then s
    else
      let n := match x.operand with
        | some n => if n = 0 then liveMembers s b.unit else n.toNat
        | none => liveMembers s b.unit
      settleBar (s.modBar b fun x =>
        { x with members := x.members ++ [t], target := if x.state == .idle then n else x.target, state := .counting }) b
  | none => s

/-- A unit has lost a live member (R276): the targets that stood for every live member are lowered. -/
def loseMember (s : State) (u : BarUnit) : State :=
  (List.finRange 16).foldl (fun s i =>
    let b : BarRef := ⟨u, i⟩
    match s.bar? b with
    | some x =>
      if x.state == .counting && x.operand == some 0 then settleBar (s.modBar b fun x => { x with target := x.target - 1 }) b
      else settleBar s b
    | none => s) s

/-! ## Ring counters (R145) -/

/-- Free slots suffice for a reservation of `k`. -/
def Ring.canRsv (r : Ring) (k : W32) : Bool := decide ((r.rsv - r.rel).toNat + k.toNat ≤ r.nslot.toNat)
/-- Committed slots suffice for a wait of `k`. -/
def Ring.canWait (r : Ring) (k : W32) : Bool := decide (k.toNat ≤ (r.cmt - r.cns).toNat)
/-- A commit of `k` keeps CMT at or below RSV. -/
def Ring.canCmt (r : Ring) (k : W32) : Bool := decide (k.toNat ≤ (r.rsv - r.cmt).toNat)
/-- A release of `k` keeps REL at or below CNS. -/
def Ring.canRel (r : Ring) (k : W32) : Bool := decide (k.toNat ≤ (r.cns - r.rel).toNat)

/-- A ring of a cohort, if it has been initialised. -/
def Cohort.ring (co : Cohort) (n : Nat) : Option Ring := (co.rings[n]?).bind id
/-- Changes an initialised ring. -/
def Cohort.modRing (co : Cohort) (n : Nat) (f : Ring → Ring) : Cohort := { co with rings := modAt (Option.map f) co.rings n }

/-- Grants the waiting requests of one kind on one ring in order of arrival, as far as the counters allow. -/
def grantKind (n : Nat) (wait : Bool) : List RingReq → Ring → List RingReq × Ring
  | [], r => ([], r)
  | q :: qs, r =>
    if q.ring = n && q.wait == wait && q.granted.isNone then
      if wait then
        (if r.canWait q.k then
          let x := grantKind n wait qs { r with cns := r.cns + q.k }
          ({ q with granted := some r.cns } :: x.1, x.2)
        else (q :: qs, r))
      else
        (if r.canRsv q.k then
          let x := grantKind n wait qs { r with rsv := r.rsv + q.k }
          ({ q with granted := some r.rsv } :: x.1, x.2)
        else (q :: qs, r))
    else
      let x := grantKind n wait qs r
      (q :: x.1, x.2)

/-- Grants whatever the counters of a ring now allow. -/
def Cohort.grant (co : Cohort) (n : Nat) : Cohort :=
  match co.ring n with
  | some r =>
    let a := grantKind n false co.ringq r
    let b := grantKind n true a.1 a.2
    { co with ringq := b.1 }.modRing n fun _ => b.2
  | none => co

/-- A commit of `k` to a ring, as `cmt` makes and checks it (R139, R145). -/
def Cohort.commit (co : Cohort) (n : Nat) (k : W32) : Option Cohort :=
  (co.ring n).bind fun r => if r.canCmt k then some ((co.modRing n fun r => { r with cmt := r.cmt + k }).grant n) else none
/-- A release of `k` slots of a ring (R145). -/
def Cohort.release (co : Cohort) (n : Nat) (k : W32) : Option Cohort :=
  (co.ring n).bind fun r => if r.canRel k then some ((co.modRing n fun r => { r with rel := r.rel + k }).grant n) else none

/-! ## Posted updates without their checks' faults (R145, R146, R309) -/

/-- Applies one update of a team; `fail` is what becomes of an update that its ring does not allow. -/
def actPost (s : State) (t : Nat) (p : Post) (fail : State) : State :=
  let ring (f : Cohort → Option Cohort) : State :=
    match (s.teams[t]?).bind fun tm => (s.cohorts[tm.cohort]?).map fun co => (tm.cohort, f co) with
    | some (c, some co) => s.modCohort c fun _ => co
    | some (_, none) => fail
    | none => s
  match p.act with
  | .cmt r k => ring fun co => co.commit r k
  | .rel r k => ring fun co => co.release r k
  | .arrive b g => countArrival s b t g

/-- The updates that a stopped team has posted take effect: nothing is left that they waited for, and an update that its ring does
not allow raises nothing, since the team is stopped (R307, R309). -/
def settlePosts (s : State) (t : Nat) : State :=
  match s.teams[t]? with
  | some tm => tm.posts.foldl (fun s p => actPost s t p s) (s.modTeam t fun tm => { tm with posts := [] })
  | none => s

end Sys2Proof.Machine
end

