-- ==== Sys2Proof/Machine/Writes.lean ====
section
/-! DEFINITION. Writes performed at home (spec/08_memory_model.md R170), with what they set off: the records whose fields take a write
as their access says (spec/18_queue_lifecycle.md R294, spec/20_context_lifecycle.md R318), invalidations of importers' copies
(spec/22_page_lifecycle.md R342), and the TAIL writes of queues (spec/18_queue_lifecycle.md R295). -/
namespace Sys2Proof.Machine

/-- The physical address of a field of a queue's state record (R294), where it is mapped. -/
def queueField (s : State) (q : Queue) (off : Nat) : Option Nat :=
  (s.ctx? q.ctx).bind fun c => devXlat s c.ptroot.toNat (q.addr + BitVec.ofNat 64 off)

/-- The offset of a byte in a queue's state record (R294). -/
def queueOff (s : State) (q : Queue) (pa : Nat) : Option Nat :=
  (queueField s q 0).bind fun b => if b ≤ pa && pa < b + 128 then some (pa - b) else none
/-- Reserved bytes of a state record, which read as zero (R5, R294). -/
def queueReserved (o : Nat) : Bool := (decide (0x3D ≤ o) && decide (o < 0x40)) || decide (0x60 ≤ o)

/-- A write that reaches a record of 128 bytes at an address is ignored in its reserved bytes, and outside `bits` of the byte at
offset `o` (R5). -/
def ignoreReserved (b : Nat) (reserved : Nat → Bool) (o : Nat) (bits : Byte) (ws : List (Nat × Byte)) : List (Nat × Byte) :=
  (ws.filter fun p => !(decide (b ≤ p.1) && decide (p.1 < b + 128) && reserved (p.1 - b))).map fun p =>
    if p.1 = b + o then (p.1, p.2 &&& bits) else p
/-- A write that reaches reserved fields of a queue's state record is ignored there (R294): the reserved bytes, and QPRIO[7:3]. -/
def reservedWrite (s : State) (q : Queue) (ws : List (Nat × Byte)) : List (Nat × Byte) :=
  match queueField s q 0 with
  | none => ws
  | some b => ignoreReserved b queueReserved 0x3C 7 ws
/-- Reserved bytes of a context record, which read as zero (R5, R318). -/
def ctxReserved (o : Nat) : Bool := (decide (0x44 ≤ o) && decide (o < 0x48)) || decide (0x60 ≤ o)
/-- A write that reaches reserved fields of a context record is ignored there (R5, R318): the reserved bytes, and ASV[7:1]. -/
def ctxWrite (c : Ctx) (ws : List (Nat × Byte)) : List (Nat × Byte) :=
  if c.state = .destroyed then ws else ignoreReserved c.recAt ctxReserved 7 1 ws

/-- A write that reaches QFLAGS of a state record (R294): HALT and EN are read-only, OVR and GAP are cleared by a one, and
clearing GAP clears GAPFIRST and GAPCNT. -/
def qflagsWrite (s : State) (q : Queue) (ws : List (Nat × Byte)) : List (Nat × Byte) :=
  match queueField s q 0x0C with
  | none => ws
  | some pa =>
    match ws.find? fun p => p.1 = pa with
    | none => ws.filter fun p => !(decide (pa < p.1) && decide (p.1 < pa + 4))
    | some (_, b) =>
      let old := (sget s.mem pa).toNat
      let new := old - (if pteBit old 1 && pteBit b.toNat 1 then 2 else 0) - (if pteBit old 2 && pteBit b.toNat 2 then 4 else 0)
      let rest := ws.filter fun p => !(decide (pa ≤ p.1) && decide (p.1 < pa + 4))
      let gap := if pteBit b.toNat 1 then atAddrs (pa + 0x44) (bytesOf 12 0) else []
      rest ++ [(pa, BitVec.ofNat 8 new)] ++ gap

/-- The bytes that a write leaves at home: state records of queues and context records take it as their fields say (R294, R318). -/
def recordWrite (s : State) (ws : List (Nat × Byte)) : List (Nat × Byte) :=
  s.queues.foldl (fun ws q => qflagsWrite s q (reservedWrite s q ws)) (s.ctxs.foldl (fun ws c => ctxWrite c ws) ws)

/-- The queues whose TAIL field a write touches (R295). -/
def tailed (s : State) (ws : List (Nat × Byte)) : List Queue :=
  s.queues.filter fun q => match queueField s q 0x10 with
    | none => false
    | some pa => ws.any fun p => decide (pa ≤ p.1) && decide (p.1 < pa + 8)
/-- The TAIL write of a queue that a write at home has performed (R295), with the value left. -/
def tailEvent (s : State) (q : Queue) : Happening :=
  .tail q.ctx q.num (BitVec.ofNat 64 (((queueField s q 0x10).map fun pa => readNat s.mem pa 8).getD 0))
/-- A TAIL write that a write at home has performed. -/
def Happening.isTail : Happening → Bool
  | .tail .. => true
  | _ => false
/-- The TAIL writes that a write at home performs come before everything that is still to happen, behind those of earlier writes at home
(R295, R298). -/
def noteTails (s : State) (ws : List (Nat × Byte)) : State :=
  match tailed s ws with
  | [] => s
  | qs => { s with agenda := s.agenda.takeWhile Happening.isTail ++ qs.map (tailEvent s) ++ s.agenda.dropWhile Happening.isTail }

/-- The context whose FHEAD a requester has written at home (R318) takes the value left. -/
def noteHeads (s : State) (ws : List (Nat × Byte)) : State :=
  let at_ (c : Ctx) : Bool := c.state != .destroyed && ws.any fun p => decide (c.recAt + 0x50 ≤ p.1) && decide (p.1 < c.recAt + 0x58)
  if s.ctxs.any at_ then
    { s with ctxs := s.ctxs.map fun c =>
        if at_ c then
          { c with fhead := BitVec.ofNat 64 (readNat s.mem (c.recAt + 0x50) 8) }
        else c }
  else s

/-- The invalidations that a write to exported pages sends to the dies that hold copies, all but `skip` (R184, R342). -/
def invalidations (s : State) (pages : List Nat) (skip : Option Nat) : List SpanPkt :=
  s.directory.flatMap fun d =>
    if pages.contains d.page then
      if d.ovf then [.invalidateAll d.page skip]
      else (d.dies.filter fun x => some x != skip).map fun x => .invalidate x d.page
    else []

/-- The directory after those invalidations: the dies that they go to owe an acknowledgement. OVF stays while a die may hold a
copy (R342). -/
def directoryAfter (ds : List DirEntry) (pages : List Nat) (skip : Option Nat) : List DirEntry :=
  ds.map fun d =>
    if pages.contains d.page then
      { d with dies := d.dies.filter fun x => some x == skip
               ovf := d.ovf && skip.isSome
               owed := (d.owed ++ if d.ovf then [] else d.dies.filter fun x => some x != skip).eraseDups
               all := d.all || d.ovf }
    else d

/-- Bytes written at home under a key (R170), and the invalidations of importers' copies that the write sends (R184). `skip` is
the importing die whose forwarded write this is. -/
def homeWriteExp (skip : Option Nat) (s : State) (key : Nat) (ws : List (Nat × Byte)) : State :=
  let pages := (ws.map fun p => p.1 / 65536).eraseDups
  let s1 := homeWriteRaw s key ws
  { s1 with spanOut := s1.spanOut ++ invalidations s1 pages skip
            directory := directoryAfter s1.directory pages skip }

/-- Bytes written at home under a key by software (R170), with what the write sets off: wake flags (R133), allocation in the memory-side
cache (R339), invalidations of importers' copies (R184), a queue's TAIL and QFLAGS (R294, R295) and a context's FHEAD (R318). -/
def homeWriteFrom (skip : Option Nat) (s : State) (key : Nat) (ws : List (Nat × Byte)) : State :=
  let ws := recordWrite s ws
  let s1 := homeWriteExp skip s key ws
  noteHeads (noteTails (((ws.map fun p => lineOf p.1).eraseDups).foldl mscPut s1) ws) ws

/-- Bytes written at home by this package (R170). -/
def homeWrite (s : State) (key : Nat) (ws : List (Nat × Byte)) : State := homeWriteFrom none s key ws

end Sys2Proof.Machine
end

