-- ==== Sys2Proof/Machine/Coherence.lean ====
section
/-! DEFINITION. L1 caches, releaser tags, clearings and self-invalidation (spec/08_memory_model.md R172 to R176), imported
lines and the requests they cause (R184, R185, spec/24_link_lifecycle.md R348, R349, R352). -/
namespace Sys2Proof.Machine

/-! ## Lines -/

/-- The bytes of a physical line as they stand at home. -/
def lineData (m : Sparse 8) (line : Nat) : Sparse 8 :=
  m.filterMap fun p => if p.1 / 128 = line then some (p.1 % 128, p.2) else none
/-- A byte of an association list of offsets. -/
def dirtyAt (d : List (Nat × Byte)) (o : Nat) : Option Byte := (d.find? fun p => p.1 = o).map (·.2)
/-- Sets a byte of an association list, kept in ascending order of offset. -/
def dirtySet (d : List (Nat × Byte)) (o : Nat) (b : Byte) : List (Nat × Byte) :=
  (d.filter fun p => decide (p.1 < o)) ++ (o, b) :: d.filter fun p => decide (o < p.1)
/-- The line that a core's L1 holds. -/
def l1Find (c : Core) (line : Nat) : Option L1Line := c.l1.find? fun x => x.line = line
/-- Puts a line into a core's L1, in place of the copy it holds (R332). -/
def l1Put (c : Core) (x : L1Line) : Core := { c with l1 := x :: c.l1.filter fun y => y.line != x.line }
/-- A line that holds nothing. -/
def L1Line.useless (x : L1Line) : Bool := x.clean.isNone && x.dirty.isEmpty

/-- The context that holds an ASID (R320). -/
def State.ctxOfAsid (s : State) (asid : Nat) : Option Ctx := s.ctxs.find? fun c => c.asid = some asid
/-- The key index under which an ASID writes (R322). -/
def keyOfAsid (s : State) (asid : Nat) : Nat := ((s.ctxOfAsid asid).map fun c => c.keyidx).getD 0
/-- The physical line is in the fabric aperture: an imported line. -/
def importedLine (line : Nat) : Bool := inAperture (line * 128)

/-! ## Wake flags of a core (R133) -/

/-- The core that a team runs on. -/
def coreOfTeam (s : State) (tm : Team) : Option Nat :=
  (s.cohorts[tm.cohort]?).bind fun co => (s.gangs[co.gang]?).bind fun ga => ga.cores[co.k]?
/-- The invalidation of lines in a core's L1 sets the wake flag of its teams that monitor one of them (R133). -/
def wakeCore (s : State) (core : Nat) (lines : List Nat) : State :=
  if lines.isEmpty then s else
  { s with teams := s.teams.map fun tm =>
      match tm.monitor with
      | some l => if lines.contains l && coreOfTeam s tm == some core then { tm with wake := true } else tm
      | none => tm }

/-! ## Fabric requests -/

/-- The Span ports that are UP, ascending (R348). -/
def upPorts (s : State) : List Nat := (s.spanPorts.zipIdx.filter fun p => p.1.state == .up).map (·.2)
/-- The port of a request to a physical address: the k-th UP port for k = PA[18:7] mod U (R348); 16 where none is UP. -/
def portFor (s : State) (pa : Nat) : Nat :=
  let u := upPorts s
  if u.isEmpty then 16 else u.getD (pa / 128 % 2 ^ 12 % u.length) 16

/-- Sends a request for an aperture address (R348, R349, R352): the deadline is the issue time plus RTMO. `key` is the key index
of its context, `elem` the bytes of the element that it changes at the exporter's home. -/
def sendReq (s : State) (owner : ReqOwner) (core key pa : Nat) (va : W64) (lanes : Mask) (fill sync : Bool) (elem : Nat)
    (op : FabricOp) : State × Nat :=
  let tag := s.nextTag.toNat
  let port := portFor s pa
  let deadline := s.podTime + BitVec.ofNat 64 (s.cfg.rtmo * 1000)
  let e := ((s.egress.find? fun p => p.1 = pa / 2 ^ 29 % 2 ^ 12).map (·.2)).getD ⟨false, 0, 0, 0⟩
  let r : SpanReq := ⟨op, Fin.ofNat 16 port, Config.moduleNo, Fin.ofNat 4 (dieOf core), sync, e.index, BitVec.ofNat 29 (pa % 2 ^ 29),
    e.key, s.nextTag, deadline⟩
  let fwd := match op with
    | .write bs => bs.length
    | _ => 0
  ({ s with nextTag := s.nextTag + 1
            reqs := s.reqs ++ [⟨tag, port, owner, core, key, pa, va, lanes, fill, fwd, elem, deadline⟩]
            spanOut := if port = 16 then s.spanOut else s.spanOut ++ [.request e.target port r] }, tag)

/-- The copy of an imported line that a die holds (R184). -/
def dieFind (s : State) (die line : Nat) : Option DieCopy := s.dieCopies.find? fun c => c.die = die && c.line = line
/-- Replaces a die's copy of a line; a copy that holds nothing is dropped. -/
def diePut (s : State) (c : DieCopy) : State :=
  let r := s.dieCopies.filter fun x => !(x.die = c.die && x.line = c.line)
  { s with dieCopies := if c.full.isNone && c.written.isEmpty then r else c :: r }
/-- A byte of a die's copy. -/
def DieCopy.byte (c : DieCopy) (o : Nat) : Option Byte :=
  match dirtyAt c.written o with
  | some b => some b
  | none => c.full.map fun d => sget d o

/-- Consecutive offsets written, as runs of bytes. -/
def runsOf : List (Nat × Byte) → List (Nat × List Byte)
  | [] => []
  | (o, b) :: r =>
    match runsOf r with
    | (o', bs) :: rs => if o' = o + 1 then (o, b :: bs) :: rs else (o, [b]) :: (o', bs) :: rs
    | [] => [(o, [b])]

/-- The author of a byte of a line. -/
def authorAt (who : List (Nat × Author)) (o : Nat) : Option Author := (who.find? fun p => p.1 = o).map (·.2)
/-- The lanes that wrote some of the bytes. -/
def authorLanes (who : List (Nat × Author)) (os : List Nat) : Mask :=
  os.foldl (fun m o => m ||| ((authorAt who o).map (·.lanes)).getD 0) 0
/-- The address of the first of the bytes that the lowest lane wrote (R365). -/
def lowestVa (who : List (Nat × Author)) (os : List Nat) : W64 :=
  let low := (lanesOf (authorLanes who os)).head?.getD 0
  (((os.filterMap (authorAt who)).find? fun a => a.lanes.getLsbD low).map (·.va)).getD 0

/-- Answers to the open requests that read lines of a die's copies which a condition picks install no copy of them: they may be older
than what is known of the line by now (R170, R185). -/
def closeFills (s : State) (die : Nat) (p : Nat → Bool) : State :=
  { s with reqs := s.reqs.map fun r => if r.fill && dieOf r.core = die && p (lineOf r.pa) then { r with fill := false } else r }

/-- A write to an imported line (R184): performed in the die's copy, and forwarded to the exporter, each run of bytes in a request
of its own with the lanes that wrote it (R365). A read of the line that is open then may be answered without the write (R170). -/
def dieWrite (s : State) (owner : ReqOwner) (core key line : Nat) (who : List (Nat × Author)) (sync : Bool) (ws : List (Nat × Byte)) :
    State × List Nat :=
  let die := dieOf core
  let c := (dieFind s die line).getD ⟨die, line, key, none, [], 0⟩
  let runs := runsOf ws
  let s1 := closeFills (diePut s { c with written := ws.foldl (fun d p => dirtySet d p.1 p.2) c.written, unsent := c.unsent + runs.length })
    die fun l => l == line
  runs.foldl (fun (st : State × List Nat) r =>
    let os := (List.range r.2.length).map (r.1 + ·)
    let q := sendReq st.1 owner core key (line * 128 + r.1) (lowestVa who os) (authorLanes who os) false sync 0 (.write r.2)
    (q.1, st.2 ++ [q.2])) (s1, [])

/-! ## Write-back, clearing, self-invalidation -/

/-- Bytes of memory as a write of `ws` at home has left them (R4, R5): those that it writes, and those that it changes by what its
record's fields say (R294, R318). `s` is the state before the write and `s1` that after it. -/
def asHome (s s1 : State) (ws : List (Nat × Byte)) : List (Nat × Byte) :=
  (((ws ++ recordWrite s ws).map (·.1)).eraseDups).map fun a => (a, sget s1.mem a)
/-- The line after those of its dirty bytes that a condition on their offset picks have been written back; `left` is what they have
left below it. -/
def L1Line.cleaned (x : L1Line) (p : Nat → Bool) (left : List (Nat × Byte)) : L1Line :=
  { x with clean := x.clean.map fun d => ssetAll d left
           dirty := x.dirty.filter fun q => !p q.1
           who := x.who.filter fun q => !p q.1 }

/-- The stores that left the dirty bytes of a line: team, tick and PC. -/
def storesOf (who : List (Nat × Author)) : List (Nat × Nat × W64) := (who.map fun p => (p.2.team, p.2.tick, p.2.pc)).eraseDups

/-- Forwards dirty bytes of an imported line through the die's copy (R184), those of each store in requests of their own. -/
def forwardLine (s : State) (core : Nat) (x : L1Line) (ws : List (Nat × Byte)) : State :=
  let who := x.who.filter fun p => ws.any fun q => q.1 = p.1
  (storesOf who).foldl (fun s k =>
    let mine := who.filter fun p => (p.2.team, p.2.tick, p.2.pc) = k
    (dieWrite s (.forward k.1 k.2.1 k.2.2) core (keyOfAsid s x.asid) x.line mine false
      (ws.filter fun p => mine.any fun q => q.1 = p.1)).1) s

/-- Writes those of a line's dirty bytes that a condition on their offset picks to their home (R170, R174), or through the die's
copy to the exporter (R184). What L1 keeps of them is what their home has taken (R4, R5). -/
def writeBackPart (s : State) (core : Nat) (x : L1Line) (p : Nat → Bool) : State :=
  match x.dirty.filter fun q => p q.1 with
  | [] => s
  | ws =>
    let s1 :=
      if importedLine x.line then forwardLine s core x ws
      else homeWrite s (keyOfAsid s x.asid) (ws.map fun p => (x.line * 128 + p.1, p.2))
    s1.modCore core fun c =>
      let y := x.cleaned p (if importedLine x.line then ws else ws.map fun q => (q.1, sget s1.mem (x.line * 128 + q.1)))
      if y.useless then { c with l1 := c.l1.filter fun z => z.line != x.line } else l1Put c y
/-- Writes all dirty bytes of a line to their home. -/
def writeBackLine (s : State) (core : Nat) (x : L1Line) : State := writeBackPart s core x fun _ => true

/-- Writes back the dirty bytes of the lines of a core that a condition picks. -/
def writeBackWhere (s : State) (core : Nat) (p : L1Line → Bool) : State :=
  match s.cores[core]? with
  | some c => (sortBy (fun a b => decide (a.line ≤ b.line)) (c.l1.filter fun x => p x && !x.dirty.isEmpty)).foldl
      (fun s x => writeBackLine s core x) s
  | none => s

/-- Writes back, of the lines of a core that a condition picks, the dirty bytes whose physical address another one picks (R181). -/
def writeBackBytes (s : State) (core : Nat) (p : L1Line → Bool) (b : Nat → Bool) : State :=
  match s.cores[core]? with
  | some c => (sortBy (fun a b => decide (a.line ≤ b.line)) (c.l1.filter fun x => p x && !x.dirty.isEmpty)).foldl
      (fun s x => writeBackPart s core x fun o => b (x.line * 128 + o)) s
  | none => s

/-- A clearing of a core for an ASID (R174). It confirms once its writes to exporters have been sent and the die's copy holds them: the
model's reading (log 118). -/
def clearCore (s : State) (core asid : Nat) : State := writeBackWhere s core fun x => x.asid == asid

/-- Discards the clean bytes of the lines of a core that a condition picks; dirty bytes stay (R175). -/
def dropClean (s : State) (core : Nat) (p : L1Line → Bool) : State :=
  match s.cores[core]? with
  | some c =>
    let gone := (c.l1.filter fun x => p x && x.clean.isSome).map (·.line)
    let s1 := s.modCore core fun c =>
      { c with l1 := (c.l1.map fun x => if p x then { x with clean := none } else x).filter fun x => !x.useless }
    wakeCore s1 core gone
  | none => s

/-- Self-invalidation of a core for an ASID (R175): pages with P = 1 are exempt. -/
def selfInvalidate (s : State) (core asid : Nat) : State := dropClean s core fun x => x.asid == asid && !x.priv

/-- Discards, without write-back, everything that a condition picks in a core's L1 (R323). -/
def dropLines (s : State) (core : Nat) (p : L1Line → Bool) : State :=
  match s.cores[core]? with
  | some c =>
    let gone := (c.l1.filter p).map (·.line)
    wakeCore (s.modCore core fun c => { c with l1 := c.l1.filter fun x => !p x }) core gone
  | none => s

/-! ## Fills and L1 accesses -/

/-- The bytes that fill a line: at home, or from the die's copy; none where an imported line is not there yet. -/
def fillData (s : State) (core line : Nat) : Option (Sparse 8) :=
  if importedLine line then
    (dieFind s (dieOf core) line).bind fun c => c.full.map fun d => ssetAll d c.written
  else some (lineData s.mem line)

/-- Makes a line's clean bytes present in a core's L1, where they can be had (R175, R332: an existing copy is retagged). -/
def fillLine (s : State) (core asid : Nat) (priv : Bool) (line : Nat) : State :=
  match (s.cores[core]?).bind fun c => l1Find c line with
  | some x =>
    if x.clean.isSome then
      (if x.asid = asid && x.priv == priv then s else s.modCore core fun c => l1Put c { x with asid := asid, priv := priv })
    else
      match fillData s core line with
      | some d => s.modCore core fun c => l1Put c { x with asid := asid, priv := priv, clean := some d }
      | none => s
  | none =>
    match fillData s core line with
    | some d => s.modCore core fun c => l1Put c ⟨line, asid, priv, some d, [], []⟩
    | none => s

/-- A byte that a core's L1 holds. -/
def l1Byte (s : State) (core line o : Nat) : Option Byte :=
  ((s.cores[core]?).bind fun c => l1Find c line).bind fun x =>
    match dirtyAt x.dirty o with
    | some b => some b
    | none => x.clean.map fun d => sget d o

/-- A byte as a core finds it below its L1: at home, or in its die's copy. -/
def homeByte (s : State) (core pa : Nat) : Option Byte :=
  if inAperture pa then (dieFind s (dieOf core) (lineOf pa)).bind fun c => c.byte (pa % 128) else some (sget s.mem pa)

/-- A dirty byte of a core's L1 over what lies below it (R170: a core reads its own write). -/
def ownByte (s : State) (core pa : Nat) : Option Byte :=
  match ((s.cores[core]?).bind fun c => l1Find c (lineOf pa)).bind fun x => dirtyAt x.dirty (pa % 128) with
  | some b => some b
  | none => homeByte s core pa

/-- Stores bytes of one line into a core's L1, where they become dirty (R123), with their authors on an imported line. A byte that its
record takes otherwise (R4, R5: a reserved byte, a field that is read-only or cleared by a one) reads as stored until it has been written
back: the model's choice (log 123). -/
def l1Store (s : State) (core asid : Nat) (priv : Bool) (line : Nat) (ws : List (Nat × Byte)) (who : List (Nat × Author)) : State :=
  s.modCore core fun c =>
    let x := (l1Find c line).getD ⟨line, asid, priv, none, [], []⟩
    l1Put c { x with asid := asid, priv := priv, dirty := ws.foldl (fun d p => dirtySet d p.1 p.2) x.dirty
                     who := who ++ x.who.filter fun p => !(ws.any fun q => q.1 = p.1) }

/-- Updates the copy that a core's L1 holds of bytes written at home (R172, R332). -/
def l1Update (s : State) (core : Nat) (ws : List (Nat × Byte)) : State :=
  ws.foldl (fun s p =>
    match (s.cores[core]?).bind fun c => l1Find c (lineOf p.1) with
    | some x =>
      if x.clean.isNone && (dirtyAt x.dirty (p.1 % 128)).isNone then s
      else s.modCore core fun c => l1Put c
        { x with clean := x.clean.map fun d => sset d (p.1 % 128) p.2
                 dirty := x.dirty.filter fun q => q.1 != p.1 % 128
                 who := x.who.filter fun q => q.1 != p.1 % 128 }
    | none => s) s

/-- Updates only the clean copy that a core's L1 holds, with bytes as they stand at home (R170, R178). -/
def l1Clean (s : State) (core : Nat) (ws : List (Nat × Byte)) : State :=
  ws.foldl (fun s p =>
    match (s.cores[core]?).bind fun c => l1Find c (lineOf p.1) with
    | some x => s.modCore core fun c => l1Put c { x with clean := x.clean.map fun d => sset d (p.1 % 128) p.2 }
    | none => s) s
/-- The clean copies that a core's L1 holds of bytes which it has read at home, or in its die's copy, are no older than what it has read
(R170). -/
def l1Refresh (s : State) (core : Nat) (pas : List Nat) : State :=
  l1Clean s core (pas.filterMap fun pa => (homeByte s core pa).map fun b => (pa, b))

/-! ## Scopes and tags (R171 to R173) -/

/-- Core `b` lies in the unit of scope `sc` that holds core `a` (R171). -/
def inUnit (sc : Scope) (a b : Nat) : Bool :=
  match sc with
  | .core => a == b | .quad => a / 4 == b / 4 | .die => a / 32 == b / 32 | .pkg => true | .pod => true
/-- A release at scope `sa` and an acquire by core `b` at scope `sb` match (R171); a releaser outside the package matches only
POD scope. -/
def scopesMatch (a : Releaser) (sa : Scope) (b : Nat) (sb : Scope) : Bool :=
  match a with
  | .core a => inUnit sa a b && inUnit sb b a
  | .link _ => sa == .pod && sb == .pod

/-- The tag of a home line. -/
def tagOf (s : State) (line : Nat) : Option Tag := s.tags.find? fun t => t.line = line
/-- Sets the tag of a line. -/
def setTag (s : State) (t : Tag) : State := { s with tags := t :: s.tags.filter fun x => x.line != t.line }

/-- Clears the core that a tag names, if it is another core and has not been cleared, and marks the tag (R172 to R174). A release
from outside the package needs no clearing (R190). -/
def clearTag (s : State) (t : Tag) (core : Option Nat) : State :=
  match t.by_ with
  | .core a => if t.cleared || some a == core then s else setTag (clearCore s a t.asid) { t with cleared := true }
  | .link _ => s

/-- The release of bytes of one local line at QUAD scope or above, steps 2 to 4 of R172. -/
def releaseLine (s : State) (core asid : Nat) (sc : Scope) (line : Nat) (ws : List (Nat × Byte)) : State :=
  let s1 := match tagOf s line with
    | some t => clearTag s t (some core)
    | none => s
  let s2 := homeWrite s1 (keyOfAsid s1 asid) ws
  setTag (l1Update s2 core (asHome s1 s2 ws)) ⟨line, .core core, asid, sc, false⟩

/-- The acquire of one local line by a core at QUAD scope or above (R173, R190); the number says whether it caused a clearing. -/
def acquireLine (s : State) (core asid : Nat) (sc : Scope) (line : Nat) : State × Nat :=
  match tagOf s line with
  | none => (selfInvalidate s core asid, 0)
  | some t =>
    if t.by_ = .core core then (s, 0)
    else if scopesMatch t.by_ t.scope core sc && !t.cleared then
      match t.by_ with
      | .core a => (selfInvalidate (setTag (clearCore s a t.asid) { t with cleared := true }) core asid, 1)
      | .link _ => (selfInvalidate (setTag s { t with cleared := true }) core asid, 0)
    else (selfInvalidate s core asid, 0)

/-- A release matches an acquire at PKG scope by a core, or by the device itself, which stands beside every core (R171, log 103). -/
def matchesPkg (t : Tag) : Option Nat → Bool
  | some core => scopesMatch t.by_ t.scope core .pkg
  | none => match t.by_ with
    | .core _ => t.scope == .pkg || t.scope == .pod
    | .link _ => false
/-- The acquire at PKG scope of one entry that a table walk for a core, or for the device itself, reads at home (R173, R327): a matching
uncleared tag of the entry's line is cleared. The walk self-invalidates nothing, since it acquires the entry alone (log 103). The read
counts in the memory-side cache (R339). -/
def acquireEntry (s : State) (core : Option Nat) (pa : Nat) : State :=
  let s1 := match tagOf s (lineOf pa) with
    | some t => if matchesPkg t core then clearTag s t core else s
    | none => s
  mscRead s1 (lineOf pa)
/-- The acquires of the entries that a walk reads, each before the walk reads it (R327). -/
def walkClear (s : State) (core : Option Nat) (root : Nat) (va : W64) : State :=
  let a := va.toNat
  let h0 := root + 8 * (a / 2 ^ 42 % 2 ^ 13)
  let s0 := acquireEntry s core h0
  let e0 := readNat s0.mem h0 8
  if !(pteBit e0 0 && nodeOk s0 e0) then s0
  else
    let h1 := ptePage e0 + 8 * (a / 2 ^ 29 % 2 ^ 13)
    let s1 := acquireEntry s0 core h1
    let e1 := readNat s1.mem h1 8
    if !(pteBit e1 0 && !pteBit e1 4 && nodeOk s1 e1) then s1
    else acquireEntry s1 core (ptePage e1 + 8 * (a / 2 ^ 16 % 2 ^ 13))

/-- A walk for a core, or for the device itself, which acquires the entries that it reads (R327). The state stands with a fault too. -/
def walkFor (s : State) (core : Option Nat) (root : Nat) (va : W64) : State × Except WalkFault Leaf :=
  let s1 := walkClear s core root va
  (s1, walk s1 root va)

/-- Addresses in a range of `n` bytes, one in each of its blocks of `size` bytes. -/
def blockAddrs (size : Nat) (va : W64) (n : Nat) : List W64 :=
  (List.range ((va.toNat % size + n + size - 1) / size)).map fun i =>
    if i = 0 then va else BitVec.ofNat 64 ((va.toNat / size + i) * size)
/-- The device translates a range of a context's addresses: the walk of each page acquires the entries that it reads (R327). -/
def devWalk (s : State) (root : Nat) (va : W64) (n : Nat) : State :=
  (blockAddrs 65536 va n).foldl (fun s a => if ordinary a then walkClear s none root a else s) s
/-- The device comes to read a range of a context's addresses (log 11): the walks of its pages, and the reads of its lines, which count
in the memory-side cache (R339). -/
def devSee (s : State) (root : Nat) (va : W64) (n : Nat) : State :=
  (blockAddrs 128 va n).foldl (fun s a => match devXlat s root a with
    | some pa => mscRead s (lineOf pa)
    | none => s) (devWalk s root va n)

/-- Translation for a core of an ordinary virtual address (R327 to R331): where its quad's TLB has no leaf of the page, a walk,
which acquires the entries that it reads. The state stands with a fault too. -/
def xlateFor (s : State) (core asid root : Nat) (va : W64) (n : Need) : State × Except WalkFault Xlat :=
  let quad := quadOf core
  let s1 := if (tlbFind (s.tlbs.getD quad []) asid (vpage va)).isSome then s else walkClear s (some core) root va
  match translate s1 quad asid root va n with
  | .ok (s2, x) => (s2, .ok x)
  | .error f => (s1, .error f)

/-- The die's clean copies of imported lines that a condition picks are discarded, and answers to requests sent before install no
copy of them; what the die has written and its exporter has not confirmed is kept (R185). -/
def dieDrop (s : State) (die : Nat) (p : Nat → Bool) : State :=
  closeFills { s with
    dieCopies := (s.dieCopies.map fun c => if c.die = die && p c.line then { c with full := none } else c).filter
      fun c => !(c.full.isNone && c.written.isEmpty) } die p

/-- The imported pages of which a die holds a copy, or has asked for one. -/
def diePages (s : State) (die : Nat) : List Nat :=
  let held := (s.dieCopies.filter fun c => c.die = die).map fun (c : DieCopy) => c.line / 512
  let asked := (s.reqs.filter fun r => r.fill && dieOf r.core = die).map fun (r : Req) => lineOf r.pa / 512
  (held ++ asked).eraseDups
/-- The acquire of a page at POD scope (R185): the die's clean copies of the page are discarded, and the core self-invalidates. -/
def acquirePage (s : State) (core asid page : Nat) : State :=
  selfInvalidate (dieDrop s (dieOf core) fun l => l / 512 == page) core asid

/-- The imported lines of a core with dirty bytes of an ASID, written back through the die (R185, step 1). -/
def podWriteBack (s : State) (core asid : Nat) : State :=
  writeBackWhere s core fun x => x.asid == asid && importedLine x.line

/-- A clearing before a home slice evicts a tagged line (R176); the line's monitors wake (R133). -/
def evictHomeLine (s : State) (line : Nat) : State :=
  match tagOf s line with
  | some t => wakeLines { (clearTag s t none) with tags := (clearTag s t none).tags.filter fun x => x.line != line } [line]
  | none => wakeLines s [line]

/-- The eviction of a line from a core's L1: its dirty bytes are written back, then it is dropped (R170). -/
def evictL1Line (s : State) (core line : Nat) : State :=
  dropLines (writeBackWhere s core fun x => x.line == line) core fun x => x.line == line

end Sys2Proof.Machine
end

