-- ==== Sys2Proof/Machine/Ops.lean ====
section
/-! DEFINITION. The shared operations of the machine: writes of the device, fault records, taking
a fault or a trap and returning from one (spec/19_traps_and_regions.md), the claims of registers that wait for a value
(spec/07_issue_and_deferring.md), and how an instruction ends. -/
namespace Sys2Proof.Machine

/-! ## Writes by the device -/

/-- Bytes written by the device at a context's virtual address (log 11), which its walk translates (R327); nothing where the page is not
mapped. -/
def devWrite (s : State) (c : Ctx) (va : W64) (bs : List Byte) : State :=
  let s1 := devWalk s c.ptroot.toNat va bs.length
  match devXlat s1 c.ptroot.toNat va with
  | some pa => homeWriteExp none s1 c.keyidx (atAddrs pa bs)
  | none => s1

/-! ## Context records (R318) -/

/-- The code of STATE. -/
def CState.code : CState → Nat
  | .created => 0 | .active => 1 | .switched => 2 | .aborted => 3 | .destroyed => 4

/-- The 128 bytes of a context record (R318). -/
def Ctx.record (c : Ctx) : List Byte :=
  bytesOf 2 c.id ++ bytesOf 1 c.state.code ++ [c.acode] ++ bytesOf 2 c.keyidx ++ bytesOf 1 (c.asid.getD 0)
    ++ bytesOf 1 c.asid.isSome.toNat ++ bytesOf 8 c.ptroot.toNat ++ bytesOf 8 c.budgetAt.toNat ++ bytesOf 8 c.qtable.toNat
    ++ bytesOf 8 c.savebase.toNat ++ bytesOf 8 c.savesize ++ bytesOf 8 c.saveused ++ bytesOf 8 c.fbase.toNat ++ bytesOf 4 c.fsize
    ++ bytesOf 4 0 ++ bytesOf 8 c.ftail.toNat ++ bytesOf 8 c.fhead.toNat ++ bytesOf 8 c.lastrun.toNat ++ bytesOf 32 0

/-- The bytes of a context's record that differ from what the record was; all of them for a new one. -/
def Ctx.changed (old : Option Ctx) (c : Ctx) : List (Nat × Byte) :=
  let new := atAddrs c.recAt c.record
  match old with
  | none => new
  | some o => if o = c then [] else if o.recAt = c.recAt && o.state != .destroyed then new.filter fun p => !(atAddrs o.recAt o.record).contains p else new

/-- The fields of context records that a step has changed are updated at home (R318), under Chandler's key slot 0. -/
def syncRecords (s0 s : State) : State :=
  s.ctxs.foldl (fun s c => match c.changed (s0.ctx? c.id) with
    | [] => s
    | ws => homeWriteRaw s 0 ws) s

/-! ## Fault records (R308, R318) -/

/-- The team, kernel and place that a fault record names. -/
structure Party where
  team   : Nat
  core   : Nat
  bench  : Nat
  kseq   : W64
  queue  : Nat
  rec_   : W32
  rdepth : Nat
  repc   : W64
  gang   : W64
  deriving DecidableEq, Repr

/-- A fault record without its FSEQ, bytes 0x08 to 0xFF (R308). -/
def recordBody (p : Party) (f : FaultInfo) : List Byte :=
  [f.code] ++ bytesOf 3 f.info.toNat ++ bytesOf 1 p.team ++ bytesOf 1 p.core ++ bytesOf 1 p.bench ++ [0]
  ++ bytesOf 8 p.kseq.toNat ++ bytesOf 2 p.queue ++ bytesOf 6 0
  ++ bytesOf 8 f.fpc.toNat ++ bytesOf 8 f.addr.toNat
  ++ bytesOf 4 p.rec_.toNat ++ bytesOf 4 p.rdepth ++ bytesOf 8 p.repc.toNat
  ++ bytesOf 8 f.engSeq.toNat ++ [f.engClass, f.engCtx] ++ bytesOf 2 0 ++ bytesOf 4 f.mprog.toNat
  ++ bytesOf 8 p.gang.toNat ++ bytesOf 40 0 ++ bytesOf 128 f.mask.toNat

/-- Writes one record to a context's fault ring: record k at FBASE + (k mod FSIZE) × 256, FSEQ := FTAIL, and then FTAIL
advances (R318). -/
def writeRecord (s : State) (c : Ctx) (body : List Byte) : State :=
  let slot := if c.fsize = 0 then 0 else c.ftail.toNat % c.fsize
  let s1 := devWrite s c (c.fbase + BitVec.ofNat 64 (slot * 256)) (bytesOf 8 c.ftail.toNat ++ body)
  s1.setCtx { c with ftail := c.ftail + 1, fhead := ((s1.ctx? c.id).map (·.fhead)).getD c.fhead }

/-- The fault ring has room: FTAIL − FHEAD < FSIZE (R318). -/
def ringRoom (c : Ctx) : Bool := decide ((c.ftail - c.fhead).toNat < c.fsize)

/-- Reports a fault to a context's fault queue; while the ring is full, records are held back in order (R318). The ring of a destroyed
context has gone back to Chandler (R324). -/
def report (s : State) (ctx : Nat) (body : List Byte) : State :=
  match s.ctx? ctx with
  | none => s
  | some c =>
    if c.state == .destroyed then s
    else if c.held.isEmpty && ringRoom c then writeRecord s c body
    else s.setCtx { c with held := c.held ++ [body] }

/-- Held records written once the ring has room (R318); `n` bounds how many. -/
def flushHeld : Nat → State → Nat → State
  | 0, s, _ => s
  | n + 1, s, ctx =>
    match s.ctx? ctx with
    | some c =>
      match c.held with
      | b :: r => if ringRoom c then flushHeld n (writeRecord s { c with held := r } b) ctx else s
      | [] => s
    | none => s

/-- What a fault record names of a team (R308). -/
def Here.party (h : Here) : Party :=
  ⟨h.tm.idx, h.core, h.bench, h.ke.launch.seq, h.ke.queue, h.tm.regions, h.tm.rdepth, h.tm.repc, h.ga.index⟩

/-! ## Claims -/

/-- Some pending claim is on the register (R157). -/
def isPending (cs : List Claim) (k : RegKey) : Bool := cs.any fun c => c.pending && c.key = k
/-- Some claim is on the register: it is outstanding or pending (R155). -/
def isClaimed (cs : List Claim) (k : RegKey) : Bool := cs.any fun c => c.key = k
/-- The registers of the list that are pending. -/
def pendingOf (cs : List Claim) (ks : List RegKey) : List RegKey := ks.filter fun k => isPending cs k

/-- The registers that a set of writes touches: a predicate that is written in no lane is unchanged (R71). -/
def Writes.keys (w : Writes) : List RegKey :=
  (w.v.map fun p => RegKey.v (p.1 / 1024)).eraseDups ++ w.u.map (fun p => .s p.1)
    ++ (w.p.filter fun p => p.2.1 != 0).map (fun p => .p p.1)

/-- The writes to one register. -/
def Writes.only (w : Writes) (k : RegKey) : Writes :=
  match k with
  | .v n => { Writes.none with v := w.v.filter fun p => p.1 / 1024 = n }
  | .s n => { Writes.none with u := w.u.filter fun p => p.1 = n }
  | .p n => { Writes.none with p := w.p.filter fun p => p.1 = n }

/-- The writes to registers of a list, outside the lanes that a claim leaves to younger instructions. -/
def Writes.owned (w : Writes) (cs : List Claim) : Writes :=
  { v := w.v.filter fun p => cs.any fun c => c.key = .v (p.1 / 1024) && !c.skip.getLsbD (p.1 % 1024)
    u := w.u.filter fun p => cs.any fun c => c.key = .s p.1 && c.skip = 0
    p := (w.p.filterMap fun p => (cs.find? fun c => c.key = .p p.1).map fun c => (p.1, p.2.1 &&& ~~~c.skip, p.2.2))
    x := w.x
    flags := w.flags }

/-- The lanes of a register that a set of writes touches. -/
def Writes.lanesAt (w : Writes) (k : RegKey) : Mask :=
  match k with
  | .v n => maskOf ((w.v.filter fun p => p.1 / 1024 = n).map fun p => p.1 % 1024)
  | .s n => if w.u.any fun p => p.1 = n then BitVec.allOnes 1024 else 0
  | .p n => (w.p.filter fun p => p.1 = n).foldl (fun m p => m ||| p.2.1) 0

/-- The value of an access is there: all its bytes are known, and the tile it reads is written. -/
def InFlight.ready (a : InFlight) : Bool := a.bytes.isEmpty && a.need.isEmpty && a.tile.isNone

/-! ## What an instruction that does not defer writes (R155, R161) -/

/-- The claims on a register without the pending ones: the producer's later write is suppressed (R161). -/
def unpend (cs : List Claim) (k : RegKey) : List Claim := cs.filter fun c => !(c.pending && c.key = k)
/-- The claims on a register leave lanes to a value that stands. -/
def leaveLanes (cs : List Claim) (k : RegKey) (m : Mask) : List Claim :=
  cs.map fun c => if c.key = k then { c with skip := c.skip ||| m } else c

/-- A write by an instruction that is not deferred: a pending register ceases to be pending and the producer's later write
is suppressed (R161); a register outstanding in the same group stays so, and in the lanes written one of the two values is
left, unspecified which (R155, log 6). -/
def dropClaims (s : State) (cs : List Claim) (w : Writes) : State × List Claim :=
  w.keys.foldl (fun (sc : State × List Claim) k =>
    let cs := unpend sc.2 k
    if isClaimed cs k then (sc.1.bump, if Config.freeBool sc.1.tick then leaveLanes cs k (w.lanesAt k) else cs)
    else (sc.1, cs)) (s, cs)

/-- The lanes in which a value that a variable-latency instruction is still to write to a register gives way to one that is
outstanding already: for each, one of the two is left, unspecified which, in the lanes that the older one is still to write (R155,
log 6). -/
def yieldLanes (s : State) (cs : List Claim) (k : RegKey) : State × Mask :=
  (cs.filter fun c => c.key = k && !c.pending).foldl (fun (sm : State × Mask) c =>
    (sm.1.bump, if Config.freeBool sm.1.tick then sm.2 else sm.2 ||| (c.lanes &&& ~~~c.skip))) (s, 0)

/-- A variable-latency access is in flight and claims its destinations (R155); a pending one ceases to be pending (R161).
`lanes` are the lanes that it writes of a register. -/
def launch (s : State) (tm : Team) (a : InFlight) (lanes : RegKey → Mask) : State × Team :=
  let r := a.dests.foldl (fun (sc : State × List Claim) k =>
    let q := yieldLanes sc.1 tm.claims k
    (q.1, unpend sc.2 k ++ [⟨k, a.id, false, q.2, lanes k⟩])) (s, tm.claims)
  (r.1, { tm with inflight := tm.inflight ++ [a], claims := r.2 })

/-- Applies the writes of an instruction that is not deferred to its team. -/
def writeNow (s : State) (tm : Team) (w : Writes) : State × Team :=
  if tm.claims.isEmpty then (s, { tm with regs := tm.regs.apply w, flags := tm.flags ||| w.flags })
  else
    let r := dropClaims s tm.claims w
    (r.1, { tm with regs := tm.regs.apply w, flags := tm.flags ||| w.flags, claims := r.2 })

/-! ## Ends of an instruction -/

/-- An engine context. -/
def State.engine? (s : State) : EngRef → Option Engine
  | .copy core ctx => (s.cores[core]?).bind fun c => c.carter[ctx]?
  | .sift core ctx => (s.cores[core]?).bind fun c => c.sifter[ctx]?
  | .settle core => (s.cores[core]?).map fun c => c.settle
  | .matrix _ _ => none
/-- A bench. -/
def State.bench? (s : State) (core bench : Nat) : Option Bench := (s.cores[core]?).bind fun c => c.benches[bench]?
/-- Every matrix instruction of a bench numbered `q` or below has ended (R230). -/
def State.tilePassed (s : State) (core bench : Nat) (q : W64) : Bool :=
  ((s.bench? core bench).map fun b => b.queue.all fun c => decide (q < c.q)).getD true
/-- The timeline of an engine context (R138). -/
def State.tl (s : State) : EngRef → W64
  | .matrix core b => ((s.bench? core b).map fun x => x.tl).getD 0
  | e => ((s.engine? e).map fun x => x.tl).getD 0
/-- The context is halted (R138); a matrix context never is (R239). -/
def State.engHalted (s : State) : EngRef → Bool
  | .matrix _ _ => false
  | e => ((s.engine? e).map fun x => x.halted).getD false
/-- The first number that an abort has taken from a context's queue (R323). -/
def State.engStuck (s : State) : EngRef → Option W64
  | .matrix core b => (s.bench? core b).bind fun x => x.stuck
  | e => (s.engine? e).bind fun x => x.stuck
/-- The context's TL will not reach `n`: the context is halted (R142), or an abort has taken number `n` or one below it (R323, log 68). -/
def State.neverTl (s : State) (e : EngRef) (n : W64) : Bool :=
  s.engHalted e || ((s.engStuck e).map fun q => decide (q ≤ n)).getD false
/-- TL once the command of a number has completed (R138): it does not pass the first number that an abort has taken (R323). -/
def tlPast (stuck : Option W64) (n : W64) : W64 :=
  match stuck with
  | some x => if n < x then n else x - 1
  | none => n
/-- The first number that aborts have taken, once one has taken `q`. -/
def lowerStuck (stuck : Option W64) (q : W64) : W64 :=
  match stuck with
  | some x => if x ≤ q then x else q
  | none => q
/-- Changes an engine context. -/
def State.modEngine (s : State) (e : EngRef) (f : Engine → Engine) : State :=
  match e with
  | .copy core ctx => s.modCore core fun c => { c with carter := modAt f c.carter ctx }
  | .sift core ctx => s.modCore core fun c => { c with sifter := modAt f c.sifter ctx }
  | .settle core => s.modCore core fun c => { c with settle := f c.settle }
  | .matrix _ _ => s

/-- The request forwards bytes that a team's core has written back (R184). -/
def ReqOwner.isForward : ReqOwner → Bool
  | .team _ _ => false
  | .engine _ => false
  | .forward .. => true
  | .prefetch .. => false

/-- What a core has written back to exporters is not confirmed yet (R185, step 2). -/
def State.forwardsFrom (s : State) (core : Nat) : Bool := s.reqs.any fun r => r.owner.isForward && r.core == core

/-- The entry was pushed for a handler (R313). -/
def EntryKind.isTrap : EntryKind → Bool
  | .trap _ => true | .pend => false | .div => false | .call => false
/-- The handlers that a team is in (R313). -/
def Team.handlers (tm : Team) : Nat := (tm.stack.filter fun e => e.kind.isTrap).length
/-- The request is of a team, in whatever handler (R145). -/
def RingAsker.ofTeam (t : Nat) : RingAsker → Bool
  | .team u _ => u == t
  | .sifter _ => false

/-- What a status waits for. -/
def Status.wake? : Status → Option Wake
  | .parked w => some w | .blocked w => some w | .running => none | .stopped => none | .captured _ => none | .retired => none
/-- What a team has been waiting for at the instruction at its PC, be it that the line of that instruction had to be fetched from another
package, or that a handler has run, since. -/
def Team.waited (tm : Team) : Option Wake := match tm.before with
  | some w => some w
  | none => tm.status.wake?

/-- What a team waits for holds (R267). `t` is the team's index. -/
def wakeHolds (s : State) (t : Nat) (tm : Team) : Wake → Bool
  | .landed => tm.claims.isEmpty
  | .drained => tm.residues.isEmpty && tm.claims.isEmpty
  | .residues => tm.residues.isEmpty
  | .posts r => tm.posts.all fun p => match p.act with
      | .cmt x _ => x != r
      | .rel x _ => x != r
      | .arrive .. => true
  | .ready ks => (pendingOf tm.claims ks).isEmpty
  | .streams m => tm.residues.all fun r => match r.stream with
      | some k => !m.getLsbD k
      | none => true
  | .entry ks => decide (tm.residues.length < tm.rescap) || (tm.rescap = 0 && (pendingOf tm.claims ks).isEmpty)
  | .room e => ((s.engine? e).map fun x => decide (x.queue.length < 64)).getD true || s.engHalted e
  | .timeline e n => decide (n ≤ s.tl e) || s.neverTl e n
  | .barrier b g => match s.bar? b with
      | some x => x.gen != g || x.state == .faulted
      | none => true
  | .ring => match s.cohorts[tm.cohort]? with
      | some co => co.ringq.all fun r => r.who != .team t tm.handlers || r.granted.isSome
      | none => true
  | .q3 => match s.cohorts[tm.cohort]? with
      | some co => !co.compq.isEmpty
      | none => false
  | .monitor => tm.wake
  | .chandler => false
  | .preempted => false
  | .fabric tags => tags.all fun g => s.reqs.all fun r => r.tag != g
  | .forwards => match (s.cohorts[tm.cohort]?).bind fun co => (s.gangs[co.gang]?).map fun ga => coreOf ga co with
      | some core => !s.forwardsFrom core
      | none => true
  | .handler .. => tm.residues.isEmpty && tm.claims.isEmpty
  | .tiles q => match s.cohorts[tm.cohort]? with
      | some co => match s.gangs[co.gang]? with
          | some ga => s.tilePassed (coreOf ga co) (tm.idx % 4) q
          | none => true
      | none => true

/-- The team's oldest residue references no value that has not been delivered: it takes the team's issue slots before its next
instruction (R160). -/
def residueDue (tm : Team) : Bool :=
  match tm.residues with
  | [] => false
  | r :: _ => r.waits.isEmpty

/-- A pre-emption is pending for the team's gang (R267, R269). -/
def capturing (s : State) (tm : Team) : Bool :=
  (((s.cohorts[tm.cohort]?).bind fun co => s.gangs[co.gang]?).map fun ga => ga.state == .capturing).getD false

/-- The team may issue its next instruction now (R150): it is resident and not halted, some lane is active, no residue and no
passes of its last instruction come first (R151, R160), and what it waits for, if anything, holds. At a blocking point of a gang
for which a pre-emption is pending it waits for the capture (R269). -/
def canIssue (s : State) (t : Nat) (tm : Team) : Bool :=
  !tm.halted && tm.active != 0 && !residueDue tm && tm.owed.isEmpty &&
    match tm.status with
    | .running => true
    | .parked w => wakeHolds s t tm w
    | .blocked w => wakeHolds s t tm w && !capturing s tm
    | .stopped => false
    | .captured _ => false
    | .retired => false

/-- Runs the meaning of an instruction word for the team named by `cur`, as its bench issues it (R150): the team is RUNNING
while it does. -/
def onTeam (s : State) (f : Here → Outcome State) : Outcome State :=
  match here s s.cur with
  | none => .fault .noTeam
  | some h =>
    if canIssue s h.t h.tm then f { h with tm := { h.tm with status := .running, before := none }, wake := h.tm.waited }
    else .fault .notReady

/-- The number of the lane-cycle range that holds a PC (R358). -/
def rangeOf (rs : List (W64 × W64)) (pc : W64) : Option Nat :=
  (rs.zipIdx.find? fun r => decide (r.1.1.toNat ≤ pc.toNat) && decide (pc.toNat < r.1.2.toNat)).map (·.2)

/-- The class of a lane in the lane-cycle record (R358). -/
def laneClass (f : Frame) (live : Mask) (l : Nat) : Nat :=
  if !live.getLsbD l then 3 else if !f.mask.getLsbD l then 1 else if f.guard.getLsbD l then 0 else 2

/-- Adds to a 48-bit counter, which saturates (R358). -/
def addSat48 (x : BitVec 48) (n : Nat) : BitVec 48 := BitVec.ofNat 48 (min (x.toNat + n) (2 ^ 48 - 1))

/-- Counts `n` passes of one mask word in the lane-cycle record (R358). -/
def countWord (f : Frame) (live : Mask) (range : Nat) (c : Sparse 48) (w : Nat × Nat) : Sparse 48 :=
  (List.range 32).foldl (fun c i =>
    let k := range * 4 + laneClass f live (w.1 * 32 + i)
    sset c k (addSat48 (sget c k) w.2)) c

/-- The passes of a cost: pairs of mask word and passes. -/
def costTotal (cost : List (Nat × Nat)) : Nat := (cost.map (·.2)).foldl (· + ·) 0

/-- The passes of one turn (R151): whole mask words, until it has lasted at least 32 passes; and the words left, with their passes. -/
def turnCut : Nat → List (Nat × Nat) → Nat × List (Nat × Nat)
  | n, [] => (n, [])
  | n, x :: r => if 32 ≤ n then (n, x :: r) else turnCut (n + x.2) r

/-- The bank cycles that a team keeps while mask words are owed; once none is, all have been counted (R126, R259). -/
def keepBanks (owed : List (Nat × Nat)) (banks : List (Nat × Nat × Nat)) : List (Nat × Nat × Nat) := if owed.isEmpty then [] else banks

/-- The passes that a team issues: PASSES (R147), the lane-cycle record of its bench (R358), which classes lanes as they stood
at issue, the cycle counter (log 5) and the order of issue (R150); those past the turn are owed (R151, log 100). -/
def spend (s : State) (h : Here) (f : Frame) (cost : List (Nat × Nat)) (tm : Team) : State × Team :=
  let n := costTotal cost
  let cut := turnCut 0 cost
  let s1 := s.modBench h.core h.bench fun b =>
    { b with issued := b.issued + cut.1
             counts := match rangeOf h.cx.ranges f.pc with
               | some r => cost.foldl (countWord f h.tm.live r) b.counts
               | none => b.counts }
  ({ s1 with cycle := s1.cycle + BitVec.ofNat 64 (n + Config.elapsed s1.tick), podTime := s1.podTime + BitVec.ofNat 64 (Config.elapsedNs s1.tick)
             tick := s1.tick + 1, now := s1.now + 1 },
   { tm with passes := tm.passes + BitVec.ofNat 64 n, owed := cut.2, banks := keepBanks cut.2 tm.banks
             age := ((s1.bench? h.core h.bench).map fun (b : Bench) => b.issued).getD 0 })

/-- The cost of an instruction that issues one pass for the whole team (R152). -/
def onePass : List (Nat × Nat) := [(0, 1)]

/-- The switch marker (R155 to R157): the group ends; in parking mode the team parks until nothing is outstanding, in
deferring mode every outstanding register becomes pending. -/
def marker (sw df : Bool) (tm : Team) : Team :=
  if !sw then tm
  else if df then { tm with claims := tm.claims.map fun c => { c with pending := true } }
  else if tm.claims.isEmpty then tm
  else { tm with status := .parked .landed }

/-- The end of an instruction that goes on at `pc`: its passes are counted and its marker acts. The marker of a `setm df` word acts under
the DF that the word found, since R86 shows the new MODE to the next word: the model's reading (log 106). -/
def endAt (s : State) (h : Here) (sw : Bool) (pc : W64) (cost : List (Nat × Nat)) (tm : Team) : State :=
  let r := spend s h h.frame cost tm
  r.1.setTeam h.t (marker sw h.tm.mode.df { r.2 with pc := pc, stalled := false, resumed := false })

/-- The address after an instruction of `n` literal words (R30). -/
def nextPc (pc : W64) (n : Nat) : W64 := pc + BitVec.ofNat 64 (4 + 4 * n)

/-- The team waits at this instruction, which it issues again when `w` holds; the wait is no blocking point (R267). -/
def park (s : State) (h : Here) (tm : Team) (w : Wake) : State := s.setTeam h.t { tm with status := .parked w }
/-- The team waits at this instruction at a blocking point (R267). -/
def block (s : State) (h : Here) (tm : Team) (w : Wake) : State := s.setTeam h.t { tm with status := .blocked w }

/-- Goes on once the registers are not pending; parks until then (R158). -/
def whenReady (s : State) (h : Here) (ks : List RegKey) (k : Outcome State) : Outcome State :=
  if (pendingOf h.tm.claims ks).isEmpty then k else .next (park s h h.tm (.ready ks))
/-- Goes on once no residue remains and no destination is outstanding; parks until then (R164). -/
def whenDrained (s : State) (h : Here) (k : Outcome State) : Outcome State :=
  if h.tm.residues.isEmpty && h.tm.claims.isEmpty then k else .next (park s h h.tm .drained)

/-! ## Stopping, trap entry and return (R306 to R314) -/

/-- A fault of an instruction without engine fields (R308). -/
def FaultInfo.plain (code : Byte) (fpc : W64) (mask : Mask) (addr : W64) : FaultInfo :=
  ⟨code, 0, addr, mask, fpc, 0, 0xFF, 0, 0, none, none⟩

/-- For each outstanding destination, its prior value or the landed value, unspecified which (R309). The flags of a discarded
`redu` are lost with it, since they enter FLAGS as its value lands (log 101). -/
def discardAccess (s : State) (tm : Team) (a : InFlight) : State × Team :=
  a.dests.foldl (fun (st : State × Team) k =>
    if Config.freeBool st.1.tick then
      (st.1.bump, { st.2 with regs := st.2.regs.apply ((a.writes.owned (tm.claims.filter fun c => c.id = a.id)).only k) })
    else (st.1.bump, st.2)) (s, tm)

/-- What a stopping team loses (R309): residues, outstanding loads, staged commands, its monitor. A posted update stays
unless a discarded residue was due before it (R145). -/
def discardAll (s : State) (tm : Team) : State × Team :=
  let r := tm.inflight.foldl (fun (st : State × Team) a => discardAccess st.1 st.2 a) (s, tm)
  (r.1, { r.2 with residues := [], inflight := [], claims := [], stage0 := [], stage2 := [], monitor := none, wake := false
                   stalled := false, owed := [], banks := [], before := none
                   posts := tm.posts.filter fun p => tm.residues.all fun x => p.id < x.id })

/-- Withdraws a team's ring requests, so that later requests on their rings may be granted (R145, R309); what has been granted has been
counted. -/
def withdrawRing (s : State) (t c : Nat) : State :=
  s.modCohort c fun co =>
    let gone := co.ringq.filter fun r => r.who.ofTeam t
    gone.foldl (fun co r => co.grant r.ring) { co with ringq := co.ringq.filter fun r => !r.who.ofTeam t }

/-- The team stops for a fault under R309, with a new status; what it has posted takes effect. -/
def stopTeam (s : State) (h : Here) (tm : Team) (f : FaultInfo) (st : Status) : State :=
  let r := discardAll (withdrawRing s h.t tm.cohort) tm
  settlePosts (r.1.setTeam h.t { r.2 with status := st, fault := some f }) h.t

/-- The lanes that a WATCH names: those that a handler runs in (R313), or where there is none those of the record (R167, R308). -/
def Hit.mask (x : Hit) (tm : Team) : Mask := if tm.trapvec = 0 then x.report else x.lanes

/-- Registers s28 to s31 at a handler's entry (R313). -/
def handlerRegs (g : Regs) (code : Byte) (info : BitVec 24) (fpc resume addr : W64) : Regs :=
  g.usetAll [(28, fpc), (29, BitVec.ofNat 64 (code.toNat + info.toNat * 2 ^ 8)), (30, addr), (31, resume)]

/-- The entry of an in-team handler (R313): the TRAP entry with its record is pushed, s28 to s31 are set, MODE.G, GN and DF
are cleared, the mask becomes the faulting lanes and the PC goes to TRAPVEC. With 256 entries held, STACK is raised to the
fault queue with the code entered in INFO, and nothing is pushed. -/
def enterHandler (s : State) (h : Here) (tm : Team) (code : Byte) (info : BitVec 24) (lanes : Mask) (fpc resume addr : W64) :
    State :=
  if 256 ≤ tm.stack.length then
    let f : FaultInfo := { FaultInfo.plain 0x0F fpc lanes 0 with info := BitVec.ofNat 24 code.toNat }
    report (stopTeam s h tm f .stopped) h.ke.ctx (recordBody h.party f)
  else
    let g := tm.regs
    let r : TrapRec := ⟨resume, tm.mode, g.uget 28, g.uget 29, g.uget 30, g.uget 31, tm.waited⟩
    s.setTeam h.t { tm with
      stack := ⟨.trap r, resume, tm.active⟩ :: tm.stack
      regs := handlerRegs g code info fpc resume addr
      mode := { tm.mode with g := 0, gn := false, df := false }
      active := lanes
      pc := tm.trapvec
      status := .running
      stalled := false
      resumed := false
      before := none }

/-- The code is one that an in-team handler takes (R306): BREAK or WATCH. -/
def inTeamCode (c : Byte) : Bool := c == 0x10 || c == 0x11
/-- The code is one that Chandler takes (R306): PAGE or PROT. -/
def chandlerCode (c : Byte) : Bool := c == 0x05 || c == 0x06

/-- Taking a fault (R306, R307, R309, R310, R313), the one operation for every fault of a team. BREAK and WATCH enter the
handler at TRAPVEC when it is not zero, once nothing is deferred or outstanding, and resume at `resume`; PAGE and PROT stop
the team until Chandler has resolved them; every other fault stops it and is reported to the fault queue. -/
def takeFault (s : State) (h : Here) (tm : Team) (f : FaultInfo) (resume : W64) : State :=
  if inTeamCode f.code && tm.trapvec != 0 then
    if tm.residues.isEmpty && tm.claims.isEmpty then enterHandler s h tm f.code f.info f.mask f.fpc resume f.addr
    else s.setTeam h.t { tm with
      pc := resume, before := tm.waited, status := .parked (.handler f.code f.info f.mask f.fpc f.addr) }
  else if chandlerCode f.code then stopTeam s h tm f (.blocked .chandler)
  else report (stopTeam s h tm f .stopped) h.ke.ctx (recordBody h.party f)

/-- A fault of the instruction at the team's PC for the lanes of `mask` (R121). -/
def raise (s : State) (h : Here) (code : Byte) (mask : Mask) (addr : W64) : Outcome State :=
  .next (takeFault s h h.tm (.plain code h.tm.pc mask addr) h.tm.pc)
/-- ILLEGAL for the active mask (R48, R316). -/
def illegal (s : State) (h : Here) : Outcome State := raise s h 0x01 h.tm.active 0
/-- STACK (R74 to R78). -/
def stackFault (s : State) (h : Here) : Outcome State := raise s h 0x0F h.tm.active 0
/-- QUEUE (R137 to R145). -/
def queueFault (s : State) (h : Here) : Outcome State := raise s h 0x0E h.tm.active 0

/-- The registers after a TRAP entry is popped: s28 to s31 from its record (R314). -/
def trapRegs (g : Regs) (r : TrapRec) : Regs := g.usetAll [(28, r.s28), (29, r.s29), (30, r.s30), (31, r.s31)]

/-- An entry is taken (R74, R78): the mask becomes the entry's lanes that are still live and the PC the entry's; a TRAP
entry restores MODE and s28 to s31 from its record (R314), and a team that was waiting at the instruction resumed waits there still. -/
def takeEntry (tm : Team) (e : Entry) : Team :=
  match e.kind with
  | .trap r => { tm with active := e.mask &&& tm.live, pc := r.pc, mode := r.mode, regs := trapRegs tm.regs r, before := r.wake }
  | .pend => { tm with active := e.mask &&& tm.live, pc := e.pc }
  | .div => { tm with active := e.mask &&& tm.live, pc := e.pc }
  | .call => { tm with active := e.mask &&& tm.live, pc := e.pc }

/-- Popping until an entry holds a live lane (R74): an entry without one is discarded. With no entry left the mask is
empty. -/
def popLive : List Entry → Team → Team
  | [], tm => { tm with stack := [], active := 0 }
  | e :: r, tm => if e.mask &&& tm.live = 0 then popLive r tm else { takeEntry tm e with stack := r }

/-- The effect of `region` at a new boundary (R83): REC rises, REPC, RMASK and RDEPTH are recorded. -/
def openRegion (tm : Team) (pc : W64) : Team :=
  { tm with regions := tm.regions + 1, repc := pc, rmask := tm.active, rdepth := tm.stack.length }

/-- A pop that leaves the stack shallower than RDEPTH performs the effect of `region` (R84). -/
def closeRegion (tm : Team) : Team := if tm.stack.length < tm.rdepth then openRegion tm tm.pc else tm

/-- The live mask has become empty: the team retires and its entries are discarded (R74, R80). -/
def retireIfDead (tm : Team) : Team :=
  if tm.live = 0 then { tm with status := .retired, stack := [], active := 0 } else tm

/-- Resumption by Chandler (R310): at REPC, with RMASK ∩ live, and the stack cut to RDEPTH; an empty mask pops (R74, R84). -/
def resumeTeam (tm : Team) : Team :=
  let t := { tm with pc := tm.repc, active := tm.rmask &&& tm.live
                     stack := tm.stack.drop (tm.stack.length - tm.rdepth), status := .running, fault := none, resumed := false, before := none }
  if t.active = 0 then closeRegion (popLive t.stack t) else t

/-- The context's running teams are halted by a comparator (R356). -/
def haltCtx (s : State) (ctx : Nat) : State :=
  { s with
    teams := s.teams.map fun tm =>
      match (s.cohorts[tm.cohort]?).bind fun co => (s.gangs[co.gang]?).bind fun ga => s.kernels[ga.kernel]? with
      | some ke => if ke.ctx = ctx then { tm with halted := true } else tm
      | none => tm
    ctxs := s.ctxs.map fun c => if c.id = ctx then { c with halted := true } else c }

/-- The groups that a kernel's join entries name: the count of packages and the key (R292). -/
def Kernel.joinKeys (k : Kernel) : List (Nat × W64) := k.deps.filterMap fun d => match d with
  | .join packages key => some (packages, key)
  | .timeline .. => none | .edge .. => none
/-- The kernels of a context that are not COMPLETE. -/
def liveKernels (s : State) (ctx : Nat) : List Kernel := s.kernels.filter fun k => k.ctx = ctx && k.state != .complete

/-- Matching comparators of a context halt it (R356, R357): every one is reported with the pair of R359, and with the pod option of
one of them the other members of its co-operative kernels are told to halt. -/
def haltBy (s : State) (c : Ctx) (ns : List Nat) (pc seq : W64) : State :=
  if ns.isEmpty then s
  else
    let s1 := haltCtx s c.id
    let pod := ns.any fun i => ((c.comps[i]?).map (·.pod)).getD false
    { s1 with svcQ := s1.svcQ ++ [.halt c.id ns pc seq]
              spanOut := if pod then s1.spanOut ++ ((liveKernels s c.id).flatMap (·.joinKeys)).eraseDups.map .halt else s1.spanOut }
/-- A halt from another package (R356): the contexts with a live member of the group halt. -/
def haltPod (s : State) (group : Nat × W64) : State :=
  s.ctxs.foldl (fun s c => if (liveKernels s c.id).any fun k => k.joinKeys.contains group then haltCtx s c.id else s) s

end Sys2Proof.Machine
end

