-- ==== Sys2Proof/Machine/Flags.lean ====
section
/-! DEFINITION. The sticky flags of FLAGS (spec/04_numbers.md R59) and results that carry flags. -/
namespace Sys2Proof.Machine

/-- No flag. -/
def Flags.none : Flags := 0
/-- An invalid operation. -/
def flagNV : Flags := 0x01
/-- An exact infinity from a finite operand. -/
def flagDZ : Flags := 0x02
/-- Overflow. -/
def flagOF : Flags := 0x04
/-- Underflow. -/
def flagUF : Flags := 0x08
/-- Inexact. -/
def flagNX : Flags := 0x10
/-- An integer result, a conversion or an MX element was clamped. -/
def flagSATF : Flags := 0x20
/-- A tern element encoded 10 was read. -/
def flagTERNX : Flags := 0x40

/-- A flag if a condition holds. -/
def flagIf (b : Bool) (f : Flags) : Flags := if b then f else 0

/-- A value with the flags that forming it raised. -/
structure Res where
  val   : Nat
  flags : Flags
  deriving DecidableEq, Repr

/-- A value that raises nothing. -/
def Res.pure (x : Nat) : Res := ⟨x, 0⟩
/-- More flags. -/
def Res.also (r : Res) (f : Flags) : Res := { r with flags := r.flags ||| f }
/-- All flags of a list of results. -/
def allFlags (rs : List Res) : Flags := rs.foldl (fun f r => f ||| r.flags) 0

end Sys2Proof.Machine
end

