-- ==== Sys2Proof/Machine/Numbers.lean ====
section
/-! DEFINITION. Number formats, rounding, saturation and conversion (spec/04_numbers.md R50 to R67): values are exact
integers or exact dyadic numbers, and every result is rounded, wrapped or clamped once at the end. -/
namespace Sys2Proof

/-! ## Formats -/

/-- A floating-point format (R52): exponent and fraction bits, bias, the code of its largest finite magnitude, whether it
has infinities, whether it has NaNs, its canonical NaN, and whether FTZ acts on it (R57). -/
structure Fmt where
  eb     : Nat
  mb     : Nat
  bias   : Nat
  maxc   : Nat
  hasInf : Bool
  hasNan : Bool
  cnan   : Nat
  ftz    : Bool
  deriving DecidableEq, Repr

def fmtF64 : Fmt := ⟨11, 52, 1023, 0x7FEFFFFFFFFFFFFF, true, true, 0x7FF8000000000000, true⟩
def fmtF32 : Fmt := ⟨8, 23, 127, 0x7F7FFFFF, true, true, 0x7FC00000, true⟩
def fmtF16 : Fmt := ⟨5, 10, 15, 0x7BFF, true, true, 0x7E00, true⟩
def fmtBF16 : Fmt := ⟨8, 7, 127, 0x7F7F, true, true, 0x7FC0, true⟩
def fmtE4M3 : Fmt := ⟨4, 3, 7, 0x7E, false, true, 0x7F, false⟩
def fmtE5M2 : Fmt := ⟨5, 2, 15, 0x7B, true, true, 0x7E, false⟩
def fmtE2M1 : Fmt := ⟨2, 1, 1, 0x7, false, false, 0, false⟩

/-- Width of the format in bits. -/
def Fmt.width (f : Fmt) : Nat := 1 + f.eb + f.mb
/-- The sign bit as a number, where `neg`. -/
def Fmt.sign (f : Fmt) (neg : Bool) : Nat := if neg then 2 ^ (f.eb + f.mb) else 0
/-- The code of infinity's magnitude, in a format that has one. -/
def Fmt.infc (f : Fmt) : Nat := (2 ^ f.eb - 1) * 2 ^ f.mb

/-- How an element is read: a signed or unsigned integer, a float, or a tern digit. -/
inductive Elem where
  | int (signed : Bool) (w : Nat) | flt (f : Fmt) | tern
  deriving DecidableEq, Repr

/-- The element of each type (R50, R52). -/
def Ty.elem : Ty → Elem
  | .i32 => .int true 32 | .u32 => .int false 32 | .i64 => .int true 64 | .u64 => .int false 64
  | .i16x2 => .int true 16 | .u16x2 => .int false 16 | .i8x4 => .int true 8 | .u8x4 => .int false 8
  | .f32 => .flt fmtF32 | .f64 => .flt fmtF64 | .f16x2 => .flt fmtF16 | .bf16x2 => .flt fmtBF16
  | .e4m3x4 => .flt fmtE4M3 | .e5m2x4 => .flt fmtE5M2 | .e2m1x8 => .flt fmtE2M1
  | .tern16 => .tern | .i4x8 => .int true 4
/-- Width of an element in bits. -/
def Elem.width : Elem → Nat
  | .int _ w => w | .flt f => f.width | .tern => 2
/-- The type occupies an even/odd pair (R39, R50, R53). -/
def Ty.wide : Ty → Bool
  | .i64 => true | .u64 => true | .f64 => true
  | .i32 => false | .u32 => false | .i16x2 => false | .u16x2 => false | .i8x4 => false | .u8x4 => false | .f32 => false
  | .f16x2 => false | .bf16x2 => false | .e4m3x4 => false | .e5m2x4 => false | .e2m1x8 => false | .tern16 => false
  | .i4x8 => false
/-- Registers of one operand: two for a pair. -/
def Ty.regs (t : Ty) : Nat := if t.wide then 2 else 1
/-- Elements per register, or per pair (R50, R53). -/
def Ty.count (t : Ty) : Nat := if t.wide then 1 else 32 / t.elem.width
/-- Bytes of one access element (R122): 4, or 8 for 64-bit types. -/
def Ty.bytes (t : Ty) : Nat := if t.wide then 8 else 4

/-- The elements of a register image (R50, R53). -/
def Ty.split (t : Ty) (x : Nat) : List Nat := (List.range t.count).map fun k => x / 2 ^ (k * t.elem.width) % 2 ^ t.elem.width
/-- The register image of elements of width `w`. -/
def packElems (w : Nat) : List Nat → Nat
  | [] => 0
  | x :: r => x % 2 ^ w + 2 ^ w * packElems w r

end Sys2Proof

namespace Sys2Proof.Machine

/-! ## Reading a float -/

/-- What a floating-point code stands for: a NaN (signalling or not), an infinity, or the exact number ±m × 2^e. -/
inductive FVal where
  | nan (snan : Bool) | inf (neg : Bool) | fin (neg : Bool) (m : Nat) (e : Int)
  deriving DecidableEq, Repr

/-- The value of a code (R52), with a subnormal read as zero of its sign where `ftz` (R57). -/
def fread (f : Fmt) (ftz : Bool) (x : Nat) : FVal :=
  let neg := x / 2 ^ (f.eb + f.mb) % 2 == 1
  let mag := x % 2 ^ (f.eb + f.mb)
  let e := mag / 2 ^ f.mb
  let fr := mag % 2 ^ f.mb
  if f.hasNan && decide (f.maxc < mag) && !(f.hasInf && mag == f.infc) then .nan (fr / 2 ^ (f.mb - 1) == 0)
  else if f.hasInf && mag == f.infc then .inf neg
  else if e = 0 then (if ftz && f.ftz then .fin neg 0 0 else .fin neg fr (1 - (f.bias : Int) - f.mb))
  else .fin neg (fr + 2 ^ f.mb) ((e : Int) - f.bias - f.mb)

/-! ## Rounding (R55 to R57) -/

/-- How results are formed: RND, SAT and FTZ of MODE (R41). -/
structure Env where
  rnd : Rnd
  sat : Bool
  ftz : Bool
  deriving DecidableEq, Repr

/-- The environment of a MODE. -/
def Mode.env (m : Mode) : Env := ⟨m.rnd, m.sat, m.ftz⟩
/-- The environment of units that ignore MODE: rne, no saturation, subnormals kept (R66, R129). -/
def Env.plain : Env := ⟨.rne, false, false⟩

/-- Whether a magnitude with quotient `q` and remainder `rem` of `2^k` (and, with `sticky`, a little more) is rounded away
from zero. -/
def roundUp (r : Rnd) (neg : Bool) (q rem k : Nat) (sticky : Bool) : Bool :=
  let inexact := rem != 0 || sticky
  let half := 2 ^ k
  match r with
  | .rne => decide (half < 2 * rem) || (2 * rem == half && k != 0 && (sticky || q % 2 == 1))
  | .rna => decide (half < 2 * rem) || (2 * rem == half && k != 0)
  | .rtz => false
  | .rup => inexact && !neg
  | .rdn => inexact && neg

/-- A magnitude m × 2^−k, and a little more with `sticky`, rounded to an integer. -/
def roundMag (r : Rnd) (neg : Bool) (m k : Nat) (sticky : Bool) : Nat :=
  m / 2 ^ k + (roundUp r neg (m / 2 ^ k) (m % 2 ^ k) k sticky).toNat

/-- The number of bits of a magnitude. -/
def bitLen (m : Nat) : Nat := if m = 0 then 0 else m.log2 + 1

/-- Shifts a magnitude left by an integer count, where the count is not negative, and says how far it must go right. -/
def shiftTo (m : Nat) (e lsb : Int) : Nat × Nat :=
  if lsb ≤ e then (m * 2 ^ (e - lsb).toNat, 0) else (m, (lsb - e).toNat)

/-- The result of an overflow (R56). -/
def overflow (f : Fmt) (v : Env) (neg : Bool) : Nat :=
  let toInf := match v.rnd with
    | .rne => true | .rna => true | .rtz => false | .rup => !neg | .rdn => neg
  if v.sat || !toInf then f.sign neg + f.maxc
  else if f.hasInf then f.sign neg + f.infc
  else if f.hasNan then f.cnan else f.sign neg + f.maxc

/-- The exact number ±m × 2^e, and with `sticky` a little more than m, rounded to a format (R55 to R57). With `sticky`,
`m` must have more bits than the format keeps. UF for a tiny inexact result that is not subnormal after rounding (zero, or the
smallest normal number) is set under FTZ = 1 too, where R57 names subnormal results only (log 104). -/
def fround (f : Fmt) (v : Env) (neg : Bool) (m : Nat) (e : Int) (sticky : Bool) : Res :=
  if m = 0 then ⟨f.sign neg, 0⟩
  else
    let top : Int := e + bitLen m - 1
    let emin : Int := 1 - (f.bias : Int)
    let lsb : Int := max top emin - f.mb
    let s := shiftTo m e lsb
    let q := roundMag v.rnd neg s.1 s.2 sticky
    let inexact := s.1 % 2 ^ s.2 != 0 || sticky
    let code := if q < 2 ^ f.mb then q else ((lsb + f.mb + f.bias).toNat - 1) * 2 ^ f.mb + q
    if f.maxc < code then ⟨overflow f v neg, flagOF ||| flagNX⟩
    else
      let su := shiftTo m e (top - f.mb)
      let qu := roundMag v.rnd neg su.1 su.2 sticky
      let tiny := decide (top < emin) && !(top == emin - 1 && decide (2 ^ (f.mb + 1) ≤ qu))
      if v.ftz && f.ftz && decide (code < 2 ^ f.mb) && code != 0 then ⟨f.sign neg, flagUF ||| flagNX⟩
      else ⟨f.sign neg + code, flagIf inexact flagNX ||| flagIf (tiny && inexact) flagUF⟩

/-- A value put into a format: the canonical NaN with NV if it is invalid or came from a signalling NaN (R58), an infinity
as it stands (R56), a number rounded. -/
def fput (f : Fmt) (v : Env) : FVal → Res
  | .nan s => ⟨f.cnan, flagIf s flagNV⟩
  | .inf neg => ⟨if f.hasInf then f.sign neg + f.infc else overflow f v neg, 0⟩
  | .fin neg m e => fround f v neg m e false

/-! ## Exact arithmetic on values -/

/-- The exact number as a signed integer times 2^`lo`, for `lo` at most its exponent. -/
def scaled (neg : Bool) (m : Nat) (e lo : Int) : Int :=
  let x : Int := (m * 2 ^ (e - lo).toNat : Nat)
  if neg then -x else x

/-- The sign of an exact zero sum of numbers of opposite sign (R55). -/
def zeroNeg (r : Rnd) : Bool := r == .rdn

/-- Negation. -/
def FVal.neg : FVal → FVal
  | .nan s => .nan s | .inf n => .inf !n | .fin n m e => .fin (!n) m e

/-- The exact sum of two values (R55, R58, R59). -/
def FVal.add (r : Rnd) : FVal → FVal → FVal
  | .nan a, .nan b => .nan (a || b)
  | .nan a, _ => .nan a
  | _, .nan b => .nan b
  | .inf a, .inf b => if a = b then .inf a else .nan true
  | .inf a, _ => .inf a
  | _, .inf b => .inf b
  | .fin a m e, .fin b n g =>
    let lo := min e g
    let x := scaled a m e lo + scaled b n g lo
    if x = 0 then .fin (if a = b then a else zeroNeg r) 0 0 else .fin (decide (x < 0)) x.natAbs lo

/-- The exact product (R59). -/
def FVal.mul : FVal → FVal → FVal
  | .nan a, .nan b => .nan (a || b)
  | .nan a, _ => .nan a
  | _, .nan b => .nan b
  | .inf a, .inf b => .inf (a != b)
  | .inf a, .fin b n _ => if n = 0 then .nan true else .inf (a != b)
  | .fin a m _, .inf b => if m = 0 then .nan true else .inf (a != b)
  | .fin a m e, .fin b n g => .fin (a != b) (m * n) (e + g)

/-- A value is a NaN. -/
def FVal.isNan : FVal → Bool
  | .nan _ => true | .inf _ => false | .fin .. => false
/-- A value is a signalling NaN. -/
def FVal.isSnan : FVal → Bool
  | .nan s => s | .inf _ => false | .fin .. => false

/-- Order of two values that are no NaN: −1, 0 or 1; −0 equals +0. -/
def FVal.ord : FVal → FVal → Int
  | .inf a, .inf b => if a = b then 0 else if a then -1 else 1
  | .inf a, _ => if a then -1 else 1
  | _, .inf b => if b then 1 else -1
  | .fin a m e, .fin b n g =>
    let lo := min e g
    let d := scaled a m e lo - scaled b n g lo
    if d < 0 then -1 else if d = 0 then 0 else 1
  | _, _ => 0

/-! ## Integers (R60) -/

/-- The range of an integer element. -/
def intRange (signed : Bool) (w : Nat) : Int × Int :=
  if signed then (-(2 ^ (w - 1) : Int), 2 ^ (w - 1) - 1) else (0, 2 ^ w - 1)
/-- The integer of an element. -/
def intOf (signed : Bool) (w x : Nat) : Int := if signed then sx w x else (x : Int)
/-- The nearest end of a range. -/
def clampInt (lo hi x : Int) : Int := if x < lo then lo else if hi < x then hi else x
/-- An exact integer result wrapped, or with SAT clamped (R60). -/
def fitInt (signed : Bool) (w : Nat) (sat : Bool) (x : Int) : Res :=
  let r := intRange signed w
  if sat then ⟨ux w (clampInt r.1 r.2 x), flagIf (decide (x < r.1) || decide (r.2 < x)) flagSATF⟩ else ⟨ux w x, 0⟩

/-- A tern digit, and whether it was the reserved encoding 10 (R51). -/
def ternOf (x : Nat) : Int × Bool := if x = 1 then (1, false) else if x = 3 then (-1, false) else (0, x == 2)
/-- The code of a tern digit. -/
def ternCode (x : Int) : Nat := if x = 1 then 1 else if x = -1 then 3 else 0

/-! ## Arithmetic of one element (R87) -/

/-- The two-operand operations of R87. -/
inductive BinOp where
  | add | sub | mul | min | max
  deriving DecidableEq, Repr

/-- The lesser or greater of two floats (R58): −0 below +0, the other operand where one is NaN. -/
def fMinMax (f : Fmt) (v : Env) (max : Bool) (x y : Nat) : Res :=
  let a := fread f v.ftz x
  let b := fread f v.ftz y
  let nv := flagIf (a.isSnan || b.isSnan) flagNV
  let code (c : FVal) (raw : Nat) : Nat := match c with
    | .fin n m _ => if m = 0 then f.sign n else raw
    | .inf _ => raw
    | .nan _ => f.cnan
  if a.isNan && b.isNan then ⟨f.cnan, nv⟩
  else if a.isNan then ⟨code b y, nv⟩
  else if b.isNan then ⟨code a x, nv⟩
  else
    let xneg := x / 2 ^ (f.eb + f.mb) % 2 == 1
    let less := match a.ord b with
      | .negSucc _ => true
      | .ofNat n => n == 0 && xneg
    ⟨if less != max then code a x else code b y, nv⟩

/-- One element of `add`, `sub`, `mul`, `min` or `max` (R87). -/
def binElem (el : Elem) (v : Env) (op : BinOp) (x y : Nat) : Res :=
  match el with
  | .int sg w =>
    let a := intOf sg w x
    let b := intOf sg w y
    match op with
    | .add => fitInt sg w v.sat (a + b)
    | .sub => fitInt sg w v.sat (a - b)
    | .mul => fitInt sg w v.sat (a * b)
    | .min => .pure (if b < a then y else x)
    | .max => .pure (if a < b then y else x)
  | .flt f =>
    match op with
    | .add => fput f v ((fread f v.ftz x).add v.rnd (fread f v.ftz y))
    | .sub => fput f v ((fread f v.ftz x).add v.rnd (fread f v.ftz y).neg)
    | .mul => fput f v ((fread f v.ftz x).mul (fread f v.ftz y))
    | .min => fMinMax f v false x y
    | .max => fMinMax f v true x y
  | .tern => .pure 0

/-- The exact value d ± a × b; an invalid product raises NV whatever d is. -/
def fmaVal (r : Rnd) (neg : Bool) (d a b : FVal) : FVal :=
  let p := a.mul b
  d.add r (if neg then p.neg else p)

/-- One element of `fma` (`neg` false) or `fms` (R64, R87). -/
def fmaElem (el : Elem) (v : Env) (neg : Bool) (d x y : Nat) : Res :=
  match el with
  | .int sg w =>
    let p := intOf sg w x * intOf sg w y
    fitInt sg w v.sat (if neg then intOf sg w d - p else intOf sg w d + p)
  | .flt f => fput f v (fmaVal v.rnd neg (fread f v.ftz d) (fread f v.ftz x) (fread f v.ftz y))
  | .tern => .pure 0

/-- One element of `abs` or `neg` (R87): in floats only the sign bit changes, without FTZ, and a NaN becomes canonical. -/
def signElem (el : Elem) (v : Env) (abs : Bool) (x : Nat) : Res :=
  match el with
  | .int sg w =>
    let a := intOf sg w x
    fitInt sg w v.sat (if abs then (a.natAbs : Int) else -a)
  | .flt f =>
    match fread f false x with
    | .nan s => ⟨f.cnan, flagIf s flagNV⟩
    | _ =>
      let mag := x % 2 ^ (f.eb + f.mb)
      .pure (if abs then mag else if x / 2 ^ (f.eb + f.mb) % 2 == 1 then mag else mag + f.sign true)
  | .tern => .pure 0

/-- The relation of `cmp` on one element (R58, R88), with NV for a signalling NaN. -/
def cmpElem (el : Elem) (v : Env) (rel : Rel) (x y : Nat) : Bool × Flags :=
  let byOrd (c : Int) : Bool := match rel with
    | .eq => c == 0 | .ne => c != 0 | .lt => decide (c < 0) | .le => decide (c ≤ 0) | .gt => decide (0 < c)
    | .ge => decide (0 ≤ c) | .nan => false | .num => true
  match el with
  | .int sg w => (byOrd (intOf sg w x - intOf sg w y), 0)
  | .flt f =>
    let a := fread f v.ftz x
    let b := fread f v.ftz y
    if a.isNan || b.isNan then (rel == .ne || rel == .nan, flagIf (a.isSnan || b.isSnan) flagNV)
    else (byOrd (a.ord b), 0)
  | .tern => (false, 0)

/-! ## Division and roots (R60, R62, R63) -/

/-- Integer division (R60): truncating, all ones by zero. -/
def intDiv (sg : Bool) (w : Nat) (sat : Bool) (x y : Nat) : Res :=
  if y = 0 then .pure (2 ^ w - 1) else fitInt sg w sat (Int.tdiv (intOf sg w x) (intOf sg w y))

/-- The quotient m / n × 2^e rounded to a format. -/
def fratio (f : Fmt) (v : Env) (neg : Bool) (m n : Nat) (e : Int) : Res :=
  let k := f.mb + 4 + bitLen n
  let x := m * 2 ^ k
  fround f v neg (x / n) (e - k) (x % n != 0)

/-- `div` on floats (R62, R63 and R59): a non-zero number by zero gives an infinity and DZ. -/
def fDiv (f : Fmt) (v : Env) (x y : Nat) : Res :=
  match fread f v.ftz x, fread f v.ftz y with
  | .nan a, .nan b => ⟨f.cnan, flagIf (a || b) flagNV⟩
  | .nan a, _ => ⟨f.cnan, flagIf a flagNV⟩
  | _, .nan b => ⟨f.cnan, flagIf b flagNV⟩
  | .inf _, .inf _ => ⟨f.cnan, flagNV⟩
  | .inf a, .fin b _ _ => .pure (f.sign (a != b) + f.infc)
  | .fin a _ _, .inf b => .pure (f.sign (a != b))
  | .fin a m e, .fin b n g =>
    if n = 0 then (if m = 0 then ⟨f.cnan, flagNV⟩ else ⟨f.sign (a != b) + f.infc, flagDZ⟩)
    else if m = 0 then .pure (f.sign (a != b))
    else fratio f v (a != b) m n (e - g)

/-- One step of the bitwise square root. -/
def isqrtStep (n : Nat) : Nat → Nat → Nat
  | 0, r => r
  | k + 1, r => isqrtStep n k (if (r + 2 ^ k) * (r + 2 ^ k) ≤ n then r + 2 ^ k else r)
/-- The integer square root, rounded down. -/
def isqrt (n : Nat) : Nat := isqrtStep n (bitLen n / 2 + 1) 0

/-- m × 2^e as a magnitude with an even exponent and at least `bits` bits. -/
def evenScale (m : Nat) (e : Int) (bits : Nat) : Nat × Int :=
  let k := bits + (if (e - bits) % 2 = 0 then 0 else 1)
  (m * 2 ^ k, e - k)

/-- `sqrt` (R62, R63): correctly rounded. -/
def fSqrt (f : Fmt) (v : Env) (x : Nat) : Res :=
  match fread f v.ftz x with
  | .nan s => ⟨f.cnan, flagIf s flagNV⟩
  | .inf n => if n then ⟨f.cnan, flagNV⟩ else .pure f.infc
  | .fin n m e =>
    if m = 0 then .pure (f.sign n)
    else if n then ⟨f.cnan, flagNV⟩
    else
      let p := evenScale m e (2 * f.mb + 8)
      let q := isqrt p.1
      fround f v false q (p.2 / 2) (q * q != p.1)

/-- `rint` (R91): an integral value in the same format; NX when the value changes. -/
def fRint (f : Fmt) (v : Env) (x : Nat) : Res :=
  match fread f v.ftz x with
  | .nan s => ⟨f.cnan, flagIf s flagNV⟩
  | .inf n => .pure (f.sign n + f.infc)
  | .fin n m e =>
    if m = 0 then .pure (f.sign n)
    else
      let s := shiftTo m e 0
      let q := roundMag v.rnd n s.1 s.2 false
      ⟨(fround f v n q 0 false).val, flagIf (s.1 % 2 ^ s.2 != 0) flagNX⟩

/-! ## Conversions (R61) -/

/-- A float to an integer element: rounded by RND, clamped with NV and SATF when out of range, NaN to 0 with NV. -/
def fltToInt (v : Env) (sg : Bool) (w : Nat) (x : FVal) : Res :=
  let r := intRange sg w
  match x with
  | .nan _ => ⟨0, flagNV⟩
  | .inf n => ⟨ux w (if n then r.1 else r.2), flagNV ||| flagSATF⟩
  | .fin n m e =>
    let s := shiftTo m e 0
    let q : Int := (roundMag v.rnd n s.1 s.2 false : Nat)
    let q := if n then -q else q
    if q < r.1 ∨ r.2 < q then ⟨ux w (clampInt r.1 r.2 q), flagNV ||| flagSATF⟩
    else ⟨ux w q, flagIf (s.1 % 2 ^ s.2 != 0) flagNX⟩

/-- A float to a tern digit: rounded by RND, then clamped (R61). -/
def fltToTern (v : Env) (x : FVal) : Res :=
  match x with
  | .nan _ => ⟨0, flagNV⟩
  | .inf n => ⟨ternCode (if n then -1 else 1), flagSATF⟩
  | .fin n m e =>
    let s := shiftTo m e 0
    let q : Int := (roundMag v.rnd n s.1 s.2 false : Nat)
    let q := if n then -q else q
    ⟨ternCode (clampInt (-1) 1 q), flagIf (decide (q < -1) || decide (1 < q)) flagSATF ||| flagIf (s.1 % 2 ^ s.2 != 0) flagNX⟩

/-- A float to another float format (R61). -/
def fltToFlt (v : Env) (f : Fmt) (x : FVal) : Res :=
  match x with
  | .nan s => if f.hasNan then ⟨f.cnan, flagIf s flagNV⟩ else ⟨0, flagNV⟩
  | .inf n =>
    if f.hasInf then .pure (f.sign n + f.infc)
    else if f.hasNan then ⟨if v.sat then f.sign n + f.maxc else f.cnan, flagNV⟩
    else ⟨f.sign n + f.maxc, flagNV⟩
  | .fin n m e => fround f v n m e false

/-- An integer as an exact value. -/
def intVal (x : Int) : FVal := .fin (decide (x < 0)) x.natAbs 0

/-- One element converted between two types that differ (R61). A ternary −1 in an unsigned type, which cannot hold it, is all ones,
without a flag (log 105). -/
def cvtElem (v : Env) (src dst : Elem) (x : Nat) : Res :=
  match src with
  | .flt f =>
    let y := fread f v.ftz x
    match dst with
    | .flt g => fltToFlt v g y
    | .int sg w => fltToInt v sg w y
    | .tern => fltToTern v y
  | .int sg w =>
    let y := intOf sg w x
    match dst with
    | .flt g => fltToFlt v g (intVal y)
    | .int tg u => if u ≤ w then fitInt tg u v.sat y else .pure (ux u y)
    | .tern => ⟨ternCode (clampInt (-1) 1 y), flagIf (decide (y < -1) || decide (1 < y)) flagSATF⟩
  | .tern =>
    let t := ternOf x
    let fl := flagIf t.2 flagTERNX
    match dst with
    | .flt g => (fltToFlt v g (intVal t.1)).also fl
    | .int _ u => ⟨ux u t.1, fl⟩
    | .tern => .pure x

/-! ## Constants (R37) -/

/-- The value of constant code 0xE8 + n. -/
def konstInt (n : Fin 8) : Int := [(0 : Int), 1, 2, 3, 4, 8, 16, -1].getD n.val 0

/-- A constant in one element (R37): the value, or the nearest value of the element's range; −1 is all ones in an unsigned
type. -/
def konstElem (el : Elem) (n : Fin 8) : Nat :=
  let k := konstInt n
  match el with
  | .int sg w => if !sg && k == -1 then 2 ^ w - 1 else ux w (clampInt (intRange sg w).1 (intRange sg w).2 k)
  | .flt f => (fround f ⟨.rne, true, false⟩ (decide (k < 0)) k.natAbs 0 false).val
  | .tern => ternCode (clampInt (-1) 1 k)

/-- A constant in a register image of a type, replicated into every element. -/
def konstImage (t : Ty) (n : Fin 8) : Nat := packElems t.elem.width (List.replicate t.count (konstElem t.elem n))
/-- A constant in a uniform operand: a 64-bit integer (R37). -/
def konst64 (n : Fin 8) : W64 := BitVec.ofInt 64 (konstInt n)

/-- An f32 word widened exactly to f64, a NaN to the canonical NaN, no flag (R32). -/
def widenF32 (x : Nat) : Nat := (fltToFlt Env.plain fmtF64 (fread fmtF32 false x)).val

/-! ## Sums in a fixed order (R65) -/

/-- One step of `psum` and `redu`: a further operand added with one rounding (R65). -/
def sumStep (el : Elem) (v : Env) (acc : Res) (x : Nat) : Res := (binElem el v .add acc.val x).also acc.flags

end Sys2Proof.Machine
end

