-- ==== Sys2Proof/Machine/Functions.lean ====
section
/-! DEFINITION. The functions `rcp`, `rsq`, `exp2`, `log2`, `sin` and `cos` (spec/04_numbers.md R62, R63): the two
representable values that bracket the exact result, of which a constant of the implementation chooses one. The exact results
of the last four are bounded by series in fixed point (log 7). -/
namespace Sys2Proof.Machine

/-! ## Series in fixed point -/

/-- Fraction bits of the fixed-point numbers. -/
def fxBits : Nat := 416
/-- One. -/
def fxOne : Nat := 2 ^ fxBits
/-- The product of two fixed-point numbers, rounded down. -/
def fxMul (a b : Nat) : Nat := a * b / fxOne

/-- Σ z^(2k+1)/(2k+1), alternating in sign where `alt`: `n` terms, `p` the current power. -/
def atanSum (alt : Bool) (zz : Nat) : Nat → Nat → Nat → Int → Int
  | 0, _, _, acc => acc
  | n + 1, k, p, acc =>
    let t : Int := (p / (2 * k + 1) : Nat)
    atanSum alt zz n (k + 1) (fxMul p zz) (if alt && k % 2 == 1 then acc - t else acc + t)
/-- The inverse hyperbolic tangent of a fixed-point number at most 1/3. -/
def fxAtanh (z : Nat) : Nat := (atanSum false (fxMul z z) 140 0 z 0).toNat
/-- The inverse tangent of 1 / n. -/
def fxAtanInv (n : Nat) : Int := atanSum true (fxOne / (n * n)) 100 0 (fxOne / n) 0
/-- The natural logarithm of 2. -/
def fxLn2 : Nat := 2 * fxAtanh (fxOne / 3)
/-- 2π, by 16 atan(1/5) − 4 atan(1/239), doubled. -/
def fxTwoPi : Nat := (2 * (16 * fxAtanInv 5 - 4 * fxAtanInv 239)).toNat

/-- Σ x^k/k!, `n` terms from the k-th, whose value is `t`. -/
def expSum (x : Nat) : Nat → Nat → Nat → Nat → Nat
  | 0, _, _, acc => acc
  | n + 1, k, t, acc => expSum x n (k + 1) (fxMul t x / (k + 1)) (acc + t)
/-- The exponential of a fixed-point number below 1. -/
def fxExp (x : Nat) : Nat := expSum x 100 0 fxOne 0

/-- Σ (−1)^k x^(2k+s)/(2k+s)!, `n` terms from the one of value `t` and index j = 2k + s. -/
def trigSum (xx : Nat) : Nat → Nat → Nat → Bool → Int → Int
  | 0, _, _, _, acc => acc
  | n + 1, j, t, neg, acc =>
    trigSum xx n (j + 2) (fxMul t xx / ((j + 1) * (j + 2))) (!neg) (if neg then acc - (t : Int) else acc + (t : Int))
/-- The sine of a fixed-point angle from 0 to π/2. -/
def fxSin (x : Nat) : Nat := (trigSum (fxMul x x) 60 1 x false 0).toNat
/-- The cosine of a fixed-point angle from 0 to π/2. -/
def fxCos (x : Nat) : Nat := (trigSum (fxMul x x) 60 0 fxOne false 0).toNat

/-- What the series may be wrong by, in units of the last place. -/
def fxErr : Nat := 2 ^ 24

/-! ## Brackets -/

/-- The magnitude of m × 2^e rounded toward zero to a format, as a code that may pass the largest finite one, and whether
it is exact. -/
def floorCode (f : Fmt) (m : Nat) (e : Int) : Nat × Bool :=
  if m = 0 then (0, true)
  else
    let top : Int := e + bitLen m - 1
    let lsb : Int := max top (1 - (f.bias : Int)) - f.mb
    let s := shiftTo m e lsb
    let q := s.1 / 2 ^ s.2
    (if q < 2 ^ f.mb then q else ((lsb + f.mb + f.bias).toNat - 1) * 2 ^ f.mb + q, s.1 % 2 ^ s.2 == 0)

/-- One of the two neighbours of an exact result that is not representable, and that the format's code `lo` is the next
below in magnitude (R62): NX, and UF where the result is tiny; FTZ flushes a subnormal result (R57); a choice above the
largest finite value is an overflow (R56). -/
def neighbour (f : Fmt) (v : Env) (fn arg : Nat) (neg : Bool) (lo : Nat) : Res :=
  let code := if f.maxc ≤ lo then f.maxc + 1 - (if lo = f.maxc && !Config.upperNeighbour fn arg then 1 else 0)
    else if Config.upperNeighbour fn arg then lo + 1 else lo
  if f.maxc < code then ⟨overflow f v neg, flagOF ||| flagNX⟩
  else if v.ftz && f.ftz && decide (code < 2 ^ f.mb) && code != 0 then ⟨f.sign neg, flagUF ||| flagNX⟩
  else ⟨f.sign neg + code, flagNX ||| flagIf (decide (code < 2 ^ f.mb)) flagUF⟩

/-- The result of a function whose exact value is ±(m, and a little more with `sticky`) × 2^e: the value itself where it is
representable, one of its two neighbours otherwise (R62). -/
def bracket (f : Fmt) (v : Env) (fn arg : Nat) (neg : Bool) (m : Nat) (e : Int) (sticky : Bool) : Res :=
  let r := floorCode f m e
  if r.2 && !sticky then fround f v neg m e false else neighbour f v fn arg neg r.1

/-- A series result: `x` is within `fxErr` of the exact irrational value times 2^(−e). -/
def bracketFx (f : Fmt) (v : Env) (fn arg : Nat) (neg : Bool) (x : Nat) (e : Int) : Res :=
  neighbour f v fn arg neg (floorCode f (x - fxErr) e).1

/-- The functions that R62 names. -/
inductive Fn where
  | rcp | rsq | exp2 | log2 | sin | cos
  deriving DecidableEq, Repr
/-- The number of a function in `Config.upperNeighbour`. -/
def Fn.no : Fn → Nat
  | .rcp => 0 | .rsq => 1 | .exp2 => 2 | .log2 => 3 | .sin => 4 | .cos => 5

/-- `rcp` of a value (R62, R63). -/
def rcpVal (f : Fmt) (v : Env) (x : Nat) : FVal → Res
  | .nan s => ⟨f.cnan, flagIf s flagNV⟩
  | .inf n => .pure (f.sign n)
  | .fin n m e =>
    if m = 0 then ⟨f.sign n + f.infc, flagDZ⟩
    else
      let k := f.mb + 4 + bitLen m
      bracket f v Fn.rcp.no x n (2 ^ k / m) (-(k : Int) - e) (2 ^ k % m != 0)

/-- `rsq` of a value (R62, R63): 1 / √x by the root of 2^2k / m. -/
def rsqVal (f : Fmt) (v : Env) (x : Nat) : FVal → Res
  | .nan s => ⟨f.cnan, flagIf s flagNV⟩
  | .inf n => if n then ⟨f.cnan, flagNV⟩ else .pure 0
  | .fin n m e =>
    if m = 0 then ⟨f.sign n + f.infc, flagDZ⟩
    else if n then ⟨f.cnan, flagNV⟩
    else
      let p := if e % 2 = 0 then (m, e) else (m * 2, e - 1)
      let k := f.mb + 4 + bitLen p.1
      let q := 2 ^ (2 * k) / p.1
      let r := isqrt q
      bracket f v Fn.rsq.no x false r (-(k : Int) - p.2 / 2) (r * r * p.1 != 2 ^ (2 * k))

/-- `exp2` of a value in f32 (R62, R63). -/
def exp2Val (v : Env) (x : Nat) : FVal → Res
  | .nan s => ⟨fmtF32.cnan, flagIf s flagNV⟩
  | .inf n => .pure (if n then 0 else fmtF32.infc)
  | .fin n m e =>
    let s := shiftTo m e 0
    let ip := s.1 / 2 ^ s.2
    if s.1 % 2 ^ s.2 = 0 then
      bracket fmtF32 v Fn.exp2.no x false 1 (if n then -(min ip 400 : Nat) else (min ip 400 : Nat)) false
    else if 2 ^ 12 ≤ ip then
      (if n then neighbour fmtF32 v Fn.exp2.no x false 0 else ⟨overflow fmtF32 v false, flagOF ||| flagNX⟩)
    else
      let fx : Nat := (if fxBits ≤ s.2 then s.1 / 2 ^ (s.2 - fxBits) else s.1 * 2 ^ (fxBits - s.2)) % fxOne
      let fr := if n then fxOne - fx else fx
      let i : Int := if n then -(ip : Int) - 1 else ip
      bracketFx fmtF32 v Fn.exp2.no x false (fxExp (fxMul fr fxLn2)) (i - fxBits)

/-- `log2` of a value in f32 (R62, R63). -/
def log2Val (v : Env) (x : Nat) : FVal → Res
  | .nan s => ⟨fmtF32.cnan, flagIf s flagNV⟩
  | .inf n => if n then ⟨fmtF32.cnan, flagNV⟩ else .pure fmtF32.infc
  | .fin n m e =>
    if m = 0 then ⟨fmtF32.sign true + fmtF32.infc, flagDZ⟩
    else if n then ⟨fmtF32.cnan, flagNV⟩
    else
      let b := bitLen m - 1
      let i : Int := e + b
      if m = 2 ^ b then fround fmtF32 v (decide (i < 0)) i.natAbs 0 false
      else
        let z := (m - 2 ^ b) * fxOne / (m + 2 ^ b)
        let l := 2 * fxAtanh z * fxOne / fxLn2
        let y : Int := i * fxOne + l
        bracketFx fmtF32 v Fn.log2.no x (decide (y < 0)) y.natAbs (-(fxBits : Int))

/-- x mod 1 in fixed point, of the magnitude m × 2^e (R62: turns). -/
def turnFrac (m : Nat) (e : Int) : Nat :=
  let s := shiftTo m e (-(fxBits : Int))
  s.1 / 2 ^ s.2 % fxOne

/-- `sin` of a value in f32 (R62, R63). -/
def sinVal (v : Env) (x : Nat) : FVal → Res
  | .nan s => ⟨fmtF32.cnan, flagIf s flagNV⟩
  | .inf _ => ⟨fmtF32.cnan, flagNV⟩
  | .fin n m e =>
    let t := turnFrac m e
    let q := fxOne / 4
    if m = 0 then .pure (fmtF32.sign n)
    else if t % q = 0 then
      let k := t / q
      if k % 2 = 0 then .pure 0 else .pure (fmtF32.sign ((k == 3) != n) + 127 * 2 ^ 23)
    else
      let half := decide (2 * q < t)
      let u := if half then t - 2 * q else t
      let w := if q < u then 2 * q - u else u
      let y := if q / 2 < w then fxCos (fxMul (q - w) fxTwoPi) else fxSin (fxMul w fxTwoPi)
      bracketFx fmtF32 v Fn.sin.no x (half != n) y (-(fxBits : Int))

/-- `cos` of a value in f32 (R62, R63). -/
def cosVal (v : Env) (x : Nat) : FVal → Res
  | .nan s => ⟨fmtF32.cnan, flagIf s flagNV⟩
  | .inf _ => ⟨fmtF32.cnan, flagNV⟩
  | .fin _ m e =>
    let t := turnFrac m e
    let q := fxOne / 4
    if t % q = 0 then
      let k := t / q
      if k % 2 = 1 then .pure 0 else .pure (fmtF32.sign (k == 2) + 127 * 2 ^ 23)
    else
      let u := if 2 * q < t then 4 * q - t else t
      let neg := decide (q < u)
      let w := if neg then 2 * q - u else u
      let y := if q / 2 < w then fxSin (fxMul (q - w) fxTwoPi) else fxCos (fxMul w fxTwoPi)
      bracketFx fmtF32 v Fn.cos.no x neg y (-(fxBits : Int))

/-- A positive result that has overflowed takes the value that R56 gives under the rounding mode. -/
def Res.overflowed (f : Fmt) (v : Env) (r : Res) : Res := if r.flags &&& flagOF = 0 then r else ⟨overflow f v false, r.flags⟩

/-- The functions in f32, or `rcp` and `rsq` in f64, of a value read from code `x`. They ignore RND (R62): an `rcp` that overflows goes
to the infinity, or with SAT to the largest finite value. The overflow of `exp2` follows R56, by RND as well (R63). -/
def fnVal (f : Fmt) (v : Env) (fn : Fn) (x : Nat) (y : FVal) : Res :=
  let w := { v with rnd := .rne }
  match fn with
  | .rcp => rcpVal f w x y
  | .rsq => rsqVal f w x y
  | .exp2 => (exp2Val w x y).overflowed fmtF32 v
  | .log2 => log2Val w x y
  | .sin => sinVal w x y
  | .cos => cosVal w x y

/-- One element of a function (R62): in f32 and f64 directly; in f16 and bf16 the f32 result is rounded once by RND. -/
def fnElem (f : Fmt) (v : Env) (fn : Fn) (x : Nat) : Res :=
  if f = fmtF16 || f = fmtBF16 then
    let r := fnVal fmtF32 { v with ftz := false } fn (fltToFlt Env.plain fmtF32 (fread f v.ftz x)).val (fread f v.ftz x)
    (fltToFlt v f (fread fmtF32 false r.val)).also r.flags
  else fnVal f v fn x (fread f v.ftz x)

end Sys2Proof.Machine
end

