-- ==== Sys2Proof/Machine/Operands.lean ====
section
/-! DEFINITION. Every operand form (spec/03_encoding.md R32, R35 to R39, spec/05_instructions_core.md R71,
spec/06_instructions_memory.md R117): values of sources in a lane, registers that an operand spans, and the checks on them. -/
namespace Sys2Proof.Machine

/-! ## Registers that an operand spans -/

/-- A lane register operand: the register or index register it names, the registers it spans in each lane, and whether it
is 64 bits wide, so that its first register must be even (R38, R39). -/
structure VRef where
  reg  : Dst
  n    : Nat
  even : Bool
  deriving DecidableEq, Repr

/-- The first register of an operand in a lane (R38): an indexed code names window base + index. -/
def VRef.first (r : VRef) (f : Frame) (l : Nat) : Nat :=
  match r.reg with
  | .v v => v.val
  | .idx x => (f.regs.window x.val).base + (f.regs.xget x.val l).toNat
/-- The span lies within v0 to v191 and a pair starts even (R39); an indexed code is checked lane by lane. -/
def VRef.legal (r : VRef) : Bool :=
  match r.reg with
  | .v v => decide (v.val + r.n ≤ 192) && (!r.even || v.val % 2 == 0)
  | .idx _ => true
/-- A lane's index is in its window, and even for a 64-bit operand (R38). A lane whose span would pass v191 raises REGINDEX too:
R39 names no fault for an indexed code, and this is the model's choice (log 102). -/
def VRef.laneOk (r : VRef) (f : Frame) (l : Nat) : Bool :=
  match r.reg with
  | .v _ => true
  | .idx x => decide ((f.regs.xget x.val l).toNat < (f.regs.window x.val).len)
      && decide (r.first f l + r.n ≤ 192) && (!r.even || r.first f l % 2 == 0)
/-- The registers of an operand in a lane. -/
def VRef.regsAt (r : VRef) (f : Frame) (l : Nat) : List Nat := (List.range r.n).map fun i => r.first f l + i
/-- The registers of an operand over the lanes of a list; a lane whose index is out of its window names none (R38, R159). -/
def VRef.keys (r : VRef) (f : Frame) (ls : List Nat) : List RegKey :=
  match r.reg with
  | .v v => (List.range r.n).map fun i => .v (v.val + i)
  | .idx _ => (((ls.filter (r.laneOk f)).flatMap fun l => r.regsAt f l).eraseDups).map .v

/-- The registers of a lane source, `n` of them, in pairs where `even`. -/
def srcVRefs (a : Src) (n : Nat) (even : Bool) : List VRef :=
  match a with
  | .v r => [⟨.v r, n, even⟩] | .idx x => [⟨.idx x, n, even⟩]
  | .s _ => [] | .lane => [] | .team => [] | .core => [] | .clock => [] | .konst _ => [] | .lit _ => [] | .lit64 _ => []
/-- The uniform registers of a lane source. -/
def srcURegs : Src → List Nat
  | .s r => [r.val]
  | .v _ => [] | .idx _ => [] | .lane => [] | .team => [] | .core => [] | .clock => [] | .konst _ => [] | .lit _ => []
  | .lit64 _ => []
/-- The uniform registers of a uniform source. -/
def usrcURegs : USrc → List Nat
  | .s r => [r.val] | .team => [] | .core => [] | .clock => [] | .konst _ => [] | .lit _ => [] | .lit64 _ => []
/-- The uniform registers of a count operand. -/
def cntURegs : Cnt → List Nat
  | .s r => [r.val] | .konst _ => [] | .lit _ => [] | .lit64 _ => []
/-- A two-word literal fills only a 64-bit operand (R32). -/
def srcLitOk (a : Src) (wide : Bool) : Bool :=
  match a with
  | .lit64 _ => wide
  | .v _ => true | .s _ => true | .idx _ => true | .lane => true | .team => true | .core => true | .clock => true
  | .konst _ => true | .lit _ => true
/-- The operand of a lane source is a register of the lanes. -/
def srcIsV : Src → Bool
  | .v _ => true | .idx _ => true
  | .s _ => false | .lane => false | .team => false | .core => false | .clock => false | .konst _ => false | .lit _ => false
  | .lit64 _ => false

/-! ## Values -/

/-- The registers from `r` of lane `l` as one number, the first register lowest (R39). -/
def laneNat (g : Regs) (l : Nat) : Nat → Nat → Nat
  | _, 0 => 0
  | r, n + 1 => (g.vget r l).toNat + 2 ^ 32 * laneNat g l (r + 1) n

/-- A 32-bit literal in a 64-bit element (R32): sign-extended for i64, zero-extended for uint64, widened for f64. -/
def litWide (t : Ty) (w : W32) : Nat :=
  if t = .f64 then widenF32 w.toNat else if t = .u64 then w.toNat else (sext64 w).toNat

/-- The register image of a lane source in a lane, for an element of type `t` (R32, R37, R71). -/
def srcVal (f : Frame) (t : Ty) (a : Src) (l : Nat) : Nat :=
  match a with
  | .v r => laneNat f.regs l r.val t.regs
  | .idx x => laneNat f.regs l ((⟨.idx x, t.regs, t.wide⟩ : VRef).first f l) t.regs
  | .s r => if t.wide then (f.regs.uget r.val).toNat else (f.regs.uget r.val).toNat % 2 ^ 32
  | .lane => l
  | .team => f.team
  | .core => f.core
  | .clock => if t.wide then f.clock.toNat else f.clock.toNat % 2 ^ 32
  | .konst n => konstImage t n
  | .lit w => if t.wide then litWide t w else w.toNat
  | .lit64 w => w.toNat

/-- The register image of a lane source after the first `i` registers of a longer span, for an element of type `t`. -/
def srcValAt (f : Frame) (t : Ty) (a : Src) (l i : Nat) : Nat :=
  match a with
  | .v r => laneNat f.regs l (r.val + i) t.regs
  | .idx x => laneNat f.regs l ((⟨.idx x, 1, false⟩ : VRef).first f l + i) t.regs
  | _ => srcVal f t a l

/-- The value of a uniform source (R32, R35, R37). -/
def usrcVal (f : Frame) (a : USrc) : W64 :=
  match a with
  | .s r => f.regs.uget r.val
  | .team => BitVec.ofNat 64 f.team
  | .core => BitVec.ofNat 64 f.core
  | .clock => f.clock
  | .konst n => konst64 n
  | .lit w => sext64 w
  | .lit64 w => w
/-- The value of a count operand (R34). -/
def cntVal (f : Frame) (a : Cnt) : W64 :=
  match a with
  | .s r => f.regs.uget r.val | .konst n => konst64 n | .lit w => sext64 w | .lit64 w => w
/-- The address of `acld` as a uniform source (R36). -/
def asrcToU : ASrc → USrc
  | .s r => .s r | .lit w => .lit w | .lit64 w => .lit64 w

/-- Writes of one register image of `n` registers into a lane, from the register `r`. -/
def laneWrites (l : Nat) : Nat → Nat → Nat → List (Nat × W32)
  | _, 0, _ => []
  | r, n + 1, x => (vKey r l, BitVec.ofNat 32 (x % 2 ^ 32)) :: laneWrites l (r + 1) n (x / 2 ^ 32)

/-- The writes of one lane to a destination of `n` registers. -/
def dstWrites (f : Frame) (d : Dst) (n : Nat) (l x : Nat) : List (Nat × W32) :=
  laneWrites l ((⟨d, n, false⟩ : VRef).first f l) n x

/-! ## Addresses (R117) -/

/-- The registers of a 64-bit address operand. -/
def baseVRefs (a : Base) (wide : Bool) : List VRef :=
  match a with
  | .v r => [⟨.v r, if wide then 2 else 1, wide⟩]
  | .idx x => [⟨.idx x, if wide then 2 else 1, wide⟩]
  | .s _ => []
/-- The uniform register of an address operand. -/
def baseURegs : Base → List Nat
  | .s r => [r.val] | .v _ => [] | .idx _ => []
/-- The offset of an M-format word (R117). -/
def offVal (o : Offset) : W64 :=
  match o with
  | some w => sext64 w
  | none => 0
/-- A lane's global address: the pair or the uniform value plus the offset, modulo 2⁶⁴ (R117). -/
def baseAddr (f : Frame) (a : Base) (o : Offset) (l : Nat) : W64 :=
  offVal o + match a with
    | .v r => BitVec.ofNat 64 (laneNat f.regs l r.val 2)
    | .idx x => BitVec.ofNat 64 (laneNat f.regs l ((⟨.idx x, 2, true⟩ : VRef).first f l) 2)
    | .s r => f.regs.uget r.val
/-- A lane's scratchpad offset: the 32-bit register or the low half of the uniform value plus the offset, modulo 2³²
(R117). -/
def baseOff (f : Frame) (a : Base) (o : Offset) (l : Nat) : Nat :=
  let b := match a with
    | .v r => (f.regs.vget r.val l).toNat
    | .idx x => (f.regs.vget ((⟨.idx x, 1, false⟩ : VRef).first f l) l).toNat
    | .s r => (f.regs.uget r.val).toNat % 2 ^ 32
  (b + (offVal o).toNat) % 2 ^ 32

end Sys2Proof.Machine
end

