-- ==== Sys2Proof/Machine/Cells.lean ====
section
/-! DEFINITION. Lattice descriptors and what they address: dimensions, cells, corners, entries and shadows
(spec/11_lattice_access.md R206 to R214). -/
namespace Sys2Proof.Machine

/-! ## Descriptors (R208, R209) -/

/-- One dimension of a descriptor. -/
structure Dim where
  edge   : Nat
  pad    : Nat
  size   : Nat
  origin : Nat
  inv    : Nat
  deriving DecidableEq, Repr

/-- A descriptor (R208): its fields, `dims` the used dimensions, `channels` C. -/
structure Lat where
  base     : W64
  kind     : Nat
  etype    : Nat
  channels : Nat
  order    : Nat
  smode    : Nat
  shadow   : W64
  hlog     : Nat
  elo      : Int
  dims     : List Dim
  deriving DecidableEq, Repr

/-- The 32-bit word at a byte offset of a descriptor. -/
def latWord (d : BitVec 512) (off : Nat) : Nat := d.toNat / 2 ^ (8 * off) % 2 ^ 32
/-- A 55-bit address sign-extended (R208). -/
def ext55 (x : Nat) : W64 := BitVec.ofInt 64 (sx 55 x)
/-- Dimension k of a descriptor (R208). -/
def latDim (d : BitVec 512) (k : Nat) : Dim :=
  let w := latWord d (16 + 12 * k)
  ⟨w / 2 ^ 30, w / 2 ^ 24 % 2 ^ 6, w % 2 ^ 24, latWord d (20 + 12 * k), latWord d (24 + 12 * k)⟩
/-- The fields of a descriptor (R208). -/
def latOf (d : BitVec 512) : Lat :=
  let a := d.toNat % 2 ^ 64
  let b := d.toNat / 2 ^ 64 % 2 ^ 64
  { base := ext55 (a / 2 ^ 15 * 2 ^ 6)
    kind := a / 2 ^ 13 % 4
    etype := a / 2 ^ 9 % 4
    channels := a / 2 ^ 6 % 8 + 1
    order := a / 2 ^ 4 % 4
    smode := a / 2 ^ 2 % 4
    shadow := ext55 (b / 2 ^ 13 * 2 ^ 4)
    hlog := b / 2 ^ 8 % 2 ^ 5
    elo := sx 8 (b % 2 ^ 8)
    dims := (List.range (a / 2 ^ 11 % 4 + 1)).map (latDim d) }

/-- The number of dimensions. -/
def Lat.n (l : Lat) : Nat := l.dims.length
/-- A f32 word is finite. -/
def finite32 (x : Nat) : Bool := x / 2 ^ 23 % 2 ^ 8 != 255

/-- A descriptor passes the checks of R209. -/
def latOk (d : BitVec 512) : Bool :=
  let l := latOf d
  let hashed := l.kind == 1
  l.kind != 3 && l.order != 2 && l.smode != 3 && d.toNat % 4 == 0
    && (l.kind != 2 || l.n == 1)
    && (if hashed then
          (List.range l.n).all (fun k => latWord d (16 + 12 * k) == 0) && decide (10 ≤ l.hlog) && decide (l.hlog ≤ 24)
        else l.dims.all (fun x => x.size != 0) && (l.dims.head?.map (·.pad)).getD 0 == 0 && l.hlog == 0)
    && l.dims.all (fun x => finite32 x.origin && finite32 x.inv)
    && (List.range 4).all (fun k => decide (k < l.n) ||
        (latWord d (16 + 12 * k) == 0 && latWord d (20 + 12 * k) == 0 && latWord d (24 + 12 * k) == 0))
    && (l.shadow != 0) == (l.smode == 1)
    && (l.smode != 0 || l.elo == 0)
    && (l.smode != 2 || l.etype == 0)

/-- The float format of an entry element (R208). -/
def latFmt (etype : Nat) : Fmt :=
  if etype = 0 then fmtF32 else if etype = 1 then fmtF16 else if etype = 2 then fmtBF16 else fmtE4M3
/-- The bytes of an entry element. -/
def latSize (etype : Nat) : Nat := if etype = 0 then 4 else if etype = 3 then 1 else 2
/-- The bytes of an entry. -/
def Lat.entry (l : Lat) : Nat := l.channels * latSize l.etype

/-! ## Arithmetic in f32 by rne (R211, R214, R216) -/

/-- A f32 word as a value. -/
def val32 (x : Nat) : FVal := fread fmtF32 false x
/-- A value rounded to f32 by rne. -/
def rne32 (v : FVal) : Nat := (fput fmtF32 Env.plain v).val
/-- RNE32(a × b + c). -/
def step32 (a b c : Nat) : Nat := rne32 (fmaVal .rne false (val32 c) (val32 a) (val32 b))
/-- The quotient of an integer and a positive number rounded to f32 by rne. -/
def quot32 (x : Int) (n : Nat) : Nat := if x = 0 then 0 else (fratio fmtF32 Env.plain (decide (x < 0)) x.natAbs n 0).val

/-! ## Cells and corners (R211 to R214) -/

/-- The cell of one dimension: index i and fraction q; none where the coordinate or u is not finite (R211). -/
def cellOf (d : Dim) (x : Nat) : Option (Int × Nat) :=
  let t := rne32 ((val32 x).add .rne (val32 d.origin).neg)
  let u := rne32 ((val32 t).mul (val32 d.inv))
  if !(finite32 x && finite32 t && finite32 u) then none
  else match val32 u with
    | .fin neg m e =>
      let k := (-e).toNat
      let v : Int := if neg then -((m * 2 ^ e.toNat : Nat) : Int) else ((m * 2 ^ e.toNat : Nat) : Int)
      let i := Int.fdiv v (2 ^ k : Nat)
      let q := roundMag .rne false ((v - i * (2 ^ k : Nat)).toNat * 65536) k false
      some (if q = 65536 then (i + 1, 0) else (i, q))
    | .inf _ => none
    | .nan _ => none

/-- One offset of a dimension with its weight A and derivative D (R214). -/
structure Tap where
  off : Int
  a   : Nat
  d   : Int
  deriving DecidableEq, Repr

/-- The offsets, weights and derivatives of an order (R214). -/
def tapsOf (order q : Nat) : List Tap :=
  let z : Nat := 65536
  let qi : Int := q
  let zi : Int := z
  if order = 0 then [⟨if q < 32768 then 0 else 1, 1, 0⟩]
  else if order = 1 then [⟨0, z - q, -1⟩, ⟨1, q, 1⟩]
  else
    [⟨-1, (z - q) ^ 3, -((z - q) ^ 2 : Nat)⟩,
     ⟨0, 3 * q ^ 3 + 4 * z ^ 3 - 6 * q ^ 2 * z, 3 * qi ^ 2 - 4 * qi * zi⟩,
     ⟨1, 3 * q ^ 2 * z + 3 * q * z ^ 2 + z ^ 3 - 3 * q ^ 3, -3 * qi ^ 2 + 2 * qi * zi + zi ^ 2⟩,
     ⟨2, q ^ 3, qi ^ 2⟩]
/-- The denominators S and S′ (R214). -/
def denoms (order : Nat) : Nat × Nat :=
  if order = 0 then (1, 1) else if order = 1 then (65536, 1) else (6 * 65536 ^ 3, 2 * 65536 ^ 2)

/-- All combinations of one element of each list, the first list fastest (R214). -/
def combos {α : Type} : List (List α) → List (List α)
  | [] => [[]]
  | d :: ds => (combos ds).flatMap fun r => d.map fun x => x :: r

/-- The weight w_o of a corner (R214). -/
def weight (l : Lat) (o : List Tap) : Nat :=
  quot32 ((o.map (·.a)).foldl (· * ·) 1 : Nat) ((denoms l.order).1 ^ l.n)
/-- The derivative weight dw_{o,k} of a corner (R214). -/
def dweight (l : Lat) (o : List Tap) (k : Nat) : Nat :=
  let rest := ((o.zipIdx.filter fun t => t.2 != k).map fun t => t.1.a).foldl (· * ·) 1
  quot32 ((o.getD k ⟨0, 0, 0⟩).d * (rest : Nat)) ((denoms l.order).2 * (denoms l.order).1 ^ (l.n - 1))

/-- An index folded by the edge of its dimension (R212); none out of range. -/
def foldIdx (d : Dim) (j : Int) : Option Nat :=
  let n : Int := d.size
  if d.edge = 0 then some (min (max j 0) (n - 1)).toNat
  else if d.edge = 1 then some (j % n).toNat
  else if d.edge = 2 then
    let m := j % (2 * n)
    some (if m < n then m else 2 * n - 1 - m).toNat
  else if 0 ≤ j ∧ j < n then some j.toNat else none

/-- The factors H_k of a hashed grid (R213). -/
def hashFactor (k : Nat) : Nat := [0x2F6B1D3B, 0x6A09C2E5, 0xB3D14A7F, 0x5C8E03B9].getD k 0

/-- An entry: its linear index, which its shadow uses, and its address (R210, R213). -/
structure Ent where
  lin  : Nat
  addr : W64
  deriving DecidableEq, Repr

/-- The linear index and the byte offset of folded indices of a dense grid (R210): dimension by dimension, with the count of
entries and the stride so far. -/
def denseAt (l : Lat) : List (Nat × Dim) → Nat → Nat → Nat → Nat → Nat × Nat
  | [], lin, off, _, _ => (lin, off)
  | (j, d) :: r, lin, off, cnt, stride =>
    denseAt l r (lin + j * cnt) (off + j * stride) (cnt * d.size)
      (stride * d.size + ((r.head?).map fun x => x.2.pad).getD 0 * l.entry)
/-- The entry of a corner at integer indices; none out of range (R210, R212, R213). -/
def entryAt (l : Lat) (js : List Int) : Option Ent :=
  if l.kind = 1 then
    let h := (js.zipIdx.map fun j => ux 32 j.1 * hashFactor j.2 % 2 ^ 32).foldl (· ^^^ ·) 0 % 2 ^ l.hlog
    some ⟨h, l.base + BitVec.ofNat 64 (h * l.entry)⟩
  else
    let fs := (js.zip l.dims).map fun x => (foldIdx x.2 x.1).map fun f => (f, x.2)
    if fs.any Option.isNone then none
    else
      let r := denseAt l (fs.filterMap id) 0 0 1 l.entry
      some ⟨r.1, l.base + BitVec.ofNat 64 r.2⟩
/-- The address of the shadow of channel c of an entry (R210). -/
def shadowAddr (l : Lat) (lin c : Nat) : W64 := l.shadow + BitVec.ofNat 64 ((lin * l.channels + c) * 16)

/-- A corner of a lane's cell: its entry, if in range, and its taps. -/
structure Corner where
  ent  : Option Ent
  taps : List Tap
  deriving DecidableEq, Repr

/-- The corners of a lane's cell in lexicographic order (R211 to R214); none where the coordinates raise LATTICE. -/
def cornersOf (l : Lat) (f : Frame) (crd lane : Nat) : Option (List Corner) :=
  let cells := l.dims.zipIdx.map fun d => cellOf d.1 (f.regs.vget (crd + d.2) lane).toNat
  if cells.any Option.isNone then none
  else
    let cs := cells.filterMap id
    some ((combos (cs.map fun c => tapsOf l.order c.2)).map fun o =>
      ⟨entryAt l ((cs.zip o).map fun x => x.1.1 + x.2.off), o⟩)

/-- The descriptor of a slot as an instruction captured it (R206). -/
def slotOf (f : Frame) (n : Fin 16) : Option (BitVec 512) := (f.lats[n.val]?).bind id

/-- The number of dimensions and of channels that a slot's spans use; 1 and 1 for an empty one. -/
def latShape (f : Frame) (lat : Fin 16) : Nat × Nat :=
  match slotOf f lat with
  | some x => ((latOf x).n, (latOf x).channels)
  | none => (1, 1)

/-- The bytes that a lattice access of one lane touches: the entries of its corners in range (R216), and for an EXACT `spl` their
shadows (R218). -/
def latSpans (f : Frame) (crd : Nat) (lat : Fin 16) (shadows : Bool) (lane : Nat) : List (W64 × Nat) :=
  match slotOf f lat with
  | none => []
  | some x =>
    let l := latOf x
    ((cornersOf l f crd lane).getD []).flatMap fun k => match k.ent with
      | none => []
      | some e => (e.addr, l.entry) :: (if shadows && l.smode = 1 then [(shadowAddr l e.lin 0, 16 * l.channels)] else [])

end Sys2Proof.Machine
end

