-- ==== Sys2Proof/Machine/Issue.lean ====
section
/-! DEFINITION. Issue, parking and deferring (spec/07_issue_and_deferring.md): what an instruction reads and writes as a
`Job`, its passes, the choice between issuing, parking and deferring it, residues, and the delivery of values. -/
namespace Sys2Proof.Machine

/-! ## Jobs -/

/-- One lane's access as a comparator sees it (R355): lane, first byte, bytes, whether it loads and stores. -/
structure Touch where
  lane : Nat
  va   : W64
  size : Nat
  rd   : Bool
  wr   : Bool
  deriving DecidableEq, Repr

/-- What acting gives: the state with the effects outside the team's registers, the writes to them, the bytes of an access
that still have holes with the fabric requests that fill them, and what was touched; or a fault without effect; or a wait. -/
inductive Act where
  | done (s : State) (w : Writes) (bytes : List PByte) (need : List Nat) (acc : List Touch)
  | fault (s : State) (f : FaultInfo)
  | wait (s : State) (w : Wake)

/-- What issue needs of an instruction: its issue-time checks (R48), one for ILLEGAL and one that names another fault with the
lanes that take it, and the registers that they read; the registers, uniform registers and predicates it reads and writes, and the
lanes whose lane registers it reads where some lanes take part, or might read while a uniform register that it reads has no value; whether the guard is an input and, where it is not, the lanes it
concerns; whether it defers (R73, R148) and is variable-latency, its stream, its base passes for each mask word (R153), its action,
the writes that the bytes of its access give, and the number of the tile write that it waits for (R247). -/
structure Job where
  ok      : Frame → Bool
  check   : Frame → Option Byte := fun _ => none
  hit     : Frame → Mask := fun f => f.mask
  okKeys  : List RegKey := []
  vreads  : List VRef := []
  reach   : Frame → List Nat → List Nat := fun _ ls => ls
  might   : Frame → List Nat → List Nat := reach
  ureads  : List Nat := []
  preads  : List Nat := []
  guarded : Bool := true
  lanes   : Frame → List Nat := fun f => f.on
  vwrites : List VRef := []
  uwrites : List Nat := []
  pwrites : List Nat := []
  defers  : Bool := true
  late    : Bool := false
  stream  : Option Nat := none
  cost    : Frame → List (Nat × Nat)
  run     : Here → Frame → State → Act
  fin     : Frame → List Byte → Writes := fun _ _ => Writes.none
  tile    : State → Here → Option W64 := fun _ _ => none

/-- One number of base passes for each non-empty mask word (R152, R153). -/
def perWord (n : Nat) (f : Frame) : List (Nat × Nat) := (wordsOfMask f.mask).map fun w => (w, n)
/-- The base passes of the plain lane instructions: 1, or 2 for 64-bit types (R153). -/
def plainCost (f : Frame) : List (Nat × Nat) := perWord f.mode.t.regs f
/-- One pass for the whole instruction (R152). -/
def uniCost (_ : Frame) : List (Nat × Nat) := onePass

/-- Writes and nothing else. -/
def Act.writes (s : State) (w : Writes) : Act := .done s w [] [] []

/-! ## Reads and passes -/

/-- Registers that a job reads, the guard among them (R158). -/
def Job.readKeys (j : Job) (f : Frame) (ls : List Nat) : List RegKey :=
  (if j.guarded && f.mode.g != 0 then [.p f.mode.g.val] else [])
    ++ (j.vreads.flatMap fun r => r.keys f (j.reach f ls)) ++ j.ureads.map .s ++ (j.preads.filter (· != 0)).map .p
/-- Registers that a job might read, whatever its uniform registers hold. -/
def Job.mightKeys (j : Job) (f : Frame) (ls : List Nat) : List RegKey := { j with reach := j.might }.readKeys f ls
/-- Registers whose values a job waits for under claims: where a uniform register that it reads is pending, all that it might read (R158,
R159). -/
def Job.waitKeys (j : Job) (cs : List Claim) (f : Frame) (ls : List Nat) : List RegKey :=
  if j.ureads.any fun u => isPending cs (.s u) then j.mightKeys f ls else j.readKeys f ls
/-- Registers that a job writes in the lanes of a list. -/
def Job.writeKeys (j : Job) (f : Frame) (ls : List Nat) : List RegKey :=
  (if ls.isEmpty then [] else j.vwrites.flatMap fun r => r.keys f ls) ++ j.uwrites.map .s
    ++ (if ls.isEmpty then [] else (j.pwrites.filter (· != 0)).map .p)
/-- The registers that a deferred job makes pending: every destination, an indexed one in the lanes of a list (R159). -/
def Job.destKeys (j : Job) (f : Frame) (ls : List Nat) : List RegKey :=
  (j.vwrites.flatMap fun r => r.keys f ls) ++ j.uwrites.map .s ++ (j.pwrites.filter (· != 0)).map .p
/-- The lanes of a list in which a job writes a register. -/
def Job.lanesAt (j : Job) (f : Frame) (ls : List Nat) (k : RegKey) : Mask :=
  match k with
  | .v _ => maskOf (ls.filter fun l => (j.writeKeys f [l]).contains k)
  | .s _ => BitVec.allOnes 1024
  | .p _ => maskOf ls
/-- Every lane that a job may concern, whatever its guard. -/
def Job.lanesAll (j : Job) (f : Frame) : List Nat := if j.guarded then lanesOf f.mask else j.lanes f
/-- The lanes that a job concerns: those that take part, or where the guard is not an input its own. -/
def Job.lanesIn (j : Job) (f : Frame) : List Nat := if j.guarded then f.on else j.lanes f
/-- The spans of a job's operands are well formed (R39). -/
def Job.spansOk (j : Job) : Bool := j.vreads.all VRef.legal && j.vwrites.all VRef.legal
/-- The lanes of a list whose index is out of its window (R38). -/
def Job.badLanes (j : Job) (f : Frame) (ls : List Nat) : List Nat :=
  ls.filter fun l => !(j.vreads.all fun r => r.laneOk f l) || !(j.vwrites.all fun r => r.laneOk f l)

/-- The largest number of distinct registers that one lane reads from one bank (R154), over the registers that `use`
keeps. -/
def laneBanks (rs : List VRef) (f : Frame) (use : Nat → Bool) (l : Nat) : Nat :=
  let regs := ((rs.flatMap fun r => r.regsAt f l).eraseDups).filter use
  ([0, 1, 2, 3].map fun b => (regs.filter fun r => r % 4 == b).length).foldl max 0
/-- The extra passes of a mask word (R154): those of its lane with the largest count. -/
def bankExtra (rs : List VRef) (f : Frame) (use : Nat → Bool) (w : Nat) : Nat :=
  (if rs.all fun r => match r.reg with
      | .v _ => true
      | .idx _ => false
    then (match lanesOf (f.part &&& wordMask w) with
      | [] => 0
      | l :: _ => laneBanks rs f use l)
    else ((lanesOf (f.part &&& wordMask w)).map fun l => laneBanks rs f use l).foldl max 0) - 1

/-- The passes of an instruction that issues: its base passes and the extra passes of its mask words (R152 to R154). That one word's passes
never exceed 32 (R151) fails for a `cvt` from a 64-bit type to tern16: the model adds its 7 bank passes to its 32 base passes (log 129). -/
def Job.passes (j : Job) (f : Frame) : List (Nat × Nat) :=
  if j.vreads.isEmpty then j.cost f else (j.cost f).map fun c => (c.1, c.2 + bankExtra j.vreads f (fun _ => true) c.1)
/-- The passes of a deferral (R159): one, and the extra passes of its ready reads. While the guard is pending they are counted over
the lanes that its value before would let take part: the model's choice (log 111). -/
def Job.deferPasses (j : Job) (f : Frame) (cs : List Claim) : List (Nat × Nat) :=
  (0, 1) :: (if j.vreads.isEmpty then [] else
    ((wordsOfMask f.mask).map fun w => (w, bankExtra j.vreads f (fun r => !isPending cs (.v r)) w)).filter fun c => c.2 != 0)

/-! ## Reads of outstanding registers in a group (R19) -/

/-- For each register read that is outstanding in the group, the old value or the new one, unspecified which (R19). -/
def groupReads (s : State) (tm : Team) (ks : List RegKey) : State × Regs :=
  ks.foldl (fun (sr : State × Regs) k =>
    (tm.claims.filter fun c => c.key = k && !c.pending).foldl (fun (sr : State × Regs) c =>
      match tm.inflight.find? fun a => a.id = c.id with
      | some a =>
        if a.ready && Config.freeBool sr.1.tick then (sr.1.bump, sr.2.apply ((a.writes.owned [c]).only k))
        else (sr.1.bump, sr.2)
      | none => sr) sr) (s, tm.regs)

/-! ## Streams (R162) -/

/-- The stream of an access. -/
def accStream : Instr → Option Nat
  | .ld _ _ _ _ str _ => some str.val | .st _ _ _ _ str _ => some str.val
  | .lds _ _ _ _ str _ => some str.val | .sts _ _ _ _ str _ => some str.val
  | .ldq _ _ _ _ str _ => some str.val | .stq _ _ _ _ str _ => some str.val
  | .atom _ _ _ _ str _ => some str.val | .atoms _ _ _ _ str _ => some str.val | .atomar _ _ _ _ str _ => some str.val
  | .cas _ _ _ _ str => some str.val | .uld _ _ _ _ str _ => some str.val | .ust _ _ _ _ str _ => some str.val
  | .pref _ _ _ str _ => some str.val | .ldi _ _ _ _ str _ => some str.val | .spl _ _ _ _ str _ => some str.val
  | _ => none

/-- The bytes of one lane's access of a form (R122). -/
def formBytes (t : Ty) : MemForm → Nat
  | .nat => t.bytes | .x2 => 2 * t.bytes | .x4 => 4 * t.bytes | .byte => 1 | .half => 2 | .sync => t.bytes
/-- The bytes of a uniform access (R127). -/
def uniBytes : MemForm → Nat
  | .byte => 1 | .half => 2 | .nat => 8 | .x2 => 8 | .x4 => 8 | .sync => 8

/-- The number by which two global lines are compared: the physical line, or the virtual one where nothing is mapped. -/
def lineKey (s : State) (h : Here) (va : W64) : Nat :=
  match walk s h.cx.ptroot.toNat va with
  | .ok l => leafPa l va / 128
  | .error _ => 2 ^ 60 + va.toNat / 128

/-- The lines that the bytes of one access touch; a window address is a scratchpad line (R118). -/
def globalLines (s : State) (h : Here) (va : W64) (n : Nat) : List Nat :=
  if inWindow va then
    let off := va.toNat % 2 ^ 24
    let core := h.core / 4 * 4 + (h.core % 4 + off / 2 ^ 22) % 4
    [2 ^ 61 + core * 2 ^ 22 + off % 2 ^ 22 / 128, 2 ^ 61 + core * 2 ^ 22 + (off % 2 ^ 22 + n - 1) / 128]
  else [lineKey s h va, lineKey s h (va + BitVec.ofNat 64 (n - 1))]
/-- The lines that the bytes of one scratchpad access touch (R119). -/
def spadLines (h : Here) (off n : Nat) : List Nat :=
  let core := h.core / 4 * 4 + (h.core % 4 + off / 2 ^ 22 % 4) % 4
  [2 ^ 61 + core * 2 ^ 22 + off % 2 ^ 22 / 128, 2 ^ 61 + core * 2 ^ 22 + (off % 2 ^ 22 + n - 1) / 128]

/-- The lines that an access touches in lanes of a list. -/
def accLines (s : State) (h : Here) (f : Frame) (ls : List Nat) (i : Instr) : List Nat :=
  let g (a : Base) (o : Offset) (n : Nat) := ls.flatMap fun l => globalLines s h (baseAddr f a o l) n
  let p (a : Base) (o : Offset) (n : Nat) := ls.flatMap fun l => spadLines h (baseOff f a o l) n
  let u (a : SReg) (o : Offset) (n : Nat) := globalLines s h (f.regs.uget a.val + offVal o) n
  let c (crd : Fin 128) (lat : Fin 16) (sh : Bool) :=
    (ls.flatMap (latSpans f crd.val lat sh)).flatMap fun x => globalLines s h x.1 x.2
  match i with
  | .ld _ _ a o _ m => g a o (formBytes f.mode.t m)
  | .st _ _ a o _ m => g a o (formBytes f.mode.t m)
  | .atom _ _ a o _ _ => g a o f.mode.t.bytes
  | .atomar _ _ a o _ _ => g a o f.mode.t.bytes
  | .cas _ _ a o _ => g a o f.mode.t.bytes
  | .pref _ a o _ _ => g a o 1
  | .uld _ _ a o _ m => u a o (uniBytes m)
  | .ust _ _ a o _ m => u a o (uniBytes m)
  | .lds _ _ a o _ m => p a o (formBytes f.mode.t m)
  | .sts _ _ a o _ m => p a o (formBytes f.mode.t m)
  | .ldq _ _ a o _ m => p a o (formBytes f.mode.t m)
  | .stq _ _ a o _ m => p a o (formBytes f.mode.t m)
  | .atoms _ _ a o _ _ => p a o f.mode.t.bytes
  | .ldi _ _ _ crd _ lat => c crd lat false
  | .spl _ _ _ crd _ lat => c crd lat true
  | _ => []

/-- The registers of an access's address operand (R162); a lattice access is addressed by its coordinates. -/
def accAddrKeys (f : Frame) (i : Instr) : List RegKey :=
  let b (a : Base) (wide : Bool) : List RegKey := ((baseVRefs a wide).flatMap fun r => r.keys f (lanesOf f.mask)) ++ (baseURegs a).map .s
  let c (crd : Fin 128) (lat : Fin 16) : List RegKey := (List.range (latShape f lat).1).map fun i => .v (crd.val + i)
  match i with
  | .ld _ _ a _ _ _ => b a true | .st _ _ a _ _ _ => b a true
  | .atom _ _ a _ _ _ => b a true | .atomar _ _ a _ _ _ => b a true | .cas _ _ a _ _ => b a true
  | .pref _ a _ _ _ => b a true
  | .uld _ _ a _ _ _ => [.s a.val] | .ust _ _ a _ _ _ => [.s a.val]
  | .lds _ _ a _ _ _ => b a false | .sts _ _ a _ _ _ => b a false
  | .ldq _ _ a _ _ _ => b a false | .stq _ _ a _ _ _ => b a false | .atoms _ _ a _ _ _ => b a false
  | .ldi _ _ _ crd _ lat => c crd lat | .spl _ _ _ crd _ lat => c crd lat
  | _ => []

/-- The lanes in which a residue may act: those that take part, or every active lane while its guard has not been delivered
(R159, log 12). -/
def Residue.lanesMay (r : Residue) : List Nat :=
  if r.waits.any fun w => w.key = .p r.frame.mode.g.val then lanesOf r.frame.mask else r.frame.on

/-- An access is deferred behind the team's earlier deferred accesses (R162): one of its stream, or one whose address has
not been delivered, or one that touches the same 128-byte line. -/
def chained (s : State) (h : Here) (f : Frame) (i : Instr) : Bool :=
  match accStream i with
  | none => false
  | some k =>
    h.tm.residues.any fun r =>
      match r.stream with
      | none => false
      | some k' =>
        k' == k
          || (accAddrKeys r.frame r.instr).any (fun a => r.waits.any fun w => w.key = a)
          || (accLines s h r.frame r.lanesMay r.instr).any fun x => (accLines s h f f.on i).contains x

/-! ## Comparators (R355, R356) -/

/-- ACTION, KIND and LOGSZ of a comparator. -/
def Comparator.action (c : Comparator) : Nat := c.ctl.toNat % 4
def Comparator.kind (c : Comparator) : Nat := c.ctl.toNat / 16 % 4
def Comparator.logsz (c : Comparator) : Nat := c.ctl.toNat / 256 % 16

/-- Some byte of an access lies in the comparator's granule (R355). -/
def Comparator.hits (c : Comparator) (va size : Nat) : Bool :=
  let g := 2 ^ c.logsz
  decide (va / g ≤ c.addr.toNat / g) && decide (c.addr.toNat / g ≤ (va + size - 1) / g)
/-- A data access matches (R355). -/
def Comparator.matchesTouch (c : Comparator) (t : Touch) : Bool :=
  ((c.kind == 1 && t.rd) || (c.kind == 2 && t.wr) || (c.kind == 3 && (t.rd || t.wr))) && c.hits t.va.toNat t.size
/-- The comparators, by number, that a condition picks. -/
def compNumbers (cs : List Comparator) (p : Comparator → Bool) : List Nat := (cs.zipIdx.filter fun c => p c.1).map (·.2)

/-- What the comparators see of the touches of an access (R355); a residue reports its saved mask in a record (R167), while a handler
runs in the lanes that matched (R313). -/
def seenBy (h : Here) (saved : Option Mask) (acc : List Touch) : Option Seen :=
  if acc.isEmpty || h.cx.comps.isEmpty then none
  else
    let halts := compNumbers h.cx.comps fun c => c.action == 2 && acc.any c.matchesTouch
    let hits := acc.filter fun t => h.cx.comps.any fun c => c.action == 1 && c.matchesTouch t
    let on := maskOf (hits.map (·.lane))
    let hit := hits.head?.map fun t => (⟨on, saved.getD on, t.va⟩ : Hit)
    if halts.isEmpty && hit.isNone then none else some ⟨halts, hit⟩

/-- A matching access has acted in every lane (R313, R356): a halt of the context, and WATCH, which resumes at the team's next
instruction. -/
def watch (s : State) (h : Here) (fpc : W64) (x : Option Seen) : State :=
  match x with
  | none => s
  | some y =>
    let s1 := haltBy s h.cx y.halts fpc 0
    match y.hit, s1.teams[h.t]? with
    | some x, some tm => takeFault s1 h tm (.plain 0x11 fpc (x.mask tm) x.addr) tm.pc
    | _, _ => s1

/-- What an access with unanswered requests keeps of what the comparators have seen, until it has acted in every lane. -/
def whileOpen (need : List Nat) (x : Option Seen) : Option Seen := if need.isEmpty then none else x
/-- What takes effect at once: the access has acted in every lane. -/
def onceActed (need : List Nat) (x : Option Seen) : Option Seen := if need.isEmpty then x else none

/-! ## Issuing -/

/-- A parking instruction that reads the registers of a list (R158): it waits until none is pending, and then goes on in
the frame that holds their values. -/
def reading (s : State) (h : Here) (ks : List RegKey) (k : State → Frame → Outcome State) : Outcome State :=
  whenReady s h ks <|
    let r := if h.tm.claims.isEmpty then (s, h.tm.regs) else groupReads s h.tm ks
    k r.1 { h.frame with regs := r.2 }

/-- The team as the state holds it, as it issues: running, with no earlier wait. -/
def teamNow (s : State) (h : Here) : Team := { (s.teams[h.t]?).getD h.tm with status := .running, before := none }

/-- The effects of an instruction that issues (R155, R161): fixed-latency writes act at once; a variable-latency access is
in flight until it lands, and one without a destination while its requests have no answer. -/
def settleWrites (i : Instr) (j : Job) (h : Here) (s : State) (tm : Team) (f : Frame) (w : Writes) (bytes : List PByte) (need : List Nat)
    (x : Option Seen) : State × Team :=
  let tm1 := { tm with nextId := tm.nextId + 1 }
  if j.late then
    let ls := j.lanesIn f
    launch s tm1 ⟨tm.nextId, i, f, j.stream, j.writeKeys f ls, bytes, w, need, [], [], j.tile s h, x⟩ (j.lanesAt f ls)
  else if need.isEmpty then writeNow s tm w
  else
    let r := writeNow s tm1 w
    launch r.1 r.2 ⟨tm.nextId, i, f, j.stream, [], bytes, Writes.none, need, [], [], none, x⟩ fun _ => 0

/-- An instruction whose inputs are ready issues in a frame (R150): the check of R38 in lanes of `ls`, its action, its writes,
its passes and marker. -/
def issueNow (i : Instr) (sw : Bool) (j : Job) (s : State) (h : Here) (f : Frame) (ls : List Nat) : Outcome State :=
  let bad := j.badLanes f ls
  if !bad.isEmpty then raise s h 0x03 (maskOf bad) 0
  else
    match j.run h f s with
    | .fault s1 fi => .next (takeFault s1 h (teamNow s1 h) fi h.tm.pc)
    | .wait s1 w => .next (park s1 h (teamNow s1 h) w)
    | .done s1 w bytes need acc =>
      let x := seenBy h none acc
      let r := settleWrites i j h s1 (teamNow s1 h) f w bytes need (whileOpen need x)
      .next (watch (endAt r.1 h sw (nextPc h.tm.pc (litWords i).length) (j.passes f) r.2) h h.tm.pc (onceActed need x))

/-- Deferral (R159): the residue is queued and every destination becomes pending. -/
def deferNow (i : Instr) (sw : Bool) (j : Job) (s : State) (h : Here) (f : Frame) (ls : List Nat) : Outcome State :=
  let ks := j.waitKeys h.tm.claims f ls
  let r : Residue := ⟨h.tm.nextId, i, f, accStream i, j.destKeys f ls, h.tm.claims.filter fun c => c.pending && ks.contains c.key⟩
  let tm := { h.tm with residues := h.tm.residues ++ [r], nextId := h.tm.nextId + 1
                        claims := h.tm.claims ++ r.dests.map fun k => ⟨k, r.id, true, 0, j.lanesAt f ls k⟩ }
  .next (endAt s h sw (nextPc h.tm.pc (litWords i).length) (j.deferPasses f h.tm.claims) tm)

/-- A deferral, or where no entry is free a residual stall or RESIDUE (R166). -/
def deferJob (i : Instr) (sw : Bool) (j : Job) (s : State) (h : Here) (f : Frame) (guardReady : Bool) (ls : List Nat)
    (pend : List RegKey) : Outcome State :=
  let bad := if guardReady then j.badLanes f ls else []
  if !bad.isEmpty then raise s h 0x03 (maskOf bad) 0
  else if h.tm.residues.length < h.tm.rescap then deferNow i sw j s h f ls
  else if h.tm.resflt then raise s h 0x0A h.tm.active 0
  else
    let tm := if h.tm.stalled then h.tm else { h.tm with resstall := h.tm.resstall + 1, stalled := true }
    .next (park s h tm (.entry pend))

/-- The team has parked at this instruction for an entry and owns one: it defers the instruction, whatever has landed
meanwhile (R166). -/
def mustDefer (tm : Team) : Bool := tm.stalled && tm.rescap != 0

/-- The checks of R48 on an instruction in a frame, and then the choice between issuing, deferring and parking it. -/
def issueIn (i : Instr) (sw : Bool) (j : Job) (s : State) (h : Here) (f : Frame) : Outcome State :=
  let guardReady := !(j.guarded && isPending h.tm.claims (.p f.mode.g.val))
  if !(j.ok f && j.spansOk) then illegal s h
  else match j.check f with
    | some code => raise s h code (if guardReady then j.hit f else h.tm.active) 0
    | none =>
      let ls := if guardReady then j.lanesIn f else lanesOf f.mask
      let pend := pendingOf h.tm.claims (j.waitKeys h.tm.claims f ls)
      if pend.isEmpty && !chained s h f i && !mustDefer h.tm then issueNow i sw j s h f ls
      else if j.defers && h.tm.mode.df then deferJob i sw j s h f guardReady ls pend
      else .next (park s h h.tm (.ready pend))

/-- Issues, parks or defers an instruction (R48, R150, R156 to R166). Of a register that is outstanding in its group it sees
one value throughout, old or new (R19). -/
def issueJob (i : Instr) (sw : Bool) (jf : Frame → Job) (s : State) : Outcome State :=
  onTeam s fun h =>
    let j := jf h.frame
    whenReady s h j.okKeys <|
      let r := if h.tm.claims.isEmpty then (s, h.tm.regs)
        else groupReads s h.tm (j.okKeys ++ j.mightKeys h.frame (j.lanesAll h.frame)).eraseDups
      let f := { h.frame with regs := r.2 }
      issueIn i sw (jf f) r.1 h f

/-! ## Delivery (R160, R161) -/

/-- The part of a set of writes to one register outside the lanes of `skip`. -/
def Writes.outside (w : Writes) (k : RegKey) (skip : Mask) : Writes :=
  match k with
  | .v n => { Writes.none with v := w.v.filter fun p => p.1 / 1024 = n && !skip.getLsbD (p.1 % 1024) }
  | .s n => { Writes.none with u := if skip = 0 then w.u.filter fun p => p.1 = n else [] }
  | .p n => { Writes.none with p := (w.p.filter fun p => p.1 = n).map fun p => (p.1, p.2.1 &&& ~~~skip, p.2.2) }

/-- Older claims on the registers written leave the written lanes to this younger value, which stands in program order. Of two
variable-latency writes of one group, `launch` has already chosen which value is left (R155). A deferred instruction that writes a
register which is outstanding in its own group leaves its own value there, of the two that R155 allows: the model's reading (log 89). -/
def skipOlder (cs : List Claim) (id : Nat) (w : Writes) : List Claim :=
  cs.map fun c => if c.id < id then { c with skip := c.skip ||| w.lanesAt c.key } else c

/-- The value of producer `id` delivered to a residue that references it. -/
def deliverTo (id : Nat) (w : Writes) (r : Residue) : Residue :=
  if r.waits.any fun c => c.id = id then
    let g := (r.waits.filter fun c => c.id = id).foldl (fun g c => Regs.apply g (w.outside c.key c.skip)) r.frame.regs
    { r with frame := { r.frame with regs := g }
             waits := skipOlder (r.waits.filter fun c => c.id != id) id (w.owned (r.waits.filter fun c => c.id = id)) }
  else r

/-- Producer `id` delivers its writes (R155, R160, R161): to the registers it still claims, to the residues that wait for
it, and its flags. -/
def deliver (tm : Team) (id : Nat) (w : Writes) : Team :=
  let mine := tm.claims.filter fun c => c.id = id
  { tm with regs := tm.regs.apply (w.owned mine)
            flags := tm.flags ||| w.flags
            claims := skipOlder (tm.claims.filter fun c => c.id != id) id (w.owned mine)
            residues := tm.residues.map (deliverTo id w) }

end Sys2Proof.Machine
end

