-- ==== Sys2Proof/Machine/Memory.lean ====
section
/-! DEFINITION. Access to memory by the lanes of a team (spec/06_instructions_memory.md R117 to R131, R365): the checks of
every lane, loads, stores and atomics on global memory and scratchpads, and what acquires and releases do. -/
namespace Sys2Proof.Machine

/-! ## Placing accesses -/

/-- One lane's access: the lane, its address (a global or window address, or a scratchpad offset) and its size. -/
structure Acc where
  lane : Nat
  va   : W64
  size : Nat
  deriving DecidableEq, Repr

/-- Where the bytes of an access lie: in the scratchpad of a cohort on a core, or in memory, the first `n` bytes under the
first translation and the rest under the second. -/
inductive Place where
  | spad (cohort core off : Nat) | glob (x : Xlat) (n : Nat) (y : Xlat)
  deriving DecidableEq, Repr

/-- An access that has passed its checks. -/
structure Placed where
  acc   : Acc
  place : Place
  deriving DecidableEq, Repr

/-- A fault of one lane: its rank in R121, the lane and the address. -/
structure LaneFault where
  rank : Nat
  lane : Nat
  addr : W64
  deriving DecidableEq, Repr

/-- The fault code of a rank: ALIGN, PROT by form, PROT by translation, PAGE (R121). -/
def rankCode (r : Nat) : Byte := if r = 1 then 0x04 else if r = 4 then 0x05 else 0x06

/-- The fault that a memory instruction takes (R121): the highest-ranked one, the lanes that take it, and the address in
the lowest of them. -/
def pickFault (fs : List LaneFault) : Option (Byte × Mask × W64) :=
  match (fs.map (·.rank)).foldl min 9 with
  | 9 => none
  | r =>
    let hit := fs.filter fun f => f.rank = r
    let low := (hit.map (·.lane)).foldl min 1024
    some (rankCode r, maskOf (hit.map (·.lane)), ((hit.find? fun f => f.lane = low).map (·.addr)).getD 0)

/-- The bytes of the gang's scratchpad share on each of its cores (R14, R284). -/
def Here.share (h : Here) : Nat := h.ke.launch.sp * 65536

/-- The cohort of the team's gang that sits `pos` positions further round the quad (R119, R261), with its core. -/
def Here.neighbour (h : Here) (pos : Nat) : Option (Nat × Nat) :=
  let core := h.core / 4 * 4 + (h.core % 4 + pos) % 4
  ((h.ga.cores.zip h.ga.cohorts).find? fun p => p.1 = core).map fun p => (p.2, core)

/-- A scratchpad access of position `pos` and offset `off` (R119); `base` is the address of offset 0 of that position. -/
def placeSpad (h : Here) (a : Acc) (pos off : Nat) (base : W64) : Except LaneFault Place :=
  match h.neighbour pos with
  | none => .error ⟨2, a.lane, a.va⟩
  | some (c, core) =>
    if off + a.size ≤ h.share then .ok (.spad c core off)
    else .error ⟨2, a.lane, if off < h.share then base + BitVec.ofNat 64 h.share else a.va⟩

/-- A scratchpad offset (R119): bits 31:24 zero, and POS zero where the instruction asks for its own core. -/
def placeOffset (h : Here) (own : Bool) (a : Acc) : Except LaneFault Place :=
  let x := a.va.toNat
  let pos := x / 2 ^ 22 % 4
  if x / 2 ^ 24 != 0 || (own && pos != 0) then .error ⟨2, a.lane, a.va⟩
  else placeSpad h a pos (x % 2 ^ 22) (BitVec.ofNat 64 (pos * 2 ^ 22))

/-- The number of an access's bytes on its first page. -/
def firstPart (a : Acc) : Nat := min a.size (65536 - a.va.toNat % 65536)

/-- The translation of one page of an access, or its fault (R118, R121, R330). -/
def placePage (s : State) (h : Here) (need : Need) (a : Acc) (va : W64) : State × Except LaneFault Xlat :=
  if !ordinary va then (s, .error ⟨2, a.lane, va⟩)
  else
    let r := xlateFor s h.core h.asid h.cx.ptroot.toNat va need
    (r.1, match r.2 with
      | .ok x => .ok x
      | .error .prot => .error ⟨3, a.lane, va⟩
      | .error .page => .error ⟨4, a.lane, va⟩)

/-- Of two faults of one lane, the one of higher rank; the first on a tie. -/
def worse (a b : LaneFault) : LaneFault := if b.rank < a.rank then b else a

/-- A global access, on both its pages (R118, R121); a window access is a scratchpad access. -/
def placeGlob (s : State) (h : Here) (window : Bool) (need : Need) (a : Acc) : State × Except LaneFault Place :=
  if inWindow a.va then
    let x := a.va.toNat % 2 ^ 24
    if window then
      (s, placeSpad h a (x / 2 ^ 22) (x % 2 ^ 22) (BitVec.ofNat 64 (windowBase + x / 2 ^ 22 * 2 ^ 22)))
    else (s, .error ⟨2, a.lane, a.va⟩)
  else
    let r := placePage s h need a a.va
    let n := firstPart a
    if n = a.size then
      (r.1, match r.2 with
        | .ok x => .ok (.glob x n x)
        | .error f => .error f)
    else
      let q := placePage r.1 h need a (a.va + BitVec.ofNat 64 n)
      (q.1, match r.2, q.2 with
        | .ok x, .ok y => .ok (.glob x n y)
        | .error f, .ok _ => .error f
        | .ok _, .error g => .error g
        | .error f, .error g => .error (worse f g))

/-- The space of a memory instruction: global (whether it accepts the window), or scratchpad (whether only its own). -/
inductive Space where
  | glob (window : Bool) | spad (own : Bool)
  deriving DecidableEq, Repr

/-- One lane's access checked and placed; `al` is the alignment of R120. -/
def placeAcc (s : State) (h : Here) (sp : Space) (need : Need) (al : Nat) (a : Acc) : State × Except LaneFault Placed :=
  let r : State × Except LaneFault Place :=
    match sp with
    | .glob w => placeGlob s h w need a
    | .spad own => (s, placeOffset h own a)
  if a.va.toNat % al != 0 then (r.1, .error ⟨1, a.lane, a.va⟩)
  else (r.1, match r.2 with
    | .ok p => .ok ⟨a, p⟩
    | .error f => .error f)

/-- Every lane's access checked (R121): all placed, or the faults. -/
def placeAll (s : State) (h : Here) (sp : Space) (need : Need) (al : Nat) (as : List Acc) :
    State × List Placed × List LaneFault :=
  as.foldl (fun (st : State × List Placed × List LaneFault) a =>
    let r := placeAcc st.1 h sp need al a
    match r.2 with
    | .ok p => (r.1, st.2.1 ++ [p], st.2.2)
    | .error f => (r.1, st.2.1, st.2.2 ++ [f])) (s, [], [])

/-- The accesses that the comparators see (R355). -/
def touches (as : List Acc) (rd wr : Bool) : List Touch := as.map fun a => ⟨a.lane, a.va, a.size, rd, wr⟩

/-! ## Bank conflicts (R126) -/

/-- The 8-byte words of a scratchpad that an access touches. -/
def accWords (off size : Nat) : List Nat := (List.range ((off + size - 1) / 8 + 1 - off / 8)).map fun i => off / 8 + i
/-- The largest number of distinct words in one bank, of the 128 banks. -/
def bankMax (ws : List Nat) : Nat :=
  let d := ws.eraseDups
  (d.map fun w => (d.filter fun x => x % 128 == w % 128).length).foldl max 0

/-- The extra cycles of scratchpad passes: for each mask word and cohort of a target core their number. -/
def bankCycles (ps : List Placed) : List (Nat × Nat × Nat) :=
  let hits := ps.filterMap fun p => match p.place with
    | .spad c _ off => some (c, p.acc.lane / 32, accWords off p.acc.size)
    | .glob .. => none
  let keys := (hits.map fun x => (x.1, x.2.1)).eraseDups
  (keys.map fun k => (k.2, k.1, bankMax ((hits.filter fun x => (x.1, x.2.1) = k).flatMap fun x => x.2.2) - 1)).filter fun x => x.2.2 != 0
/-- The extra cycles of the scratchpad passes of team `t`, added to SPBANKC of their cohorts; the team keeps those of each word until
its passes have been issued (R126, R259). -/
def countBanks (s : State) (t : Nat) (ps : List Placed) : State :=
  match bankCycles ps with
  | [] => s
  | bs => (bs.foldl (fun s k => s.modCohort k.2.1 fun co => { co with spbankc := co.spbankc + BitVec.ofNat 64 k.2.2 }) s).modTeam t
      fun tm => { tm with banks := bs }
/-- The bank cycles of a cohort's scratchpad that passes still to be issued will take (R259). -/
def banksDue (s : State) (c : Nat) : W64 :=
  s.teams.foldl (fun n tm => (tm.banks.filter fun b => b.2.1 = c && tm.owed.any fun w => w.1 = b.1).foldl
    (fun n b => n + BitVec.ofNat 64 b.2.2) n) 0

/-! ## Bytes of placed accesses -/

/-- One byte of an access in memory: physical address, attributes, lane and virtual address. -/
structure Spot where
  x    : Xlat
  pa   : Nat
  lane : Nat
  va   : W64
  deriving DecidableEq, Repr

/-- The spots of an access in memory; none for a scratchpad access. -/
def Placed.spots (p : Placed) : List Spot :=
  match p.place with
  | .spad .. => []
  | .glob x n y => (List.range p.acc.size).map fun j =>
    if j < n then ⟨x, x.pa + j, p.acc.lane, p.acc.va + BitVec.ofNat 64 j⟩
    else ⟨y, y.pa + (j - n), p.acc.lane, p.acc.va + BitVec.ofNat 64 j⟩

/-- The distinct physical lines of spots, ascending. -/
def linesOf (sp : List Spot) : List Nat := sortBy (fun a b => decide (a ≤ b)) ((sp.map fun x => lineOf x.pa).eraseDups)
/-- The spots of one line. -/
def spotsOn (sp : List Spot) (line : Nat) : List Spot := sp.filter fun x => lineOf x.pa = line

/-- Fills the L1 of the team's core with the lines of cacheable spots (R123). -/
def fillSpots (s : State) (h : Here) (sp : List Spot) : State :=
  (linesOf (sp.filter fun (x : Spot) => x.x.cach)).foldl (fun s line =>
    match (spotsOn sp line).head? with
    | some x =>
      let held := (((s.cores[h.core]?).bind fun c => l1Find c line).bind fun l => l.clean).isSome
      let s1 := fillLine s h.core h.asid x.x.priv line
      if held then s1 else mscRead s1 line
    | none => s) s

/-- The byte of a spot as a plain load finds it: in L1 for a cacheable page, else at home or in the die's copy; in each case the
core reads what it has stored through another alias (R170, R332). -/
def spotByte (s : State) (h : Here) (x : Spot) : Option Byte :=
  if x.x.cach then
    match l1Byte s h.core (lineOf x.pa) (x.pa % 128) with
    | some b => some b
    | none => homeByte s h.core x.pa
  else ownByte s h.core x.pa
/-- The byte of a spot as an access at home finds it (R170, R173). -/
def spotHome (s : State) (h : Here) (x : Spot) : Option Byte := ownByte s h.core x.pa

/-- The open requests that write a line of a die's copies (R186). -/
def openWrites (s : State) (core line : Nat) : List Nat :=
  (s.reqs.filter fun r => r.forward != 0 && dieOf r.core == dieOf core && lineOf r.pa == line).map (·.tag)

/-- The imported pages and the open writes of the lines that a team has read, for its next `fence.sc.pod` (R132, R186). -/
def noteImported (s : State) (h : Here) (sp : List Spot) : State :=
  let im := sp.filter fun x => x.x.imp
  if im.isEmpty then s
  else s.modTeam h.t fun tm =>
    { tm with podPages := (tm.podPages ++ im.map fun (x : Spot) => x.pa / 65536).eraseDups
              podTags := (tm.podTags ++ (linesOf im).flatMap fun l => openWrites s h.core l).eraseDups }

/-- What is asked for is read at the exporter's home and leaves no copy: by Carter, Sifter or settle (R179). -/
def ReqOwner.atHome : ReqOwner → Bool
  | .engine (.copy ..) => true | .engine (.sift ..) => true | .engine (.settle _) => true | .engine (.matrix ..) => false
  | .team .. => false | .forward .. => false | .prefetch .. => false
/-- One request for each line with a byte that is not there (R184, R365), and the tag of each line. -/
def askLines (s : State) (h : Here) (owner : ReqOwner) (missing : List Spot) : State × List (Nat × Nat) :=
  (linesOf missing).foldl (fun (st : State × List (Nat × Nat)) line =>
    let on := spotsOn missing line
    let va := ((on.head?).map fun x => x.va).getD 0
    let r := sendReq st.1 owner h.core (keyOfAsid s h.asid) (line * 128) va (maskOf (on.map (·.lane))) (!owner.atHome) false 0 (.read 128)
    (r.1, st.2 ++ [(line, r.2)])) (s, [])

/-- The owner of the requests that the team's next access sends (R365). -/
def nextOwner (h : Here) : ReqOwner := .team h.t h.tm.nextId

/-- The bytes of placed accesses in lane order, with requests for the lines that are not there. -/
def gather (s : State) (h : Here) (owner : ReqOwner) (get : State → Here → Spot → Option Byte) (ps : List Placed) :
    State × List PByte × List Nat :=
  let sp := ps.flatMap Placed.spots
  let missing := if sp.any fun x => x.x.imp then sp.filter fun x => (get s h x).isNone else []
  let r := askLines s h owner missing
  let bytes := ps.flatMap fun p =>
    match p.place with
    | .spad c _ off => (List.range p.acc.size).map fun j =>
        PByte.known (((s.cohorts[c]?).map fun co => sget co.sp (off + j)).getD 0)
    | .glob .. => p.spots.map fun x =>
        match get s h x with
        | some b => .known b
        | none => .hole (((r.2.find? fun q => q.1 = lineOf x.pa).map (·.2)).getD 0) (x.pa % 128)
  (r.1, bytes, r.2.map (·.2))

/-! ## Acquire and release -/

/-- Adds clearings to a team's CLEARS counter (R174). -/
def addClears (s : State) (h : Here) (n : Nat) : State :=
  if n = 0 then s else s.modTeam h.t fun tm => { tm with clears := tm.clears + BitVec.ofNat 64 n }

/-- What an acquire at scope `sc` does on one line beside its read (R173, R185): a tag's clearing and self-invalidation for
a local line; for an imported one self-invalidation, and at POD scope the die's clean copies of the page are discarded. -/
def acquireOn (s : State) (h : Here) (sc : Scope) (line : Nat) : State :=
  if importedLine line then
    if sc = .pod then acquirePage s h.core h.asid (line / 512) else selfInvalidate s h.core h.asid
  else
    let r := acquireLine s h.core h.asid sc line
    addClears r.1 h r.2

/-- The answers that an access of stream `k` waits for: those of an acquire of its stream, and for a release those of every
access of its stream (R123, R172). -/
def streamTags (h : Here) (k : Option Nat) (release : Bool) : List Nat :=
  (h.tm.inflight.filter fun a => k.isSome && a.stream = k && (release || match a.instr with
    | .ld _ _ _ _ _ .sync => true
    | .lds _ _ _ _ _ .sync => true
    | .ldq _ _ _ _ _ .sync => true
    | .uld _ _ _ _ _ .sync => true
    | .atomar .. => true
    | _ => false)).flatMap (·.need)

/-- Steps 1 and 2 of a POD release (R185): the dirty bytes of imported pages are written back, and the team waits for the
answers of their exporters. -/
def podRelease (s : State) (h : Here) : Option State :=
  let s1 := podWriteBack s h.core h.asid
  if s1.forwardsFrom h.core then some s1 else none

/-- The scope of a release as one that other cores may see: a scratchpad or window access releases at CORE scope, whatever MODE.SC
says (R124). -/
def outerScope (sp : Space) (as : List Acc) (sync : Bool) (sc : Scope) : Option Scope :=
  if !sync then none
  else match sp with
    | .spad _ => some .core
    | .glob _ => if as.all fun a => inWindow a.va then some .core else some sc

/-- What must be over before an access of stream `k` is performed, or the access itself. -/
def inOrder (s : State) (h : Here) (k : Option Nat) (release : Option Scope) (act : Act) : Act :=
  let tags := streamTags h k release.isSome
  if !tags.isEmpty then .wait s (.fabric tags)
  else if release = some .pod then
    match podRelease s h with
    | some s1 => .wait s1 .forwards
    | none => act
  else act

/-! ## Loads -/

/-- The scope at which a synchronising access leaves L1 (R123), if it does. -/
def beyondCore (sync : Bool) (sc : Scope) : Option Scope := if sync && sc != .core then some sc else none

/-- A load of placed accesses: bytes in lane order, and the requests that fill the holes. What a load reads at home, or in its die's
copy, is no older than what the core's L1 then holds (R170). -/
def loadPlaced (s : State) (h : Here) (sync : Option Scope) (ps : List Placed) : State × List PByte × List Nat :=
  let sp := ps.flatMap Placed.spots
  match sync with
  | none =>
    let s1 := fillSpots s h sp
    let out := sp.filter fun x => !x.x.cach
    let s2 := l1Refresh (mscReads s1 (linesOf out)) h.core (out.map (·.pa))
    let r := gather s2 h (nextOwner h) spotByte ps
    (noteImported r.1 h sp, r.2)
  | some sc =>
    let loc := sp.filter fun x => !x.x.imp
    let imp := linesOf (sp.filter fun x => x.x.imp)
    let s1 := (linesOf loc).foldl (fun s l => acquireOn s h sc l) s
    let s2 := l1Refresh (mscReads s1 (linesOf loc)) h.core (loc.map (·.pa))
    let r := gather s2 h (nextOwner h) spotHome ps
    let s3 := noteImported r.1 h sp
    (dropClean (imp.foldl (fun s l => acquireOn s h sc l) s3) h.core fun x => imp.contains x.line, r.2)

/-- All bytes known, as bytes. -/
def knownBytes : List PByte → Option (List Byte)
  | [] => some []
  | .known b :: r => (knownBytes r).map fun bs => b :: bs
  | .hole _ _ :: _ => none

/-- A fault of the lanes of a memory instruction (R121). -/
def memFault (s : State) (f : Frame) (x : Byte × Mask × W64) : Act := .fault s (.plain x.1 f.pc x.2.1 x.2.2)

/-- The result of an access: its writes where all its bytes are known, else the bytes and what they wait for. -/
def finish (s : State) (f : Frame) (fin : Frame → List Byte → Writes) (bytes : List PByte) (need : List Nat) (acc : List Touch) :
    Act :=
  match knownBytes bytes with
  | some bs => .done s (fin f bs) [] need acc
  | none => .done s Writes.none bytes need acc

/-- A load by lanes (R122, R123, R127). -/
def loadLanes (h : Here) (f : Frame) (s : State) (k : Option Nat) (sp : Space) (al : Nat) (sync : Bool) (as : List Acc)
    (fin : Frame → List Byte → Writes) : Act :=
  inOrder s h k none <|
    let r := placeAll s h sp .read al as
    match pickFault r.2.2 with
    | some x => memFault r.1 f x
    | none =>
      let q := loadPlaced (countBanks r.1 h.t r.2.1) h (beyondCore sync f.mode.sc) r.2.1
      finish q.1 f fin q.2.1 q.2.2 (touches as true false)

/-! ## Stores -/

/-- Stores bytes into the scratchpad of a cohort. -/
def spadStore (s : State) (c : Nat) (ws : List (Nat × Byte)) : State :=
  if ws.isEmpty then s else s.modCohort c fun co => { co with sp := ssetAll co.sp ws }

/-- The authors of stored bytes of an imported line: of each byte the lanes that wrote it, and the address of the lowest. -/
def authors (tick : Nat) (h : Here) (line : Nat) (ws : List (Spot × Byte)) : List (Nat × Author) :=
  if importedLine line then
    ws.foldl (fun d p =>
      let o := p.1.pa % 128
      let a : Author := match authorAt d o with
        | some a => { a with lanes := a.lanes ||| laneBit p.1.lane }
        | none => ⟨h.t, tick, h.tm.pc, laneBit p.1.lane, p.1.va⟩
      (o, a) :: d.filter fun q => q.1 != o) []
  else []

/-- One line of stored bytes (ascending lanes, a later one standing), performed where its page and scope say; the tags are
those of the requests it sends. A store at home leaves the core's own copy of its bytes as home then holds them (R4, R5, R172, R332). -/
def storeLine (s : State) (h : Here) (sync : Option Scope) (line : Nat) (ws : List (Spot × Byte)) : State × List Nat :=
  let offs := ws.foldl (fun d p => dirtySet d (p.1.pa % 128) p.2) ([] : List (Nat × Byte))
  let bytes := offs.map fun p => (line * 128 + p.1, p.2)
  let cach := ws.any fun p => p.1.x.cach
  let priv := ws.any fun p => p.1.x.priv
  let key := keyOfAsid s h.asid
  match sync with
  | none =>
    if cach then (l1Store s h.core h.asid priv line offs (authors s.tick h line ws), [])
    else if importedLine line then
      let r := dieWrite s (nextOwner h) h.core key line (authors s.tick h line ws) false offs
      (l1Update r.1 h.core bytes, r.2)
    else
      let s1 := homeWrite s key bytes
      (l1Update s1 h.core (asHome s s1 bytes), [])
  | some sc =>
    if importedLine line then
      let r := dieWrite s (nextOwner h) h.core key line (authors s.tick h line ws) true offs
      (l1Update r.1 h.core bytes, r.2)
    else (releaseLine s h.core h.asid sc line bytes, [])

/-- A store of placed accesses with the bytes of each. -/
def storePlaced (s : State) (h : Here) (sync : Option Scope) (ps : List (Placed × List Byte)) : State × List Nat :=
  let s1 := ps.foldl (fun s p => match p.1.place with
    | .spad c _ off => spadStore s c (atAddrs off p.2)
    | .glob .. => s) s
  let sp := ps.flatMap fun p => p.1.spots.zip p.2
  (linesOf (sp.map (·.1))).foldl (fun (st : State × List Nat) line =>
    let r := storeLine st.1 h sync line (sp.filter fun p => lineOf p.1.pa = line)
    (r.1, st.2 ++ r.2)) (s1, [])

/-- A store by lanes (R122, R123, R127); `bytes` gives each lane's bytes. -/
def storeLanes (h : Here) (f : Frame) (s : State) (k : Option Nat) (sp : Space) (al : Nat) (sync : Bool) (as : List Acc)
    (bytes : Nat → List Byte) : Act :=
  inOrder s h k (outerScope sp as sync f.mode.sc) <|
    let r := placeAll s h sp .write al as
    match pickFault r.2.2 with
    | some x => memFault r.1 f x
    | none =>
      let q := storePlaced (countBanks r.1 h.t r.2.1) h (beyondCore sync f.mode.sc) (r.2.1.map fun p => (p, bytes p.acc.lane))
      .done q.1 Writes.none [] q.2 (touches as false true)

/-! ## Atomics -/

/-- What an atomic applies in each lane: a function of the old value and the lane's data (R129, R130). -/
inductive AtomKind where
  | fn (f : AtomFn) (ty : Ty) (data : Nat → Nat) | cas (data : Nat → Nat × Nat)

/-- The types that a function of R129 accepts. -/
def atomTypes (fn : AtomFn) (t : Ty) : Bool :=
  let arith := match t with
    | .i32 => true | .u32 => true | .i64 => true | .u64 => true | .f32 => true | .f64 => true
    | .i16x2 => false | .u16x2 => false | .i8x4 => false | .u8x4 => false | .f16x2 => false | .bf16x2 => false
    | .e4m3x4 => false | .e5m2x4 => false | .e2m1x8 => false | .tern16 => false | .i4x8 => false
  match fn with
  | .add => arith | .min => arith | .max => arith
  | .and => true | .or => true | .xor => true | .exch => true
  | .incw => t = .u32 || t = .u64

/-- The new value of an element (R129): floats round by rne, subnormals kept, no flag. -/
def atomNew (fn : AtomFn) (t : Ty) (old b : Nat) : Nat :=
  let w := 8 * t.bytes
  match fn with
  | .add => (binElem t.elem Env.plain .add old b).val
  | .min => (binElem t.elem Env.plain .min old b).val
  | .max => (binElem t.elem Env.plain .max old b).val
  | .and => old &&& b
  | .or => old ||| b
  | .xor => old ^^^ b
  | .exch => b
  | .incw => if b = 0 then (old + 1) % 2 ^ w else (old + 1) % b

/-- The value that a lane leaves. -/
def AtomKind.new (k : AtomKind) (lane old : Nat) : Nat :=
  match k with
  | .fn g t data => atomNew g t old (data lane)
  | .cas data => if old = (data lane).1 then (data lane).2 else old
/-- The request that carries the lanes of one element to its exporter (R131, R348). -/
def AtomKind.op (k : AtomKind) (size : Nat) (lanes : List Nat) : FabricOp :=
  match k with
  | .fn g t data => .atomic g t (lanes.map fun l => BitVec.ofNat 64 (data l))
  | .cas data => .cas (size == 8) (lanes.map fun l => (BitVec.ofNat 64 (data l).1, BitVec.ofNat 64 (data l).2))

/-- The lanes of one element applied in ascending order (R131): each lane's old value, and the value left. -/
def applyLanes (k : AtomKind) : List Nat → Nat → List (Nat × Nat) × Nat
  | [], v => ([], v)
  | l :: ls, v =>
    let r := applyLanes k ls (k.new l v)
    ((l, v) :: r.1, r.2)

/-- The element that an access addresses: a scratchpad element of a cohort, or one at a physical address. -/
inductive ElemAt where
  | spad (c off : Nat) | glob (pa : Nat)
  deriving DecidableEq, Repr

/-- The element of a placed access. -/
def Placed.elemAt (p : Placed) : ElemAt :=
  match p.place with
  | .spad c _ off => .spad c off
  | .glob x _ _ => .glob x.pa

/-- Drops what a die and a core hold of an imported element that is changed at its exporter's home, so that the core next reads a
value no older (R170, R184, R221); answers to requests sent before install no copy of its line. -/
def dropElem (s : State) (core pa size : Nat) : State :=
  let line := lineOf pa
  let s0 := dieDrop s (dieOf core) fun l => l == line
  let s1 := match dieFind s0 (dieOf core) line with
    | some c => diePut s0 { c with written := c.written.filter fun p => !(decide (pa % 128 ≤ p.1) && decide (p.1 < pa % 128 + size)) }
    | none => s0
  dropClean s1 core fun x => x.line == line

/-- An atomic on one element by its lanes: the state, the bytes of each lane's old value, and the requests sent. `sync` is
the scope at which an `atomar` acquires and releases. -/
def atomElem (s : State) (h : Here) (k : AtomKind) (sync : Option Scope) (size : Nat) (e : ElemAt) (ps : List Placed) :
    State × List (Nat × List PByte) × List Nat :=
  let lanes := ps.map fun p => p.acc.lane
  let olds (v : Nat) : List (Nat × List PByte) :=
    (applyLanes k lanes v).1.map fun x => (x.1, (bytesOf size x.2).map PByte.known)
  match e with
  | .spad c off =>
    let v := ((s.cohorts[c]?).map fun co => readNat co.sp off size).getD 0
    (spadStore s c (atAddrs off (bytesOf size (applyLanes k lanes v).2)), olds v, [])
  | .glob pa =>
    if inAperture pa then
      let va := ((ps.head?).map fun p => p.acc.va).getD 0
      let r := sendReq (dropElem s h.core pa size) (nextOwner h) h.core (keyOfAsid s h.asid) pa va (maskOf lanes) false sync.isSome size
        (k.op size lanes)
      (r.1, lanes.mapIdx fun i l => (l, (List.range size).map fun j => PByte.hole r.2 (i * size + j)), [r.2])
    else
      let v := readNat s.mem pa size
      let ws := atAddrs pa (bytesOf size (applyLanes k lanes v).2)
      match sync with
      | none =>
        let s1 := homeWrite s (keyOfAsid s h.asid) ws
        (l1Clean s1 h.core (asHome s s1 ws), olds v, [])
      | some sc => (releaseLine s h.core h.asid sc (lineOf pa) ws, olds v, [])

/-- The atomics of a list of elements, one after another. -/
def atomElems (s : State) (h : Here) (k : AtomKind) (sync : Option Scope) (size : Nat) (ps : List Placed) :
    State × List (Nat × List PByte) × List Nat :=
  let es := (ps.map Placed.elemAt).eraseDups
  es.foldl (fun (st : State × List (Nat × List PByte) × List Nat) e =>
    let r := atomElem st.1 h k sync size e (ps.filter fun p => p.elemAt = e)
    (r.1, st.2.1 ++ r.2.1, st.2.2 ++ r.2.2)) (s, [], [])

/-- An atomic by lanes (R128 to R131): an `atomar` first acquires its lines (R173). At CORE scope what it acquires may be dirty in the
core's own L1, and is written back first, since the element is read at home (R178, R197, log 42). -/
def atomLanes (h : Here) (f : Frame) (s : State) (str : Option Nat) (sp : Space) (size : Nat) (sync : Bool) (k : AtomKind)
    (as : List Acc) (fin : Frame → List Byte → Writes) : Act :=
  inOrder s h str (outerScope sp as sync f.mode.sc) <|
    let r := placeAll s h sp .both size as
    match pickFault r.2.2 with
    | some x => memFault r.1 f x
    | none =>
      let ps := r.2.1
      let at_ := beyondCore sync f.mode.sc
      let lines := linesOf (ps.flatMap Placed.spots)
      let acquire (s : State) (imported : Bool) : State :=
        match at_ with
        | some sc => (lines.filter fun l => importedLine l == imported).foldl (fun s l => acquireOn s h sc l) s
        | none => s
      let s0 := if sync && at_.isNone then writeBackWhere r.1 h.core fun x => lines.contains x.line else r.1
      let q := atomElems (acquire (countBanks s0 h.t ps) false) h k at_ size ps
      let bytes := ps.flatMap fun p => ((q.2.1.find? fun x => x.1 = p.acc.lane).map (·.2)).getD []
      let s1 := acquire q.1 true
      let s2 := if at_.isSome then noteImported s1 h (ps.flatMap Placed.spots) else s1
      finish s2 f fin bytes q.2.2 (touches as true true)

end Sys2Proof.Machine
end

