-- ==== Sys2Proof/Machine/Units.lean ====
section
/-! DEFINITION. A team's use of barrier instances (spec/16_barrier_lifecycle.md R274 to R279), updates that wait for its earlier
accesses, and what the retirement of a team and of a gang sets off (spec/15_group_lifecycle.md R267, R268, spec/20_context_lifecycle.md R319). -/
namespace Sys2Proof.Machine

/-- The instance that a level and an id name for a team (R274); none above the gang level without COOP (R146). -/
def barRefOf (h : Here) (l : BarLevel) (id : Fin 16) : Option BarRef :=
  match l with
  | .cohort => some ⟨.cohort h.tm.cohort, id⟩
  | .gang => some ⟨.gang h.g, id⟩
  | .die => if h.ke.launch.coop then some ⟨.die h.k h.ga.group, id⟩ else none
  | .pkg => if h.ke.launch.coop then some ⟨.pkg h.k, id⟩ else none
  | .pod => if h.ke.launch.coop then some ⟨.pod h.k, id⟩ else none

/-- The team's own use of an instance (R275). -/
def Team.barUse (tm : Team) (b : BarRef) : BarUse := (tm.bars.find? fun x => x.bar = b).getD ⟨b, false, 0⟩
/-- Sets the team's own use of an instance. -/
def Team.setBar (tm : Team) (u : BarUse) : Team := { tm with bars := u :: tm.bars.filter fun x => x.bar != u.bar }

/-- The instance becomes FAULTED (R279); in a joined pod, the other members' instances too (R292). -/
def faultBar (s : State) (b : BarRef) : State :=
  let s1 := s.modBar b fun x => { x with state := .faulted }
  match b.unit with
  | .pod k => { s1 with spanOut := s1.spanOut ++ (((s1.kernels[k]?).map (·.joinKeys)).getD []).map fun group => .barrier group b.id }
  | .cohort _ => s1 | .gang _ => s1 | .die .. => s1 | .pkg _ => s1

/-- BARRIER of the team's instruction (R279): the instance becomes FAULTED. -/
def barrierFault (s : State) (h : Here) (b : Option BarRef) : Outcome State :=
  let s1 := match b with
    | some b => faultBar s b
    | none => s
  .next (takeFault s1 h h.tm (.plain 0x13 h.tm.pc h.tm.active 0) h.tm.pc)

/-- An arrival in the instance's current generation has been posted by some team and does not count yet. -/
def arrivalPosted (s : State) (b : BarRef) (g : W32) : Bool :=
  s.teams.any fun tm => tm.posts.any fun p => match p.act with
    | .arrive c n => c = b && n = g
    | .cmt .. => false
    | .rel .. => false

/-- The checks of `arrive` pass (R277, R279). -/
def arriveOk (s : State) (h : Here) (b : BarRef) (x : Bar) (n : W64) : Bool :=
  !(h.tm.barUse b).arr && decide (n.toNat ≤ liveMembers s b.unit + otherGangs s b.unit) && x.state != .faulted
    && (match x.operand with
      | some m => m == n || x.state == .complete || (x.state == .idle && !arrivalPosted s b x.gen)
      | none => true)

/-! ## Posted updates (R145, R146) -/

/-- QUEUE for an update of a team that fails when it is applied; a team that is stopped already takes no further fault
(R307). -/
def postFault (s : State) (t : Nat) (pc : W64) : State :=
  match here s t with
  | some h =>
    match h.tm.status with
    | .running => takeFault s h h.tm (.plain 0x0E pc h.tm.active 0) h.tm.pc
    | .parked _ => takeFault s h h.tm (.plain 0x0E pc h.tm.active 0) h.tm.pc
    | .blocked .chandler => s
    | .blocked _ => takeFault s h h.tm (.plain 0x0E pc h.tm.active 0) h.tm.pc
    | .stopped => s
    | .captured _ => s
    | .retired => s
  | none => s

/-- No access and no residue of the team is older than the update. -/
def postDue (tm : Team) (p : Post) : Bool :=
  (tm.inflight.all fun a => p.id < a.id) && tm.residues.all fun r => p.id < r.id

/-- Applies the updates of a team whose earlier accesses are all performed. -/
def applyPosts (s : State) (t : Nat) : State :=
  match s.teams[t]? with
  | some tm =>
    let due := tm.posts.filter (postDue tm)
    if due.isEmpty then s
    else due.foldl (fun s p => actPost s t p (postFault s t p.pc)) (s.modTeam t fun tm => { tm with posts := tm.posts.filter fun p => !postDue tm p })
  | none => s

/-- Posts an update of the team's instruction at `pc`. -/
def postNow (s : State) (t : Nat) (pc : W64) (a : PostAct) : State :=
  applyPosts (s.modTeam t fun tm => { tm with posts := tm.posts ++ [⟨tm.nextId, pc, a⟩], nextId := tm.nextId + 1 }) t

/-! ## Retirement -/

/-- The gang holds its shares: it is resident (R267). -/
def Gang.resident (ga : Gang) : Bool := ga.state == .resident || ga.state == .capturing

/-- The context of a kernel. -/
def State.ctxOfKernel (s : State) (k : Nat) : Nat := ((s.kernels[k]?).map (·.ctx)).getD 0

/-- When the last resident gang of a context leaves, an ACTIVE context becomes SWITCHED and LASTRUN is CYCLE (R319). -/
def ctxLeft (s : State) (ctx : Nat) : State :=
  if s.gangs.any fun ga => ga.resident && s.ctxOfKernel ga.kernel = ctx then s
  else
    { s with ctxs := s.ctxs.map fun c =>
        if c.id = ctx && c.state == .active then { c with state := .switched, lastrun := s.cycle } else c }

/-- A gang whose teams have all retired is RETIRED: it returns its save size (R321), and its kernel's barriers lose a member
(R276). -/
def gangRetired (s : State) (g : Nat) : State :=
  match s.gangs[g]? with
  | some ga =>
    if ga.state == .retired || gangAlive s ga then s
    else
      let ctx := s.ctxOfKernel ga.kernel
      let s1 := s.modGang g fun ga => { ga with state := .retired, saved := 0, saveAt := [] }
      let s2 := { s1 with ctxs := s1.ctxs.map fun c => if c.id = ctx then { c with saveused := c.saveused - ga.saved } else c }
      let s3 := [BarUnit.die ga.kernel ga.group, .pkg ga.kernel, .pod ga.kernel].foldl loseMember s2
      ctxLeft s3 ctx
  | none => s

/-- What the retirement of team `t` sets off: its cohort's and its gang's barriers lose a member (R276), and the gang may
retire. -/
def teamRetired (s : State) (t : Nat) : State :=
  match s.teams[t]? with
  | some tm =>
    match s.cohorts[tm.cohort]? with
    | some co =>
      let s1 := loseMember (loseMember s (.cohort tm.cohort)) (.gang co.gang)
      let ks := ((s1.gangs[co.gang]?).map fun ga => [BarUnit.die ga.kernel ga.group, .pkg ga.kernel, .pod ga.kernel]).getD []
      let s2 := ks.foldl (fun s u => (List.finRange 16).foldl (fun s i => settleBar s ⟨u, i⟩) s) s1
      gangRetired s2 co.gang
    | none => s
  | none => s

end Sys2Proof.Machine
end

