-- ==== Sys2Proof/Machine/Control.lean ====
section
/-! DEFINITION. Control flow, `setm` and regions: majors 0x00 to 0x0F (spec/05_instructions_core.md R72 to R86,
spec/19_traps_and_regions.md R313 to R315). -/
namespace Sys2Proof.Machine

/-- The address of the instruction after one without literals. -/
def pcNext (h : Here) : W64 := nextPc h.tm.pc 0
/-- A branch target: PC + 4 × offset (R75). -/
def target (h : Here) {n : Nat} (off : BitVec n) : W64 := h.tm.pc + 4 * off.signExtend 64

/-- The key of a predicate operand: p0 is never pending (R34). -/
def predKey (p : PReg) : List RegKey := if p = 0 then [] else [.p p.val]
/-- The keys of a uniform operand. -/
def usrcKeys (a : USrc) : List RegKey := (usrcURegs a).map .s
/-- Literal words of a uniform operand. -/
def usrcLits (a : USrc) : Nat :=
  match a with
  | .lit _ => 1 | .lit64 _ => 2 | .s _ => 0 | .team => 0 | .core => 0 | .clock => 0 | .konst _ => 0

/-- An instruction that goes on at `pc` and changes nothing else. -/
def goTo (sw : Bool) (s : State) (h : Here) (pc : W64) : Outcome State := .next (endAt s h sw pc onePass h.tm)

/-- A push that keeps the limit of 256 entries (R74). -/
def stackFull (tm : Team) (n : Nat) : Bool := decide (256 < tm.stack.length + n)

/-- NOP (R75). -/
def execNop (sw : Bool) (s : State) : Outcome State := onTeam s fun h => goTo sw s h (pcNext h)

/-- SETM (R42, R86); a write of DF first waits until no residue remains (R163). -/
def execSetm (sw : Bool) (f : ModeField) (s : State) : Outcome State :=
  onTeam s fun h =>
    let go : Outcome State := .next (endAt s h sw (pcNext h) onePass { h.tm with mode := h.tm.mode.set f })
    match f with
    | .df _ => if h.tm.residues.isEmpty then go else .next (park s h h.tm .residues)
    | .g _ _ => go | .s _ => go | .t _ => go | .rnd _ => go | .sat _ => go | .ftz _ => go | .sc _ => go

/-- BRA (R75). -/
def execBra (sw : Bool) (off : BitVec 24) (s : State) : Outcome State := onTeam s fun h => goTo sw s h (target h off)

/-- The lanes of the active mask where p XOR NEG holds (R76, R77). -/
def testLanes (f : Frame) (p : PReg) (neg : Bool) : Mask :=
  f.mask &&& (if neg then ~~~(f.regs.pget p.val) else f.regs.pget p.val)

/-- BRALL (R76). -/
def execBrall (sw : Bool) (p : PReg) (neg : Bool) (off : BitVec 20) (s : State) : Outcome State :=
  onTeam s fun h => reading s h (predKey p) fun s f =>
    goTo sw s h (if testLanes f p neg = f.mask then target h off else pcNext h)

/-- BRANY (R76). -/
def execBrany (sw : Bool) (p : PReg) (neg : Bool) (off : BitVec 20) (s : State) : Outcome State :=
  onTeam s fun h => reading s h (predKey p) fun s f =>
    goTo sw s h (if testLanes f p neg = 0 then pcNext h else target h off)

/-- BRD (R77). -/
def execBrd (sw : Bool) (p : PReg) (neg : Bool) (off : BitVec 20) (joinOff : W32) (s : State) : Outcome State :=
  onTeam s fun h => reading s h (predKey p) fun s f =>
    let t := testLanes f p neg
    let e := f.mask &&& ~~~t
    let div : Entry := ⟨.div, target h joinOff, f.mask⟩
    let skip := nextPc h.tm.pc 1
    if stackFull h.tm 1 || (e != 0 && t != 0 && stackFull h.tm 2) then stackFault s h
    else if e = 0 then .next (endAt s h sw (target h off) onePass { h.tm with stack := div :: h.tm.stack })
    else if t = 0 then .next (endAt s h sw skip onePass { h.tm with stack := div :: h.tm.stack })
    else .next (endAt s h sw skip onePass
      { h.tm with stack := ⟨.pend, target h off, t⟩ :: div :: h.tm.stack, active := e })

/-- The pop of `join` or `ret` (R74, R78, R84): the entry is taken; where it holds no live lane, popping goes on after the
region effect of this pop. -/
def popTop (tm : Team) (e : Entry) (r : List Entry) : Team :=
  let t := { takeEntry tm e with stack := r }
  if t.active = 0 then popLive r (closeRegion t) else t

/-- A pop from one stack to a shorter one takes a TRAP entry: the first popped, or the last, which holds a live lane (R74). -/
def takesTrap (old new : List Entry) : Bool :=
  let popped := old.take (old.length - new.length)
  (popped.head?.toList ++ popped.getLast?.toList).any fun e => match e.kind with
    | .trap _ => true
    | .pend => false | .div => false | .call => false
/-- The registers that taking a TRAP entry restores (R314) are written as R155 and R161 say. -/
def dropTrap (s : State) (tm tm' : Team) : State × Team :=
  if tm.claims.isEmpty || !takesTrap tm.stack tm'.stack then (s, tm')
  else
    let r := dropClaims s tm.claims { Writes.none with u := [28, 29, 30, 31].map fun n => (n, tm'.regs.uget n) }
    (r.1, { tm' with claims := r.2 })

/-- The end of a pop (R84): one that leaves the stack shallower than RDEPTH waits until everything has drained and opens a
region. -/
def endPop (sw : Bool) (s : State) (h : Here) (tm : Team) : Outcome State :=
  let go : Outcome State :=
    let r := dropTrap s h.tm (closeRegion tm)
    .next (endAt r.1 h sw r.2.pc onePass r.2)
  if tm.stack.length < h.tm.rdepth then whenDrained s h go else go

/-- JOIN (R78, R84, R314). -/
def execJoin (sw : Bool) (s : State) : Outcome State :=
  onTeam s fun h =>
    match h.tm.stack with
    | [] => stackFault s h
    | e :: r => if e.kind = .call then stackFault s h else endPop sw s h (popTop h.tm e r)

/-- CALL (R75). -/
def execCall (sw : Bool) (off : BitVec 24) (s : State) : Outcome State :=
  onTeam s fun h =>
    if stackFull h.tm 1 then stackFault s h
    else .next (endAt s h sw (target h off) onePass
      { h.tm with stack := ⟨.call, pcNext h, h.tm.active⟩ :: h.tm.stack })

/-- RET (R75, R84). -/
def execRet (sw : Bool) (s : State) : Outcome State :=
  onTeam s fun h =>
    match h.tm.stack with
    | [] => stackFault s h
    | e :: r => if e.kind = .call then endPop sw s h (popTop h.tm e r) else stackFault s h

/-- JMPI (R75, R31). -/
def execJmpi (sw : Bool) (a : USrc) (s : State) : Outcome State :=
  onTeam s fun h => reading s h (usrcKeys a) fun s f =>
    let x := usrcVal f a
    if x.toNat % 4 != 0 then raise s h 0x04 h.tm.active 0 else goTo sw s h x

/-- The team's lanes leave (R74, R80): M is removed from the live mask, and an empty mask pops. -/
def leave (tm : Team) : Team :=
  let t := { tm with live := tm.live &&& ~~~tm.active, active := 0 }
  if t.live = 0 then retireIfDead t else closeRegion (popLive t.stack t)

/-- EXIT (R80, R84). -/
def execExit (sw : Bool) (s : State) : Outcome State :=
  onTeam s fun h => whenDrained s h <|
    let tm := leave h.tm
    let s1 := endAt s h sw tm.pc onePass tm
    .next (if tm.status = .retired then teamRetired s1 h.t else s1)

/-- TRAP (R81, R313). -/
def execTrap (_sw : Bool) (code : BitVec 24) (s : State) : Outcome State :=
  onTeam s fun h =>
    let f : FaultInfo := { FaultInfo.plain 0x10 h.tm.pc h.tm.active 0 with info := code }
    if h.tm.trapvec = 0 then .next (takeFault s h h.tm f (pcNext h))
    else
      let r := spend s h h.frame onePass { h.tm with stalled := false, resumed := false }
      .next (takeFault r.1 h r.2 f (pcNext h))

/-- YIELD (R82): with a pre-emption pending for its gang, the team drains and stops at a blocking point. -/
def execYield (sw : Bool) (s : State) : Outcome State :=
  onTeam s fun h =>
    if h.ga.state = .capturing then whenDrained s h <|
      let s1 := endAt s h sw (pcNext h) onePass h.tm
      .next (s1.modTeam h.t fun tm => { tm with status := .blocked .preempted })
    else goTo sw s h (pcNext h)

/-- REGION (R83). -/
def execRegion (sw : Bool) (s : State) : Outcome State :=
  onTeam s fun h => whenDrained s h <| .next (endAt s h sw (pcNext h) onePass (openRegion h.tm (pcNext h)))

/-- DRAIN (R85). -/
def execDrain (sw : Bool) (s : State) : Outcome State := onTeam s fun h => whenDrained s h <| goTo sw s h (pcNext h)

/-- LOOP (R79, R21). -/
def execLoop (sw : Bool) (c : SReg) (off : BitVec 16) (s : State) : Outcome State :=
  onTeam s fun h => reading s h [.s c.val] fun s f =>
    let x := f.regs.uget c.val - 1
    let r := writeNow s h.tm (Writes.ofU c.val x)
    .next (endAt r.1 h sw (if x = 0 then pcNext h else target h off) onePass r.2)

end Sys2Proof.Machine
end

