-- ==== Sys2Proof/Machine/LaneArith.lean ====
section
/-! DEFINITION. Lane arithmetic: majors 0x10 to 0x27 (spec/05_instructions_core.md R87 to R94). -/
namespace Sys2Proof.Machine

/-! ## Shared forms of lane instructions -/

/-- The register image of a destination in a lane, where the instruction reads it. -/
def dstVal (f : Frame) (d : Dst) (n l i : Nat) : Nat := laneNat f.regs l ((⟨d, n, false⟩ : VRef).first f l + i) n

/-- A lane instruction that computes, in every lane that takes part, a register image of `n` registers and flags (R71). -/
def laneRun (d : Dst) (n : Nat) (g : Frame → Nat → Nat × Flags) (_ : Here) (f : Frame) (s : State) : Act :=
  let rs := f.on.map fun l => (l, g f l)
  Act.writes s { Writes.none with
    v := rs.flatMap fun r => dstWrites f d n r.1 r.2.1
    flags := rs.foldl (fun x r => x ||| r.2.2) 0 }

/-- A lane instruction that computes one predicate bit and flags in every lane that takes part. -/
def predRun (p : PReg) (g : Frame → Nat → Bool × Flags) (_ : Here) (f : Frame) (s : State) : Act :=
  let rs := f.on.map fun l => (l, g f l)
  Act.writes s { Writes.none with
    p := [(p.val, f.part, maskOf ((rs.filter fun r => r.2.1).map (·.1)))]
    flags := rs.foldl (fun x r => x ||| r.2.2) 0 }

/-- The element results of one lane: each element of the register images of the destination and the sources. -/
def elemLane (t : Ty) (g : Nat → Nat → Nat → Res) (z x y : Nat) : Nat × Flags :=
  let zs := t.split z
  let xs := t.split x
  let ys := t.split y
  let rs := (List.range t.count).map fun k => g (zs.getD k 0) (xs.getD k 0) (ys.getD k 0)
  (packElems t.elem.width (rs.map (·.val)), allFlags rs)

/-- The job of an elementwise instruction on two sources of MODE.T, with `n` passes for each register of an element; with
`acc` it also reads its destination. -/
def elemJob (ok : Ty → Bool) (n : Nat) (acc : Bool) (d : Dst) (a b : Src) (g : Elem → Env → Nat → Nat → Nat → Res)
    (f : Frame) : Job :=
  let t := f.mode.t
  { ok := fun _ => ok t && srcLitOk a t.wide && srcLitOk b t.wide
    vreads := srcVRefs a t.regs t.wide ++ srcVRefs b t.regs t.wide ++ (if acc then [⟨d, t.regs, t.wide⟩] else [])
    ureads := srcURegs a ++ srcURegs b
    vwrites := [⟨d, t.regs, t.wide⟩]
    cost := perWord (n * t.regs)
    run := laneRun d t.regs fun f l =>
      elemLane t (g t.elem f.mode.env) (if acc then dstVal f d t.regs l 0 else 0) (srcVal f t a l) (srcVal f t b l) }

/-- The job of an elementwise instruction on one source of MODE.T. -/
def elemJob1 (ok : Ty → Bool) (n : Nat) (d : Dst) (a : Src) (g : Elem → Env → Nat → Res) (f : Frame) : Job :=
  let t := f.mode.t
  { ok := fun _ => ok t && srcLitOk a t.wide
    vreads := srcVRefs a t.regs t.wide
    ureads := srcURegs a
    vwrites := [⟨d, t.regs, t.wide⟩]
    cost := perWord (n * t.regs)
    run := laneRun d t.regs fun f l => elemLane t (fun _ x _ => g t.elem f.mode.env x) 0 (srcVal f t a l) 0 }

/-! ## Types (R87 to R94) -/

/-- The types of `add`, `sub`, `mul`, `min`, `max` (R87). -/
def arithOk : Ty → Bool
  | .i32 => true | .u32 => true | .i64 => true | .u64 => true | .i16x2 => true | .u16x2 => true | .i8x4 => true
  | .u8x4 => true | .f32 => true | .f64 => true | .f16x2 => true | .bf16x2 => true
  | .e4m3x4 => false | .e5m2x4 => false | .e2m1x8 => false | .tern16 => false | .i4x8 => false
/-- The types of `fma`, `fms` (R87). -/
def fmaOk (t : Ty) : Bool := arithOk t && t != .i8x4 && t != .u8x4
/-- The types of `abs`, `neg` (R87). -/
def signOk (t : Ty) : Bool := arithOk t && t != .u32 && t != .u64 && t != .u16x2 && t != .u8x4
/-- The types of the functions and `rint` that also accept f64 (R91). -/
def floatOk (t : Ty) : Bool := t = .f32 || t = .f64 || t = .f16x2 || t = .bf16x2
/-- The types of `exp2`, `log2`, `sin`, `cos` (R91). -/
def float32Ok (t : Ty) : Bool := t = .f32 || t = .f16x2 || t = .bf16x2
/-- The 32-bit and 64-bit integers. -/
def intOk (t : Ty) : Bool := t = .i32 || t = .u32 || t = .i64 || t = .u64
/-- The types of `div` (R91). -/
def divOk (t : Ty) : Bool := floatOk t || intOk t
/-- The types of `cmp`, `psum`, `redu` (R88, R107). -/
def scalarOk (t : Ty) : Bool := intOk t || t = .f32 || t = .f64

/-! ## Elementwise arithmetic (R87) -/

/-- ADD (R87). -/
def jobAdd (d : Dst) (a b : Src) : Frame → Job := elemJob arithOk 1 false d a b fun e v _ x y => binElem e v .add x y
/-- ADD (R87). -/
def execAdd (sw : Bool) (d : Dst) (a b : Src) (s : State) : Outcome State := issueJob (.add sw d a b) sw (jobAdd d a b) s
/-- SUB (R87). -/
def jobSub (d : Dst) (a b : Src) : Frame → Job := elemJob arithOk 1 false d a b fun e v _ x y => binElem e v .sub x y
/-- SUB (R87). -/
def execSub (sw : Bool) (d : Dst) (a b : Src) (s : State) : Outcome State := issueJob (.sub sw d a b) sw (jobSub d a b) s
/-- MUL (R87). -/
def jobMul (d : Dst) (a b : Src) : Frame → Job := elemJob arithOk 1 false d a b fun e v _ x y => binElem e v .mul x y
/-- MUL (R87). -/
def execMul (sw : Bool) (d : Dst) (a b : Src) (s : State) : Outcome State := issueJob (.mul sw d a b) sw (jobMul d a b) s
/-- FMA (R64, R87). -/
def jobFma (d : Dst) (a b : Src) : Frame → Job := elemJob fmaOk 1 true d a b fun e v z x y => fmaElem e v false z x y
/-- FMA (R64, R87). -/
def execFma (sw : Bool) (d : Dst) (a b : Src) (s : State) : Outcome State := issueJob (.fma sw d a b) sw (jobFma d a b) s
/-- FMS (R64, R87). -/
def jobFms (d : Dst) (a b : Src) : Frame → Job := elemJob fmaOk 1 true d a b fun e v z x y => fmaElem e v true z x y
/-- FMS (R64, R87). -/
def execFms (sw : Bool) (d : Dst) (a b : Src) (s : State) : Outcome State := issueJob (.fms sw d a b) sw (jobFms d a b) s
/-- MIN (R58, R87). -/
def jobMin (d : Dst) (a b : Src) : Frame → Job := elemJob arithOk 1 false d a b fun e v _ x y => binElem e v .min x y
/-- MIN (R58, R87). -/
def execMin (sw : Bool) (d : Dst) (a b : Src) (s : State) : Outcome State := issueJob (.min sw d a b) sw (jobMin d a b) s
/-- MAX (R58, R87). -/
def jobMax (d : Dst) (a b : Src) : Frame → Job := elemJob arithOk 1 false d a b fun e v _ x y => binElem e v .max x y
/-- MAX (R58, R87). -/
def execMax (sw : Bool) (d : Dst) (a b : Src) (s : State) : Outcome State := issueJob (.max sw d a b) sw (jobMax d a b) s
/-- ABS (R87). -/
def jobAbs (d : Dst) (a : Src) : Frame → Job := elemJob1 signOk 1 d a fun e v x => signElem e v true x
/-- ABS (R87). -/
def execAbs (sw : Bool) (d : Dst) (a : Src) (s : State) : Outcome State := issueJob (.abs sw d a) sw (jobAbs d a) s
/-- NEG (R87). -/
def jobNeg (d : Dst) (a : Src) : Frame → Job := elemJob1 signOk 1 d a fun e v x => signElem e v false x
/-- NEG (R87). -/
def execNeg (sw : Bool) (d : Dst) (a : Src) (s : State) : Outcome State := issueJob (.neg sw d a) sw (jobNeg d a) s

/-! ## Compare, select, convert -/

/-- CMP (R58, R88). -/
def jobCmp (p : PReg) (r : Rel) (a b : Src) (f : Frame) : Job :=
  let t := f.mode.t
  { ok := fun _ => scalarOk t && srcLitOk a t.wide && srcLitOk b t.wide
    vreads := srcVRefs a t.regs t.wide ++ srcVRefs b t.regs t.wide
    ureads := srcURegs a ++ srcURegs b
    pwrites := [p.val]
    cost := plainCost
    run := predRun p fun f l => cmpElem t.elem f.mode.env r (srcVal f t a l) (srcVal f t b l) }
/-- CMP (R58, R88). -/
def execCmp (sw : Bool) (p : PReg) (r : Rel) (a b : Src) (s : State) : Outcome State :=
  issueJob (.cmp sw p r a b) sw (jobCmp p r a b) s

/-- SEL (R89). -/
def jobSel (d : Dst) (a b : Src) (f : Frame) : Job :=
  let t := f.mode.t
  { ok := fun _ => srcLitOk a t.wide && srcLitOk b t.wide
    vreads := srcVRefs a t.regs t.wide ++ srcVRefs b t.regs t.wide
    ureads := srcURegs a ++ srcURegs b
    preads := [f.mode.s.val]
    vwrites := [⟨d, t.regs, t.wide⟩]
    cost := plainCost
    run := laneRun d t.regs fun f l =>
      (if (f.regs.pget f.mode.s.val).getLsbD l then srcVal f t a l else srcVal f t b l, 0) }
/-- SEL (R89). -/
def execSel (sw : Bool) (d : Dst) (a b : Src) (s : State) : Outcome State := issueJob (.sel sw d a b) sw (jobSel d a b) s

/-- The registers of one side of `cvt`: its element groups times the registers of each (R90). -/
def cvtRegs (n : Nat) (t : Ty) : Nat := n / t.count * t.regs
/-- The register images of `n` elements of a type, packed in turn. -/
def packGroups (t : Ty) : Nat → List Nat → Nat
  | 0, _ => 0
  | n + 1, xs => packElems t.elem.width (xs.take t.count) + 2 ^ (32 * t.regs) * packGroups t n (xs.drop t.count)
/-- One lane of `cvt` (R61, R90). -/
def cvtLane (t u : Ty) (a : Src) (f : Frame) (l : Nat) : Nat × Flags :=
  let n := max t.count u.count
  let xs := (List.range (n / t.count)).flatMap fun i => t.split (srcValAt f t a l (i * t.regs))
  let rs := xs.map fun x => if t = u then Res.pure x else cvtElem f.mode.env t.elem u.elem x
  (packGroups u (n / u.count) (rs.map (·.val)), allFlags rs)
/-- CVT (R61, R90). -/
def jobCvt (d : Dst) (a : Src) (u : Ty) (f : Frame) : Job :=
  let t := f.mode.t
  let n := max t.count u.count
  { ok := fun _ => srcLitOk a t.wide && (srcIsV a || n == t.count)
    vreads := srcVRefs a (cvtRegs n t) t.wide
    ureads := srcURegs a
    vwrites := [⟨d, cvtRegs n u, u.wide⟩]
    cost := perWord (max (cvtRegs n t) (cvtRegs n u))
    run := laneRun d (cvtRegs n u) (cvtLane t u a) }
/-- CVT (R61, R90). -/
def execCvt (sw : Bool) (d : Dst) (a : Src) (u : Ty) (s : State) : Outcome State := issueJob (.cvt sw d a u) sw (jobCvt d a u) s

/-! ## Division and functions (R91) -/

/-- One element of a function in a float type (R62, R63). -/
def fnOf (fn : Fn) (e : Elem) (v : Env) (x : Nat) : Res :=
  match e with
  | .flt f => fnElem f v fn x
  | .int _ _ => .pure 0
  | .tern => .pure 0

/-- RCP (R62, R63, R91). -/
def jobRcp (d : Dst) (a : Src) : Frame → Job := elemJob1 floatOk 4 d a (fnOf .rcp)
/-- RCP (R62, R63, R91). -/
def execRcp (sw : Bool) (d : Dst) (a : Src) (s : State) : Outcome State := issueJob (.rcp sw d a) sw (jobRcp d a) s
/-- RSQ (R62, R63, R91). -/
def jobRsq (d : Dst) (a : Src) : Frame → Job := elemJob1 floatOk 4 d a (fnOf .rsq)
/-- RSQ (R62, R63, R91). -/
def execRsq (sw : Bool) (d : Dst) (a : Src) (s : State) : Outcome State := issueJob (.rsq sw d a) sw (jobRsq d a) s
/-- SQRT (R62, R63, R91). -/
def jobSqrt (d : Dst) (a : Src) : Frame → Job := elemJob1 floatOk 8 d a fun e v x =>
  match e with
  | .flt f => fSqrt f v x
  | .int _ _ => .pure 0
  | .tern => .pure 0
/-- SQRT (R62, R63, R91). -/
def execSqrt (sw : Bool) (d : Dst) (a : Src) (s : State) : Outcome State := issueJob (.sqrt sw d a) sw (jobSqrt d a) s
/-- DIV (R60, R62, R91). -/
def jobDiv (d : Dst) (a b : Src) : Frame → Job := elemJob divOk 8 false d a b fun e v _ x y =>
  match e with
  | .flt f => fDiv f v x y
  | .int sg w => intDiv sg w v.sat x y
  | .tern => .pure 0
/-- DIV (R60, R62, R91). -/
def execDiv (sw : Bool) (d : Dst) (a b : Src) (s : State) : Outcome State := issueJob (.div sw d a b) sw (jobDiv d a b) s
/-- EXP2 (R62, R63, R91). -/
def jobExp2 (d : Dst) (a : Src) : Frame → Job := elemJob1 float32Ok 4 d a (fnOf .exp2)
/-- EXP2 (R62, R63, R91). -/
def execExp2 (sw : Bool) (d : Dst) (a : Src) (s : State) : Outcome State := issueJob (.exp2 sw d a) sw (jobExp2 d a) s
/-- LOG2 (R62, R63, R91). -/
def jobLog2 (d : Dst) (a : Src) : Frame → Job := elemJob1 float32Ok 4 d a (fnOf .log2)
/-- LOG2 (R62, R63, R91). -/
def execLog2 (sw : Bool) (d : Dst) (a : Src) (s : State) : Outcome State := issueJob (.log2 sw d a) sw (jobLog2 d a) s
/-- SIN (R62, R63, R91). -/
def jobSin (d : Dst) (a : Src) : Frame → Job := elemJob1 float32Ok 4 d a (fnOf .sin)
/-- SIN (R62, R63, R91). -/
def execSin (sw : Bool) (d : Dst) (a : Src) (s : State) : Outcome State := issueJob (.sin sw d a) sw (jobSin d a) s
/-- COS (R62, R63, R91). -/
def jobCos (d : Dst) (a : Src) : Frame → Job := elemJob1 float32Ok 4 d a (fnOf .cos)
/-- COS (R62, R63, R91). -/
def execCos (sw : Bool) (d : Dst) (a : Src) (s : State) : Outcome State := issueJob (.cos sw d a) sw (jobCos d a) s
/-- RINT (R91). -/
def jobRint (d : Dst) (a : Src) : Frame → Job := elemJob1 floatOk 1 d a fun e v x =>
  match e with
  | .flt f => fRint f v x
  | .int _ _ => .pure 0
  | .tern => .pure 0
/-- RINT (R91). -/
def execRint (sw : Bool) (d : Dst) (a : Src) (s : State) : Outcome State := issueJob (.rint sw d a) sw (jobRint d a) s

/-! ## Class (R92) -/

/-- A test of `class` on the stored bits of a float. -/
def classOf (f : Fmt) (c : ClassTest) (x : Nat) : Bool :=
  let e := x / 2 ^ f.mb % 2 ^ f.eb
  let m := x % 2 ^ f.mb
  let top := e == 2 ^ f.eb - 1
  match c with
  | .nan => top && m != 0
  | .inf => top && m == 0
  | .zero => e == 0 && m == 0
  | .sub => e == 0 && m != 0
  | .norm => e != 0 && !top
  | .neg => x / 2 ^ (f.eb + f.mb) % 2 == 1
/-- CLASS (R92). -/
def jobClass (p : PReg) (c : ClassTest) (a : Src) (f : Frame) : Job :=
  let t := f.mode.t
  { ok := fun _ => (t = .f32 || t = .f64) && srcLitOk a t.wide
    vreads := srcVRefs a t.regs t.wide
    ureads := srcURegs a
    pwrites := [p.val]
    cost := plainCost
    run := predRun p fun f l => (classOf (if t = .f64 then fmtF64 else fmtF32) c (srcVal f t a l), 0) }
/-- CLASS (R92). -/
def execClass (sw : Bool) (p : PReg) (c : ClassTest) (a : Src) (s : State) : Outcome State :=
  issueJob (.class sw p c a) sw (jobClass p c a) s

/-! ## Widening multiply-add and dot product -/

/-- The integer of an element; 0 for a float. -/
def elemInt (e : Elem) (x : Nat) : Int :=
  match e with
  | .int sg w => intOf sg w x
  | .flt _ => 0
  | .tern => (ternOf x).1
/-- The element is signed. -/
def elemSigned : Elem → Bool
  | .int sg _ => sg
  | .flt _ => true
  | .tern => true

/-- The types of `wmad` (R93). -/
def wmadOk (t : Ty) : Bool := t = .i8x4 || t = .u8x4 || t = .i16x2 || t = .u16x2
/-- One lane of `wmad` (R93): a register of the accumulator for each element. -/
def wmadLane (t : Ty) (d : Dst) (a b : Src) (f : Frame) (l : Nat) : Nat × Flags :=
  let xs := t.split (srcVal f t a l)
  let ys := t.split (srcVal f t b l)
  let sg := elemSigned t.elem
  let rs := (List.range t.count).map fun k =>
    fitInt sg 32 f.mode.sat (intOf sg 32 (dstVal f d 1 l k) + elemInt t.elem (xs.getD k 0) * elemInt t.elem (ys.getD k 0))
  (packElems 32 (rs.map (·.val)), allFlags rs)
/-- WMAD (R93). -/
def jobWmad (d : Dst) (a b : Src) (f : Frame) : Job :=
  let t := f.mode.t
  { ok := fun _ => wmadOk t && srcLitOk a false && srcLitOk b false
    vreads := srcVRefs a 1 false ++ srcVRefs b 1 false ++ [⟨d, t.count, false⟩]
    ureads := srcURegs a ++ srcURegs b
    vwrites := [⟨d, t.count, false⟩]
    cost := perWord t.count
    run := laneRun d t.count (wmadLane t d a b) }
/-- WMAD (R93). -/
def execWmad (sw : Bool) (d : Dst) (a b : Src) (s : State) : Outcome State := issueJob (.wmad sw d a b) sw (jobWmad d a b) s

/-- An exact zero, with its sign. -/
def isZeroVal : FVal → Bool
  | .fin _ m _ => m == 0
  | .inf _ => false
  | .nan _ => false
/-- A value is negative zero. -/
def isNegZero : FVal → Bool
  | .fin n m _ => n && m == 0
  | .inf _ => false
  | .nan _ => false
/-- The float form of `dot4` (R94): the products and the accumulator summed exactly and rounded once to f32. -/
def dotFloat (f : Fmt) (v : Env) (z : Nat) (xs ys : List Nat) : Res :=
  let d := fread fmtF32 v.ftz z
  let ps := (xs.zip ys).map fun p => (fread f v.ftz p.1).mul (fread f v.ftz p.2)
  let r := ps.foldl (fun acc p => acc.add v.rnd p) d
  if isZeroVal r then fput fmtF32 v (.fin ((isNegZero d && ps.all isNegZero) || zeroNeg v.rnd) 0 0) else fput fmtF32 v r
/-- The types of `dot4` (R94). -/
def dotOk (t : Ty) : Bool := wmadOk t || t = .f16x2 || t = .bf16x2
/-- One lane of `dot4` (R94). -/
def dotLane (t : Ty) (d : Dst) (a b : Src) (f : Frame) (l : Nat) : Nat × Flags :=
  let xs := t.split (srcVal f t a l)
  let ys := t.split (srcVal f t b l)
  let z := dstVal f d 1 l 0
  let r := match t.elem with
    | .flt m => dotFloat m f.mode.env z xs ys
    | e =>
      let sum := ((xs.zip ys).map fun (p : Nat × Nat) => elemInt e p.1 * elemInt e p.2).foldl (· + ·) (0 : Int)
      fitInt (elemSigned e) 32 f.mode.sat (intOf (elemSigned e) 32 z + sum)
  (r.val, r.flags)
/-- DOT4 (R94). -/
def jobDot4 (d : Dst) (a b : Src) (f : Frame) : Job :=
  let t := f.mode.t
  { ok := fun _ => dotOk t && srcLitOk a false && srcLitOk b false
    vreads := srcVRefs a 1 false ++ srcVRefs b 1 false ++ [⟨d, 1, false⟩]
    ureads := srcURegs a ++ srcURegs b
    vwrites := [⟨d, 1, false⟩]
    cost := perWord 1
    run := laneRun d 1 (dotLane t d a b) }
/-- DOT4 (R94). -/
def execDot4 (sw : Bool) (d : Dst) (a b : Src) (s : State) : Outcome State := issueJob (.dot4 sw d a b) sw (jobDot4 d a b) s

end Sys2Proof.Machine
end

