-- ==== Sys2Proof/Machine/IntBit.lean ====
section
/-! DEFINITION. Integer, bit and predicate operations: majors 0x28 to 0x3A (spec/05_instructions_core.md R95 to R103). -/
namespace Sys2Proof.Machine

/-! ## Whole registers (R95) -/

/-- The job of an instruction on the whole register or pair of every valid type (R95). -/
def imageJob (d : Dst) (as : List Src) (g : Nat → List Nat → Nat) (f : Frame) : Job :=
  let t := f.mode.t
  { ok := fun _ => as.all fun a => srcLitOk a t.wide
    vreads := as.flatMap fun a => srcVRefs a t.regs t.wide
    ureads := as.flatMap srcURegs
    vwrites := [⟨d, t.regs, t.wide⟩]
    cost := plainCost
    run := laneRun d t.regs fun f l => (g (32 * t.regs) (as.map fun a => srcVal f t a l), 0) }

/-- AND (R95). -/
def jobAnd (d : Dst) (a b : Src) : Frame → Job := imageJob d [a, b] fun _ xs => xs.getD 0 0 &&& xs.getD 1 0
/-- AND (R95). -/
def execAnd (sw : Bool) (d : Dst) (a b : Src) (s : State) : Outcome State := issueJob (.and sw d a b) sw (jobAnd d a b) s
/-- OR (R95). -/
def jobOr (d : Dst) (a b : Src) : Frame → Job := imageJob d [a, b] fun _ xs => xs.getD 0 0 ||| xs.getD 1 0
/-- OR (R95). -/
def execOr (sw : Bool) (d : Dst) (a b : Src) (s : State) : Outcome State := issueJob (.or sw d a b) sw (jobOr d a b) s
/-- XOR (R95). -/
def jobXor (d : Dst) (a b : Src) : Frame → Job := imageJob d [a, b] fun _ xs => xs.getD 0 0 ^^^ xs.getD 1 0
/-- XOR (R95). -/
def execXor (sw : Bool) (d : Dst) (a b : Src) (s : State) : Outcome State := issueJob (.xor sw d a b) sw (jobXor d a b) s
/-- NOT (R95). -/
def jobNot (d : Dst) (a : Src) : Frame → Job := imageJob d [a] fun w xs => 2 ^ w - 1 - xs.getD 0 0 % 2 ^ w
/-- NOT (R95). -/
def execNot (sw : Bool) (d : Dst) (a : Src) (s : State) : Outcome State := issueJob (.not sw d a) sw (jobNot d a) s
/-- MOV (R95). -/
def jobMov (d : Dst) (a : Src) : Frame → Job := imageJob d [a] fun _ xs => xs.getD 0 0
/-- MOV (R95). -/
def execMov (sw : Bool) (d : Dst) (a : Src) (s : State) : Outcome State := issueJob (.mov sw d a) sw (jobMov d a) s

/-! ## Shifts and counts (R96, R97) -/

/-- The integer types other than tern16 (R96, R97). -/
def shiftOk : Ty → Bool
  | .i32 => true | .u32 => true | .i64 => true | .u64 => true | .i16x2 => true | .u16x2 => true | .i8x4 => true
  | .u8x4 => true | .i4x8 => true
  | .f32 => false | .f64 => false | .f16x2 => false | .bf16x2 => false | .e4m3x4 => false | .e5m2x4 => false
  | .e2m1x8 => false | .tern16 => false

/-- An operation on integer elements with their signedness and width. -/
def onInt (g : Bool → Nat → Nat → Nat → Nat) (e : Elem) (_ : Env) (_ x y : Nat) : Res :=
  match e with
  | .int sg w => .pure (g sg w x y)
  | .flt _ => .pure 0
  | .tern => .pure 0

/-- Rotation left by c mod w (R96). -/
def rolNat (w x c : Nat) : Nat :=
  let k := c % w
  (x * 2 ^ k % 2 ^ w) + x / 2 ^ (w - k)
/-- The bits of x below w in reverse order (R97). -/
def brevNat (w x : Nat) : Nat := (List.range w).foldl (fun r i => r + (x / 2 ^ i % 2) * 2 ^ (w - 1 - i)) 0
/-- The number of 1 bits below w (R97). -/
def popcNat (w x : Nat) : Nat := ((List.range w).filter fun i => x / 2 ^ i % 2 == 1).length

/-- SHL (R96). -/
def jobShl (d : Dst) (a b : Src) : Frame → Job :=
  elemJob shiftOk 1 false d a b (onInt fun _ w x c => if c < w then x * 2 ^ c % 2 ^ w else 0)
/-- SHL (R96). -/
def execShl (sw : Bool) (d : Dst) (a b : Src) (s : State) : Outcome State := issueJob (.shl sw d a b) sw (jobShl d a b) s
/-- SHR (R96). -/
def jobShr (d : Dst) (a b : Src) : Frame → Job :=
  elemJob shiftOk 1 false d a b (onInt fun sg w x c =>
    if sg then ux w (Int.fdiv (sx w x) (2 ^ (min c w) : Nat)) else if c < w then x / 2 ^ c else 0)
/-- SHR (R96). -/
def execShr (sw : Bool) (d : Dst) (a b : Src) (s : State) : Outcome State := issueJob (.shr sw d a b) sw (jobShr d a b) s
/-- ROL (R96). -/
def jobRol (d : Dst) (a b : Src) : Frame → Job := elemJob shiftOk 1 false d a b (onInt fun _ w x c => rolNat w x c)
/-- ROL (R96). -/
def execRol (sw : Bool) (d : Dst) (a b : Src) (s : State) : Outcome State := issueJob (.rol sw d a b) sw (jobRol d a b) s
/-- POPC (R97). -/
def jobPopc (d : Dst) (a : Src) : Frame → Job :=
  elemJob1 shiftOk 1 d a fun e v x => onInt (fun _ w x _ => popcNat w x) e v 0 x 0
/-- POPC (R97). -/
def execPopc (sw : Bool) (d : Dst) (a : Src) (s : State) : Outcome State := issueJob (.popc sw d a) sw (jobPopc d a) s
/-- CLZ (R97). -/
def jobClz (d : Dst) (a : Src) : Frame → Job :=
  elemJob1 shiftOk 1 d a fun e v x => onInt (fun _ w x _ => w - bitLen x) e v 0 x 0
/-- CLZ (R97). -/
def execClz (sw : Bool) (d : Dst) (a : Src) (s : State) : Outcome State := issueJob (.clz sw d a) sw (jobClz d a) s
/-- BREV (R97). -/
def jobBrev (d : Dst) (a : Src) : Frame → Job :=
  elemJob1 shiftOk 1 d a fun e v x => onInt (fun _ w x _ => brevNat w x) e v 0 x 0
/-- BREV (R97). -/
def execBrev (sw : Bool) (d : Dst) (a : Src) (s : State) : Outcome State := issueJob (.brev sw d a) sw (jobBrev d a) s

/-! ## Bit fields (R98) -/

/-- `bfe` (R98): bits o to o + n − 1 of x, bits at or above w read as 0 or as the sign bit, then extended. -/
def bfeNat (sg : Bool) (w x b : Nat) : Nat :=
  let o := b % 256
  let n := b / 256 % 256
  let v : Int := if sg then sx w x else (x : Int)
  let f := Int.fdiv v (2 ^ o : Nat) % (2 ^ n : Nat)
  if n = 0 then 0
  else if sg then ux w (sx n f.toNat)
  else f.toNat % 2 ^ w
/-- `bfi` (R98): bits o to min(o + n, w) − 1 of z replaced by the low bits of x. -/
def bfiNat (w z x b : Nat) : Nat :=
  let o := b % 256
  let n := b / 256 % 256
  if n = 0 || w ≤ o then z
  else
    let e := min (o + n) w
    z % 2 ^ o + x % 2 ^ (e - o) * 2 ^ o + z / 2 ^ e * 2 ^ e

/-- BFE (R98); the control is the low 16 bits of the element of b. -/
def jobBfe (d : Dst) (a b : Src) : Frame → Job := elemJob intOk 1 false d a b (onInt fun sg w x y => bfeNat sg w x y)
/-- BFE (R98). -/
def execBfe (sw : Bool) (d : Dst) (a b : Src) (s : State) : Outcome State := issueJob (.bfe sw d a b) sw (jobBfe d a b) s
/-- BFI (R98). -/
def jobBfi (d : Dst) (a b : Src) : Frame → Job :=
  elemJob intOk 1 true d a b fun e _ z x y =>
    match e with
    | .int _ w => .pure (bfiNat w z x y)
    | .flt _ => .pure 0
    | .tern => .pure 0
/-- BFI (R98). -/
def execBfi (sw : Bool) (d : Dst) (a b : Src) (s : State) : Outcome State := issueJob (.bfi sw d a b) sw (jobBfi d a b) s

/-! ## Multi-word arithmetic and addresses (R99 to R101) -/

/-- The types of `mulhi` (R99). -/
def mulhiOk (t : Ty) : Bool := intOk t || t = .i16x2 || t = .u16x2
/-- MULHI (R99). -/
def jobMulhi (d : Dst) (a b : Src) : Frame → Job :=
  elemJob mulhiOk 1 false d a b (onInt fun sg w x y => ux w (Int.fdiv (intOf sg w x * intOf sg w y) (2 ^ w : Nat)))
/-- MULHI (R99). -/
def execMulhi (sw : Bool) (d : Dst) (a b : Src) (s : State) : Outcome State :=
  issueJob (.mulhi sw d a b) sw (jobMulhi d a b) s

/-- ADDC (R100): the sum and the carry out, in two elements. -/
def jobAddc (d : Dst) (a b : Src) (f : Frame) : Job :=
  let t := f.mode.t
  { ok := fun _ => intOk t && srcLitOk a t.wide && srcLitOk b t.wide
    vreads := srcVRefs a t.regs t.wide ++ srcVRefs b t.regs t.wide ++ [⟨d, t.regs, t.wide⟩]
    ureads := srcURegs a ++ srcURegs b
    vwrites := [⟨d, 2 * t.regs, t.wide⟩]
    cost := plainCost
    run := laneRun d (2 * t.regs) fun f l => (dstVal f d t.regs l 0 % 2 + srcVal f t a l + srcVal f t b l, 0) }
/-- ADDC (R100). -/
def execAddc (sw : Bool) (d : Dst) (a b : Src) (s : State) : Outcome State := issueJob (.addc sw d a b) sw (jobAddc d a b) s

/-- The byte size of one element that `lea` scales by (R101); none where the type is refused. -/
def leaSize : Ty → Option Nat
  | .i32 => some 4 | .u32 => some 4 | .f32 => some 4 | .i64 => some 8 | .u64 => some 8 | .f64 => some 8
  | .i16x2 => some 2 | .u16x2 => some 2 | .f16x2 => some 2 | .bf16x2 => some 2
  | .i8x4 => some 1 | .u8x4 => some 1 | .e4m3x4 => some 1 | .e5m2x4 => some 1
  | .e2m1x8 => none | .i4x8 => none | .tern16 => none
/-- LEA (R101): a is read as i64, b as i32. -/
def jobLea (d : Dst) (a b : Src) (f : Frame) : Job :=
  let size := leaSize f.mode.t
  { ok := fun _ => size.isSome && srcLitOk b false
    vreads := srcVRefs a 2 true ++ srcVRefs b 1 false
    ureads := srcURegs a ++ srcURegs b
    vwrites := [⟨d, 2, true⟩]
    cost := plainCost
    run := laneRun d 2 fun f l =>
      (ux 64 ((srcVal f .i64 a l : Int) + sx 32 (srcVal f .i32 b l) * (size.getD 0 : Nat)), 0) }
/-- LEA (R101). -/
def execLea (sw : Bool) (d : Dst) (a b : Src) (s : State) : Outcome State := issueJob (.lea sw d a b) sw (jobLea d a b) s

/-! ## Predicates (R102, R103) -/

/-- PLOG (R102). -/
def jobPlog (p a b : PReg) (table : BitVec 4) (_ : Frame) : Job :=
  { ok := fun _ => true
    preads := [a.val, b.val]
    pwrites := [p.val]
    cost := perWord 1
    run := predRun p fun f l =>
      (table.getLsbD (((f.regs.pget a.val).getLsbD l).toNat * 2 + ((f.regs.pget b.val).getLsbD l).toNat), 0) }
/-- PLOG (R102). -/
def execPlog (sw : Bool) (p a b : PReg) (table : BitVec 4) (s : State) : Outcome State :=
  issueJob (.plog sw p a b table) sw (jobPlog p a b table) s

/-- VTOP (R103): tests the 32-bit register, whatever MODE.T. -/
def jobVtop (p : PReg) (a : Src) (_ : Frame) : Job :=
  { ok := fun _ => srcLitOk a false
    vreads := srcVRefs a 1 false
    ureads := srcURegs a
    pwrites := [p.val]
    cost := perWord 1
    run := predRun p fun f l => (srcVal f .u32 a l != 0, 0) }
/-- VTOP (R103). -/
def execVtop (sw : Bool) (p : PReg) (a : Src) (s : State) : Outcome State := issueJob (.vtop sw p a) sw (jobVtop p a) s

/-- PTOV (R103). -/
def jobPtov (d : Dst) (p : PReg) (_ : Frame) : Job :=
  { ok := fun _ => true
    preads := [p.val]
    vwrites := [⟨d, 1, false⟩]
    cost := perWord 1
    run := laneRun d 1 fun f l => (((f.regs.pget p.val).getLsbD l).toNat, 0) }
/-- PTOV (R103). -/
def execPtov (sw : Bool) (d : Dst) (p : PReg) (s : State) : Outcome State := issueJob (.ptov sw d p) sw (jobPtov d p) s

end Sys2Proof.Machine
end

