-- ==== Sys2Proof/Machine/Exchange.lean ====
section
/-! DEFINITION. Exchange between lanes and index registers: majors 0x3B to 0x46 (spec/05_instructions_core.md R104 to
R112). -/
namespace Sys2Proof.Machine

/-! ## Shuffles (R104) -/

/-- The A operand is a v code (R104). -/
def srcPlainV : Src → Bool
  | .v _ => true
  | .s _ => false | .lane => false | .team => false | .core => false | .clock => false | .konst _ => false | .lit _ => false
  | .lit64 _ => false | .idx _ => false

/-- The job of a shuffle: `g` gives the source lane from L and b[L], taken where it is a lane of the team; a mask word that
reads another word takes a further pass (R104). The lane operand b is a 32-bit unsigned integer whatever MODE.T (log 21). -/
def shufJob (d : Dst) (a b : Src) (g : Nat → Nat → Int) (f : Frame) : Job :=
  let t := f.mode.t
  let from_ (f : Frame) (l : Nat) : Nat :=
    let x := g l (srcVal f .u32 b l)
    if 0 ≤ x ∧ x < (f.lanes : Int) then x.toNat else l
  { ok := fun _ => srcPlainV a && srcLitOk b false
    vreads := srcVRefs a t.regs t.wide ++ srcVRefs b 1 false
    ureads := srcURegs a ++ srcURegs b
    vwrites := [⟨d, t.regs, t.wide⟩]
    cost := fun f => (wordsOfMask f.mask).map fun w =>
      (w, 1 + (if (lanesOf (f.part &&& wordMask w)).any fun l => from_ f l / 32 != w then 1 else 0))
    run := laneRun d t.regs fun f l => (srcVal f t a (from_ f l), 0) }

/-- SHFL (R104). -/
def jobShfl (d : Dst) (a b : Src) : Frame → Job := shufJob d a b fun _ y => y
/-- SHFL (R104). -/
def execShfl (sw : Bool) (d : Dst) (a b : Src) (s : State) : Outcome State := issueJob (.shfl sw d a b) sw (jobShfl d a b) s
/-- SHFX (R104). -/
def jobShfx (d : Dst) (a b : Src) : Frame → Job := shufJob d a b fun l y => (l ^^^ y : Nat)
/-- SHFX (R104). -/
def execShfx (sw : Bool) (d : Dst) (a b : Src) (s : State) : Outcome State := issueJob (.shfx sw d a b) sw (jobShfx d a b) s
/-- SHFU (R104). -/
def jobShfu (d : Dst) (a b : Src) : Frame → Job := shufJob d a b fun l y => (l : Int) - y
/-- SHFU (R104). -/
def execShfu (sw : Bool) (d : Dst) (a b : Src) (s : State) : Outcome State := issueJob (.shfu sw d a b) sw (jobShfu d a b) s
/-- SHFD (R104). -/
def jobShfd (d : Dst) (a b : Src) : Frame → Job := shufJob d a b fun l y => (l : Int) + y
/-- SHFD (R104). -/
def execShfd (sw : Bool) (d : Dst) (a b : Src) (s : State) : Outcome State := issueJob (.shfd sw d a b) sw (jobShfd d a b) s

/-! ## Votes (R105, R106) -/

/-- The value of a vote over the tests of the lanes that take part (R105). -/
def voteVal (fn : VoteFn) (ts : List Bool) : Bool :=
  match fn with
  | .every => ts.all id
  | .some => ts.any id
  | .same => ts.all id || ts.all not
  | .odd => (ts.filter id).length % 2 == 1

/-- VOTE (R105): parks with a pending input. -/
def jobVote (p : PReg) (fn : VoteFn) (a : Src) (_ : Frame) : Job :=
  { ok := fun _ => srcLitOk a false
    vreads := srcVRefs a 1 false
    ureads := srcURegs a
    pwrites := [p.val]
    defers := false
    cost := perWord 1
    run := fun _ f s =>
      let v := voteVal fn (f.on.map fun l => srcVal f .u32 a l != 0)
      Act.writes s (if f.part = 0 then Writes.none else Writes.ofP p.val f.part (if v then f.part else 0)) }
/-- VOTE (R105). -/
def execVote (sw : Bool) (p : PReg) (fn : VoteFn) (a : Src) (s : State) : Outcome State :=
  issueJob (.vote sw p fn a) sw (jobVote p fn a) s

/-- The passes of `ballot` (R153): one for each non-empty mask word of the slice, and one when both are empty. -/
def ballotCost (j : Nat) (f : Frame) : List (Nat × Nat) :=
  let ws := (wordsOfMask f.mask).filter fun w => w / 2 == j
  if ws.isEmpty then onePass else ws.map fun w => (w, 1)
/-- BALLOT (R106): variable-latency; parks with a pending input. -/
def jobBallot (d : SReg) (a : Src) (b : USrc) (_ : Frame) : Job :=
  { ok := fun _ => srcLitOk a false
    vreads := srcVRefs a 1 false
    ureads := srcURegs a ++ usrcURegs b
    uwrites := [d.val]
    defers := false
    late := true
    cost := fun f => ballotCost (usrcVal f b).toNat f
    run := fun _ f s =>
      let j := (usrcVal f b).toNat
      let x := (f.on.filter fun l => l / 64 == j && srcVal f .u32 a l != 0).foldl (fun x l => x + 2 ^ (l % 64)) 0
      Act.writes s (Writes.ofU d.val (BitVec.ofNat 64 x)) }
/-- BALLOT (R106). -/
def execBallot (sw : Bool) (d : SReg) (a : Src) (b : USrc) (s : State) : Outcome State :=
  issueJob (.ballot sw d a b) sw (jobBallot d a b) s

/-! ## Sums (R65, R107, R108) -/

/-- The partial sums over a list of lane values, each with its lane (R65). -/
def partials (e : Elem) (v : Env) : List (Nat × Nat) → Option Res → List (Nat × Res)
  | [], _ => []
  | (l, x) :: r, acc =>
    let y := match acc with
      | none => Res.pure x
      | some a => sumStep e v a x
    (l, y) :: partials e v r (some y)

/-- PSUM (R107). -/
def jobPsum (d : Dst) (a : Src) (f : Frame) : Job :=
  let t := f.mode.t
  { ok := fun _ => scalarOk t && srcLitOk a t.wide
    vreads := srcVRefs a t.regs t.wide
    ureads := srcURegs a
    vwrites := [⟨d, t.regs, t.wide⟩]
    cost := plainCost
    run := fun _ f s =>
      let ps := partials t.elem f.mode.env (f.on.map fun l => (l, srcVal f t a l)) none
      Act.writes s { Writes.none with
        v := ps.flatMap fun p => dstWrites f d t.regs p.1 p.2.val
        flags := ps.foldl (fun x p => x ||| p.2.flags) 0 } }
/-- PSUM (R107). -/
def execPsum (sw : Bool) (d : Dst) (a : Src) (s : State) : Outcome State := issueJob (.psum sw d a) sw (jobPsum d a) s

/-- A 32-bit or 64-bit value placed in a uniform register (R108, R110): i32 is sign-extended. -/
def placeU (t : Ty) (x : Nat) : W64 := if t = .i32 then sext64 (BitVec.ofNat 32 x) else BitVec.ofNat 64 x

/-- REDU (R108): variable-latency; parks with a pending input. -/
def jobRedu (d : SReg) (a : Src) (f : Frame) : Job :=
  let t := f.mode.t
  { ok := fun _ => scalarOk t && srcLitOk a t.wide
    vreads := srcVRefs a t.regs t.wide
    ureads := srcURegs a
    uwrites := [d.val]
    defers := false
    late := true
    cost := plainCost
    run := fun _ f s =>
      let r := ((partials t.elem f.mode.env (f.on.map fun l => (l, srcVal f t a l)) none).getLast?.map (·.2)).getD (.pure 0)
      Act.writes s { Writes.ofU d.val (placeU t r.val) with flags := r.flags } }
/-- REDU (R108). -/
def execRedu (sw : Bool) (d : SReg) (a : Src) (s : State) : Outcome State := issueJob (.redu sw d a) sw (jobRedu d a) s

/-! ## Conflicts and single lanes (R109, R110) -/

/-- VCONF (R109): the lowest lane that takes part and holds the same value; one pass for each ordered pair of non-empty
mask words. -/
def jobVconf (d : Dst) (a : Src) (f : Frame) : Job :=
  let t := f.mode.t
  { ok := fun _ => srcLitOk a t.wide
    vreads := srcVRefs a t.regs t.wide
    ureads := srcURegs a
    vwrites := [⟨d, t.regs, t.wide⟩]
    cost := fun f => perWord (wordsOfMask f.mask).length f
    run := fun h f s =>
      let xs := f.on.map fun l => (l, srcVal f t a l)
      laneRun d t.regs (fun f l => (((xs.find? fun x => x.2 = srcVal f t a l).map (·.1)).getD l, 0)) h f s }
/-- VCONF (R109). -/
def execVconf (sw : Bool) (d : Dst) (a : Src) (s : State) : Outcome State := issueJob (.vconf sw d a) sw (jobVconf d a) s

/-- A lane's index, if the source has one, names a register of its window (R38). -/
def srcLaneOk (f : Frame) (t : Ty) (a : Src) (l : Nat) : Bool := (srcVRefs a t.regs t.wide).all fun r => r.laneOk f l
/-- The register image of a source in a lane that need not take part (R110, R252). Such a lane never raises REGINDEX (R159); where its
index names no register of its window the value is free, by the draw of a number (log 61). -/
def laneVal (f : Frame) (t : Ty) (a : Src) (l draw : Nat) : Nat :=
  if srcLaneOk f t a l then srcVal f t a l else (Config.freeWord draw).toNat % 2 ^ (32 * t.regs)

/-- RDLANE (R110): variable-latency; it writes whatever lanes take part (log 46), and its guard counts as an input (R73). Indices are
checked in the lanes that take part (R38); the lane that it reads need not (log 61). Its inputs are the registers of that lane, or while
b is pending those of every lane that b may name (R158). -/
def jobRdlane (d : SReg) (a : Src) (b : USrc) (f : Frame) : Job :=
  let t := f.mode.t
  { ok := fun _ => srcLitOk a t.wide
    vreads := srcVRefs a t.regs t.wide
    ureads := srcURegs a ++ usrcURegs b
    uwrites := [d.val]
    reach := fun f _ => [(usrcVal f b).toNat % f.lanes]
    might := fun f _ => if (usrcURegs b).isEmpty then [(usrcVal f b).toNat % f.lanes] else List.range f.lanes
    late := true
    cost := uniCost
    run := fun _ f s =>
      let l := (usrcVal f b).toNat % f.lanes
      Act.writes (if srcLaneOk f t a l then s else s.bump) (Writes.ofU d.val (placeU t (laneVal f t a l s.tick))) }
/-- RDLANE (R110). -/
def execRdlane (sw : Bool) (d : SReg) (a : Src) (b : USrc) (s : State) : Outcome State :=
  issueJob (.rdlane sw d a b) sw (jobRdlane d a b) s

/-! ## Index registers (R111, R112) -/

/-- XSET (R111): parks with a pending input. A is read as a 32-bit unsigned integer whatever MODE.T: the model's reading
(log 21). -/
def jobXset (x : Fin 4) (a : Src) (_ : Frame) : Job :=
  { ok := fun _ => srcLitOk a false
    vreads := srcVRefs a 1 false
    ureads := srcURegs a
    defers := false
    cost := perWord 1
    run := fun _ f s =>
      Act.writes s { Writes.none with x := f.on.map fun l => (vKey x.val l, BitVec.ofNat 8 (srcVal f .u32 a l)) } }
/-- XSET (R111). -/
def execXset (sw : Bool) (x : Fin 4) (a : Src) (s : State) : Outcome State := issueJob (.xset sw x a) sw (jobXset x a) s

/-- The keys of a count operand. -/
def cntKeys (a : Cnt) : List RegKey := (cntURegs a).map .s
/-- Literal words of a count operand. -/
def cntLits (a : Cnt) : Nat :=
  match a with
  | .lit _ => 1 | .lit64 _ => 2 | .s _ => 0 | .konst _ => 0

/-- XWIN (R46, R112): a length outside 1 to 192, or a window past v191, raises ILLEGAL. -/
def execXwin (sw : Bool) (x : Fin 4) (base : Fin 192) (len : Cnt) (s : State) : Outcome State :=
  onTeam s fun h => reading s h (cntKeys len) fun s f =>
    let n := (cntVal f len).toNat
    if n = 0 || 192 < base.val + n then illegal s h
    else .next (endAt s h sw (nextPc h.tm.pc (cntLits len)) onePass
      { h.tm with regs := { h.tm.regs with win := h.tm.regs.win.set x.val ⟨base.val, n⟩ } })

end Sys2Proof.Machine
end

