-- ==== Sys2Proof/Machine/Uniform.lean ====
section
/-! DEFINITION. The uniform ALU: majors 0x48 to 0x55, but `umov` with a q operand (spec/05_instructions_core.md R113,
R114). -/
namespace Sys2Proof.Machine

/-- The job of a uniform instruction: 64-bit sources, one 64-bit result, no flag, no guard (R72, R113). -/
def uniJob (d : SReg) (a b : USrc) (g : W64 → W64 → W64) (_ : Frame) : Job :=
  { ok := fun _ => true
    ureads := usrcURegs a ++ usrcURegs b
    uwrites := [d.val]
    guarded := false
    cost := uniCost
    run := fun _ f s => Act.writes s (Writes.ofU d.val (g (usrcVal f a) (usrcVal f b))) }

/-- UADD (R113). -/
def jobUadd (d : SReg) (a b : USrc) : Frame → Job := uniJob d a b fun x y => x + y
/-- UADD (R113). -/
def execUadd (sw : Bool) (d : SReg) (a b : USrc) (s : State) : Outcome State := issueJob (.uadd sw d a b) sw (jobUadd d a b) s
/-- USUB (R113). -/
def jobUsub (d : SReg) (a b : USrc) : Frame → Job := uniJob d a b fun x y => x - y
/-- USUB (R113). -/
def execUsub (sw : Bool) (d : SReg) (a b : USrc) (s : State) : Outcome State := issueJob (.usub sw d a b) sw (jobUsub d a b) s
/-- UMUL (R113). -/
def jobUmul (d : SReg) (a b : USrc) : Frame → Job := uniJob d a b fun x y => x * y
/-- UMUL (R113). -/
def execUmul (sw : Bool) (d : SReg) (a b : USrc) (s : State) : Outcome State := issueJob (.umul sw d a b) sw (jobUmul d a b) s
/-- UAND (R113). -/
def jobUand (d : SReg) (a b : USrc) : Frame → Job := uniJob d a b fun x y => x &&& y
/-- UAND (R113). -/
def execUand (sw : Bool) (d : SReg) (a b : USrc) (s : State) : Outcome State := issueJob (.uand sw d a b) sw (jobUand d a b) s
/-- UOR (R113). -/
def jobUor (d : SReg) (a b : USrc) : Frame → Job := uniJob d a b fun x y => x ||| y
/-- UOR (R113). -/
def execUor (sw : Bool) (d : SReg) (a b : USrc) (s : State) : Outcome State := issueJob (.uor sw d a b) sw (jobUor d a b) s
/-- UXOR (R113). -/
def jobUxor (d : SReg) (a b : USrc) : Frame → Job := uniJob d a b fun x y => x ^^^ y
/-- UXOR (R113). -/
def execUxor (sw : Bool) (d : SReg) (a b : USrc) (s : State) : Outcome State := issueJob (.uxor sw d a b) sw (jobUxor d a b) s
/-- USHL (R113): 0 when b is 64 or more. -/
def jobUshl (d : SReg) (a b : USrc) : Frame → Job := uniJob d a b fun x y => if y.toNat < 64 then x <<< y.toNat else 0
/-- USHL (R113). -/
def execUshl (sw : Bool) (d : SReg) (a b : USrc) (s : State) : Outcome State := issueJob (.ushl sw d a b) sw (jobUshl d a b) s
/-- USHR (R113): logical; 0 when b is 64 or more. -/
def jobUshr (d : SReg) (a b : USrc) : Frame → Job := uniJob d a b fun x y => if y.toNat < 64 then x >>> y.toNat else 0
/-- USHR (R113). -/
def execUshr (sw : Bool) (d : SReg) (a b : USrc) (s : State) : Outcome State := issueJob (.ushr sw d a b) sw (jobUshr d a b) s
/-- UMOV (R113). -/
def jobUmov (d : SReg) (a : USrc) : Frame → Job := uniJob d a (.konst 0) fun x _ => x
/-- UMOV (R113). -/
def execUmov (sw : Bool) (d : SReg) (a : USrc) (s : State) : Outcome State := issueJob (.umov sw d a) sw (jobUmov d a) s
/-- UMIN (R113): signed. -/
def jobUmin (d : SReg) (a b : USrc) : Frame → Job := uniJob d a b fun x y => if y.slt x then y else x
/-- UMIN (R113). -/
def execUmin (sw : Bool) (d : SReg) (a b : USrc) (s : State) : Outcome State := issueJob (.umin sw d a b) sw (jobUmin d a b) s
/-- UMAX (R113): signed. -/
def jobUmax (d : SReg) (a b : USrc) : Frame → Job := uniJob d a b fun x y => if x.slt y then y else x
/-- UMAX (R113). -/
def execUmax (sw : Bool) (d : SReg) (a b : USrc) (s : State) : Outcome State := issueJob (.umax sw d a b) sw (jobUmax d a b) s
/-- UDIV (R60, R113): unsigned; all ones by zero. -/
def jobUdiv (d : SReg) (a b : USrc) : Frame → Job := uniJob d a b fun x y => if y = 0 then BitVec.allOnes 64 else x / y
/-- UDIV (R113). -/
def execUdiv (sw : Bool) (d : SReg) (a b : USrc) (s : State) : Outcome State := issueJob (.udiv sw d a b) sw (jobUdiv d a b) s
/-- UREM (R60, R113): unsigned; a by zero. -/
def jobUrem (d : SReg) (a b : USrc) : Frame → Job := uniJob d a b fun x y => if y = 0 then x else x % y
/-- UREM (R113). -/
def execUrem (sw : Bool) (d : SReg) (a b : USrc) (s : State) : Outcome State := issueJob (.urem sw d a b) sw (jobUrem d a b) s

/-- The relation of two signed 64-bit values (R114): nan false, num true. -/
def relInt (r : Rel) (x y : Int) : Bool :=
  match r with
  | .eq => x == y | .ne => x != y | .lt => decide (x < y) | .le => decide (x ≤ y) | .gt => decide (y < x)
  | .ge => decide (y ≤ x) | .nan => false | .num => true
/-- UCMP (R114): written in every lane of M, whatever the guard. -/
def jobUcmp (p : PReg) (r : Rel) (a b : USrc) (_ : Frame) : Job :=
  { ok := fun _ => true
    ureads := usrcURegs a ++ usrcURegs b
    pwrites := [p.val]
    guarded := false
    lanes := fun f => lanesOf f.mask
    cost := uniCost
    run := fun _ f s =>
      Act.writes s (Writes.ofP p.val f.mask (if relInt r (usrcVal f a).toInt (usrcVal f b).toInt then f.mask else 0)) }
/-- UCMP (R114). -/
def execUcmp (sw : Bool) (p : PReg) (r : Rel) (a b : USrc) (s : State) : Outcome State :=
  issueJob (.ucmp sw p r a b) sw (jobUcmp p r a b) s

end Sys2Proof.Machine
end

