-- ==== Sys2Proof/Machine/MemInstr.lean ====
section
/-! DEFINITION. Loads, stores, atomics, fences, monitors and cache control: majors 0x58 to 0x67, 0x6C to 0x6E
(spec/06_instructions_memory.md R117 to R136, R148). -/
namespace Sys2Proof.Machine

/-! ## Shared forms -/

/-- The registers that one lane moves (R122, R153). -/
def formRegs (t : Ty) : MemForm → Nat
  | .nat => t.regs | .x2 => 2 * t.regs | .x4 => 4 * t.regs | .byte => 1 | .half => 1 | .sync => t.regs
/-- The span of a load's destination or a store's data register (R39, R122). -/
def formRef (t : Ty) (m : MemForm) (d : Dst) : VRef := ⟨d, formRegs t m, t.wide && m != .byte && m != .half⟩
/-- The alignment of an access (R120). -/
def formAlign (t : Ty) : MemForm → Nat
  | .byte => 1 | .half => 2 | .nat => t.bytes | .x2 => t.bytes | .x4 => t.bytes | .sync => t.bytes

/-- The global accesses of the lanes that take part (R117). -/
def globAccs (f : Frame) (a : Base) (o : Offset) (size : Nat) : List Acc := f.on.map fun l => ⟨l, baseAddr f a o l, size⟩
/-- The scratchpad accesses of the lanes that take part (R117). -/
def spadAccs (f : Frame) (a : Base) (o : Offset) (size : Nat) : List Acc :=
  f.on.map fun l => ⟨l, BitVec.ofNat 64 (baseOff f a o l), size⟩
/-- The accesses of a space. -/
def accsOf (sp : Space) (f : Frame) (a : Base) (o : Offset) (size : Nat) : List Acc :=
  match sp with
  | .glob _ => globAccs f a o size
  | .spad _ => spadAccs f a o size
/-- The space is global, so that its addresses are pairs. -/
def Space.wide : Space → Bool
  | .glob _ => true | .spad _ => false

/-- Bytes cut into blocks of `n`. -/
def blocks (n : Nat) : Nat → List Byte → List (List Byte)
  | 0, _ => []
  | k + 1, bs => bs.take n :: blocks n k (bs.drop n)

/-- The writes of a load, one block of bytes for each lane (R122). -/
def loadFin (d : Dst) (m : MemForm) (f : Frame) (bs : List Byte) : Writes :=
  let t := f.mode.t
  let ls := f.on
  Writes.ofV ((ls.zip (blocks (formBytes t m) ls.length bs)).flatMap fun p => dstWrites f d (formRegs t m) p.1 (natOf p.2))

/-- The job of a lane load (R122). -/
def loadJob (sp : Space) (d : Dst) (a : Base) (o : Offset) (str : Stream) (m : MemForm) (f : Frame) : Job :=
  let t := f.mode.t
  { ok := fun _ => true
    vreads := baseVRefs a sp.wide
    ureads := baseURegs a
    vwrites := [formRef t m d]
    late := true
    stream := some str.val
    cost := perWord (formRegs t m)
    run := fun h f s =>
      loadLanes h f s (some str.val) sp (formAlign t m) (m == .sync) (accsOf sp f a o (formBytes t m)) (loadFin d m)
    fin := loadFin d m }

/-- The type in which a store reads an operand that is no lane register (R32, R37, R122): a byte or halfword form moves one 32-bit
register under every MODE.T. -/
def formTy (t : Ty) : MemForm → Ty
  | .byte => .u32 | .half => .u32 | .nat => t | .x2 => t | .x4 => t | .sync => t
/-- The bytes that a lane stores (R122): a v span, or one value in every element. A constant of a byte or halfword form is read as an
unsigned number: the model's reading (log 21). -/
def storeBytes (b : Src) (m : MemForm) (f : Frame) (l : Nat) : List Byte :=
  let t := f.mode.t
  let n := formBytes t m
  match b with
  | .v r => bytesOf n (laneNat f.regs l r.val (formRegs t m))
  | .idx x => bytesOf n (laneNat f.regs l ((formRef t m (.idx x)).first f l) (formRegs t m))
  | _ =>
    let x := srcVal f (formTy t m) b l
    let one := bytesOf (min n t.bytes) x
    (List.replicate (n / min n t.bytes) one).flatten

/-- The job of a lane store (R122). -/
def storeJob (sp : Space) (b : Src) (a : Base) (o : Offset) (str : Stream) (m : MemForm) (f : Frame) : Job :=
  let t := f.mode.t
  let r := formRef t m (.v 0)
  { ok := fun _ => srcLitOk b r.even
    vreads := baseVRefs a sp.wide ++ srcVRefs b r.n r.even
    ureads := baseURegs a ++ srcURegs b
    stream := some str.val
    cost := perWord (formRegs t m)
    run := fun h f s =>
      storeLanes h f s (some str.val) sp (formAlign t m) (m == .sync) (accsOf sp f a o (formBytes t m)) (storeBytes b m f) }

/-! ## Loads and stores (R122, R123) -/

/-- LD (R122, R123). -/
def jobLd (d : Dst) (a : Base) (o : Offset) (str : Stream) (m : MemForm) : Frame → Job := loadJob (.glob true) d a o str m
/-- LD (R122, R123). -/
def execLd (sw : Bool) (d : Dst) (a : Base) (o : Offset) (str : Stream) (m : MemForm) (s : State) : Outcome State :=
  issueJob (.ld sw d a o str m) sw (jobLd d a o str m) s
/-- ST (R122, R123). -/
def jobSt (b : Src) (a : Base) (o : Offset) (str : Stream) (m : MemForm) : Frame → Job := storeJob (.glob true) b a o str m
/-- ST (R122, R123). -/
def execSt (sw : Bool) (b : Src) (a : Base) (o : Offset) (str : Stream) (m : MemForm) (s : State) : Outcome State :=
  issueJob (.st sw b a o str m) sw (jobSt b a o str m) s
/-- LDS (R122, R124). -/
def jobLds (d : Dst) (a : Base) (o : Offset) (str : Stream) (m : MemForm) : Frame → Job := loadJob (.spad true) d a o str m
/-- LDS (R122, R124). -/
def execLds (sw : Bool) (d : Dst) (a : Base) (o : Offset) (str : Stream) (m : MemForm) (s : State) : Outcome State :=
  issueJob (.lds sw d a o str m) sw (jobLds d a o str m) s
/-- STS (R122, R124). -/
def jobSts (b : Src) (a : Base) (o : Offset) (str : Stream) (m : MemForm) : Frame → Job := storeJob (.spad true) b a o str m
/-- STS (R122, R124). -/
def execSts (sw : Bool) (b : Src) (a : Base) (o : Offset) (str : Stream) (m : MemForm) (s : State) : Outcome State :=
  issueJob (.sts sw b a o str m) sw (jobSts b a o str m) s
/-- LDQ (R119, R122). -/
def jobLdq (d : Dst) (a : Base) (o : Offset) (str : Stream) (m : MemForm) : Frame → Job := loadJob (.spad false) d a o str m
/-- LDQ (R119, R122). -/
def execLdq (sw : Bool) (d : Dst) (a : Base) (o : Offset) (str : Stream) (m : MemForm) (s : State) : Outcome State :=
  issueJob (.ldq sw d a o str m) sw (jobLdq d a o str m) s
/-- STQ (R119, R122). -/
def jobStq (b : Src) (a : Base) (o : Offset) (str : Stream) (m : MemForm) : Frame → Job := storeJob (.spad false) b a o str m
/-- STQ (R119, R122). -/
def execStq (sw : Bool) (b : Src) (a : Base) (o : Offset) (str : Stream) (m : MemForm) (s : State) : Outcome State :=
  issueJob (.stq sw b a o str m) sw (jobStq b a o str m) s

/-! ## The constant path (R125) -/

/-- Fills the constant cache of a core with a line, where its bytes can be had. -/
def constFill (s : State) (core asid line : Nat) : State :=
  let held := ((s.cores[core]?).map fun c => c.ccache.any fun x => x.line == line && x.asid == asid).getD false
  if held then s
  else match fillData s core line with
    | some d => (mscRead s line).modCore core fun c => { c with ccache := ⟨line, asid, d⟩ :: c.ccache }
    | none => s
/-- A byte that a core's constant cache holds. -/
def constByte (s : State) (h : Here) (x : Spot) : Option Byte :=
  ((s.cores[h.core]?).bind fun c => c.ccache.find? fun y => y.line == lineOf x.pa && y.asid == h.asid).map
    fun y => sget y.data (x.pa % 128)

/-- The access of `ldc` (R118, R125): no window, no stream. -/
def ldcRun (d : Dst) (a : Base) (o : Offset) (m : MemForm) (h : Here) (f : Frame) (s : State) : Act :=
  let t := f.mode.t
  let as := globAccs f a o (formBytes t m)
  let r := placeAll s h (.glob false) .read (formAlign t m) as
  match pickFault r.2.2 with
  | some x => memFault r.1 f x
  | none =>
    let lines := linesOf (r.2.1.flatMap Placed.spots)
    let s1 := lines.foldl (fun s l => constFill s h.core h.asid l) r.1
    let q := gather s1 h (nextOwner h) constByte r.2.1
    finish (noteImported q.1 h (r.2.1.flatMap Placed.spots)) f (loadFin d m) q.2.1 q.2.2 (touches as true false)
/-- LDC (R125). -/
def jobLdc (d : Dst) (a : Base) (o : Offset) (m : MemForm) (f : Frame) : Job :=
  let t := f.mode.t
  { ok := fun _ => true
    vreads := baseVRefs a true
    ureads := baseURegs a
    vwrites := [formRef t m d]
    late := true
    cost := perWord (formRegs t m)
    run := ldcRun d a o m
    fin := loadFin d m }
/-- LDC (R125). -/
def execLdc (sw : Bool) (d : Dst) (a : Base) (o : Offset) (m : MemForm) (s : State) : Outcome State :=
  issueJob (.ldc sw d a o m) sw (jobLdc d a o m) s

/-! ## Atomics (R128 to R131) -/

/-- The writes of an atomic: the old value into D, where it has one. -/
def atomFin (d : Option Dst) (f : Frame) (bs : List Byte) : Writes :=
  match d with
  | some d => loadFin d .nat f bs
  | none => Writes.none
/-- The registers of an atomic's data operand. -/
def atomRefs (t : Ty) (d : Option Dst) : List VRef :=
  match d with
  | some d => [⟨d, t.regs, t.wide⟩]
  | none => []
/-- The data value of a lane: 0 where D is 0xE8 (R128). -/
def atomData (f : Frame) (d : Option Dst) (l : Nat) : Nat :=
  match d with
  | some d => dstVal f d f.mode.t.regs l 0
  | none => 0

/-- The job of an atomic (R128, R129); with `sync` it acquires and releases. -/
def atomJob (sp : Space) (sync : Bool) (d : Option Dst) (a : Base) (o : Offset) (str : Stream) (fn : AtomFn) (f : Frame) :
    Job :=
  let t := f.mode.t
  { ok := fun _ => atomTypes fn t
    vreads := baseVRefs a sp.wide ++ atomRefs t d
    ureads := baseURegs a
    vwrites := atomRefs t d
    late := d.isSome
    stream := some str.val
    cost := perWord t.regs
    run := fun h f s =>
      atomLanes h f s (some str.val) sp t.bytes sync (.fn fn t (atomData f d)) (accsOf sp f a o t.bytes) (atomFin d)
    fin := atomFin d }

/-- ATOM (R128, R129, R131). -/
def jobAtom (d : Option Dst) (a : Base) (o : Offset) (str : Stream) (fn : AtomFn) : Frame → Job :=
  atomJob (.glob true) false d a o str fn
/-- ATOM (R128, R129, R131). -/
def execAtom (sw : Bool) (d : Option Dst) (a : Base) (o : Offset) (str : Stream) (fn : AtomFn) (s : State) : Outcome State :=
  issueJob (.atom sw d a o str fn) sw (jobAtom d a o str fn) s
/-- ATOMS (R128, R129, R131). -/
def jobAtoms (d : Option Dst) (a : Base) (o : Offset) (str : Stream) (fn : AtomFn) : Frame → Job :=
  atomJob (.spad false) false d a o str fn
/-- ATOMS (R128, R129, R131). -/
def execAtoms (sw : Bool) (d : Option Dst) (a : Base) (o : Offset) (str : Stream) (fn : AtomFn) (s : State) : Outcome State :=
  issueJob (.atoms sw d a o str fn) sw (jobAtoms d a o str fn) s
/-- ATOMAR (R128, R129, R172, R173). -/
def jobAtomar (d : Option Dst) (a : Base) (o : Offset) (str : Stream) (fn : AtomFn) : Frame → Job :=
  atomJob (.glob true) true d a o str fn
/-- ATOMAR (R128, R129, R172, R173). -/
def execAtomar (sw : Bool) (d : Option Dst) (a : Base) (o : Offset) (str : Stream) (fn : AtomFn) (s : State) : Outcome State :=
  issueJob (.atomar sw d a o str fn) sw (jobAtomar d a o str fn) s

/-- CAS (R130): register d, or pair d, is the comparand, and the next one the new value. -/
def jobCas (d : Dst) (a : Base) (o : Offset) (str : Stream) (f : Frame) : Job :=
  let t := f.mode.t
  { ok := fun _ => true
    vreads := baseVRefs a true ++ [⟨d, 2 * t.regs, t.wide⟩]
    ureads := baseURegs a
    vwrites := [⟨d, t.regs, t.wide⟩]
    late := true
    stream := some str.val
    cost := perWord (2 * t.regs)
    run := fun h f s =>
      atomLanes h f s (some str.val) (.glob true) t.bytes false
        (.cas fun l => (dstVal f d t.regs l 0, dstVal f d t.regs l t.regs)) (globAccs f a o t.bytes) (atomFin (some d))
    fin := atomFin (some d) }
/-- CAS (R130, R131). -/
def execCas (sw : Bool) (d : Dst) (a : Base) (o : Offset) (str : Stream) (s : State) : Outcome State :=
  issueJob (.cas sw d a o str) sw (jobCas d a o str) s

/-! ## Uniform accesses (R127) -/

/-- A uniform access reports the lane mask M (R127). -/
def Act.uniform (f : Frame) : Act → Act
  | .fault s i => .fault s { i with mask := f.mask }
  | .wait s w => .wait s w
  | .done s w b n acc => .done s w b n (acc.flatMap fun t => (lanesOf f.mask).map fun l => { t with lane := l })
/-- The authors that a uniform store has just left report the lane mask M as well. -/
def authorsUniform (h : Here) (f : Frame) (s : State) : State :=
  s.modCore h.core fun c => { c with l1 := c.l1.map fun (x : L1Line) => { x with who := x.who.map fun p =>
    if p.2.team = h.t && p.2.tick = s.tick && p.2.pc = h.tm.pc then (p.1, { p.2 with lanes := f.mask }) else p } }
/-- A uniform store, with its authors. -/
def Act.uniformStore (h : Here) (f : Frame) : Act → Act
  | .fault s i => .fault s { i with mask := f.mask }
  | .wait s w => .wait s w
  | .done s w b n acc => (Act.done (authorsUniform h f s) w b n acc).uniform f
/-- The one access of a uniform instruction. -/
def uniAccs (f : Frame) (a : SReg) (o : Offset) (m : MemForm) : List Acc := [⟨0, f.regs.uget a.val + offVal o, uniBytes m⟩]
/-- The writes of `uld`: zero-extended (R127). -/
def uldFin (d : SReg) (_ : Frame) (bs : List Byte) : Writes := Writes.ofU d.val (BitVec.ofNat 64 (natOf bs))

/-- ULD (R127). -/
def jobUld (d a : SReg) (o : Offset) (str : Stream) (m : MemForm) (_ : Frame) : Job :=
  { ok := fun _ => true
    ureads := [a.val]
    uwrites := [d.val]
    guarded := false
    late := true
    stream := some str.val
    cost := uniCost
    run := fun h f s =>
      (loadLanes h f s (some str.val) (.glob true) (uniBytes m) (m == .sync) (uniAccs f a o m) (uldFin d)).uniform f
    fin := uldFin d }
/-- ULD (R127). -/
def execUld (sw : Bool) (d a : SReg) (o : Offset) (str : Stream) (m : MemForm) (s : State) : Outcome State :=
  issueJob (.uld sw d a o str m) sw (jobUld d a o str m) s
/-- UST (R127). -/
def jobUst (b : USrc) (a : SReg) (o : Offset) (str : Stream) (m : MemForm) (_ : Frame) : Job :=
  { ok := fun _ => true
    ureads := usrcURegs b ++ [a.val]
    guarded := false
    stream := some str.val
    cost := uniCost
    run := fun h f s =>
      (storeLanes h f s (some str.val) (.glob true) (uniBytes m) (m == .sync) (uniAccs f a o m)
        (fun _ => bytesOf (uniBytes m) (usrcVal f b).toNat)).uniformStore h f }
/-- UST (R127). -/
def execUst (sw : Bool) (b : USrc) (a : SReg) (o : Offset) (str : Stream) (m : MemForm) (s : State) : Outcome State :=
  issueJob (.ust sw b a o str m) sw (jobUst b a o str m) s

/-! ## Fences and monitors (R132 to R134) -/

/-- The POD acquire of a `fence.sc.pod` (R132): every imported page from which the team has loaded. -/
def podFence (s : State) (h : Here) : State :=
  let s1 := h.tm.podPages.foldl (fun s p => acquirePage s h.core h.asid p) s
  s1.modTeam h.t fun tm => { tm with podPages := [], podTags := [] }
/-- The requests of a list that have no answer yet. -/
def openTags (s : State) (ts : List Nat) : List Nat := ts.filter fun t => s.reqs.any fun r => r.tag = t

/-- FENCE (R132, R186): waits until the residues of its streams have drained and their requests are answered; a
`fence.sc.pod` also waits for the imported writes that the team has read, and acquires. -/
def execFence (sw : Bool) (mask : BitVec 16) (sc : Scope) (k : FenceKind) (s : State) : Outcome State :=
  onTeam s fun h =>
    if h.tm.residues.any fun r => (r.stream.map fun n => mask.getLsbD n).getD false then .next (park s h h.tm (.streams mask))
    else
      let tags := (h.tm.inflight.filter fun a => (a.stream.map fun n => mask.getLsbD n).getD false).flatMap (·.need)
      if !tags.isEmpty then .next (park s h h.tm (.fabric tags))
      else if k = .sc && sc = .pod then
        let open_ := openTags s h.tm.podTags
        if !open_.isEmpty then .next (park s h h.tm (.fabric open_))
        else
          let s1 := podFence s h
          .next (endAt s1 h sw (nextPc h.tm.pc 0) onePass (teamNow s1 h))
      else goTo sw s h (nextPc h.tm.pc 0)

/-- Literal words of an address offset (R30). -/
def offLits (o : Offset) : Nat := if o.isSome then 1 else 0

/-- MONITOR (R118, R133): arms the team's monitor on the line and clears its wake flag. -/
def execMonitor (sw : Bool) (a : SReg) (o : Offset) (s : State) : Outcome State :=
  onTeam s fun h => reading s h [.s a.val] fun s f =>
    let va := f.regs.uget a.val + offVal o
    let r := placePage s h .read ⟨0, va, 1⟩ va
    match r.2 with
    | .error e => raise r.1 h (rankCode e.rank) h.tm.active va
    | .ok x => .next (endAt r.1 h sw (nextPc h.tm.pc (offLits o)) onePass
        { h.tm with monitor := some (lineOf x.pa), wake := false })

/-- MWAIT (R134): returns when the wake flag is set or no monitor is armed, and disarms the monitor. -/
def execMwait (sw : Bool) (s : State) : Outcome State :=
  onTeam s fun h => whenDrained s h <|
    if h.tm.wake || h.tm.monitor.isNone then
      .next (endAt s h sw (nextPc h.tm.pc 0) onePass { h.tm with monitor := none, wake := false })
    else .next (block s h h.tm .monitor)

/-! ## Prefetch and cache control (R135, R136) -/

/-- The request of a prefetch of an imported line that the die does not hold (R135, R184), where none is open. -/
def prefAsk (s : State) (h : Here) (lvl : PrefLevel) (x : Xlat) (va : W64) : State :=
  let line := lineOf x.pa
  let held := ((dieFind s (dieOf h.core) line).map fun c => c.full.isSome).getD false
  if held || s.reqs.any fun r => r.fill && dieOf r.core = dieOf h.core && lineOf r.pa = line then s
  else (sendReq s (.prefetch h.asid x.priv (lvl == .l1 && x.cach)) h.core (keyOfAsid s h.asid) (line * 128) va 0 true false 0
    (.read 128)).1
/-- One lane of `pref` (R135): the line is requested into L1, the home slice or the memory-side cache (R339); an address that
would fault is dropped. -/
def prefLane (h : Here) (lvl : PrefLevel) (s : State) (a : Acc) : State :=
  let r := placeGlob s h false .read a
  match r.2 with
  | .ok (.glob x _ _) =>
    let line := lineOf x.pa
    if x.imp then
      let s1 := if lvl = .l1 && x.cach then fillLine r.1 h.core h.asid x.priv line else r.1
      prefAsk s1 h lvl x a.va
    else if lvl = .msc then mscPut r.1 line
    else if lvl = .l1 && x.cach then
      let held := (((r.1.cores[h.core]?).bind fun c => l1Find c line).bind fun l => l.clean).isSome
      let s1 := fillLine r.1 h.core h.asid x.priv line
      if held then s1 else mscRead s1 line
    else mscRead r.1 line
  | .ok (.spad ..) => r.1
  | .error _ => s
/-- PREF (R135). -/
def jobPref (a : Base) (o : Offset) (str : Stream) (lvl : PrefLevel) (_ : Frame) : Job :=
  { ok := fun _ => true
    vreads := baseVRefs a true
    ureads := baseURegs a
    stream := some str.val
    cost := perWord 1
    run := fun h f s => Act.writes ((globAccs f a o 1).foldl (prefLane h lvl) s) Writes.none }
/-- PREF (R135). -/
def execPref (sw : Bool) (a : Base) (o : Offset) (str : Stream) (lvl : PrefLevel) (s : State) : Outcome State :=
  issueJob (.pref sw a o str lvl) sw (jobPref a o str lvl) s

/-- The physical address that `clean` and `inval` act on (R136): none for an address that fails R118, lies in the window, is
unmapped, or has neither right. -/
def cleanAddr (s : State) (h : Here) (va : W64) : State × Option Nat :=
  if !ordinary va then (s, none)
  else
    let r := walkFor s (some h.core) h.cx.ptroot.toNat va
    (r.1, match r.2 with
      | .ok l => if pteBit l.pte 1 || pteBit l.pte 2 then some (leafPa l va) else none
      | .error _ => none)
/-- The physical addresses of the lanes of `clean` or `inval`, in order. -/
def cleanAddrs (s : State) (h : Here) (as : List Acc) : State × List Nat :=
  as.foldl (fun (st : State × List Nat) a =>
    let r := cleanAddr st.1 h a.va
    (r.1, st.2 ++ r.2.toList)) (s, [])
/-- The lines of an extent (R136). -/
def inExtent (e : Extent) (pa line : Nat) : Bool :=
  match e with
  | .line => line == pa / 128
  | .page => line / 512 == pa / 65536
/-- The requests on lines of an extent that `clean` and `inval` wait for: the team's earlier accesses, and what their core has
forwarded, until the exporter acknowledges (R136). -/
def extentTags (s : State) (h : Here) (hit : Nat → Bool) : List Nat :=
  (s.reqs.filter fun r => hit (lineOf r.pa) && match r.owner with
    | .team t _ => t == h.t
    | .forward .. => r.core == h.core
    | .engine _ => false
    | .prefetch .. => false).map (·.tag)
/-- `clean` or `inval` of every lane (R136): the extent's dirty bytes are written back, and once the home has acknowledged them
`inval` discards the copies. They come after every earlier access of the team, the deferred ones included. -/
def cleanRun (drop : Bool) (a : Base) (o : Offset) (e : Extent) (h : Here) (f : Frame) (s : State) : Act :=
  if h.tm.residues.any fun r => r.stream.isSome then .wait s .residues
  else
    let r := cleanAddrs s h (globAccs f a o 1)
    let hit := fun line => r.2.any fun pa => inExtent e pa line
    let s1 := writeBackWhere r.1 h.core fun l => hit l.line
    match extentTags s1 h hit with
    | [] => Act.writes (if drop then dropClean s1 h.core fun l => hit l.line else s1) Writes.none
    | tags => .wait s1 (.fabric tags)
/-- The job of `clean` and `inval`: they park with a pending input (R148). -/
def cleanJob (drop : Bool) (a : Base) (o : Offset) (e : Extent) (_ : Frame) : Job :=
  { ok := fun _ => true
    vreads := baseVRefs a true
    ureads := baseURegs a
    defers := false
    cost := perWord 1
    run := cleanRun drop a o e }
/-- CLEAN (R136). -/
def jobClean (a : Base) (o : Offset) (e : Extent) : Frame → Job := cleanJob false a o e
/-- CLEAN (R136). -/
def execClean (sw : Bool) (a : Base) (o : Offset) (e : Extent) (s : State) : Outcome State :=
  issueJob (.clean sw a o e) sw (jobClean a o e) s
/-- INVAL (R136). -/
def jobInval (a : Base) (o : Offset) (e : Extent) : Frame → Job := cleanJob true a o e
/-- INVAL (R136). -/
def execInval (sw : Bool) (a : Base) (o : Offset) (e : Extent) (s : State) : Outcome State :=
  issueJob (.inval sw a o e) sw (jobInval a o e) s

end Sys2Proof.Machine
end

