-- ==== Sys2Proof/Machine/Lattice.lean ====
section
/-! DEFINITION. Lattice access: majors 0x68 to 0x6B (spec/11_lattice_access.md R206 to R225). -/
namespace Sys2Proof.Machine

/-- The lanes that take part with their corners, and the lanes that raise LATTICE. -/
def lanesCorners (l : Lat) (f : Frame) (crd : Nat) : List (Nat × List Corner) × List Nat :=
  let cs := f.on.map fun x => (x, cornersOf l f crd x)
  (cs.filterMap fun c => c.2.map fun k => (c.1, k), (cs.filter fun c => c.2.isNone).map (·.1))

/-- LATTICE or SPLATRANGE of lanes (R225). -/
def latFault (s : State) (f : Frame) (code : Byte) (lanes : Mask) (base : W64) : Act := .fault s (.plain code f.pc lanes base)

/-! ## LDLAT (R207) -/

/-- A plain load in stream 0 by an instruction that parks until it has its bytes (R207, R248): after the team's deferred
accesses and the acquires of its stream (R168), with the faults of one access for all active lanes. -/
def parkedLoad (i : Instr) (s : State) (h : Here) (f : Frame) (al : Nat) (as : List Acc)
    (k : State → Here → List Byte → Outcome State) : Outcome State :=
  let tags := streamTags h (some 0) false
  if h.tm.residues.any fun r => r.stream.isSome then .next (park s h h.tm .residues)
  else if !tags.isEmpty then .next (park s h h.tm (.fabric tags))
  else
    let r := placeAll s h (.glob true) .read al as
    match pickFault r.2.2 with
    | some x => raise r.1 h x.1 h.tm.active x.2.2
    | none =>
      let q := loadPlaced r.1 h none r.2.1
      match knownBytes q.2.1 with
      | some bs => k q.1 { h with tm := teamNow q.1 h } bs
      | none =>
        let tm := teamNow q.1 h
        let l := launch q.1 { tm with nextId := tm.nextId + 1 }
          ⟨tm.nextId, i, f, some 0, [], [], Writes.none, q.2.2, [], [], none, none⟩ fun _ => 0
        .next (park l.1 h l.2 (.fabric q.2.2))
/-- The touches of an access made once for all active lanes (R355). -/
def uniTouches (f : Frame) (as : List Acc) (rd wr : Bool) : List Touch :=
  as.flatMap fun a => (lanesOf f.mask).map fun l => ⟨l, a.va, a.size, rd, wr⟩

/-- LDLAT (R207, R209): a plain load of 64 bytes in stream 0, checked and put into the slot. LATTICE carries the
rejected descriptor's base as its address: the model's choice (log 114). -/
def execLdlat (sw : Bool) (n : Fin 16) (a : USrc) (s : State) : Outcome State :=
  onTeam s fun h => reading s h (usrcKeys a) fun s f =>
    let acc : Acc := ⟨0, usrcVal f a, 64⟩
    parkedLoad (.ldlat sw n a) s h f 64 [acc] fun s h bs =>
      let d : BitVec 512 := BitVec.ofNat 512 (natOf bs)
      if !latOk d then raise s h 0x0B h.tm.active (latOf d).base
      else
        let s1 := s.modCohort h.tm.cohort fun co => { co with lats := co.lats.set n.val (some d) }
        let s2 := endAt s1 h sw (nextPc h.tm.pc (usrcLits a)) onePass (teamNow s1 h)
        .next (watch s2 h h.tm.pc (seenBy h none (uniTouches f [acc] true false)))

/-! ## LDI (R215, R216) -/

/-- The accesses of the corners of lanes, one for each corner in range (R216). -/
def cornerAccs (l : Lat) (cs : List (Nat × List Corner)) : List Acc :=
  cs.flatMap fun c => c.2.filterMap fun k => k.ent.map fun e => ⟨c.1, e.addr, l.entry⟩
/-- Every corner's access placed; a translation fault, with the address of the corner beside it. -/
def cornerPlaces (s : State) (h : Here) (need : Need) (as : List Acc) : State × List Placed × List (LaneFault × W64) :=
  as.foldl (fun (st : State × List Placed × List (LaneFault × W64)) a =>
    let r := placeGlob st.1 h true need a
    match r.2 with
    | .ok p => (r.1, st.2.1 ++ [⟨a, p⟩], st.2.2)
    | .error f => (r.1, st.2.1, st.2.2 ++ [(f, a.va)])) (s, [], [])
/-- Every corner's access placed; a translation fault carries the address of the corner (R225): under EXACT, where the shadow's translation
fails, that of the corner's shadow, the model's reading (log 127). -/
def placeCorners (s : State) (h : Here) (need : Need) (as : List Acc) : State × List Placed × List LaneFault :=
  let r := cornerPlaces s h need as
  (r.1, r.2.1, r.2.2.map fun x => { x.1 with addr := x.2 })
/-- The fault that corners placed from state `s0` take (R225), which keeps the address whose translation failed: of a corner that
straddles two pages that may be the second's (R310). -/
def cornerFault (s0 s : State) (h : Here) (f : Frame) (need : Need) (as : List Acc) (x : Byte × Mask × W64) : Act :=
  .fault s { FaultInfo.plain x.1 f.pc x.2.1 x.2.2 with
    page := (pickFault ((cornerPlaces s0 h need as).2.2.map (·.1))).map fun y => y.2.2 }

/-- The value of an entry element in f32 (R216). -/
def entryVal (l : Lat) (x : Nat) : Nat :=
  if l.smode = 2 then
    let v := sx 32 x
    (fround fmtF32 Env.plain (decide (v < 0)) v.natAbs l.elo false).val
  else (fltToFlt Env.plain fmtF32 (fread (latFmt l.etype) false x)).val

/-- The channel values of a list of corners, with the bytes of those in range in turn; 0 out of range. -/
def cornerVals (l : Lat) : List Corner → List Byte → List (Corner × List Nat)
  | [], _ => []
  | k :: r, bs =>
    match k.ent with
    | none => (k, List.replicate l.channels 0) :: cornerVals l r bs
    | some _ =>
      let z := latSize l.etype
      (k, (List.range l.channels).map fun c => entryVal l (natOf ((bs.drop (c * z)).take z))) :: cornerVals l r (bs.drop l.entry)

/-- A chain of rounded steps over corners (R216): Σ of a coefficient times a channel. -/
def chain (coef : Corner → Nat) (c : Nat) (vs : List (Corner × List Nat)) : Nat :=
  vs.foldl (fun acc v => step32 (coef v.1) (v.2.getD c 0) acc) 0

/-- The registers of one lane of `ldi` (R216). -/
def ldiLane (l : Lat) (grad : Bool) (vs : List (Corner × List Nat)) : List Nat :=
  ((List.range l.channels).map fun c => chain (fun k => weight l k.taps) c vs)
    ++ (if grad then (List.range l.channels).flatMap fun c => l.dims.zipIdx.map fun d =>
          if l.order = 0 then 0
          else rne32 ((val32 d.1.inv).mul (val32 (chain (fun k => dweight l k.taps d.2) c vs)))
        else [])

/-- The writes of `ldi`, from the bytes of its corners in range, lane by lane. -/
def ldiWrites (l : Lat) (d : Nat) (grad : Bool) : List (Nat × List Corner) → List Byte → List (Nat × W32)
  | [], _ => []
  | (x, ks) :: r, bs =>
    let n := (ks.filter fun k => k.ent.isSome).length * l.entry
    ((ldiLane l grad (cornerVals l ks (bs.take n))).mapIdx fun i v => (vKey (d + i) x, BitVec.ofNat 32 v))
      ++ ldiWrites l d grad r (bs.drop n)

/-- The writes of an `ldi` in its frame. -/
def ldiFin (d : Fin 192) (grad : Bool) (crd : Fin 128) (lat : Fin 16) (f : Frame) (bs : List Byte) : Writes :=
  match slotOf f lat with
  | some x => Writes.ofV (ldiWrites (latOf x) d.val grad (lanesCorners (latOf x) f crd.val).1 bs)
  | none => Writes.none

/-- An empty slot raises LATTICE at issue (R206), for the lanes that take part (R225). -/
def emptySlot (lat : Fin 16) (f : Frame) : Option Byte := if (slotOf f lat).isNone then some 0x0B else none

/-- The access of `ldi` (R216, R225). -/
def ldiRun (d : Fin 192) (grad : Bool) (crd : Fin 128) (str : Stream) (lat : Fin 16) (h : Here) (f : Frame) (s : State) : Act :=
  match slotOf f lat with
  | none => latFault s f 0x0B f.part 0
  | some x =>
    let l := latOf x
    let cs := lanesCorners l f crd.val
    if !cs.2.isEmpty then latFault s f 0x0B (maskOf cs.2) l.base
    else
      inOrder s h (some str.val) none <|
        let as := cornerAccs l cs.1
        let r := placeCorners s h .read as
        match pickFault r.2.2 with
        | some y => cornerFault s r.1 h f .read as y
        | none =>
          let q := loadPlaced (countBanks r.1 h.t r.2.1) h none r.2.1
          finish q.1 f (ldiFin d grad crd lat) q.2.1 q.2.2 (touches as true false)

/-- LDI (R215, R216, R224). -/
def jobLdi (d : Fin 192) (grad : Bool) (crd : Fin 128) (str : Stream) (lat : Fin 16) (f : Frame) : Job :=
  let z := latShape f lat
  { ok := fun _ => true
    vreads := [⟨.v ⟨crd.val, by omega⟩, z.1, false⟩]
    vwrites := [⟨.v d, if grad then z.2 * (1 + z.1) else z.2, false⟩]
    check := emptySlot lat
    hit := Frame.part
    late := true
    stream := some str.val
    cost := perWord 1
    run := ldiRun d grad crd str lat
    fin := ldiFin d grad crd lat }
/-- LDI (R215, R216, R224). -/
def execLdi (sw : Bool) (d : Fin 192) (grad : Bool) (crd : Fin 128) (str : Stream) (lat : Fin 16) (s : State) : Outcome State :=
  issueJob (.ldi sw d grad crd str lat) sw (jobLdi d grad crd str lat) s

/-! ## SPL (R217 to R221) -/

/-- One contribution of a lane to an element: the coefficient and the data, f32 words (R217). -/
structure Splat where
  lane : Nat
  addr : W64
  sh   : W64
  coef : Nat
  data : Nat
  deriving DecidableEq, Repr

/-- The contributions of one lane, corner by corner, channel by channel (R217): under order 0 `.gs` contributes nothing. -/
def laneSplats (l : Lat) (f : Frame) (d : Nat) (grad : Bool) (x : Nat) (ks : List Corner) : List Splat :=
  if grad && l.order == 0 then []
  else ks.flatMap fun k => match k.ent with
    | none => []
    | some e => (List.range l.channels).flatMap fun c =>
      let a := e.addr + BitVec.ofNat 64 (c * latSize l.etype)
      let sh := shadowAddr l e.lin c
      if grad then l.dims.zipIdx.map fun q =>
        ⟨x, a, sh, rne32 ((val32 q.1.inv).mul (val32 (dweight l k.taps q.2))), (f.regs.vget (d + c * l.n + q.2) x).toNat⟩
      else [⟨x, a, sh, weight l k.taps, (f.regs.vget (d + c) x).toNat⟩]

/-- The integer of a contribution in units of 2^E_lo (R219); none for a product that is not finite. -/
def splatInt (elo : Int) (p : Splat) : Option Int :=
  match (val32 p.coef).mul (val32 p.data) with
  | .fin neg m e =>
    let s := shiftTo m (e - elo) 0
    let q : Int := (roundMag .rne false s.1 s.2 false : Nat)
    some (if neg then -q else q)
  | .inf _ => none
  | .nan _ => none
/-- A contribution of w bits is in range (R219, R220). -/
def splatFits (elo : Int) (w : Nat) (p : Splat) : Bool :=
  match splatInt elo p with
  | some z => decide (-(2 ^ (w - 1) : Int) ≤ z) && decide (z < 2 ^ (w - 1))
  | none => false

/-- An entry element after a f32 sum has been added (R218): one exact sum, one rounding to its type. -/
def splatNew (etype old x : Nat) : Nat :=
  (fput (latFmt etype) Env.plain ((fread (latFmt etype) false old).add .rne (val32 x))).val

/-- Where one element lies, from the placed access of its entry. -/
def Placed.atOff (p : Placed) (o : Nat) : ElemAt :=
  match p.place with
  | .spad c _ off => .spad c (off + o)
  | .glob x n y => .glob (if o < n then x.pa + o else y.pa + (o - n))

/-- Changes a number of `n` bytes where it lies, as one atomic action at its home or its scratchpad (R221): the issuing
core's clean copies of the line are discarded, and an imported element is changed by a request. -/
def splatAt (s : State) (h : Here) (e : ElemAt) (n : Nat) (va : W64) (lanes : Mask) (new : Nat → Nat) (op : FabricOp) :
    State × List Nat :=
  match e with
  | .spad c off =>
    let v := ((s.cohorts[c]?).map fun co => readNat co.sp off n).getD 0
    (spadStore s c (atAddrs off (bytesOf n (new v))), [])
  | .glob pa =>
    if inAperture pa then
      let r := sendReq (dropElem s h.core pa n) (nextOwner h) h.core (keyOfAsid s h.asid) pa va lanes false false n op
      (r.1, [r.2])
    else
      let s1 := homeWrite s (keyOfAsid s h.asid) (atAddrs pa (bytesOf n (new (readNat s.mem pa n))))
      (dropClean s1 h.core fun x => x.line == lineOf pa, [])

/-- The effect of a `spl` on the elements it reaches, each with its contributions in order of lane and corner. -/
def applySplats (s : State) (h : Here) (l : Lat) (at_ : W64 → Option ElemAt) (ps : List Splat) : State × List Nat :=
  let keys := (ps.map fun p => if l.smode = 1 then p.sh else p.addr).eraseDups
  keys.foldl (fun (st : State × List Nat) key =>
    let on := ps.filter fun p => (if l.smode = 1 then p.sh else p.addr) = key
    let lanes := maskOf (on.map (·.lane))
    match at_ key with
    | none => st
    | some e =>
      let r :=
        if l.smode = 0 then
          let x := on.foldl (fun acc p => step32 p.coef p.data acc) 0
          splatAt st.1 h e (latSize l.etype) key lanes (fun old => splatNew l.etype old x)
            (.splat (Fin.ofNat 4 l.etype) (BitVec.ofNat 32 x))
        else
          let z := (on.filterMap (splatInt l.elo)).foldl (· + ·) 0
          if l.smode = 1 then
            splatAt st.1 h e 16 key lanes (fun old => ux 128 ((old : Int) + z)) (.shadow (BitVec.ofInt 128 z))
          else splatAt st.1 h e 4 key lanes (fun old => ux 32 ((old : Int) + z)) (.atomic .add .i32 [BitVec.ofInt 64 z])
      (r.1, st.2 ++ r.2)) (s, [])

/-- The accesses that an EXACT `spl` makes to shadows beside its entries, corner by corner (R225). -/
def splAccs (l : Lat) (cs : List (Nat × List Corner)) : List Acc :=
  cs.flatMap fun c => c.2.flatMap fun k => match k.ent with
    | none => []
    | some e => ⟨c.1, e.addr, l.entry⟩ :: (if l.smode = 1 then
        [⟨c.1, shadowAddr l e.lin 0, 16 * l.channels⟩] else [])

/-- The place of an element among placed accesses. -/
def findElem (ps : List Placed) (va : W64) : Option ElemAt :=
  (ps.find? fun p => decide ((va - p.acc.va).toNat < p.acc.size)).map fun p => p.atOff (va - p.acc.va).toNat

/-- The access of `spl` (R217 to R221, R225). -/
def splRun (d : Fin 192) (grad : Bool) (crd : Fin 128) (str : Stream) (lat : Fin 16) (h : Here) (f : Frame) (s : State) : Act :=
  match slotOf f lat with
  | none => latFault s f 0x0B f.part 0
  | some x =>
    let l := latOf x
    let cs := lanesCorners l f crd.val
    if !cs.2.isEmpty then latFault s f 0x0B (maskOf cs.2) l.base
    else
      inOrder s h (some str.val) none <|
        let as := splAccs l cs.1
        let r := placeCorners s h .both as
        match pickFault r.2.2 with
        | some y => cornerFault s r.1 h f .both as y
        | none =>
          let ps := cs.1.flatMap fun c => laneSplats l f d.val grad c.1 c.2
          let bad := if l.smode = 0 then [] else ps.filter fun p => !splatFits l.elo (if l.smode = 1 then 128 else 32) p
          if !bad.isEmpty then latFault s f 0x0C (maskOf (bad.map (·.lane))) l.base
          else
            let q := applySplats (countBanks r.1 h.t r.2.1) h l (findElem r.2.1) ps
            .done q.1 Writes.none [] q.2 (touches as true true)

/-- SPL (R215, R217, R224). -/
def jobSpl (d : Fin 192) (grad : Bool) (crd : Fin 128) (str : Stream) (lat : Fin 16) (f : Frame) : Job :=
  let z := latShape f lat
  { ok := fun _ => true
    vreads := [⟨.v ⟨crd.val, by omega⟩, z.1, false⟩, ⟨.v d, if grad then z.2 * z.1 else z.2, false⟩]
    check := emptySlot lat
    hit := Frame.part
    stream := some str.val
    cost := perWord 1
    run := splRun d grad crd str lat }
/-- SPL (R215, R217, R224). -/
def execSpl (sw : Bool) (d : Fin 192) (grad : Bool) (crd : Fin 128) (str : Stream) (lat : Fin 16) (s : State) : Outcome State :=
  issueJob (.spl sw d grad crd str lat) sw (jobSpl d grad crd str lat) s

/-! ## SETTLE (R222) -/

/-- The numbers of a team's origin that a command keeps (R138). -/
def Here.origin (h : Here) (pc : W64) : Origin := ⟨h.t, h.ke.ctx, h.tm.cohort, h.g, h.k, pc, h.tm.active, h.tm.idx, h.core, h.bench⟩

/-- SETTLE (R222): LATTICE for an empty slot or one that is not EXACT, whose base is its address by the model's choice (log 114); the
team then waits until its accesses are performed, and the command takes its number on the core's settle context. -/
def execSettle (sw : Bool) (n : Fin 16) (s : State) : Outcome State :=
  onTeam s fun h =>
    match (h.co.lats[n.val]?).bind id with
    | none => raise s h 0x0B h.tm.active 0
    | some d =>
      if (latOf d).smode != 1 then raise s h 0x0B h.tm.active (latOf d).base
      else whenDrained s h <|
        let tags := h.tm.inflight.flatMap (·.need)
        if !tags.isEmpty then .next (park s h h.tm (.fabric tags))
        else
          let e : EngRef := .settle h.core
          if s.engHalted e then queueFault s h
          else
            let s1 := s.modEngine e fun x =>
              { x with queue := x.queue ++ [⟨x.next, [], d, h.origin h.tm.pc, none, 0⟩], next := x.next + 1 }
            .next (endAt s1 h sw (nextPc h.tm.pc 0) onePass h.tm)

end Sys2Proof.Machine
end

