-- ==== Sys2Proof/Machine/Engines.lean ====
section
/-! DEFINITION. Carter, Sifter and the settle context: pushes, commands, timelines and completions (spec/06_instructions_memory.md
R137 to R143, spec/13_matrix_and_sparse.md R253 to R255, spec/11_lattice_access.md R222). -/
namespace Sys2Proof.Machine

/-! ## Faults of an engine (R138) -/

/-- REC, RDEPTH and REPC of a team (R308). -/
def regionOf (s : State) (t : Nat) : Option (W32 × Nat × W64) := (s.teams[t]?).map fun tm => (tm.regions, tm.rdepth, tm.repc)

/-- What a fault record names of a command's team: place and kernel as they stood at the push, the region as it stood at the fault
(R138, R308). -/
def originParty (s : State) (o : Origin) (f : FaultInfo) : Party :=
  let ke := s.kernels[o.kernel]?
  let r := f.region.getD (0, 0, 0)
  ⟨o.tnum, o.core, o.bench, (ke.map fun k => k.launch.seq).getD 0, (ke.map fun k => k.queue).getD 0, r.1, r.2.1, r.2.2,
    ((s.gangs[o.gang]?).map fun g => g.index).getD 0⟩

/-- The class code and the context number of an engine reference (R34, R308). -/
def engCode : EngRef → Nat × Nat
  | .copy _ c => (0, c) | .sift _ c => (1, c) | .matrix _ _ => (2, 0) | .settle _ => (3, 0)

/-- The fault of a command: its mask is the one at the push, its name the PC of the push and the command's number (R138,
R308). -/
def cmdFault (s : State) (e : EngRef) (c : Cmd) (code : Byte) (addr : W64) : FaultInfo :=
  { FaultInfo.plain code c.origin.pc c.origin.mask addr with
    engSeq := c.n, engClass := BitVec.ofNat 8 (engCode e).1, engCtx := BitVec.ofNat 8 (engCode e).2, region := regionOf s c.origin.team }

/-- Withdraws the waiting ring requests of a Sifter context, so that later ones may be granted (R145). -/
def withdrawSifter (s : State) (e : EngRef) (cohort : Nat) : State :=
  match e with
  | .sift _ ctx => s.modCohort cohort fun co =>
      (co.ringq.filter fun r => r.who == .sifter ctx).foldl (fun co r => co.grant r.ring)
        { co with ringq := co.ringq.filter fun r => !(r.who == .sifter ctx) }
  | .copy _ _ => s | .matrix _ _ => s | .settle _ => s

/-- A context halts on the fault of its oldest command (R138): it is reported, and what is queued is discarded. -/
def engineHalt (s : State) (e : EngRef) (f : FaultInfo) : State :=
  match (s.engine? e).bind fun x => x.queue.head? with
  | none => s
  | some c =>
    let s1 := withdrawSifter s e c.origin.cohort
    let s2 := s1.modEngine e fun x => { x with queue := [], halted := true, fault := none, need := [], got := [] }
    report s2 c.origin.ctx (recordBody (originParty s c.origin f) f)

/-- A fault of a context's oldest command: PAGE and PROT wait for Chandler, every other fault halts the context (R138). -/
def engineFault (s : State) (e : EngRef) (c : Cmd) (code : Byte) (addr : W64) : State :=
  let f := cmdFault s e c code addr
  if chandlerCode code then s.modEngine e fun x => { x with fault := some f } else engineHalt s e f

/-! ## Commands (R139, R140) -/

/-- The fields of a Carter command. -/
structure Carter where
  len   : Nat
  smask : BitVec 16
  ring  : Nat
  rce   : Bool
  dsp   : Bool
  ssp   : Bool
  ctx   : Nat
  op    : Nat
  src   : W64
  dst   : W64
  dstr  : Nat
  sstr  : Nat
  rows  : Nat
  deriving DecidableEq, Repr

/-- A word of a command. -/
def cmdWord (ws : List W64) (i : Nat) : Nat := (ws.getD i 0).toNat

/-- The fields of a Carter command (R139); one row for copy and fill. -/
def carterOf (ws : List W64) : Carter :=
  let a := cmdWord ws 0
  let b := cmdWord ws 3
  let op := a % 2 ^ 4
  { len := a / 2 ^ 32, smask := BitVec.ofNat 16 (a / 2 ^ 16), ring := a / 2 ^ 11 % 2 ^ 5, rce := a / 2 ^ 10 % 2 == 1
    dsp := a / 2 ^ 9 % 2 == 1, ssp := a / 2 ^ 8 % 2 == 1, ctx := a / 2 ^ 4 % 2 ^ 4, op := op
    src := ws.getD 1 0, dst := ws.getD 2 0
    dstr := if op = 1 then b / 2 ^ 40 else 0, sstr := if op = 1 then b / 2 ^ 16 % 2 ^ 24 else 0
    rows := if op = 1 then b % 2 ^ 16 else 1 }

/-- The source address of row r. -/
def Carter.srcRow (c : Carter) (r : Nat) : W64 := c.src + BitVec.ofNat 64 (r * c.sstr)
/-- The destination address of row r. -/
def Carter.dstRow (c : Carter) (r : Nat) : W64 := c.dst + BitVec.ofNat 64 (r * c.dstr)

/-- A scratchpad range of a row lies in the share of a core that holds a cohort of the gang (R119, R139). -/
def spadRowOk (h : Here) (off : W64) (n : Nat) : Bool :=
  match placeOffset h false ⟨0, off, n⟩ with
  | .ok _ => true
  | .error _ => false

/-- The checks of a Carter command at its push (R139). -/
def carterOk (h : Here) (ws : List W64) : Bool :=
  let c := carterOf ws
  decide (c.op ≤ 2) && decide (c.ring < 16) && !(c.op == 2 && c.ssp) && c.len != 0 && c.rows != 0
    && (c.op == 1 || cmdWord ws 3 == 0)
    && (!c.ssp || (List.range c.rows).all fun r => spadRowOk h (c.srcRow r) c.len)
    && (!c.dsp || (List.range c.rows).all fun r => spadRowOk h (c.dstRow r) c.len)

/-- The fields of a Sifter command. -/
structure Sift where
  smask : BitVec 16
  ring  : Nat
  ctx   : Nat
  op    : Nat
  a     : W64
  b     : W64
  na    : Nat
  nb    : Nat
  deriving DecidableEq, Repr

/-- The fields of a Sifter command (R140). -/
def siftOf (ws : List W64) : Sift :=
  let a := cmdWord ws 0
  let b := cmdWord ws 3
  ⟨BitVec.ofNat 16 (a / 2 ^ 16), a / 2 ^ 8 % 2 ^ 5, a / 2 ^ 4 % 2 ^ 4, a % 2 ^ 4, ws.getD 1 0, ws.getD 2 0, b % 2 ^ 32, b / 2 ^ 32⟩

/-- The checks of a Sifter command at its push (R140). -/
def siftOk (h : Here) (ws : List W64) : Bool :=
  let c := siftOf ws
  cmdWord ws 0 / 2 ^ 32 == 0 && cmdWord ws 0 / 2 ^ 13 % 2 ^ 3 == 0 && decide (c.ring < 16) && decide (c.ctx < 4) && decide (c.op < 2)
    && (c.op == 0 || c.nb == 0) && c.a.toNat % 4 == 0 && c.b.toNat % 4 == 0
    && match h.co.ring c.ring with
       | some r => decide (8 ≤ r.slotsz.toNat)
       | none => false

/-- The words of list B that a command reads: in bitmap mode as many as of A. -/
def Sift.lenB (c : Sift) : Nat := if c.op = 0 then c.nb else c.na

/-! ## Pushing (R137) -/

/-- A range of global addresses cut at its 64 KiB pages; `fuel` bounds the pieces. -/
def pieces : Nat → W64 → Nat → List Acc
  | 0, _, _ => []
  | fuel + 1, va, n =>
    if n = 0 then []
    else
      let k := min n (65536 - va.toNat % 65536)
      ⟨0, va, k⟩ :: pieces fuel (va + BitVec.ofNat 64 k) (n - k)
/-- The pieces of a range. -/
def rangePieces (va : W64) (n : Nat) : List Acc := pieces (n / 65536 + 2) va n

/-- The physical bytes of a mapped global range: first address and length of its pieces. -/
def rangeSpans (s : State) (root : Nat) (va : W64) (n : Nat) : List (Nat × Nat) :=
  (rangePieces va n).filterMap fun a =>
    if !ordinary a.va then none
    else match walk s root a.va with
      | .ok l => some (leafPa l a.va, a.size)
      | .error _ => none
/-- The lines that a span of physical bytes touches. -/
def spanLines (p : Nat × Nat) : List Nat := (List.range ((p.1 + p.2 - 1) / 128 + 1 - p.1 / 128)).map fun i => p.1 / 128 + i
/-- The physical byte lies in one of the spans. -/
def inSpans (ps : List (Nat × Nat)) (pa : Nat) : Bool := ps.any fun p => decide (p.1 ≤ pa) && decide (pa < p.1 + p.2)
/-- The physical lines of a mapped global range. -/
def rangeLines (s : State) (root : Nat) (va : W64) (n : Nat) : List Nat := (rangeSpans s root va n).flatMap spanLines

/-- The targeted clearing of a push (R137): the core's dirty lines that overlap a source range are written back. -/
def targetedClear (s : State) (h : Here) (ranges : List (W64 × Nat)) : State :=
  let ls := ranges.flatMap fun r => rangeLines s h.cx.ptroot.toNat r.1 r.2
  writeBackWhere s h.core fun x => ls.contains x.line

/-- The source ranges of a Carter command in memory. -/
def Carter.sources (c : Carter) : List (W64 × Nat) :=
  if c.ssp || c.op == 2 then [] else (List.range c.rows).map fun r => (c.srcRow r, c.len)

/-- Completes a push (R137, steps 2 to 4): a place in the queue, the release over the stream mask, the targeted clearing, and
the number. A push that waits issues its `umov` again, with the checks of step 1: where the context has halted meanwhile it raises QUEUE, as
a later push does (R138): the model's reading (log 126). -/
def pushCmd (s : State) (h : Here) (e : EngRef) (smask : BitVec 16) (ws : List W64) (ranges : List (W64 × Nat)) (k : State → Outcome State) :
    Outcome State :=
  match s.engine? e with
  | none => .fault .noSuch
  | some x =>
    if 64 ≤ x.queue.length then .next (park s h h.tm (.room e))
    else if h.tm.residues.any fun r => (r.stream.map fun n => smask.getLsbD n).getD false then
      .next (park s h h.tm (.streams smask))
    else
      let tags := (h.tm.inflight.filter fun a => (a.stream.map fun n => smask.getLsbD n).getD false).flatMap (·.need)
      if !tags.isEmpty then .next (park s h h.tm (.fabric tags))
      else
        let s1 := targetedClear s h ranges
        k (s1.modEngine e fun x => { x with queue := x.queue ++ [⟨x.next, ws, 0, h.origin h.tm.pc, none, 0⟩], next := x.next + 1 })

/-- UMOV with q0 (R115, R137, R139): a word for Carter, in the team's staging buffer. -/
def execUmovPushQ0 (sw : Bool) (a : USrc) (s : State) : Outcome State :=
  onTeam s fun h => reading s h (usrcKeys a) fun s f =>
    let pc := nextPc h.tm.pc (usrcLits a)
    let ws := h.tm.stage0 ++ [usrcVal f a]
    if ws.length < 4 then .next (endAt s h sw pc onePass { h.tm with stage0 := ws })
    else
      let e : EngRef := .copy h.core (carterOf ws).ctx
      if !carterOk h ws || s.engHalted e then queueFault s { h with tm := { h.tm with stage0 := [] } }
      else pushCmd s h e (carterOf ws).smask ws (carterOf ws).sources fun s1 =>
        .next (endAt s1 h sw pc onePass { teamNow s1 h with stage0 := [] })

/-- UMOV with q2 (R115, R137, R140): a word for Sifter. -/
def execUmovPushQ2 (sw : Bool) (a : USrc) (s : State) : Outcome State :=
  onTeam s fun h => reading s h (usrcKeys a) fun s f =>
    let pc := nextPc h.tm.pc (usrcLits a)
    let ws := h.tm.stage2 ++ [usrcVal f a]
    if ws.length < 4 then .next (endAt s h sw pc onePass { h.tm with stage2 := ws })
    else
      let c := siftOf ws
      let e : EngRef := .sift h.core c.ctx
      if !siftOk h ws || s.engHalted e then queueFault s { h with tm := { h.tm with stage2 := [] } }
      else pushCmd s h e c.smask ws [(c.a, 4 * c.na), (c.b, 4 * c.lenB)] fun s1 =>
        .next (endAt s1 h sw pc onePass { teamNow s1 h with stage2 := [] })

/-- UMOV from q3 (R115, R141): pops the cohort's oldest completion word; blocks while there is none. -/
def execUmovPopQ3 (sw : Bool) (d : SReg) (s : State) : Outcome State :=
  onTeam s fun h => whenDrained s h <|
    match h.co.compq with
    | [] => .next (block s h h.tm .q3)
    | x :: r =>
      let s1 := s.modCohort h.tm.cohort fun co => { co with compq := r }
      let a : InFlight := ⟨h.tm.nextId, .umovPopQ3 sw d, h.frame, none, [.s d.val], [], Writes.ofU d.val x, [], [], [], none, none⟩
      let l := launch s1 { h.tm with nextId := h.tm.nextId + 1 } a fun _ => BitVec.allOnes 1024
      .next (endAt l.1 h sw (nextPc h.tm.pc 0) onePass l.2)

/-! ## TLWAIT (R142) -/

/-- The context that a `tlwait` names on the team's own core and bench. -/
def tlEngine (h : Here) : TlCtx → EngRef
  | .copy c => .copy h.core c.val | .sift c => .sift h.core c.val | .matrix => .matrix h.core h.bench | .settle => .settle h.core

/-- The acquire of a `tlwait` (R142): the clean copies of the global destination ranges of the commands numbered `n` or below
are discarded from the core's L1. -/
def tlAcquire (s : State) (h : Here) (e : EngRef) (n : W64) : State :=
  match s.engine? e with
  | none => s
  | some x =>
    let rs := x.ranges.filter fun r => decide (r.1 ≤ n)
    if rs.isEmpty then s
    else dropClean s h.core fun l => rs.any fun r =>
      decide (r.2.2.1.toNat / 128 ≤ l.line) && decide (l.line ≤ (r.2.2.1.toNat + r.2.2.2 - 1) / 128)

/-- TLWAIT (R142, R239, R269): a team that waits keeps the context it named. -/
def execTlwait (sw : Bool) (c : TlCtx) (n : Cnt) (s : State) : Outcome State :=
  onTeam s fun h => whenDrained s h <|
    let w : EngRef × W64 := match h.wake with
      | some (.timeline e x) => (e, x)
      | _ => (tlEngine h c, cntVal h.frame n)
    if c = .matrix && h.ga.mfault then raise s h 0x0D h.tm.active 0
    else if w.2 ≤ s.tl w.1 then
      let s1 := tlAcquire s h w.1 w.2
      .next (endAt s1 h sw (nextPc h.tm.pc (cntLits n)) onePass (teamNow s1 h))
    else if s.neverTl w.1 w.2 then queueFault s h
    else .next (block s h h.tm (.timeline w.1 w.2))

/-! ## Accesses of an engine (R179) -/

/-- What reading or placing gives an engine: what it asked for, a fault, or a wait for fabric answers. -/
inductive Got (α : Type) where
  | ok (s : State) (x : α) | fault (s : State) (code : Byte) (addr : W64) | ask (s : State) (tags : List Nat)

/-- Places accesses of an engine (R118, R119, R330). -/
def enginePlace (s : State) (h : Here) (sp : Space) (need : Need) (as : List Acc) : Got (List Placed) :=
  let r := placeAll s h sp need 1 as
  match pickFault r.2.2 with
  | some x => .fault r.1 x.1 x.2.2
  | none => .ok r.1 r.2.1

/-- The byte of a spot at its home, as Carter, Sifter and settle read it (R179): of an imported line as its exporter has answered. -/
def spotBare (e : EngRef) (s : State) (_ : Here) (x : Spot) : Option Byte :=
  if x.x.imp then
    (((s.engine? e).map (·.got)).getD []).findSome? fun g => if g.1 = lineOf x.pa * 128 then g.2[x.pa % 128]? else none
  else some (sget s.mem x.pa)

/-- Reads the bytes of accesses: at home or at the scratchpad, or through the L1 of the core (R179). -/
def engineRead (s : State) (h : Here) (e : EngRef) (l1 : Bool) (sp : Space) (as : List Acc) : Got (List Byte) :=
  match enginePlace s h sp .read as with
  | .fault s c a => .fault s c a
  | .ask s t => .ask s t
  | .ok s ps =>
    let sp := ps.flatMap Placed.spots
    let s1 := if l1 then mscReads (fillSpots s h sp) (linesOf (sp.filter fun x => !x.x.cach)) else mscReads s (linesOf sp)
    let r := gather s1 h (.engine e) (if l1 then spotByte else spotBare e) ps
    match knownBytes r.2.1 with
    | some bs => .ok r.1 bs
    | none => .ask r.1 r.2.2

/-- Ends the attempt of an engine's oldest command that met a fault or waits for answers. -/
def Got.stop {α : Type} (e : EngRef) (c : Cmd) (k : State → α → State) : Got α → State
  | .ok s x => k s x
  | .fault s code addr => engineFault s e c code addr
  | .ask s tags => s.modEngine e fun x => { x with need := tags }

/-- A command completes (R138): it leaves the queue and TL becomes its number, where no abort has taken one below it (R323). -/
def engineDone (s : State) (e : EngRef) (c : Cmd) : State :=
  s.modEngine e fun x => { x with queue := x.queue.drop 1, tl := tlPast x.stuck c.n, need := [], got := [] }

/-- Runs the oldest command of a context, if it is one that `p` accepts and nothing holds it up. -/
def onCmd (s : State) (e : EngRef) (p : Cmd → Bool) (k : Here → Cmd → Outcome State) : Outcome State :=
  match s.engine? e with
  | none => .fault .noSuch
  | some x =>
    match x.queue.head? with
    | none => .fault .notEnabled
    | some c =>
      if x.fault.isSome || !x.need.isEmpty || !p c then .fault .notEnabled
      else match here s c.origin.team with
        | some h => k h c
        | none => .fault .notEnabled

/-! ## Carter (R139) -/

/-- The place of one byte of a command, as a number: physical, or in a scratchpad. -/
def byteKeys (p : Placed) : List Nat :=
  match p.place with
  | .spad c _ off => (List.range p.acc.size).map fun i => 2 ^ 60 + c * 2 ^ 22 + off + i
  | .glob .. => p.spots.map fun x => x.pa

/-- Source bytes with overlap (R139): a byte whose place the command also writes is the old or the new one, unspecified
which. `ks` pairs source place, destination place and old value; `m` holds the bytes written so far. -/
def overlapBytes : List (Nat × Nat × Byte) → Nat → List (Nat × Byte) → List Byte
  | [], _, _ => []
  | (a, b, x) :: r, tick, m =>
    let y := match dirtyAt m a with
      | some z => if Config.freeBool tick then z else x
      | none => x
    y :: overlapBytes r (tick + 1) ((b, y) :: m)

/-- The bytes that a copy moves: the old ones, and where source and destination share a place either. -/
def copyBytes (s : State) (src dst : List Nat) (old : List Byte) : State × List Byte :=
  if src.any fun a => dst.contains a then
    let ks := src.zip (dst.zip old)
    let s1 := { s with tick := s.tick + ks.length + 1 }
    if Config.freeBool s.tick then (s1, overlapBytes ks (s.tick + 1) [])
    else (s1, (overlapBytes ks.reverse (s.tick + 1) []).reverse)
  else (s, old)

/-- Bytes of one imported line written at the exporter's home (R184): what the die and the core hold of them goes. -/
def engineSend (s : State) (h : Here) (e : EngRef) (line : Nat) (va : W64) (ws : List (Nat × Byte)) : State × List Nat :=
  (runsOf ws).foldl (fun (q : State × List Nat) r =>
    let pa := line * 128 + r.1
    let z := sendReq (dropElem q.1 h.core pa r.2.length) (.engine e) h.core (keyOfAsid s h.asid) pa va 0 false false r.2.length (.engine r.2)
    (z.1, q.2 ++ [z.2])) (s, [])
/-- Writes bytes of placed accesses at home, by requests to the exporter where that is another package, or at the scratchpad (R179,
R184); the tags are those of the requests it sends. -/
def engineWrite (s : State) (h : Here) (e : EngRef) (ps : List Placed) (bs : List Byte) : State × List Nat :=
  (ps.foldl (fun (st : State × List Nat × List Byte) p =>
    let now := st.2.2.take p.acc.size
    let rest := st.2.2.drop p.acc.size
    match p.place with
    | .spad c _ off => (spadStore st.1 c (atAddrs off now), st.2.1, rest)
    | .glob x _ _ =>
      if x.imp then
        let ws := p.spots.zip now
        let r := (linesOf p.spots).foldl (fun (q : State × List Nat) line =>
          let on := (ws.filter fun w => lineOf w.1.pa = line).map fun w => (w.1.pa % 128, w.2)
          let z := engineSend q.1 h e line p.acc.va on
          (z.1, q.2 ++ z.2)) (st.1, st.2.1)
        (r.1, r.2, rest)
      else (homeWrite st.1 (keyOfAsid s h.asid) (p.spots.zip now |>.map fun w => (w.1.pa, w.2)), st.2.1, rest)) (s, [], bs)) |>
    fun r => (r.1, r.2.1)

/-- The global destination ranges of a command, by physical address (R142). -/
def destRanges (c : Cmd) (h : Here) (ps : List Placed) : List (W64 × Nat × W64 × Nat) :=
  ps.filterMap fun p => match p.place with
    | .glob x _ _ => some (c.n, h.asid, BitVec.ofNat 64 x.pa, p.acc.size)
    | .spad .. => none

/-- The accesses of the rows of a command. -/
def rowAccs (spad : Bool) (addr : Nat → W64) (rows len : Nat) : List Acc :=
  (List.range rows).flatMap fun r => if spad then [⟨0, addr r, len⟩] else rangePieces (addr r) len

/-- The end of a Carter command (R139): with RCE, a commit of 1 to its ring, checked as `cmt` is; then TL advances. -/
def carterEnd (s : State) (e : EngRef) (c : Cmd) : State :=
  let k := carterOf c.words
  if k.rce then
    match (s.cohorts[c.origin.cohort]?).bind fun co => co.commit k.ring 1 with
    | some co => engineDone (s.modCohort c.origin.cohort fun _ => co) e c
    | none => engineHalt s e (cmdFault s e c 0x0E 0)
  else engineDone s e c

/-- The bytes that a Carter command moves. -/
def carterSource (s : State) (h : Here) (e : EngRef) (k : Carter) : Got (List Byte × List Nat) :=
  if k.op = 2 then
    let row := (List.range k.len).map fun j => BitVec.ofNat 8 (k.src.toNat / 2 ^ (8 * (j % 8)))
    .ok s (row, [])
  else
    let as := rowAccs k.ssp k.srcRow k.rows k.len
    let sp : Space := if k.ssp then .spad false else .glob true
    match engineRead s h e false sp as with
    | .fault s c a => .fault s c a
    | .ask s t => .ask s t
    | .ok s bs =>
      match enginePlace s h sp .read as with
      | .ok s ps => .ok s (bs, ps.flatMap byteKeys)
      | .fault s c a => .fault s c a
      | .ask s t => .ask s t

/-- Runs a Carter command: its source is read, then its destination written; it completes when every exporter has answered. -/
def carterRun (s : State) (h : Here) (e : EngRef) (c : Cmd) : State :=
  let k := carterOf c.words
  if c.emit.isSome then carterEnd s e c
  else (carterSource s h e k).stop e c fun s r =>
    (enginePlace s h (if k.dsp then .spad false else .glob true) .write (rowAccs k.dsp k.dstRow k.rows k.len)).stop e c fun s ps =>
      let m := copyBytes s r.2 (ps.flatMap byteKeys) r.1
      let w := engineWrite m.1 h e ps m.2
      let s1 := w.1.modEngine e fun x => { x with ranges := x.ranges ++ destRanges c h ps }
      if w.2.isEmpty then carterEnd s1 e c
      else s1.modEngine e fun x => { x with need := w.2, queue := modAt (fun y => { y with emit := some [] }) x.queue 0 }

/-- The command is a Carter command of an operation. -/
def isCarter (op : Nat) (c : Cmd) : Bool := (carterOf c.words).op == op

/-- CARTER_COPY (R139). -/
def execCarterCopy (core ctx : Nat) (s : State) : Outcome State :=
  onCmd s (.copy core ctx) (isCarter 0) fun h c => .next (carterRun s h (.copy core ctx) c)
/-- CARTER_COPY2D (R139). -/
def execCarterCopy2d (core ctx : Nat) (s : State) : Outcome State :=
  onCmd s (.copy core ctx) (isCarter 1) fun h c => .next (carterRun s h (.copy core ctx) c)
/-- CARTER_FILL (R139). -/
def execCarterFill (core ctx : Nat) (s : State) : Outcome State :=
  onCmd s (.copy core ctx) (isCarter 2) fun h c => .next (carterRun s h (.copy core ctx) c)

/-! ## Sifter (R140, R141, R253 to R255) -/

/-- The marker entry (R140). -/
def siftMarker : W64 := BitVec.allOnes 64
/-- The entry of a pair (R140). -/
def siftEntry (i j : Nat) : W64 := BitVec.ofNat 64 (j * 2 ^ 32 + i)

/-- The first place at which a list decreases, as the length of the part before it; its whole length where it does not. -/
def risingLen : List Nat → Nat
  | [] => 0
  | [_] => 1
  | a :: b :: r => if b < a then 1 else 1 + risingLen (b :: r)

/-- The pairs of sorted-index mode (R253): ascending values, then i, then j. -/
def sortedPairs (as bs : List Nat) : List W64 :=
  as.zipIdx.flatMap fun a => (bs.zipIdx.filter fun b => b.1 = a.1).map fun b => siftEntry a.2 b.2

/-- The entries of sorted-index mode: all pairs and the marker; for a list that decreases an unspecified part of the pairs up
to there, without marker (R253), although the other list be empty: the model's reading (log 35). -/
def sortedEmit (s : State) (as bs : List Nat) : State × List W64 :=
  let ra := risingLen as
  let rb := risingLen bs
  if ra = as.length && rb = bs.length then (s, sortedPairs as bs ++ [siftMarker])
  else
    let ps := sortedPairs (as.take ra) (bs.take rb)
    (s.bump, ps.take ((Config.freeWord s.tick).toNat % (ps.length + 1)))

/-- The pairs of one word of bitmap mode (R254). -/
def wordPairs (a b oa ob : Nat) : List W64 :=
  ((List.range 32).filter fun t => (a &&& b) / 2 ^ t % 2 == 1).map fun t =>
    siftEntry (oa + popcNat 32 (a % 2 ^ t)) (ob + popcNat 32 (b % 2 ^ t))
/-- The pairs of bitmap mode (R254). -/
def bitmapPairs : List (Nat × Nat) → Nat → Nat → List W64
  | [], _, _ => []
  | (a, b) :: r, oa, ob => wordPairs a b oa ob ++ bitmapPairs r (oa + popcNat 32 a) (ob + popcNat 32 b)

/-- The 32-bit words of bytes. -/
def words32 : Nat → List Byte → List Nat
  | 0, _ => []
  | n + 1, bs => natOf (bs.take 4) :: words32 n (bs.drop 4)

/-- Reads the inputs of a Sifter command at home or at the scratchpad, and forms its entries. With none to emit before a list
decreases, the context halts at once (R253). -/
def siftRead (s : State) (h : Here) (e : EngRef) (c : Cmd) : State :=
  let k := siftOf c.words
  (engineRead s h e false (.glob true) (rangePieces k.a (4 * k.na))).stop e c fun s xs =>
    (engineRead s h e false (.glob true) (rangePieces k.b (4 * k.lenB))).stop e c fun s ys =>
      let as := words32 k.na xs
      let bs := words32 k.lenB ys
      let r := if k.op = 0 then sortedEmit s as bs else (s, bitmapPairs (as.zip bs) 0 0 ++ [siftMarker])
      if r.2.isEmpty then engineHalt r.1 e (cmdFault r.1 e c 0x0E 0)
      else r.1.modEngine e fun x => { x with queue := modAt (fun y => { y with emit := some r.2 }) x.queue 0 }

/-- Takes the slot that a Sifter context was granted, if it was; with no request waiting, asks for one. -/
def siftSlot (co : Cohort) (ctx ring : Nat) : Cohort × Option W32 :=
  let mine (r : RingReq) : Bool := r.who == .sifter ctx
  let asked : Cohort := { co with ringq := co.ringq ++ [⟨.sifter ctx, ring, false, 1, none⟩] }
  let co1 := if co.ringq.any mine then co else asked.grant ring
  match (co1.ringq.find? mine).bind fun r => r.granted with
  | some n => ({ co1 with ringq := co1.ringq.filter fun r => !mine r }, some n)
  | none => (co1, none)

/-- Emits entries while the ring has free slots (R140): each is written into its slot and committed. The rest of the entries is
left, with the count of pairs emitted; none for a commit that fails. -/
def siftEmit (ctx ring : Nat) : List W64 → Cohort → Nat → Option (Cohort × List W64 × Nat)
  | [], co, n => some (co, [], n)
  | x :: r, co, n =>
    match siftSlot co ctx ring with
    | (co1, none) => some (co1, x :: r, n)
    | (co1, some c) =>
      match co1.ring ring with
      | none => none
      | some g =>
        let off := g.base.toNat + c.toNat % g.nslot.toNat * g.slotsz.toNat
        let co2 := { co1 with sp := ssetAll co1.sp (atAddrs off (bytesOf 8 x.toNat)) }
        match co2.commit ring 1 with
        | none => none
        | some co3 => siftEmit ctx ring r co3 (if x = siftMarker then n else n + 1)

/-- The completion word (R141). -/
def siftWord (c : Cmd) (ctx : Nat) : W64 := BitVec.ofNat 64 (c.n.toNat % 2 ^ 30 * 2 ^ 34 + ctx * 2 ^ 32 + c.pairs % 2 ^ 32)

/-- Goes on with a Sifter command: entries while the ring has room, then the completion word and TL (R255). Entries that end
without marker are those of a list that decreases: QUEUE (R253). -/
def siftGo (s : State) (e : EngRef) (ctx : Nat) (c : Cmd) (es : List W64) : Outcome State :=
  let k := siftOf c.words
  let o := c.origin.cohort
  match s.cohorts[o]? with
  | none => .fault .notEnabled
  | some co =>
    if es.isEmpty then
      (if 64 ≤ co.compq.length then .fault .notEnabled
      else .next (engineDone (s.modCohort o fun co => { co with compq := co.compq ++ [siftWord c ctx] }) e c))
    else
      match siftEmit ctx k.ring es co c.pairs with
      | none => .next (engineHalt s e (cmdFault s e c 0x0E 0))
      | some (co1, rest, n) =>
        let s1 := s.modCohort o fun _ => co1
        if co1 = co then .fault .notEnabled
        else if rest.isEmpty && es.getLast? != some siftMarker then .next (engineHalt s1 e (cmdFault s e c 0x0E 0))
        else .next (s1.modEngine e fun x =>
          { x with queue := modAt (fun y => { y with emit := some rest, pairs := n }) x.queue 0 })

/-- A step of a Sifter command. -/
def siftRun (s : State) (h : Here) (e : EngRef) (ctx : Nat) (c : Cmd) : Outcome State :=
  match c.emit with
  | none => .next (siftRead s h e c)
  | some es => siftGo s e ctx c es

/-- SIFTER_SORTED_INDEX (R253). -/
def execSifterSortedIndex (core ctx : Nat) (s : State) : Outcome State :=
  onCmd s (.sift core ctx) (fun c => (siftOf c.words).op == 0) fun h c => siftRun s h (.sift core ctx) ctx c
/-- SIFTER_BITMAP (R254). -/
def execSifterBitmap (core ctx : Nat) (s : State) : Outcome State :=
  onCmd s (.sift core ctx) (fun c => (siftOf c.words).op == 1) fun h c => siftRun s h (.sift core ctx) ctx c

/-! ## Settle (R222) -/

/-- The number of elements of a lattice: entries times channels. -/
def Lat.elems (l : Lat) : Nat :=
  (if l.kind = 1 then 2 ^ l.hlog else (l.dims.map (·.size)).foldl (· * ·) 1) * l.channels
/-- The indices of a dense entry from its linear index, the first dimension fastest (R210). -/
def unlin : List Dim → Nat → List Int
  | [], _ => []
  | d :: r, x => ((x % d.size : Nat) : Int) :: unlin r (x / d.size)
/-- The address of the entry of a linear index. -/
def Lat.entryAddr (l : Lat) (lin : Nat) : W64 :=
  if l.kind = 1 then l.base + BitVec.ofNat 64 (lin * l.entry)
  else ((entryAt l (unlin l.dims lin)).map (·.addr)).getD l.base

/-- An entry element after its shadow has been added (R222): one exact sum, one rounding. -/
def settleNew (etype : Nat) (elo : Int) (old shadow : Nat) : Nat :=
  let z := sx 128 shadow
  (fput (latFmt etype) Env.plain ((fread (latFmt etype) false old).add .rne (.fin (decide (z < 0)) z.natAbs elo))).val

/-- The number that the bytes of a placed access make, in a scratchpad or at home. -/
def placedNat (s : State) (p : Placed) : Nat :=
  match p.place with
  | .spad c _ off => ((s.cohorts[c]?).map fun co => readNat co.sp off p.acc.size).getD 0
  | .glob .. => natOf (p.spots.map fun x => sget s.mem x.pa)
/-- Writes a number into the bytes of a placed access, in a scratchpad or at home. -/
def placedPut (s : State) (asid : Nat) (p : Placed) (x : Nat) : State :=
  let bs := bytesOf p.acc.size x
  match p.place with
  | .spad c _ off => spadStore s c (atAddrs off bs)
  | .glob .. => homeWrite s (keyOfAsid s asid) ((p.spots.zip bs).map fun w => (w.1.pa, w.2))
/-- The imported physical address of a placed access. -/
def placedImp (p : Placed) : Option Nat :=
  match p.place with
  | .spad .. => none
  | .glob x _ _ => if x.imp then some x.pa else none

/-- A request of a settle on an element of `n` bytes at an imported address. -/
def settleAsk (s : State) (h : Here) (e : EngRef) (pa n : Nat) (va : W64) (op : FabricOp) : State × Nat :=
  sendReq (dropElem s h.core pa n) (.engine e) h.core (keyOfAsid s h.asid) pa va 0 false false n op
/-- The sum of a settle put onto an entry, where that lies: nothing for a zero shadow (R222). -/
def settleEntry (s : State) (h : Here) (e : EngRef) (l : Lat) (en : Placed) (z : Nat) : State × List Nat :=
  if z = 0 then (s, [])
  else match placedImp en with
    | none => (placedPut s h.asid en (settleNew l.etype l.elo (placedNat s en) z), [])
    | some y =>
      let r := settleAsk s h e y en.acc.size en.acc.va (.settleAdd (Fin.ofNat 4 l.etype) (BitVec.ofInt 8 l.elo) (BitVec.ofNat 128 z))
      (r.1, [r.2])
/-- The action of a settle on one shadow and its entry (R222): in one action the sum and the clearing, at home, or for an imported
pair of one window by a request to its exporter. Where shadow and entry have different homes, the shadow is taken and cleared
first, and what it held is then put onto the entry (log 24). -/
def settlePair (s : State) (h : Here) (e : EngRef) (l : Lat) (sh en : Placed) : Got (List Nat) :=
  match placedImp sh, placedImp en with
  | none, none =>
    let new := settleNew l.etype l.elo (placedNat s en) (placedNat s sh)
    .ok (placedPut (placedPut s h.asid en new) h.asid sh 0) []
  | none, some _ =>
    let r := settleEntry (placedPut s h.asid sh 0) h e l en (placedNat s sh)
    .ok r.1 r.2
  | some x, y =>
    if (y.map (· / 2 ^ 29)) = some (x / 2 ^ 29) then
      let s1 := dropElem s h.core x 16
      let r := settleAsk s1 h e (y.getD 0) en.acc.size en.acc.va
        (.settle (Fin.ofNat 4 l.etype) (BitVec.ofInt 8 l.elo) (BitVec.ofNat 29 x))
      .ok r.1 [r.2]
    else match ((s.engine? e).map (·.got)).getD [] |>.find? fun g => g.1 = x with
      | some g =>
        let r := settleEntry (s.modEngine e fun q => { q with got := q.got.filter fun y => y.1 != x }) h e l en (natOf g.2)
        .ok r.1 r.2
      | none =>
        let r := settleAsk s h e x 16 sh.acc.va .settleTake
        .ask r.1 [r.2]

/-- One element of a settle: the shadow and the entry of index `i`; a local shadow that is zero leaves its entry alone. -/
def settleOne (s : State) (h : Here) (e : EngRef) (l : Lat) (i : Nat) : Got (List Nat) :=
  let lin := i / l.channels
  let c := i % l.channels
  let z := latSize l.etype
  match enginePlace s h (.glob true) .both [⟨0, shadowAddr l lin c, 16⟩] with
  | .fault s k a => .fault s k a
  | .ask s t => .ask s t
  | .ok s shs =>
    if shs.all fun sh => (placedImp sh).isNone && placedNat s sh = 0 then .ok s []
    else
      match enginePlace s h (.glob true) .both [⟨0, l.entryAddr lin + BitVec.ofNat 64 (c * z), z⟩] with
      | .fault s k a => .fault s k a
      | .ask s t => .ask s t
      | .ok s ens =>
        match shs, ens with
        | [sh], [en] => settlePair s h e l sh en
        | _, _ => .ok s []

/-- The elements of a settle from index `i` on, `n` of them; where one asks or faults, the index reached is kept in the command, which
waits for the requests sent before as well. -/
def settleFrom (h : Here) (e : EngRef) (l : Lat) (c : Cmd) : Nat → Nat → State → List Nat → State × Option (List Nat)
  | 0, _, s, tags => (s, some tags)
  | n + 1, i, s, tags =>
    match settleOne s h e l i with
    | .ok s1 ts => settleFrom h e l c n (i + 1) s1 (tags ++ ts)
    | .fault s1 code a =>
      (engineFault (s1.modEngine e fun x => { x with need := tags, queue := modAt (fun y => { y with pairs := i }) x.queue 0 }) e c code a, none)
    | .ask s1 ts =>
      (s1.modEngine e fun x => { x with need := tags ++ ts, queue := modAt (fun y => { y with pairs := i }) x.queue 0 }, none)

/-- The global ranges of the entries of a settled lattice, for the acquire of `tlwait` (R222). -/
def settleRanges (s : State) (h : Here) (l : Lat) (c : Cmd) : List (W64 × Nat × W64 × Nat) :=
  (List.range (l.elems / l.channels)).flatMap fun i =>
    (rangeSpans s h.cx.ptroot.toNat (l.entryAddr i) l.entry).map fun p => (c.n, h.asid, BitVec.ofNat 64 p.1, p.2)

/-- SETTLE_EXECUTE (R222). -/
def execSettleExecute (core : Nat) (s : State) : Outcome State :=
  let e : EngRef := .settle core
  onCmd s e (fun _ => true) fun h c =>
    let l := latOf c.desc
    if c.emit.isSome then .next (engineDone s e c)
    else
      let r := settleFrom h e l c (l.elems - c.pairs) c.pairs s []
      match r.2 with
      | none => .next r.1
      | some tags =>
        let s1 := r.1.modEngine e fun x => { x with ranges := x.ranges ++ settleRanges r.1 h l c }
        .next (if tags.isEmpty then engineDone s1 e c
          else s1.modEngine e fun x => { x with need := tags, queue := modAt (fun y => { y with emit := some [] }) x.queue 0 })

end Sys2Proof.Machine
end

