-- ==== Sys2Proof/Machine/Matrix.lean ====
section
/-! DEFINITION. The matrix units: numbered instructions, their execution chunk by chunk, ramps and faults
(spec/13_matrix_and_sparse.md R229 to R247, spec/04_numbers.md R66, R67). -/
namespace Sys2Proof.Machine

/-! ## Types and tiles (R229, R232) -/

/-- The elements of a matrix type: of A, of B and of the accumulator (R232). -/
structure MatTy where
  a   : Elem
  b   : Elem
  acc : Elem
  deriving DecidableEq, Repr

/-- The types that the unit accepts (R232). -/
def matTy : Ty → Option MatTy
  | .e4m3x4 => some ⟨.flt fmtE4M3, .flt fmtE4M3, .flt fmtF32⟩
  | .e5m2x4 => some ⟨.flt fmtE5M2, .flt fmtE5M2, .flt fmtF32⟩
  | .e2m1x8 => some ⟨.flt fmtE2M1, .flt fmtE2M1, .flt fmtF32⟩
  | .i8x4 => some ⟨.int true 8, .int true 8, .int true 32⟩
  | .tern16 => some ⟨.tern, .int true 8, .int true 32⟩
  | .bf16x2 => some ⟨.flt fmtBF16, .flt fmtBF16, .flt fmtF32⟩
  | .f16x2 => some ⟨.flt fmtF16, .flt fmtF16, .flt fmtF32⟩
  | .f32 => some ⟨.flt fmtF32, .flt fmtF32, .flt fmtF32⟩
  | .f64 => some ⟨.flt fmtF64, .flt fmtF64, .flt fmtF64⟩
  | .i32 => none | .u32 => none | .i64 => none | .u64 => none | .i16x2 => none | .u16x2 => none | .u8x4 => none | .i4x8 => none
/-- The MX types, whose operands may have scales (R232). -/
def mxTy (t : Ty) : Bool := t = .e4m3x4 || t = .e5m2x4 || t = .e2m1x8
/-- The types of `mmab` (R243). -/
def mmabOk (t : Ty) : Bool := (matTy t).isSome && t != .f32 && t != .f64
/-- The types of `mmar` (R244). -/
def mmarOk (t : Ty) : Bool := t = .f64 || t = .f32 || t = .bf16x2
/-- The types of `acld` and `acrd` (R246, R247). -/
def tileTyOk (t : Ty) : Bool := t = .i32 || t = .u32 || t = .f32 || t = .f64

/-- The elements of a tile: 128 rows of 96 (R229). -/
def tileElems : Nat := 12288
/-- The key of 32-bit word `w` of tile cN of a bench; the words of a pair follow on from the first tile's. -/
def tileKey (bench n w : Nat) : Nat := (bench * 8 + n) * tileElems + w
/-- An element of a tile, or of a tile pair under f64 (R229). -/
def tileGet (co : Cohort) (bench n : Nat) (wide : Bool) (e : Nat) : Nat :=
  if wide then (sget co.tiles (tileKey bench n (2 * e))).toNat + 2 ^ 32 * (sget co.tiles (tileKey bench n (2 * e + 1))).toNat
  else (sget co.tiles (tileKey bench n e)).toNat
/-- Writes an element of a tile or of a tile pair. -/
def tileSet (co : Cohort) (bench n : Nat) (wide : Bool) (e x : Nat) : Cohort :=
  if wide then
    let lo := sset co.tiles (tileKey bench n (2 * e)) (BitVec.ofNat 32 x)
    { co with tiles := sset lo (tileKey bench n (2 * e + 1)) (BitVec.ofNat 32 (x / 2 ^ 32)) }
  else { co with tiles := sset co.tiles (tileKey bench n e) (BitVec.ofNat 32 x) }

/-- The naming checks of R229: the tile, or the pair under f64, lies in the share. -/
def tileIn (h : Here) (t : Ty) (n : Nat) : Bool := decide (n + (if t = .f64 then 1 else 0) < h.ke.launch.acc)
/-- Under f64 an even tile is named (R229). -/
def tileEven (t : Ty) (n : Nat) : Bool := t != .f64 || n % 2 == 0

/-- The tile that a numbered instruction writes. -/
def tileOf : Instr → Option Nat
  | .mma _ n _ _ => some n.val | .mmab _ n _ _ => some n.val | .mmar _ n _ _ => some n.val
  | .aclr _ n => some n.val | .acld _ n _ _ => some n.val
  | _ => none
/-- A queued instruction writes tile cN of a cohort, or of the pair it begins. -/
def MCmd.writesTile (c : MCmd) (cohort n : Nat) (wide : Bool) : Bool :=
  c.origin.cohort == cohort &&
    match tileOf c.instr with
    | some m => decide (m < n + (if wide then 2 else 1)) && decide (n < m + (if c.mode.t = .f64 then 2 else 1))
    | none => false
/-- The number of the last instruction queued on the bench that writes the tile; none when all have completed (R230). -/
def lastWriter (s : State) (h : Here) (n : Nat) (wide : Bool) : Option W64 :=
  match s.bench? h.core h.bench with
  | some b => ((b.queue.filter fun c => c.writesTile h.tm.cohort n wide).getLast?).map (·.q)
  | none => none

/-! ## Ramps (R236) -/

/-- The arithmetic instructions of a unit. -/
def isArith : Instr → Bool
  | .mma .. => true | .mmab .. => true | .mmar .. => true
  | _ => false
/-- An arithmetic instruction waits in the queue. -/
def Bench.waiting (b : Bench) : Bool := b.queue.any fun c => !c.skip && isArith c.instr
/-- An arithmetic instruction is next in the queue. -/
def Bench.upNext (b : Bench) : Bool := match b.queue.head? with
  | some c => isArith c.instr
  | none => false
/-- Filler cycles of a HOLD or DOWN that ends early: how many is not stated (log 22). -/
def Bench.filler (b : Bench) (tick n : Nat) : Bench := { b with mfill := b.mfill + BitVec.ofNat 64 ((Config.freeWord tick).toNat % n) }

/-- What the arrival of an instruction in the queue does to the ramp. -/
def Bench.arrive (b : Bench) (tick : Nat) (arith : Bool) : Bench :=
  match b.ramp with
  | .idle => if b.upNext then { b with ramp := .up } else b
  | .up => b
  | .run => b
  | .hold => if arith then { b.filler tick 4096 with ramp := .run } else b
  | .down => if arith then { b.filler tick 32 with ramp := .run } else b
/-- What the end of an instruction, or the loss of those that waited, does to the ramp: with no arithmetic instruction waiting RUN ends. -/
def Bench.ended (b : Bench) : Bench :=
  match b.ramp with
  | .run => if b.waiting then b else if b.burst = 0 then { b with ramp := .down } else { b with ramp := .hold }
  | .idle => if b.upNext then { b with ramp := .up } else b
  | .up => b
  | .hold => b
  | .down => b

/-! ## Issue (R230, R231, R234, R242) -/

/-- A numbered instruction takes its number (R230); an arithmetic one counts down BURST (R236). -/
def numbered (sw : Bool) (s : State) (h : Here) (i : Instr) (args : List W64) (lits : Nat) : Outcome State :=
  let arith := isArith i
  let s1 := s.bump.modBench h.core h.bench fun b =>
    ({ b with queue := b.queue ++ [⟨b.nxmat, i, h.tm.mode, args, h.origin h.tm.pc, false, false⟩], nxmat := b.nxmat + 1
              burst := if arith && b.burst != 0 then b.burst - 1 else b.burst } : Bench).arrive s.tick arith
  .next (endAt s1 h sw (nextPc h.tm.pc lits) onePass h.tm)

/-- MATRIX of the team's instruction. -/
def matrixFault (s : State) (h : Here) : Outcome State := raise s h 0x0D h.tm.active 0
/-- The checks that every instruction on a tile makes at issue (R229, R239). -/
def tileChecks (s : State) (h : Here) (ok : Bool) (n : Nat) (k : Outcome State) : Outcome State :=
  if !(ok && tileEven h.tm.mode.t n) then illegal s h
  else if h.ga.mfault || !tileIn h h.tm.mode.t n then matrixFault s h
  else k

/-- An address passes R118 at issue: canonical and outside the reserved range, and in the window where it names a core that holds a cohort
of the gang and lies in its share (R119). The other bytes of its operand the unit checks as it reads them: the model's reading (log
116). -/
def formOk (h : Here) (va : W64) : Bool :=
  ordinary va || (inWindow va && (h.neighbour (va.toNat / 2 ^ 22 % 4)).isSome && decide (va.toNat % 2 ^ 22 < h.share))
/-- The address is a multiple of n. -/
def alignedTo (n : Nat) (va : W64) : Bool := va.toNat % n == 0
/-- ALIGN, then PROT, for the addresses and strides of a matrix instruction at issue (R234). The order of the checks, with MATRIX before
them, is the model's choice (log 115). -/
def matAddrs (s : State) (h : Here) (aligned : List (Nat × W64)) (strides forms : List W64) (k : Outcome State) : Outcome State :=
  match aligned.find? fun a => !alignedTo a.1 a.2 with
  | some a => raise s h 0x04 h.tm.active a.2
  | none =>
    if strides.any fun x => !alignedTo 16 x then raise s h 0x04 h.tm.active 0
    else match forms.find? fun a => !formOk h a with
      | some a => raise s h 0x06 h.tm.active a
      | none => k

/-- A row stride in bits 63:32. -/
def strideOf (x : W64) : W64 := BitVec.ofNat 64 (x.toNat / 2 ^ 32)
/-- COLS of a B descriptor; 0 means 96 (R231). -/
def colsOf (b1 : W64) : Nat := let c := b1.toNat / 2 ^ 24 % 2 ^ 8; if c = 0 then 96 else c
/-- ROWS of an A descriptor; 0 means 128 (R231). -/
def rowsOf (a1 : W64) : Nat := let r := a1.toNat / 2 ^ 8 % 2 ^ 8; if r = 0 then 128 else r
/-- K of an A descriptor (R231). -/
def kOf (a1 : W64) : Nat := a1.toNat / 2 ^ 16 % 2 ^ 16
/-- The fields of a B descriptor are valid (R234). -/
def bFieldsOk (b1 : W64) : Bool := b1.toNat % 2 ^ 24 == 0 && decide (colsOf b1 ≤ 96)

/-- Three consecutive uniform registers. -/
def triple (f : Frame) (r : Nat) : List W64 := [f.regs.uget r, f.regs.uget (r + 1), f.regs.uget (r + 2)]
/-- Their keys. -/
def tripleKeys (r : Nat) : List RegKey := [.s r, .s (r + 1), .s (r + 2)]

/-- MMA (R231 to R234). -/
def execMma (sw : Bool) (n : Fin 8) (a b : Fin 30) (s : State) : Outcome State :=
  onTeam s fun h => reading s h (tripleKeys a.val ++ tripleKeys b.val) fun s f =>
    tileChecks s h (matTy f.mode.t).isSome n.val <|
      let a0 := f.regs.uget a.val
      let a1 := f.regs.uget (a.val + 1)
      let a2 := f.regs.uget (a.val + 2)
      let b0 := f.regs.uget b.val
      let b1 := f.regs.uget (b.val + 1)
      let b2 := f.regs.uget (b.val + 2)
      if a1.toNat % 2 ^ 8 != 0 || 128 < rowsOf a1 || !bFieldsOk b1 || (!mxTy f.mode.t && (a2 != 0 || b2 != 0)) then matrixFault s h
      else matAddrs s h [(16, a0), (16, b0)] [strideOf a1, strideOf b1] [a0, b0, a2, b2] <|
        numbered sw s h (.mma sw n a b) (triple f a.val ++ triple f b.val) 0

/-- The issue of a sparse instruction (R242): of the descriptor's address the alignment alone is checked here. -/
def sparseIssue (sw : Bool) (i : Instr) (ok : Ty → Bool) (n : Fin 8) (a : SReg) (b : Fin 30) (s : State) : Outcome State :=
  onTeam s fun h => reading s h (.s a.val :: tripleKeys b.val) fun s f =>
    tileChecks s h (ok f.mode.t) n.val <|
      let d := f.regs.uget a.val
      let b0 := f.regs.uget b.val
      let b1 := f.regs.uget (b.val + 1)
      if !bFieldsOk b1 || f.regs.uget (b.val + 2) != 0 then matrixFault s h
      else matAddrs s h [(64, d), (16, b0)] [strideOf b1] [b0] <| numbered sw s h i (d :: triple f b.val) 0

/-- MMAB (R242, R243). -/
def execMmab (sw : Bool) (n : Fin 8) (a : SReg) (b : Fin 30) (s : State) : Outcome State :=
  sparseIssue sw (.mmab sw n a b) mmabOk n a b s
/-- MMAR (R242, R244). -/
def execMmar (sw : Bool) (n : Fin 8) (a : SReg) (b : Fin 30) (s : State) : Outcome State :=
  sparseIssue sw (.mmar sw n a b) mmarOk n a b s

/-- ACLR (R245). -/
def execAclr (sw : Bool) (n : Fin 8) (s : State) : Outcome State :=
  onTeam s fun h => tileChecks s h true n.val <| numbered sw s h (.aclr sw n) [] 0

/-- ACLD (R246). -/
def execAcld (sw : Bool) (n : Fin 8) (a : ASrc) (b : USrc) (s : State) : Outcome State :=
  onTeam s fun h => reading s h (usrcKeys (asrcToU a) ++ usrcKeys b) fun s f =>
    tileChecks s h (tileTyOk f.mode.t) n.val <|
      let va := usrcVal f (asrcToU a)
      let st := usrcVal f b
      matAddrs s h [(16, va)] [st] [] <|
        numbered sw s h (.acld sw n a b) [va, st] (usrcLits (asrcToU a) + usrcLits b)

/-- MHINT (R236, R237): BURST becomes the low 16 bits of the operand. -/
def execMhint (sw : Bool) (a : USrc) (s : State) : Outcome State :=
  onTeam s fun h => reading s h (usrcKeys a) fun s f =>
    let n : BitVec 16 := (usrcVal f a).setWidth 16
    let s1 := s.bump.modBench h.core h.bench fun b =>
      match b.ramp with
      | .idle => { b with burst := n, ramp := if n = 0 then .idle else .up }
      | .hold => if n = 0 then { b.filler s.tick 4096 with burst := n, ramp := .down } else { b with burst := n }
      | .up => { b with burst := n }
      | .run => { b with burst := n }
      | .down => { b with burst := n }
    .next (endAt s1 h sw (nextPc h.tm.pc (usrcLits a)) onePass h.tm)

/-! ## ACRD (R247) -/

/-- The writes of an `acrd` from the tile as it stands. -/
def acrdWrites (d : Dst) (n : Nat) (b : USrc) (f : Frame) (co : Cohort) (bench : Nat) : Writes :=
  let t := f.mode.t
  let e0 := (usrcVal f b).toNat
  Writes.ofV (f.on.flatMap fun l =>
    if e0 + l < tileElems then dstWrites f d t.regs l (tileGet co bench n t.wide (e0 + l)) else [])
/-- ACRD (R247): parks with a pending input; its destination is outstanding until the tile is written. -/
def jobAcrd (d : Dst) (n : Fin 8) (b : USrc) (f : Frame) : Job :=
  let t := f.mode.t
  { ok := fun f => tileTyOk f.mode.t && tileEven f.mode.t n.val
    ureads := usrcURegs b
    vwrites := [⟨d, t.regs, t.wide⟩]
    defers := false
    late := true
    cost := perWord t.regs
    run := fun h f s =>
      if h.ga.mfault || !tileIn h f.mode.t n.val then .fault s (.plain 0x0D f.pc f.mask 0)
      else Act.writes s (acrdWrites d n.val b f h.co h.bench)
    tile := fun s h => lastWriter s h n.val t.wide }
/-- ACRD (R247). -/
def execAcrd (sw : Bool) (d : Dst) (n : Fin 8) (b : USrc) (s : State) : Outcome State :=
  issueJob (.acrd sw d n b) sw (jobAcrd d n b) s

/-- An access in flight that read a tile: its value is the tile's when the writes before it have completed (R230). -/
def captureOne (s : State) (t : Nat) (tm : Team) (core bench : Nat) (a : InFlight) : InFlight :=
  match a.tile, a.instr with
  | some q, .acrd _ d n b =>
    match here s t with
    | some h =>
      if h.core = core && h.bench = bench && s.tilePassed core bench q && tm.cohort = h.tm.cohort then
        { a with tile := none, writes := acrdWrites d n.val b a.frame h.co bench }
      else a
    | none => a
  | _, _ => a
/-- Tile reads of a bench whose tile writes have completed. -/
def captureTiles (s : State) (core bench : Nat) : State :=
  { s with teams := s.teams.mapIdx fun t tm =>
      if tm.inflight.any fun a => a.tile.isSome then { tm with inflight := tm.inflight.map (captureOne s t tm core bench) } else tm }

/-! ## Arithmetic of a chunk (R66, R67) -/

/-- The sum of a chunk of a narrow float type, from +0 (R67). -/
def chunkSum (fa fb : Fmt) (ps : List (Nat × Nat)) : FVal :=
  ps.foldl (fun s p => s.add .rne ((fread fa false p.1).mul (fread fb false p.2))) (.fin false 0 0)
/-- A chunk's value scaled by the e8m0 scales of its block; a scale of 0xFF gives a NaN (R66, R67). -/
def chunkScale (v : FVal) (sc : Option Int) : FVal :=
  match sc with
  | none => .nan false
  | some k => match v with
    | .fin n m e => .fin n m (e + k)
    | .inf n => .inf n
    | .nan b => .nan b
/-- One output element after a chunk (R66): `ps` pairs the A and B elements that are there. -/
def macElem (t : MatTy) (c : Nat) (ps : List (Nat × Nat)) (sc : Option Int) : Nat :=
  match t.a, t.b, t.acc with
  | .flt fa, .flt fb, .flt fc =>
    if fa = fc then
      ps.foldl (fun c p => (fput fc Env.plain (fmaVal .rne false (fread fc false c) (fread fa false p.1) (fread fb false p.2))).val) c
    else
      let x := (fput fc Env.plain (chunkScale (chunkSum fa fb ps) sc)).val
      (fput fc Env.plain ((fread fc false c).add .rne (fread fc false x))).val
  | _, _, _ => ux 32 ((c : Int) + (ps.map fun p => elemInt t.a p.1 * elemInt t.b p.2).foldl (· + ·) 0)

/-- One chunk of a numbered instruction as the unit has read it: for each row its A elements with the key of the B elements
they meet, the B elements of each key by column, and the scale bytes of rows and columns. -/
structure Chunk where
  rows : List (Nat × List (Nat × Nat))
  b    : List (Nat × List Nat)
  sa   : List Nat
  sb   : List Nat
  deriving DecidableEq, Repr

/-- The exponent of a row's and a column's scale: none for 0xFF, 0 for a scale that is not there (R232, R67). -/
def scaleExp (sa sb : List Nat) (m n : Nat) : Option Int :=
  let a := sa.getD m 127
  let b := sb.getD n 127
  if a = 255 || b = 255 then none else some ((a : Int) - 127 + ((b : Int) - 127))

/-- A chunk applied to the tile (R66, R233): rows without positions, and what lies outside, keep their bits. -/
def applyChunk (co : Cohort) (bench n cols : Nat) (t : MatTy) (wide : Bool) (ch : Chunk) : Cohort :=
  ch.rows.foldl (fun co r =>
    if r.2.isEmpty then co
    else (List.range cols).foldl (fun co c =>
      let ps := r.2.map fun p => (p.1, (((ch.b.find? fun x => x.1 = p.2).map (·.2)).getD []).getD c 0)
      let e := r.1 * 96 + c
      tileSet co bench n wide e (macElem t (tileGet co bench n wide e) ps (scaleExp ch.sa ch.sb r.1 c))) co) co

/-- A reserved tern element is among the A elements of a chunk (R51, R59). -/
def Chunk.ternx (ch : Chunk) (t : MatTy) : Bool := t.a = .tern && ch.rows.any fun r => r.2.any fun p => p.1 = 2

/-! ## Reading operands (R232, R235, R239) -/

/-- Cuts bytes into parts of the given sizes. -/
def cutBytes : List Nat → List Byte → List (List Byte)
  | [], _ => []
  | n :: r, bs => bs.take n :: cutBytes r (bs.drop n)
/-- Element k of packed bytes, of width w. -/
def packedAt (bs : List Byte) (w k : Nat) : Nat := natOf bs / 2 ^ (k * w) % 2 ^ w
/-- The bytes that hold `k` elements of width `w`. -/
def packBytes (w k : Nat) : Nat := (k * w + 7) / 8

/-- Reads parts of memory through the L1 of the core (R235), one list of bytes for each. -/
def unitRead (s : State) (h : Here) (e : EngRef) (as : List (W64 × Nat)) : Got (List (List Byte)) :=
  match engineRead s h e true (.glob true) (as.flatMap fun a => rangePieces a.1 a.2) with
  | .ok s bs => .ok s (cutBytes (as.map (·.2)) bs)
  | .fault s c a => .fault s c a
  | .ask s t => .ask s t

/-- Chunk j of a `mma` (R231 to R233): sixteen products, of which those beyond K are exact zeros (R66), each a step of its own under f32
and f64. -/
def denseChunk (h : Here) (e : EngRef) (t : MatTy) (mx : Bool) (args : List W64) (s : State) (j : Nat) : Got Chunk :=
  let a1 := args.getD 1 0
  let b1 := args.getD 4 0
  let k := kOf a1
  let rows := rowsOf a1
  let cols := colsOf b1
  let cnt := min 16 (k - 16 * j)
  let wa := t.a.width
  let wb := t.b.width
  let blk := (k + 31) / 32
  let row (base st : W64) (i w : Nat) : W64 × Nat := (base + BitVec.ofNat 64 (i * st.toNat + 2 * j * w), packBytes w cnt)
  let scale (base : W64) (n : Nat) : List (W64 × Nat) :=
    if mx && base != 0 then (List.range n).map fun i => (base + BitVec.ofNat 64 (i * blk + j / 2), 1) else []
  let as := (List.range rows).map fun m => row (args.getD 0 0) (strideOf a1) m wa
  let bs := (List.range cols).map fun n => row (args.getD 3 0) (strideOf b1) n wb
  let sa := scale (args.getD 2 0) rows
  let sb := scale (args.getD 5 0) cols
  match unitRead s h e (as ++ bs ++ sa ++ sb) with
  | .fault s c a => .fault s c a
  | .ask s t => .ask s t
  | .ok s xs =>
    let ra := xs.take rows
    let rb := (xs.drop rows).take cols
    let ks := List.range cnt
    let beyond := (List.range 16).drop cnt
    let rest := xs.drop (rows + cols)
    .ok s
      { rows := ra.mapIdx fun m bs => (m, ks.map (fun k => (packedAt bs wa k, k)) ++ beyond.map fun k => (0, k))
        b := ks.map (fun k => (k, rb.map fun bs => packedAt bs wb k)) ++ beyond.map fun k => (k, rb.map fun _ => 0)
        sa := (rest.take sa.length).map natOf
        sb := (rest.drop sa.length).map natOf }

/-- The sparse descriptor of a sparse instruction (R242). -/
structure Sparse2 where
  b      : Nat
  rows   : Nat
  rowptr : W64
  colidx : W64
  vals   : W64
  k      : Nat
  deriving DecidableEq, Repr

/-- The fields of a descriptor of 64 bytes, where no value is reserved and FORM matches (R242). -/
def sparseOf (csr : Bool) (bs : List Byte) : Option Sparse2 :=
  let x := natOf bs
  let at_ (o n : Nat) : Nat := x / 2 ^ (8 * o) % 2 ^ (8 * n)
  let blog := at_ 1 1
  let rows := if at_ 2 1 = 0 then 128 else at_ 2 1
  if at_ 0 1 = csr.toNat && at_ 3 5 = 0 && at_ 0x24 28 = 0 && rows ≤ 128 && at_ 0x20 4 != 0
      && (if csr then blog = 0 else 2 ≤ blog && blog ≤ 4 && rows % 2 ^ blog = 0) then
    some ⟨2 ^ blog, rows, BitVec.ofNat 64 (at_ 8 8), BitVec.ofNat 64 (at_ 16 8), BitVec.ofNat 64 (at_ 24 8), at_ 0x20 4⟩
  else none

/-- A list does not decrease. -/
def rising (xs : List Nat) : Bool := (xs.zip (xs.drop 1)).all fun p => decide (p.1 ≤ p.2)

/-- The stored positions of every row, as the index of the value and the index along K (R243, R244). -/
def positions (d : Sparse2) (rp cols : List Nat) : List (List (Nat × Nat)) :=
  let p0 := rp.getD 0 0
  (List.range d.rows).map fun m =>
    let r := m / d.b
    let i := m % d.b
    (List.range (rp.getD (r + 1) 0 - rp.getD r 0)).flatMap fun x =>
      let p := rp.getD r 0 + x
      (List.range d.b).map fun t => (p * d.b * d.b + i * d.b + t, cols.getD (p - p0) 0 * d.b + t)

/-- A descriptor with its stored positions, read and checked (R242). -/
def sparseRead (csr : Bool) (h : Here) (e : EngRef) (args : List W64) (s : State) : Got (Sparse2 × List (List (Nat × Nat))) :=
  match unitRead s h e [(args.getD 0 0, 64)] with
  | .fault s c a => .fault s c a
  | .ask s t => .ask s t
  | .ok s xs =>
    match sparseOf csr xs.flatten with
    | none => .fault s 0x0D 0
    | some d =>
      if !alignedTo 4 d.rowptr then .fault s 0x04 d.rowptr
      else if !alignedTo 4 d.colidx then .fault s 0x04 d.colidx
      else if !alignedTo 16 d.vals then .fault s 0x04 d.vals
      else
        let nr := d.rows / d.b + 1
        match unitRead s h e [(d.rowptr, 4 * nr)] with
        | .fault s c a => .fault s c a
        | .ask s t => .ask s t
        | .ok s xs =>
          let rp := words32 nr xs.flatten
          let p0 := rp.getD 0 0
          let np := rp.getD (nr - 1) 0 - p0
          if !rising rp then .fault s 0x0D 0
          else match unitRead s h e [(d.colidx + BitVec.ofNat 64 (4 * p0), 4 * np)] with
            | .fault s c a => .fault s c a
            | .ask s t => .ask s t
            | .ok s xs =>
              let cols := words32 np xs.flatten
              if cols.any fun c => decide (d.k < (c + 1) * d.b) then .fault s 0x0D 0
              else .ok s (d, positions d rp cols)

/-- Chunk j of a sparse instruction (R243, R244): sixteen stored positions of each row. -/
def sparseChunk (csr : Bool) (h : Here) (e : EngRef) (t : MatTy) (args : List W64) (d : Sparse2) (ps : List (List (Nat × Nat)))
    (s : State) (j : Nat) : Got Chunk :=
  let b0 := args.getD 1 0
  let b1 := args.getD 2 0
  let cols := colsOf b1
  let st := (strideOf b1).toNat
  let wa := t.a.width
  let wb := t.b.width
  let now := ps.map fun r => (r.drop (16 * j)).take 16
  let keys := (now.flatMap fun r => r.map (·.2)).eraseDups
  let as := now.flatMap fun r => r.map fun p => (d.vals + BitVec.ofNat 64 (p.1 * wa / 8), packBytes wa 1)
  let bs := if csr then keys.map fun k => (b0 + BitVec.ofNat 64 (k * st), packBytes wb cols)
    else keys.flatMap fun k => (List.range cols).map fun n => (b0 + BitVec.ofNat 64 (n * st + k * wb / 8), packBytes wb 1)
  match unitRead s h e (as ++ bs) with
  | .fault s c a => .fault s c a
  | .ask s t => .ask s t
  | .ok s xs =>
    let ra := cutLists (now.map (·.length)) (xs.take as.length)
    let rb := xs.drop as.length
    let bit (w i : Nat) (bs : List Byte) : Nat := natOf bs / 2 ^ (i * w % 8) % 2 ^ w
    .ok s
      { rows := (now.zip ra).mapIdx fun m r => (m, (r.1.zip r.2).map fun p => (bit wa p.1.1 p.2, p.1.2))
        b := if csr then (keys.zip rb).map fun k => (k.1, (List.range cols).map fun n => packedAt k.2 wb n)
          else (keys.zip (cutLists (keys.map fun _ => cols) rb)).map fun k => (k.1, k.2.map (bit wb k.1))
        sa := []
        sb := [] }
where
  /-- Cuts a list into parts of the given lengths. -/
  cutLists : List Nat → List (List Byte) → List (List (List Byte))
    | [], _ => []
    | n :: r, xs => xs.take n :: cutLists r (xs.drop n)

/-! ## Execution (R230, R233, R236 to R239) -/

/-- The numbers of discarded instructions at the front of the queue count as complete (R239). -/
def dropSkipped : List MCmd → W64 → List MCmd × W64
  | [], tl => ([], tl)
  | c :: r, tl => if c.skip then dropSkipped r c.q else (c :: r, tl)

/-- The head of a bench's queue ends: TL moves on, MPROG is 0 until the unit runs the next one (R238), and what waited for its tile
goes on. -/
def matrixEnd (s : State) (core bench : Nat) : State :=
  let s1 := s.modBench core bench fun b =>
    match b.queue with
    | [] => b
    | c :: r =>
      let q := dropSkipped r c.q
      ({ b with queue := q.1, tl := tlPast b.stuck q.2, mprog := 0, need := [], fault := none } : Bench).ended
  captureTiles s1 core bench

/-- The fault of a numbered instruction (R239, R308). -/
def matFault (s : State) (c : MCmd) (code : Byte) (addr : W64) (mprog : W32) : FaultInfo :=
  { FaultInfo.plain code c.origin.pc c.origin.mask addr with engSeq := c.q, engClass := 2, mprog := mprog, region := regionOf s c.origin.team }

/-- Stops a team for a fault that arose outside its instructions; a team that is stopped already stays as it is (R307). -/
def stopOutside (s : State) (t : Nat) (f : FaultInfo) : State :=
  match here s t with
  | some h =>
    match h.tm.status with
    | .running => stopTeam s h h.tm f .stopped
    | .parked _ => stopTeam s h h.tm f .stopped
    | .blocked .chandler => s
    | .blocked _ => stopTeam s h h.tm f .stopped
    | .stopped => s
    | .captured _ => s
    | .retired => s
  | none => s

/-- A fault that nobody resolves (R239): it is reported, the issuing team stops, and every queued instruction of its gang is
discarded. -/
def matrixUnresolved (s : State) (core bench : Nat) (f : FaultInfo) : State :=
  match (s.bench? core bench).bind fun b => b.queue.head? with
  | none => s
  | some c =>
    let g := c.origin.gang
    let quiet := ((s.teams[c.origin.team]?).map fun t => t.fault.isSome).getD false
    let s1 := if quiet then s else report s c.origin.ctx (recordBody (originParty s c.origin f) f)
    let s2 := stopOutside s1 c.origin.team f
    let s3 := s2.modGang g fun x => { x with mfault := true }
    let s4 := s3.modBench core bench fun b => { b with queue := b.queue.map fun x => if x.origin.gang = g then { x with skip := true } else x }
    matrixEnd s4 core bench

/-- A fault in the unit (R239): PAGE and PROT wait for Chandler. -/
def unitFault (s : State) (core bench : Nat) (c : MCmd) (code : Byte) (addr : W64) : State :=
  let f := matFault s c code addr (((s.bench? core bench).map (·.mprog)).getD 0)
  if chandlerCode code then s.modBench core bench fun b => { b with fault := some f } else matrixUnresolved s core bench f

/-- Goes on with what the unit asked for; a fault or a wait leaves the instruction at MPROG. -/
def unitStop {α : Type} (core bench : Nat) (c : MCmd) (k : State → α → State) : Got α → State
  | .ok s x => k s x
  | .fault s code addr => unitFault s core bench c code addr
  | .ask s tags => s.modBench core bench fun b => { b with need := tags }

/-- The unit has read chunk j: it is applied to the tile, TERNX is set, and MPROG counts it (R59, R233, R238). -/
def chunkDone (core bench n cols : Nat) (t : MatTy) (wide : Bool) (c : MCmd) (s : State) (ch : Chunk) (j : Nat) : State :=
  let s1 := s.modCohort c.origin.cohort fun co => applyChunk co bench n cols t wide ch
  let s2 := if ch.ternx t then s1.modTeam c.origin.team fun tm => { tm with flags := tm.flags ||| flagTERNX } else s1
  s2.modBench core bench fun b => { b with mprog := BitVec.ofNat 32 (j + 1) }

/-- Runs chunks from MPROG on, `n` of them (R233, R238). -/
def runChunks (core bench n cols : Nat) (t : MatTy) (wide : Bool) (c : MCmd) (read : State → Nat → Got Chunk) : Nat → Nat → State → State
  | 0, _, s => matrixEnd s core bench
  | m + 1, j, s => unitStop core bench c (fun s ch =>
      runChunks core bench n cols t wide c read m (j + 1) (chunkDone core bench n cols t wide c s ch j)) (read s j)

/-- The accesses of `acld`: 128 rows of 96 elements (R246). -/
def acldParts (a st : W64) (size : Nat) : List (W64 × Nat) :=
  (List.range 128).map fun m => (a + BitVec.ofNat 64 m * st, 96 * size)
/-- The tile after `acld`. -/
def acldTile (co : Cohort) (bench n size : Nat) (rows : List (List Byte)) : Cohort :=
  (rows.zipIdx.foldl (fun (co : Cohort) r => (blocks size 96 r.1).zipIdx.foldl (fun co x =>
    tileSet co bench n (size == 8) (r.2 * 96 + x.2) (natOf x.1)) co) co)
/-- The tile after `aclr`: zero bits (R245). -/
def aclrTile (co : Cohort) (bench n : Nat) (wide : Bool) : Cohort :=
  { co with tiles := co.tiles.filter fun p =>
      !(decide (tileKey bench n 0 ≤ p.1) && decide (p.1 < tileKey bench n (if wide then 2 * tileElems else tileElems))) }

/-- What the unit does for the instruction at the head of its queue (R230, R233, R243 to R246). -/
def unitRun (s : State) (h : Here) (core bench : Nat) (c : MCmd) (mprog : Nat) : State :=
  let e : EngRef := .matrix core bench
  let t := c.mode.t
  let wide := t = .f64
  let sparse (csr : Bool) (n : Nat) (mt : MatTy) : State :=
    unitStop core bench c (fun s r =>
      let total := (r.2.map fun ps => (ps.length + 15) / 16).foldl max 0
      runChunks core bench n (colsOf (c.args.getD 2 0)) mt wide c (sparseChunk csr h e mt c.args r.1 r.2) (total - mprog) mprog s)
      (sparseRead csr h e c.args s)
  match c.instr, matTy t with
  | .mma _ n _ _, some mt =>
    let total := (kOf (c.args.getD 1 0) + 15) / 16
    runChunks core bench n.val (colsOf (c.args.getD 4 0)) mt wide c (denseChunk h e mt (mxTy t) c.args) (total - mprog) mprog s
  | .mmab _ n _ _, some mt => sparse false n.val mt
  | .mmar _ n _ _, some mt => sparse true n.val mt
  | .aclr _ n, _ => matrixEnd (s.modCohort c.origin.cohort fun co => aclrTile co bench n.val wide) core bench
  | .acld _ n _ _, _ =>
    let size := if wide then 8 else 4
    unitStop core bench c (fun s rows =>
      matrixEnd (s.modCohort c.origin.cohort fun co => acldTile co bench n.val size rows) core bench)
      (unitRead s h e (acldParts (c.args.getD 0 0) (c.args.getD 1 0) size))
  | _, _ => matrixEnd s core bench

/-- MATRIX_UNIT_EXECUTE (R233, R236): the instruction at the head of the queue, an arithmetic one only in RUN. MPROG starts at 0
and is kept where a fault or a fabric request has interrupted the instruction. -/
def execMatrixUnitExecute (core bench : Nat) (s : State) : Outcome State :=
  match s.bench? core bench with
  | none => .fault .noSuch
  | some b =>
    match b.queue.head? with
    | none => .fault .notEnabled
    | some c =>
      if b.fault.isSome || !b.need.isEmpty || (isArith c.instr && b.ramp != .run) then .fault .notEnabled
      else match here s c.origin.team with
        | some h =>
          let s1 := s.modBench core bench fun b =>
            { b with queue := modAt (fun x => { x with begun := true }) b.queue 0, mprog := if c.begun then b.mprog else 0 }
          .next (unitRun s1 h core bench c (if c.begun then b.mprog.toNat else 0))
        | none => .fault .notEnabled

/-- A ramp event of a bench in the state that it ends; filler cycles are counted in MFILL (R236). -/
def rampEvent (core bench : Nat) (r : Ramp) (n : Nat) (next : Bench → Ramp) (s : State) : Outcome State :=
  match s.bench? core bench with
  | none => .fault .noSuch
  | some b =>
    if b.ramp = r then
      .next (s.modBench core bench fun b => { b with mfill := b.mfill + BitVec.ofNat 64 n, ramp := next b })
    else .fault .notEnabled

/-- MATRIX_RAMP_UP_DONE (R236). -/
def execMatrixRampUpDone (core bench : Nat) (s : State) : Outcome State :=
  rampEvent core bench .up 16 (fun b => if b.waiting then .run else .hold) s
/-- MATRIX_HOLD_EXPIRY (R236). -/
def execMatrixHoldExpiry (core bench : Nat) (s : State) : Outcome State := rampEvent core bench .hold 4096 (fun _ => .down) s
/-- MATRIX_RAMP_DOWN_DONE (R236). -/
def execMatrixRampDownDone (core bench : Nat) (s : State) : Outcome State := rampEvent core bench .down 32 (fun _ => .idle) s

end Sys2Proof.Machine
end

