-- ==== Sys2Proof/Machine/Quant.lean ====
section
/-! DEFINITION. Tile stores, MX quantisation and the keyed rotation: majors 0x74, 0x78 to 0x7A
(spec/13_matrix_and_sparse.md R248 to R252, spec/04_numbers.md R68 to R70). -/
namespace Sys2Proof.Machine

/-! ## The keyed rotation (R69, R70) -/

/-- The mixing function of the sign generator (R69). -/
def mix (z : W64) : W64 :=
  let a := (z ^^^ (z >>> 31)) * 0x9C1B4F6D2A85E337
  let b := (a ^^^ (a >>> 27)) * 0xC4A271D93E5B8F0B
  b ^^^ (b >>> 33)
/-- The sign of element i of row r under a key (R69): true negates. -/
def signBit (seed : W64) (r i : Nat) : Bool := (mix (seed ^^^ BitVec.ofNat 64 (r * 2 ^ 20 + i))).toNat % 2 == 1

/-- A f32 result by rne, subnormals kept, with its flags. -/
def put32 (v : FVal) : Res := fput fmtF32 Env.plain v
/-- One butterfly stage (R70). -/
def butterfly (st : Nat) (xs : List Nat) : List Res :=
  xs.mapIdx fun j x =>
    if j / st % 2 = 0 then put32 ((val32 x).add .rne (val32 (xs.getD (j + st) 0)))
    else put32 ((val32 (xs.getD (j - st) 0)).add .rne (val32 x).neg)
/-- The results of a stage that reach the result of some position of a list, where later stages join positions that agree modulo `m`. -/
def reaching (on : List Nat) (m : Nat) (rs : List Res) : List Res :=
  (rs.zipIdx.filter fun p => on.any fun q => q % m == p.2 % m).map (·.1)
/-- The butterfly stages from a stride on, `k` of them, with the flags that the steps raise which reach the positions `on`. -/
def stages (on : List Nat) : Nat → Nat → List Nat → Flags → List Nat × Flags
  | 0, _, xs, fl => (xs, fl)
  | k + 1, st, xs, fl =>
    let rs := butterfly st xs
    stages on k (2 * st) (rs.map (·.val)) (fl ||| allFlags (reaching on (2 * st) rs))
/-- A value times a power of two. -/
def FVal.scale (k : Int) : FVal → FVal
  | .fin n m e => .fin n m (e + k) | .inf n => .inf n | .nan s => .nan s
/-- The rotation of a group of 2^k f32 words of row r, whose first element is i0 (R70), with the flags of the positions `on` of the group:
those of their own results, and those of the steps on whose results they depend. -/
def rotate (k : Nat) (seed : W64) (r i0 : Nat) (on xs : List Nat) : List Nat × Flags :=
  let signed := xs.mapIdx fun j x => if signBit seed r (i0 + j) then x ^^^ 0x80000000 else x
  let y := stages on k 1 signed 0
  let rs := y.1.map fun x => put32 ((val32 x).scale (-((k : Int) / 2)))
  (rs.map (·.val), y.2 ||| allFlags (reaching on (2 ^ k) rs))

/-! ## MX quantisation (R249) -/

/-- The float format of an MX type, with its largest exponent. -/
def mxFmt (t : Ty) : Option (Fmt × Int) :=
  if t = .e4m3x4 then some (fmtE4M3, 8) else if t = .e5m2x4 then some (fmtE5M2, 15) else if t = .e2m1x8 then some (fmtE2M1, 2) else none
/-- The exponent of a finite number that is not zero: floor(log2 |x|). -/
def topExp : FVal → Option Int
  | .fin _ m e => if m = 0 then none else some (e + bitLen m - 1)
  | .inf _ => none | .nan _ => none
/-- A value is finite. -/
def FVal.finite : FVal → Bool
  | .fin .. => true | .inf _ => false | .nan _ => false

/-- One element under the scale E (R249): rounded by RND and clamped to the largest finite magnitude. -/
def mxElem (f : Fmt) (rnd : Rnd) (e : Nat) (x : FVal) : Res :=
  match x.scale (127 - (e : Int)) with
  | .fin n m g =>
    let r := fround f ⟨rnd, true, false⟩ n m g false
    if r.flags &&& flagOF != 0 then ⟨f.sign n + f.maxc, flagSATF ||| flagNX⟩ else r
  | .inf _ => ⟨f.cnan, flagNV⟩
  | .nan _ => ⟨f.cnan, flagNV⟩
/-- The scale E of a block and its elements (R249). -/
def mxBlock (f : Fmt) (emax : Int) (rnd : Rnd) (xs : List FVal) : Nat × List Res :=
  if !xs.all FVal.finite then (255, xs.map fun _ => ⟨if f.hasNan then f.cnan else 0, flagNV⟩)
  else match (xs.filterMap topExp).max? with
    | none => (127, xs.map fun x => match x with
        | .fin n _ _ => .pure (f.sign n)
        | .inf _ => .pure 0
        | .nan _ => .pure 0)
    | some t =>
      let e := (clampInt 0 254 (t - emax + 127)).toNat
      (e, xs.map (mxElem f rnd e))

/-! ## QNT, DQNT, HADQ (R250 to R252) -/

/-- The blocks of 32 lanes that hold a lane that takes part, with those lanes. -/
def laneBlocks (f : Frame) : List (List Nat) := (wordsOfMask f.part).map fun w => lanesOf (f.part &&& wordMask w)

/-- The writes of `qnt` for one block (R250): the element and the block's E. -/
def qntBlock (d : Dst) (a : Src) (f : Frame) (fmt : Fmt) (emax : Int) (ls : List Nat) : List (Nat × W32) × Flags :=
  let r := mxBlock fmt emax f.mode.rnd (ls.map fun l => fread fmtF32 false (srcVal f .f32 a l))
  ((ls.zip r.2).flatMap fun p => dstWrites f d 2 p.1 (p.2.val + 2 ^ 32 * r.1), allFlags r.2)
/-- QNT (R250). -/
def jobQnt (d : Dst) (a : Src) (_ : Frame) : Job :=
  { ok := fun f => mxTy f.mode.t && srcLitOk a false
    vreads := srcVRefs a 1 false
    ureads := srcURegs a
    vwrites := [⟨d, 2, false⟩]
    cost := perWord 2
    run := fun _ f s =>
      match mxFmt f.mode.t with
      | some (fmt, emax) =>
        let rs := (laneBlocks f).map (qntBlock d a f fmt emax)
        Act.writes s { Writes.none with v := rs.flatMap (·.1), flags := rs.foldl (fun x r => x ||| r.2) 0 }
      | none => Act.writes s Writes.none }
/-- QNT (R250). -/
def execQnt (sw : Bool) (d : Dst) (a : Src) (s : State) : Outcome State := issueJob (.qnt sw d a) sw (jobQnt d a) s

/-- The value of one lane of `dqnt` (R251); a signalling NaN element sets NV whatever its scale (R58). -/
def dqntLane (a : Src) (f : Frame) (l : Nat) : Nat × Flags :=
  match mxFmt f.mode.t with
  | some (fmt, _) =>
    let x := srcValAt f .u32 a l 0 % 2 ^ fmt.width
    let e : Nat := srcValAt f .u32 a l 1 % 2 ^ 8
    let y := match fread fmt false x with
      | .nan b => .nan b
      | v => if e = 255 then .nan false else v.scale ((e : Int) - 127)
    let r := fput fmtF32 f.mode.env y
    (r.val, r.flags)
  | none => (0, 0)
/-- DQNT (R251). -/
def jobDqnt (d : Dst) (a : Src) (_ : Frame) : Job :=
  { ok := fun f => mxTy f.mode.t && srcLitOk a false
    vreads := srcVRefs a 2 false
    ureads := srcURegs a
    vwrites := [⟨d, 1, false⟩]
    cost := perWord 1
    run := laneRun d 1 (dqntLane a) }
/-- DQNT (R251). -/
def execDqnt (sw : Bool) (d : Dst) (a : Src) (s : State) : Outcome State := issueJob (.dqnt sw d a) sw (jobDqnt d a) s

/-- k, the row index and the seed of a `hadq` (R252). -/
def hadqCtl (f : Frame) (b : Fin 31) : Nat × Nat × W64 :=
  let c := (f.regs.uget (b.val + 1)).toNat
  (c % 2 ^ 8, c / 2 ^ 8 % 2 ^ 24, f.regs.uget b.val)
/-- The groups of n lanes that hold a lane that takes part. -/
def laneGroups (f : Frame) (n : Nat) : List Nat := ((f.on.map fun l => l / n).eraseDups)
/-- The control word is valid and no group reaches beyond the team's lanes (R252). -/
def hadqOk (f : Frame) (b : Fin 31) : Bool :=
  let c := hadqCtl f b
  (f.regs.uget (b.val + 1)).toNat / 2 ^ 32 == 0 && (c.1 == 4 || c.1 == 6 || c.1 == 8)
    && (laneGroups f (2 ^ c.1)).all fun g => decide ((g + 1) * 2 ^ c.1 ≤ f.lanes)
/-- The mask words that groups of n lanes span. -/
def groupWords (gs : List Nat) (n : Nat) : List Nat :=
  (gs.flatMap fun g => (List.range ((n + 31) / 32)).map fun i => g * n / 32 + i).eraseDups
/-- The lanes of a group. -/
def groupLanes (n g : Nat) : List Nat := (List.range n).map fun i => g * n + i

/-- What a lane of a group gives `hadq`, whether or not it takes part. -/
def hadqVal (s : State) (f : Frame) (a : Src) (l : Nat) : Nat := laneVal f .f32 a l (s.tick + l)

/-- The registers that the issue-time check of `hadq` reads (R48, R252): its control word, and the guard that says which groups
it concerns. -/
def hadqKeys (f : Frame) (b : Fin 31) : List RegKey :=
  .s (b.val + 1) :: (if f.mode.g = 0 then [] else [.p f.mode.g.val])
/-- HADQ (R252): every lane of a group is read. The mask words that such groups span are those that cost passes, empty ones too: the
model's reading (log 112). A lane that takes no part raises nothing for its own result (R59); a butterfly step at its position raises flags
where its value reaches the result of a lane that takes part: the model's reading (log 125). -/
def jobHadq (d : Dst) (a : Src) (b : Fin 31) (f0 : Frame) : Job :=
  { ok := fun f => f.mode.t = .f32 && srcLitOk a false
    check := fun f => if hadqOk f b then none else some 0x0D
    okKeys := hadqKeys f0 b
    vreads := srcVRefs a 1 false
    reach := fun f ls =>
      let n := 2 ^ (hadqCtl f b).1
      ((ls.map fun l => l / n).eraseDups).flatMap (groupLanes n)
    ureads := srcURegs a ++ [b.val, b.val + 1]
    vwrites := [⟨d, 1, false⟩]
    cost := fun f =>
      let k := (hadqCtl f b).1
      (groupWords (laneGroups f (2 ^ k)) (2 ^ k)).map fun w => (w, k + 1)
    run := fun _ f s =>
      let c := hadqCtl f b
      let n := 2 ^ c.1
      let rs := (laneGroups f n).map fun g =>
        let on := (List.range n).filter fun i => f.part.getLsbD (g * n + i)
        let y := rotate c.1 c.2.2 c.2.1 0 on ((groupLanes n g).map (hadqVal s f a))
        (((groupLanes n g).zip y.1).filter fun p => f.part.getLsbD p.1, y.2)
      let named := (laneGroups f n).all fun g => (groupLanes n g).all (srcLaneOk f .f32 a)
      Act.writes (if named then s else { s with tick := s.tick + 1024 }) { Writes.none with
        v := rs.flatMap fun r => r.1.flatMap fun p => dstWrites f d 1 p.1 p.2
        flags := rs.foldl (fun x r => x ||| r.2) 0 } }
/-- HADQ (R252). -/
def execHadq (sw : Bool) (d : Dst) (a : Src) (b : Fin 31) (s : State) : Outcome State :=
  issueJob (.hadq sw d a b) sw (jobHadq d a b) s

/-! ## ACST (R248) -/

/-- A tensor header (R68). -/
structure Header where
  fmt    : Ty
  blk    : Bool
  hlog   : Nat
  scale  : W64
  seed   : W64
  data   : W64
  rows   : Nat
  cols   : Nat
  stride : W64
  deriving DecidableEq, Repr

/-- The fields of a header of 64 bytes, where no value is reserved (R68). -/
def headerOf (bs : List Byte) : Option Header :=
  let x := natOf bs
  let at_ (o n : Nat) : Nat := x / 2 ^ (8 * o) % 2 ^ (8 * n)
  let q (o : Nat) : W64 := BitVec.ofNat 64 (at_ o 8)
  match Ty.dec (at_ 0 1 % 32) with
  | none => none
  | some t =>
    if at_ 0 1 < 32 && (at_ 1 1 = 0 || at_ 1 1 = 5) && (at_ 2 1 = 0 || at_ 2 1 = 4 || at_ 2 1 = 6 || at_ 2 1 = 8)
        && at_ 3 5 = 0 && at_ 0x30 16 = 0 && (at_ 1 1 = 5 || at_ 8 8 = 0) then
      some ⟨t, at_ 1 1 = 5, at_ 2 1, q 8, q 0x10, q 0x18, at_ 0x20 4, at_ 0x24 4, q 0x28⟩
    else none

/-- The header's values that raise MATRIX at issue are not there (R248); `t` is the tile's type. -/
def headerOk (h : Header) (t : Ty) (scaled : Bool) : Bool :=
  (!h.blk || mxTy h.fmt) && (h.hlog == 0 || (t = .f32 && h.cols % 2 ^ h.hlog == 0))
    && decide (1 ≤ h.rows) && decide (h.rows ≤ 128) && decide (1 ≤ h.cols) && decide (h.cols ≤ 96)
    && h.cols * h.fmt.elem.width % 8 == 0 && !(scaled && t = .i32)

/-- The bytes of a stored row. -/
def Header.rowBytes (h : Header) : Nat := h.cols * h.fmt.elem.width / 8
/-- The scale bytes of a row; none without scales. -/
def Header.scaleBytes (h : Header) : Nat := if h.blk then (h.cols + 31) / 32 else 0
/-- The accesses of a row: its bytes, and its scales. -/
def Header.rowAccs (h : Header) (r : Nat) : List Acc :=
  ⟨0, h.data + BitVec.ofNat 64 r * h.stride, h.rowBytes⟩ ::
    (if h.blk then [⟨0, h.scale + BitVec.ofNat 64 (r * h.scaleBytes), h.scaleBytes⟩] else [])

/-- A tile row after its scale and its rotation (R248). FTZ does not act on the multiplication by the scale, which R248 writes as a bare
RNE32 or RNE64: the model's reading (log 124). -/
def rowValues (h : Header) (t : Ty) (scale : Option Nat) (r : Nat) (xs : List Nat) : List Nat × Flags :=
  let a := match scale with
    | none => (xs, (0 : Flags))
    | some c =>
      let f := if t = .f64 then fmtF64 else fmtF32
      let rs := xs.map fun x => fput f Env.plain ((fread f false x).mul (fread fmtF32 false c))
      (rs.map (·.val), allFlags rs)
  if h.hlog = 0 then a
  else
    let n := 2 ^ h.hlog
    let gs := (List.range (xs.length / n)).map fun g => rotate h.hlog h.seed r (g * n) (List.range n) ((a.1.drop (g * n)).take n)
    (gs.flatMap (·.1), gs.foldl (fun x g => x ||| g.2) a.2)

/-- A value in f32 of a tile element, for the MX scales. -/
def tileVal (t : Ty) (x : Nat) : FVal :=
  match t.elem with
  | .flt f => fread f false x
  | .int sg w => intVal (intOf sg w x)
  | .tern => intVal 0

/-- The stored bytes of a row and of its scales, with the flags (R248). -/
def rowOut (h : Header) (m : Mode) (t : Ty) (xs : List Nat) : List Byte × List Byte × Flags :=
  let w := h.fmt.elem.width
  if h.blk then
    match mxFmt h.fmt with
    | some (f, emax) =>
      let bs := (List.range h.scaleBytes).map fun b => mxBlock f emax m.rnd (((xs.drop (32 * b)).take 32).map (tileVal t))
      (bytesOf h.rowBytes (packElems w (bs.flatMap fun b => b.2.map (·.val))), bs.map fun b => BitVec.ofNat 8 b.1,
        bs.foldl (fun x b => x ||| allFlags b.2) 0)
    | none => ([], [], 0)
  else
    let rs := xs.map fun x => if h.fmt = t then Res.pure x else cvtElem m.env t.elem h.fmt.elem x
    (bytesOf h.rowBytes (packElems w (rs.map (·.val))), [], allFlags rs)

/-- Every row of an `acst`: the bytes of its accesses in turn, and the flags. -/
def acstRows (h : Header) (m : Mode) (t : Ty) (scales : List Nat) (tile : Nat → Nat) : List (List Byte) × Flags :=
  (List.range h.rows).foldl (fun (st : List (List Byte) × Flags) r =>
    let xs := (List.range h.cols).map fun c => tile (r * 96 + c)
    let v := rowValues h t (scales[r]?) r xs
    let o := rowOut h m t v.1
    (st.1 ++ (if h.blk then [o.1, o.2.1] else [o.1]), st.2 ||| v.2 ||| o.2.2)) ([], 0)

/-- The stores of an `acst`: every address is placed before any byte is written (R121, R248). -/
def acstStore (sw : Bool) (i : Instr) (s : State) (h : Here) (f : Frame) (hd : Header) (scales : List Nat) (n : Nat) (lits : Nat)
    (loads : List Acc) : Outcome State :=
  let t := f.mode.t
  let as := (List.range hd.rows).flatMap hd.rowAccs
  let r := placeAll s h (.glob true) .write 1 as
  match pickFault r.2.2 with
  | some x => raise r.1 h x.1 h.tm.active x.2.2
  | none =>
    let o := acstRows hd f.mode t scales (tileGet h.co h.bench n t.wide)
    let q := storePlaced r.1 h none (r.2.1.zip o.1)
    let tm := teamNow q.1 h
    let tm1 := { tm with flags := tm.flags ||| o.2 }
    let x := seenBy h none (uniTouches f loads true false ++ uniTouches f as false true)
    let l := if q.2.isEmpty then (q.1, tm1)
      else launch q.1 { tm1 with nextId := tm1.nextId + 1 }
        ⟨tm1.nextId, i, f, some 0, [], [], Writes.none, q.2, [], [], none, whileOpen q.2 x⟩ fun _ => 0
    let s1 := endAt l.1 h sw (nextPc h.tm.pc lits) onePass l.2
    .next (watch s1 h h.tm.pc (onceActed q.2 x))

/-- ACST (R248): the header and the scales are read as plain loads in stream 0, the tile is waited for, and its rows are
stored. -/
def execAcst (sw : Bool) (n : Fin 8) (a b : USrc) (s : State) : Outcome State :=
  onTeam s fun h => reading s h (usrcKeys a ++ usrcKeys b) fun s f =>
    let t := f.mode.t
    let i : Instr := .acst sw n a b
    tileChecks s h (t = .f32 || t = .i32 || t = .f64) n.val <|
      let va := usrcVal f a
      let sc := usrcVal f b
      let head : Acc := ⟨0, va, 64⟩
      parkedLoad i s h f 64 [head] fun s h bs =>
        match headerOf bs with
        | none => matrixFault s h
        | some hd =>
          if !headerOk hd t (sc != 0) then matrixFault s h
          else if !alignedTo 16 hd.data then raise s h 0x04 h.tm.active hd.data
          else if !alignedTo 16 hd.stride then raise s h 0x04 h.tm.active 0
          else match lastWriter s h n.val t.wide with
            | some q => .next (park s h (teamNow s h) (.tiles q))
            | none =>
              let lits := usrcLits a + usrcLits b
              if sc = 0 then acstStore sw i s h f hd [] n.val lits [head]
              else
                let as : List Acc := (List.range hd.rows).map fun r => ⟨0, sc + BitVec.ofNat 64 (4 * r), 4⟩
                parkedLoad i s h f 4 as fun s h xs => acstStore sw i s h f hd (words32 hd.rows xs) n.val lits (head :: as)

end Sys2Proof.Machine
end

