-- ==== Sys2Proof/Machine/Rings.lean ====
section
/-! DEFINITION. Rings, barriers and control registers: majors 0x7C to 0x7F (spec/06_instructions_memory.md R144 to R147,
spec/16_barrier_lifecycle.md R274 to R283, spec/19_traps_and_regions.md R315). -/
namespace Sys2Proof.Machine

/-! ## Rings (R144, R145) -/

/-- A posted update of the team on ring `r` has not been applied. -/
def ringPosted (tm : Team) (r : Nat) : Bool :=
  tm.posts.any fun p => match p.act with
    | .cmt x _ => x == r
    | .rel x _ => x == r
    | .arrive .. => false
/-- Goes on once the team's earlier ring instructions on the ring have taken effect (R145). -/
def whenPosted (s : State) (h : Here) (r : Nat) (k : Outcome State) : Outcome State :=
  if ringPosted h.tm r then .next (park s h h.tm (.posts r)) else k

/-- The slots of updates of one kind on a ring that teams of a cohort have issued and that are not applied yet. -/
def postedSlots (s : State) (cohort r : Nat) (rel : Bool) : Nat :=
  ((s.teams.filter fun tm => tm.cohort == cohort).flatMap fun tm => tm.posts.map fun p => match p.act with
    | .cmt x k => if !rel && x = r then k.toNat else 0
    | .rel x k => if rel && x = r then k.toNat else 0
    | .arrive .. => 0).foldl (· + ·) 0

/-- A team is blocked on the ring, or a Carter or Sifter command that names it is incomplete (R144). A Carter command names the ring of
its RING field where RCE = 1, and none where it commits to none (log 107). -/
def ringBusy (s : State) (h : Here) (r : Nat) : Bool :=
  let c := h.tm.cohort
  h.co.ringq.any (fun q => q.ring == r && q.granted.isNone) ||
    match s.cores[h.core]? with
    | some co =>
      co.carter.any (fun e => e.queue.any fun x => x.origin.cohort == c && (carterOf x.words).rce && (carterOf x.words).ring == r)
        || co.sifter.any (fun e => e.queue.any fun x => x.origin.cohort == c && (siftOf x.words).ring == r)
    | none => false

/-- A ring from its descriptor of 16 bytes, where every field is in its range and the slots lie in the share (R144). -/
def ringOf (bs : List Byte) (share : Nat) : Option Ring :=
  let x := natOf bs
  let base := x % 2 ^ 32
  let slotsz := x / 2 ^ 32 % 2 ^ 32
  let nslot := x / 2 ^ 64 % 2 ^ 32
  if x / 2 ^ 96 % 2 ^ 32 = 0 && base % 8 = 0 && 8 ≤ slotsz && slotsz ≤ 65536 && slotsz % 8 = 0 && 1 ≤ nslot && nslot ≤ 65535
      && base + nslot * slotsz ≤ share then
    some ⟨BitVec.ofNat 32 base, BitVec.ofNat 32 slotsz, BitVec.ofNat 32 nslot, 0, 0, 0, 0⟩
  else none

/-- RING_INIT (R144): the descriptor is read once the team's deferred accesses have been performed. A ring that has been initialised may
not be in use. -/
def execRingInit (sw : Bool) (r : Fin 16) (a : USrc) (_ : Byte) (s : State) : Outcome State :=
  onTeam s fun h => reading s h (usrcKeys a) fun s f => whenPosted s h r.val <|
    if h.tm.residues.any fun x => x.stream.isSome then .next (park s h h.tm .residues)
    else
      let off : W64 := BitVec.ofNat 64 ((usrcVal f a).toNat % 2 ^ 32)
      if off.toNat % 8 != 0 then raise s h 0x04 h.tm.active off
      else match placeOffset h true ⟨0, off, 16⟩ with
        | .error e => raise s h (rankCode e.rank) h.tm.active e.addr
        | .ok _ =>
          match ringOf (readBytes h.co.sp off.toNat 16) h.share with
          | none => queueFault s h
          | some g =>
            if (h.co.ring r.val).isSome && ringBusy s h r.val then queueFault s h
            else
              let s1 := s.modCohort h.tm.cohort fun co => { co with rings := co.rings.set r.val (some g) }
              .next (endAt s1 h sw (nextPc h.tm.pc (usrcLits a)) onePass (teamNow s1 h))

/-- The end of a ring instruction that writes an old count, or discards it. -/
def ringEnd (sw : Bool) (s : State) (h : Here) (a : Option SReg) (x : W32) (lits : Nat) : Outcome State :=
  let w : Writes := match a with
    | some d => Writes.ofU d.val (x.setWidth 64)
    | none => Writes.none
  let r := writeNow s (teamNow s h) w
  .next (endAt r.1 h sw (nextPc h.tm.pc lits) onePass r.2)

/-- The request of a team, in the handlers that it is in, that has been granted: its old count, and the cohort without it. -/
def takeGrant (co : Cohort) (t depth : Nat) : Option (W32 × Cohort) :=
  ((co.ringq.find? fun q => q.who == .team t depth).bind fun q => q.granted).map fun n =>
    (n, { co with ringq := co.ringq.filter fun q => !(q.who == .team t depth) })

/-- RING_RSV and RING_WAIT (R145): both drain first (R164); a request waits in order of arrival, and the team blocks until it
is granted. -/
def ringAsk (sw : Bool) (r : Fin 16) (a : Option SReg) (k : USrc) (wait : Bool) (s : State) : Outcome State :=
  onTeam s fun h =>
    let lits := usrcLits k
    let take (s : State) : Outcome State :=
      match (s.cohorts[h.tm.cohort]?).bind fun co => takeGrant co h.t h.tm.handlers with
      | some (n, co) => ringEnd sw (s.modCohort h.tm.cohort fun _ => co) h a n lits
      | none => .next (block s h h.tm .ring)
    if h.wake = some .ring then take s
    else whenDrained s h <| whenPosted s h r.val <|
      let n := usrcVal h.frame k
      match h.co.ring r.val with
      | none => queueFault s h
      | some g =>
        if g.nslot.toNat < n.toNat then queueFault s h
        else if n = 0 then ringEnd sw s h a (if wait then g.cns else g.rsv) lits
        else
          let ask : RingReq := ⟨.team h.t h.tm.handlers, r.val, wait, n.setWidth 32, none⟩
          take (s.modCohort h.tm.cohort fun co => ({ co with ringq := co.ringq ++ [ask] } : Cohort).grant r.val)

/-- RING_RSV (R145). -/
def execRingRsv (sw : Bool) (r : Fin 16) (a : Option SReg) (k : USrc) (s : State) : Outcome State := ringAsk sw r a k false s
/-- RING_WAIT (R145). -/
def execRingWait (sw : Bool) (r : Fin 16) (a : Option SReg) (k : USrc) (s : State) : Outcome State := ringAsk sw r a k true s

/-- RING_CMT and RING_REL (R145): checked with the updates issued before, and applied once the team's earlier accesses are
performed. -/
def ringPost (sw : Bool) (r : Fin 16) (k : USrc) (rel : Bool) (s : State) : Outcome State :=
  onTeam s fun h => reading s h (usrcKeys k) fun s f =>
    let n := usrcVal f k
    let go (s : State) : Outcome State := .next (endAt s h sw (nextPc h.tm.pc (usrcLits k)) onePass (teamNow s h))
    match h.co.ring r.val with
    | none => queueFault s h
    | some g =>
      let room := if rel then (g.cns - g.rel).toNat else (g.rsv - g.cmt).toNat
      if g.nslot.toNat < n.toNat then queueFault s h
      else if n = 0 then go s
      else if room < n.toNat + postedSlots s h.tm.cohort r.val rel then queueFault s h
      else go (postNow s h.t h.tm.pc (if rel then .rel r.val (n.setWidth 32) else .cmt r.val (n.setWidth 32)))

/-- RING_CMT (R145). -/
def execRingCmt (sw : Bool) (r : Fin 16) (k : USrc) (s : State) : Outcome State := ringPost sw r k false s
/-- RING_REL (R145). -/
def execRingRel (sw : Bool) (r : Fin 16) (k : USrc) (s : State) : Outcome State := ringPost sw r k true s

/-- RING_STAT (R145). -/
def execRingStat (sw : Bool) (r : Fin 16) (a : SReg) (k : USrc) (s : State) : Outcome State :=
  onTeam s fun h => reading s h (usrcKeys k) fun s f => whenPosted s h r.val <|
    let n := usrcVal f k
    if n != 0 && n != 1 then illegal s h
    else match h.co.ring r.val with
      | none => queueFault s h
      | some g =>
        let x : W64 := if n = 0 then g.cmt ++ g.rsv else g.rel ++ g.cns
        let w := writeNow s (teamNow s h) (Writes.ofU a.val x)
        .next (endAt w.1 h sw (nextPc h.tm.pc (usrcLits k)) onePass w.2)

/-! ## Barriers (R146, R277 to R279) -/

/-- What `arrive` does before its team goes on (R277): the checks, the team's ARR and g, and the posted arrival. -/
def barArriveNow (s : State) (h : Here) (b : BarRef) (n : W64) (k : State → Outcome State) : Outcome State :=
  match s.bar? b with
  | none => barrierFault s h none
  | some x =>
    if !arriveOk s h b x n then barrierFault s h (some b)
    else
      let s0 := if joined s b.unit then s.bump else s
      let s1 := if x.state == .idle && !arrivalPosted s b x.gen then s0.modBar b fun y => { y with operand := some n } else s0
      let s2 := s1.setTeam h.t ((teamNow s1 h).setBar ⟨b, true, x.gen⟩)
      k (postNow s2 h.t h.tm.pc (.arrive b x.gen))

/-- Leaving a completed generation above the cohort level: the core self-invalidates, and at pod level acquires every imported
page that its die holds or has asked for (R146, R199). -/
def barLeave (s : State) (h : Here) (l : BarLevel) : State :=
  match l with
  | .cohort => s
  | .gang => selfInvalidate s h.core h.asid
  | .die => selfInvalidate s h.core h.asid
  | .pkg => selfInvalidate s h.core h.asid
  | .pod =>
    (diePages s (dieOf h.core)).foldl (fun s p => acquirePage s h.core h.asid p) (selfInvalidate s h.core h.asid)

/-- The team has been blocked on the instance at this instruction (R277). -/
def waitedFor (h : Here) (b : BarRef) : Bool := match h.wake with
  | some (.barrier c _) => c == b
  | _ => false
/-- What `wait` does (R277, R279): it blocks until the generation of the team's arrival is complete, which releases it (R276): a fault of
the instance since then is none of its own. -/
def barWaitNow (sw : Bool) (s : State) (h : Here) (l : BarLevel) (b : BarRef) (lits : Nat) : Outcome State :=
  match s.bar? b with
  | none => barrierFault s h none
  | some x =>
    let u := h.tm.barUse b
    if !u.arr || (x.state == .faulted && !(x.gen != u.g && waitedFor h b)) then barrierFault s h (some b)
    else if x.gen != u.g then
      let s1 := barLeave s h l
      .next (endAt s1 h sw (nextPc h.tm.pc lits) onePass ((teamNow s1 h).setBar ⟨b, false, u.g⟩))
    else .next (block s h h.tm (.barrier b u.g))

/-- BAR_ARRIVE (R146, R277). -/
def execBarArrive (sw : Bool) (l : BarLevel) (id : Fin 16) (n : Cnt) (s : State) : Outcome State :=
  onTeam s fun h => reading s h (cntKeys n) fun s f =>
    match barRefOf h l id with
    | none => barrierFault s h none
    | some b => barArriveNow s h b (cntVal f n) fun s1 =>
        .next (endAt s1 h sw (nextPc h.tm.pc (cntLits n)) onePass (teamNow s1 h))

/-- BAR_WAIT (R146, R277). -/
def execBarWait (sw : Bool) (l : BarLevel) (id : Fin 16) (n : Cnt) (s : State) : Outcome State :=
  onTeam s fun h => whenDrained s h <|
    match barRefOf h l id with
    | none => barrierFault s h none
    | some b => barWaitNow sw s h l b (cntLits n)

/-- BAR_SYNC (R146, R277): arrive, and then wait; a team that has waited does not arrive again. -/
def execBarSync (sw : Bool) (l : BarLevel) (id : Fin 16) (n : Cnt) (s : State) : Outcome State :=
  onTeam s fun h => whenDrained s h <|
    match barRefOf h l id with
    | none => barrierFault s h none
    | some b =>
      if waitedFor h b then barWaitNow sw s h l b (cntLits n)
      else barArriveNow s h b (cntVal h.frame n) fun s1 => barWaitNow sw s1 { h with tm := teamNow s1 h } l b (cntLits n)

/-- The cores that take part in a generation (R146): those of the unit's resident gangs. -/
def barCores (s : State) (u : BarUnit) : List (Nat × Nat) :=
  let gs := match u with
    | .cohort _ => []
    | .gang g => [g]
    | .die .. => unitGangs s u
    | .pkg _ => unitGangs s u
    | .pod _ => unitGangs s u
  gs.flatMap fun g => match s.gangs[g]? with
    | some ga =>
      if ga.state == .resident || ga.state == .capturing || ga.state == .retired then
        (match (s.ctx? (s.ctxOfKernel ga.kernel)).bind fun c => c.asid with
        | some asid => ga.cores.map fun c => (c, asid)
        | none => [])
      else []
    | none => []

/-- BARRIER_GENERATION_COMPLETE (R276, R199): the participating cores write back their dirty sets, and at pod level the forwarded
writes are confirmed; then the generation ends. In a joined pod the event may say that the other packages have arrived (R292). -/
def execBarrierGenerationComplete (b : BarRef) (s : State) : Outcome State :=
  match s.bar? b with
  | none => .fault .noSuch
  | some x =>
    if x.state != .complete && !othersMay s b x then .fault .notEnabled
    else
      let pod := match b.unit with
        | .pod _ => true
        | .cohort _ => false | .gang _ => false | .die .. => false | .pkg _ => false
      let cs := (barCores s b.unit).eraseDups
      if pod && cs.any (fun c => s.forwardsFrom c.1) then .fault .notEnabled
      else
        let s1 := cs.foldl (fun s c => clearCore s c.1 c.2) s
        if pod && cs.any (fun c => s1.forwardsFrom c.1) then .next s1 else .next (s1.modBar b Bar.next)

/-! ## Control registers (R147) -/

/-- The hardware slot that holds a queue. -/
def slotOfQueue (s : State) (ctx q : Nat) : Option (Nat × Slot) :=
  (s.slots.zipIdx.find? fun x => x.1.queue == some (ctx, q)).map fun x => (x.2, x.1)

/-- The value of a control register as a team reads it (R147). -/
def csrVal (s : State) (h : Here) : Csr → W64
  | .mode => (h.tm.mode.bits).setWidth 64
  | .flags => h.tm.flags.setWidth 64
  | .regions => h.tm.regions.setWidth 64
  | .repc => h.tm.repc
  | .rdepth => BitVec.ofNat 64 h.tm.rdepth
  | .trapvec => h.tm.trapvec
  | .stkdepth => BitVec.ofNat 64 h.tm.stack.length
  | .rescap => BitVec.ofNat 64 h.tm.rescap
  | .resstall => h.tm.resstall
  | .mprog => (((s.bench? h.core h.bench).map fun (b : Bench) => b.mprog).getD 0).setWidth 64
  | .mfill => ((s.bench? h.core h.bench).map (·.mfill)).getD 0
  | .spbankc => h.co.spbankc - banksDue s h.tm.cohort
  | .cycle => s.cycle
  | .passes => h.tm.passes
  | .clears => h.tm.clears
  | .tslice => BitVec.ofNat 64 (((slotOfQueue s h.ke.ctx h.ke.queue).map fun x => x.2.tslice).getD s.cfg.tslice)
  | .rtmo => BitVec.ofNat 64 s.cfg.rtmo
  | .tlcopy n => s.tl (.copy h.core n.val)
  | .tlsift n => s.tl (.sift h.core n.val)
  | .tlmat => s.tl (.matrix h.core h.bench)
  | .tlsettle => s.tl (.settle h.core)
  | .nxcopy n => ((s.engine? (.copy h.core n.val)).map (·.next)).getD 0
  | .nxsift n => ((s.engine? (.sift h.core n.val)).map (·.next)).getD 0
  | .nxmat => ((s.bench? h.core h.bench).map (·.nxmat)).getD 0
  | .nxsettle => ((s.engine? (.settle h.core)).map (·.next)).getD 0

/-- The registers marked S in the Access column (R147). -/
def csrPriv : Csr → Bool
  | .tslice => true | .rtmo => true
  | _ => false

/-- CSRR (R147). -/
def execCsrr (sw : Bool) (d : SReg) (r : Csr) (s : State) : Outcome State :=
  onTeam s fun h =>
    let w := writeNow s h.tm (Writes.ofU d.val (csrVal s h r))
    .next (endAt w.1 h sw (nextPc h.tm.pc 0) onePass w.2)

/-- The effect of `csrw` on the RW registers; every other register is read only (R4, R147). -/
def csrPut (s : State) (h : Here) (r : Csr) (x : W64) : State :=
  match r with
  | .resstall => s.modTeam h.t fun tm => { tm with resstall := x }
  | .passes => s.modTeam h.t fun tm => { tm with passes := x }
  | .clears => s.modTeam h.t fun tm => { tm with clears := x }
  | .spbankc => s.modCohort h.tm.cohort fun co => { co with spbankc := x + banksDue s h.tm.cohort }
  | .mfill => s.modBench h.core h.bench fun b => { b with mfill := x }
  | _ => s

/-- CSRW (R147): PRIV for the registers marked S; read-only registers ignore the write. The instruction's own pass counts after its
write, so a write of PASSES leaves it one above the operand (log 108). -/
def execCsrw (sw : Bool) (a : USrc) (r : Csr) (s : State) : Outcome State :=
  onTeam s fun h => reading s h (usrcKeys a) fun s f =>
    if csrPriv r then raise s h 0x02 h.tm.active 0
    else
      let s1 := csrPut s h r (usrcVal f a)
      .next (endAt s1 h sw (nextPc h.tm.pc (usrcLits a)) onePass (teamNow s1 h))

/-- FLAGS_CLEAR (R59, R4): the flags with a one in the operand are cleared. -/
def execFlagsClear (sw : Bool) (a : USrc) (s : State) : Outcome State :=
  onTeam s fun h => reading s h (usrcKeys a) fun s f =>
    let x : Flags := (usrcVal f a).setWidth 7
    .next (endAt s h sw (nextPc h.tm.pc (usrcLits a)) onePass { h.tm with flags := h.tm.flags &&& ~~~x })

/-- TRAPVEC_WRITE (R147, R315): bits 1:0 are cleared. -/
def execTrapvecWrite (sw : Bool) (a : USrc) (s : State) : Outcome State :=
  onTeam s fun h => reading s h (usrcKeys a) fun s f =>
    .next (endAt s h sw (nextPc h.tm.pc (usrcLits a)) onePass { h.tm with trapvec := usrcVal f a &&& ~~~(3 : W64) })

end Sys2Proof.Machine
end

