-- ==== Sys2Proof/Machine/Residue.lean ====
section
/-! DEFINITION. The landing of a variable-latency access and the run of a residue (spec/07_issue_and_deferring.md R155, R160,
R161, R167). -/
namespace Sys2Proof.Machine

/-- The job of a lane or uniform instruction; none for one that acts on the team as a whole. -/
def jobOf (i : Instr) : Option (Frame → Job) :=
  match i with
  | .add _ d a b => some (jobAdd d a b)
  | .sub _ d a b => some (jobSub d a b)
  | .mul _ d a b => some (jobMul d a b)
  | .fma _ d a b => some (jobFma d a b)
  | .fms _ d a b => some (jobFms d a b)
  | .min _ d a b => some (jobMin d a b)
  | .max _ d a b => some (jobMax d a b)
  | .abs _ d a => some (jobAbs d a)
  | .neg _ d a => some (jobNeg d a)
  | .cmp _ p f a b => some (jobCmp p f a b)
  | .sel _ d a b => some (jobSel d a b)
  | .cvt _ d a ty => some (jobCvt d a ty)
  | .rcp _ d a => some (jobRcp d a)
  | .rsq _ d a => some (jobRsq d a)
  | .sqrt _ d a => some (jobSqrt d a)
  | .div _ d a b => some (jobDiv d a b)
  | .exp2 _ d a => some (jobExp2 d a)
  | .log2 _ d a => some (jobLog2 d a)
  | .sin _ d a => some (jobSin d a)
  | .cos _ d a => some (jobCos d a)
  | .rint _ d a => some (jobRint d a)
  | .class _ p f a => some (jobClass p f a)
  | .wmad _ d a b => some (jobWmad d a b)
  | .dot4 _ d a b => some (jobDot4 d a b)
  | .and _ d a b => some (jobAnd d a b)
  | .or _ d a b => some (jobOr d a b)
  | .xor _ d a b => some (jobXor d a b)
  | .not _ d a => some (jobNot d a)
  | .shl _ d a b => some (jobShl d a b)
  | .shr _ d a b => some (jobShr d a b)
  | .rol _ d a b => some (jobRol d a b)
  | .popc _ d a => some (jobPopc d a)
  | .clz _ d a => some (jobClz d a)
  | .brev _ d a => some (jobBrev d a)
  | .bfe _ d a b => some (jobBfe d a b)
  | .bfi _ d a b => some (jobBfi d a b)
  | .mulhi _ d a b => some (jobMulhi d a b)
  | .addc _ d a b => some (jobAddc d a b)
  | .lea _ d a b => some (jobLea d a b)
  | .mov _ d a => some (jobMov d a)
  | .plog _ p a b table => some (jobPlog p a b table)
  | .vtop _ p a => some (jobVtop p a)
  | .ptov _ d p => some (jobPtov d p)
  | .shfl _ d a b => some (jobShfl d a b)
  | .shfx _ d a b => some (jobShfx d a b)
  | .shfu _ d a b => some (jobShfu d a b)
  | .shfd _ d a b => some (jobShfd d a b)
  | .vote _ p f a => some (jobVote p f a)
  | .ballot _ d a b => some (jobBallot d a b)
  | .psum _ d a => some (jobPsum d a)
  | .redu _ d a => some (jobRedu d a)
  | .vconf _ d a => some (jobVconf d a)
  | .rdlane _ d a b => some (jobRdlane d a b)
  | .xset _ x a => some (jobXset x a)
  | .uadd _ d a b => some (jobUadd d a b)
  | .usub _ d a b => some (jobUsub d a b)
  | .umul _ d a b => some (jobUmul d a b)
  | .uand _ d a b => some (jobUand d a b)
  | .uor _ d a b => some (jobUor d a b)
  | .uxor _ d a b => some (jobUxor d a b)
  | .ushl _ d a b => some (jobUshl d a b)
  | .ushr _ d a b => some (jobUshr d a b)
  | .umov _ d a => some (jobUmov d a)
  | .ucmp _ p f a b => some (jobUcmp p f a b)
  | .umin _ d a b => some (jobUmin d a b)
  | .umax _ d a b => some (jobUmax d a b)
  | .udiv _ d a b => some (jobUdiv d a b)
  | .urem _ d a b => some (jobUrem d a b)
  | .ld _ d a off str form => some (jobLd d a off str form)
  | .st _ b a off str form => some (jobSt b a off str form)
  | .ldc _ d a off form => some (jobLdc d a off form)
  | .lds _ d a off str form => some (jobLds d a off str form)
  | .sts _ b a off str form => some (jobSts b a off str form)
  | .atom _ d a off str fn => some (jobAtom d a off str fn)
  | .atoms _ d a off str fn => some (jobAtoms d a off str fn)
  | .cas _ d a off str => some (jobCas d a off str)
  | .uld _ d a off str form => some (jobUld d a off str form)
  | .ust _ b a off str form => some (jobUst b a off str form)
  | .pref _ a off str lvl => some (jobPref a off str lvl)
  | .clean _ a off e => some (jobClean a off e)
  | .inval _ a off e => some (jobInval a off e)
  | .ldi _ d grad crd str lat => some (jobLdi d grad crd str lat)
  | .spl _ d grad crd str lat => some (jobSpl d grad crd str lat)
  | .atomar _ d a off str fn => some (jobAtomar d a off str fn)
  | .ldq _ d a off str form => some (jobLdq d a off str form)
  | .stq _ b a off str form => some (jobStq b a off str form)
  | .acrd _ d n b => some (jobAcrd d n b)
  | .hadq _ d a b => some (jobHadq d a b)
  | .qnt _ d a => some (jobQnt d a)
  | .dqnt _ d a => some (jobDqnt d a)
  | _ => none

/-! ## Landing (R155) -/

/-- The writes that the bytes of an access give. -/
def InFlight.value (a : InFlight) (bs : List Byte) : Writes :=
  match jobOf a.instr with
  | some j => (j a.frame).fin a.frame bs
  | none => a.writes
/-- An access whose fabric request `tag` has been answered: its bytes are filled in, and once all are known its value is. -/
def InFlight.answer (a : InFlight) (tag : Nat) (bs : List Byte) : InFlight :=
  let bytes := a.bytes.map fun b => match b with
    | .known x => PByte.known x
    | .hole g i => if g = tag then .known (bs.getD i 0) else .hole g i
  let b := { a with bytes := bytes, need := a.need.filter fun g => g != tag }
  match knownBytes bytes with
  | some xs => if bytes.isEmpty then b else { b with bytes := [], writes := b.value xs }
  | none => b

/-- An access of a team lands: its value is delivered, and the updates that waited for it are applied. -/
def landNow (s : State) (t id : Nat) (a : InFlight) : State :=
  applyPosts (s.modTeam t fun tm => deliver { tm with inflight := tm.inflight.filter fun x => x.id != id } id a.writes) t

/-- LOAD_LANDS (R155, R160, R161). -/
def execLoadLands (t id : Nat) (s : State) : Outcome State :=
  match s.teams[t]? with
  | none => .fault .noSuch
  | some tm =>
    match tm.inflight.find? fun a => a.id = id with
    | none => .fault .noSuch
    | some a => if a.ready && a.nacked.isEmpty && a.late.isEmpty then .next (landNow s t id a) else .fault .notEnabled

/-! ## Residues (R160, R167) -/

/-- The fault of a residue: its own PC and its saved mask (R167). -/
def residueFault (s : State) (h : Here) (r : Residue) (f : FaultInfo) : State :=
  let tm := teamNow s h
  takeFault s h { tm with status := h.tm.status, before := h.tm.before } { f with fpc := r.frame.pc, mask := r.frame.mask } tm.pc

/-- A residue has acted (R160): it leaves the queue, its passes are counted, and its value is delivered or, for a
variable-latency access, in flight with its destinations pending. -/
def residueDone (s : State) (h : Here) (r : Residue) (j : Job) (w : Writes) (bytes : List PByte) (need : List Nat)
    (x : Option Seen) : State :=
  let tm0 := (s.teams[h.t]?).getD h.tm
  let tm1 := { tm0 with residues := tm0.residues.filter fun x => x.id != r.id }
  let a : InFlight := ⟨r.id, r.instr, r.frame, r.stream, r.dests, bytes, w, need, [], [], j.tile s h, x⟩
  let tm2 :=
    if j.late then { tm1 with inflight := tm1.inflight ++ [a] }
    else if need.isEmpty then deliver tm1 r.id w
    else { deliver tm1 r.id w with inflight := tm1.inflight ++ [{ a with dests := [], bytes := bytes, writes := Writes.none }] }
  let x := spend s h r.frame (j.cost r.frame) tm2
  applyPosts (x.1.setTeam h.t x.2) h.t

/-- RESIDUE_RUN (R160, R167): the team's oldest residue, once every value it references has been delivered, acts under its own PC and
identity. -/
def execResidueRun (t : Nat) (s : State) : Outcome State :=
  match here s t with
  | none => .fault .noSuch
  | some h =>
    match h.tm.residues.head? with
    | none => .fault .notEnabled
    | some r =>
      match jobOf r.instr with
      | none => .fault .notEnabled
      | some jf =>
        if !r.waits.isEmpty then .fault .notEnabled
        else
          let f := r.frame
          let j := jf f
          let own : Here := { h with tm := { h.tm with pc := f.pc, nextId := r.id } }
          let bad := j.badLanes f f.on
          if !bad.isEmpty then .next (residueFault s h r (.plain 0x03 f.pc f.mask 0))
          else match j.run own f s with
            | .fault s1 fi => .next (residueFault s1 h r fi)
            | .wait s1 w => if w = .forwards && !s.forwardsFrom h.core then .next s1 else .fault .notEnabled
            | .done s1 w bytes need acc =>
              let x := seenBy h (some f.mask) acc
              .next (watch (residueDone s1 h r j w bytes need (whileOpen need x)) h f.pc (onceActed need x))

end Sys2Proof.Machine
end

