-- ==== Sys2Proof/Machine/Kernels.lean ====
section
/-! DEFINITION. Queues and kernels: TAIL writes, slots, launch records, dependences, draining and completion
(spec/17_kernel_lifecycle.md R284 to R292, spec/18_queue_lifecycle.md R294 to R298, R302, R303). -/
namespace Sys2Proof.Machine

/-! ## The queue state record (R294) -/

/-- A field of a queue's state record as the device reads it at home; zero where the record is not mapped (log 11). -/
def qget (s : State) (c : Ctx) (q : Queue) (off n : Nat) : Nat :=
  (devRead s c.ptroot.toNat (q.addr + BitVec.ofNat 64 off) n).getD 0
/-- The device comes to read a queue's state record of 128 bytes (R294, R327). -/
def seeQueue (s : State) (c : Ctx) (q : Queue) : State := devSee s c.ptroot.toNat q.addr 128
/-- A field of a queue's state record written by the device at home. -/
def qput (s : State) (c : Ctx) (q : Queue) (off n x : Nat) : State :=
  devWrite s c (q.addr + BitVec.ofNat 64 off) (bytesOf n x)

/-- Bits of QFLAGS (R294). -/
def qflagEn : Nat := 0
/-- GAP of QFLAGS. -/
def qflagGap : Nat := 1
/-- OVR of QFLAGS. -/
def qflagOvr : Nat := 2
/-- HALT of QFLAGS. -/
def qflagHalt : Nat := 3
/-- A bit of QFLAGS. -/
def qflag (s : State) (c : Ctx) (q : Queue) (n : Nat) : Bool := pteBit (qget s c q 0x0C 4) n
/-- Sets a bit of QFLAGS. -/
def qflagSet (s : State) (c : Ctx) (q : Queue) (n : Nat) : State := qput s c q 0x0C 4 (qget s c q 0x0C 4 ||| 2 ^ n)
/-- Clears a bit of QFLAGS. -/
def qflagClear (s : State) (c : Ctx) (q : Queue) (n : Nat) : State :=
  if qflag s c q n then qput s c q 0x0C 4 (qget s c q 0x0C 4 - 2 ^ n) else s

/-- TAIL − HEAD, the records that wait to be read. -/
def qwaiting (s : State) (c : Ctx) (q : Queue) : Nat :=
  (BitVec.ofNat 64 (qget s c q 0x10 8) - BitVec.ofNat 64 (qget s c q 0x18 8) : W64).toNat
/-- The completion ring has room: CTAIL − CHEAD < CSIZE (R298). -/
def qroom (s : State) (c : Ctx) (q : Queue) : Bool :=
  decide ((BitVec.ofNat 64 (qget s c q 0x40 8) - BitVec.ofNat 64 (qget s c q 0x48 8) : W64).toNat < qget s c q 0x38 4)
/-- QPRIO (R294). -/
def qprio (s : State) (c : Ctx) (q : Queue) : Nat := qget s c q 0x3C 1 % 8

/-- A queue with its context. -/
def State.queueCtx (s : State) (ctx q : Nat) : Option (Ctx × Queue) :=
  (s.ctx? ctx).bind fun c => (s.queue? ctx q).map fun x => (c, x)
/-- QPRIO of the queue of a context and number. -/
def State.prioOf (s : State) (ctx q : Nat) : Nat := ((s.queueCtx ctx q).map fun x => qprio s x.1 x.2).getD 0

/-! ## Kernels of a queue -/

/-- The kernels of a queue that a condition picks, by index. -/
def kernelsOf (s : State) (ctx q : Nat) (p : Kernel → Bool) : List Nat :=
  (s.kernels.zipIdx.filter fun k => k.1.ctx = ctx && k.1.queue = q && p k.1).map (·.2)
/-- A kernel runs or drains (R296). -/
def Kernel.live (k : Kernel) : Bool := k.state == .running || k.state == .draining

/-- Frees the slot of a queue (R296). -/
def freeSlot (s : State) (ctx q : Nat) : State :=
  { s with slots := s.slots.map fun x => if x.queue == some (ctx, q) then { Slot.reset with tslice := x.tslice } else x }

/-- The next number in the order of events (R296, R297). -/
def State.order (s : State) : State := { s with now := s.now + 1 }

/-- The transitions of R296 that follow from a queue's record and kernels: DISABLED once HALT is set and no kernel runs or
drains; QUIET once every record is read and every accepted kernel is COMPLETE. -/
def qsettle (s : State) (ctx qn : Nat) : State :=
  match s.queueCtx ctx qn with
  | none => s
  | some (c, q) =>
    if q.state == .disabled then s
    else if qflag s c q qflagHalt then
      (if (kernelsOf s ctx qn Kernel.live).isEmpty then freeSlot (s.setQueue { q with state := .disabled }) ctx qn else s)
    else if q.state == .active && qwaiting s c q = 0 && (kernelsOf s ctx qn fun k => k.state != .complete).isEmpty then
      s.order.setQueue { q with state := .quiet, quietAt := s.now + 1 }
    else s

/-! ## TAIL_WRITE, QUEUE_ENABLE and SLOT_ASSIGNMENT -/

/-- What a TAIL write that leaves `tail` does to its queue (R295, R296): a TAIL more than RSIZE ahead of HEAD sets OVR and HALT;
otherwise, where TAIL ≠ HEAD, an IDLE queue becomes PENDING and a QUIET one ACTIVE. -/
def tailTaken (s : State) (c : Ctx) (q : Queue) (tail : Nat) : State :=
  let n := (BitVec.ofNat 64 tail - BitVec.ofNat 64 (qget s c q 0x18 8) : W64).toNat
  if qget s c q 0x08 4 < n then qsettle (qflagSet (qflagSet s c q qflagOvr) c q qflagHalt) q.ctx q.num
  else if n = 0 || qflag s c q qflagHalt then qsettle s q.ctx q.num
  else match q.state with
    | .idle => s.setQueue { q with state := .pending, tailAt := s.now }
    | .quiet => s.setQueue { q with state := .active }
    | .disabled => s
    | .pending => s
    | .active => s
/-- A TAIL write that a write at home has performed (R295); one of a queue that is there no more does nothing. -/
def tailNoted (s : State) (ctx qn : Nat) (value : W64) : State :=
  match s.queueCtx ctx qn with
  | none => s
  | some (c, q) => tailTaken (seeQueue s c q).order c q value.toNat

/-- TAIL_WRITE (R295, R296): TAIL is stored at home, and the queue takes it. -/
def execTailWrite (ctx qn : Nat) (tail : W64) (s : State) : Outcome State :=
  match s.queueCtx ctx qn with
  | none => .fault .noSuch
  | some (c, q) =>
    let s1 := (qput (seeQueue s c q) c q 0x10 8 tail.toNat).order
    .next (tailTaken s1 c q (qget s1 c q 0x10 8))

/-- An entry of a context's queue table (R318): the address of a queue's state record, 0 for none; nothing where the table is not
mapped (log 11). -/
def queueEntry (s : State) (c : Ctx) (qn : Nat) : Option W64 :=
  (devRead s c.ptroot.toNat (c.qtable + BitVec.ofNat 64 (8 * qn)) 8).map (BitVec.ofNat 64)
/-- The device comes to read an entry of a context's queue table (R318, R327). -/
def seeEntry (s : State) (c : Ctx) (qn : Nat) : State := devSee s c.ptroot.toNat (c.qtable + BitVec.ofNat 64 (8 * qn)) 8
/-- The context has a queue of this number: its queue table does not hold 0 for it (R287, R318). -/
def hasQueue (s : State) (c : Ctx) (qn : Nat) : Bool := (s.queue? c.id qn).isSome && queueEntry s c qn != some 0

/-- QUEUE_ENABLE (R296): Chandler sets EN; a DISABLED queue becomes IDLE unless HALT still holds it. The state record is where the
context's queue table says (R318). Before READY Chandler does nothing of the kind (R362). -/
def execQueueEnable (ctx qn : Nat) (s : State) : Outcome State :=
  if s.boot != .ready then .next s
  else match s.queueCtx ctx qn with
    | none => .fault .noSuch
    | some (c, q0) =>
      let s := seeEntry s c qn
      let q := match queueEntry s c qn with
        | some a => if a = 0 then q0 else { q0 with addr := a }
        | none => q0
      let s := seeQueue s c q
      let s1 := qflagSet s c q qflagEn
      if q.state == .disabled && !qflag s c q qflagHalt && c.state != .aborted && c.state != .destroyed then
        .next (s1.setQueue { q with state := .idle })
      else .next (s1.setQueue q)

/-- The order in which waiting queues receive slots (R297): QPRIO, then the TAIL write, context and queue number. -/
def queueBefore (s : State) (a b : Queue) : Bool :=
  let pa := s.prioOf a.ctx a.num
  let pb := s.prioOf b.ctx b.num
  if pa != pb then decide (pb < pa)
  else if a.tailAt != b.tailAt then decide (a.tailAt < b.tailAt)
  else if a.ctx != b.ctx then decide (a.ctx < b.ctx)
  else decide (a.num < b.num)

/-- The slot for the next queue: a free one, else the one whose queue has been QUIET the longest (R297). -/
def slotFor (s : State) : Option Nat :=
  match s.slots.findIdx? fun x => x.queue.isNone with
  | some i => some i
  | none =>
    let quiet := s.slots.zipIdx.filterMap fun x => x.1.queue.bind fun k => (s.queue? k.1 k.2).bind fun q =>
      if q.state == .quiet then some (q.quietAt, x.2) else none
    (quiet.find? fun a => quiet.all fun b => decide (a.1 ≤ b.1)).map (·.2)

/-- SLOT_ASSIGNMENT (R297, R298): the PENDING queue that comes first receives the slot and becomes ACTIVE; the queue that
loses the slot becomes IDLE. -/
def execSlotAssignment (ctx qn : Nat) (s : State) : Outcome State :=
  match s.queueCtx ctx qn with
  | none => .fault .noSuch
  | some (c, q) =>
    if q.state != .pending || (s.queues.any fun o => o.state == .pending && queueBefore s o q) then .fault .notEnabled
    else match slotFor s with
      | none => .fault .notEnabled
      | some i =>
        let s := seeQueue s c q
        let old := (s.slots[i]?).bind fun x => x.queue.bind fun k => s.queue? k.1 k.2
        let s1 := match old with
          | some o => s.setQueue { o with state := .idle }
          | none => s
        let s2 := s1.setQueue { q with state := .active }
        let slot (x : Slot) : Slot := { Slot.reset with queue := some (ctx, qn), tslice := s.cfg.tslice, offered := x.offered }
        .next (qsettle { s2 with slots := modAt slot s2.slots i } ctx qn)

/-! ## Completion records (R291, R303) -/

/-- LASTCMP (R303): one less than the lowest SEQ that is accepted and not COMPLETE, or LASTACC where there is none. -/
def lastCmp (s : State) (ctx qn lastAcc : Nat) : Nat :=
  let left := (kernelsOf s ctx qn fun k => k.state != .complete).filterMap fun i => (s.kernels[i]?).map fun k => k.launch.seq.toNat
  match left with
  | [] => lastAcc
  | a :: r => r.foldl min a - 1

/-- The nanoseconds of a completion record: from entering DISPATCHING, or 0 (R291). -/
def Kernel.ns (k : Kernel) (now : W64) : W64 :=
  match k.began with
  | some t => now - t
  | none => 0

/-- The 32 bytes of a completion record (R291). -/
def completionBytes (cseq : Nat) (k : Kernel) (now : W64) : List Byte :=
  bytesOf 8 cseq ++ bytesOf 8 k.launch.seq.toNat ++ [k.status, k.code] ++ bytesOf 6 0 ++ bytesOf 8 (k.ns now).toNat

/-- Kernel `i` becomes COMPLETE with the status it holds (R291, R295, R298, R303): the record is performed before CTAIL
advances. Without room it waits in DRAINING. -/
def finishKernel (s : State) (i : Nat) : State :=
  match s.kernels[i]? with
  | none => s
  | some k =>
    match s.queueCtx k.ctx k.queue with
    | none => s.modKernel i fun x => { x with state := .complete }
    | some (c, q) =>
      let s := seeQueue s c q
      if !qroom s c q then s.modKernel i fun x => { x with state := .draining }
      else
        let n := qget s c q 0x40 8
        let slot := n % qget s c q 0x38 4
        let at_ : W64 := BitVec.ofNat 64 (qget s c q 0x30 8 + slot * 32)
        let s1 := devWrite s c at_ (completionBytes n k s.podTime)
        let s2 := qput s1 c q 0x40 8 (n + 1)
        let s3 := s2.modKernel i fun x => { x with state := .complete }
        qsettle (qput s3 c q 0x28 8 (lastCmp s3 k.ctx k.queue (qget s3 c q 0x20 8))) k.ctx k.queue

/-- Ends kernel `i` with a status and a code (R288). -/
def endKernel (s : State) (i : Nat) (status code : Byte) : State :=
  finishKernel (s.modKernel i fun k => { k with status := status, code := code }) i

/-! ## LAUNCH_RECORD (R284 to R287, R302) -/

/-- A field of a record: `n` bytes at offset `off`. -/
def recField (x off n : Nat) : Nat := x / 2 ^ (8 * off) % 2 ^ (8 * n)

/-- The fields of a launch record (R284). -/
def launchOf (x : Nat) : LaunchRec :=
  let part := recField x 0x24 4
  { seq := BitVec.ofNat 64 (recField x 0 8), entry := BitVec.ofNat 64 (recField x 8 8), args := BitVec.ofNat 64 (recField x 0x10 8)
    gx := recField x 0x18 4, gy := recField x 0x1C 2, gz := recField x 0x1E 2, cores := recField x 0x20 1
    teams := recField x 0x21 1, lanes := 32 * recField x 0x22 1, rescap := recField x 0x23 1 % 128
    resflt := pteBit (recField x 0x23 1) 7, rf := part % 256, sp := part / 256 % 256, acc := part / 2 ^ 16 % 16
    yi := recField x 0x28 4, df := pteBit (recField x 0x2C 1) 1, coop := pteBit (recField x 0x2C 1) 0
    prio := recField x 0x2D 1 % 8, bclass := recField x 0x2E 1 % 16 }

/-- Teams of a cohort on each bench: ⌈T ÷ 4⌉ (R261). -/
def LaunchRec.perBench (r : LaunchRec) : Nat := (r.teams + 3) / 4
/-- Pool units of a cohort (R262). -/
def LaunchRec.units (r : LaunchRec) : Nat := r.rf + r.sp + 3 * r.acc
/-- Residue entries of a cohort on each bench (R262). -/
def LaunchRec.entries (r : LaunchRec) : Nat := r.rescap * r.perBench
/-- Gangs of the grid. -/
def LaunchRec.gangs (r : LaunchRec) : Nat := r.gx * r.gy * r.gz

/-- The fields of a record lie in their valid values (R284). -/
def recordFieldsOk (x : Nat) (r : LaunchRec) : Bool :=
  let lanes := recField x 0x22 1
  r.entry.toNat % 4 == 0 && ordinary r.entry && r.gx != 0 && r.gy != 0 && r.gz != 0
    && decide (1 ≤ r.cores) && decide (r.cores ≤ 4) && decide (1 ≤ r.teams) && decide (r.teams ≤ 64)
    && decide (1 ≤ lanes) && decide (lanes ≤ 32) && decide (r.rescap ≤ 64)
    && recField x 0x24 4 / 2 ^ 20 == 0 && decide (8 ≤ r.rf) && decide (r.rf ≤ 62) && decide (r.sp ≤ 32) && decide (r.acc ≤ 8)
    && r.yi != 0 && recField x 0x2C 1 / 4 == 0 && recField x 0x2D 1 / 8 == 0 && recField x 0x2E 1 / 16 == 0
    && decide (recField x 0x2F 1 ≤ 32) && !(recField x 0x2F 1 == 0 && recField x 0x30 8 != 0)

/-- The constraints of R262 hold. -/
def shapeOk (r : LaunchRec) : Bool :=
  decide (r.teams * r.lanes * 768 ≤ r.rf * 65536) && decide (r.units ≤ 62) && decide (r.entries ≤ 256) && decide (r.perBench ≤ 16)

/-- Cohorts that an empty core holds. -/
def cohortsPerCore (r : LaunchRec) : Nat :=
  min (62 / r.units) (min (16 / r.perBench) (if r.entries = 0 then 16 else 256 / r.entries))
/-- All gangs can be resident at once on an empty package of 32 quads (R287). -/
def coopFits (r : LaunchRec) : Bool := decide (r.gangs ≤ 32 * (4 * cohortsPerCore r / r.cores))

/-- A range of `n` bytes at a context's virtual address that the device may read, page by page (R287). A page that is imported is
unreadable to it: the model's choice (log 121). -/
def listReadable (s : State) (root : Nat) (va : W64) (n : Nat) : Bool :=
  let pages := (va.toNat % 65536 + n + 65535) / 65536
  (List.range pages).all fun i =>
    let a := va + BitVec.ofNat 64 (i * 65536)
    ordinary a && match walk s root a with
      | .ok l => (leafRights l.pte .read).isNone && pteTier l.pte != 2
      | .error _ => false

/-- `n` bytes at a context's virtual address, each read through its own page; zero where it is not mapped (log 11). -/
def devBytes (s : State) (c : Ctx) (va : W64) (n : Nat) : List Byte :=
  (List.range n).map fun i => BitVec.ofNat 8 ((devRead s c.ptroot.toNat (va + BitVec.ofNat 64 i) 1).getD 0)

/-- One dependence entry (R286, R292); none where a field is outside its valid values or an edge names no queue. -/
def depOf (s : State) (c : Ctx) (coop : Bool) (x : Nat) : Option Dep :=
  let kind := recField x 0 1
  let cls := recField x 1 1
  let cx := recField x 2 1
  let core := recField x 3 1
  let q := recField x 4 4
  let v : W64 := BitVec.ofNat 64 (recField x 8 8)
  if kind = 0 then
    if q != 0 || 128 ≤ core then none
    else if cls = 0 && cx < 16 then some (.timeline (.copy core cx) v)
    else if cls = 1 && cx < 4 then some (.timeline (.sift core cx) v)
    else if cls = 2 && cx < 4 then some (.timeline (.matrix core cx) v)
    else if cls = 3 && cx = 0 then some (.timeline (.settle core) v)
    else none
  else if cls != 0 || cx != 0 || core != 0 then none
  else if kind = 1 then (if q < 65536 && hasQueue s c q then some (.edge q v) else none)
  else if kind = 2 then (if 2 ≤ q && q ≤ 1024 && coop then some (.join q v) else none)
  else none

/-- The dependence list: the reason of R287 that it meets, or its entries. -/
def depList (s : State) (c : Ctx) (coop : Bool) (n : Nat) (va : W64) : Except Byte (List Dep) :=
  if n = 0 then .ok []
  else if va.toNat % 16 != 0 || !listReadable s c.ptroot.toNat va (16 * n) then .error 4
  else
    let ds := (List.range n).map fun i => depOf s c coop (natOf (devBytes s c (va + BitVec.ofNat 64 (16 * i)) 16))
    if ds.all Option.isSome then .ok (ds.filterMap id) else .error 1

/-- The out-region list (R286): reason 4 where it is unreadable, misaligned or malformed, or its entries. -/
def outList (s : State) (c : Ctx) (va : W64) : Except Byte (List (W64 × W64)) :=
  if va = 0 then .ok []
  else if va.toNat % 16 != 0 || !listReadable s c.ptroot.toNat va 8 then .error 4
  else
    let n := natOf (devBytes s c va 8)
    if 4096 < n || !listReadable s c.ptroot.toNat (va + 8) (16 * n) then .error 4
    else
      let rs := (List.range n).map fun i =>
        let x := natOf (devBytes s c (va + BitVec.ofNat 64 (8 + 16 * i)) 16)
        ((BitVec.ofNat 64 x : W64), (BitVec.ofNat 64 (x / 2 ^ 64) : W64))
      if rs.any fun r => r.2 == 0 then .error 4 else .ok rs

/-- The device comes to read the dependence list of a record, and the entries of the queue table that its edges name (R286, R327). -/
def seeDeps (s : State) (c : Ctx) (n : Nat) (va : W64) : State :=
  let s1 := devSee s c.ptroot.toNat va (16 * n)
  (List.range n).foldl (fun s i =>
    let x := natOf (devBytes s c (va + BitVec.ofNat 64 (16 * i)) 16)
    if recField x 0 1 = 1 && decide (recField x 4 4 < 65536) then seeEntry s c (recField x 4 4) else s) s1
/-- The device comes to read the out-region list of a record: the count, and the entries that it counts (R286, R327). -/
def seeOuts (s : State) (c : Ctx) (va : W64) : State :=
  let s1 := devSee s c.ptroot.toNat va 8
  devSee s1 c.ptroot.toNat (va + 8) (16 * min 4096 (natOf (devBytes s1 c va 8)))
/-- The device comes to read the lists that a record names, as far as they are aligned (R286, R287). -/
def seeLists (s : State) (c : Ctx) (x : Nat) : State :=
  let deps : W64 := BitVec.ofNat 64 (recField x 0x30 8)
  let outs : W64 := BitVec.ofNat 64 (recField x 0x38 8)
  let s1 := if deps.toNat % 16 = 0 then seeDeps s c (recField x 0x2F 1) deps else s
  if outs ≠ 0 ∧ outs.toNat % 16 = 0 then seeOuts s1 c outs else s1

/-- The reason of a list. -/
def listReason {α : Type} : Except Byte α → List Byte
  | .ok _ => [] | .error r => [r]
/-- The entries of a list. -/
def listEntries {α : Type} : Except Byte (List α) → List α
  | .ok x => x | .error _ => []

/-- The check of R287: every reason that a record meets. Reasons 2 and 3 presuppose fields in their valid values. -/
def rejectReasons (x : Nat) (r : LaunchRec) (ds : Except Byte (List Dep)) (os : Except Byte (List (W64 × W64))) : List Byte :=
  let fields := recordFieldsOk x r
  (if fields then [] else [1]) ++ (if fields && !shapeOk r then [2] else [])
    ++ (if fields && shapeOk r && r.coop && !coopFits r then [3] else []) ++ listReason ds ++ listReason os

/-- The lowest reason (R287). -/
def lowestReason (rs : List Byte) : Option Byte :=
  match rs with
  | [] => none
  | a :: t => some (t.foldl (fun m x => if x.toNat < m.toNat then x else m) a)

/-- Accepts a record (R287, R288, R302): its kernel is WAITING, or COMPLETE as REJECTED. -/
def acceptRecord (s : State) (c : Ctx) (q : Queue) (x : Nat) : State :=
  let s := seeLists s c x
  let r := launchOf x
  let n := recField x 0x2F 1
  let ds := depList s c r.coop n (BitVec.ofNat 64 (recField x 0x30 8))
  let os := outList s c (BitVec.ofNat 64 (recField x 0x38 8))
  let k : Kernel := ⟨c.id, q.num, r, .waiting, listEntries ds, listEntries os, 0, [], none, [], 0, 0,
    List.replicate 4 freshBars, freshBars, freshBars⟩
  let i := s.kernels.length
  let s1 := { s with kernels := s.kernels ++ [k] }
  match lowestReason (rejectReasons x r ds os) with
  | none => s1
  | some why => endKernel (s1.modKernel i fun k => { k with state := .submitted }) i 1 why

/-- LAUNCH_RECORD (R295, R302): the record at HEAD is read at home, HEAD advances, and the record is a duplicate or is
accepted, with a gap noted. -/
def execLaunchRecord (ctx qn : Nat) (s : State) : Outcome State :=
  match s.queueCtx ctx qn with
  | none => .fault .noSuch
  | some (c, q) =>
    let s := seeQueue s c q
    if q.state != .active || qwaiting s c q = 0 || qflag s c q qflagHalt then .fault .notEnabled
    else
      let head := qget s c q 0x18 8
      let at_ : W64 := BitVec.ofNat 64 (qget s c q 0 8 + head % qget s c q 0x08 4 * 64)
      let s := devSee s c.ptroot.toNat at_ 64
      let x := natOf (devBytes s c at_ 64)
      let s1 := qput s c q 0x18 8 (head + 1)
      let seq := recField x 0 8
      let last := qget s c q 0x20 8
      if seq ≤ last then
        .next (qsettle (qput s1 c q 0x5C 4 (min (qget s c q 0x5C 4 + 1) (2 ^ 32 - 1))) ctx qn)
      else
        let gap := seq - last - 1
        let s2 := qput s1 c q 0x20 8 seq
        let s3 :=
          if gap = 0 then s2
          else
            let s3 := qput s2 c q 0x58 4 (min (qget s c q 0x58 4 + gap) (2 ^ 32 - 1))
            if qflag s c q qflagGap then s3 else qflagSet (qput s3 c q 0x50 8 (last + 1)) c q qflagGap
        let s4 := acceptRecord s3 c q x
        -- Skipped numbers count as complete (R303).
        let s5 := qput s4 c q 0x28 8 (lastCmp s4 ctx qn seq)
        .next (qsettle s5 ctx qn)

/-! ## Dependences (R288, R289) -/

/-- How a dependence stands. -/
inductive DepState where
  | met | open_ | failed
  deriving DecidableEq, Repr

/-- The kernel of a queue and a SEQ. -/
def kernelAt (s : State) (ctx qn : Nat) (seq : W64) : Option Kernel :=
  s.kernels.find? fun k => k.ctx = ctx && k.queue = qn && k.launch.seq == seq

/-- One dependence (R289): a timeline, an edge with its producer's queue, or a join. -/
def depState (s : State) (ctx : Nat) : Dep → DepState
  | .timeline e n => if n ≤ s.tl e then .met else if s.neverTl e n then .failed else .open_
  | .edge qn seq =>
    let bad : Bool := match kernelAt s ctx qn seq with
      | some k => k.state == .complete && k.status != 0
      | none => false
    if bad then .failed
    else match s.queueCtx ctx qn with
      | some (c, q) => if seq.toNat ≤ qget s c q 0x28 8 then .met else .open_
      | none => .open_
  | .join _ _ => .met

/-- The device comes to read the state records of the queues that a kernel's edges name (R289, R327). -/
def seeEdges (s : State) (k : Kernel) : State :=
  k.deps.foldl (fun s d => match d with
    | .edge qn _ => match s.queueCtx k.ctx qn with
      | some (c, q) => seeQueue s c q
      | none => s
    | .timeline .. => s | .join .. => s) s
/-- DEPENDENCES_SATISFIED (R288, R289): a WAITING kernel whose dependences are all met is DISPATCHING; one with a failed
dependence is COMPLETE with status DEPFAULT. -/
def execDependencesSatisfied (i : Nat) (s : State) : Outcome State :=
  match s.kernels[i]? with
  | none => .fault .noSuch
  | some k =>
    if k.state != .waiting then .fault .notEnabled
    else
      let s := seeEdges s k
      let ds := k.deps.map (depState s k.ctx)
      if ds.contains .failed then .next (endKernel s i 2 0)
      else if ds.all fun d => d == .met then
        .next (s.modKernel i fun k => { k with state := .dispatching, began := some s.podTime })
      else .fault .notEnabled

/-! ## Draining and completion (R288, R290, R291) -/

/-- A command of the gang is in an engine context or a matrix unit of its cores and has not been discarded (R268). -/
def commandsOut (s : State) (g : Nat) (ga : Gang) : Bool :=
  ga.cores.any fun core => match s.cores[core]? with
    | some c =>
      let mine (e : Engine) : Bool := e.queue.any fun x => x.origin.gang == g
      c.carter.any mine || c.sifter.any mine || mine c.settle
        || c.benches.any fun b => b.queue.any fun m => m.origin.gang == g && !m.skip
    | none => false

/-- The gang has retired and its commands are complete or discarded (R268). -/
def gangDone (s : State) (g : Nat) : Bool :=
  match s.gangs[g]? with
  | some ga => ga.state == .retired && !commandsOut s g ga
  | none => false

/-- The physical bytes of a kernel's out-regions. -/
def outSpans (s : State) (c : Ctx) (k : Kernel) : List (Nat × Nat) := k.outs.flatMap fun r => rangeSpans s c.ptroot.toNat r.1 r.2.toNat
/-- Writes back a core's dirty bytes of a context within its regions; those outside stay dirty (R290, R181). -/
def drainCore (c : Ctx) (ps : List (Nat × Nat)) (s : State) (core : Nat) : State :=
  match c.asid with
  | none => s
  | some asid => writeBackBytes s core (fun x => x.asid == asid) (inSpans ps)

/-- KERNEL_DRAIN (R288, R290): with its last gang placed and every gang retired, a kernel enters DRAINING, and its cores write
back the dirty bytes of its out-regions. -/
def execKernelDrain (i : Nat) (s : State) : Outcome State :=
  match s.kernels[i]? with
  | none => .fault .noSuch
  | some k =>
    if k.state != .running || k.placed != k.launch.gangs || !((gangsOf s i fun _ => true).all (gangDone s)) then .fault .notEnabled
    else match s.ctx? k.ctx with
      | none => .fault .noSuch
      | some c =>
        let s1 := s.modKernel i fun k => { k with state := .draining }
        let s2 := k.cores.foldl (drainCore c (outSpans s c k)) s1
        .next (s2.modKernel i fun k => { k with drain := (s2.reqs.drop s.reqs.length).map (·.tag) })

/-- The write-backs of a kernel in DRAINING are confirmed (R288, R290); one that was refused or timed out has ended as well: the model's
reading (log 122). -/
def drained (s : State) (k : Kernel) : Bool := k.drain.all fun g => s.reqs.all fun r => r.tag != g

/-- KERNEL_COMPLETION (R288, R291, R298): once the write-backs are confirmed and the completion ring has room. -/
def execKernelCompletion (i : Nat) (s : State) : Outcome State :=
  match s.kernels[i]? with
  | none => .fault .noSuch
  | some k =>
    if k.state != .draining || (k.status = 0 && !drained s k) then .fault .notEnabled
    else match s.queueCtx k.ctx k.queue with
      | none => .fault .noSuch
      | some (c, q) => if qroom (seeQueue s c q) c q then .next (finishKernel s i) else .fault .notEnabled

end Sys2Proof.Machine
end

