-- ==== Sys2Proof/Machine/Sched.lean ====
section
/-! DEFINITION. The scheduler: placement, budgets, pre-emption, capture and restoration (spec/15_group_lifecycle.md R260 to
R271, spec/16_barrier_lifecycle.md R280, R281, spec/18_queue_lifecycle.md R299 to R301, spec/20_context_lifecycle.md R320,
R321). -/
namespace Sys2Proof.Machine

/-! ## Space (R262, R265, R268) -/

/-- What is taken of a core: pool units, team places of each bench, residue entries of each bench. -/
structure Use where
  units   : Nat
  places  : Nat
  entries : Nat
  deriving DecidableEq, Repr

/-- The shape of a kernel, for the space its cohorts take. -/
def LaunchRec.use (r : LaunchRec) : Use := ⟨r.units, r.perBench, r.entries⟩
/-- More of a core is taken. -/
def Use.add (a b : Use) : Use := ⟨a.units + b.units, a.places + b.places, a.entries + b.entries⟩
/-- A cohort fits beside what is taken (R265). -/
def Use.fits (a b : Use) : Bool :=
  decide (a.units + b.units ≤ 62) && decide (a.places + b.places ≤ 16) && decide (a.entries + b.entries ≤ 256)
/-- Cohorts of a shape that still fit. -/
def Use.room (a b : Use) : Nat :=
  let f (lim x y : Nat) : Nat := if y = 0 then 16 else (lim - x) / y
  min (f 62 a.units b.units) (min (f 16 a.places b.places) (f 256 a.entries b.entries))

/-- The cores of quad `quad` at positions (base + k) mod 4 (R261). -/
def coresAt (quad base n : Nat) : List Nat := (List.range n).map fun i => quad * 4 + (base + i) % 4

/-- The gang holds its shares (R268). -/
def holdsShares (s : State) (g : Nat) (ga : Gang) : Bool := ga.resident || (ga.state == .retired && commandsOut s g ga)
/-- The gangs that hold their shares, by index, but for those of `skip`. -/
def holders (s : State) (skip : List Nat) : List (Gang × Nat) :=
  s.gangs.zipIdx.filter fun x => !skip.contains x.2 && holdsShares s x.2 x.1
/-- Adds a cohort's shares to cores. -/
def takeCores (tab : List Use) (cs : List Nat) (u : Use) : List Use := cs.foldl (fun t c => modAt (fun x => x.add u) t c) tab
/-- What is taken of each core, with the gangs of `skip` gone. -/
def usage (s : State) (skip : List Nat) : List Use :=
  (holders s skip).foldl (fun t x => match s.kernels[x.1.kernel]? with
    | some k => takeCores t x.1.cores k.launch.use
    | none => t) (List.replicate 128 ⟨0, 0, 0⟩)
/-- A gang fits on the cores. -/
def spotFits (tab : List Use) (r : LaunchRec) (cs : List Nat) : Bool :=
  cs.all fun c => match tab[c]? with
    | some u => u.fits r.use
    | none => false

/-- Every quad and base position. -/
def allSpots : List (Nat × Nat) := (List.range 32).flatMap fun q => (List.range 4).map fun b => (q, b)
/-- Room that a gang's cores have left. -/
def spotScore (tab : List Use) (r : LaunchRec) (cs : List Nat) : Nat :=
  (cs.map fun c => ((tab[c]?).map fun u => u.room r.use).getD 0).foldl (· + ·) 0
/-- Where a gang fits on the quads that `p` allows, the emptiest cores first (the choice is unspecified, R265). -/
def spotsFor (tab : List Use) (r : LaunchRec) (p : Nat → Bool) : List (Nat × Nat) :=
  let score (x : Nat × Nat) : Nat := spotScore tab r (coresAt x.1 x.2 r.cores)
  sortBy (fun a b => decide (score b ≤ score a)) (allSpots.filter fun x => p x.1 && spotFits tab r (coresAt x.1 x.2 r.cores))

/-- A core budget: CORELIM and the cores in use (R300). -/
structure CoreLim where
  lim  : Nat
  held : List Nat
  deriving DecidableEq, Repr
/-- It admits a gang of `n` cores (R300). -/
def CoreLim.admits (b : CoreLim) (n : Nat) : Bool := decide (b.held.length + n ≤ b.lim)
/-- The budget with a gang's cores in use. -/
def CoreLim.take (b : CoreLim) (cs : List Nat) : CoreLim := { b with held := (b.held ++ cs).eraseDups }
/-- A budget that refuses no gang: a gang has at most 4 of the 128 cores. -/
def CoreLim.free : CoreLim := ⟨132, []⟩

/-- Places for gangs one after another within a core budget, each on a quad that its condition allows; none where there is no way to
place them all (R265, R266, R300). -/
def packOn (r : LaunchRec) : List (Nat → Bool) → CoreLim → List Use → Option (List (Nat × Nat))
  | [], _, _ => some []
  | p :: ps, b, tab =>
    if !b.admits r.cores then none
    else (spotsFor tab r p).findSome? fun x =>
      let cs := coresAt x.1 x.2 r.cores
      (packOn r ps (b.take cs) (takeCores tab cs r.use)).map fun l => x :: l
/-- Places for gangs together, the first at a given one. -/
def packFrom (tab : List Use) (r : LaunchRec) (b : CoreLim) (x : Nat × Nat) : List (Nat → Bool) → Option (List (Nat × Nat))
  | [] => none
  | p :: ps =>
    let cs := coresAt x.1 x.2 r.cores
    if decide (x.1 < 32) && decide (x.2 < 4) && p x.1 && b.admits r.cores && spotFits tab r cs then
      (packOn r ps (b.take cs) (takeCores tab cs r.use)).map fun l => x :: l
    else none

/-! ## Budgets (R300, R301), save pool (R321), ASID (R320) -/

/-- The power estimate of a gang in tenths of a watt (R301). -/
def LaunchRec.power (r : LaunchRec) : Nat := r.cores * (40 + (r.rf + r.sp) + 20 * r.acc)
/-- The gangs of a context and budget class that hold their shares. -/
def classGangs (s : State) (ctx cls : Nat) : List (Gang × LaunchRec) :=
  (holders s []).filterMap fun x => (s.kernels[x.1.kernel]?).bind fun k =>
    if k.ctx = ctx && k.launch.bclass = cls then some (x.1, k.launch) else none
/-- The budget set of a class. -/
def Ctx.budget (c : Ctx) (cls : Nat) : Budget := c.budgets.getD cls ⟨0, 0, 0, 0⟩
/-- Tokens in a bucket; a bucket that no refill has touched is full (log 20). -/
def Ctx.tokens (c : Ctx) (cls channel : Nat) : Nat :=
  match c.buckets.find? fun b => b.1 = cls && b.2.1 = channel with
  | some b => b.2.2
  | none => (c.budget cls).depth
/-- The cores that hold a cohort of a context's class (R300). -/
def classCores (s : State) (ctx cls : Nat) : List Nat := ((classGangs s ctx cls).flatMap fun g => g.1.cores).eraseDups
/-- The core budget of a class, with the cores it has in use (R300). -/
def coreLim (s : State) (c : Ctx) (cls : Nat) : CoreLim := ⟨(c.budget cls).corelim, classCores s c.id cls⟩
/-- The first budget of R300 that refuses `n` gangs of a kernel: 0 cores, 1 bandwidth, 2 power. `cores` says whether the core budget
refuses them wherever they go. -/
def budgetRefusal (s : State) (c : Ctx) (r : LaunchRec) (n : Nat) (cores : Bool) : Option Nat :=
  let b := c.budget r.bclass
  let gs := classGangs s c.id r.bclass
  let watts := ((gs.filter fun g => g.1.resident).map fun g => g.2.power).foldl (· + ·) 0
  if cores then some 0
  else if (List.range Config.channels).any fun ch => decide (8 * c.tokens r.bclass ch < b.depth) then some 1
  else if b.pwrlim < watts + n * r.power then some 2
  else none

/-- The save size of a gang in bytes (R321). -/
def LaunchRec.saveSize (r : LaunchRec) : Nat := r.cores * r.units * 65536 + r.cores * r.teams * 40960 + r.cores * 4096

/-- The stretches of a save pool of `size` bytes from an offset on that are beside the taken ones, in ascending order. -/
def freeGaps (size : Nat) : Nat → List (Nat × Nat) → List (Nat × Nat)
  | a, [] => if a < size then [(a, size - a)] else []
  | a, (o, n) :: r => (if a < o then [(a, o - a)] else []) ++ freeGaps size (max a (o + n)) r
/-- The first `n` bytes of stretches. -/
def takeGaps : Nat → List (Nat × Nat) → List (Nat × Nat)
  | _, [] => []
  | n, (o, k) :: r => if n = 0 then [] else if n ≤ k then [(o, n)] else (o, k) :: takeGaps (n - k) r
/-- The bytes of a context's save pool that a gang reserves at its placement: the first that no gang has reserved (R321, log 82). -/
def savePlace (s : State) (c : Ctx) (n : Nat) : List (Nat × Nat) :=
  let mine := s.gangs.filter fun ga => ((s.kernels[ga.kernel]?).map fun k => k.ctx == c.id).getD false
  takeGaps n (freeGaps c.savesize 0 (sortBy (fun a b => decide (a.1 ≤ b.1)) (mine.flatMap (·.saveAt))))

/-- Takes back an ASID (R320): every core writes its dirty bytes back, every copy and TLB entry of it goes, and its owner
holds it no longer. -/
def reclaimAsid (s : State) (asid : Nat) : State :=
  let s1 := (List.range s.cores.length).foldl (fun s core => dropLines (clearCore s core asid) core fun x => x.asid == asid) s
  { s1 with tlbs := s1.tlbs.map fun es => es.filter fun e => e.asid != asid
            cores := s1.cores.map fun c => { c with ccache := c.ccache.filter fun l => l.asid != asid }
            ctxs := s1.ctxs.map fun c => if c.asid = some asid then { c with asid := none } else c }

/-- The ASID of a context at a placement (R320): the one it holds, a free one, or that of the SWITCHED context with the
smallest LASTRUN; none where no SWITCHED context holds one. -/
def ensureAsid (s : State) (c : Ctx) : Option (State × Nat) :=
  match c.asid with
  | some a => some (s, a)
  | none =>
    let held := s.ctxs.filterMap fun x => x.asid
    match (List.range 256).find? fun a => !held.contains a with
    | some a => some (s.setCtx { c with asid := some a }, a)
    | none =>
      let idle := s.ctxs.filter fun x => x.state == .switched && x.asid.isSome
      (idle.find? fun x => idle.all fun y => decide (x.lastrun ≤ y.lastrun)).bind fun x => x.asid.map fun a =>
        ((reclaimAsid s a).setCtx { c with asid := some a }, a)

/-! ## Taking cores (R263, R289, R290, R321) -/

/-- A core's acquire of the commands of a timeline dependence (R142, R289). -/
def acquireTimeline (s : State) (core : Nat) (e : EngRef) (n : W64) : State :=
  match s.engine? e with
  | none => s
  | some x =>
    let rs := x.ranges.filter fun r => decide (r.1 ≤ n)
    if rs.isEmpty then s
    else dropClean s core fun l => rs.any fun r =>
      decide (r.2.2.1.toNat / 128 ≤ l.line) && decide (l.line ≤ (r.2.2.1.toNat + r.2.2.2 - 1) / 128)

/-- What a kernel's dependences make a core discard at each placement (R289, R290): clean copies of the destination ranges of
timelines and of the out-regions of edges, whatever the ASID they are tagged with. -/
def acquireDeps (s : State) (c : Ctx) (core : Nat) (k : Kernel) : State :=
  k.deps.foldl (fun s d => match d with
    | .timeline e n => acquireTimeline s core e n
    | .edge q seq => match kernelAt s k.ctx q seq with
        | some p =>
          let ls := p.outs.flatMap fun r => rangeLines s c.ptroot.toNat r.1 r.2.toNat
          dropClean s core fun x => ls.contains x.line
        | none => s
    | .join _ _ => s) s

/-- A core takes a cohort: it writes back the dirty sets of other contexts (R321), and its constant cache is invalidated
(R290). -/
def takeCore (asid : Nat) (s : State) (core : Nat) : State :=
  (writeBackWhere s core fun x => x.asid != asid).modCore core fun c => { c with ccache := [] }

/-- A team at launch (R264): team `t` of cohort number `k`, with the model's index `co` of its cohort. -/
def launchTeam (r : LaunchRec) (index : W64) (co k t age : Nat) (halted : Bool) : Team where
  cohort := co
  idx := t
  lanes := r.lanes
  regs := Regs.zero.usetAll [(0, r.args), (1, index), (2, BitVec.ofNat 64 r.gangs), (3, BitVec.ofNat 64 (k * r.teams + t)),
    (4, BitVec.ofNat 64 (r.cores * r.teams))]
  mode := Mode.launch r.df
  active := maskBelow r.lanes
  live := maskBelow r.lanes
  pc := r.entry
  stack := []
  regions := 0
  repc := r.entry
  rmask := maskBelow r.lanes
  rdepth := 0
  flags := 0
  resstall := 0
  passes := 0
  clears := 0
  trapvec := 0
  rescap := r.rescap
  resflt := r.resflt
  stalled := false
  monitor := none
  wake := false
  stage0 := []
  stage2 := []
  status := .running
  claims := []
  inflight := []
  residues := []
  posts := []
  nextId := 0
  bars := []
  fault := none
  halted := halted
  resumed := false
  before := none
  podPages := []
  podTags := []
  age := age
  since := age
  owed := []
  lost := []
  banks := []

/-- A cohort at placement (R263). -/
def launchCohort (g k : Nat) : Cohort :=
  ⟨g, k, [], [], List.replicate 16 none, List.replicate 16 none, [], freshBars, [], 0⟩

/-- A context has a gang resident (R319). -/
def ctxActive (s : State) (ctx : Nat) : State :=
  { s with ctxs := s.ctxs.map fun c =>
      if c.id = ctx && (c.state == .created || c.state == .switched) then { c with state := .active } else c }

/-- The cores that ran a gang of the kernel gain some (R290). -/
def noteCores (s : State) (i : Nat) (cs : List Nat) : State :=
  s.modKernel i fun k => { k with cores := (k.cores ++ cs).eraseDups }

/-- The passes that the bench of team number `t` on a core has issued: a team that comes to it has just been served (R150). -/
def benchAge (s : State) (core t : Nat) : Nat := ((s.bench? core (t % 4)).map fun (b : Bench) => b.issued).getD 0

/-- Places the next gang of kernel `i` at a quad and base position (R263 to R265). -/
def placeNew (i : Nat) (c : Ctx) (asid : Nat) (s : State) (at_ : Nat × Nat) : State :=
  match s.kernels[i]? with
  | none => s
  | some k =>
    let r := k.launch
    let cs := coresAt at_.1 at_.2 r.cores
    let s1 := cs.foldl (fun s core => acquireDeps (takeCore asid s core) c core k) s
    let g := s1.gangs.length
    let co := s1.cohorts.length
    let index : W64 := BitVec.ofNat 64 k.placed
    let teams := (List.range r.cores).flatMap fun j => (List.range r.teams).map fun t =>
      launchTeam r index (co + j) j t (benchAge s1 (cs.getD j 0) t) c.halted
    let ga : Gang := ⟨i, index, at_.1, at_.2, at_.1 / 8, cs, (List.range r.cores).map fun j => co + j,
      (List.range (r.cores * r.teams)).map fun j => s1.teams.length + j, .resident, freshBars, r.saveSize, savePlace s1 c r.saveSize, false⟩
    let s2 := { s1 with
      gangs := s1.gangs ++ [ga]
      cohorts := s1.cohorts ++ (List.range r.cores).map fun j => launchCohort g j
      teams := s1.teams ++ teams
      ctxs := s1.ctxs.map fun x => if x.id = c.id then { x with saveused := x.saveused + r.saveSize, refusal := none } else x }
    (noteCores s2 i cs).modKernel i fun k => { k with placed := k.placed + 1, state := .running }

/-! ## The choice of what to place (R266, R299) -/

/-- What a slot offers: its first captured gang, or the next gang of a kernel. -/
inductive Offer where
  | restore (g : Nat) | place (k : Nat)
  deriving DecidableEq, Repr

/-- The offer of a slot (R299): captured gangs in the order of the run list come first, then kernels in ascending SEQ. -/
def offerOf (s : State) (x : Slot) : Option Offer :=
  x.queue.bind fun q =>
    match x.runList with
    | g :: _ => some (.restore g)
    | [] => ((kernelsOf s q.1 q.2 fun k => (k.state == .dispatching || k.state == .running) && decide (k.placed < k.launch.gangs)).head?).map
        Offer.place

/-- The gangs that an offer places together, by index where they exist (R266). -/
def groupOf (s : State) (g : Nat) (p : GangState → Bool) : List Nat :=
  match s.gangs[g]? with
  | some ga => match s.kernels[ga.kernel]? with
    | some k => if k.launch.coop then g :: gangsOf s ga.kernel (fun x => p x.state) |>.eraseDups else [g]
    | none => [g]
  | none => []
/-- How many gangs an offer places together (R266), and of which kernel. -/
def offerCount (s : State) : Offer → Option (Nat × Kernel × Nat)
  | .place i => (s.kernels[i]?).map fun k => (i, k, if k.launch.coop then k.launch.gangs - k.placed else 1)
  | .restore g => (s.gangs[g]?).bind fun ga => (s.kernels[ga.kernel]?).map fun k =>
      (ga.kernel, k, (groupOf s g fun st => st == .captured).length)

/-- The kernel uses die barriers: some die instance is not at its reset when the kernel is restored (R281): the model's reading (log 128). -/
def usesDieBars (k : Kernel) : Bool := k.dieBars.any fun l => l != freshBars

/-- Every way to send the four die groups to different dies. -/
def dieMaps : List (List Nat) :=
  (List.range 4).flatMap fun a => (List.range 4).flatMap fun b => (List.range 4).flatMap fun c => (List.range 4).filterMap fun d =>
    if [a, b, c, d].eraseDups.length = 4 then some [a, b, c, d] else none

/-- The conditions on the quads of gangs that are restored under a map of die groups (R281). -/
def diePreds (s : State) (m : List Nat) (gs : List Nat) : List (Nat → Bool) :=
  gs.map fun g => match s.gangs[g]? with
    | some ga => fun (q : Nat) => q / 8 == m.getD ga.group 0
    | none => fun _ => true

/-- The ways to meet the conditions on the quads of `n` gangs that an offer places together: any quads, or for gangs that are restored
with die barriers each map of their die groups (R266, R281). -/
def offerPreds (s : State) (o : Offer) (k : Kernel) (n : Nat) : List (List (Nat → Bool)) :=
  match o with
  | .place _ => [List.replicate n fun _ => true]
  | .restore g =>
    if k.launch.coop && usesDieBars k then dieMaps.map fun m => diePreds s m (groupOf s g fun st => st == .captured)
    else [List.replicate n fun _ => true]
/-- What an offer places together finds places within a core budget on cores of which `tab` is taken (R265, R266, R281). -/
def offerRoom (s : State) (o : Offer) (k : Kernel) (n : Nat) (b : CoreLim) (tab : List Use) : Bool :=
  (offerPreds s o k n).any fun ps => (packOn k.launch ps b tab).isSome
/-- Places for what an offer places together, the first at `at_`: there is space, and the core budget admits every gang (R265,
R300). -/
def offerPlaces (s : State) (o : Offer) (at_ : Nat × Nat) : Option (List (Nat × Nat)) :=
  match offerCount s o with
  | none => none
  | some (_, k, n) => match s.ctx? k.ctx with
    | none => none
    | some c => (offerPreds s o k n).findSome? fun ps => packFrom (usage s []) k.launch (coreLim s c k.launch.bclass) at_ ps
/-- The core budget refuses what an offer places together: the first gang, or, where there is space, the gangs wherever they go
(R266, R300). -/
def coresRefuse (s : State) (o : Offer) (c : Ctx) (k : Kernel) (n : Nat) : Bool :=
  let b := coreLim s c k.launch.bclass
  !b.admits k.launch.cores || (offerRoom s o k n .free (usage s []) && !offerRoom s o k n b (usage s []))

/-- Why an offer is refused before space is looked at: a budget by its number, or none for the save pool or an ASID. -/
def offerRefused (s : State) (o : Offer) : Option (Option Nat) :=
  match offerCount s o with
  | none => some none
  | some (_, k, n) =>
    match s.ctx? k.ctx with
    | none => some none
    | some c =>
      match budgetRefusal s c k.launch n (coresRefuse s o c k n) with
      | some b => some (some b)
      | none =>
        let need := match o with
          | .place _ => n * k.launch.saveSize
          | .restore _ => 0
        if c.savesize < c.saveused + need then some none
        else if (ensureAsid s c).isNone then some none
        else none

/-- The offer can be placed somewhere now. -/
def offerFits (s : State) (o : Offer) : Bool :=
  (offerRefused s o).isNone && match offerCount s o with
    | none => false
    | some (_, k, n) => match s.ctx? k.ctx with
      | none => false
      | some c => offerRoom s o k n (coreLim s c k.launch.bclass) (usage s [])

/-- Slot `i` has its turn (R299): no slot of higher QPRIO, and none of equal QPRIO that has waited longer, has an offer that
fits. -/
def slotTurn (s : State) (i : Nat) (x : Slot) : Bool :=
  let prio (y : Slot) : Nat := (y.queue.map fun q => s.prioOf q.1 q.2).getD 0
  s.slots.zipIdx.all fun y =>
    y.2 = i ||
      !(decide (prio x < prio y.1) || (prio x = prio y.1 && (decide (y.1.offered < x.offered) || (y.1.offered = x.offered && decide (y.2 < i)))))
      || match offerOf s y.1 with
         | some o => !offerFits s o
         | none => true

/-! ## Pre-emption (R299) -/

/-- The gangs that may be pre-empted for a slot: those of slots of lower QPRIO, and after them those of slots of equal QPRIO whose
time slice has expired; each in descending linear gang index. -/
def victims (s : State) (i : Nat) (x : Slot) : List Nat :=
  let prio (y : Slot) : Nat := (y.queue.map fun q => s.prioOf q.1 q.2).getD 0
  let from_ (p : Slot → Bool) : List Nat :=
    let gs := s.gangs.zipIdx.filter fun g => g.1.state == .resident && match s.kernels[g.1.kernel]? with
      | some k => match slotOfQueue s k.ctx k.queue with
        | some (j, y) => j != i && p y
        | none => false
      | none => false
    (sortBy (fun a b => decide (b.1.index ≤ a.1.index)) gs).map (·.2)
  from_ (fun y => decide (prio y < prio x)) ++ from_ fun y => prio y = prio x && y.expired

/-- The gangs that are captured with a gang: all of its kernel's under COOP (R266). -/
def together (s : State) (g : Nat) : List Nat := groupOf s g fun st => st == .resident

/-- Takes victims in order until a condition on the gangs that will be gone holds; none where it never does. -/
def takeVictims (s : State) (enough : List Nat → Bool) : List Nat → List Nat → Option (List Nat)
  | [], gone => if enough gone then some gone else none
  | v :: vs, gone => if enough gone then some gone else takeVictims s enough vs (if gone.contains v then gone else gone ++ together s v)

/-- A pre-emption becomes pending for a gang (R267, R269): a team of it whose wait has been met by then is RUNNING, so it goes on to
its next blocking point. -/
def pend (s : State) (g : Nat) : State :=
  let goesOn (t : Nat) (tm : Team) : Status := match tm.status with
    | .blocked w => if wakeHolds s t tm w then .parked w else tm.status
    | .running => tm.status | .parked _ => tm.status | .stopped => tm.status | .captured _ => tm.status | .retired => tm.status
  let s1 := (((s.gangs[g]?).map (·.teams)).getD []).foldl (fun s' t => s'.modTeam t fun tm => { tm with status := goesOn t tm }) s
  s1.modGang g fun ga => { ga with state := .capturing }

/-- The pre-emption that an offer sets off for a space that is held (R299): pending for the gangs that hold it, in order, until
what is offered fits there; captures that are pending already count. None where nothing more is to be taken. -/
def preempt (s : State) (i : Nat) (x : Slot) (o : Offer) (at_ : Nat × Nat) : Option State :=
  match offerCount s o with
  | none => none
  | some (_, k, n) =>
    let r := k.launch
    let pending := (s.gangs.zipIdx.filter fun g => g.1.state == .capturing).map (·.2)
    let cs := coresAt at_.1 at_.2 r.cores
    let enough (gone : List Nat) : Bool :=
      if n = 1 then spotFits (usage s gone) r cs else offerRoom s o k n .free (usage s gone)
    if offerRoom s o k n .free (usage s pending) then none
    else
      let vs := (victims s i x).filter fun v => n != 1 || match s.gangs[v]? with
        | some ga => ga.cores.any cs.contains
        | none => false
      match takeVictims s enough vs pending with
      | some gone =>
        if gone.length = pending.length then none
        else some ((gone.filter fun g => !pending.contains g).foldl pend s)
      | none => none

/-! ## GANG_PLACEMENT, TIME_SLICE_EXPIRY, TOKEN_BUCKET_REFILL -/

/-- A slot has placed a gang: its turn is over, and a slice starts where none runs (R299). -/
def slotPlaced (s : State) (i : Nat) : State :=
  let s1 := s.order
  { s1 with slots := modAt (fun x =>
      { x with offered := s1.now, started := true, expired := if x.started then false else x.expired }) s1.slots i }

/-- Tries what a slot offers at a place: what `k` does with the places, the ASID and the context; a refusal of a budget is
recorded (R300); space that is held sets off a pre-emption (R299). -/
def tryOffer (s : State) (i : Nat) (x : Slot) (o : Offer) (at_ : Nat × Nat)
    (k : State → Ctx → Nat → List (Nat × Nat) → State) : Outcome State :=
  match (offerCount s o).bind fun y => s.ctx? y.2.1.ctx with
  | none => .fault .noSuch
  | some c =>
    if !slotTurn s i x then .fault .notEnabled
    else match offerRefused s o with
      | some (some b) => if c.refusal = some b then .fault .notEnabled else .next (s.setCtx { c with refusal := some b })
      | some none => .fault .notEnabled
      | none =>
        match offerPlaces s o at_ with
        | some ps =>
          match ensureAsid s c with
          | some (s1, asid) =>
            match s1.ctx? c.id with
            | some c1 => .next (slotPlaced (ctxActive (k s1 c1 asid ps) c.id) i)
            | none => .fault .noSuch
          | none => .fault .notEnabled
        | none =>
          if offerFits s o then .fault .notEnabled
          else match preempt s i x o at_ with
            | some s1 => .next s1
            | none => .fault .notEnabled

/-- GANG_PLACEMENT (R265, R266): the next gang of kernel `i` at a quad and base position; with COOP all of its gangs. -/
def execGangPlacement (i quad base : Nat) (s : State) : Outcome State :=
  match (s.kernels[i]?).bind fun k => slotOfQueue s k.ctx k.queue with
  | none => .fault .noSuch
  | some (j, x) =>
    if offerOf s x != some (.place i) then .fault .notEnabled
    else tryOffer s j x (.place i) (quad, base) fun s c asid ps => ps.foldl (placeNew i c asid) s

/-- TIME_SLICE_EXPIRY (R299): the slice of a slot that has placed a gang since its last expiry ends. -/
def execTimeSliceExpiry (i : Nat) (s : State) : Outcome State :=
  match s.slots[i]? with
  | none => .fault .noSuch
  | some x =>
    if !x.started || x.expired || x.queue.isNone then .fault .notEnabled
    else .next { s with slots := modAt (fun y => { y with expired := true }) s.slots i }

/-- TOKEN_BUCKET_REFILL (R300): what the channel has served since the last refill is taken from the bucket, a free amount
(log 15), and `us` microseconds at the budget's rate are added, up to its depth. -/
def execTokenBucketRefill (ctx cls channel us : Nat) (s : State) : Outcome State :=
  match s.ctx? ctx with
  | none => .fault .noSuch
  | some c =>
    if 16 ≤ cls then .fault .noSuch
    else
      let b := c.budget cls
      let left := (Config.freeWord s.tick).toNat % (c.tokens cls channel + 1)
      let new := min b.depth (left + b.rate * us)
      .next (s.bump.setCtx { c with buckets := (cls, channel, new) :: c.buckets.filter fun x => !(x.1 = cls && x.2.1 = channel) })

/-! ## Capture (R269, R280) -/

/-- The instruction loads (R148, R224). -/
def isLoad : Instr → Bool
  | .ld .. => true | .ldc .. => true | .uld .. => true | .ldi .. => true
  | _ => false
/-- The team is parked while a load from imported memory is outstanding (R148, R156, R224, R269): whatever it waits for (log 109). -/
def onImportedLoad (s : State) (t : Nat) (tm : Team) : Bool :=
  match tm.status with
  | .parked w => !wakeHolds s t tm w && tm.inflight.any fun a => !a.need.isEmpty && isLoad a.instr
  | .running => false | .blocked _ => false | .stopped => false | .captured _ => false | .retired => false

/-- The team is where a capture may find it (R269, R357). -/
def atPoint (s : State) (t : Nat) (tm : Team) : Bool :=
  match tm.status with
  | .stopped => true
  | .retired => true
  | .blocked _ => true
  | .captured _ => true
  | .running => tm.halted && tm.residues.isEmpty && tm.inflight.isEmpty
  | .parked _ => onImportedLoad s t tm || (tm.halted && tm.residues.isEmpty && tm.inflight.isEmpty)

/-- The waits that a captured team keeps; every other instruction that waits issues again. -/
def keptWake : Wake → Option Wake
  | .barrier b g => some (.barrier b g)
  | .ring => some .ring
  | .q3 => some .q3
  | .monitor => some .monitor
  | .timeline e n => some (.timeline e n)
  | .chandler => some .chandler
  | .handler c i l f a => some (.handler c i l f a)
  | .landed => none | .drained => none | .residues => none | .ready _ => none | .streams _ => none | .entry _ => none
  | .room _ => none | .preempted => none | .fabric _ => none | .forwards => none | .tiles _ => none | .posts _ => none

/-- The team as it is saved (R267, R269): its monitor is disarmed, so a waiting `mwait` goes on at restoration; one parked on an
imported load is saved as a fault resumption saves it, and what it has posted takes effect. A wait that a fetch or a handler's entry came
between is saved too (R270, R313). The words that it has staged for Carter and Sifter (R137), of which the spec says nothing here, are
saved with it, and dropped where its loads are (log 86). -/
def saveTeam (s : State) (t : Nat) : State :=
  match s.teams[t]? with
  | none => s
  | some tm =>
    if tm.status == .retired then s
    else if onImportedLoad s t tm then
      let r := discardAll s tm
      settlePosts (r.1.setTeam t { resumeTeam r.2 with status := .captured none }) t
    else
      let at_ := tm.before.bind keptWake
      let now := tm.status.wake?.bind keptWake
      s.setTeam t { tm with
        status := .captured (now.or at_)
        before := if now.isSome then at_ else none
        monitor := none
        wake := now == some .monitor || at_ == some .monitor
        inflight := tm.inflight.map fun a => { a with tile := none } }

/-- The save pool's bytes of a captured gang (R269, R321): its state, in a layout that is not given (log 82). -/
def saveBytes (s : State) (c : Ctx) (ga : Gang) : List (Nat × Byte) :=
  ga.saveAt.flatMap fun p =>
    (List.range (p.2 / 4096)).flatMap fun i => match devXlat s c.ptroot.toNat (c.savebase + BitVec.ofNat 64 (p.1 + 4096 * i)) with
      | some pa => (List.range 4096).map fun j => (pa + j, Config.savedState s.tick (p.1 + 4096 * i + j))
      | none => []
/-- The state of captured gangs goes to the save pool of their context (R269, R321), whose addresses the device translates (R327). -/
def saveGangs (s : State) (c : Ctx) (gs : List Gang) : State :=
  let s1 := (gs.flatMap (·.saveAt)).foldl (fun s p => devWalk s c.ptroot.toNat (c.savebase + BitVec.ofNat 64 p.1) p.2) s
  homeWriteExp none s1.bump c.keyidx (gs.flatMap (saveBytes s1 c))

/-- GANG_CAPTURE (R269, R271): a gang with a pre-emption pending whose teams are all where a capture may find them and whose
commands are complete is saved to the save pool; under COOP its kernel's gangs together. One whose awaited event has come since the
pre-emption became pending goes to the head of the run list, the model's reading of R271's same cycle (log 119), every other to its
tail (R299). -/
def execGangCapture (g : Nat) (s : State) : Outcome State :=
  match s.gangs[g]? with
  | none => .fault .noSuch
  | some ga =>
    let gs := groupOf s g fun st => st == .capturing
    let recs := gs.filterMap fun i => (s.gangs[i]?).map fun x => (i, x)
    let teams := recs.flatMap fun x => x.2.teams
    let ready := recs.all fun x => x.2.state == .capturing && !commandsOut s x.1 x.2
    let ctx := s.ctxOfKernel ga.kernel
    match (s.ctx? ctx).bind fun c => c.asid.map fun a => (c, a), (s.kernels[ga.kernel]?).bind fun k => slotOfQueue s k.ctx k.queue with
    | some (c, asid), some (i, _) =>
      if ga.state != .capturing || !ready || !(recs.any fun x => gangAlive s x.2)
          || !(teams.all fun t => ((s.teams[t]?).map (atPoint s t)).getD true) then .fault .notEnabled
      else
        let head := teams.any fun t => match s.teams[t]? with
          | some tm => match tm.status with
            | .blocked w => wakeHolds s t tm w
            | .running => false | .parked _ => false | .stopped => false | .captured _ => false | .retired => false
          | none => false
        let s1 := ((recs.flatMap fun x => x.2.cores).eraseDups).foldl (fun s core => clearCore s core asid) s
        let s2 := saveGangs (teams.foldl saveTeam s1) c (recs.map (·.2))
        let s3 := gs.foldl (fun s i => s.modGang i fun x => { x with state := .captured }) s2
        let s4 := { s3 with slots := modAt (fun x => { x with runList := if head then gs ++ x.runList else x.runList ++ gs }) s3.slots i }
        .next (ctxLeft s4 ctx)
    | _, _ => .fault .notEnabled

/-! ## Restoration (R270, R281) -/

/-- The team as it is restored (R267, R270): BLOCKED with its saved condition, STOPPED if saved so, else it goes on. -/
def restoreTeam (s : State) (t : Nat) : State :=
  s.modTeam t fun tm =>
    match tm.status with
    | .captured (some w) => { tm with status := .blocked w }
    | .captured none => { tm with status := if tm.fault.isSome then .stopped else .running }
    | .running => tm | .parked _ => tm | .blocked _ => tm | .stopped => tm | .retired => tm

/-- Restores a gang at a place (R270): its cores write back other contexts' dirty sets, discard every clean line of the ASID,
P = 1 pages included, and invalidate their constant caches. `keep` says that its die group stays (R281). -/
def restoreGang (asid : Nat) (keep : Bool) (s : State) (x : Nat × (Nat × Nat)) : State :=
  match s.gangs[x.1]? with
  | none => s
  | some ga =>
    let at_ := x.2
    let cs := coresAt at_.1 at_.2 ga.cores.length
    let s1 := cs.foldl (fun s core => dropClean (takeCore asid s core) core fun l => l.asid == asid) s
    let s2 := s1.modGang x.1 fun ga =>
      { ga with quad := at_.1, base := at_.2, cores := cs, state := .resident, group := if keep then ga.group else at_.1 / 8 }
    ga.teams.foldl (fun s t => (restoreTeam s t).modTeam t fun tm =>
      let age := ((coreOfTeam s tm).map fun core => benchAge s core tm.idx).getD 0
      { tm with age := age, since := age }) (noteCores s2 ga.kernel cs)

/-- GANG_RESTORATION (R270): the first gang of its slot's run list; under COOP its kernel's captured gangs together. -/
def execGangRestoration (g quad base : Nat) (s : State) : Outcome State :=
  match (s.gangs[g]?).bind fun ga => s.kernels[ga.kernel]? with
  | none => .fault .noSuch
  | some k =>
    match slotOfQueue s k.ctx k.queue with
    | none => .fault .noSuch
    | some (j, x) =>
      if offerOf s x != some (.restore g) then .fault .notEnabled
      else
        let gs := groupOf s g fun st => st == .captured
        tryOffer s j x (.restore g) (quad, base) fun s _ asid ps =>
          let s1 := (gs.zip ps).foldl (restoreGang asid (usesDieBars k)) s
          { s1 with slots := modAt (fun y => { y with runList := y.runList.filter fun i => !gs.contains i }) s1.slots j }

end Sys2Proof.Machine
end

