-- ==== Sys2Proof/Machine/Contexts.lean ====
section
/-! DEFINITION. Contexts: creation, abort and destruction (spec/20_context_lifecycle.md R318 to R324), and the entries of page tables
that Chandler writes (spec/22_page_lifecycle.md R327, R334, R335). -/
namespace Sys2Proof.Machine

/-- Chandler takes requests once the device is READY (R362); before that it does nothing of the kind. -/
def chandler (s : State) (k : Outcome State) : Outcome State := if s.boot == .ready then k else .next s

/-! ## Page states (R334, R335) -/

/-- The states of a leaf page. -/
inductive PageState where
  | absent | hbm | lpddr | migrating | imported | exported
  deriving DecidableEq, Repr

/-- The state that an entry gives its page (R334); none for any other combination. -/
def pageState (pte : Nat) : Option PageState :=
  let t := pteTier pte
  let mig := pteBit pte 11
  let exp := pteBit pte 12
  if !pteBit pte 0 then some .absent
  else if t = 2 then (if mig || exp then none else some .imported)
  else if t = 3 || (mig && exp) then none
  else if mig then some .migrating
  else if exp then some .exported
  else if t = 0 then some .hbm else some .lpddr

/-- The bytes of a leaf. -/
def leafSize (large : Bool) : Nat := if large then 2 ^ 29 else 2 ^ 16
/-- Memory without the entries of a range: every byte of it reads as zero. -/
def clearRange (m : Sparse 8) (pa n : Nat) : Sparse 8 := m.filter fun p => !(decide (pa ≤ p.1) && decide (p.1 < pa + n))
/-- Every core does something, in order. -/
def onCores (s : State) (f : State → Nat → State) : State := (List.range s.cores.length).foldl f s
/-- A core drops its copies of lines: in L1, constant cache and instruction cache. -/
def dropCopies (s : State) (core : Nat) (p : Nat → Bool) : State :=
  (dropLines s core fun x => p x.line).modCore core fun c =>
    { c with ccache := c.ccache.filter fun x => !p x.line, icache := c.icache.filter fun x => !p x.line }
/-- A line lies in a range of physical bytes. -/
def lineIn (pa n line : Nat) : Bool := decide (pa / 128 ≤ line) && decide (line < (pa + n) / 128)

/-- Where the entry of a level lies for an address (R327): none where a node above it is absent or malformed. -/
def entryHome (s : State) (root : Nat) (va : W64) (level : Nat) : Option Nat :=
  let a := va.toNat
  let h0 := root + 8 * (a / 2 ^ 42 % 2 ^ 13)
  let e0 := readNat s.mem h0 8
  if level = 0 then some h0
  else if !pteBit e0 0 || !nodeOk s e0 then none
  else
    let h1 := ptePage e0 + 8 * (a / 2 ^ 29 % 2 ^ 13)
    let e1 := readNat s.mem h1 8
    if level = 1 then some h1
    else if !pteBit e1 0 || pteBit e1 4 || !nodeOk s e1 then none
    else some (ptePage e1 + 8 * (a / 2 ^ 16 % 2 ^ 13))

/-- Tags every line of a range with a key index (R322). -/
def keyRange (ks : List (Nat × Nat)) (pa n key : Nat) : List (Nat × Nat) :=
  (List.range (n / 128)).map (fun i => (pa / 128 + i, key)) ++ ks.filter fun p => !lineIn pa n p.1

/-- Chandler writes an entry at its home; slot 0 is its own key (R322, R336). -/
def writeEntry (s : State) (home : Nat) (pte : Nat) : State := homeWriteRaw s 0 (atAddrs home (bytesOf 8 pte))

/-! ### Frames (R322, R324)

Chandler gives a frame to one context: no line of a mapped frame is under another key than that of the contexts that can reach it. -/

/-- The entries of a node that are not zero, with their places. -/
def nodeEntries (s : State) (node : Nat) : List (Nat × Nat) :=
  (((s.mem.filter fun p => decide (node ≤ p.1) && decide (p.1 < node + 65536)).map fun p => node + (p.1 - node) / 8 * 8).eraseDups).map
    fun home => (home, readNat s.mem home 8)
/-- The nodes that the valid entries of a node name. -/
def nodesBelow (s : State) (node : Nat) : List Nat :=
  (nodeEntries s node).filterMap fun e => if pteBit e.2 0 && !pteBit e.2 4 && nodeOk s e.2 then some (ptePage e.2) else none
/-- The local frames that the leaves of a page table map: physical address and bytes (R327). -/
def mappedFrames (s : State) (root : Nat) : List (Nat × Nat) :=
  let leaf (large : Bool) (e : Nat × Nat) : Option (Nat × Nat) :=
    if pteBit e.2 0 && pteTier e.2 != 2 && leafOk s e.2 large then some (ptePage e.2, leafSize large) else none
  (nodesBelow s root).flatMap fun n1 =>
    (nodeEntries s n1).filterMap (fun e => if pteBit e.2 4 then leaf true e else none)
      ++ (nodesBelow s n1).flatMap fun n2 => (nodeEntries s n2).filterMap (leaf false)
/-- Two ranges of bytes share one. -/
def overlaps (a b : Nat × Nat) : Bool := decide (a.1 < b.1 + b.2) && decide (b.1 < a.1 + a.2)
/-- The nodes of a page table: the root, and those that its valid entries name on the two levels above the leaves (R327). -/
def tableNodes (s : State) (root : Nat) : List Nat := root :: (nodesBelow s root).flatMap fun n1 => n1 :: nodesBelow s n1
/-- A range of bytes shares none with the page table of a context (R322). -/
def tableClear (s : State) (x : Ctx) (r : Nat × Nat) : Bool := (tableNodes s x.ptroot.toNat).all fun n => !overlaps (n, 65536) r
/-- A range of bytes shares none with a frame that a leaf of a context maps (R322). -/
def framesClear (s : State) (x : Ctx) (r : Nat × Nat) : Bool := (mappedFrames s x.ptroot.toNat).all fun f => !overlaps f r
/-- The frame is part of one that a leaf of the context maps: a second mapping of it is an alias (R332). -/
def ownFrame (s : State) (c : Ctx) (pa n : Nat) : Bool :=
  (mappedFrames s c.ptroot.toNat).any fun f => decide (f.1 ≤ pa) && decide (pa + n ≤ f.1 + f.2)
/-- The contexts that have not been destroyed. -/
def liveCtxs (s : State) : List Ctx := s.ctxs.filter fun x => x.state != .destroyed
/-- No leaf of another live context maps a part of the frame, and it is no part of a live context's page table, the context's own
included (R322, R324, log 113). -/
def frameFree (s : State) (c : Ctx) (pa n : Nat) : Bool :=
  (liveCtxs s).all fun x => tableClear s x (pa, n) && (x.id == c.id || framesClear s x (pa, n))
/-- A node of 64 KiB is in no live context's use: it is part of no page table and of no frame that a leaf maps (R322, R324, log 113). -/
def nodeFree (s : State) (pa : Nat) : Bool := (liveCtxs s).all fun x => tableClear s x (pa, 65536) && framesClear s x (pa, 65536)
/-- A free node is given to a page table: Chandler writes zeros into it under its own key, slot 0 (R322, R324). -/
def giveNode (s : State) (pa : Nat) : State :=
  { s with mem := clearRange s.mem pa 65536, lineKey := s.lineKey.filter fun p => !lineIn pa 65536 p.1 }

/-- A zeroed or filled frame is mapped at an absent entry (R335): Chandler writes it under the context's key first (R324), and no core and
no memory-side cache holds a line of what it was before. -/
def mapFrame (s : State) (c : Ctx) (home pte : Nat) (fill : List Byte) : State :=
  let pa := ptePage pte
  let n := leafSize (pteBit pte 4)
  let s0 := onCores s fun s core => dropCopies s core (lineIn pa n)
  let s1 := { s0 with mem := clearRange s0.mem pa n, lineKey := keyRange s0.lineKey pa n c.keyidx
                      msc := s0.msc.filter fun x => !lineIn pa n x.line }
  writeEntry (homeWriteRaw s1 c.keyidx (atAddrs pa (fill.take n))) home pte

/-! ## Creation (R318, R319) -/

/-- The bytes of a queue's state record as Chandler creates it (R294). -/
def queueRecord (q : QueueInit) : List Byte :=
  bytesOf 8 q.rbase.toNat ++ bytesOf 4 q.rsize.toNat ++ bytesOf 4 0 ++ bytesOf 32 0 ++ bytesOf 8 q.cbase.toNat ++ bytesOf 4 q.csize.toNat
    ++ bytesOf 1 q.prio.val ++ bytesOf 67 0

/-- A power of two within bounds. -/
def powerIn (lo hi n : Nat) : Bool := decide (lo ≤ n) && decide (n ≤ hi) && n == 2 ^ n.log2

/-- A queue has valid fields (R294). -/
def queueOk (q : QueueInit) : Bool :=
  decide (q.number < 65536) && q.addr.toNat % 128 == 0 && q.rbase.toNat % 4096 == 0 && q.cbase.toNat % 4096 == 0
    && powerIn 16 65536 q.rsize.toNat && powerIn 16 65536 q.csize.toNat

/-- Sixteen budget sets, each with a core limit of 1 to 128 (R300). -/
def budgetsOk (bs : List Budget) : Bool := bs.length == 16 && bs.all fun b => decide (1 ≤ b.corelim) && decide (b.corelim ≤ 128)

/-- A context has valid fields, and its number, key slot and root are not in use (R300, R318, R322). -/
def createOk (s : State) (c : CtxInit) : Bool :=
  decide (c.ctxid < 4096) && !(s.ctxs.any fun x => x.id = c.ctxid && x.state != .destroyed)
    && decide (1 ≤ c.keyidx) && decide (c.keyidx < 1024) && !(s.ctxs.any fun x => x.keyidx = c.keyidx && x.state != .destroyed)
    && c.ptroot.toNat % 65536 == 0 && nodeFree s c.ptroot.toNat && c.savebase.toNat % 65536 == 0 && c.savesize % 65536 == 0
    && c.fbase.toNat % 4096 == 0 && powerIn 16 4096 c.fsize && budgetsOk c.budgets && c.queues.all queueOk
    && decide ((c.queues.map (·.number)).eraseDups.length = c.queues.length)

/-- The context of a create request (R318). -/
def newCtx (c : CtxInit) : Ctx where
  id := c.ctxid
  state := .created
  acode := 0
  keyidx := c.keyidx
  asid := none
  ptroot := c.ptroot
  budgets := c.budgets
  buckets := []
  refusal := none
  qtable := c.qtable
  savebase := c.savebase
  savesize := c.savesize
  saveused := 0
  recAt := c.recAt
  budgetAt := c.budgetAt
  reserved := c.reserved
  fbase := c.fbase
  fsize := c.fsize
  ftail := 0
  fhead := 0
  held := []
  lastrun := 0
  comps := List.replicate 16 ⟨0, 0, false⟩
  ranges := []
  halted := false

/-- A queue as Chandler creates it: its state record (R294) and its entry of the context's queue table (R318). -/
def createQueue (c : Ctx) (s : State) (q : QueueInit) : State :=
  devWrite (devWrite s c q.addr (queueRecord q)) c (c.qtable + BitVec.ofNat 64 (8 * q.number)) (bytesOf 8 q.addr.toNat)

/-- An entry of the page table that Chandler builds for a new context: a zeroed node that is free, or a zeroed frame at an absent leaf
(R327, R335). -/
def createMap (c : Ctx) (s : State) (m : W64 × Fin 3 × W64) : State :=
  let e := m.2.2.toNat
  let leaf := m.2.1.val = 2 || (m.2.1.val = 1 && pteBit e 4)
  match entryHome s c.ptroot.toNat m.1 m.2.1.val with
  | none => s
  | some home =>
    if pteBit (readNat s.mem home 8) 0 then s
    else if leaf then
      (if (pageState e == some .hbm || pageState e == some .lpddr) && leafOk s e (m.2.1.val = 1)
          && frameFree s c (ptePage e) (leafSize (m.2.1.val = 1)) then mapFrame s c home e [] else s)
    else if pteBit e 0 && nodeOk s e && nodeFree s (ptePage e) then writeEntry (giveNode s (ptePage e)) home e else s

/-- CONTEXT_CREATE (R318, R319, R322): Chandler completes a create request; the page table is built, the context is CREATED and
its queues are DISABLED. -/
def execContextCreate (c : CtxInit) (s : State) : Outcome State :=
  chandler s <|
    if !createOk s c then .fault .notEnabled
    else
      let x := newCtx c
      let s0 := giveNode s c.ptroot.toNat
      let s1 := { s0 with
        ctxs := (s.ctxs.filter fun y => y.id != c.ctxid) ++ [x]
        keys := (c.keyidx, c.key) :: s.keys.filter fun k => k.1 != c.keyidx
        regions := s.regions ++ c.regions
        queues := (s.queues.filter fun q => q.ctx != c.ctxid) ++ c.queues.map fun q => ⟨c.ctxid, q.number, q.addr, .disabled, 0, 0⟩ }
      .next (c.queues.foldl (createQueue x) (c.maps.foldl (createMap x) s1))

/-! ## Abort (R323) -/

/-- The kernel of a gang belongs to a context. -/
def gangOfCtx (s : State) (ctx : Nat) (ga : Gang) : Bool := match s.kernels[ga.kernel]? with
  | some k => k.ctx = ctx
  | none => false

/-- A team of an aborted context: RETIRED, with its residues and outstanding loads discarded. -/
def abortTeam (tm : Team) : Team :=
  { tm with status := .retired, live := 0, active := 0, stack := [], residues := [], inflight := [], claims := [], posts := []
            monitor := none, wake := false, stage0 := [], stage2 := [], owed := [], banks := [], before := none }

/-- Step 1: the gangs of the context and their teams. -/
def abortGangs (s : State) (ctx : Nat) : State :=
  let mine (ga : Gang) : Bool := gangOfCtx s ctx ga
  let teams := (s.gangs.filter mine).flatMap fun ga => ga.teams
  { s with teams := s.teams.zipIdx.map fun x => if teams.contains x.2 then abortTeam x.1 else x.1
           gangs := s.gangs.map fun ga => if mine ga then { ga with state := .retired, saved := 0, saveAt := [] } else ga }

/-- Step 2: of an engine context, the commands of the aborted context never run and TL does not advance past them; those of other
contexts go on (R323, log 68). -/
def abortEngine (ctx : Nat) (e : Engine) : Engine :=
  match e.queue.filter fun c => c.origin.ctx = ctx with
  | [] => e
  | c :: _ =>
    let first : Bool := (e.queue.head?.map (·.n)) == some c.n
    let e1 := { e with queue := e.queue.filter fun c => c.origin.ctx != ctx, stuck := some (lowerStuck e.stuck c.n) }
    if first then { e1 with fault := none, need := [], got := [] } else e1

/-- Step 2 for a matrix unit: the context's instructions never run, TL does not advance past them, and the unit goes on with those of
other contexts (R323, log 68). -/
def abortBench (ctx : Nat) (b : Bench) : Bench :=
  match b.queue.filter fun c => c.origin.ctx = ctx with
  | [] => b
  | c :: _ =>
    let first : Bool := (b.queue.head?.map (·.q)) == some c.q
    let b1 := { b with queue := (dropSkipped (b.queue.filter fun c => c.origin.ctx != ctx) b.tl).1, stuck := some (lowerStuck b.stuck c.q) }
    (if first then { b1 with fault := none, need := [], mprog := 0 } else b1).ended

/-- Step 2 for a core. -/
def abortCore (ctx : Nat) (c : Core) : Core :=
  { c with carter := c.carter.map (abortEngine ctx), sifter := c.sifter.map (abortEngine ctx), settle := abortEngine ctx c.settle
           benches := c.benches.map (abortBench ctx) }

/-- Step 3: the dirty bytes of an ASID go, without write-back. -/
def dropDirty (asid : Nat) (c : Core) : Core :=
  { c with l1 := (c.l1.map fun x => if x.asid = asid then { x with dirty := [], who := [] } else x).filter fun x => !x.useless }

/-- The slots of a context's queues are free. -/
def freeCtxSlots (s : State) (ctx : Nat) : State :=
  { s with slots := s.slots.map fun (x : Slot) => match x.queue with
      | some q => if q.1 = ctx then { Slot.reset with tslice := x.tslice } else x
      | none => x }

/-- The abort of a context (R323), in its four steps. A context that is ABORTED or DESTROYED stays as it is. -/
def abortCtx (s : State) (ctx : Nat) (code : Byte) : State :=
  match s.ctx? ctx with
  | none => s
  | some c =>
    if c.state == .aborted || c.state == .destroyed then s
    else
      let s1 := abortGangs s ctx
      let s2 := { s1 with cores := s1.cores.map (abortCore ctx) }
      let s3 := match c.asid with
        | some a => { s2 with cores := s2.cores.map (dropDirty a) }
        | none => s2
      let s4 := s3.setCtx { c with state := .aborted, acode := code, saveused := 0, halted := false }
      let ks := (s4.kernels.zipIdx.filter fun k => k.1.ctx = ctx && k.1.state != .complete).map (·.2)
      let s5 := ks.foldl (fun s i => endKernel s i 3 code) s4
      freeCtxSlots { s5 with queues := s5.queues.map fun q => if q.ctx = ctx then { q with state := .disabled } else q } ctx

/-- CONTEXT_ABORT (R323). -/
def execContextAbort (ctx : Nat) (code : Byte) (s : State) : Outcome State :=
  chandler s <| match s.ctx? ctx with
    | none => .fault .noSuch
    | some _ => .next (abortCtx s ctx code)

/-! ## Destruction (R322, R324) -/

/-- The bytes of lines whose key is gone: nobody can read what they were (R322, R324). -/
def loseLines (s : State) (lines : List Nat) : State :=
  lines.foldl (fun s l =>
    let bs := (List.range 16).flatMap fun i => bytesOf 8 (Config.freeWord (s.tick + i)).toNat
    { s with mem := ssetAll s.mem (atAddrs (l * 128) bs), tick := s.tick + 16 }) s

/-- The context has a command of an engine or a matrix unit in flight. -/
def ctxCommands (s : State) (ctx : Nat) : Bool :=
  s.cores.any fun c =>
    let mine (e : Engine) : Bool := e.queue.any fun x => x.origin.ctx = ctx
    c.carter.any mine || c.sifter.any mine || mine c.settle || c.benches.any fun b => b.queue.any fun m => m.origin.ctx = ctx

/-- No context has this number (R318): it stands in the kernels of destroyed contexts. -/
def noCtx : Nat := 4096

/-- Step 1 of a destruction: the home slices and the memory-side caches discard the lines tagged with a key index, local and
imported, with their releaser tags; an answer still to come installs no line of it (R322, R324). No instruction cache holds words of the
context any more: of imported lines, which it holds without their key, none is kept. -/
def discardKey (s : State) (key : Nat) : State :=
  let lines := (s.lineKey.filter fun p => p.2 = key).map (·.1)
  { loseLines s lines with
    cores := s.cores.map fun (k : Core) => { k with icache := k.icache.filter fun (l : ILine) => !(lines.contains l.line || importedLine l.line) }
    lineKey := s.lineKey.filter fun p => p.2 != key
    tags := s.tags.filter fun t => !lines.contains t.line
    msc := s.msc.filter fun x => x.key != key
    dieCopies := s.dieCopies.filter fun c => c.key != key
    reqs := s.reqs.map fun r => if r.key = key then { r with fill := false } else r }

/-- Steps 1 to 3 of a destruction (R324). -/
def destroyCtx (s : State) (c : Ctx) : State :=
  let s1 := discardKey s c.keyidx
  let s2 := match c.asid with
    | some a => { s1 with
        cores := s1.cores.map fun (k : Core) =>
          { k with l1 := k.l1.filter fun (l : L1Line) => l.asid != a, ccache := k.ccache.filter fun (l : CLine) => l.asid != a }
        tlbs := s1.tlbs.map fun (es : List TlbEntry) => es.filter fun (e : TlbEntry) => e.asid != a }
    | none => s1
  let s3 := freeCtxSlots (s2.setCtx { c with state := .destroyed, asid := none, saveused := 0, held := [] }) c.id
  { s3 with
    keys := s3.keys.filter fun (k : Nat × BitVec 512) => k.1 != c.keyidx
    queues := s3.queues.filter fun (q : Queue) => q.ctx != c.id
    kernels := s3.kernels.map fun (k : Kernel) => if k.ctx = c.id then { k with ctx := noCtx, state := .complete } else k
    regions := s3.regions.filter fun (r : RmaRegion) => r.ctx != c.id }

/-- CONTEXT_DESTROY (R319, R324): an ACTIVE context is aborted first; a CREATED or SWITCHED one goes once no kernel of it runs
or drains and no command is in flight. -/
def execContextDestroy (ctx : Nat) (s : State) : Outcome State :=
  chandler s <| match s.ctx? ctx with
    | none => .fault .noSuch
    | some c =>
      match c.state with
      | .destroyed => .next s
      | .aborted => .next (destroyCtx s c)
      | .active =>
        let s1 := abortCtx s ctx 0xFF
        match s1.ctx? ctx with
        | some c1 => .next (destroyCtx s1 c1)
        | none => .fault .noSuch
      | .created | .switched =>
        if (s.kernels.any fun k => k.ctx = ctx && k.live) || ctxCommands s ctx then .fault .notEnabled
        else .next (destroyCtx s c)

end Sys2Proof.Machine
end

