-- ==== Sys2Proof/Machine/Pages.lean ====
section
/-! DEFINITION. Pages: faults that Chandler serves, changes of page-table entries, migration, exports, and what the memory system
does beside the programs (spec/22_page_lifecycle.md R334 to R342, spec/19_traps_and_regions.md R310, spec/24_link_lifecycle.md
R349 to R351). -/
namespace Sys2Proof.Machine

/-- Time passes: cycles and nanoseconds that the spec does not fix (log 5). -/
def passTime (s : State) : State :=
  { s with cycle := s.cycle + BitVec.ofNat 64 (Config.elapsed s.tick), podTime := s.podTime + BitVec.ofNat 64 (Config.elapsedNs s.tick)
           tick := s.tick + 1 }

/-! ## Shoot-downs (R336) -/

/-- A leaf entry is invalidated in every quad TLB (R336). -/
def shootEntry (s : State) (home : Nat) : State := { s with tlbs := s.tlbs.map fun es => es.filter fun e => e.home != home }
/-- Every core writes back its dirty bytes of a page, in every ASID, and drops its copies where `drop` says so (R336). -/
def shootPage (s : State) (pa n : Nat) (drop : Bool) : State :=
  onCores s fun s core =>
    let s1 := writeBackWhere s core fun x => lineIn pa n x.line
    if drop then dropCopies s1 core (lineIn pa n) else s1
/-- No access that was translated before has an open request for the page (R336, step 4). -/
def pageQuiet (s : State) (pa n : Nat) : Bool := s.reqs.all fun r => !lineIn pa n (lineOf r.pa)

/-! ## Faults that Chandler serves (R306, R310, R338) -/

/-- What a fault record names of a team, wherever it stands. -/
def partyOf (s : State) (t : Nat) : Option (Nat × Party) :=
  (s.teams[t]?).bind fun tm => (s.cohorts[tm.cohort]?).bind fun co => (s.gangs[co.gang]?).bind fun ga =>
  (s.kernels[ga.kernel]?).map fun ke =>
    (ke.ctx, ⟨tm.idx, coreOf ga co, tm.idx % 4, ke.launch.seq, ke.queue, tm.regions, tm.rdepth, tm.repc, ga.index⟩)

/-- The engine context of a party. -/
def partyEngine : FaultParty → Option EngRef
  | .copy core ctx => some (.copy core ctx)
  | .sifter core ctx => some (.sift core ctx)
  | .settle core => some (.settle core)
  | .team _ => none | .matrix _ _ => none | .inbound _ => none

/-- The PAGE or PROT for which a party waits, with its context. -/
def partyFault (s : State) (p : FaultParty) : Option (Nat × FaultInfo) :=
  match p with
  | .team t => (s.teams[t]?).bind fun tm =>
      if tm.status = .blocked .chandler || tm.status = .captured (some .chandler) then
        tm.fault.bind fun f => (partyOf s t).map fun x => (x.1, f)
      else none
  | .matrix core bench => (s.bench? core bench).bind fun b => b.fault.bind fun f => (b.queue.head?).map fun c => (c.origin.ctx, f)
  | .inbound n => (s.inbound[n]?).bind fun x =>
      (s.ingress.find? fun e => e.1 = x.req.index.toNat).map fun e => (e.2.ctx.toNat, .plain x.code 0 0 x.va)
  | .copy core ctx => (s.engine? (.copy core ctx)).bind fun x => x.fault.bind fun f => (x.queue.head?).map fun c => (c.origin.ctx, f)
  | .sifter core ctx => (s.engine? (.sift core ctx)).bind fun x => x.fault.bind fun f => (x.queue.head?).map fun c => (c.origin.ctx, f)
  | .settle core => (s.engine? (.settle core)).bind fun x => x.fault.bind fun f => (x.queue.head?).map fun c => (c.origin.ctx, f)

/-- A present leaf that takes no PAGE: valid and not migrating (R330, R337). -/
def mapped (s : State) (root : Nat) (va : W64) : Bool :=
  match walk s root va with
  | .ok l => !pteBit l.pte 11
  | .error _ => false
/-- The address whose translation failed: ADDR, or that which the fault keeps beside it (R308, R310). -/
def faultVa (f : FaultInfo) : W64 := f.page.getD f.addr
/-- A PAGE has been resolved: the address is mapped and not migrating. -/
def resolved (s : State) (root : Nat) (f : FaultInfo) : Bool := f.code == 0x05 && mapped s root (faultVa f)
/-- The address is on a page that is migrating (R337). -/
def migrating (s : State) (root : Nat) (va : W64) : Bool :=
  match walk s root va with
  | .ok l => pteBit l.pte 11
  | .error _ => false
/-- The context has reserved the address (R338). -/
def Ctx.hasReserved (c : Ctx) (va : W64) : Bool := c.reserved.any fun r => decide (r.1.toNat ≤ va.toNat) && decide (va.toNat < r.2.toNat)

/-- The module's refusal of an inbound request that arrived at a pod time (R351): a service record, and a NACK unless it is stale. -/
def refuseSpan (s : State) (arrived : W64) (r : SpanReq) (reason : Byte) : State :=
  { s with svcQ := s.svcQ ++ [.fabric arrived r.src r.index r.off r.tag reason]
           spanOut := if reason = 7 then s.spanOut else s.spanOut ++ [.nack r.src r.tag] }

/-- Chandler reports a fault (R306, R338): the team is STOPPED, an engine context halts (R138), the unit follows R239, and an
inbound request is refused (R351). -/
def reportParty (s : State) (p : FaultParty) (f : FaultInfo) : State :=
  match p with
  | .team t =>
    let s1 := s.modTeam t fun tm => { tm with status := if tm.status = .blocked .chandler then .stopped else .captured none }
    match partyOf s t with
    | some x => report s1 x.1 (recordBody x.2 f)
    | none => s1
  | .matrix core bench => matrixUnresolved s core bench f
  | .inbound n => match s.inbound[n]? with
    | some x => refuseSpan { s with inbound := s.inbound.eraseIdx n } x.arrived x.req 6
    | none => s
  | .copy core ctx => engineHalt s (.copy core ctx) f
  | .sifter core ctx => engineHalt s (.sift core ctx) f
  | .settle core => engineHalt s (.settle core) f

/-- Chandler reports the fault (R338): a PROT, or a PAGE of an address that the context has not reserved, whose page neither migrates nor
has been mapped meanwhile. -/
def reports (s : State) (c : Ctx) (f : FaultInfo) : Bool :=
  f.code != 0x05 || !(c.hasReserved (faultVa f) || migrating s c.ptroot.toNat (faultVa f) || resolved s c.ptroot.toNat f)

/-- CHANDLER_FAULT_SERVICE (R338): a PAGE is met by mapping a frame at an address that the context has reserved, or held while its page
migrates, or else reported; a PROT is reported. -/
def execChandlerFaultService (p : FaultParty) (act : FaultAct) (s : State) : Outcome State :=
  chandler s <| match partyFault s p with
    | none => .fault .notEnabled
    | some (ctx, f) =>
      match s.ctx? ctx with
      | none => .fault .noSuch
      | some c =>
        let root := c.ptroot.toNat
        match act with
        | .hold => if f.code == 0x05 && migrating s root (faultVa f) then .next s else .fault .notEnabled
        | .report => if reports s c f then .next (reportParty s p f) else .fault .notEnabled
        | .map pte fill =>
          let e := pte.toNat
          let large := pteBit e 4
          match entryHome s root (faultVa f) (if large then 1 else 2) with
          | none => .fault .notEnabled
          | some home =>
            let ok := match pageState e with
              | some .hbm => leafOk s e large
              | some .lpddr => leafOk s e large
              | _ => false
            if f.code != 0x05 || !c.hasReserved (faultVa f) || pteBit (readNat s.mem home 8) 0 || !ok
                || !frameFree s c (ptePage e) (leafSize large) then .fault .notEnabled
            else .next (mapFrame s c home e fill)

/-! ## Inbound fabric accesses at home (R351, R190) -/

/-- The entry of a die's hotness table that makes room: with 16,384 entries held, the smallest counter (R340, log 32). -/
def hotRoom (hs : List HotEntry) (die : Nat) : List HotEntry :=
  let mine := hs.filter fun h => h.die = die
  if mine.length < 16384 then hs
  else match mine.find? fun a => mine.all fun b => decide (a.count ≤ b.count) with
    | some a => hs.filter fun h => h != a
    | none => hs

/-- An access through the ingress import table counts in the hotness table of its stack (R340). -/
def hotNote (s : State) (pa : Nat) (src : BitVec 10) : State :=
  let die := (stackOf (lineOf pa)).val
  let block := pa / 65536
  let old := s.hot.find? fun h => h.die = die && h.block = block && h.src = src.toNat
  let e : HotEntry := old.getD ⟨die, block, src.toNat, 0, false⟩
  let count := if e.count = 0xFFFF then e.count else e.count + 1
  let rest := match old with
    | some _ => s.hot.filter fun h => h != e
    | none => hotRoom s.hot die
  let fire := decide (s.hthresh.getD die 65535 ≤ count) && !e.notified
  { s with hot := { e with count := count, notified := e.notified || fire } :: rest
           svcQ := if fire then s.svcQ ++ [.hot block src.toNat count] else s.svcQ }

/-- Two places count in one hotness entry (R340): their block and their stack are the same. -/
def sameHot (pa pb : Nat) : Bool := pa / 65536 == pb / 65536 && stackOf (lineOf pa) == stackOf (lineOf pb)

/-- The exporter notes that a die of an importer holds copies of a page (R342): up to eight dies, then OVF. -/
def directoryNote (s : State) (page die : Nat) : State :=
  match s.directory.find? fun d => d.page = page with
  | none => { s with directory := ⟨page, [die], false, [], false⟩ :: s.directory }
  | some d =>
    if d.dies.contains die then s
    else
      let d' := if d.dies.length < 8 then { d with dies := d.dies ++ [die] } else { d with ovf := true }
      { s with directory := s.directory.map fun x => if x.page = page then d' else x }

/-- What an inbound request asks of the leaf (R351). -/
def opNeed : FabricOp → Need
  | .read _ => .read | .write _ => .write | .atomic .. => .both | .cas .. => .both | .splat .. => .both | .shadow _ => .both
  | .settle .. => .both | .settleTake => .both | .settleAdd .. => .both | .engine _ => .write
/-- The rights of the ingress entry that a request needs: R, W, or R, W and A (R351). -/
def ingressRights (e : Ingress) : FabricOp → Bool
  | .read _ => e.r | .write _ => e.w
  | .atomic .. => e.r && e.w && e.a | .cas .. => e.r && e.w && e.a | .splat .. => e.r && e.w && e.a
  | .shadow _ => e.r && e.w && e.a | .settle .. => e.r && e.w && e.a
  | .settleTake => e.r && e.w && e.a | .settleAdd .. => e.r && e.w && e.a | .engine _ => e.w
/-- The offsets of a request in its window: OFF, and that of the shadow for a settle. -/
def spanOffs (r : SpanReq) : List Nat :=
  match r.op with
  | .settle _ _ o => [r.off.toNat, o.toNat]
  | _ => [r.off.toNat]

/-- A write at home that comes from a link (R172, R190): a synchronising one clears the core that the line's tag names and tags
the line with the link; the copies of other dies go, and the writer's own for anything but a write forwarded from its copy
(R184). -/
def linkWrite (s : State) (r : SpanReq) (key : Nat) (own : Bool) (ws : List (Nat × Byte)) : State :=
  let lines := (ws.map fun p => lineOf p.1).eraseDups
  let s1 := if r.sync then lines.foldl (fun s l => match tagOf s l with
    | some t => clearTag s t none
    | none => s) s else s
  let s2 := homeWriteFrom (if own then some (r.src.toNat * 4 + r.die.val) else none) s1 key ws
  if r.sync then lines.foldl (fun s l => setTag s ⟨l, .link r.plane, 0, .pod, false⟩) s2 else s2

/-- A synchronising read-modify-write first acquires its line (R173): a core tagged at POD scope is cleared. The number says whether it
caused a clearing. -/
def linkAcquire (s : State) (line : Nat) : State × Nat :=
  match tagOf s line with
  | some t =>
    let orders : Bool := t.scope == .pod && !t.cleared && match t.by_ with
      | .core _ => true
      | .link _ => false
    if orders then (clearTag s t none, 1) else (s, 0)
  | none => (s, 0)

/-- Performs an admitted request at physical address `pa` under the exporter's key: the state and the answer (R351). `pb` is the
place of a settle's shadow. The answer to a synchronising read-modify-write ends in a byte that counts its clearings (R204, log 14). -/
def linkPerform (s : State) (r : SpanReq) (key pa pb : Nat) : State × List Byte :=
  let rmw (s : State) (size : Nat) (f : Nat → Nat × List Byte) : State × List Byte :=
    let s1 := if r.sync then linkAcquire s (lineOf pa) else (s, 0)
    let x := f (readNat s1.1.mem pa size)
    (linkWrite s1.1 r key false (atAddrs pa (bytesOf size x.1)), x.2 ++ if r.sync then bytesOf 1 s1.2 else [])
  match r.op with
  | .read n => (directoryNote (mscReads s (spanLines (pa, n))) (pa / 65536) (r.src.toNat * 4 + r.die.val), readBytes s.mem pa n)
  | .write bs => (linkWrite s r key true (atAddrs pa bs), [])
  | .atomic fn ty ds =>
    rmw s ty.bytes fun v =>
      let x := applyLanes (.fn fn ty fun l => (ds.getD l 0).toNat) (List.range ds.length) v
      (x.2, x.1.flatMap fun y => bytesOf ty.bytes y.2)
  | .cas wide ps =>
    let n := if wide then 8 else 4
    rmw s n fun v =>
      let x := applyLanes (.cas fun l => let p := ps.getD l (0, 0); (p.1.toNat, p.2.toNat)) (List.range ps.length) v
      (x.2, x.1.flatMap fun y => bytesOf n y.2)
  | .splat e x => rmw s (latSize e.val) fun v => (splatNew e.val v x.toNat, [])
  | .shadow z => rmw s 16 fun v => (ux 128 ((v : Int) + z.toInt), [])
  | .settle e elo _ =>
    let sh := readNat s.mem pb 16
    if sh = 0 then (s, [])
    else
      let s1 := linkWrite s r key false (atAddrs pa (bytesOf (latSize e.val) (settleNew e.val elo.toInt (readNat s.mem pa (latSize e.val)) sh)))
      (linkWrite s1 r key false (atAddrs pb (bytesOf 16 0)), [])
  | .settleTake =>
    let sh := readNat s.mem pa 16
    (if sh = 0 then s else linkWrite s r key false (atAddrs pa (bytesOf 16 0)), bytesOf 16 sh)
  | .settleAdd e elo z => rmw s (latSize e.val) fun v => (settleNew e.val elo.toInt v z.toNat, [])
  | .engine bs => (linkWrite s r key false (atAddrs pa bs), [])

/-- The first check of R351 that a request fails. -/
def spanReason (s : State) (r : SpanReq) (e : Option Ingress) : Option Byte :=
  match e with
  | none => some 1
  | some e =>
    if !e.v then some 1
    else if e.key != r.key then some 2
    else if !e.any && e.src != r.src then some 3
    else if (spanOffs r).any fun o => decide ((e.bound.toNat + 1) * 131072 ≤ o) then some 4
    else if !ingressRights e r.op then some 5
    else if r.deadline < s.podTime then some 7
    else none

/-- The exporter's translation of an inbound request's address (R327, R351): no TLB of a quad is asked. The state stands with a fault
too. -/
def spanXlat (s : State) (root : Nat) (va : W64) (n : Need) : State × Except WalkFault Nat :=
  if !ordinary va then (s, .error .prot)
  else
    let w := walkFor s none root va
    match w.2 with
    | .error f => (w.1, .error f)
    | .ok l =>
      match leafRights l.pte n with
      | some f => (w.1, .error f)
      | none =>
        if pteTier l.pte == 2 then (w.1, .error .prot)
        else
          let e := pteTouch l.pte n
          (if e = l.pte then w.1 else writeEntry w.1 l.home e, .ok (leafPa l va))

/-- An inbound request that arrived at a pod time, at the exporter (R351, R352): checks in order, translation, and the access with its
answer. A PAGE or PROT is held for Chandler, with the address whose translation failed. A destroyed context has no page table
(R324). -/
def spanServe (s : State) (arrived : W64) (r : SpanReq) : State :=
  let e := (s.ingress.find? fun x => x.1 = r.index.toNat).map (·.2)
  match spanReason s r e, e with
  | some why, _ => refuseSpan s arrived r why
  | none, none => refuseSpan s arrived r 1
  | none, some e =>
    match (s.ctx? e.ctx.toNat).filter fun c => c.state != .destroyed with
    | none => refuseSpan s arrived r 6
    | some c =>
      let va : W64 := BitVec.ofNat 64 (e.base.toNat * 65536 + r.off.toNat)
      match spanXlat s c.ptroot.toNat va (opNeed r.op) with
      | (s1, .error f) => { s1 with inbound := s1.inbound ++ [⟨r, f.code, va, arrived⟩] }
      | (s1, .ok pa) =>
        let shVa : W64 := match r.op with
          | .settle _ _ o => BitVec.ofNat 64 (e.base.toNat * 65536 + o.toNat)
          | _ => va
        match spanXlat s1 c.ptroot.toNat shVa (opNeed r.op) with
        | (s2, .error f) => { s2 with inbound := s2.inbound ++ [⟨r, f.code, shVa, arrived⟩] }
        | (s2, .ok pb) =>
          let s3 := hotNote s2 pa r.src
          let s4 := match r.op with
            | .settle .. => if sameHot pa pb then s3 else hotNote s3 pb r.src
            | _ => s3
          let x := linkPerform s4 r c.keyidx pa pb
          { x.1 with spanOut := x.1.spanOut ++ [.response r.src r.tag x.2] }

/-- Inbound requests whose deadline has passed before Chandler has resolved their fault are refused (R351). -/
def expireInbound (s : State) : State :=
  (s.inbound.filter fun x => decide (x.req.deadline < s.podTime)).foldl (fun s x => refuseSpan s x.arrived x.req 6)
    { s with inbound := s.inbound.filter fun x => !decide (x.req.deadline < s.podTime) }

/-- CHANDLER_RESUMPTION (R310, R338): a team whose PAGE has been resolved goes on at REPC, an engine's command and the unit's
instruction go on, and an inbound request is served. -/
def execChandlerResumption (p : FaultParty) (s : State) : Outcome State :=
  chandler s <| match partyFault s p with
    | none => .fault .notEnabled
    | some (ctx, f) =>
      match s.ctx? ctx with
      | none => .fault .noSuch
      | some c =>
        if !resolved s c.ptroot.toNat f then .fault .notEnabled
        else match p with
          | .team t => .next (s.modTeam t fun tm =>
              if tm.status = .blocked .chandler then resumeTeam tm else { resumeTeam tm with status := .captured none })
          | .matrix core bench => .next (s.modBench core bench fun b => { b with fault := none })
          | .inbound n => match s.inbound[n]? with
            | some x =>
              let s1 := { s with inbound := s.inbound.eraseIdx n }
              .next (if x.req.deadline < s.podTime then refuseSpan s1 x.arrived x.req 6 else spanServe s1 x.arrived x.req)
            | none => .fault .noSuch
          | .copy core k => .next (s.modEngine (.copy core k) fun x => { x with fault := none })
          | .sifter core k => .next (s.modEngine (.sift core k) fun x => { x with fault := none })
          | .settle core => .next (s.modEngine (.settle core) fun x => { x with fault := none })

/-! ## PTE_CHANGE and PAGE_MIGRATION (R335 to R337) -/

/-- The moves between page states that a plain change of an entry makes (R335): migration and export have events of their own, and a
page that stays mapped keeps its frame. -/
def pageMove (s : State) (a b : PageState) : Bool :=
  a == b || b == .absent
    || match a with
       | .absent => b == .hbm || b == .lpddr || b == .imported
       | .hbm => b == .migrating || (s.cfg.hbmCache && b == .lpddr)
       | .lpddr => b == .migrating || (s.cfg.hbmCache && b == .hbm)
       | .migrating => false
       | .imported => false
       | .exported => false

/-- A change of an entry takes something away (R336): V, R, W or X, or PAGE is another. -/
def takesAway (old new : Nat) : Bool :=
  pteBit old 0 && ((pteBit old 0 && !pteBit new 0) || (pteBit old 1 && !pteBit new 1) || (pteBit old 2 && !pteBit new 2)
    || (pteBit old 3 && !pteBit new 3) || ptePage old != ptePage new)
/-- A change of an entry sets MIG (R336). -/
def setsMig (old new : Nat) : Bool := pteBit old 0 && !pteBit old 11 && pteBit new 11

/-- The change of a leaf entry in the order of R336; a frame that is mapped at an absent entry is filled with zeros under the context's
key, unless a leaf of the context maps it already: an alias (R324, R332). -/
def changeLeaf (s : State) (c : Ctx) (home old new : Nat) (large : Bool) : State :=
  let s1 :=
    if pageState old = some .absent && (pageState new = some .hbm || pageState new = some .lpddr)
        && !ownFrame s c (ptePage new) (leafSize large) then mapFrame s c home new []
    else writeEntry s home new
  let s2 := shootEntry s1 home
  if takesAway old new then shootPage s2 (ptePage old) (leafSize large) true
  else if setsMig old new then shootPage s2 (ptePage old) (leafSize large) false
  else s2

/-- The changes of an entry above the leaves (R335): a node that maps no page and is in no use comes or a node goes, with which its pages are ABSENT, or the
node stays; every other change would move pages between states that R335 does not join. -/
def nodeMove (s : State) (old new : Nat) : Bool :=
  let node (e : Nat) : Bool := pteBit e 0 && nodeOk s e
  let empty (pa : Nat) : Bool := nodeFree s pa && (nodeEntries s pa).all fun e => !pteBit e.2 0
  (!pteBit old 0 && !pteBit new 0) || (!pteBit old 0 && node new && empty (ptePage new))
    || (node old && !pteBit new 0) || (node old && node new && ptePage old == ptePage new)

/-- The change of an entry above the leaves: a node that comes is zeroed; where the entry was valid, every translation and every copy of the cores goes, in every ASID,
which covers what lay below it (R336). -/
def changeNode (s : State) (home old new : Nat) : State :=
  let s1 := writeEntry (if !pteBit old 0 && pteBit new 0 then giveNode s (ptePage new) else s) home new
  if !pteBit old 0 then s1
  else onCores { s1 with tlbs := s1.tlbs.map fun _ => [] } fun s core =>
    dropCopies (writeBackWhere s core fun _ => true) core fun _ => true

/-- PTE_CHANGE (R335, R336): Chandler changes the entry of a level for an address of a context; for an import it also writes the
egress entry (R349). The change of a live entry is complete once no access translated before is open (R336). -/
def execPteChange (ctx : Nat) (va : W64) (level : Fin 3) (pte : W64) (eg : Option (BitVec 12 × Egress)) (s : State) : Outcome State :=
  chandler s <| match s.ctx? ctx with
    | none => .fault .noSuch
    | some c =>
      match entryHome s c.ptroot.toNat va level.val with
      | none => .fault .notEnabled
      | some home =>
        let old := readNat s.mem home 8
        let new := pte.toNat
        let leaf (e : Nat) : Bool := level.val = 2 || (level.val = 1 && (pteBit e 4 || !pteBit e 0))
        let s1 := match eg with
          | some (n, e) => { s with egress := (n.toNat, e) :: s.egress.filter fun x => x.1 != n.toNat }
          | none => s
        if leaf old && leaf new then
          match pageState old, pageState new with
          | some a, some b =>
            if pageMove s a b && (b == .absent || leafOk s new (level.val = 1)) && (a == .absent || b == .absent || ptePage old == ptePage new)
                && (a == .absent || pageQuiet s (ptePage old) (leafSize (level.val = 1)))
                && (a != .absent || b == .absent || b == .imported || frameFree s c (ptePage new) (leafSize (level.val = 1))) then
              .next (changeLeaf s1 c home old new (level.val = 1))
            else .fault .notEnabled
          | _, _ => .fault .notEnabled
        else if level.val = 2 || !nodeMove s old new || (pteBit old 0 && !s.reqs.isEmpty) then .fault .notEnabled
        else .next (changeNode s1 home old new)

/-- Copies a frame, with the key of each line. -/
def copyFrame (s : State) (src dst n : Nat) : State :=
  let bs := s.mem.filterMap fun p => if src ≤ p.1 ∧ p.1 < src + n then some (dst + (p.1 - src), p.2) else none
  let ks := s.lineKey.filterMap fun p => if lineIn src n p.1 then some (dst / 128 + (p.1 - src / 128), p.2) else none
  { s with mem := ssetAll (clearRange s.mem dst n) bs, lineKey := ks ++ s.lineKey.filter fun p => !lineIn dst n p.1 }

/-- PAGE_MIGRATION (R337): MIG is set under R336, the frame is copied, and the new PAGE is written with MIG clear; in one step
(log 25). Tagged lines of the old frame leave their home, so the cores that their tags name are cleared (R176). -/
def execPageMigration (ctx : Nat) (va : W64) (pte : W64) (s : State) : Outcome State :=
  chandler s <| match s.ctx? ctx with
    | none => .fault .noSuch
    | some c =>
      match walk s c.ptroot.toNat va with
      | .error _ => .fault .notEnabled
      | .ok l =>
        let large := l.pages != 1
        let n := leafSize large
        let src := ptePage l.pte
        let dst := ptePage pte.toNat
        let movable := match pageState l.pte with
          | some .hbm => true
          | some .lpddr => true
          | some .migrating => true
          | _ => false
        let target := match pageState pte.toNat with
          | some .hbm => leafOk s pte.toNat large
          | some .lpddr => leafOk s pte.toNat large
          | _ => false
        if !movable || !target || overlaps (src, n) (dst, n) || !frameFree s c dst n
            || (mappedFrames s c.ptroot.toNat).any (overlaps (dst, n)) then .fault .notEnabled
        else
          let s1 := shootPage s src n true
          let s2 := ((s1.tags.map (·.line)).filter (lineIn src n)).foldl evictHomeLine s1
          .next (shootEntry (writeEntry (copyFrame s2 src dst n) l.home pte.toNat) l.home)

/-! ## Exports (R335, R342, R350) -/

/-- The virtual addresses of the 64 KiB pages of a window (R350). -/
def windowPages (x : Ingress) : List W64 :=
  (List.range ((x.bound.toNat + 1) * 2)).map fun i => BitVec.ofNat 64 ((x.base.toNat + i) * 65536)
/-- The leaf of an address, with its page state. -/
def leafAt (s : State) (root : Nat) (va : W64) : Option (Leaf × PageState) :=
  match walk s root va with
  | .ok l => (pageState l.pte).map fun p => (l, p)
  | .error _ => none
/-- Sets or clears EXP of a leaf (R336). -/
def markExport (on : Bool) (s : State) (l : Leaf) : State :=
  let e := readNat s.mem l.home 8
  shootEntry (writeEntry s l.home (if on then e ||| 2 ^ 12 else if pteBit e 12 then e - 2 ^ 12 else e)) l.home

/-- EXPORT_GRANT (R350, R335): Chandler writes an ingress entry and marks the window's pages EXPORTED; no page of it may be
migrating or imported. An entry that is valid, or whose revocation is not complete, is not granted anew. -/
def execExportGrant (n : BitVec 12) (x : Ingress) (s : State) : Outcome State :=
  chandler s <| match s.ctx? x.ctx.toNat with
    | none => .fault .noSuch
    | some c =>
      let root := c.ptroot.toNat
      let bad := (windowPages x).any fun va => match leafAt s root va with
        | some (_, p) => p == .migrating || p == .imported
        | none => false
      let inUse := s.revoking.contains n || s.ingress.any fun e => e.1 = n.toNat && e.2.v
      if !x.v || bad || inUse then .fault .notEnabled
      else
        let s1 := { s with ingress := (n.toNat, x) :: s.ingress.filter fun e => e.1 != n.toNat }
        .next ((windowPages x).foldl (fun s va => match leafAt s root va with
          | some (l, p) => if p == .hbm || p == .lpddr then markExport true s l else s
          | none => s) s1)

/-- Another window of the context that is valid, or whose revocation is not complete, covers a page of a leaf. -/
def stillExported (s : State) (n : Nat) (ctx : BitVec 13) (l : Leaf) : Bool :=
  s.ingress.any fun e => e.1 != n && (e.2.v || s.revoking.any fun r => r.toNat == e.1) && e.2.ctx == ctx
    && overlaps (e.2.base.toNat % 2 ^ 39, (e.2.bound.toNat + 1) * 2) (l.page, l.pages)

/-- The leaves of a window of a context, with their addresses and page states. -/
def windowLeaves (s : State) (root : Nat) (x : Ingress) : List (W64 × Leaf × PageState) :=
  (windowPages x).filterMap fun va => (leafAt s root va).map fun l => (va, l.1, l.2)
/-- No importer owes the acknowledgement of an invalidation of the pages (R342). -/
def ackedPages (s : State) (pages : List Nat) : Bool :=
  s.directory.all fun d => !pages.contains d.page || (d.owed.isEmpty && !d.all)
/-- The revocation of ingress entry `n` is complete once every importer's copies are invalidated: leaves of which no other window covers
a page are HBM or LPDDR again, and the directory has no entry of a page without copies (R335, R342). -/
def settleRevoke (s : State) (n : BitVec 12) : State :=
  match (s.ingress.find? fun e => e.1 = n.toNat).bind fun e => (s.ctx? e.2.ctx.toNat).map fun c => (e.2, c) with
  | none => { s with revoking := s.revoking.filter fun x => x != n }
  | some (x, c) =>
    let ls := windowLeaves s c.ptroot.toNat x
    let pages := (ls.map fun y => (leafPa y.2.1 y.1) / 65536).eraseDups
    if !ackedPages s pages then s
    else
      let s1 := { s with revoking := s.revoking.filter fun x => x != n
                         directory := s.directory.filter fun d => !(pages.contains d.page && d.dies.isEmpty && !d.ovf) }
      ls.foldl (fun s y => if y.2.2 == .exported && !stillExported s n.toNat x.ctx y.2.1 then markExport false s y.2.1 else s) s1
/-- A die, or with `none` every die, has acknowledged the invalidation of its copies of a page (R342). -/
def ackPage (s : State) (page : Nat) (die : Option Nat) : State :=
  let s1 := { s with directory := s.directory.map fun (d : DirEntry) =>
    if d.page = page then (match die with
      | some x => { d with owed := d.owed.filter fun y => y != x }
      | none => { d with all := false })
    else d }
  s1.revoking.foldl settleRevoke s1

/-- EXPORT_REVOKE (R335, R342): the entry is no longer valid, and every importer's copies are invalidated. Once they are, pages that no
other window covers are HBM or LPDDR again. -/
def execExportRevoke (n : BitVec 12) (s : State) : Outcome State :=
  chandler s <| match (s.ingress.find? fun e => e.1 = n.toNat).map (·.2) with
    | none => .fault .noSuch
    | some x =>
      if !x.v then .fault .notEnabled
      else
        let s1 := { s with ingress := s.ingress.map fun e => if e.1 = n.toNat then (e.1, { e.2 with v := false }) else e }
        match s.ctx? x.ctx.toNat with
        | none => .next s1
        | some c =>
          let pages := ((windowLeaves s c.ptroot.toNat x).map fun y => (leafPa y.2.1 y.1) / 65536).eraseDups
          .next (settleRevoke { s1 with spanOut := s1.spanOut ++ invalidations s1 pages none
                                        directory := directoryAfter s1.directory pages none
                                        revoking := n :: s1.revoking } n)

/-! ## The memory system on its own (R339 to R342) -/

/-- BLOOM_FILTER_ROTATION (R339): the previous filter takes the current one's bits, and the current one is cleared. -/
def execBloomFilterRotation (slice : Nat) (s : State) : Outcome State :=
  if 8 ≤ slice then .fault .noSuch
  else .next { s with bloom := s.bloom.map fun b => if b.slice = slice then { b with cur := [], prev := b.cur } else b }

/-- HELD_ROW_REFRESH (R341): the row is closed, refreshed and reopened; only time passes. -/
def execHeldRowRefresh (_channel : Nat) (s : State) : Outcome State := .next (passTime s)

/-- HOTNESS_ENTRY_CLEAR (R340): Chandler clears an entry. -/
def execHotnessEntryClear (die block src : Nat) (s : State) : Outcome State :=
  chandler s <| .next { s with hot := s.hot.filter fun h => !(h.die = die && h.block = block && h.src = src) }

/-- IMPORTED_COPY_INVALIDATION (R184, R342): a die discards its clean copies of an imported page and, through it, the L1 copies
of its cores; bytes written and not yet confirmed are kept. It acknowledges, once the device is READY (R363). -/
def execImportedCopyInvalidation (die page : Nat) (s : State) : Outcome State :=
  if 4 ≤ die then .fault .noSuch
  else if s.boot != .ready then .next s
  else
    let s1 := dieDrop s die fun l => l / 512 == page
    let s2 := ((List.range 32).map fun i => die * 32 + i).foldl (fun s core => dropClean s core fun x => x.line / 512 = page) s1
    .next { s2 with spanOut := s2.spanOut ++ [.ack die page] }

end Sys2Proof.Machine
end

