-- ==== Sys2Proof/Machine/Debug.lean ====
section
/-! DEFINITION. Debug, errors and bring-up (spec/25_debug_ras_boot.md R354 to R364), and the word that no row of the opcode table
matches (spec/03_encoding.md R48). -/
namespace Sys2Proof.Machine

/-- ILLEGAL_INSTRUCTION (R48): a word that is no instruction raises ILLEGAL for the whole active mask. -/
def execIllegalInstruction (_w : W32) (s : State) : Outcome State := onTeam s fun h => illegal s h

/-! ## Comparators, halts and the lane-cycle record (R355 to R358) -/

/-- The fields of a control word that exist (R355). -/
def ctlMask : W64 := 0xF33
/-- Chandler accepts a control word (R355): LOGSZ 2 to 15, ACTION 0 to 2, and no WATCH on an instruction PC. -/
def ctlOk (ctl : W64) : Bool :=
  let c := ctl.toNat
  let action := c % 4
  decide (2 ≤ c / 256 % 16) && action != 3 && !(c / 16 % 4 == 0 && action == 1)

/-- COMPARATOR_WRITE (R355): a refused control word changes nothing. -/
def execComparatorWrite (ctx i : Nat) (addr : W64) (ctl : CompCtl) (s : State) : Outcome State :=
  chandler s <| match s.ctx? ctx with
    | none => .fault .noSuch
    | some c =>
      if 16 ≤ i then .fault .noSuch
      else if ctlOk ctl.word then .next (s.setCtx { c with comps := c.comps.set i ⟨addr, ctl.word &&& ctlMask, ctl.pod⟩ })
      else .next s

/-- The team belongs to a context. -/
def teamOfCtx (s : State) (ctx : Nat) (tm : Team) : Bool :=
  match (s.cohorts[tm.cohort]?).bind fun co => (s.gangs[co.gang]?).bind fun ga => s.kernels[ga.kernel]? with
  | some k => k.ctx = ctx
  | none => false

/-- CONTEXT_RESUME (R356): every halted team of the context goes on from where it halted. -/
def execContextResume (ctx : Nat) (s : State) : Outcome State :=
  chandler s <| match s.ctx? ctx with
    | none => .fault .noSuch
    | some c => .next { s.setCtx { c with halted := false } with
        teams := s.teams.map fun tm => if tm.halted && teamOfCtx s ctx tm then { tm with halted := false } else tm }

/-- A bench's counters are cleared as they are read (R358); with IDLE as it was read. The clocks without a pass are not counted one by
one: IDLE has grown by 32 times a free number (log 5). -/
def laneRead (s : State) (core bench : Nat) (b : Bench) : State × BitVec 48 :=
  (s.bump.modBench core bench fun x => { x with counts := [], idle := 0 }, addSat48 b.idle (32 * (Config.freeWord s.tick).toNat))

/-- LANE_CYCLE_READ_CLEAR (R358): Chandler reads a bench's counters and clears them. -/
def execLaneCycleReadClear (core bench : Nat) (s : State) : Outcome State :=
  chandler s <| match s.bench? core bench with
    | none => .fault .noSuch
    | some b =>
      let r := laneRead s core bench b
      .next { r.1 with svcQ := r.1.svcQ ++ [.counts core bench b.counts r.2] }

/-! ## Freeze and reset (R354, R361, R362) -/

/-- FREEZE (R354): every core, engine and fabric clock stops; memory keeps its contents. -/
def execFreeze (s : State) : Outcome State := .next { s with frozen := true }

/-- The device after a cold reset (R362): as at power-on, but for units replaced or disabled for good (R360) and what the model
itself keeps. -/
def coldState (s : State) : State :=
  { State.reset with agenda := s.agenda, tick := s.tick, replaced := s.replaced, disabled := s.disabled }

/-- COLD_RESET (R354, R362): bring-up starts afresh. -/
def execColdReset (s : State) : Outcome State := .next (coldState s)

/-! ## Errors (R306, R360, R361) -/

/-- The owner of a key index. -/
def ctxOfKey (s : State) (key : Nat) : Option Ctx := s.ctxs.find? fun c => c.keyidx = key && c.state != .destroyed

/-- A team takes a fault of one of its accesses, REMOTE or TIMEOUT (R351, R352) or ECC (R306), wherever it has got to; of a team that
has stopped, retired, been captured or waits for Chandler, nobody takes it (R307). -/
def lateFault (s : State) (t : Nat) (f : FaultInfo) : State :=
  match here s t with
  | none => s
  | some h =>
    match h.tm.status with
    | .running => takeFault s h h.tm f h.tm.pc
    | .parked _ => takeFault s h h.tm f h.tm.pc
    | .blocked .chandler => s
    | .blocked _ => takeFault s h h.tm f h.tm.pc
    | .stopped => s | .captured _ => s | .retired => s

/-- A uniform access, which reports the lane mask M (R127, R207). -/
def isUniformAcc : Instr → Bool
  | .uld .. => true
  | .ust .. => true
  | .ldlat .. => true
  | _ => false

/-- The context that consumed data (R323). -/
def eccCtx (s : State) : EccUse → Option Nat
  | .access t _ _ _ => (here s t).map fun h => h.ke.ctx
  | .issued t _ _ _ => (here s t).map fun h => h.ke.ctx
  | .team t => (here s t).map fun h => h.ke.ctx
  | .command (.matrix core bench) => ((s.bench? core bench).bind fun b => b.queue.head?).map fun c => c.origin.ctx
  | .command p => ((partyEngine p).bind s.engine?).bind fun x => x.queue.head?.map fun c => c.origin.ctx
  | .request _ => none

/-- The consumer of data with an uncorrectable error takes ECC: an access reports its own PC, lanes and address (R121, R149, R308), an
engine context halts (R138), the unit follows R239, and an inbound request is refused with reason 8 (R351), by a device that is
READY (R363). -/
def takeEcc (s : State) : EccUse → State
  | .access t id lanes addr =>
    match (s.teams[t]?).bind fun tm => tm.inflight.find? fun a => a.id = id with
    | some a => lateFault s t (.plain 0x09 a.frame.pc (if lanes = 0 || isUniformAcc a.instr then a.frame.mask else lanes) addr)
    | none => s
  | .issued t pc lanes addr => lateFault s t (.plain 0x09 pc lanes addr)
  | .team t => match s.teams[t]? with
    | some tm => lateFault s t (.plain 0x09 tm.pc tm.active 0)
    | none => s
  | .command (.matrix core bench) => match (s.bench? core bench).bind fun b => b.queue.head?.map fun c => (b, c) with
    | some (b, c) => matrixUnresolved s core bench (matFault s c 0x09 0 b.mprog)
    | none => s
  | .command (.inbound n) => match s.inbound[n]? with
    | some x => refuseSpan { s with inbound := s.inbound.eraseIdx n } x.arrived x.req 8
    | none => s
  | .command p => match (partyEngine p).bind fun e => (s.engine? e).bind fun x => x.queue.head?.map fun c => (e, c) with
    | some (e, c) => engineHalt s e (cmdFault s e c 0x09 0)
    | none => s
  | .request r => if s.boot == .ready then refuseSpan s s.podTime r 8 else s

/-- The data has come back to its consumer: an access that still waits for answers takes ECC, if at all, after REMOTE and TIMEOUT (R121,
R365). -/
def eccBack (s : State) : EccUse → Bool
  | .access t id _ _ => match (s.teams[t]?).bind fun tm => tm.inflight.find? fun a => a.id = id with
    | some a => a.need.isEmpty
    | none => true
  | .issued .. => true | .team _ => true | .command _ => true | .request _ => true

/-- An uncorrectable error (R306, R323, R361): its consumer takes ECC, and the context that owns the data is aborted, with that of the
consumer; in Chandler's own data the device resets. -/
def uncorrectable (s : State) (key : Nat) (use : Option EccUse) : State :=
  if key = 0 then coldState s
  else
    let s1 := (use.map (takeEcc s)).getD s
    let cs := ((ctxOfKey s key).map (·.id)).toList ++ (use.bind (eccCtx s)).toList
    cs.eraseDups.foldl (fun s c => abortCtx s c 0x09) s1

/-- The releaser tags that a home slice holds (R15, R172): those of its lines (log 13). -/
def sliceTags (s : State) (slice : Nat) : List Tag := s.tags.filter fun t => (Config.homeSlice t.line).val == slice
/-- A unit that there is (R13, R15). -/
def unitOk : UnitRef → Bool
  | .row _ _ => true
  | .line slice _ => decide (slice < 256)
  | .l1 core _ => decide (core < 128)
  | .pool core _ => decide (core < 128)
  | .msc _ _ => true
  | .bank core _ => decide (core < 128)
  | .icache core _ => decide (core < 128)
  | .ccache core _ => decide (core < 128)
/-- A unit is disabled (R360): a home slice that goes evicts the lines it holds (R176). -/
def disable (s : State) (u : UnitRef) (dis : Disable) : State :=
  let s1 := match u, dis with
    | .line slice _, .slice => (sliceTags s slice).foldl (fun s (t : Tag) => evictHomeLine s t.line) s
    | _, _ => s
  { s1 with disabled := s1.disabled ++ [(u, dis)], svcQ := s1.svcQ ++ [.test u true false (some dis)] }

/-- ERROR_SELF_TEST (R360): the test's result is logged; a lasting fault takes a spare, or `dis` is disabled where none remains.
`key` is the key index of data with an uncorrectable error, `use` what consumed it, once the data has come back (R121). -/
def execErrorSelfTest (u : UnitRef) (key : Option Nat) (use : Option EccUse) (pass : Bool) (dis : Disable) (s : State) :
    Outcome State :=
  let spare := decide (s.replaced.length < Config.spares)
  let s1 :=
    if pass then { s with svcQ := s.svcQ ++ [.test u false false none] }
    else if spare then { s with replaced := s.replaced ++ [u], svcQ := s.svcQ ++ [.test u true true none] }
    else disable s u dis
  if !unitOk u then .fault .noSuch
  else if !((use.map (eccBack s)).getD true) then .fault .notEnabled
  else match key with
    | some k => .next (uncorrectable s1 k use)
    | none => .next s1

/-! ## Bring-up (R362 to R364) -/

/-- The number of a bring-up state in an attestation answer (log 14). -/
def Boot.code : Boot → Byte
  | .rom => 0 | .listen => 1 | .verify => 2 | .firmware => 3 | .ready => 4

/-- Port 0 carries traffic. -/
def portZeroUp (s : State) : Bool := ((s.uePorts[0]?).map fun p => p.state == .up || p.state == .degraded).getD false

/-- What the service cores do on their own (R362): from ROM to LISTEN once the self-check has passed and port 0 is up at its link-local
address; in VERIFY the signature decides. -/
def bootStep (s : State) : Option State :=
  match s.boot with
  | .rom =>
    if Config.romSelfCheck && portZeroUp s then some { s with boot := .listen, cfg := { s.cfg with ports := [⟨0, [Config.linkLocal]⟩] } }
    else none
  | .verify =>
    if Config.sigValid s.image then some { s with boot := .firmware, fwHash := some (Config.hash s.image) }
    else some { s with boot := .listen, image := [] }
  | .listen => none | .firmware => none | .ready => none

/-- FIRMWARE_IMAGE (R362): received in LISTEN; in every other state it is refused. -/
def execFirmwareImage (image : List Byte) (s : State) : Outcome State :=
  if s.boot == .listen then .next { s with boot := .verify, image := image } else .next s

/-- The fields of a configuration record lie in their ranges: TSLICE 10 to 100,000 µs (R299), HTHRESH 1 to 65,535 (R340). -/
def configOk (c : ConfigRec) : Bool :=
  decide (10 ≤ c.tslice) && decide (c.tslice ≤ 100000) && decide (1 ≤ c.hthresh) && decide (c.hthresh ≤ 65535)
/-- The fields of a configuration record take effect (R363). -/
def applyConfig (s : State) (c : ConfigRec) : State :=
  { s with cfg := c, slots := s.slots.map fun x => { x with tslice := c.tslice }
           hthresh := s.hthresh.map fun _ => BitVec.ofNat 16 c.hthresh }

/-- CONFIGURATION_RECORD (R363): in FIRMWARE, a record whose signature verifies under the owner key that the image names makes the
device READY, with the fields that the signed bytes carry; every other record is answered as refused. -/
def execConfigurationRecord (record signature : List Byte) (s : State) : Outcome State :=
  let c := Config.readConfig record
  if s.boot == .firmware && Config.ownerSigned s.image record signature && configOk c then
    let s1 := applyConfig s c
    .next { s1 with boot := .ready, cfgHash := some (Config.hash record), ueOut := s1.ueOut ++ [.config true] }
  else .next { s with ueOut := s.ueOut ++ [.config false] }

/-- The fields of an attestation answer (R364): nonce, hashes and bring-up state; a hash that does not exist yet is zero (log 14). -/
def attestBody (s : State) (nonce : W64) : List Byte :=
  bytesOf 8 nonce.toNat ++ bytesOf 48 Config.romHash.toNat ++ bytesOf 48 (s.fwHash.getD 0).toNat ++ bytesOf 48 (s.cfgHash.getD 0).toNat
    ++ [s.boot.code]
/-- The attestation answer (R364), signed under the identity key. -/
def attestAnswer (s : State) (nonce : W64) : UePkt :=
  .attest nonce Config.romHash (s.fwHash.getD 0) (s.cfgHash.getD 0) s.boot.code (Config.sign (attestBody s nonce))

/-- ATTESTATION_REQUEST (R364). -/
def execAttestationRequest (nonce : W64) (s : State) : Outcome State := .next { s with ueOut := s.ueOut ++ [attestAnswer s nonce] }

end Sys2Proof.Machine
end

