-- ==== Sys2Proof/Machine/Links.lean ====
section
/-! DEFINITION. The links: RMA and requests over Ultra Ethernet, fabric requests and answers over Span, and the ports
(spec/24_link_lifecycle.md R346 to R353, R365). -/
namespace Sys2Proof.Machine

/-! ## RMA (R346) -/

/-- Why an RMA access is refused, if it is (R346). -/
def rmaReason (s : State) (ctx : Nat) (va : W64) (n : Nat) (write tss : Bool) : Option Byte :=
  let at_ (r : RmaRegion) : Bool := r.ctx = ctx && decide (r.base.toNat ≤ va.toNat) && decide (va.toNat < r.base.toNat + r.len)
  let rights (r : RmaRegion) : Bool := if write then r.write else r.read
  let fits (r : RmaRegion) : Bool := decide (va.toNat + n ≤ r.base.toNat + r.len)
  if !tss then some 4
  else if !s.regions.any at_ then some 1
  else if !s.regions.any fun r => at_ r && rights r then some 2
  else if !s.regions.any fun r => at_ r && rights r && fits r then some 3
  else none

/-- A refused RMA access (R346): the error answer and a record on Chandler's service queue. -/
def rmaRefuse (s : State) (sess : Nat) (flow : RmaFlow) (ctx : Nat) (va : W64) (n : Nat) (why : Byte) : State :=
  { s with ueOut := s.ueOut ++ [.error sess], svcQ := s.svcQ ++ [.rma s.podTime flow.src flow.label ctx va n why] }

/-- What the device answers only once it is READY (R363); before that nothing happens. -/
def whenUp (s : State) (k : Outcome State) : Outcome State := if s.boot == .ready then k else .next s

/-- The physical addresses of the bytes of a range in local memory; none where a page is not mapped there (log 11). The walks acquire
the entries that they read (R327). -/
def rmaPlaces (s : State) (c : Ctx) (va : W64) (n : Nat) : State × Option (List Nat) :=
  (rangePieces va n).foldl (fun (acc : State × Option (List Nat)) p =>
    if !ordinary p.va then (acc.1, none)
    else
      let r := walkFor acc.1 none c.ptroot.toNat p.va
      match acc.2, r.2 with
      | some l, .ok x =>
        (r.1, if pteTier x.pte == 2 then none else some (l ++ (List.range p.size).map fun i => leafPa x p.va + i))
      | _, _ => (r.1, none)) (s, some [])
/-- The answer to an RMA access of a registered range whose bytes lie at physical addresses; an error where they do not, and of a
destroyed context, which has no page table (R324). -/
def rmaServe (sess : Nat) (ctx : Nat) (va : W64) (n : Nat) (s : State) (k : Ctx → List Nat → State → State × UePkt) : State :=
  match (s.ctx? ctx).filter fun c => c.state != .destroyed with
  | none => { s with ueOut := s.ueOut ++ [.error sess] }
  | some c =>
    let r := rmaPlaces s c va n
    let q := match r.2 with
      | some l => k c l r.1
      | none => (r.1, .error sess)
    { q.1 with ueOut := q.1.ueOut ++ [q.2] }

/-- RMA_WRITE (R346, R295): performed at home, with what that sets off; a TAIL write is one. -/
def execRmaWrite (sess : Nat) (flow : RmaFlow) (ctx : Nat) (va : W64) (bytes : List Byte) (tss : Bool) (s : State) :
    Outcome State :=
  whenUp s <| match rmaReason s ctx va bytes.length true tss with
  | some why => .next (rmaRefuse s sess flow ctx va bytes.length why)
  | none => .next (rmaServe sess ctx va bytes.length s fun c l s => (homeWrite s c.keyidx (l.zip bytes), .done sess))

/-- RMA_READ (R346): read at home, through the memory-side caches (R339). -/
def execRmaRead (sess : Nat) (flow : RmaFlow) (ctx : Nat) (va : W64) (len : Nat) (tss : Bool) (s : State) :
    Outcome State :=
  whenUp s <| match rmaReason s ctx va len false tss with
  | some why => .next (rmaRefuse s sess flow ctx va len why)
  | none => .next (rmaServe sess ctx va len s fun _ l s =>
      (mscReads s ((l.map lineOf).eraseDups), .data sess (l.map fun pa => sget s.mem pa)))

/-! ## Requests to Chandler (R347) -/

/-- Statuses of an answer (log 14): done, refused, DUPLICATE. -/
def stDone : Byte := 0
/-- The request was refused. -/
def stRefused : Byte := 1
/-- The request number is older than the stored answers. -/
def stDuplicate : Byte := 2

/-- The outcome of an event as the answer to the request that asked for it. -/
def asAnswer (s : State) : Outcome State → State × Byte × List Byte
  | .next s1 => (s1, stDone, [])
  | .fault _ => (s, stRefused, [])
  | .refused _ => (s, stRefused, [])

/-- The state of a session, as its answer gives it: last accepted RSEQ and the gap. -/
def sessionBytes (x : Session) : List Byte := bytesOf 8 x.last.toNat ++ bytesOf 8 x.gapFirst.toNat ++ bytesOf 8 x.gapCnt.toNat

/-- The lane-cycle record as an answer gives it: its counters by range and class, and IDLE (R358; the order is log 14's). -/
def laneBytes (counts : Sparse 48) (idle : BitVec 48) : List Byte :=
  (List.range 64).flatMap (fun i => bytesOf 6 (sget counts i).toNat) ++ bytesOf 6 idle.toNat

/-- Does what a request asks (R347). -/
def chPerform (s : State) (x : Session) (r : ChReq) : State × Byte × List Byte :=
  match r with
  | .create c => asAnswer s (execContextCreate c s)
  | .enable ctx q => asAnswer s (execQueueEnable ctx q s)
  | .clearHalt ctx qn => match s.queueCtx ctx qn with
      | some (c, q) => (qflagClear s c q qflagHalt, stDone, [])
      | none => (s, stRefused, [])
  | .abort ctx => asAnswer s (execContextAbort ctx 0xFF s)
  | .destroy ctx => asAnswer s (execContextDestroy ctx s)
  | .register g => match (s.ctx? g.ctx).filter fun c => c.state != .destroyed with
      | some _ => ({ s with regions := s.regions ++ [g] }, stDone, [])
      | none => (s, stRefused, [])
  | .comparator ctx i addr ctl pod =>
      if ctlOk ctl then asAnswer s (execComparatorWrite ctx i addr ⟨ctl, pod⟩ s) else (s, stRefused, [])
  | .ranges ctx rs => match s.ctx? ctx with
      | some c => if rs.length ≤ 16 then (s.setCtx { c with ranges := rs }, stDone, []) else (s, stRefused, [])
      | none => (s, stRefused, [])
  | .resume ctx => asAnswer s (execContextResume ctx s)
  | .laneCycles core bench => match s.bench? core bench with
      | some b => let r := laneRead s core bench b
                  (r.1, stDone, laneBytes b.counts r.2)
      | none => (s, stRefused, [])
  | .freeze => asAnswer s (execFreeze s)
  | .attest nonce => (s, stDone, attestBody s nonce ++ Config.sign (attestBody s nonce))
  | .session => (s, stDone, sessionBytes x)
  | .faultHead ctx head => match s.ctx? ctx with
      | some c => (flushHeld (c.held.length + 1) (s.setCtx { c with fhead := head }) ctx, stDone, [])
      | none => (s, stRefused, [])

/-- A request that the device answers before it is READY (R363). -/
def chEarly : ChReq → Bool
  | .attest _ => true
  | _ => false

/-- The session of a number; a new one starts at RSEQ 0. -/
def sessionOf (s : State) (id : Nat) : Session := (s.sessions.find? fun x => x.id = id).getD ⟨id, 0, 0, 0, []⟩
/-- Replaces a session. -/
def setSession (s : State) (x : Session) : State := { s with sessions := x :: s.sessions.filter fun y => y.id != x.id }

/-- The session after a new request number (R347, R302): a gap is recorded, and the last 64 answers are kept. -/
def Session.accept (x : Session) (rseq : W64) (status : Byte) (bs : List Byte) : Session :=
  let gap := rseq.toNat - x.last.toNat - 1
  { x with last := rseq
           gapFirst := if gap != 0 && x.gapCnt = 0 then x.last + 1 else x.gapFirst
           gapCnt := x.gapCnt + BitVec.ofNat 64 gap
           answers := ((rseq, status, bs) :: x.answers).take 64 }

/-- CHANDLER_REQUEST (R347, R363). A request that has failed its transport security check is answered with an error and not executed
(R346); before the device is READY it answers attestation alone. -/
def execChandlerRequest (sess : Nat) (rseq : W64) (msg : ChMsg) (s : State) : Outcome State :=
  if s.boot != .ready && !chEarly msg.req then .next s
  else if !msg.tss then .next { s with ueOut := s.ueOut ++ [.error sess] }
  else
    let x := sessionOf s sess
    let answer (s : State) (st : Byte) (bs : List Byte) : State := { s with ueOut := s.ueOut ++ [.answer sess rseq st bs] }
    if x.last < rseq then
      let r := chPerform s x msg.req
      .next (answer (setSession r.1 (x.accept rseq r.2.1 r.2.2)) r.2.1 r.2.2)
    else match x.answers.find? fun a => a.1 = rseq with
      | some a => .next (answer s a.2.1 a.2.2)
      | none => .next (answer s stDuplicate [])

/-! ## Answers, refusals and deadlines (R352, R365) -/

/-- The request of a tag. -/
def reqOf (s : State) (tag : BitVec 16) : Option Req := s.reqs.find? fun r => r.tag = tag.toNat
/-- The request ends. -/
def dropReq (s : State) (tag : Nat) : State := { s with reqs := s.reqs.filter fun r => r.tag != tag }

/-- A forwarded write of a die's copy has ended (R184, R185): with the last one the written bytes are part of the clean copy. A read of the
line that is open still may be answered without them (R170). -/
def confirmCopy (s : State) (die line : Nat) : State :=
  match dieFind s die line with
  | none => s
  | some c =>
    if c.unsent ≤ 1 then
      closeFills (diePut s { c with unsent := 0, full := c.full.map fun d => ssetAll d c.written, written := [] }) die fun l => l == line
    else diePut s { c with unsent := c.unsent - 1 }
/-- A forwarded write of a die's copy was refused (R365): it is not performed, so its bytes go, but for those that other writes still
forward, and the line is read again. -/
def loseCopy (s : State) (r : Req) : State :=
  let die := dieOf r.core
  let line := lineOf r.pa
  match dieFind s die line with
  | none => s
  | some c =>
    let span (x : Req) (o : Nat) : Bool := decide (x.pa % 128 ≤ o) && decide (o < x.pa % 128 + x.forward)
    let others := s.reqs.filter fun x => x.forward != 0 && dieOf x.core = die && lineOf x.pa = line
    let kept := c.written.filter fun p => !(span r p.1 && !others.any fun x => span x p.1)
    diePut s { c with full := none, written := if c.unsent ≤ 1 then [] else kept, unsent := c.unsent - 1 }
/-- A whole line arrives in a die's copy, tagged with the importing context's key index (R184, R322). -/
def fillCopy (s : State) (die line key : Nat) (bytes : List Byte) : State :=
  let c := (dieFind s die line).getD ⟨die, line, key, none, [], 0⟩
  diePut s { c with full := some (ssetAll [] (bytes.mapIdx fun i b => (i, b))) }

/-- The access acquires (R173, R185): the acquire form of a load, or `atomar`. -/
def acquiring : Instr → Bool
  | .ld _ _ _ _ _ .sync => true
  | .uld _ _ _ _ _ .sync => true
  | .atomar .. => true
  | _ => false

/-- The clearings that the answer to a read-modify-write of an acquiring access counts behind the lanes' values (R204). -/
def answerClears (r : Req) (bytes : List Byte) : Nat :=
  if r.elem = 0 then 0 else (bytes.getD ((lanesOf r.lanes).length * r.elem) 0).toNat
/-- The acquire of an access whose imported value has come: at POD scope it discards the die's clean copies of its page, and the
core self-invalidates. A clearing that it ordered at the exporter counts in CLEARS (R174, R204). -/
def answerAcquire (s : State) (r : Req) (t id : Nat) (bytes : List Byte) : State :=
  match here s t with
  | some h => match h.tm.inflight.find? fun a => a.id = id with
    | some a =>
      if !acquiring a.instr || a.frame.mode.sc = .core then s
      else
        let s1 := addClears s h (answerClears r bytes)
        if a.frame.mode.sc = .pod then acquirePage s1 r.core h.asid (r.pa / 65536) else selfInvalidate s1 r.core h.asid
    | none => s
  | none => s

/-- The writes of the lanes outside `bad`: those whose requests were all answered. A uniform load that failed writes nothing. -/
def Writes.answered (w : Writes) (bad : Mask) : Writes :=
  { Writes.none with v := w.v.filter fun p => !bad.getLsbD (p.1 % 1024), p := w.p.map fun p => (p.1, p.2.1 &&& ~~~bad, p.2.2) }

/-- The request of a list that was sent first for its lowest lane: its address (R365). -/
def firstAddr (next : BitVec 16) (l : Nat) (rs : List (Nat × Mask × W64)) : W64 :=
  let on := rs.filter fun r => r.2.1.getLsbD l
  let age (r : Nat × Mask × W64) : Nat := (BitVec.ofNat 16 r.1 - next : BitVec 16).toNat
  ((on.find? fun r => on.all fun q => decide (age r ≤ age q)).map fun r => r.2.2).getD ((rs.head?.map fun r => r.2.2).getD 0)

/-- REMOTE or TIMEOUT of an access whose requests have all ended (R365): the mask holds the lanes that took it, and the loaded
values of the other lanes may have landed. -/
def accessFault (s : State) (t : Nat) (a : InFlight) : State :=
  let remote := !a.nacked.isEmpty
  let rs := if remote then a.nacked else a.late
  let lanes := rs.foldl (fun m r => m ||| r.2.1) (0 : Mask)
  let bad := (a.nacked ++ a.late).foldl (fun m r => m ||| r.2.1) (0 : Mask)
  let bytes := a.bytes.map fun b => match b with
    | .known x => x
    | .hole _ _ => 0
  let w := (if a.bytes.isEmpty then a.writes else a.value bytes).answered bad
  let a1 := { a with bytes := [], writes := w, nacked := [], late := [], seen := none }
  let s1 := s.modTeam t fun tm => { tm with inflight := tm.inflight.map fun x => if x.id = a.id then a1 else x }
  let low := ((lanesOf lanes).head?).getD 0
  let f : FaultInfo := .plain (if remote then 0x07 else 0x08) a.frame.pc (if lanes = 0 || isUniformAcc a.instr then a.frame.mask else lanes) (firstAddr s.nextTag low rs)
  lateFault s1 t f

/-- An access has acted in every lane: what the comparators have seen of it takes effect (R313, R356). -/
def accessSeen (s : State) (t : Nat) (a : InFlight) (x : Seen) : State :=
  let s1 := s.modTeam t fun tm => { tm with inflight := tm.inflight.map fun y => if y.id = a.id then { y with seen := none } else y }
  let s2 := match here s1 t with
    | some h => haltBy s1 h.cx x.halts a.frame.pc 0
    | none => s1
  match x.hit with
  | some x => lateFault s2 t (.plain 0x11 a.frame.pc (((s2.teams[t]?).map x.mask).getD x.report) x.addr)
  | none => s2

/-- Changes the access of a request's team; when its last request has ended, a fault is taken if one failed, and else what the
comparators have seen takes effect. -/
def onAccess (s : State) (t id : Nat) (f : InFlight → InFlight) : State :=
  let s1 := s.modTeam t fun tm => { tm with inflight := tm.inflight.map fun a => if a.id = id then f a else a }
  match (s1.teams[t]?).bind fun tm => tm.inflight.find? fun a => a.id = id with
  | some a =>
    if !a.need.isEmpty then s1
    else if !(a.nacked.isEmpty && a.late.isEmpty) then accessFault s1 t a
    else match a.seen with
      | some x => accessSeen s1 t a x
      | none => s1
  | none => s1

/-- The engine or unit no longer waits for a request; an engine keeps what it has read at the exporter's home (R179). -/
def engineAnswered (s : State) (e : EngRef) (r : Req) (bytes : List Byte) : State :=
  match e with
  | .matrix core bench => s.modBench core bench fun b => { b with need := b.need.filter fun g => g != r.tag }
  | e => s.modEngine e fun x =>
      { x with need := x.need.filter fun g => g != r.tag, got := if bytes.isEmpty then x.got else x.got ++ [(r.pa, bytes)] }

/-- A request of an engine or unit fails (R138, R239): REMOTE or TIMEOUT of the command that waits for it. -/
def engineFailed (s : State) (e : EngRef) (r : Req) (code : Byte) : State :=
  match e with
  | .matrix core bench =>
    match s.bench? core bench with
    | some b => match b.queue.head? with
      | some c => if b.need.contains r.tag then matrixUnresolved s core bench (matFault s c code r.va b.mprog) else s
      | none => s
    | none => s
  | e => match s.engine? e with
    | some x => match x.queue.head? with
      | some c => if x.need.contains r.tag then engineHalt s e (cmdFault s e c code r.va) else s
      | none => s
    | none => s

/-- A request that forwarded bytes of a plain store has ended, with `x` if it failed. The store takes one fault once all have: REMOTE
where one was refused, else TIMEOUT (R365). The store is known by its team, PC and the tick of its execution. -/
def forwardEnded (s : State) (t tick : Nat) (pc : W64) (x : List Lost) : State :=
  let s1 := s.modTeam t fun tm => { tm with lost := tm.lost ++ x }
  let mine (y : Lost) : Bool := y.pc == pc && y.tick == tick
  let failed := (((s1.teams[t]?).map (·.lost)).getD []).filter mine
  if failed.isEmpty || s1.reqs.any fun r => r.owner = .forward t tick pc then s1
  else
    let remote := failed.any (·.remote)
    let rs := (failed.filter fun y => y.remote == remote).map fun y => (y.tag, y.lanes, y.va)
    let lanes := rs.foldl (fun m r => m ||| r.2.1) (0 : Mask)
    lateFault (s1.modTeam t fun tm => { tm with lost := tm.lost.filter fun y => !mine y }) t
      (.plain (if remote then 0x07 else 0x08) pc lanes (firstAddr s1.nextTag (((lanesOf lanes).head?).getD 0) rs))

/-- A clean copy that a core's L1 holds of an imported line becomes what the die holds (R170). -/
def l1Renew (s : State) (core line : Nat) : State :=
  match (s.cores[core]?).bind fun c => l1Find c line, fillData s core line with
  | some x, some d => if x.clean.isSome then s.modCore core fun c => l1Put c { x with clean := some d } else s
  | _, _ => s
/-- A line has been read at its exporter's home for a team, a matrix unit or a prefetch (R184). The copies that die and core hold are
from then on no older than what was read (R170): the line becomes the die's copy, which answers to other requests that are still open
do not replace, and where the copy was discarded meanwhile none is left. -/
def answerRead (s : State) (r : Req) (bytes : List Byte) : State :=
  let die := dieOf r.core
  let line := lineOf r.pa
  if r.fill then
    let s1 := fillCopy s die line r.key bytes
    l1Renew (closeFills s1 die fun l => l == line) r.core line
  else dropClean (dieDrop s die fun l => l == line) r.core fun x => x.line == line
/-- What the answer to a request leaves in the die and the core (R184, R221): a confirmed write is part of the copy, a line that was
read is one, and what was held of an element that the exporter has changed goes. -/
def answerCopy (s : State) (r : Req) (bytes : List Byte) : State :=
  if r.forward != 0 then confirmCopy s (dieOf r.core) (lineOf r.pa)
  else if r.elem != 0 then dropElem s r.core r.pa r.elem
  else if r.owner.atHome then s
  else answerRead s r bytes

/-- SPAN_RESPONSE (R184, R352): the answer to a request; one that comes after the deadline is dropped. -/
def execSpanResponse (tag : BitVec 16) (bytes : List Byte) (s : State) : Outcome State :=
  match reqOf s tag with
  | none => .next s
  | some r =>
    if r.deadline < s.podTime then .next s
    else
      let s1 := dropReq s r.tag
      match r.owner with
      | .team t id => .next (onAccess (answerCopy (answerAcquire s1 r t id bytes) r bytes) t id fun a => a.answer r.tag bytes)
      | .engine e => .next (engineAnswered (answerCopy s1 r bytes) e r bytes)
      | .forward t tick pc => .next (forwardEnded (answerCopy s1 r bytes) t tick pc [])
      | .prefetch asid priv l1 =>
        let s2 := answerCopy s1 r bytes
        .next (if l1 && r.fill then fillLine s2 r.core asid priv (lineOf r.pa) else s2)

/-- A request fails (R365): refused, or without an answer by its deadline. A prefetch is dropped (R135). -/
def requestFailed (s : State) (r : Req) (remote : Bool) : State :=
  let s1 := dropReq s r.tag
  let s2 := if r.forward = 0 then s1 else if remote then loseCopy s1 r else confirmCopy s1 (dieOf r.core) (lineOf r.pa)
  let x := (r.tag, r.lanes, r.va)
  match r.owner with
  | .team t id => onAccess s2 t id fun a =>
      { a with need := a.need.filter fun g => g != r.tag
               nacked := if remote then a.nacked ++ [x] else a.nacked
               late := if remote then a.late else a.late ++ [x] }
  | .engine e => engineFailed s2 e r (if remote then 0x07 else 0x08)
  | .forward t tick pc => forwardEnded s2 t tick pc [⟨pc, tick, r.tag, remote, r.lanes, r.va⟩]
  | .prefetch .. => s2

/-- NACK_RECEIVED (R351, R352, R365): one that comes after the deadline is dropped. -/
def execNackReceived (tag : BitVec 16) (s : State) : Outcome State :=
  match reqOf s tag with
  | none => .next s
  | some r => if r.deadline < s.podTime then .next s else .next (requestFailed s r true)

/-- REQUEST_DEADLINE (R352, R365): the pod time has reached the deadline of a request without an answer. -/
def execRequestDeadline (tag : BitVec 16) (s : State) : Outcome State :=
  match reqOf s tag with
  | none => .fault .noSuch
  | some r => if r.deadline ≤ s.podTime then .next (requestFailed s r false) else .fault .notEnabled

/-! ## Packets and flits (R348) -/

/-- SPAN_REQUEST (R351): a device that is not READY answers none (R363). -/
def execSpanRequest (r : SpanReq) (s : State) : Outcome State := whenUp s (.next (spanServe s s.podTime r))

/-- The kind of a request in its header: read, write or atomic (R348, log 14). -/
def opKind : FabricOp → Nat
  | .read _ => 0 | .write _ => 1 | .engine _ => 1
  | .atomic .. => 2 | .cas .. => 2 | .splat .. => 2 | .shadow _ => 2 | .settle .. => 2 | .settleTake => 2 | .settleAdd .. => 2
/-- The kind of a packet in its header (R348). -/
def packetKind : SpanIn → Nat
  | .request r => opKind r.op | .response .. => 3 | .nack _ => 4
/-- The first 24 bits of a packet: type, destination module and source module (R348). -/
def packetHead (bytes : List Byte) : Nat := natOf (bytes.take 3)
/-- A packet that port `p` has received, as its header names it (R348): a request comes from the source module of bits 23:14 on plane
`p`; one whose type is not that of its kind is none. -/
def packetFrom (p : Fin 16) (bytes : List Byte) (x : SpanIn) : Option SpanIn :=
  if BitVec.ofNat 4 (packetHead bytes) != Config.headerType (packetKind x) then none
  else match x with
    | .request r => some (.request { r with plane := p, src := BitVec.ofNat 10 (packetHead bytes / 2 ^ 14) })
    | .response tag bs => some (.response tag bs)
    | .nack tag => some (.nack tag)

/-- What a packet that has been received does (R348). -/
def packetIn (s : State) (p : SpanIn) : State :=
  let o := match p with
    | .request r => execSpanRequest r s
    | .response tag bytes => execSpanResponse tag bytes s
    | .nack tag => execNackReceived tag s
  match o with
  | .next t => t
  | .fault _ => s
  | .refused _ => s

/-- The packets that stand whole in a port's stream, at most `n` of them, leave it and take effect. -/
def takePackets : Nat → State → Fin 16 → State
  | 0, s, _ => s
  | n + 1, s, p =>
    match (s.spanPorts[p.val]?).bind fun x => (Config.readPacket x.received).map fun y => (x, y) with
    | none => s
    | some (x, k, pkt) =>
      let s1 := { s with spanPorts := s.spanPorts.set p.val { x with received := x.received.drop k } }
      takePackets n (match packetFrom p x.received pkt with
        | some q => packetIn s1 q
        | none => s1) p

/-- The bytes of a flit that its CRC covers. -/
def flitBytes (payload : List Byte) (fseq : BitVec 12) (vc : Fin 4) : List Byte := payload ++ bytesOf 2 (fseq.toNat * 16 + vc.val)

/-- FLIT_RECEIVED (R348): a flit in sequence whose CRC holds adds its payload to the packet stream; every other one is replayed. -/
def execFlitReceived (p : Fin 16) (f : Flit) (s : State) : Outcome State :=
  match s.spanPorts[p.val]? with
  | none => .fault .noSuch
  | some x =>
    let live := x.state == .up || x.state == .degraded || x.state == .draining
    if !live || f.payload.length != 60 then .fault .notEnabled
    else if Config.crc16 (flitBytes f.payload f.fseq f.vc) = f.crc && f.fseq = x.rxSeq then
      let y : Port := { x with rxSeq := x.rxSeq + 1, received := x.received ++ f.payload }
      .next (takePackets y.received.length { s with spanPorts := s.spanPorts.set p.val y } p)
    else .next { s with spanPorts := s.spanPorts.set p.val { x with replays := x.replays + 1 } }

/-- The 16-byte header of a packet (R348): type, destination and source module in bits 23:0, and the rest, whose places are not given
(log 14). -/
def headerBytes (kind : Nat) (dst : BitVec 10) (index : BitVec 12) (off : BitVec 29) (tag : BitVec 16) (deadline : W64) : List Byte :=
  bytesOf 16 ((Config.headerType kind).toNat + dst.toNat * 2 ^ 4 + Config.moduleNo.toNat * 2 ^ 14
    + (Config.headerRest index off tag deadline).toNat * 2 ^ 24)

/-- The port and the bytes of packet `n` of those sent: requests, answers and refusals; of the other messages the spec gives no form
(log 14). -/
def packetOf (n : Nat) : SpanPkt → Option (Fin 16 × List Byte)
  | .request dst _ r => some (r.plane, headerBytes (opKind r.op) dst r.index r.off r.tag r.deadline ++ Config.requestBody r.key r.op)
  | .response dst tag bytes => some (Config.replyPlane n, headerBytes 3 dst 0 0 tag 0 ++ bytes)
  | .nack dst tag => some (Config.replyPlane n, headerBytes 4 dst 0 0 tag 0)
  | .invalidate .. => none | .invalidateAll .. => none | .ack .. => none | .halt _ => none | .barrier .. => none

/-- Bytes cut into payloads of 60 bytes, the last filled up with zeros; `n` bounds how many. -/
def payloads : Nat → List Byte → List (List Byte)
  | 0, _ => []
  | n + 1, bs => if bs.isEmpty then [] else (bs.take 60 ++ List.replicate (60 - bs.length) 0) :: payloads n (bs.drop 60)

/-- A payload goes out on a port as a flit, which the replay buffer keeps among the last 512 (R348). -/
def sendFlit (p : Fin 16) (s : State) (payload : List Byte) : State :=
  match s.spanPorts[p.val]? with
  | none => s
  | some x =>
    let f : Flit := ⟨payload, x.txSeq, 0, Config.crc16 (flitBytes payload x.txSeq 0)⟩
    { s with spanPorts := s.spanPorts.set p.val { x with txSeq := x.txSeq + 1, replay := (f :: x.replay).take 512 }
             flitsOut := s.flitsOut ++ [(p, f)] }

/-- The next packet of the module for a port goes out in flits (R348). -/
def transmit (s : State) (p : Fin 16) : State :=
  match s.spanPorts[p.val]? with
  | none => s
  | some x =>
    if x.state == .down || x.state == .training || x.state == .faulted then s
    else match ((s.spanOut.zipIdx.filterMap fun y => packetOf y.2 y.1).filter fun y => y.1 = p).drop x.sent with
      | [] => s
      | y :: _ =>
        let s1 := { s with spanPorts := s.spanPorts.set p.val { x with sent := x.sent + 1 } }
        (payloads (y.2.length / 60 + 1) y.2).foldl (sendFlit p) s1
/-- The peer of a port asks for a flit again: it and those after it are sent from the replay buffer (R348). -/
def replayFrom (s : State) (p : Fin 16) (fseq : BitVec 12) : State :=
  match s.spanPorts[p.val]? with
  | none => s
  | some x =>
    let kept := x.replay.takeWhile fun f => f.fseq != fseq
    let again := (x.replay.take (kept.length + 1)).reverse
    if kept.length = x.replay.length then s else { s with flitsOut := s.flitsOut ++ again.map fun f => (p, f) }

/-! ## Ports (R353) -/

/-- A port. -/
def State.port? (s : State) : PortRef → Option Port
  | .ue p => s.uePorts[p.val]?
  | .span p => s.spanPorts[p.val]?
/-- Replaces a port; a change of state is reported to Chandler's service queue. -/
def setPort (s : State) (p : PortRef) (old new : Port) : State :=
  let s1 := match p with
    | .ue i => { s with uePorts := s.uePorts.set i.val new }
    | .span i => { s with spanPorts := s.spanPorts.set i.val new }
  if old.state = new.state then s1 else { s1 with svcQ := s1.svcQ ++ [.port p new.state] }
/-- Moves a port by an event that may leave it unchanged. -/
def onPort (s : State) (p : PortRef) (f : Port → Port) : Outcome State :=
  match s.port? p with
  | none => .fault .noSuch
  | some x => .next (setPort s p x (f x))

/-- The port carries traffic. -/
def Port.carries (x : Port) : Bool := x.state == .up || x.state == .degraded

/-- PORT_ENABLE (R353): by Chandler; port 0 comes up during bring-up, by the ROM (R362), no other port before READY. -/
def execPortEnable (p : PortRef) (s : State) : Outcome State :=
  if s.boot != .ready && p != .ue 0 then .next s
  else onPort s p fun x => if x.state == .down then { x with state := .training, attempts := 0 } else x

/-- TRAINING_END (R353): `lanes` of the eight lanes have trained within 200 ms. -/
def execTrainingEnd (p : PortRef) (lanes : Nat) (s : State) : Outcome State :=
  onPort s p fun x =>
    if x.state != .training then x
    else if lanes = 8 then { x with state := .up, lanes := 8 }
    else if lanes = 7 then { x with state := .degraded, lanes := 7 }
    else if x.attempts + 1 = 3 then { x with state := .faulted, attempts := 3 }
    else { x with attempts := x.attempts + 1 }

/-- LANE_LOSS (R353). -/
def execLaneLoss (p : PortRef) (s : State) : Outcome State :=
  onPort s p fun x =>
    match x.state with
    | .up => { x with state := .degraded, lanes := 7 }
    | .degraded => { x with state := .faulted }
    | .down => x | .training => x | .draining => x | .faulted => x

/-- REPLAY_THRESHOLD (R353). -/
def execReplayThreshold (p : PortRef) (s : State) : Outcome State :=
  onPort s p fun x => if x.carries then { x with state := .faulted } else x

/-- PORT_DRAIN (R353). -/
def execPortDrain (p : PortRef) (s : State) : Outcome State :=
  chandler s <| onPort s p fun x => if x.carries then { x with state := .draining } else x

/-- A request sent on the port has no end yet. -/
def portBusy (s : State) : PortRef → Bool
  | .ue _ => false
  | .span i => s.reqs.any fun r => r.port = i.val

/-- DRAIN_COMPLETE (R353): every request sent on the port has been answered or has timed out. -/
def execDrainComplete (p : PortRef) (s : State) : Outcome State :=
  if portBusy s p then .fault .notEnabled
  else onPort s p fun x => if x.state == .draining then { x with state := .down } else x

/-- PORT_RESET (R353): by Chandler. -/
def execPortReset (p : PortRef) (s : State) : Outcome State :=
  chandler s <| onPort s p fun x => if x.state == .faulted then { x with state := .down } else x

end Sys2Proof.Machine
end

