-- ==== Sys2Proof/Machine/Fetch.lean ====
section
/-! DEFINITION. What a step does before an instruction or an event acts: which team issues next (spec/07_issue_and_deferring.md
R150), how its instruction is fetched (spec/03_encoding.md R29 to R31), and which events may happen on their own. -/
namespace Sys2Proof.Machine

/-! ## Which team issues (R150) -/

/-- The team's oldest residue may run now (R160). -/
def residueMay (s : State) (h : Here) : Bool :=
  residueDue h.tm && match execResidueRun h.t s with
    | .next _ => true
    | .fault _ => false
    | .refused _ => false
/-- A team is ready (R150): its oldest residue may run, passes of its last instruction are left (R151), or its next instruction
may issue. -/
def isReady (s : State) (h : Here) : Bool :=
  h.ga.resident && (!h.tm.owed.isEmpty || residueMay s h || canIssue s h.t h.tm)
/-- The teams that are ready now. -/
def readyTeams (s : State) : List Here :=
  (List.range s.teams.length).filterMap fun t => (here s t).bind fun h => if isReady s h then some h else none

/-- Two teams share a bench. -/
def sameBench (a b : Here) : Bool := a.core == b.core && a.bench == b.bench
/-- Passes that the team's bench has issued. -/
def Here.issued (s : State) (h : Here) : Nat := ((s.bench? h.core h.bench).map fun (b : Bench) => b.issued).getD 0
/-- The priority of a ready team (R150): the launch priority, or the highest where it has waited 32 × (n − 1) passes since it
last issued or became ready, for the n ready teams of its bench. -/
def rankOf (s : State) (n : Nat) (h : Here) : Nat :=
  if 32 * (n - 1) ≤ h.issued s - max h.tm.age h.tm.since then 8 else h.ke.launch.prio
/-- The team goes before another of its bench (R150): higher priority, then the one that has issued least recently. -/
def issuesBefore (s : State) (n : Nat) (a b : Here) : Bool :=
  let ra := rankOf s n a
  let rb := rankOf s n b
  if ra != rb then decide (rb < ra)
  else if a.tm.age != b.tm.age then decide (a.tm.age < b.tm.age)
  else decide (a.t < b.t)

/-- The team that a bench issues next among ready ones. -/
def benchPick (s : State) (hs : List Here) (core bench : Nat) : Option Here :=
  let on := hs.filter fun h => h.core = core && h.bench = bench
  on.find? fun a => on.all fun b => a.t = b.t || issuesBefore s on.length a b

/-- The team that issues next (log 1): the pick of the bench that has issued the fewest passes. -/
def pickTeam (s : State) : Option Here :=
  let hs := readyTeams s
  let picks := hs.filter fun h => (benchPick s hs h.core h.bench).map (·.t) = some h.t
  picks.find? fun a => picks.all fun b => decide (a.issued s ≤ b.issued s)

/-- After a turn of a bench, the wait of its teams that are not ready begins anew (R150). -/
def afterTurn (core bench : Nat) (s : State) : State :=
  let n := ((s.bench? core bench).map fun (b : Bench) => b.issued).getD 0
  { s with teams := s.teams.mapIdx fun t tm => match here s t with
      | some h => if h.core = core && h.bench = bench && !isReady s h then { tm with since := n } else tm
      | none => tm }

/-! ## Fetch (R29 to R31) -/

/-- What fetching a word gives: the word, a fault, or the imported line that is not there. -/
inductive WordGot where
  | ok (s : State) (w : W32) | fault (s : State) (code : Byte) (at_ : W64) | ask (s : State) (pa : Nat) (at_ : W64)

/-- The bytes of a line that a core's instruction cache holds. -/
def codeHeld (s : State) (core line : Nat) : Option (Sparse 8) :=
  ((s.cores[core]?).bind fun c => c.icache.find? fun x => x.line = line).map (·.data)
/-- A core fetches from a line (R13): one that its instruction cache does not hold is read at home (R339), or in the die's copy, and held
from then on (log 9). Its bytes are none where an imported line is not there yet. -/
def codeLine (s : State) (core line : Nat) : State × Option (Sparse 8) :=
  match codeHeld s core line with
  | some d => (s, some d)
  | none => match fillData s core line with
    | some d => ((mscRead s line).modCore core fun c => { c with icache := ⟨line, d⟩ :: c.icache }, some d)
    | none => (s, none)

/-- Fetches the word at an address (R31): PROT in the window and the reserved range, PAGE or PROT of the translation; its bytes are
those of its line in the core's instruction cache. -/
def fetchWord (s : State) (h : Here) (va : W64) : WordGot :=
  if !ordinary va then .fault s 0x06 va
  else match xlateFor s h.core h.asid h.cx.ptroot.toNat va .fetch with
    | (s1, .error f) => .fault s1 f.code va
    | (s1, .ok x) =>
      match codeLine s1 h.core (lineOf x.pa) with
      | (s2, some d) =>
        let o := x.pa % 128
        .ok s2 (wordOf (sget d o) (sget d (o + 1)) (sget d (o + 2)) (sget d (o + 3)))
      | (s2, none) => .ask s2 x.pa va

/-- Words of the instruction that a first word begins (R30). -/
def wordCount (w : W32) : Nat :=
  match decodeWords [w, 0, 0] with
  | some r => instrBytes r.1 / 4
  | none => 1

/-- Fetches `n` further words from an address on. -/
def fetchMore (h : Here) : Nat → W64 → List W32 → State → Except WordGot (State × List W32)
  | 0, _, ws, s => .ok (s, ws)
  | n + 1, va, ws, s =>
    match fetchWord s h va with
    | .ok s1 w => fetchMore h n (va + 4) (ws ++ [w]) s1
    | r => .error r

/-- What issuing a team comes to: an instruction in a state, or a state in which it does not issue now. -/
inductive Issue where
  | run (s : State) (i : Instr) | stop (s : State)

/-- Asks the exporter for a line of code; the team parks until it is there, and a refusal is a fault of its fetch (R365). What it was
waiting for at the instruction it has waited for still (R270). -/
def askCode (s : State) (h : Here) (pa : Nat) (va : W64) : State :=
  let line := lineOf pa
  let id := h.tm.nextId
  let r := sendReq s (.team h.t id) h.core (keyOfAsid s h.asid) (line * 128) va 0 true false 0 (.read 128)
  let a : InFlight := ⟨id, .nop false, { h.frame with pc := va }, none, [], [], Writes.none, [r.2], [], [], none, none⟩
  r.1.setTeam h.t { h.tm with
    nextId := id + 1, inflight := h.tm.inflight ++ [a], before := h.tm.waited, status := .parked (.fabric [r.2]) }

/-- A fetch that gave no word (R31): the fault names the address as its faulting PC. -/
def fetchStop (h : Here) : WordGot → State
  | .ok s1 _ => s1
  | .fault s1 code va => takeFault s1 h h.tm { FaultInfo.plain code va h.tm.active 0 with page := some va } h.tm.pc
  | .ask s1 pa va => askCode s1 h pa va

/-- Fetches and decodes the team's instruction (R29, R30, R48): one that decode refuses is ILLEGAL. -/
def fetchInstr (s : State) (h : Here) : Issue :=
  match fetchWord s h h.tm.pc with
  | .ok s1 w =>
    match fetchMore h (wordCount w - 1) (h.tm.pc + 4) [w] s1 with
    | .ok (s2, ws) => match decodeWords ws with
        | some r => .run s2 r.1
        | none => .run s2 (.illegalInstruction w)
    | .error r => .stop (fetchStop h r)
  | r => .stop (fetchStop h r)

/-- The comparators that halt the context before the team's instruction issues (R355, R356); once they have, the team issues it. -/
def pcHalts (h : Here) : List Nat :=
  if h.tm.resumed then [] else compNumbers h.cx.comps fun c => c.action == 2 && c.kind == 0 && c.hits h.tm.pc.toNat 1

/-- A team whose handler is entered: it waits no more for the entry, and what it was waiting for before that is kept (R313). -/
def resumeAt (tm : Team) : Team := { tm with status := .running }
/-- A team comes to issue (R150): a handler whose entry was waited for is entered (R313), a comparator may halt the context, or
its instruction is fetched. -/
def prepare (s : State) (h : Here) : Issue :=
  let s := { s with cur := h.t }
  match h.tm.status with
  | .parked (.handler code info lanes fpc addr) =>
    .stop (enterHandler s h (resumeAt h.tm) code info lanes fpc h.tm.pc addr)
  | .blocked (.handler code info lanes fpc addr) =>
    .stop (enterHandler s h (resumeAt h.tm) code info lanes fpc h.tm.pc addr)
  | .running | .parked _ | .blocked _ | .stopped | .captured _ | .retired =>
    let ns := pcHalts h
    if ns.isEmpty then fetchInstr s h
    else .stop (haltBy (s.modTeam h.t fun tm => { tm with resumed := true }) h.cx ns h.tm.pc 0)

/-! ## Events that may happen on their own (log 1) -/

/-- Numbered elements. -/
def numberedList {α : Type} (l : List α) : List (α × Nat) := l.zipIdx
/-- The accesses that may land. -/
def teamEvents (s : State) : List Instr :=
  s.teams.zipIdx.flatMap fun x =>
    x.1.inflight.map fun a => Instr.loadLands x.2 a.id
/-- The command at the head of a Carter context. -/
def carterEvent (core ctx : Nat) (e : Engine) : List Instr :=
  match e.queue with
  | [] => []
  | c :: _ => match (carterOf c.words).op with
    | 0 => [.carterCopy core ctx]
    | 1 => [.carterCopy2d core ctx]
    | _ => [.carterFill core ctx]
/-- The command at the head of a Sifter context. -/
def sifterEvent (core ctx : Nat) (e : Engine) : List Instr :=
  match e.queue with
  | [] => []
  | c :: _ => if (siftOf c.words).op = 0 then [.sifterSortedIndex core ctx] else [.sifterBitmap core ctx]
/-- The work of a matrix unit. -/
def benchEvents (core bench : Nat) (b : Bench) : List Instr :=
  (if b.ramp = .up then [.matrixRampUpDone core bench] else []) ++ (if b.queue.isEmpty then [] else [.matrixUnitExecute core bench])
/-- The work of the engines and units of the cores. -/
def coreEvents (s : State) : List Instr :=
  s.cores.zipIdx.flatMap fun x =>
    (x.1.carter.zipIdx.flatMap fun e => carterEvent x.2 e.2 e.1) ++ (x.1.sifter.zipIdx.flatMap fun e => sifterEvent x.2 e.2 e.1)
      ++ (if x.1.settle.queue.isEmpty then [] else [.settleExecute x.2])
      ++ x.1.benches.zipIdx.flatMap fun b => benchEvents x.2 b.2 b.1
/-- The instances of a unit that are COMPLETE. -/
def doneBars (u : BarUnit) (bs : List Bar) : List Instr :=
  (List.finRange 16).filterMap fun i => (bs[i.val]?).bind fun b =>
    if b.state = .complete then some (.barrierGenerationComplete ⟨u, i⟩) else none
/-- The generations that are complete. -/
def barEvents (s : State) : List Instr :=
  (s.gangs.zipIdx.flatMap fun g => doneBars (.gang g.2) g.1.bars)
    ++ s.kernels.zipIdx.flatMap fun k =>
      (k.1.dieBars.zipIdx.flatMap fun d => doneBars (.die k.2 d.2) d.1) ++ doneBars (.pkg k.2) k.1.pkgBars ++ doneBars (.pod k.2) k.1.podBars
/-- The requests whose deadline has passed. -/
def deadlineEvents (s : State) : List Instr :=
  s.reqs.filterMap fun r => if r.deadline ≤ s.podTime then some (.requestDeadline (BitVec.ofNat 16 r.tag)) else none
/-- What the queues and kernels may do. -/
def queueEvents (s : State) : List Instr :=
  (s.queues.flatMap fun q => [Instr.launchRecord q.ctx q.num, .slotAssignment q.ctx q.num])
    ++ s.kernels.zipIdx.flatMap fun k => match k.1.state with
      | .waiting => [Instr.dependencesSatisfied k.2]
      | .running => [.kernelDrain k.2]
      | .draining => [.kernelCompletion k.2]
      | .submitted => [] | .dispatching => [] | .complete => []
/-- What the scheduler may place, restore and capture. -/
def schedEvents (s : State) : List Instr :=
  (s.slots.flatMap fun x => match offerOf s x with
    | some (.place k) => allSpots.map fun p => Instr.gangPlacement k p.1 p.2
    | some (.restore g) => allSpots.map fun p => Instr.gangRestoration g p.1 p.2
    | none => [])
    ++ s.gangs.zipIdx.filterMap fun g => if g.1.state = .capturing then some (Instr.gangCapture g.2) else none
/-- Every event that the machine may do on its own, in the order in which the model tries them. -/
def internalEvents (s : State) : List Instr :=
  teamEvents s ++ barEvents s ++ coreEvents s ++ deadlineEvents s ++ queueEvents s ++ schedEvents s
/-- Events that mark that time has passed, tried when nothing else can happen. -/
def idleEvents (s : State) : List Instr :=
  (s.slots.zipIdx.filterMap fun x => if x.1.started && !x.1.expired && x.1.queue.isSome then some (Instr.timeSliceExpiry x.2) else none)
    ++ s.cores.zipIdx.flatMap fun c => c.1.benches.zipIdx.flatMap fun b => match b.1.ramp with
      | .hold => [Instr.matrixHoldExpiry c.2 b.2]
      | .down => [.matrixRampDownDone c.2 b.2]
      | .idle => [] | .up => [] | .run => []

/-- With nothing to do, the service cores go on with bring-up (R362), or time passes. -/
def idleStep (s : State) : State :=
  match bootStep s with
  | some s1 => s1
  | none => passTime s

/-! ## Turns (log 1) -/

/-- What a step comes to: an event acts in a state, an instruction issues on a bench, the step is done, or it cannot take
place. -/
inductive Turn where
  | run (s : State) (i : Instr) | issue (s : State) (i : Instr) (core bench : Nat) | done (s : State) | no (f : Fault)

/-- A team issues the passes that its last instruction still owes, as one turn (R151). -/
def payTurn (s : State) (h : Here) : State :=
  let cut := turnCut 0 h.tm.owed
  let s1 := s.modBench h.core h.bench fun b => { b with issued := b.issued + cut.1 }
  { s1 with
    teams := modAt (fun tm => { tm with
      owed := cut.2, banks := keepBanks cut.2 tm.banks
      age := ((s1.bench? h.core h.bench).map fun (b : Bench) => b.issued).getD 0 }) s1.teams h.t
    cycle := s1.cycle + BitVec.ofNat 64 (cut.1 + Config.elapsed s1.tick)
    podTime := s1.podTime + BitVec.ofNat 64 (Config.elapsedNs s1.tick)
    tick := s1.tick + 1, now := s1.now + 1 }

/-- A team comes to issue: passes that it owes (R151), its oldest residue where that may run (R160), or its instruction. -/
def issueTurn (s : State) (h : Here) : Turn :=
  if !h.tm.owed.isEmpty then .done (afterTurn h.core h.bench (payTurn s h))
  else if residueDue h.tm then .issue s (.residueRun h.t) h.core h.bench
  else match prepare s h with
    | .run s1 i => .issue s1 i h.core h.bench
    | .stop s1 => .done (afterTurn h.core h.bench s1)

/-- A residue comes to run (R150, R160): it takes its team's issue slots, so only where its bench picks that team. -/
def residueTurn (s : State) (t : Nat) : Turn :=
  match here s t with
  | none => .no .noSuch
  | some h =>
    if (benchPick s (readyTeams s) h.core h.bench).map (·.t) = some t && h.tm.owed.isEmpty && residueDue h.tm then issueTurn s h
    else .no .notEnabled

/-- An event comes to happen: not an instruction word, and not ILLEGAL, which decoding alone raises (R29). -/
def eventTurn (s : State) (i : Instr) : Turn :=
  match i with
  | .illegalInstruction _ => .no .notEnabled
  | .residueRun t => residueTurn s t
  | i => if i.isWord then .no .notEnabled else .run s i

/-- A BARRIER of a member in another package of a co-operative kernel (R279, R292): the instance of the pod level is faulted here too. -/
def barrierPod (s : State) (group : Nat × W64) (id : Fin 16) : State :=
  (s.kernels.zipIdx.filter fun k => k.1.joinKeys.contains group).foldl (fun s k =>
    s.modBar ⟨.pod k.2, id⟩ fun x => { x with state := .faulted }) s

/-- The head of the agenda comes to happen, in the state without it. -/
def headTurn (s : State) : Happening → Turn
  | .event i => eventTurn s i
  | .issue core bench => match benchPick s (readyTeams s) core bench with
      | some h => issueTurn s h
      | none => .no .notEnabled
  | .evictL1 core line => if (s.cores[core]?).isNone then .no .noSuch else .done (evictL1Line s core line)
  | .evictHome line => .done (evictHomeLine s line)
  | .podHalt group => .done (haltPod s group)
  | .podBarrier group id => .done (barrierPod s group id)
  | .ack die page => .done (ackPage s page (some die))
  | .ackAll page => .done (ackPage s page none)
  | .tail ctx q value => .done (tailNoted s ctx q value)
  | .transmit p => .done (transmit s p)
  | .replay p fseq => .done (replayFrom s p fseq)
  | .bringUp => match bootStep s with
      | some t => .done t
      | none => .no .notEnabled
  | .hthresh die n => if s.boot != .ready || n = 0 then .no .notEnabled else .done { s with hthresh := s.hthresh.set die.val n }
  | .evictInstr core line => .done (s.modCore core fun c => { c with icache := c.icache.filter fun x => x.line != line })
  | .evictMsc line => .done { s with msc := s.msc.filter fun x => x.line != line }
  | .evictConst core line => .done (s.modCore core fun c => { c with ccache := c.ccache.filter fun x => x.line != line })

/-- Teams come before events at this step: the two take turns by the passes issued and the events done. -/
def teamsFirst (s : State) : Bool := s.now % 2 == 0

/-- The fault records that are held back are written where their rings have room (R318). -/
def flushRings (s : State) : State := s.ctxs.foldl (fun s c => flushHeld c.held.length s c.id) s

/-! ## Where the first instruction stands -/

/-- The core and the physical address at which the next step fetches, where the instruction's bytes all lie in local memory on one
page. -/
def fetchPlace (s : State) : Option (Nat × Nat) :=
  (pickTeam s).bind fun h =>
    if !ordinary h.tm.pc || 65536 - 12 < h.tm.pc.toNat % 65536 then none
    else match translate s (quadOf h.core) h.asid h.cx.ptroot.toNat h.tm.pc .fetch with
      | .ok (_, x) => if x.imp then none else some (h.core, x.pa)
      | .error _ => none

/-- The leaf that the seeded machine maps: 512 MiB of LPDDR6 from virtual address 0, valid, R, W, X, L, C, A, D, TIER 1 (R328). -/
def seedPte : Nat := 0x10002000_0000 + 2 ^ 9 + 0x1DF
/-- The root node and the level-1 node of its page table (R327), and where the code stands. -/
def seedRoot : Nat := 0x100000000000
/-- The level-1 node. -/
def seedNode : Nat := 0x100000010000
/-- The virtual address of the seeded instruction. -/
def seedPc : W64 := 0x10000

/-- The launch record of the seeded kernel (R284): one gang of one cohort of one team of 32 lanes. -/
def seedLaunch : LaunchRec := ⟨1, seedPc, 0, 1, 1, 1, 1, 1, 32, 8, false, 8, 1, 2, 1, false, true, 0, 0⟩
/-- The context of the seeded kernel. -/
def seedCtx : CtxInit :=
  ⟨0x100000020000, 0, 1, 0, BitVec.ofNat 64 seedRoot, 0, List.replicate 16 ⟨128, 0, 0, 65535⟩, 0, 0, 65536 * 128, 0x20000, 16, [], [],
   [], []⟩

/-- A machine whose next step runs an instruction: a program loaded from outside (log 3). What a launch leaves (R263, R264) is
put behind what the state holds: an ACTIVE context, a queue in a slot, a RUNNING kernel and one gang on core 0. -/
def seeded (s : State) : State :=
  let k := s.kernels.length
  let g := s.gangs.length
  let co := s.cohorts.length
  let c : Ctx := { newCtx seedCtx with state := .active, asid := some 0, saveused := seedLaunch.saveSize }
  let pt := atAddrs seedRoot (bytesOf 8 (seedNode + 1)) ++ atAddrs seedNode (bytesOf 8 seedPte)
  { s with
    cur := s.teams.length
    agenda := []
    now := 0
    frozen := false
    teams := s.teams ++ [launchTeam seedLaunch 0 co 0 0 0 false]
    cohorts := s.cohorts ++ [launchCohort g 0]
    gangs := s.gangs ++ [⟨k, 0, 0, 0, 0, [0], [co], [s.teams.length], .resident, freshBars, seedLaunch.saveSize, [(0, seedLaunch.saveSize)], false⟩]
    kernels := s.kernels ++ [⟨0, 0, seedLaunch, .running, [], [], 1, [0], some s.podTime, [], 0, 0, List.replicate 4 freshBars, freshBars, freshBars⟩]
    queues := s.queues ++ [⟨0, 0, 0x30000, .active, 0, 0⟩]
    slots := modAt (fun x => { x with queue := some (0, 0), started := true }) s.slots 0
    ctxs := s.ctxs ++ [c]
    tlbs := modAt (fun es => ⟨0, 0, 8192, seedNode, BitVec.ofNat 64 seedPte⟩ :: es) s.tlbs 0
    mem := ssetAll s.mem pt }

/-- The core's instruction cache drops the lines of an instruction at a physical address, where it holds one. -/
def dropCode (s : State) (core pa : Nat) : State :=
  let at_ (x : ILine) : Bool := x.line == lineOf pa || x.line == lineOf (pa + 11)
  if ((s.cores[core]?).map fun c => c.icache.any at_).getD false then
    s.modCore core fun c => { c with icache := c.icache.filter fun x => !at_ x }
  else s
/-- Stores an instruction's bytes where the next step fetches, in a machine that has been seeded where none would. The core's instruction
cache holds no older line of them. -/
def placeWord (s : State) (bytes : List Byte) : State :=
  match fetchPlace s with
  | some (core, pa) => { dropCode s core pa with
      mem := ssetAll s.mem (atAddrs pa bytes), agenda := [], now := s.now + s.now % 2, frozen := false }
  | none =>
    let s1 := dropCode (seeded s) 0 0x100020010000
    { s1 with mem := ssetAll s1.mem (atAddrs (0x100020010000) bytes) }

end Sys2Proof.Machine
end

