-- ==== Sys2Proof/Machine/Dispatch.lean ====
section
/-! DEFINITION. One arm for each constructor of `Instr`: what the instruction or event does. -/
namespace Sys2Proof.Machine

/-- What an instruction of the team `s.cur`, or an event of another agent, does. -/
def exec (i : Instr) (s : State) : Host.Outcome State Fault Refusal :=
  match i with
  | .nop sw => Sys2Proof.Machine.execNop sw s
  | .setm sw f => Sys2Proof.Machine.execSetm sw f s
  | .bra sw off => Sys2Proof.Machine.execBra sw off s
  | .brall sw p neg off => Sys2Proof.Machine.execBrall sw p neg off s
  | .brany sw p neg off => Sys2Proof.Machine.execBrany sw p neg off s
  | .brd sw p neg off joinOff => Sys2Proof.Machine.execBrd sw p neg off joinOff s
  | .join sw => Sys2Proof.Machine.execJoin sw s
  | .call sw off => Sys2Proof.Machine.execCall sw off s
  | .ret sw => Sys2Proof.Machine.execRet sw s
  | .jmpi sw a => Sys2Proof.Machine.execJmpi sw a s
  | .exit sw => Sys2Proof.Machine.execExit sw s
  | .trap sw code => Sys2Proof.Machine.execTrap sw code s
  | .yield sw => Sys2Proof.Machine.execYield sw s
  | .region sw => Sys2Proof.Machine.execRegion sw s
  | .drain sw => Sys2Proof.Machine.execDrain sw s
  | .loop sw c off => Sys2Proof.Machine.execLoop sw c off s
  | .add sw d a b => Sys2Proof.Machine.execAdd sw d a b s
  | .sub sw d a b => Sys2Proof.Machine.execSub sw d a b s
  | .mul sw d a b => Sys2Proof.Machine.execMul sw d a b s
  | .fma sw d a b => Sys2Proof.Machine.execFma sw d a b s
  | .fms sw d a b => Sys2Proof.Machine.execFms sw d a b s
  | .min sw d a b => Sys2Proof.Machine.execMin sw d a b s
  | .max sw d a b => Sys2Proof.Machine.execMax sw d a b s
  | .abs sw d a => Sys2Proof.Machine.execAbs sw d a s
  | .neg sw d a => Sys2Proof.Machine.execNeg sw d a s
  | .cmp sw p f a b => Sys2Proof.Machine.execCmp sw p f a b s
  | .sel sw d a b => Sys2Proof.Machine.execSel sw d a b s
  | .cvt sw d a ty => Sys2Proof.Machine.execCvt sw d a ty s
  | .rcp sw d a => Sys2Proof.Machine.execRcp sw d a s
  | .rsq sw d a => Sys2Proof.Machine.execRsq sw d a s
  | .sqrt sw d a => Sys2Proof.Machine.execSqrt sw d a s
  | .div sw d a b => Sys2Proof.Machine.execDiv sw d a b s
  | .exp2 sw d a => Sys2Proof.Machine.execExp2 sw d a s
  | .log2 sw d a => Sys2Proof.Machine.execLog2 sw d a s
  | .sin sw d a => Sys2Proof.Machine.execSin sw d a s
  | .cos sw d a => Sys2Proof.Machine.execCos sw d a s
  | .rint sw d a => Sys2Proof.Machine.execRint sw d a s
  | .class sw p f a => Sys2Proof.Machine.execClass sw p f a s
  | .wmad sw d a b => Sys2Proof.Machine.execWmad sw d a b s
  | .dot4 sw d a b => Sys2Proof.Machine.execDot4 sw d a b s
  | .and sw d a b => Sys2Proof.Machine.execAnd sw d a b s
  | .or sw d a b => Sys2Proof.Machine.execOr sw d a b s
  | .xor sw d a b => Sys2Proof.Machine.execXor sw d a b s
  | .not sw d a => Sys2Proof.Machine.execNot sw d a s
  | .shl sw d a b => Sys2Proof.Machine.execShl sw d a b s
  | .shr sw d a b => Sys2Proof.Machine.execShr sw d a b s
  | .rol sw d a b => Sys2Proof.Machine.execRol sw d a b s
  | .popc sw d a => Sys2Proof.Machine.execPopc sw d a s
  | .clz sw d a => Sys2Proof.Machine.execClz sw d a s
  | .brev sw d a => Sys2Proof.Machine.execBrev sw d a s
  | .bfe sw d a b => Sys2Proof.Machine.execBfe sw d a b s
  | .bfi sw d a b => Sys2Proof.Machine.execBfi sw d a b s
  | .mulhi sw d a b => Sys2Proof.Machine.execMulhi sw d a b s
  | .addc sw d a b => Sys2Proof.Machine.execAddc sw d a b s
  | .lea sw d a b => Sys2Proof.Machine.execLea sw d a b s
  | .mov sw d a => Sys2Proof.Machine.execMov sw d a s
  | .plog sw p a b table => Sys2Proof.Machine.execPlog sw p a b table s
  | .vtop sw p a => Sys2Proof.Machine.execVtop sw p a s
  | .ptov sw d p => Sys2Proof.Machine.execPtov sw d p s
  | .shfl sw d a b => Sys2Proof.Machine.execShfl sw d a b s
  | .shfx sw d a b => Sys2Proof.Machine.execShfx sw d a b s
  | .shfu sw d a b => Sys2Proof.Machine.execShfu sw d a b s
  | .shfd sw d a b => Sys2Proof.Machine.execShfd sw d a b s
  | .vote sw p f a => Sys2Proof.Machine.execVote sw p f a s
  | .ballot sw d a b => Sys2Proof.Machine.execBallot sw d a b s
  | .psum sw d a => Sys2Proof.Machine.execPsum sw d a s
  | .redu sw d a => Sys2Proof.Machine.execRedu sw d a s
  | .vconf sw d a => Sys2Proof.Machine.execVconf sw d a s
  | .rdlane sw d a b => Sys2Proof.Machine.execRdlane sw d a b s
  | .xset sw x a => Sys2Proof.Machine.execXset sw x a s
  | .xwin sw x base len => Sys2Proof.Machine.execXwin sw x base len s
  | .uadd sw d a b => Sys2Proof.Machine.execUadd sw d a b s
  | .usub sw d a b => Sys2Proof.Machine.execUsub sw d a b s
  | .umul sw d a b => Sys2Proof.Machine.execUmul sw d a b s
  | .uand sw d a b => Sys2Proof.Machine.execUand sw d a b s
  | .uor sw d a b => Sys2Proof.Machine.execUor sw d a b s
  | .uxor sw d a b => Sys2Proof.Machine.execUxor sw d a b s
  | .ushl sw d a b => Sys2Proof.Machine.execUshl sw d a b s
  | .ushr sw d a b => Sys2Proof.Machine.execUshr sw d a b s
  | .umov sw d a => Sys2Proof.Machine.execUmov sw d a s
  | .umovPushQ0 sw a => Sys2Proof.Machine.execUmovPushQ0 sw a s
  | .umovPushQ2 sw a => Sys2Proof.Machine.execUmovPushQ2 sw a s
  | .umovPopQ3 sw d => Sys2Proof.Machine.execUmovPopQ3 sw d s
  | .ucmp sw p f a b => Sys2Proof.Machine.execUcmp sw p f a b s
  | .umin sw d a b => Sys2Proof.Machine.execUmin sw d a b s
  | .umax sw d a b => Sys2Proof.Machine.execUmax sw d a b s
  | .udiv sw d a b => Sys2Proof.Machine.execUdiv sw d a b s
  | .urem sw d a b => Sys2Proof.Machine.execUrem sw d a b s
  | .ld sw d a off str form => Sys2Proof.Machine.execLd sw d a off str form s
  | .st sw b a off str form => Sys2Proof.Machine.execSt sw b a off str form s
  | .ldc sw d a off form => Sys2Proof.Machine.execLdc sw d a off form s
  | .lds sw d a off str form => Sys2Proof.Machine.execLds sw d a off str form s
  | .sts sw b a off str form => Sys2Proof.Machine.execSts sw b a off str form s
  | .atom sw d a off str fn => Sys2Proof.Machine.execAtom sw d a off str fn s
  | .atoms sw d a off str fn => Sys2Proof.Machine.execAtoms sw d a off str fn s
  | .cas sw d a off str => Sys2Proof.Machine.execCas sw d a off str s
  | .uld sw d a off str form => Sys2Proof.Machine.execUld sw d a off str form s
  | .ust sw b a off str form => Sys2Proof.Machine.execUst sw b a off str form s
  | .fence sw mask sc k => Sys2Proof.Machine.execFence sw mask sc k s
  | .monitor sw a off => Sys2Proof.Machine.execMonitor sw a off s
  | .mwait sw => Sys2Proof.Machine.execMwait sw s
  | .pref sw a off str lvl => Sys2Proof.Machine.execPref sw a off str lvl s
  | .clean sw a off e => Sys2Proof.Machine.execClean sw a off e s
  | .inval sw a off e => Sys2Proof.Machine.execInval sw a off e s
  | .ldi sw d grad crd str lat => Sys2Proof.Machine.execLdi sw d grad crd str lat s
  | .spl sw d grad crd str lat => Sys2Proof.Machine.execSpl sw d grad crd str lat s
  | .ldlat sw n a => Sys2Proof.Machine.execLdlat sw n a s
  | .settle sw n => Sys2Proof.Machine.execSettle sw n s
  | .atomar sw d a off str fn => Sys2Proof.Machine.execAtomar sw d a off str fn s
  | .ldq sw d a off str form => Sys2Proof.Machine.execLdq sw d a off str form s
  | .stq sw b a off str form => Sys2Proof.Machine.execStq sw b a off str form s
  | .mma sw n a b => Sys2Proof.Machine.execMma sw n a b s
  | .mmab sw n a b => Sys2Proof.Machine.execMmab sw n a b s
  | .mmar sw n a b => Sys2Proof.Machine.execMmar sw n a b s
  | .aclr sw n => Sys2Proof.Machine.execAclr sw n s
  | .acst sw n a b => Sys2Proof.Machine.execAcst sw n a b s
  | .acld sw n a b => Sys2Proof.Machine.execAcld sw n a b s
  | .acrd sw d n b => Sys2Proof.Machine.execAcrd sw d n b s
  | .mhint sw a => Sys2Proof.Machine.execMhint sw a s
  | .hadq sw d a b => Sys2Proof.Machine.execHadq sw d a b s
  | .qnt sw d a => Sys2Proof.Machine.execQnt sw d a s
  | .dqnt sw d a => Sys2Proof.Machine.execDqnt sw d a s
  | .tlwait sw c n => Sys2Proof.Machine.execTlwait sw c n s
  | .ringInit sw r a unused => Sys2Proof.Machine.execRingInit sw r a unused s
  | .ringRsv sw r a k => Sys2Proof.Machine.execRingRsv sw r a k s
  | .ringCmt sw r k => Sys2Proof.Machine.execRingCmt sw r k s
  | .ringWait sw r a k => Sys2Proof.Machine.execRingWait sw r a k s
  | .ringRel sw r k => Sys2Proof.Machine.execRingRel sw r k s
  | .ringStat sw r a k => Sys2Proof.Machine.execRingStat sw r a k s
  | .barSync sw l id n => Sys2Proof.Machine.execBarSync sw l id n s
  | .barArrive sw l id n => Sys2Proof.Machine.execBarArrive sw l id n s
  | .barWait sw l id n => Sys2Proof.Machine.execBarWait sw l id n s
  | .csrr sw d r => Sys2Proof.Machine.execCsrr sw d r s
  | .csrw sw a r => Sys2Proof.Machine.execCsrw sw a r s
  | .flagsClear sw a => Sys2Proof.Machine.execFlagsClear sw a s
  | .trapvecWrite sw a => Sys2Proof.Machine.execTrapvecWrite sw a s
  | .loadLands t id => Sys2Proof.Machine.execLoadLands t id s
  | .residueRun t => Sys2Proof.Machine.execResidueRun t s
  | .carterCopy core ctx => Sys2Proof.Machine.execCarterCopy core ctx s
  | .carterCopy2d core ctx => Sys2Proof.Machine.execCarterCopy2d core ctx s
  | .carterFill core ctx => Sys2Proof.Machine.execCarterFill core ctx s
  | .sifterSortedIndex core ctx => Sys2Proof.Machine.execSifterSortedIndex core ctx s
  | .sifterBitmap core ctx => Sys2Proof.Machine.execSifterBitmap core ctx s
  | .matrixUnitExecute core bench => Sys2Proof.Machine.execMatrixUnitExecute core bench s
  | .matrixRampUpDone core bench => Sys2Proof.Machine.execMatrixRampUpDone core bench s
  | .matrixHoldExpiry core bench => Sys2Proof.Machine.execMatrixHoldExpiry core bench s
  | .matrixRampDownDone core bench => Sys2Proof.Machine.execMatrixRampDownDone core bench s
  | .settleExecute core => Sys2Proof.Machine.execSettleExecute core s
  | .barrierGenerationComplete b => Sys2Proof.Machine.execBarrierGenerationComplete b s
  | .tailWrite ctx q tail => Sys2Proof.Machine.execTailWrite ctx q tail s
  | .launchRecord ctx q => Sys2Proof.Machine.execLaunchRecord ctx q s
  | .slotAssignment ctx q => Sys2Proof.Machine.execSlotAssignment ctx q s
  | .dependencesSatisfied k => Sys2Proof.Machine.execDependencesSatisfied k s
  | .gangPlacement k quad base => Sys2Proof.Machine.execGangPlacement k quad base s
  | .timeSliceExpiry slot => Sys2Proof.Machine.execTimeSliceExpiry slot s
  | .gangCapture g => Sys2Proof.Machine.execGangCapture g s
  | .gangRestoration g quad base => Sys2Proof.Machine.execGangRestoration g quad base s
  | .kernelDrain k => Sys2Proof.Machine.execKernelDrain k s
  | .kernelCompletion k => Sys2Proof.Machine.execKernelCompletion k s
  | .chandlerFaultService p act => Sys2Proof.Machine.execChandlerFaultService p act s
  | .chandlerResumption p => Sys2Proof.Machine.execChandlerResumption p s
  | .contextCreate c => Sys2Proof.Machine.execContextCreate c s
  | .queueEnable ctx q => Sys2Proof.Machine.execQueueEnable ctx q s
  | .contextAbort ctx code => Sys2Proof.Machine.execContextAbort ctx code s
  | .contextDestroy ctx => Sys2Proof.Machine.execContextDestroy ctx s
  | .pteChange ctx va level pte eg => Sys2Proof.Machine.execPteChange ctx va level pte eg s
  | .pageMigration ctx va pte => Sys2Proof.Machine.execPageMigration ctx va pte s
  | .exportGrant n x => Sys2Proof.Machine.execExportGrant n x s
  | .exportRevoke n => Sys2Proof.Machine.execExportRevoke n s
  | .bloomFilterRotation slice => Sys2Proof.Machine.execBloomFilterRotation slice s
  | .heldRowRefresh channel => Sys2Proof.Machine.execHeldRowRefresh channel s
  | .errorSelfTest u key consumer pass dis => Sys2Proof.Machine.execErrorSelfTest u key consumer pass dis s
  | .rmaWrite sess flow ctx va bytes tss => Sys2Proof.Machine.execRmaWrite sess flow ctx va bytes tss s
  | .rmaRead sess flow ctx va len tss => Sys2Proof.Machine.execRmaRead sess flow ctx va len tss s
  | .chandlerRequest sess rseq msg => Sys2Proof.Machine.execChandlerRequest sess rseq msg s
  | .flitReceived p f => Sys2Proof.Machine.execFlitReceived p f s
  | .spanRequest r => Sys2Proof.Machine.execSpanRequest r s
  | .nackReceived tag => Sys2Proof.Machine.execNackReceived tag s
  | .requestDeadline tag => Sys2Proof.Machine.execRequestDeadline tag s
  | .portEnable p => Sys2Proof.Machine.execPortEnable p s
  | .trainingEnd p lanes => Sys2Proof.Machine.execTrainingEnd p lanes s
  | .laneLoss p => Sys2Proof.Machine.execLaneLoss p s
  | .replayThreshold p => Sys2Proof.Machine.execReplayThreshold p s
  | .portDrain p => Sys2Proof.Machine.execPortDrain p s
  | .drainComplete p => Sys2Proof.Machine.execDrainComplete p s
  | .portReset p => Sys2Proof.Machine.execPortReset p s
  | .freeze => Sys2Proof.Machine.execFreeze s
  | .comparatorWrite ctx n addr ctl => Sys2Proof.Machine.execComparatorWrite ctx n addr ctl s
  | .contextResume ctx => Sys2Proof.Machine.execContextResume ctx s
  | .laneCycleReadClear core bench => Sys2Proof.Machine.execLaneCycleReadClear core bench s
  | .coldReset => Sys2Proof.Machine.execColdReset s
  | .firmwareImage image => Sys2Proof.Machine.execFirmwareImage image s
  | .configurationRecord record signature => Sys2Proof.Machine.execConfigurationRecord record signature s
  | .attestationRequest nonce => Sys2Proof.Machine.execAttestationRequest nonce s
  | .illegalInstruction w => Sys2Proof.Machine.execIllegalInstruction w s
  | .spanResponse tag bytes => Sys2Proof.Machine.execSpanResponse tag bytes s
  | .importedCopyInvalidation die page => Sys2Proof.Machine.execImportedCopyInvalidation die page s
  | .tokenBucketRefill ctx cls channel us => Sys2Proof.Machine.execTokenBucketRefill ctx cls channel us s
  | .hotnessEntryClear die block src => Sys2Proof.Machine.execHotnessEntryClear die block src s

end Sys2Proof.Machine
end

