-- ==== Sys2Proof/Machine/Turns.lean ====
section
/-! DEFINITION. What goes with every step: teams that cannot issue their next instruction park (spec/07_issue_and_deferring.md R150,
spec/15_group_lifecycle.md R267), and what the device does beside the step itself. -/
namespace Sys2Proof.Machine

/-- The team waits for a pending register or for a residue entry (R158, R166). -/
def waitsForInput (tm : Team) : Bool :=
  match tm.status with
  | .parked (.ready _) => true
  | .parked (.entry _) => true
  | _ => false

/-- A team comes to its next instruction (R150): where a pending register or a residue allows neither its issue nor its deferral, the team parks
there at once (R158, R166, R267), so that no bench takes it for a ready one. -/
def parkNext (s : State) (t : Nat) : State :=
  match here s t with
  | none => s
  | some h =>
    if (h.tm.claims.any (·.pending) || !h.tm.residues.isEmpty) && h.ga.resident && canIssue s t h.tm then
      match prepare s h with
      | .stop _ => s
      | .run s1 i => match exec i s1 with
        | .next s2 => if ((s2.teams[t]?).map waitsForInput).getD false then { s2 with cur := s.cur } else s
        | .fault _ => s
        | .refused _ => s
    else s
/-- Every team that cannot issue its next instruction is parked. -/
def parkTeams (s : State) : State := (List.range s.teams.length).foldl parkNext s

/-- Of the teams that the completion words of a cohort have set RUNNING while a pre-emption was pending, those for which none is left
block again at their `umov` from q3 (R115, R267, R269). -/
def blockQ3 (s : State) : State :=
  { s with teams := s.teams.mapIdx fun t tm =>
      if tm.status = .parked .q3 && !wakeHolds s t tm .q3 then { tm with status := .blocked .q3 } else tm }

/-- What goes with every step: teams that cannot issue are parked (R150, R267), fault records held back are written where there is
room, context records at home follow the state (R318), and inbound requests whose deadline has passed while Chandler had them are
refused (R351). `s` is the state before the step. -/
def afterStep (s t : State) : State := syncRecords s (flushRings (expireInbound (parkTeams (blockQ3 t))))

end Sys2Proof.Machine
end

