-- ==== Sys2Proof/Machine/Step.lean ====
section
/-! DEFINITION. One step of the machine: the head of the agenda, or the default choice among what may happen (log 1). -/
namespace Sys2Proof.Machine

/-- A turn, acted out. -/
def Turn.act : Turn → Host.Outcome State Fault Refusal
  | .run s i => exec i s
  | .issue s i core bench => match exec i s with
    | .next t => .next (afterTurn core bench t)
    | .fault f => .fault f
    | .refused r => .refused r
  | .done s => .next s
  | .no f => .fault f

/-- The first of a list of events that can happen. -/
def firstNext (s : State) : List Instr → Option State
  | [] => none
  | i :: r => match exec i s with
    | .next t => some t
    | .fault _ => firstNext s r
    | .refused _ => firstNext s r

/-- An event of the machine's own. -/
def eventStep (s : State) : Option State := (firstNext s (internalEvents s)).map State.order

/-- Nothing can happen: time passes, and with it a slice or a hold may end. -/
def restStep (s : State) : Host.Outcome State Fault Refusal :=
  match firstNext s (idleEvents s) with
  | some t => .next t
  | none => .next (idleStep s)

/-- The default choice with an empty agenda (log 1): the next team to issue and the machine's own events take turns. -/
def defaultStep (s : State) : Host.Outcome State Fault Refusal :=
  if teamsFirst s then
    match pickTeam s with
    | some h => (issueTurn s h).act
    | none => match eventStep s with
      | some t => .next t
      | none => restStep s
  else
    match eventStep s with
    | some t => .next t
    | none => match pickTeam s with
      | some h => (issueTurn s h).act
      | none => restStep s

/-- What a step does before what goes with every step. A frozen package does nothing but COLD_RESET (R354). -/
def stepBody (s : State) : Host.Outcome State Fault Refusal :=
  match s.agenda with
  | a :: r =>
    if s.frozen && a != .event .coldReset then .fault .frozen
    else (headTurn { s with agenda := r } a).act
  | [] => if s.frozen then .fault .frozen else defaultStep s

/-- One step. -/
def step (s : State) : Host.Outcome State Fault Refusal :=
  match stepBody s with
  | .next t => .next (afterStep s t)
  | .fault f => .fault f
  | .refused r => .refused r

/-- The state with an instruction stored where the next step fetches; `w` numbers its bits as spec/opcode_table.json does
(log 3). -/
def State.withFetchWord (s : State) (nbits w : Nat) : State := placeWord s (tableBytes nbits w)

end Sys2Proof.Machine
end

