-- ==== Sys2Proof/Safety.lean ====
section
/-! DEFINITION. What claims about the machine speak of: the invariants of its tables, the team that issues, and what an
instruction of one team leaves alone. -/
namespace Sys2Proof.Machine

/-! ## Invariants -/

/-- The register tables of a team are in the canonical form. -/
def Regs.wf (g : Regs) : Bool := swf g.v && swf g.u && swf g.p && swf g.x
/-- Memory is in its canonical form. -/
def MemoryOk (s : State) : Prop := Memory.wf s.mem = true
/-- The registers of every team are in their canonical form. -/
def RegistersOk (s : State) : Prop := ∀ tm ∈ s.teams, tm.regs.wf = true

/-! ## The team that issues -/

/-- The team named by `cur` as its bench issues it: it may issue (R150), and runs; `wake` is what it waited for. -/
def issuing (s : State) : Option Here :=
  (here s s.cur).bind fun h =>
    if canIssue s h.t h.tm then some { h with tm := { h.tm with status := .running, before := none }, wake := h.tm.waited } else none

/-- A team issues that waits for no value: no register of it is outstanding or pending (R155, R157), no residue remains
(R159), no access is in flight, and it has not parked at this instruction for an entry, which it would then take (R166). -/
abbrev Quiet (s : State) (h : Here) : Prop :=
  issuing s = some h ∧ h.tm.claims = [] ∧ h.tm.residues = [] ∧ h.tm.inflight = [] ∧ h.tm.stalled = false

/-- The address after an instruction's words (R30). -/
def after (h : Here) (i : Instr) : W64 := h.tm.pc + BitVec.ofNat 64 (4 * (encode i).length)

/-! ## What an instruction leaves alone -/

/-- Nothing that a team's registers, time and the pass counters of its bench do not hold has changed: memory, byte by byte,
the other teams, scratchpads and tiles, caches, engines, matrix units, tables, queues and links. -/
structure Outside (t : Nat) (s s' : State) : Prop where
  memory    : ∀ a, sget s'.mem a = sget s.mem a
  keys      : s'.lineKey = s.lineKey
  others    : ∀ j, j ≠ t → s'.teams[j]? = s.teams[j]?
  cohorts   : s'.cohorts = s.cohorts
  gangs     : s'.gangs = s.gangs
  kernels   : s'.kernels = s.kernels
  queues    : s'.queues = s.queues
  slots     : s'.slots = s.slots
  contexts  : s'.ctxs = s.ctxs
  caches    : ∀ c : Nat, (s'.cores[c]?).map Core.l1 = (s.cores[c]?).map Core.l1 ∧ (s'.cores[c]?).map Core.ccache = (s.cores[c]?).map Core.ccache
                ∧ (s'.cores[c]?).map Core.icache = (s.cores[c]?).map Core.icache
  engines   : ∀ e, s'.engine? e = s.engine? e
  units     : ∀ c b : Nat, (s'.bench? c b).map (fun (x : Bench) => (x.queue, x.nxmat, x.tl, x.mprog, x.ramp, x.burst, x.mfill, x.fault, x.need, x.stuck))
                = (s.bench? c b).map (fun (x : Bench) => (x.queue, x.nxmat, x.tl, x.mprog, x.ramp, x.burst, x.mfill, x.fault, x.need, x.stuck))
  tlbs      : s'.tlbs = s.tlbs
  tags      : s'.tags = s.tags
  copies    : s'.dieCopies = s.dieCopies
  requests  : s'.reqs = s.reqs
  exports   : s'.directory = s.directory ∧ s'.ingress = s.ingress ∧ s'.egress = s.egress
  links     : s'.ueOut = s.ueOut ∧ s'.spanOut = s.spanOut ∧ s'.uePorts = s.uePorts ∧ s'.spanPorts = s.spanPorts
  agenda    : s'.agenda = s.agenda ∧ s'.svcQ = s.svcQ
  flits     : s'.flitsOut = s.flitsOut ∧ s'.nextTag = s.nextTag ∧ s'.inbound = s.inbound ∧ s'.revoking = s.revoking
  device    : s'.msc = s.msc ∧ s'.bloom = s.bloom ∧ s'.hot = s.hot ∧ s'.hthresh = s.hthresh ∧ s'.sessions = s.sessions
                ∧ s'.regions = s.regions ∧ s'.keys = s.keys ∧ s'.replaced = s.replaced ∧ s'.disabled = s.disabled
  bringUp   : s'.boot = s.boot ∧ s'.image = s.image ∧ s'.fwHash = s.fwHash ∧ s'.cfgHash = s.cfgHash ∧ s'.cfg = s.cfg ∧ s'.frozen = s.frozen

/-- An instruction that acts on its team alone: in `s` it answers a next state in which the team `tm` stands at `pc`, having
issued `n` passes, of which those of the words in `owed` are still to come (R151, R259), its switch marker has acted (R155 to R157), and
nothing outside the team has changed. -/
def Did (i : Instr) (s : State) (h : Here) (sw : Bool) (tm : Team) (pc : W64) (n : Nat) : Prop :=
  ∃ t age owed, exec i s = .next t ∧ Outside h.t s t
    ∧ t.teams[h.t]? = some (marker sw h.tm.mode.df
        { tm with pc := pc, passes := h.tm.passes + BitVec.ofNat 64 n, age := age, owed := owed, banks := keepBanks owed tm.banks,
                  stalled := false, resumed := false })

/-- A lane result (R71): in every lane that takes part, the `n` registers of the destination hold the low bits of `val`, and
nothing else of the registers has changed. -/
structure LaneResult (f : Frame) (g : Regs) (d : Dst) (n : Nat) (val : Nat → Nat) : Prop where
  result : ∀ l ∈ f.on, laneNat g l ((⟨d, n, false⟩ : VRef).first f l) n = val l % 2 ^ (32 * n)
  others : ∀ r l, l < 1024 → ¬(l ∈ f.on ∧ (⟨d, n, false⟩ : VRef).first f l ≤ r ∧ r < (⟨d, n, false⟩ : VRef).first f l + n) →
    g.vget r l = f.regs.vget r l
  uniform : g.u = f.regs.u
  preds  : g.p = f.regs.p
  index  : g.x = f.regs.x
  windows : g.win = f.regs.win

/-- A predicate result (R71, R34): in every lane that takes part the predicate holds `val`; p0 stays true everywhere, and
nothing else of the registers has changed. -/
structure PredResult (f : Frame) (g : Regs) (p : PReg) (val : Nat → Bool) : Prop where
  result : ∀ l ∈ f.on, (g.pget p.val).getLsbD l = (p = 0 || val l)
  others : ∀ q l, l < 1024 → ¬(l ∈ f.on ∧ q = p.val) → (g.pget q).getLsbD l = (f.regs.pget q).getLsbD l
  lanes  : g.v = f.regs.v
  uniform : g.u = f.regs.u
  index  : g.x = f.regs.x
  windows : g.win = f.regs.win

/-! ## What an instruction asks of its operands, and what it computes -/

/-- The operands of an instruction can be used: its issue-time check passes (R48), its spans are legal (R39), the check of its operands'
values names no fault (R252), and every index it uses lies in its window (R38). -/
def Ready (jf : Frame → Job) (f : Frame) : Prop :=
  (jf f).ok f = true ∧ (jf f).spansOk = true ∧ (jf f).check f = none ∧ (jf f).badLanes f ((jf f).lanesIn f) = []

/-- An instruction that goes on at the next word, having changed its team's registers to ones of which `post` holds and raised
the sticky flags `fl`, in some number of passes, and nothing else. -/
def Computed (i : Instr) (s : State) (h : Here) (sw : Bool) (fl : Flags) (post : Regs → Prop) : Prop :=
  ∃ (g : Regs) (n : Nat), Did i s h sw { h.tm with regs := g, flags := h.tm.flags ||| fl } (after h i) n ∧ post g

/-- The flags that the lanes of a list raise together. -/
def flagsOver (ls : List Nat) (fl : Nat → Flags) : Flags := ls.foldl (fun x l => x ||| fl l) 0

/-- A lane instruction computes `val`, raising the flags of each result, into the `n` registers of `d` in every lane that takes
part (R59, R71). -/
def LaneDid (i : Instr) (s : State) (h : Here) (sw : Bool) (d : Dst) (n : Nat) (val : Nat → Nat × Flags) : Prop :=
  Computed i s h sw (flagsOver h.frame.on fun l => (val l).2) fun g => LaneResult h.frame g d n fun l => (val l).1

/-- A lane instruction computes `val`, raising the flags of each result, into predicate `p` in every lane that takes part (R59,
R71). -/
def PredDid (i : Instr) (s : State) (h : Here) (sw : Bool) (p : PReg) (val : Nat → Bool × Flags) : Prop :=
  Computed i s h sw (flagsOver h.frame.on fun l => (val l).2) fun g => PredResult h.frame g p fun l => (val l).1

/-- A variable-latency instruction has issued (R155): its team goes on at the next word with one access in flight, whose writes
will be `w`; every register of `ds` waits for it in the lanes it is to write, and no register has changed yet. -/
def SentOff (i : Instr) (s : State) (h : Here) (sw : Bool) (ds : List RegKey) (w : Writes) : Prop :=
  ∃ (a : InFlight) (n : Nat) (lanes : RegKey → Mask),
    Did i s h sw { h.tm with
      inflight := [a], nextId := h.tm.nextId + 1, claims := ds.map fun k => ⟨k, h.tm.nextId, false, 0, lanes k⟩ } (after h i) n
      ∧ a.id = h.tm.nextId ∧ a.instr = i ∧ a.writes = w ∧ a.bytes = [] ∧ a.need = [] ∧ a.tile = none

/-! ## f32 words -/

/-- A f32 word is finite (R52). -/
def f32Finite (x : Nat) : Prop := x / 2 ^ 23 % 2 ^ 8 ≠ 255
/-- A f32 word is a NaN (R52). -/
def f32IsNan (x : Nat) : Prop := x / 2 ^ 23 % 2 ^ 8 = 255 ∧ x % 2 ^ 23 ≠ 0
/-- The value of a finite f32 word (R52), times 2¹⁴⁹. -/
def f32Int (x : Nat) : Int :=
  let e := x / 2 ^ 23 % 2 ^ 8
  let m : Nat := if e = 0 then x % 2 ^ 23 else (2 ^ 23 + x % 2 ^ 23) * 2 ^ (e - 1)
  if x / 2 ^ 31 % 2 = 1 then -(m : Int) else m

/-! ## Accesses to memory -/

/-- No comparator of the context stops a team or halts the context (R355, R356). -/
def NoWatch (h : Here) : Prop := ∀ c ∈ h.cx.comps, c.action ≠ 1 ∧ c.action ≠ 2

/-- Where the accesses of an instruction go, what they ask of a leaf, how they are aligned and what they are, lane by lane (R117 to
R120, R122, R128). -/
def accessOf (i : Instr) (f : Frame) : Option (Space × Need × Nat × List Acc) :=
  let t := f.mode.t
  let by_ (sp : Space) (n : Need) (a : Base) (o : Offset) (m : MemForm) : Option (Space × Need × Nat × List Acc) :=
    some (sp, n, formAlign t m, accsOf sp f a o (formBytes t m))
  match i with
  | .ld _ _ a o _ m => by_ (.glob true) .read a o m
  | .ldc _ _ a o m => by_ (.glob false) .read a o m
  | .lds _ _ a o _ m => by_ (.spad true) .read a o m
  | .ldq _ _ a o _ m => by_ (.spad false) .read a o m
  | .st _ _ a o _ m => by_ (.glob true) .write a o m
  | .sts _ _ a o _ m => by_ (.spad true) .write a o m
  | .stq _ _ a o _ m => by_ (.spad false) .write a o m
  | .atom _ _ a o _ _ => by_ (.glob true) .both a o .nat
  | .atomar _ _ a o _ _ => by_ (.glob true) .both a o .nat
  | .cas _ _ a o _ => by_ (.glob true) .both a o .nat
  | .atoms _ _ a o _ _ => by_ (.spad false) .both a o .nat
  | .uld _ _ a o _ m => some (.glob true, .read, uniBytes m, uniAccs f a o m)
  | .ust _ _ a o _ m => some (.glob true, .write, uniBytes m, uniAccs f a o m)
  | _ => none

/-- What an access leaves of its team: it goes on at the next word, and its registers, MODE, masks, stack, flags, region record,
TRAPVEC, staged commands, residues, posted updates and barrier uses are as they were. -/
structure GoesOn (i : Instr) (h : Here) (tm : Team) : Prop where
  pc       : tm.pc = after h i
  regs     : tm.regs = h.tm.regs
  mode     : tm.mode = h.tm.mode
  active   : tm.active = h.tm.active
  live     : tm.live = h.tm.live
  stack    : tm.stack = h.tm.stack
  flags    : tm.flags = h.tm.flags
  region   : tm.regions = h.tm.regions ∧ tm.repc = h.tm.repc ∧ tm.rmask = h.tm.rmask ∧ tm.rdepth = h.tm.rdepth
  trapvec  : tm.trapvec = h.tm.trapvec
  staged   : tm.stage0 = h.tm.stage0 ∧ tm.stage2 = h.tm.stage2
  residues : tm.residues = h.tm.residues
  posts    : tm.posts = h.tm.posts
  bars     : tm.bars = h.tm.bars
  monitor  : tm.monitor = h.tm.monitor

/-- Whatever is written at the addresses, no record of a context that has not been destroyed has ASV or a reserved byte at one of them,
and no state record of a queue its QFLAGS, its QPRIO or a reserved byte, so that a write to them leaves what it writes (R5, R294,
R318). -/
def PlainAt (s : State) (as : List Nat) : Prop :=
  (∀ c ∈ s.ctxs, c.state ≠ .destroyed → ∀ a ∈ as, c.recAt ≤ a → a < c.recAt + 128 → ctxReserved (a - c.recAt) = false ∧ a ≠ c.recAt + 7)
    ∧ ∀ m : Sparse 8, (∀ a, a ∉ as → sget m a = sget s.mem a) → ∀ q ∈ s.queues, ∀ a ∈ as,
    (∀ b, queueField { s with mem := m } q 0 = some b → b ≤ a → a < b + 128 → queueReserved (a - b) = false ∧ a ≠ b + 0x3C)
      ∧ ∀ b, queueField { s with mem := m } q 0x0C = some b → ¬(b ≤ a ∧ a < b + 4)

/-- The dirty bytes that a core's L1 holds in the local lines that a condition picks: physical address and byte. -/
def dirtyOf (s : State) (core : Nat) (p : L1Line → Bool) : List (Nat × Byte) :=
  ((s.cores[core]?).map fun c => (c.l1.filter fun x => p x && !importedLine x.line).flatMap fun x =>
    x.dirty.map fun q => (x.line * 128 + q.1, q.2)).getD []
/-- No address has two different bytes in the list. -/
def OneEach (d : List (Nat × Byte)) : Prop := ∀ u ∈ d, ∀ v ∈ d, u.1 = v.1 → u.2 = v.2
/-- The byte of an address where the bytes of a list have reached memory. -/
def byteOver (d : List (Nat × Byte)) (m : Sparse 8) (a : Nat) : Byte := ((d.find? fun p => p.1 = a).map (·.2)).getD (sget m a)
/-- A unit reads the chunks of a list one after the other, from chunk `j` on in a state, each after the one before has been applied
(R233, R238). -/
def ChunksRead (done : State → Chunk → Nat → State) (read : State → Nat → Got Chunk) : List Chunk → Nat → State → Prop
  | [], _, _ => True
  | ch :: chs, j, s => ∃ s1, read s j = .ok s1 ch ∧ ChunksRead done read chs (j + 1) (done s1 ch j)
/-- Column `n` of row `m` of a tile after a chunk, whose elements there are what the row has and the column of B that each meets
(R66, R233): a row without positions keeps its bits. -/
def chunkElem (mt : MatTy) (bits m n : Nat) (x : Nat) (ch : Chunk) : Nat :=
  match ch.rows[m]? with
  | some r => if r.2 = [] then x
      else macElem mt x (r.2.map fun p => (p.1, (((ch.b.find? fun y => y.1 = p.2).map (·.2)).getD []).getD n 0))
        (scaleExp ch.sa ch.sb m n) % 2 ^ bits
  | none => x

/-- The bytes of a list stand in memory, and every other byte is as it was. -/
def Reached (d : List (Nat × Byte)) (m m' : Sparse 8) : Prop := ∀ a, sget m' a = byteOver d m a

/-- The byte at a place that a command reads or writes, as `byteKeys` numbers places: of a scratchpad, or at home. -/
def placeByte (s : State) (k : Nat) : Byte :=
  if k < 2 ^ 60 then sget s.mem k
  else sget (((s.cohorts[(k - 2 ^ 60) / 2 ^ 22]?).map Cohort.sp).getD []) ((k - 2 ^ 60) % 2 ^ 22)

/-- The byte that a core finds at a local address of a cacheable page: dirty or clean in its L1, else at home (R170). -/
def seenByte (s : State) (core pa : Nat) : Byte := (l1Byte s core (lineOf pa) (pa % 128)).getD (sget s.mem pa)

end Sys2Proof.Machine
end

