-- ==== Sys2Proof/Certificates/Slice0/Obligations.lean ====
section
/-! DEFINITION. The statements about the machine that the provers prove, family by family in the order of the spec's sections.
Vocabulary (the team that issues, what is left alone, results by lane) is in Sys2Proof/Safety.lean. -/
open Sys2Proof Sys2Proof.Machine

/-! ## Encoding (spec/03_encoding.md) -/

/-- Decoding the words of a well-formed instruction gives it back, with every operand, and leaves what follows (R29 to R36, R45 to
R47). -/
def Obligations.DecodeEncode : Prop :=
  ∀ i : Instr, i.isWord = true → i.wf = true → ∀ rest : List W32, decodeWords (encode i ++ rest) = some (i, rest)

/-- Whatever decodes is a well-formed instruction word, takes as many words as its encoding has, and is what that encoding decodes
to. -/
def Obligations.DecodedIsWellFormed : Prop :=
  ∀ (ws : List W32) (i : Instr) (rest : List W32), decodeWords ws = some (i, rest) →
    i.isWord = true ∧ i.wf = true ∧ ws.length = (encode i).length + rest.length ∧ decodeWords (encode i ++ rest) = some (i, rest)

/-- Words written out from the encoding tables decode to the instructions they stand for: `nop`, a branch back by two words, `add
v1, v2, s3` with a switch marker, `uadd s4, s5, literal`, `ld v6, [s7 + literal]` in stream 2, `mma`, and major 0x47, to which R45
gives no instruction. -/
def Obligations.DecodingRight : Prop :=
  decodeWords [0x00000000#32] = some (.nop false, [])
    ∧ decodeWords [0x02FFFFFE#32] = some (.bra false (-2), [])
    ∧ decodeWords [0x900102C3#32] = some (.add true (.v 1) (.v 2) (.s 3), [])
    ∧ decodeWords [0x48C4C5F0#32, 0xFFFFFFFF#32] = some (.uadd false 4 (.s 5) (.lit 0xFFFFFFFF), [])
    ∧ decodeWords [0x5806C728#32, 0x00000010#32] = some (.ld false (.v 6) (.s 7) (some 0x10) 2 .nat, [])
    ∧ decodeWords [0x7002C0C4#32] = some (.mma false 2 0 4, [])
    ∧ decodeWords [0x47000000#32] = none

/-! ## Steps (spec/03_encoding.md R29 to R31, spec/07_issue_and_deferring.md R150, spec/25_debug_ras_boot.md R354) -/

/-- A step runs the decoded instruction: when it is a team's turn, no comparator halts it and no handler's entry is due, and the
words at its PC can be fetched, the step is `exec` of the instruction that they decode to, in the state that the fetch leaves; words
that decode refuses raise ILLEGAL (R48). Passes that the team owes come first (R151), and then its oldest residue where that may run
(R160). With every turn goes what the bench notes of its waiting teams (R150), the parking of teams whose next instruction a pending
register or a residue holds up (R150, R267), the fault records that find room, the update of the context records at home (R318) and
the refusal of inbound requests past their deadline (R351). The choice of the turn is the model's (log 1), and so is it that an
instruction's effects belong to its first turn (log 100). -/
def Obligations.StepRunsDecoded : Prop :=
  ∀ (s : State) (h : Here), s.agenda = [] → s.frozen = false → teamsFirst s = true → pickTeam s = some h →
    let ends (o : Outcome State) : Outcome State := match o with
      | .next t => .next (afterStep s (afterTurn h.core h.bench t))
      | o => o
    (h.tm.owed ≠ [] → ∃ t age, step s = ends (.next t) ∧ t.mem = s.mem
        ∧ t.teams = s.teams.set h.t { h.tm with
              owed := (turnCut 0 h.tm.owed).2, banks := keepBanks (turnCut 0 h.tm.owed).2 h.tm.banks, age := age })
      ∧ (h.tm.owed = [] → residueDue h.tm = true → step s = ends (exec (.residueRun h.t) s))
      ∧ (h.tm.owed = [] → residueDue h.tm = false →
        (∀ c i l f a, h.tm.status.wake? ≠ some (.handler c i l f a)) → pcHalts h = [] →
        ∀ (s1 s2 : State) (w : W32) (ws : List W32), fetchWord { s with cur := h.t } h h.tm.pc = .ok s1 w →
          fetchMore h (wordCount w - 1) (h.tm.pc + 4) [w] s1 = .ok (s2, ws) →
          (∀ i rest, decodeWords ws = some (i, rest) → step s = ends (exec i s2))
            ∧ (decodeWords ws = none → step s = ends (exec (.illegalInstruction w) s2)))

/-- A word is fetched by the virtual address (R31): an address that R118 refuses takes PROT, a walk's fault is the fetch's, and a
local address gives four bytes, least significant first. A line that the core's instruction cache holds (R13) gives its bytes as they
were filled; one that it does not hold is read at home and held from then on, with memory as the translation left it. When a line is
filled and when it leaves the cache is the model's choice (log 9, DESIGN CHOICE). -/
def Obligations.FetchReadsHome : Prop :=
  ∀ (s : State) (h : Here) (va : W64),
    (ordinary va = false → fetchWord s h va = .fault s 0x06 va)
      ∧ (∀ s1 e, ordinary va = true → xlateFor s h.core h.asid h.cx.ptroot.toNat va .fetch = (s1, .error e) →
          fetchWord s h va = .fault s1 e.code va)
      ∧ (∀ s1 x, ordinary va = true → xlateFor s h.core h.asid h.cx.ptroot.toNat va .fetch = (s1, .ok x) → x.pa % 4 = 0 →
          (∀ d, codeHeld s1 h.core (lineOf x.pa) = some d → fetchWord s h va = .ok s1 (BitVec.ofNat 32 (readNat d (x.pa % 128) 4)))
            ∧ (codeHeld s1 h.core (lineOf x.pa) = none → x.pa < apertureBase →
              ∃ t, fetchWord s h va = .ok t (BitVec.ofNat 32 (readNat s1.mem x.pa 4)) ∧ t.mem = s1.mem ∧ t.teams = s1.teams
                ∧ ((s1.cores[h.core]?).isSome = true → ∃ d, codeHeld t h.core (lineOf x.pa) = some d
                  ∧ ∀ o, o < 128 → sget d o = sget s1.mem (lineOf x.pa * 128 + o))))

/-- Events. An event at the head of the agenda is what the step does (log 1), with the parking of teams that cannot issue (R150), the
fault records that find room, the update of the context records at home (R318) and the refusal of inbound requests past their
deadline (R351) that go with every step. A residue runs in its team's issue slots (R160): only where its bench picks that team, and
as its turn (R150). FREEZE
stops the package (R354): what it leaves is the state with every clock stopped, and from then on a step does nothing but a cold
reset. -/
def Obligations.StepRunsEvents : Prop :=
  (∀ (s : State) (i : Instr) (r : List Happening), s.agenda = .event i :: r → s.frozen = false → i.isWord = false →
      (∀ w, i ≠ .illegalInstruction w) → (∀ t, i ≠ .residueRun t) → step s = match exec i { s with agenda := r } with
        | .next t => .next (afterStep s t)
        | o => o)
    ∧ (∀ (s : State) (n : Nat) (r : List Happening) (h : Here), s.agenda = .event (.residueRun n) :: r → s.frozen = false →
      here { s with agenda := r } n = some h →
      let picked := (benchPick { s with agenda := r } (readyTeams { s with agenda := r }) h.core h.bench).map (·.t) = some n
      ((¬picked ∨ h.tm.owed ≠ [] ∨ residueDue h.tm = false) → step s = .fault .notEnabled)
        ∧ (picked → h.tm.owed = [] → residueDue h.tm = true → step s = match exec (.residueRun n) { s with agenda := r } with
          | .next t => .next (afterStep s (afterTurn h.core h.bench t))
          | o => o))
    ∧ (∀ s, exec .freeze s = .next { s with frozen := true })
    ∧ (∀ s, s.frozen = true → (∀ r, s.agenda ≠ .event .coldReset :: r) → step s = .fault .frozen)
    ∧ (∀ s r, s.agenda = .event .coldReset :: r → ∃ t, step s = .next t ∧ t.frozen = false ∧ t.boot = .rom)
    ∧ (∀ s, ∃ t, exec .coldReset s = .next t ∧ t.frozen = false ∧ t.boot = .rom ∧ t.ctxs = [] ∧ t.teams = [])

/-! ## Reset and invariants -/

/-- After reset the service cores start from ROM (R362), every engine context has NEXT 1 and TL 0 (R138), a `mhint`'s BURST and ramp
are 0 and IDLE (R236), and both invariants of the model hold. That ports are DOWN, that no context exists and that the caches hold
nothing is the model's choice (log 20, DESIGN CHOICE): the spec gives them no reset value. -/
def Obligations.ResetIsBringUp : Prop :=
  State.reset.boot = .rom ∧ State.reset.ctxs = [] ∧ State.reset.teams = [] ∧ State.reset.frozen = false
    ∧ (∀ p ∈ State.reset.uePorts ++ State.reset.spanPorts, p.state = .down)
    ∧ (∀ c ∈ State.reset.cores, c.l1 = [] ∧ c.ccache = [] ∧ c.icache = []
        ∧ (∀ e ∈ c.settle :: c.carter ++ c.sifter, e.next = 1 ∧ e.tl = 0 ∧ e.queue = [] ∧ e.halted = false)
        ∧ (∀ b ∈ c.benches, b.nxmat = 1 ∧ b.tl = 0 ∧ b.ramp = .idle ∧ b.burst = 0 ∧ b.queue = []))
    ∧ State.reset.cores.length = 128 ∧ State.reset.slots.length = 64 ∧ MemoryOk State.reset ∧ RegistersOk State.reset

/-- Memory stays in its canonical form (the model's, with its zero byte at an unlisted address: log 4), whatever a step does. -/
def Obligations.MemoryStaysCanonical : Prop := ∀ s t, MemoryOk s → step s = .next t → MemoryOk t

/-- The register tables of every team stay in their canonical form, whatever a step does. -/
def Obligations.RegistersStayCanonical : Prop := ∀ s t, RegistersOk s → step s = .next t → RegistersOk t

/-- What is written is read back. Memory at home (R170): of bytes at different addresses each is read back, every other byte stays,
the canonical form (log 4) is kept, and a number is read back as it was written, least significant byte first (R3). Registers (R34,
R35): p0 reads true in every lane and a write to it is discarded; another predicate and a uniform register read back what was
written, and no other register changes. -/
def Obligations.WritesReadBack : Prop :=
  (∀ (s : State) (key : Nat), MemoryOk s →
    (∀ ws : List (Nat × Byte), (ws.map (·.1)).Nodup →
      MemoryOk (homeWriteRaw s key ws) ∧ (∀ p ∈ ws, sget (homeWriteRaw s key ws).mem p.1 = p.2)
        ∧ (∀ a, a ∉ ws.map (·.1) → sget (homeWriteRaw s key ws).mem a = sget s.mem a))
      ∧ ∀ pa n x, readNat (homeWriteRaw s key (atAddrs pa (bytesOf n x))).mem pa n = x % 2 ^ (8 * n))
    ∧ (∀ g : Regs, g.wf = true →
      g.pget 0 = BitVec.allOnes 1024 ∧ (∀ m b, g.pset 0 m b = g)
        ∧ (∀ (p : Nat) (m b : Mask), p ≠ 0 → (g.pset p m b).pget p = (g.pget p &&& ~~~m) ||| (b &&& m)
            ∧ ∀ q, q ≠ p → (g.pset p m b).pget q = g.pget q)
        ∧ (∀ (r : Nat) (x : W64), (g.uset r x).uget r = x ∧ ∀ k, k ≠ r → (g.uset r x).uget k = g.uget k))

/-! ## Control flow (spec/05_instructions_core.md R72 to R86) -/

/-- NOP, BRA, CALL and JMPI (R75, R31). `nop` goes on at the next word, `bra` at PC + 4 × offset. `call` pushes a CALL entry with
the next address and M and goes to PC + 4 × offset; with 256 entries held it raises STACK. `jmpi` goes to its operand; one that is
no multiple of 4 raises ALIGN, with ADDR 0 (the model's reading: log 45). Nothing else changes. -/
def Obligations.Jumps : Prop :=
  ∀ (sw : Bool) (s : State) (h : Here), issuing s = some h →
    let fault (code : Byte) : Outcome State := .next (takeFault s h h.tm (.plain code h.tm.pc h.tm.active 0) h.tm.pc)
    Did (.nop sw) s h sw h.tm (h.tm.pc + 4) 1
      ∧ (∀ off : BitVec 24, let go : W64 := h.tm.pc + 4 * off.signExtend 64
        Did (.bra sw off) s h sw h.tm go 1
          ∧ (h.tm.stack.length < 256 →
            Did (.call sw off) s h sw { h.tm with stack := ⟨.call, h.tm.pc + 4, h.tm.active⟩ :: h.tm.stack } go 1)
          ∧ (256 ≤ h.tm.stack.length → exec (.call sw off) s = fault 0x0F))
      ∧ (∀ a : USrc, Quiet s h → ((usrcVal h.frame a).toNat % 4 = 0 → Did (.jmpi sw a) s h sw h.tm (usrcVal h.frame a) 1)
        ∧ ((usrcVal h.frame a).toNat % 4 ≠ 0 → exec (.jmpi sw a) s = fault 0x04))

/-- BRALL and BRANY (R76): with t(L) = p[L] XOR NEG, BRALL branches when t(L) holds for every lane of M, BRANY when it holds for
some lane of M; M is unchanged. -/
def Obligations.UniformBranches : Prop :=
  ∀ (sw : Bool) (p : PReg) (neg : Bool) (off : BitVec 20) (s : State) (h : Here), Quiet s h →
    let t : Nat → Bool := fun l => ((h.tm.regs.pget p.val).getLsbD l) != neg
    let go : W64 := h.tm.pc + 4 * off.signExtend 64
    ((∀ l ∈ lanesOf h.tm.active, t l = true) → Did (.brall sw p neg off) s h sw h.tm go 1)
      ∧ ((∃ l ∈ lanesOf h.tm.active, t l = false) → Did (.brall sw p neg off) s h sw h.tm (h.tm.pc + 4) 1)
      ∧ ((∃ l ∈ lanesOf h.tm.active, t l = true) → Did (.brany sw p neg off) s h sw h.tm go 1)
      ∧ ((∀ l ∈ lanesOf h.tm.active, t l = false) → Did (.brany sw p neg off) s h sw h.tm (h.tm.pc + 4) 1)

/-- BRD (R77): E are the lanes of M where t does not hold, T those where it does. A DIV entry for the join point with M is pushed;
with no lane in E the team branches, with none in T it falls through, and otherwise a PEND entry for T is pushed and the team falls
through with E. Where the stack does not hold what is pushed, STACK is raised. -/
def Obligations.DivergentBranch : Prop :=
  ∀ (sw : Bool) (p : PReg) (neg : Bool) (off : BitVec 20) (j : W32) (s : State) (h : Here), Quiet s h →
    let t := testLanes h.frame p neg
    let e := h.tm.active &&& ~~~t
    let div : Entry := ⟨.div, h.tm.pc + 4 * j.signExtend 64, h.tm.active⟩
    let go : W64 := h.tm.pc + 4 * off.signExtend 64
    let i : Instr := .brd sw p neg off j
    (h.tm.stack.length < 256 → e = 0 → Did i s h sw { h.tm with stack := div :: h.tm.stack } go 1)
      ∧ (h.tm.stack.length < 256 → e ≠ 0 → t = 0 → Did i s h sw { h.tm with stack := div :: h.tm.stack } (h.tm.pc + 8) 1)
      ∧ (h.tm.stack.length < 255 → e ≠ 0 → t ≠ 0 →
          Did i s h sw { h.tm with stack := ⟨.pend, go, t⟩ :: div :: h.tm.stack, active := e } (h.tm.pc + 8) 1)
      ∧ ((256 ≤ h.tm.stack.length ∨ (255 ≤ h.tm.stack.length ∧ e ≠ 0 ∧ t ≠ 0)) →
          exec i s = .next (takeFault s h h.tm (.plain 0x0F h.tm.pc h.tm.active 0) h.tm.pc))

/-- JOIN and RET (R74, R75, R78, R84, R314), where the top entry holds a live lane: RET takes a CALL entry and JOIN every other one;
M becomes the entry's lanes that are live and the PC the entry's; a TRAP entry restores MODE and s28 to s31, and what the team was
waiting for at the instruction resumed (the model's own field: log 96). A pop below RDEPTH also
opens a region at the new PC with the new M. STACK is raised by JOIN on an empty stack or a CALL entry, and by RET on an empty stack
or any other entry. -/
def Obligations.Pops : Prop :=
  (∀ (sw : Bool) (s : State) (h : Here) (e : Entry) (r : List Entry), Quiet s h →
    h.tm.stack = e :: r → e.mask &&& h.tm.live ≠ 0 →
    let tm := { h.tm with active := e.mask &&& h.tm.live, stack := r }
    let opened (pc : W64) : Team := { tm with
      regions := h.tm.regions + 1, repc := pc, rmask := e.mask &&& h.tm.live, rdepth := r.length }
    (h.tm.rdepth ≤ r.length →
      ((e.kind = .div ∨ e.kind = .pend) → Did (.join sw) s h sw tm e.pc 1)
        ∧ (e.kind = .call → Did (.ret sw) s h sw tm e.pc 1)
        ∧ (∀ x, e.kind = .trap x → ∃ g, Did (.join sw) s h sw { tm with mode := x.mode, regs := g, before := x.wake } x.pc 1
          ∧ (RegistersOk s → g.uget 28 = x.s28 ∧ g.uget 29 = x.s29 ∧ g.uget 30 = x.s30 ∧ g.uget 31 = x.s31)
          ∧ (∀ k, k < 28 ∨ 31 < k → g.uget k = h.tm.regs.uget k) ∧ g.v = h.tm.regs.v ∧ g.p = h.tm.regs.p ∧ g.x = h.tm.regs.x))
      ∧ (r.length < h.tm.rdepth →
        ((e.kind = .div ∨ e.kind = .pend) → Did (.join sw) s h sw (opened e.pc) e.pc 1)
          ∧ (e.kind = .call → Did (.ret sw) s h sw (opened e.pc) e.pc 1)
          ∧ (∀ x, e.kind = .trap x → ∃ g, Did (.join sw) s h sw { opened x.pc with mode := x.mode, regs := g, before := x.wake } x.pc 1
            ∧ (RegistersOk s → g.uget 28 = x.s28 ∧ g.uget 29 = x.s29 ∧ g.uget 30 = x.s30 ∧ g.uget 31 = x.s31))))
    ∧ (∀ (sw : Bool) (s : State) (h : Here), issuing s = some h →
      let stack : Outcome State := .next (takeFault s h h.tm (.plain 0x0F h.tm.pc h.tm.active 0) h.tm.pc)
      (h.tm.stack = [] → exec (.join sw) s = stack ∧ exec (.ret sw) s = stack)
        ∧ (∀ e r, h.tm.stack = e :: r → (e.kind = .call → exec (.join sw) s = stack) ∧ (e.kind ≠ .call → exec (.ret sw) s = stack)))

/-- LOOP (R79): s := s − 1 modulo 2⁶⁴, and a branch where the new s is not zero; a counter of zero wraps and branches (R21). M is
unchanged, as is every register but s. -/
def Obligations.LoopCounts : Prop :=
  ∀ (sw : Bool) (c : SReg) (off : BitVec 16) (s : State) (h : Here), Quiet s h → RegistersOk s →
    let x := h.tm.regs.uget c.val - 1
    ∃ g, Did (.loop sw c off) s h sw { h.tm with regs := g } (if x = 0 then h.tm.pc + 4 else h.tm.pc + 4 * off.signExtend 64) 1
      ∧ g.uget c.val = x ∧ (∀ k, k ≠ c.val → g.uget k = h.tm.regs.uget k)
      ∧ g.v = h.tm.regs.v ∧ g.p = h.tm.regs.p ∧ g.x = h.tm.regs.x ∧ g.win = h.tm.regs.win

/-- SETM (R42, R86) writes its field of MODE and no other. A write of DF goes on where no residue remains; while one does, the team
parks at it, and neither MODE nor anything else changes (R163). That the marker of a word that writes DF acts under the DF before the write
is the model's reading (log 106). -/
def Obligations.SetmWritesOneField : Prop :=
  ∀ (sw : Bool) (s : State) (h : Here), issuing s = some h →
    let m := h.tm.mode
    let did (f : ModeField) (m' : Mode) : Prop := Did (.setm sw f) s h sw { h.tm with mode := m' } (h.tm.pc + 4) 1
    (∀ n p, did (.g n p) { m with g := p, gn := n }) ∧ (∀ p, did (.s p) { m with s := p }) ∧ (∀ t, did (.t t) { m with t := t })
      ∧ (∀ r, did (.rnd r) { m with rnd := r }) ∧ (∀ b, did (.sat b) { m with sat := b }) ∧ (∀ b, did (.ftz b) { m with ftz := b })
      ∧ (∀ c, did (.sc c) { m with sc := c }) ∧ (∀ b, h.tm.residues = [] → did (.df b) { m with df := b })
      ∧ (∀ b, h.tm.residues ≠ [] →
        exec (.setm sw (.df b)) s = .next { s with teams := s.teams.set h.t { h.tm with status := .parked .residues } })

/-- REGION, DRAIN and YIELD (R82, R83, R85) with nothing deferred or outstanding: REGION raises REC and records REPC, RMASK and
RDEPTH; DRAIN changes nothing else; nor does YIELD unless a pre-emption is pending. With a residue or an outstanding destination
DRAIN, REGION and EXIT (R80) park the team at the instruction, and nothing else changes. -/
def Obligations.RegionDrainYield : Prop :=
  (∀ (sw : Bool) (s : State) (h : Here), Quiet s h →
    Did (.region sw) s h sw { h.tm with
        regions := h.tm.regions + 1, repc := h.tm.pc + 4, rmask := h.tm.active, rdepth := h.tm.stack.length } (h.tm.pc + 4) 1
      ∧ Did (.drain sw) s h sw h.tm (h.tm.pc + 4) 1
      ∧ (h.ga.state ≠ .capturing → Did (.yield sw) s h sw h.tm (h.tm.pc + 4) 1)
      ∧ (h.ga.state = .capturing → ∃ t tm, exec (.yield sw) s = .next t ∧ t.teams[h.t]? = some tm
          ∧ tm.status = .blocked .preempted ∧ tm.pc = h.tm.pc + 4 ∧ tm.regs = h.tm.regs))
    ∧ (∀ (sw : Bool) (s : State) (h : Here) (i : Instr), issuing s = some h → (h.tm.residues ≠ [] ∨ h.tm.claims ≠ []) →
      (i = .drain sw ∨ i = .region sw ∨ i = .exit sw) →
      exec i s = .next { s with teams := s.teams.set h.t { h.tm with status := .parked .drained } })

/-- EXIT (R74, R78, R80, R84): M leaves the live mask. Where no lane is live the team is RETIRED with an empty stack. Otherwise the
entries without a live lane are discarded and the first that holds one is taken, as `join` takes a DIV, PEND or TRAP entry and `ret` a
CALL entry. Where that leaves the stack below RDEPTH the pop also opens a region, once for all the entries popped (the model's
reading: log 44). -/
def Obligations.ExitLeaves : Prop :=
  ∀ (sw : Bool) (s : State) (h : Here), Quiet s h →
    let live := h.tm.live &&& ~~~h.tm.active
    (live = 0 → ∃ t tm, exec (.exit sw) s = .next t ∧ t.teams[h.t]? = some tm
        ∧ tm.status = .retired ∧ tm.live = 0 ∧ tm.active = 0 ∧ tm.stack = [] ∧ tm.regs = h.tm.regs ∧ t.mem = s.mem)
      ∧ (∀ dead e r, live ≠ 0 → h.tm.stack = dead ++ e :: r → (∀ x ∈ dead, x.mask &&& live = 0) → e.mask &&& live ≠ 0 →
        let tm := { h.tm with live := live, active := e.mask &&& live, stack := r }
        let opened (pc : W64) : Team := { tm with
          regions := h.tm.regions + 1, repc := pc, rmask := e.mask &&& live, rdepth := r.length }
        let takes (tm : W64 → Team) : Prop :=
          ((∀ x, e.kind ≠ .trap x) → Did (.exit sw) s h sw (tm e.pc) e.pc 1)
            ∧ ∀ x, e.kind = .trap x → ∃ g, Did (.exit sw) s h sw { tm x.pc with mode := x.mode, regs := g, before := x.wake } x.pc 1
              ∧ (RegistersOk s → g.uget 28 = x.s28 ∧ g.uget 29 = x.s29 ∧ g.uget 30 = x.s30 ∧ g.uget 31 = x.s31)
              ∧ (∀ k, k < 28 ∨ 31 < k → g.uget k = h.tm.regs.uget k) ∧ g.v = h.tm.regs.v ∧ g.p = h.tm.regs.p ∧ g.x = h.tm.regs.x
        (h.tm.rdepth ≤ r.length → takes fun _ => tm) ∧ (r.length < h.tm.rdepth → takes opened))

/-- TRAP (R81, R307, R309, R313) with nothing deferred or outstanding. Where TRAPVEC is not zero the handler is entered: a TRAP
entry keeps the next address, MODE, M and s28 to s31; s28 is the trap's PC, s29 the code 0x10 with the operand above it, s30 zero
and s31 the next address; G, GN and DF are cleared, M stays and the PC is TRAPVEC. Where TRAPVEC is zero the team is STOPPED at the
trap with BREAK, the operand in INFO, and the fault goes to its context's fault queue. -/
def Obligations.Traps : Prop :=
  ∀ (sw : Bool) (code : BitVec 24) (s : State) (h : Here), Quiet s h →
    (h.tm.trapvec ≠ 0 → h.tm.stack.length < 256 → RegistersOk s →
      ∃ t tm g, exec (.trap sw code) s = .next t ∧ t.teams[h.t]? = some tm ∧ tm.regs = g
        ∧ tm.pc = h.tm.trapvec ∧ tm.active = h.tm.active ∧ tm.status = .running
        ∧ tm.mode = { h.tm.mode with g := 0, gn := false, df := false }
        ∧ tm.stack = ⟨.trap ⟨h.tm.pc + 4, h.tm.mode, h.tm.regs.uget 28, h.tm.regs.uget 29, h.tm.regs.uget 30, h.tm.regs.uget 31, none⟩,
            h.tm.pc + 4, h.tm.active⟩ :: h.tm.stack
        ∧ g.uget 28 = h.tm.pc ∧ g.uget 29 = BitVec.ofNat 64 (0x10 + code.toNat * 256) ∧ g.uget 30 = 0 ∧ g.uget 31 = h.tm.pc + 4
        ∧ (∀ k, k < 28 → g.uget k = h.tm.regs.uget k) ∧ g.v = h.tm.regs.v ∧ g.p = h.tm.regs.p ∧ g.x = h.tm.regs.x)
      ∧ (h.tm.trapvec = 0 → ∃ f tm, f = { FaultInfo.plain 0x10 h.tm.pc h.tm.active 0 with info := code }
        ∧ exec (.trap sw code) s = .next (report (stopTeam s h h.tm f .stopped) h.ke.ctx (recordBody h.party f))
        ∧ (report (stopTeam s h h.tm f .stopped) h.ke.ctx (recordBody h.party f)).teams[h.t]? = some tm
        ∧ tm.status = .stopped ∧ tm.fault = some f ∧ tm.pc = h.tm.pc ∧ tm.regs = h.tm.regs ∧ tm.stack = h.tm.stack)


/-! ## Lane instructions (spec/05_instructions_core.md R71, R87 to R112) -/

/-- Elementwise instructions (R71, R87, R91, R96 to R99) on every type that they accept: each element of the result is the operation
on the same elements of the operands, and `fma`, `fms` and `bfi` also read the element of the destination. Of the f32 operations, by
their words: a NaN operand of `add`, `sub` or `mul` gives the canonical NaN (R58); a sum or product that a finite word holds exactly
is that word, and raises no flag (R55); of what is no NaN `neg` and `abs` change the sign bit alone (R57). -/
def Obligations.ElementwiseLanes : Prop :=
  ∀ (sw : Bool) (d : Dst) (a b : Src) (s : State) (h : Here), Quiet s h → RegistersOk s →
    let f := h.frame
    let t := f.mode.t
    let v := f.mode.env
    let does (i : Instr) (j : Frame → Job) (g : Nat → Nat → Res) : Prop := Ready j f →
      LaneDid i s h sw d t.regs fun l => elemLane t (fun _ x y => g x y) 0 (srcVal f t a l) (srcVal f t b l)
    let does3 (i : Instr) (j : Frame → Job) (g : Nat → Nat → Nat → Res) : Prop := Ready j f →
      LaneDid i s h sw d t.regs fun l => elemLane t g (dstVal f d t.regs l 0) (srcVal f t a l) (srcVal f t b l)
    let does1 (i : Instr) (j : Frame → Job) (g : Nat → Res) : Prop := Ready j f →
      LaneDid i s h sw d t.regs fun l => elemLane t (fun _ x _ => g x) 0 (srcVal f t a l) 0
    let bin (o : BinOp) : Nat → Nat → Res := fun x y => binElem t.elem v o x y
    does (.add sw d a b) (jobAdd d a b) (bin .add) ∧ does (.sub sw d a b) (jobSub d a b) (bin .sub)
      ∧ does (.mul sw d a b) (jobMul d a b) (bin .mul) ∧ does (.min sw d a b) (jobMin d a b) (bin .min)
      ∧ does (.max sw d a b) (jobMax d a b) (bin .max)
      ∧ does3 (.fma sw d a b) (jobFma d a b) (fun z x y => fmaElem t.elem v false z x y)
      ∧ does3 (.fms sw d a b) (jobFms d a b) (fun z x y => fmaElem t.elem v true z x y)
      ∧ does1 (.abs sw d a) (jobAbs d a) (signElem t.elem v true) ∧ does1 (.neg sw d a) (jobNeg d a) (signElem t.elem v false)
      ∧ (∀ m, t.elem = .flt m →
          does1 (.rcp sw d a) (jobRcp d a) (fnElem m v .rcp) ∧ does1 (.rsq sw d a) (jobRsq d a) (fnElem m v .rsq)
            ∧ does1 (.exp2 sw d a) (jobExp2 d a) (fnElem m v .exp2) ∧ does1 (.log2 sw d a) (jobLog2 d a) (fnElem m v .log2)
            ∧ does1 (.sin sw d a) (jobSin d a) (fnElem m v .sin) ∧ does1 (.cos sw d a) (jobCos d a) (fnElem m v .cos)
            ∧ does1 (.sqrt sw d a) (jobSqrt d a) (fSqrt m v) ∧ does1 (.rint sw d a) (jobRint d a) (fRint m v)
            ∧ does (.div sw d a b) (jobDiv d a b) (fun x y => fDiv m v x y))
      ∧ (∀ sg w, t.elem = .int sg w →
          does (.div sw d a b) (jobDiv d a b) (fun x y => intDiv sg w v.sat x y)
            ∧ does (.shl sw d a b) (jobShl d a b) (fun x c => .pure (if c < w then x * 2 ^ c % 2 ^ w else 0))
            ∧ does (.shr sw d a b) (jobShr d a b) (fun x c => .pure
                (if sg then ux w (Int.fdiv (sx w x) (2 ^ (min c w) : Nat)) else if c < w then x / 2 ^ c else 0))
            ∧ does (.rol sw d a b) (jobRol d a b) (fun x c => .pure (x * 2 ^ (c % w) % 2 ^ w + x / 2 ^ (w - c % w)))
            ∧ does1 (.popc sw d a) (jobPopc d a) (fun x => .pure (popcNat w x))
            ∧ does1 (.clz sw d a) (jobClz d a) (fun x => .pure (w - bitLen x))
            ∧ does1 (.brev sw d a) (jobBrev d a) (fun x => .pure (brevNat w x))
            ∧ does (.bfe sw d a b) (jobBfe d a b) (fun x y => .pure (bfeNat sg w x y))
            ∧ does3 (.bfi sw d a b) (jobBfi d a b) (fun z x y => .pure (bfiNat w z x y))
            ∧ does (.mulhi sw d a b) (jobMulhi d a b)
                (fun x y => .pure (ux w (Int.fdiv (intOf sg w x * intOf sg w y) (2 ^ w : Nat)))))
      ∧ (t = .f32 → ∀ x y : Nat, x < 2 ^ 32 → y < 2 ^ 32 →
          (∀ o, o = BinOp.add ∨ o = .sub ∨ o = .mul → (f32IsNan x ∨ f32IsNan y) → (bin o x y).val = 0x7FC00000)
            ∧ (f32Finite x → f32Finite y → v.ftz = false → ∀ z, z < 2 ^ 32 → f32Finite z → f32Int z ≠ 0 →
              (f32Int x + f32Int y = f32Int z → bin .add x y = ⟨z, 0⟩)
                ∧ (f32Int x * f32Int y = f32Int z * 2 ^ 149 → bin .mul x y = ⟨z, 0⟩))
            ∧ (¬f32IsNan x → (signElem t.elem v false x).val = (if x < 2 ^ 31 then x + 2 ^ 31 else x - 2 ^ 31)
              ∧ (signElem t.elem v true x).val = x % 2 ^ 31))

/-- Integer lanes with MODE.SAT clear. Of 32 and 64 bits (R60, R87, R91, R95 to R97): the results are those of w-bit arithmetic, no
flag is raised but by division, and signed types order and shift by their sign; `psum` adds up the lanes as far as its own (R65,
R107); `cvt` to an integer type of 32 or 64 bits keeps the low bits or extends by the source's sign (R61). Of 8 and 16 bits: `wmad`
and `dot4` add the products of the elements to 32-bit accumulators, which wrap (R93, R94). -/
def Obligations.IntegerLanes : Prop :=
  (∀ (sw : Bool) (d : Dst) (a b : Src) (s : State) (h : Here) (sg : Bool) (w : Nat), Quiet s h → RegistersOk s →
    h.tm.mode.t.elem = .int sg w → w = 32 * h.tm.mode.t.regs → h.tm.mode.sat = false →
    let f := h.frame
    let x (l : Nat) : BitVec w := BitVec.ofNat w (srcVal f f.mode.t a l)
    let y (l : Nat) : BitVec w := BitVec.ofNat w (srcVal f f.mode.t b l)
    let gives (i : Instr) (j : Frame → Job) (g : BitVec w → BitVec w → BitVec w) : Prop :=
      Ready j f → LaneDid i s h sw d f.mode.t.regs fun l => ((g (x l) (y l)).toNat, 0)
    gives (.add sw d a b) (jobAdd d a b) (fun x y => x + y) ∧ gives (.sub sw d a b) (jobSub d a b) (fun x y => x - y)
      ∧ gives (.mul sw d a b) (jobMul d a b) (fun x y => x * y)
      ∧ gives (.min sw d a b) (jobMin d a b) (fun x y => if (if sg then x.slt y else x.ult y) then x else y)
      ∧ gives (.max sw d a b) (jobMax d a b) (fun x y => if (if sg then y.slt x else y.ult x) then x else y)
      ∧ gives (.neg sw d a) (jobNeg d a) (fun x _ => -x) ∧ gives (.abs sw d a) (jobAbs d a) (fun x _ => if x.msb then -x else x)
      ∧ gives (.and sw d a b) (jobAnd d a b) (fun x y => x &&& y) ∧ gives (.or sw d a b) (jobOr d a b) (fun x y => x ||| y)
      ∧ gives (.xor sw d a b) (jobXor d a b) (fun x y => x ^^^ y) ∧ gives (.not sw d a) (jobNot d a) (fun x _ => ~~~x)
      ∧ gives (.mov sw d a) (jobMov d a) (fun x _ => x)
      ∧ gives (.shl sw d a b) (jobShl d a b) (fun x y => x <<< y.toNat)
      ∧ gives (.shr sw d a b) (jobShr d a b) (fun x y => if sg then x.sshiftRight y.toNat else x >>> y.toNat)
      ∧ gives (.rol sw d a b) (jobRol d a b) (fun x y => x.rotateLeft y.toNat)
      ∧ (Ready (jobPsum d a) f → LaneDid (.psum sw d a) s h sw d f.mode.t.regs fun l =>
          (((f.on.filter fun k => decide (k ≤ l)).foldl (fun z k => z + x k) 0).toNat, 0))
      ∧ (∀ u sg' w', u.elem = .int sg' w' → w' = 32 * u.regs → Ready (jobCvt d a u) f →
          LaneDid (.cvt sw d a u) s h sw d u.regs fun l =>
            ((if sg then (x l).signExtend w' else (x l).setWidth w').toNat, 0)))
    ∧ (∀ (sw : Bool) (d : Dst) (a b : Src) (s : State) (h : Here) (sg : Bool) (w : Nat), Quiet s h → RegistersOk s →
      h.tm.mode.t.elem = .int sg w → (w = 8 ∨ w = 16) → h.tm.mode.sat = false →
      let f := h.frame
      let t := f.mode.t
      let part (z : Nat) (k : Nat) : W32 :=
        let y : BitVec w := BitVec.ofNat w (z / 2 ^ (w * k))
        if sg then y.signExtend 32 else y.setWidth 32
      let prod (l k : Nat) : W32 := part (srcVal f t a l) k * part (srcVal f t b l) k
      let acc (l k : Nat) : W32 := BitVec.ofNat 32 (dstVal f d 1 l k)
      (Ready (jobWmad d a b) f → LaneDid (.wmad sw d a b) s h sw d t.count fun l =>
          (((List.range t.count).map fun k => (acc l k + prod l k).toNat * 2 ^ (32 * k)).foldl (· + ·) 0, 0))
        ∧ (Ready (jobDot4 d a b) f → LaneDid (.dot4 sw d a b) s h sw d 1 fun l =>
          (((List.range t.count).foldl (fun z k => z + prod l k) (acc l 0)).toNat, 0)))

/-- Instructions on whole registers (R89, R90, R93 to R95, R100, R101, R103): `and`, `or`, `xor`, `not` and `mov` of every type;
`sel` takes a where the predicate S holds, else b; `addc` gives the sum with the carry in bit 0 of the destination, its carry out
above it; `lea` adds b × the element size; `ptov` gives 1 or 0; `cvt`, `wmad` and `dot4` give their rules' elements. -/
def Obligations.WholeRegisters : Prop :=
  ∀ (sw : Bool) (d : Dst) (a b : Src) (s : State) (h : Here), Quiet s h → RegistersOk s →
    let f := h.frame
    let t := f.mode.t
    let x (l : Nat) : Nat := srcVal f t a l
    let y (l : Nat) : Nat := srcVal f t b l
    let gives (i : Instr) (j : Frame → Job) (n : Nat) (g : Nat → Nat × Flags) : Prop := Ready j f → LaneDid i s h sw d n g
    gives (.and sw d a b) (jobAnd d a b) t.regs (fun l => (x l &&& y l, 0))
      ∧ gives (.or sw d a b) (jobOr d a b) t.regs (fun l => (x l ||| y l, 0))
      ∧ gives (.xor sw d a b) (jobXor d a b) t.regs (fun l => (x l ^^^ y l, 0))
      ∧ gives (.not sw d a) (jobNot d a) t.regs (fun l => (2 ^ (32 * t.regs) - 1 - x l % 2 ^ (32 * t.regs), 0))
      ∧ gives (.mov sw d a) (jobMov d a) t.regs (fun l => (x l, 0))
      ∧ gives (.sel sw d a b) (jobSel d a b) t.regs (fun l => (if (f.regs.pget f.mode.s.val).getLsbD l then x l else y l, 0))
      ∧ gives (.addc sw d a b) (jobAddc d a b) (2 * t.regs) (fun l => (x l + y l + dstVal f d t.regs l 0 % 2, 0))
      ∧ (∀ size, leaSize t = some size → gives (.lea sw d a b) (jobLea d a b) 2 (fun l =>
          (ux 64 ((srcVal f .i64 a l : Int) + sx 32 (srcVal f .i32 b l) * (size : Int)), 0)))
      ∧ (∀ p : PReg, gives (.ptov sw d p) (jobPtov d p) 1 (fun l => (if (f.regs.pget p.val).getLsbD l then 1 else 0, 0)))
      ∧ (∀ u, gives (.cvt sw d a u) (jobCvt d a u) (max t.count u.count / u.count * u.regs) (cvtLane t u a f))
      ∧ gives (.wmad sw d a b) (jobWmad d a b) t.count (wmadLane t d a b f)
      ∧ gives (.dot4 sw d a b) (jobDot4 d a b) 1 (dotLane t d a b f)

/-- Instructions with a predicate result (R88, R92, R102, R103, R105): `cmp` by its relation, `class` by its test, `plog` by its
truth table with a the high bit of the index, `vtop` where the register is not zero, and `vote` over the lanes that take part. -/
def Obligations.PredicateLanes : Prop :=
  ∀ (sw : Bool) (p : PReg) (a b : Src) (s : State) (h : Here), Quiet s h → RegistersOk s →
    let f := h.frame
    let t := f.mode.t
    let gives (i : Instr) (j : Frame → Job) (g : Nat → Bool × Flags) : Prop := Ready j f → PredDid i s h sw p g
    (∀ r, gives (.cmp sw p r a b) (jobCmp p r a b) (fun l => cmpElem t.elem f.mode.env r (srcVal f t a l) (srcVal f t b l)))
      ∧ (∀ c, gives (.class sw p c a) (jobClass p c a)
          (fun l => (classOf (if t = .f64 then fmtF64 else fmtF32) c (srcVal f t a l), 0)))
      ∧ (∀ (q r : PReg) (tbl : BitVec 4), gives (.plog sw p q r tbl) (jobPlog p q r tbl) (fun l =>
          (tbl.getLsbD (2 * ((f.regs.pget q.val).getLsbD l).toNat + ((f.regs.pget r.val).getLsbD l).toNat), 0)))
      ∧ gives (.vtop sw p a) (jobVtop p a) (fun l => (srcVal f .u32 a l != 0, 0))
      ∧ (∀ fn, gives (.vote sw p fn a) (jobVote p fn a)
          (fun _ => (voteVal fn (f.on.map fun l => srcVal f .u32 a l != 0), 0)))

/-- Exchanges (R104, R107, R109): a shuffle reads lane b, L XOR b, L − b or L + b of a, and its own lane where that is no lane of
the team; b is read as a 32-bit unsigned integer whatever MODE.T, which is the model's reading of R104 (log 21, DEDUCED); `psum`
gives the sums over the lanes up to its own; `vconf` gives the lowest lane that takes part with the same value. -/
def Obligations.LaneExchange : Prop :=
  ∀ (sw : Bool) (d : Dst) (a b : Src) (s : State) (h : Here), Quiet s h → RegistersOk s →
    let f := h.frame
    let t := f.mode.t
    let y (l : Nat) : Nat := srcVal f .u32 b l
    let shuffle (i : Instr) (j : Frame → Job) (g : Nat → Int) : Prop := Ready j f →
      LaneDid i s h sw d t.regs fun l => (srcVal f t a (if 0 ≤ g l ∧ g l < f.lanes then (g l).toNat else l), 0)
    shuffle (.shfl sw d a b) (jobShfl d a b) (fun l => y l)
      ∧ shuffle (.shfx sw d a b) (jobShfx d a b) (fun l => (l ^^^ y l : Nat))
      ∧ shuffle (.shfu sw d a b) (jobShfu d a b) (fun l => l - y l) ∧ shuffle (.shfd sw d a b) (jobShfd d a b) (fun l => l + y l)
      ∧ (Ready (jobVconf d a) f → LaneDid (.vconf sw d a) s h sw d t.regs fun l =>
          (((f.on.filter fun k => srcVal f t a k == srcVal f t a l).head?).getD l, 0))
      ∧ (Ready (jobPsum d a) f →
          let sums := partials t.elem f.mode.env (f.on.map fun l => (l, srcVal f t a l)) none
          LaneDid (.psum sw d a) s h sw d t.regs fun l =>
            match sums.find? fun p => p.1 = l with
            | some p => (p.2.val, p.2.flags)
            | none => (0, 0))

/-- Lane values into a uniform register (R106, R108, R110): `ballot` sets bit i of its slice where lane 64 j + i takes part and is
not zero, `redu` gives the last of the sums, `rdlane` the value of lane b mod the team's lanes; i32 is sign-extended. The
destination waits for its value. It is the model's reading that the flags of `redu` are raised when its value lands, and not at issue
(log 101), that `rdlane` writes whatever lanes take part (log 46) and reads b as an unsigned integer (log 21), and that its value is free
where the index of the lane that it reads is out of its window (log 61). -/
def Obligations.LaneToUniform : Prop :=
  ∀ (sw : Bool) (d : SReg) (a : Src) (b : USrc) (s : State) (h : Here), Quiet s h →
    let f := h.frame
    let t := f.mode.t
    let j := (usrcVal f b).toNat
    let place (x : Nat) : W64 := if t = .i32 then (BitVec.ofNat 32 x).signExtend 64 else BitVec.ofNat 64 x
    (Ready (jobBallot d a b) f → ∃ x, SentOff (.ballot sw d a b) s h sw [.s d.val] (Writes.ofU d.val x)
        ∧ ∀ i, i < 64 → x.getLsbD i = decide (64 * j + i ∈ f.on ∧ srcVal f .u32 a (64 * j + i) ≠ 0))
      ∧ (Ready (jobRedu d a) f →
          let last := (partials t.elem f.mode.env (f.on.map fun l => (l, srcVal f t a l)) none).getLast?
          SentOff (.redu sw d a) s h sw [.s d.val]
            { Writes.ofU d.val (place ((last.map fun p => p.2.val).getD 0)) with flags := (last.map fun p => p.2.flags).getD 0 })
      ∧ (Ready (jobRdlane d a b) f →
          ∃ x, SentOff (.rdlane sw d a b) s h sw [.s d.val] (Writes.ofU d.val (place x))
            ∧ (srcLaneOk f t a (j % f.lanes) = true → x = srcVal f t a (j % f.lanes)))

/-- XSET and XWIN (R111, R112): `xset` writes the low byte of a to the index register in every lane that takes part; `xwin` sets a
window, and raises ILLEGAL for a length outside 1 to 192 or a window past v191. That `xset` reads a as a 32-bit unsigned integer
whatever MODE.T is the model's reading (log 21). -/
def Obligations.IndexRegisters : Prop :=
  ∀ (sw : Bool) (x : Fin 4) (s : State) (h : Here), Quiet s h → RegistersOk s →
    (∀ a, Ready (jobXset x a) h.frame → Computed (.xset sw x a) s h sw 0 fun g =>
        (∀ l, l < 1024 → g.xget x.val l = if l ∈ h.frame.on then BitVec.ofNat 8 (srcVal h.frame .u32 a l) else h.tm.regs.xget x.val l)
          ∧ (∀ k l, l < 1024 → k ≠ x.val → g.xget k l = h.tm.regs.xget k l)
          ∧ g.v = h.tm.regs.v ∧ g.u = h.tm.regs.u ∧ g.p = h.tm.regs.p ∧ g.win = h.tm.regs.win)
      ∧ ∀ (base : Fin 192) (len : Cnt),
        let n := (cntVal h.frame len).toNat
        (1 ≤ n → base.val + n ≤ 192 → Computed (.xwin sw x base len) s h sw 0 fun g =>
            g = { h.tm.regs with win := h.tm.regs.win.set x.val ⟨base.val, n⟩ })
          ∧ (n = 0 ∨ 192 < base.val + n →
            exec (.xwin sw x base len) s = .next (takeFault s h h.tm (.plain 0x01 h.tm.pc h.tm.active 0) h.tm.pc))

/-- MX and rotation (R250 to R252): `qnt` gives, block by block of 32 lanes, the element and its block's exponent; `dqnt` gives the
value of an element under an exponent, and under the exponent 0xFF the canonical NaN; `hadq` gives the rotated values in the lanes
that take part, where every index of its groups names a register, and MATRIX where its control word or its groups are not valid; its
flags are those of the results of lanes that take part, and of the steps on whose results these depend (R59; that a step at the position
of another lane raises its flags is the model's reading: log 125). An index outside its window in a lane that takes no part gives a free
value (log 61), which is not stated here. -/
def Obligations.Quantisation : Prop :=
  ∀ (sw : Bool) (d : Dst) (a : Src) (s : State) (h : Here), Quiet s h → RegistersOk s →
    let f := h.frame
    (∀ fmt emax, mxFmt f.mode.t = some (fmt, emax) → Ready (jobQnt d a) f → ∃ val,
        LaneDid (.qnt sw d a) s h sw d 2 val
          ∧ ∀ w, let ls := lanesOf (f.part &&& wordMask w)
            let r := mxBlock fmt emax f.mode.rnd (ls.map fun l => fread fmtF32 false (srcVal f .f32 a l))
            ∀ k, (hk : k < ls.length) → val ls[k] = (((r.2[k]?).map fun e => e.val).getD 0 + 2 ^ 32 * r.1, ((r.2[k]?).map fun e => e.flags).getD 0))
      ∧ (Ready (jobDqnt d a) f → LaneDid (.dqnt sw d a) s h sw d 1 (dqntLane a f)
          ∧ ∀ l, srcValAt f .u32 a l 1 % 2 ^ 8 = 255 → (dqntLane a f l).1 = 0x7FC00000)
      ∧ ∀ b : Fin 31,
        ((jobHadq d a b f).ok f = true → (jobHadq d a b f).spansOk = true → hadqOk f b = false →
          exec (.hadq sw d a b) s = .next (takeFault s h h.tm (.plain 0x0D h.tm.pc h.tm.active 0) h.tm.pc))
          ∧ (Ready (jobHadq d a b) f →
            (∀ l ∈ f.on, ∀ k ∈ groupLanes (2 ^ (hadqCtl f b).1) (l / 2 ^ (hadqCtl f b).1), srcLaneOk f .f32 a k = true) →
            let k := (f.regs.uget (b.val + 1)).toNat % 2 ^ 8
            let row := (f.regs.uget (b.val + 1)).toNat / 2 ^ 8 % 2 ^ 24
            ∃ val, LaneDid (.hadq sw d a b) s h sw d 1 val ∧ ∀ l ∈ f.on,
              let on := (List.range (2 ^ k)).filter fun i => f.part.getLsbD (l / 2 ^ k * 2 ^ k + i)
              let r := rotate k (f.regs.uget b.val) row 0 on ((groupLanes (2 ^ k) (l / 2 ^ k)).map fun l => srcVal f .f32 a l)
              val l = (r.1[l % 2 ^ k]?.getD 0, r.2))

/-! ## The uniform ALU (spec/05_instructions_core.md R113, R114) -/

/-- The uniform ALU (R113): 64-bit results in one pass; no flag, no guard and no other register changes. Shifts of 64 or more give
0, `umin` and `umax` are signed, `udiv` and `urem` are unsigned, and by zero give all ones and a (R60). -/
def Obligations.UniformAlu : Prop :=
  ∀ (sw : Bool) (d : SReg) (a b : USrc) (s : State) (h : Here), Quiet s h →
    let x := usrcVal h.frame a
    let y := usrcVal h.frame b
    let gives (i : Instr) (r : W64) : Prop := Did i s h sw { h.tm with regs := h.tm.regs.uset d.val r } (after h i) 1
    gives (.uadd sw d a b) (x + y) ∧ gives (.usub sw d a b) (x - y) ∧ gives (.umul sw d a b) (x * y)
      ∧ gives (.uand sw d a b) (x &&& y) ∧ gives (.uor sw d a b) (x ||| y) ∧ gives (.uxor sw d a b) (x ^^^ y)
      ∧ gives (.ushl sw d a b) (x <<< y.toNat) ∧ gives (.ushr sw d a b) (x >>> y.toNat) ∧ gives (.umov sw d a) x
      ∧ gives (.umin sw d a b) (if x.toInt ≤ y.toInt then x else y) ∧ gives (.umax sw d a b) (if x.toInt ≤ y.toInt then y else x)
      ∧ gives (.udiv sw d a b) (if y = 0 then BitVec.allOnes 64 else BitVec.ofNat 64 (x.toNat / y.toNat))
      ∧ gives (.urem sw d a b) (if y = 0 then x else BitVec.ofNat 64 (x.toNat % y.toNat))

/-- UCMP (R114): a and b are compared as signed 64-bit values, with nan false and num true; the predicate is written in every lane
of M, whatever the guard says, and lanes outside M keep theirs. p0 stays true (R34), and no other register changes. -/
def Obligations.UniformCompare : Prop :=
  ∀ (sw : Bool) (p : PReg) (r : Rel) (a b : USrc) (s : State) (h : Here), Quiet s h → RegistersOk s →
    let x := (usrcVal h.frame a).toInt
    let y := (usrcVal h.frame b).toInt
    let t : Prop := match r with
      | .eq => x = y | .ne => x ≠ y | .lt => x < y | .le => x ≤ y | .gt => x > y | .ge => x ≥ y | .nan => False | .num => True
    ∃ g, Did (.ucmp sw p r a b) s h sw { h.tm with regs := g } (after h (.ucmp sw p r a b)) 1
      ∧ (p ≠ 0 → ∀ l, (g.pget p.val).getLsbD l = true ↔
          if h.tm.active.getLsbD l then t else (h.tm.regs.pget p.val).getLsbD l = true)
      ∧ (∀ q, q ≠ p.val ∨ p = 0 → g.pget q = h.tm.regs.pget q)
      ∧ g.v = h.tm.regs.v ∧ g.u = h.tm.regs.u ∧ g.x = h.tm.regs.x ∧ g.win = h.tm.regs.win

/-! ## Issue (spec/03_encoding.md R38, R39, R48, spec/07_issue_and_deferring.md R157 to R159, R166) -/

/-- Instructions whose operands cannot be used: a type, literal or span that the instruction does not accept raises ILLEGAL (R39, R48),
whatever its lanes; else operand values or a lattice slot that its check refuses raise what the check names, for the lanes that it
concerns (R206, R225, R252); else an index out of its window raises REGINDEX for its lanes (R38). That an indexed span past v191 is such
an index is the model's choice (log 102). Nothing else happens. -/
def Obligations.OperandFaults : Prop :=
  ∀ (i : Instr) (jf : Frame → Job) (s : State) (h : Here), jobOf i = some jf → Quiet s h →
    let j := jf h.frame
    let bad := j.badLanes h.frame (j.lanesIn h.frame)
    let faults (code : Byte) (lanes : Mask) : Prop := exec i s = .next (takeFault s h h.tm (.plain code h.tm.pc lanes 0) h.tm.pc)
    ((j.ok h.frame = false ∨ j.spansOk = false) → faults 0x01 h.tm.active)
      ∧ (j.ok h.frame = true → j.spansOk = true → ∀ code, j.check h.frame = some code → faults code (j.hit h.frame))
      ∧ (j.ok h.frame = true → j.spansOk = true → j.check h.frame = none → bad ≠ [] → faults 0x03 (maskOf bad))

/-- An instruction with a pending input (R157 to R159, R166), one behind deferred accesses of its stream or line (R162), or one that
its team has waited for an entry for (R166); no register that it reads is outstanding in its own group, where R19 leaves open which
value it sees. Where it defers and MODE.DF is set, and the team has a free entry, a residue is queued with the saved PC and mask,
every destination becomes pending, no register changes and the team goes on at the next word. Where no entry is free it raises
RESIDUE or waits, as the launch record says; where it does not defer, it waits. -/
def Obligations.PendingInputs : Prop :=
  ∀ (i : Instr) (jf : Frame → Job) (s : State) (h : Here), jobOf i = some jf → issuing s = some h →
    let f := h.frame
    let j := jf f
    (∀ k ∈ j.okKeys ++ j.mightKeys f (j.lanesAll f), ∀ c ∈ h.tm.claims, c.key = k → c.pending = true) →
    let ls := j.lanesIn f
    let pend := pendingOf h.tm.claims (j.waitKeys h.tm.claims f ls)
    let parks (tm : Team) (w : Wake) : Prop :=
      exec i s = .next { s with teams := s.teams.set h.t { tm with status := .parked w } }
    j.ok f = true → j.spansOk = true → j.check f = none → pendingOf h.tm.claims j.okKeys = [] → isPending h.tm.claims (.p f.mode.g.val) = false →
    j.badLanes f ls = [] → (pend ≠ [] ∨ chained s h f i = true ∨ mustDefer h.tm = true) →
    ((j.defers = false ∨ h.tm.mode.df = false) → parks h.tm (.ready pend))
      ∧ (j.defers = true → h.tm.mode.df = true → h.tm.residues.length < h.tm.rescap →
          ∃ t tm r, exec i s = .next t ∧ t.teams[h.t]? = some tm ∧ tm.residues = h.tm.residues ++ [r]
            ∧ r.instr = i ∧ r.frame.pc = h.tm.pc ∧ r.frame.mask = h.tm.active ∧ r.frame.mode = h.tm.mode
            ∧ r.dests = j.destKeys f ls ∧ (∀ k ∈ r.dests, isPending tm.claims k = true)
            ∧ tm.regs = h.tm.regs ∧ tm.flags = h.tm.flags ∧ tm.pc = after h i ∧ tm.status = .running
            ∧ (∀ a, sget t.mem a = sget s.mem a))
      ∧ (j.defers = true → h.tm.mode.df = true → h.tm.rescap ≤ h.tm.residues.length →
          (h.tm.resflt = true → exec i s = .next (takeFault s h h.tm (.plain 0x0A h.tm.pc h.tm.active 0) h.tm.pc))
            ∧ (h.tm.resflt = false → h.tm.stalled = false →
                parks { h.tm with resstall := h.tm.resstall + 1, stalled := true } (.entry pend)))

/-! ## Memory (spec/06_instructions_memory.md R117 to R136, spec/08_memory_model.md R170) -/

/-- Every access to memory completes (R122, R125, R127, R128), that is LD, LDC, LDS, LDQ, ST, STS, STQ, ATOM, ATOMAR, ATOMS, CAS,
ULD and UST: where its operands can be used, its lanes take no fault (R121) and no comparator is set, a load, store or atomic of a
quiet team goes on at the next word; a load's destinations then wait for the one access in flight (R155). A release at POD scope
goes on once the writes before it are confirmed (R185). -/
def Obligations.AccessesIssue : Prop :=
  ∀ (i : Instr) (jf : Frame → Job) (sp : Space) (need : Need) (al : Nat) (as : List Acc) (s : State) (h : Here),
    jobOf i = some jf → accessOf i h.frame = some (sp, need, al, as) → Quiet s h → NoWatch h → Ready jf h.frame →
    (h.tm.mode.sc = .pod → podRelease s h = none) → (placeAll s h sp need al as).2.2 = [] →
    ∃ t tm, exec i s = .next t ∧ t.teams[h.t]? = some tm ∧ GoesOn i h tm
      ∧ ((jf h.frame).late = true → ∃ a, tm.inflight = [a] ∧ a.id = h.tm.nextId ∧ a.instr = i
          ∧ a.dests = (jf h.frame).writeKeys h.frame ((jf h.frame).lanesIn h.frame)
          ∧ ∀ k ∈ a.dests, isClaimed tm.claims k = true)

/-- Faults of accesses (R120, R121): the highest-ranked fault of any lane is raised, for the lanes that take it and at the lowest
one's address, before any byte moves; alignment ranks first. A uniform access reports M. That the lanes have translated before the
fault is chosen, with A and D set, is the model's reading (log 49). -/
def Obligations.AccessFaults : Prop :=
  ∀ (i : Instr) (jf : Frame → Job) (sp : Space) (need : Need) (al : Nat) (as : List Acc) (s : State) (h : Here),
    jobOf i = some jf → accessOf i h.frame = some (sp, need, al, as) → Quiet s h → Ready jf h.frame →
    (h.tm.mode.sc = .pod → podRelease s h = none) →
    let r := placeAll s h sp need al as
    let uni : Bool := !(jf h.frame).guarded
    (∀ code lanes addr, pickFault r.2.2 = some (code, lanes, addr) →
        exec i s = .next (takeFault r.1 h (teamNow r.1 h)
          (.plain code h.tm.pc (if uni then h.tm.active else lanes) addr) h.tm.pc))
      ∧ (∀ a ∈ as, a.va.toNat % al ≠ 0 → ∃ addr,
          pickFault r.2.2 = some (0x04, maskOf ((as.filter fun a => a.va.toNat % al != 0).map (·.lane)), addr))

/-- Loads and stores of scratchpads (R14, R119, R122, R124): lane by lane, little-endian bytes of the scratchpad of the cohort at
the offset's position, whatever the scope of a synchronising form; `lds` and `sts` reach only their own core's. Nothing else of any
scratchpad changes, nor does memory. -/
def Obligations.ScratchpadAccesses : Prop :=
  ∀ (sw : Bool) (a : Base) (o : Offset) (str : Stream) (m : MemForm) (s : State) (h : Here) (c k : Nat → Nat),
    Quiet s h → NoWatch h → RegistersOk s →
    let f := h.frame
    let n := formBytes f.mode.t m
    let x (l : Nat) : Nat := baseOff f a o l % 2 ^ 22
    let fits (own : Bool) : Prop := ∀ l ∈ f.on, baseOff f a o l % formAlign f.mode.t m = 0 ∧ baseOff f a o l < 2 ^ (if own then 22 else 24)
      ∧ x l + n ≤ h.share ∧ h.neighbour (baseOff f a o l / 2 ^ 22) = some (c l, k l) ∧ c l < s.cohorts.length
    let sp (s : State) (c : Nat) : Sparse 8 := ((s.cohorts[c]?).map Cohort.sp).getD []
    let loads (i : Instr) (jf : Frame → Job) (d : Dst) (own : Bool) : Prop := Ready jf f → fits own →
      ∃ t tm fl, exec i s = .next t ∧ t.teams[h.t]? = some tm ∧ GoesOn i h tm ∧ tm.inflight = [fl] ∧ fl.bytes = [] ∧ fl.need = []
        ∧ LaneResult f (h.tm.regs.apply fl.writes) d (formRegs f.mode.t m) (fun l => readNat (sp s (c l)) (x l) n)
        ∧ (∀ q, sp t q = sp s q) ∧ (∀ p, sget t.mem p = sget s.mem p)
    let stores (i : Instr) (jf : Frame → Job) (b : Src) (own : Bool) : Prop := Ready jf f → fits own →
      (∀ q : Nat, swf (sp s q) = true) →
      ∃ t tm, exec i s = .next t ∧ t.teams[h.t]? = some tm ∧ GoesOn i h tm ∧ tm.inflight = []
        ∧ (∀ l ∈ f.on, ∀ j, j < n →
            (∀ l' ∈ f.on, l < l' → c l' = c l → ¬(x l' ≤ x l + j ∧ x l + j < x l' + n)) →
            some (sget (sp t (c l)) (x l + j)) = (storeBytes b m f l)[j]?)
        ∧ (∀ q p, (∀ l ∈ f.on, c l = q → ¬(x l ≤ p ∧ p < x l + n)) → sget (sp t q) p = sget (sp s q) p)
        ∧ (∀ p, sget t.mem p = sget s.mem p)
    (∀ d, loads (.lds sw d a o str m) (jobLds d a o str m) d true ∧ loads (.ldq sw d a o str m) (jobLdq d a o str m) d false)
      ∧ (∀ b, stores (.sts sw b a o str m) (jobSts b a o str m) b true ∧ stores (.stq sw b a o str m) (jobStq b a o str m) b false)

/-- Global loads of local pages (R122, R123, R125, R127, R170). Of a plain load the value that lands holds, byte by byte, what the core
finds in its L1 or, on an uncacheable page, its own dirty byte or the one at home; a line filled on the way changes no byte that a core
finds, but for a clean copy of a byte just read on an uncacheable page, which becomes as it was read. `ldc` gives what the core's
constant cache holds of the line, or the bytes at home where it holds none: R125 allows any value since the launch, and this is the
model's choice (log 10, DESIGN CHOICE). A synchronising load at QUAD scope or above of lines without a tag gives the core's own dirty
bytes or those at home, and the core then holds no clean byte of its ASID on a page with P = 0 (R173, R175). Memory stays as the
translations left it. The acquire of one line (R173): where the line's tag names the core itself nothing happens; in every other case
the core self-invalidates; where the tag names another core, matches and has not been cleared, that core's dirty bytes of the tag's ASID
have first reached their homes and the tag says so; where it names a link, matches and has not been cleared, the tag is cleared and no
core writes anything back (R190). -/
def Obligations.GlobalLoads : Prop :=
  (∀ (sw : Bool) (i : Instr) (jf : Frame → Job) (str : Stream) (o : Offset) (m : MemForm) (s : State) (h : Here),
    Quiet s h → NoWatch h → RegistersOk s → Ready jf h.frame →
    let f := h.frame
    let size := formBytes f.mode.t m
    let plain : Prop := m ≠ .sync ∨ h.tm.mode.sc = .core
    let spots (r : State × List Placed × List LaneFault) : List Spot := r.2.1.flatMap Placed.spots
    let local_ (r : State × List Placed × List LaneFault) : Prop :=
      r.2.2 = [] ∧ ∀ p ∈ r.2.1, p.spots ≠ [] ∧ ∀ x ∈ p.spots, x.x.imp = false ∧ x.pa < apertureBase
    let own (t : State) (x : Spot) : Byte := (ownByte t h.core x.pa).getD 0
    let found (t : State) (x : Spot) : Byte := if x.x.cach then seenByte t h.core x.pa else own t x
    let num (g : Spot → Byte) (p : Placed) : Nat := natOf (p.spots.map g)
    let lane (r : State × List Placed × List LaneFault) (g : Spot → Byte) (l : Nat) : Nat :=
      ((r.2.1.find? fun p => p.acc.lane = l).map (num g)).getD 0
    let kept (r : State × List Placed × List LaneFault) (t : State) : Prop := (∀ p, sget t.mem p = sget r.1.mem p)
      ∧ ∀ k p, p < apertureBase → (k = h.core → ∀ x ∈ spots r, x.x.cach = false → x.pa ≠ p) → seenByte t k p = seenByte r.1 k p
    let synced (r : State × List Placed × List LaneFault) (t : State) : Prop := (∀ p, sget t.mem p = sget r.1.mem p)
      ∧ (spots r ≠ [] → ∀ c x, t.cores[h.core]? = some c → x ∈ c.l1 → x.asid = h.asid → x.priv = false → x.clean = none)
    let untagged (r : State × List Placed × List LaneFault) : Prop := ∀ x ∈ spots r, tagOf r.1 (lineOf x.pa) = none
    let lands (P : State → InFlight → Prop) : Prop := ∃ t tm fl, exec i s = .next t ∧ t.teams[h.t]? = some tm ∧ GoesOn i h tm
      ∧ tm.inflight = [fl] ∧ fl.bytes = [] ∧ fl.need = [] ∧ P t fl
    (∀ d a, i = .ld sw d a o str m → jf = jobLd d a o str m →
        let r := placeAll s h (.glob true) .read (formAlign f.mode.t m) (globAccs f a o size)
        let holds (fl : InFlight) (g : Spot → Byte) : Prop :=
          LaneResult f (h.tm.regs.apply fl.writes) d (formRegs f.mode.t m) (lane r g)
        local_ r → (plain → lands fun t fl => holds fl (found t) ∧ kept r t)
          ∧ (¬plain → untagged r → lands fun t fl => holds fl (own t) ∧ synced r t))
      ∧ (∀ d a, i = .uld sw d a o str m → jf = jobUld d a o str m →
        let r := placeAll s h (.glob true) .read (uniBytes m) (uniAccs f a o m)
        let holds (fl : InFlight) (g : Spot → Byte) : Prop :=
          fl.writes = Writes.ofU d.val (BitVec.ofNat 64 (((r.2.1.head?).map (num g)).getD 0))
        local_ r → (plain → lands fun t fl => holds fl (found t) ∧ kept r t)
          ∧ (¬plain → untagged r → lands fun t fl => holds fl (own t) ∧ synced r t))
      ∧ (∀ d a, i = .ldc sw d a o m → jf = jobLdc d a o m →
        let r := placeAll s h (.glob false) .read (formAlign f.mode.t m) (globAccs f a o size)
        let const (x : Spot) : Byte := (constByte r.1 h x).getD (sget r.1.mem x.pa)
        local_ r → h.core < r.1.cores.length → lands fun t fl =>
          LaneResult f (h.tm.regs.apply fl.writes) d (formRegs f.mode.t m) (lane r const)
            ∧ (∀ p, sget t.mem p = sget r.1.mem p) ∧ ∀ k p, seenByte t k p = seenByte r.1 k p))
    ∧ (∀ (s : State) (core asid line : Nat) (sc : Scope), MemoryOk s →
      let r := acquireLine s core asid sc line
      let invalid (t : State) : Prop :=
        ∀ c x, t.cores[core]? = some c → x ∈ c.l1 → x.asid = asid → x.priv = false → x.clean = none
      (tagOf s line = none → invalid r.1 ∧ r.2 = 0 ∧ r.1.mem = s.mem)
        ∧ ∀ g, tagOf s line = some g →
          (g.by_ = .core core → r = (s, 0))
            ∧ (g.by_ ≠ .core core → invalid r.1)
            ∧ (∀ a, g.by_ = .core a → a ≠ core → scopesMatch g.by_ g.scope core sc = true → g.cleared = false →
              let d := dirtyOf s a fun x => x.asid == g.asid
              r.2 = 1 ∧ tagOf r.1 line = some { g with cleared := true }
                ∧ (∀ c x, r.1.cores[a]? = some c → x ∈ c.l1 → x.asid = g.asid → x.dirty = [])
                ∧ (OneEach d → PlainAt s (d.map (·.1)) → Reached d s.mem r.1.mem))
            ∧ (∀ p, g.by_ = .link p → scopesMatch g.by_ g.scope core sc = true → g.cleared = false →
              r.2 = 0 ∧ r.1.mem = s.mem ∧ tagOf r.1 line = some { g with cleared := true })
            ∧ (g.by_ ≠ .core core → (scopesMatch g.by_ g.scope core sc = false ∨ g.cleared = true) →
              r.2 = 0 ∧ r.1.mem = s.mem ∧ r.1.tags = s.tags))

/-- Global stores to local pages (R122, R123, R127, R170, R172). Of a plain store a byte becomes dirty in the core's L1, or on an
uncacheable page reaches its home; of a release at QUAD scope or above of lines that no other core is tagged on, every byte reaches its
home, the core finds it there, and the lines are tagged with the core, its ASID and the scope. Of bytes that two lanes store at one
place the later lane's stands. Every other byte of memory stays as the translations left it. The bytes that reach their homes are none
of a queue's state record or a context record that take a write otherwise (R5, R294, R318). The release of bytes of one line whose tag
names another core that has not been cleared (R172): that core's dirty bytes of the tag's ASID have first reached their homes. -/
def Obligations.GlobalStores : Prop :=
  (∀ (sw : Bool) (i : Instr) (jf : Frame → Job) (str : Stream) (o : Offset) (m : MemForm) (s : State) (h : Here),
    Quiet s h → NoWatch h → Ready jf h.frame → MemoryOk s →
    let f := h.frame
    let plain : Prop := m ≠ .sync ∨ h.tm.mode.sc = .core
    let does (r : State × List Placed × List LaneFault) (bytes : Nat → List Byte) : Prop :=
      (r.2.2 = [] ∧ ∀ p ∈ r.2.1, ∀ x ∈ p.spots, x.x.imp = false ∧ x.pa < apertureBase) → h.core < r.1.cores.length →
      let ws : List (Spot × Byte) := r.2.1.flatMap fun p => p.spots.zip (bytes p.acc.lane)
      let last (p : Spot × Byte) : Prop := ∃ l1 l2, ws = l1 ++ p :: l2 ∧ ∀ q ∈ l2, q.1.pa ≠ p.1.pa
      let ends (P : State → Prop) : Prop :=
        ∃ t tm, exec i s = .next t ∧ t.teams[h.t]? = some tm ∧ GoesOn i h tm ∧ tm.inflight = [] ∧ P t
      (plain → (∀ p ∈ ws, ∀ q ∈ ws, lineOf p.1.pa = lineOf q.1.pa → p.1.x.cach = q.1.x.cach) →
        PlainAt r.1 ((ws.filter fun p => !p.1.x.cach).map fun p => p.1.pa) →
        ends fun t =>
          (∀ p, last p → if p.1.x.cach then l1Byte t h.core (lineOf p.1.pa) (p.1.pa % 128) = some p.2 else sget t.mem p.1.pa = p.2)
            ∧ ∀ a, (∀ p ∈ ws, p.1.pa = a → p.1.x.cach = true) → sget t.mem a = sget r.1.mem a)
        ∧ (¬plain → (h.tm.mode.sc = .pod → podRelease s h = none) → PlainAt r.1 (ws.map fun p => p.1.pa) →
          (∀ p ∈ ws, ∀ g, tagOf r.1 (lineOf p.1.pa) = some g → g.by_ = .core h.core ∨ g.cleared = true) →
          ends fun t => (∀ p, last p → sget t.mem p.1.pa = p.2 ∧ seenByte t h.core p.1.pa = p.2)
            ∧ (∀ p ∈ ws, tagOf t (lineOf p.1.pa) = some ⟨lineOf p.1.pa, .core h.core, h.asid, h.tm.mode.sc, false⟩)
            ∧ ∀ a, (∀ p ∈ ws, p.1.pa ≠ a) → sget t.mem a = sget r.1.mem a)
    (∀ b a, i = .st sw b a o str m → jf = jobSt b a o str m →
        does (placeAll s h (.glob true) .write (formAlign f.mode.t m) (globAccs f a o (formBytes f.mode.t m))) (storeBytes b m f))
      ∧ (∀ b a, i = .ust sw b a o str m → jf = jobUst b a o str m →
        does (placeAll s h (.glob true) .write (uniBytes m) (uniAccs f a o m)) (fun _ => bytesOf (uniBytes m) (usrcVal f b).toNat)))
    ∧ (∀ (s : State) (core asid line a : Nat) (sc : Scope) (ws : List (Nat × Byte)) (g : Tag), MemoryOk s → OneEach ws →
      (∀ p ∈ ws, lineOf p.1 = line) → tagOf s line = some g → g.by_ = .core a → a ≠ core → g.cleared = false →
      let t := releaseLine s core asid sc line ws
      let d := dirtyOf s a fun x => x.asid == g.asid
      tagOf t line = some ⟨line, .core core, asid, sc, false⟩
        ∧ (∀ c x, t.cores[a]? = some c → x ∈ c.l1 → x.asid = g.asid → x.dirty = [])
        ∧ (OneEach d → PlainAt s (d.map (·.1) ++ ws.map (·.1)) → Reached (ws ++ d) s.mem t.mem))

/-- Atomics on local elements (R128 to R131), that is ATOM, ATOMAR and CAS in memory and ATOMS in scratchpads. The lanes of one
element act in ascending order, each on the value that the one before left; an element takes its function's value, or for `cas` the
new value where the old one is the comparand; each lane's old value lands in the destination, where there is one; no other byte of
memory or of a scratchpad changes but what the translations left. An `atomar` at QUAD scope or above tags its lines (R172), here
ones that were not tagged; at CORE scope the core's own dirty bytes of its lines reach their homes first, since the element is read
there (the model's reading: log 42). -/
def Obligations.AtomicsAtHome : Prop :=
  ∀ (sw : Bool) (str : Stream) (a : Base) (o : Offset) (s : State) (h : Here), Quiet s h → NoWatch h → RegistersOk s →
    let f := h.frame
    let t := f.mode.t
    let n := t.bytes
    let seen (at_ : Nat → Nat × Nat) (new : Nat → Nat → Nat) (old : Nat → Nat) (ls : List Nat) (l : Nat) : Nat :=
      (ls.filter fun k => at_ k = at_ l).foldl (fun v k => new k v) (old l)
    let ends (i : Instr) (d : Option Dst) (got : Nat → Nat) (P : State → Prop) : Prop :=
      ∃ u tm, exec i s = .next u ∧ u.teams[h.t]? = some tm ∧ GoesOn i h tm ∧ P u ∧ (d = none → tm.inflight = [])
        ∧ ∀ d', d = some d' → ∃ fl, tm.inflight = [fl] ∧ LaneResult f (h.tm.regs.apply fl.writes) d' t.regs got
    (MemoryOk s → ∀ x y : Nat → Xlat,
      let r := placeAll s h (.glob true) .both n (globAccs f a o n)
      let pa (l : Nat) : Nat := (x l).pa
      r.2 = (f.on.map fun l => ⟨⟨l, baseAddr f a o l, n⟩, .glob (x l) n (y l)⟩, []) →
      (∀ l ∈ f.on, pa l % n = 0 ∧ pa l + n ≤ apertureBase) →
      let lines := f.on.map fun l => lineOf (pa l)
      let elems := f.on.flatMap fun l => (List.range n).map fun j => pa l + j
      let does (i : Instr) (jf : Frame → Job) (d : Option Dst) (own : List (Nat × Byte)) (new : Nat → Nat → Nat) (P : State → Prop) :
          Prop := Ready jf f → OneEach own → PlainAt r.1 (own.map (·.1) ++ elems) →
        let old (l : Nat) : Nat := natOf ((List.range n).map fun j => byteOver own r.1.mem (pa l + j))
        ends i d (fun l => seen (fun k => (0, pa k)) new old (f.on.filter fun k => decide (k < l)) l) fun u =>
          (∀ l ∈ f.on, readNat u.mem (pa l) n = seen (fun k => (0, pa k)) new old f.on l % 2 ^ (8 * n))
            ∧ (∀ p, p ∉ elems → sget u.mem p = byteOver own r.1.mem p) ∧ P u
      let fn (d : Option Dst) (g : AtomFn) (l v : Nat) : Nat :=
        atomNew g t v ((d.map fun d' => dstVal f d' t.regs l 0).getD 0)
      (∀ d g, does (.atom sw d a o str g) (jobAtom d a o str g) d [] (fn d g) fun _ => True)
        ∧ (∀ d, does (.cas sw d a o str) (jobCas d a o str) (some d) []
            (fun l v => if v = dstVal f d t.regs l 0 then dstVal f d t.regs l t.regs else v) fun _ => True)
        ∧ (∀ d g, h.tm.mode.sc = .core → does (.atomar sw d a o str g) (jobAtomar d a o str g) d
            (dirtyOf r.1 h.core fun x => lines.contains x.line) (fn d g) fun _ => True)
        ∧ (∀ d g, h.tm.mode.sc ≠ .core → (h.tm.mode.sc = .pod → podRelease s h = none) → (∀ k ∈ lines, tagOf r.1 k = none) →
            does (.atomar sw d a o str g) (jobAtomar d a o str g) d [] (fn d g) fun u =>
              ∀ k ∈ lines, tagOf u k = some ⟨k, .core h.core, h.asid, h.tm.mode.sc, false⟩))
      ∧ (∀ (d : Option Dst) (g : AtomFn) (c k : Nat → Nat),
        let sp (s : State) (c : Nat) : Sparse 8 := ((s.cohorts[c]?).map Cohort.sp).getD []
        let x (l : Nat) : Nat := baseOff f a o l % 2 ^ 22
        let old (l : Nat) : Nat := readNat (sp s (c l)) (x l) n
        let new (l v : Nat) : Nat := atomNew g t v ((d.map fun d' => dstVal f d' t.regs l 0).getD 0)
        Ready (jobAtoms d a o str g) f → (∀ q : Nat, swf (sp s q) = true) →
        (∀ l ∈ f.on, baseOff f a o l % n = 0 ∧ baseOff f a o l < 2 ^ 24 ∧ x l + n ≤ h.share
          ∧ h.neighbour (baseOff f a o l / 2 ^ 22) = some (c l, k l) ∧ c l < s.cohorts.length) →
        ends (.atoms sw d a o str g) d (fun l => seen (fun k => (c k, x k)) new old (f.on.filter fun k => decide (k < l)) l) fun u =>
          (∀ l ∈ f.on, readNat (sp u (c l)) (x l) n = seen (fun k => (c k, x k)) new old f.on l % 2 ^ (8 * n))
            ∧ (∀ q p, (∀ l ∈ f.on, c l = q → ¬(x l ≤ p ∧ p < x l + n)) → sget (sp u q) p = sget (sp s q) p) ∧ u.mem = s.mem)

/-- Translation (R327, R331): it uses the leaf that the quad's TLB holds for the page, or else the one that the walk finds; it
writes no byte of memory but the leaf's eight, where A is set, and D where the access writes; the canonical form of memory is kept.
That A and D stay set where the instruction then takes another lane's fault is the model's reading (log 49). -/
def Obligations.TranslationMarksTheLeaf : Prop :=
  ∀ (s t : State) (quad asid root : Nat) (va : W64) (n : Need) (x : Xlat), MemoryOk s → translate s quad asid root va n = .ok (t, x) →
    MemoryOk t ∧ t.teams.length = s.teams.length ∧ t.cohorts = s.cohorts ∧ t.cores = s.cores
      ∧ ∃ l : Leaf, (match tlbFind (s.tlbs.getD quad []) asid (vpage va) with
          | some e => l = ⟨e.home, e.pte.toNat, e.page, e.pages⟩
          | none => walk s root va = .ok l)
        ∧ x = ⟨leafPa l va, pteBit l.pte 5, pteBit l.pte 6, pteTier l.pte == 2⟩ ∧ leafRights l.pte n = none
        ∧ ((pteBit l.pte 7 = false ∨ (n.writes = true ∧ pteBit l.pte 8 = false)) →
          pteBit (readNat t.mem l.home 8) 7 = true ∧ (n.writes = true → pteBit (readNat t.mem l.home 8) 8 = true))
        ∧ (pteBit l.pte 7 = true → (n.writes = true → pteBit l.pte 8 = true) → t.mem = s.mem)
        ∧ ∀ a, ¬(l.home ≤ a ∧ a < l.home + 8) → sget t.mem a = sget s.mem a

/-- FENCE, MONITOR and MWAIT (R132 to R134): a fence whose streams have no deferred access and no open request goes on; a
`fence.sc.pod` whose imported writes are confirmed leaves its die no clean copy of a page that the team has read, and its core no
clean byte of the ASID on a page with P = 0 (R186); `monitor` arms its line, or raises the fault of its address; `mwait` returns and
disarms where the wake flag is set or nothing is armed, and else waits. -/
def Obligations.FencesAndMonitors : Prop :=
  ∀ (sw : Bool) (s : State) (h : Here), Quiet s h →
    (∀ mask sc k, ¬(k = .sc ∧ sc = .pod) → Did (.fence sw mask sc k) s h sw h.tm (h.tm.pc + 4) 1)
      ∧ (∀ mask, openTags s h.tm.podTags = [] → ∃ t tm, exec (.fence sw mask .pod .sc) s = .next t ∧ t.teams[h.t]? = some tm
          ∧ tm.pc = h.tm.pc + 4 ∧ tm.regs = h.tm.regs ∧ tm.podPages = [] ∧ tm.podTags = [] ∧ t.mem = s.mem
          ∧ ∀ p ∈ h.tm.podPages, (∀ y ∈ t.dieCopies, y.die = dieOf h.core → y.line / 512 = p → y.full = none)
            ∧ ∀ c x, t.cores[h.core]? = some c → x ∈ c.l1 → x.asid = h.asid → x.priv = false → x.clean = none)
      ∧ (∀ a o, let va := h.tm.regs.uget a.val + offVal o
          (ordinary va = false → exec (.monitor sw a o) s = .next (takeFault s h h.tm (.plain 0x06 h.tm.pc h.tm.active va) h.tm.pc))
            ∧ (∀ s1 e, ordinary va = true → xlateFor s h.core h.asid h.cx.ptroot.toNat va .read = (s1, .error e) →
              exec (.monitor sw a o) s = .next (takeFault s1 h h.tm (.plain e.code h.tm.pc h.tm.active va) h.tm.pc))
            ∧ (∀ s1 x, ordinary va = true → xlateFor s h.core h.asid h.cx.ptroot.toNat va .read = (s1, .ok x) →
              ∃ t tm, exec (.monitor sw a o) s = .next t ∧ t.teams[h.t]? = some tm ∧ tm.monitor = some (lineOf x.pa)
                ∧ tm.wake = false ∧ tm.pc = after h (.monitor sw a o) ∧ tm.regs = h.tm.regs ∧ t.mem = s1.mem))
      ∧ ((h.tm.wake = true ∨ h.tm.monitor = none) →
          Did (.mwait sw) s h sw { h.tm with monitor := none, wake := false } (h.tm.pc + 4) 1)
      ∧ (h.tm.wake = false → h.tm.monitor ≠ none →
          exec (.mwait sw) s = .next { s with teams := s.teams.set h.t { h.tm with status := .blocked .monitor } })

/-- PREF, CLEAN and INVAL (R135, R136): they go on at the next word and no register changes; a `pref` none of whose addresses can be
used changes neither memory nor a TLB. `clean` and `inval` go on once nothing of the extents is still to be acknowledged: the extents'
dirty bytes in the core's L1 have then reached their homes, every other byte of memory is as the walks left it (R327), no line of an
extent holds a dirty byte there, and after `inval` none is held. The written bytes are none of a queue's state record or a context
record that take a write otherwise (R5, R294, R318). A clearing (R174) writes back the dirty bytes of the core's lines of the ASID to
their homes and leaves none dirty; self-invalidation (R175) discards the clean bytes of the ASID's lines on pages with P = 0 and keeps
the dirty ones. -/
def Obligations.CacheControl : Prop :=
  (∀ (sw : Bool) (a : Base) (o : Offset) (s : State) (h : Here), Quiet s h → NoWatch h → MemoryOk s →
    let f := h.frame
    let goes (i : Instr) (t : State) : Prop := exec i s = .next t ∧ ∃ tm, t.teams[h.t]? = some tm ∧ GoesOn i h tm
    let r := cleanAddrs s h (globAccs f a o 1)
    let hit (e : Extent) (line : Nat) : Bool := r.2.any fun pa => inExtent e pa line
    let clear (e : Extent) : Prop := extentTags (writeBackWhere r.1 h.core fun x => hit e x.line) h (hit e) = []
    let home (e : Extent) (t : State) : Prop :=
      let d := dirtyOf r.1 h.core fun x => hit e x.line
      OneEach d → PlainAt r.1 (d.map (·.1)) → Reached d r.1.mem t.mem
    (∀ str lvl, Ready (jobPref a o str lvl) f → ∃ t, goes (.pref sw a o str lvl) t
        ∧ ((∀ l ∈ f.on, ordinary (baseAddr f a o l) = false) → t.mem = s.mem ∧ t.tlbs = s.tlbs))
      ∧ (∀ e, Ready (jobClean a o e) f → clear e → ∃ t, goes (.clean sw a o e) t ∧ home e t
          ∧ ∀ c x, t.cores[h.core]? = some c → x ∈ c.l1 → hit e x.line = true → x.dirty = [])
      ∧ (∀ e, Ready (jobInval a o e) f → clear e → ∃ t, goes (.inval sw a o e) t ∧ home e t
          ∧ ∀ c x, t.cores[h.core]? = some c → x ∈ c.l1 → hit e x.line = false))
    ∧ (∀ (s : State) (core asid : Nat), MemoryOk s →
      (let t := clearCore s core asid
        let d := dirtyOf s core fun x => x.asid == asid
        (∀ c x, t.cores[core]? = some c → x ∈ c.l1 → x.asid = asid → x.dirty = [])
          ∧ (∀ k, k ≠ core → t.cores[k]? = s.cores[k]?)
          ∧ (OneEach d → PlainAt s (d.map (·.1)) → Reached d s.mem t.mem))
        ∧ (let t := selfInvalidate s core asid
          t.mem = s.mem ∧ (∀ k, k ≠ core → t.cores[k]? = s.cores[k]?)
            ∧ (∀ c x, t.cores[core]? = some c → x ∈ c.l1 → x.asid = asid → x.priv = false → x.clean = none)
            ∧ ∀ c c' x, s.cores[core]? = some c → t.cores[core]? = some c' → x ∈ c.l1 → x.dirty ≠ [] →
              ∃ y ∈ c'.l1, y.line = x.line ∧ y.asid = x.asid ∧ y.dirty = x.dirty))


/-! ## Queues, engines, lattices (spec/06_instructions_memory.md, spec/11_lattice_access.md, spec/13_matrix_and_sparse.md) -/

/-- UMOV with a queue operand, and TLWAIT (R115, R137, R141, R142). The first three words of a command are staged; the fourth, where the
command is valid, its context is not halted and its queue has room, queues it under its context's next number, once the dirty bytes of
the source ranges in the core's L1 have reached their homes; it raises QUEUE where the command is not valid or its context is halted. A
completion word is popped into a register that then waits for it, or the team blocks. `tlwait` goes on once the timeline has reached its
number, and else blocks, or raises QUEUE where the timeline will not reach it: its context is halted, or an abort has taken that number
or one below it, which the model counts as halted (log 68, DEDUCED); a team that has waited keeps the context and the number that it
named. The bytes that reach their homes are none of a queue's state record or a context record that take a write otherwise (R5, R294,
R318). -/
def Obligations.QueueMoves : Prop :=
  ∀ (sw : Bool) (a : USrc) (s : State) (h : Here), Quiet s h →
    let x := usrcVal h.frame a
    let queued (i : Instr) (e : EngRef) (ws : List W64) (ranges : List (W64 × Nat)) (staged : Team → List W64) : Prop :=
      ∀ g, s.engine? e = some g → g.queue.length < 64 → ∃ t tm g', exec i s = .next t ∧ t.teams[h.t]? = some tm ∧ staged tm = []
        ∧ tm.pc = after h i ∧ tm.regs = h.tm.regs ∧ t.engine? e = some g' ∧ g'.next = g.next + 1
        ∧ g'.queue = g.queue ++ [⟨g.next, ws, 0, h.origin h.tm.pc, none, 0⟩]
        ∧ (let lines := ranges.flatMap fun r => rangeLines s h.cx.ptroot.toNat r.1 r.2
          let d := dirtyOf s h.core fun x => lines.contains x.line
          MemoryOk s → OneEach d → PlainAt s (d.map (·.1)) → Reached d s.mem t.mem)
    (h.tm.stage0.length < 3 →
        Did (.umovPushQ0 sw a) s h sw { h.tm with stage0 := h.tm.stage0 ++ [x] } (after h (.umovPushQ0 sw a)) 1)
      ∧ (h.tm.stage2.length < 3 →
        Did (.umovPushQ2 sw a) s h sw { h.tm with stage2 := h.tm.stage2 ++ [x] } (after h (.umovPushQ2 sw a)) 1)
      ∧ (h.tm.stage0.length = 3 →
          let ws := h.tm.stage0 ++ [x]
          let k := carterOf ws
          let e : EngRef := .copy h.core k.ctx
          (carterOk h ws = true → s.engHalted e = false → queued (.umovPushQ0 sw a) e ws
              (if k.ssp || k.op == 2 then [] else (List.range k.rows).map fun r => (k.srcRow r, k.len)) Team.stage0)
            ∧ ((carterOk h ws = false ∨ s.engHalted e = true) →
              let tm := { h.tm with stage0 := [] }
              exec (.umovPushQ0 sw a) s = .next (takeFault s { h with tm := tm } tm (.plain 0x0E h.tm.pc h.tm.active 0) h.tm.pc)))
      ∧ (h.tm.stage2.length = 3 →
          let ws := h.tm.stage2 ++ [x]
          let k := siftOf ws
          let e : EngRef := .sift h.core k.ctx
          (siftOk h ws = true → s.engHalted e = false →
              queued (.umovPushQ2 sw a) e ws [(k.a, 4 * k.na), (k.b, 4 * (if k.op = 0 then k.nb else k.na))] Team.stage2)
            ∧ ((siftOk h ws = false ∨ s.engHalted e = true) →
              let tm := { h.tm with stage2 := [] }
              exec (.umovPushQ2 sw a) s = .next (takeFault s { h with tm := tm } tm (.plain 0x0E h.tm.pc h.tm.active 0) h.tm.pc)))
      ∧ (∀ d : SReg,
          (∀ w r, h.co.compq = w :: r → ∃ t tm fl, exec (.umovPopQ3 sw d) s = .next t ∧ t.teams[h.t]? = some tm
            ∧ tm.pc = h.tm.pc + 4 ∧ tm.regs = h.tm.regs ∧ tm.inflight = [fl] ∧ fl.writes = Writes.ofU d.val w
            ∧ isClaimed tm.claims (.s d.val) = true ∧ t.cohorts[h.tm.cohort]? = some { h.co with compq := r })
            ∧ (h.co.compq = [] →
              exec (.umovPopQ3 sw d) s = .next { s with teams := s.teams.set h.t { h.tm with status := .blocked .q3 } }))
      ∧ (∀ (c : TlCtx) (n : Cnt),
          let w : EngRef × W64 := match h.wake with
            | some (.timeline e v) => (e, v)
            | _ => (tlEngine h c, cntVal h.frame n)
          let i : Instr := .tlwait sw c n
          let faults (code : Byte) : Prop := exec i s = .next (takeFault s h h.tm (.plain code h.tm.pc h.tm.active 0) h.tm.pc)
          (c = .matrix → h.ga.mfault = true → faults 0x0D)
            ∧ (¬(c = .matrix ∧ h.ga.mfault = true) →
              (w.2 ≤ s.tl w.1 → ∃ t tm, exec i s = .next t ∧ t.teams[h.t]? = some tm ∧ GoesOn i h tm ∧ t.mem = s.mem)
                ∧ (¬ w.2 ≤ s.tl w.1 → s.neverTl w.1 w.2 = false →
                  exec i s = .next { s with teams := s.teams.set h.t { h.tm with status := .blocked (.timeline w.1 w.2) } })
                ∧ (¬ w.2 ≤ s.tl w.1 → s.neverTl w.1 w.2 = true → faults 0x0E)
                ∧ (s.engHalted w.1 = true → s.neverTl w.1 w.2 = true)))

/-- Carter's and Sifter's commands (R138 to R141, R179, R253 to R255). An engine that reads memory of its own package reads the
bytes at home. A copy or a fill whose source has been read and whose destination, in a scratchpad or in memory of the package, lies
apart from it leaves every byte in its place and no other byte of memory or of a scratchpad changed; with RCE its ring has one more
slot committed, and where the ring does not allow that the context halts; the command leaves the queue and the timeline takes its
number, where no abort has taken one below it (log 68, DEDUCED). A Sifter command that has read its lists has one entry for every pair
of positions with one value, i ascending first and then j, and ends with the marker; while its ring has room the next entry is written
at the start of its slot, which is reserved and committed, and nothing else of the scratchpad changes; with no entry left its completion
word is queued and the timeline takes its number. The bytes written are none of a queue's state
record or a context record that take a write otherwise (R5, R294, R318). -/
def Obligations.EngineCommands : Prop :=
  (∀ (s : State) (h : Here) (e : EngRef) (as : List Acc),
      let r := placeAll s h (.glob true) .read 1 as
      let spots := r.2.1.flatMap Placed.spots
      r.2.2 = [] → (∀ x ∈ spots, x.x.imp = false) → (∀ p ∈ r.2.1, p.spots.length = p.acc.size) →
      ∃ t, engineRead s h e false (.glob true) as = .ok t (spots.map fun x => sget r.1.mem x.pa) ∧ t.mem = r.1.mem)
    ∧ ∀ (core ctx : Nat) (s : State) (h : Here) (g : Engine) (c : Cmd), here s c.origin.team = some h →
    let ready (e : EngRef) : Prop := s.engine? e = some g ∧ g.queue.head? = some c ∧ g.fault = none ∧ g.need = []
    let done (e : EngRef) (t : State) : Prop :=
      t.tl e = tlPast g.stuck c.n ∧ (g.stuck = none → t.tl e = c.n) ∧ ∃ g', t.engine? e = some g' ∧ g'.queue = g.queue.drop 1
    let carter (i : Instr) (k : Carter) : Prop :=
      (i = .carterCopy core ctx ∧ k.op = 0) ∨ (i = .carterCopy2d core ctx ∧ k.op = 1) ∨ (i = .carterFill core ctx ∧ k.op = 2)
    let sifter (i : Instr) (k : Sift) : Prop := (i = .sifterSortedIndex core ctx ∧ k.op = 0) ∨ (i = .sifterBitmap core ctx ∧ k.op = 1)
    (let e : EngRef := .copy core ctx
      let k := carterOf c.words
      ready e → c.emit = none → ∀ i : Instr, carter i k →
        ∀ s1 bs ks s2 ps, carterSource s h e k = .ok s1 (bs, ks) →
          enginePlace s1 h (if k.dsp then .spad false else .glob true) .write (rowAccs k.dsp k.dstRow k.rows k.len) = .ok s2 ps →
          (∀ x ∈ ks, x ∉ ps.flatMap byteKeys) → (∀ p ∈ ps, ∀ x n y, p.place = .glob x n y → x.imp = false) →
          ∀ co rg, (k.rce = true → s2.cohorts[c.origin.cohort]? = some co ∧ co.ring k.ring = some rg ∧ rg.canCmt 1 = true ∧ co.ringq = []) →
          ∃ t, exec i s = .next t ∧ done e t
            ∧ (k.rce = true → ∃ co', t.cohorts[c.origin.cohort]? = some co' ∧ co'.ring k.ring = some { rg with cmt := rg.cmt + 1 })
            ∧ (let pas := (ps.flatMap Placed.spots).map Spot.pa
              let keys := ps.flatMap byteKeys
              MemoryOk s2 → (∀ co ∈ s2.cohorts, swf co.sp = true) → PlainAt s2 pas → (∀ a ∈ pas, a < 2 ^ 60) →
              (∀ p ∈ ps, (byteKeys p).length = p.acc.size) →
              (∀ p ∈ ps, ∀ c k o, p.place = .spad c k o → c < s2.cohorts.length ∧ o + p.acc.size ≤ 2 ^ 22) →
              keys.Nodup → keys.length = bs.length →
              (∀ w ∈ keys.zip bs, placeByte t w.1 = w.2) ∧ ∀ a, a ∉ keys → placeByte t a = placeByte s2 a))
      ∧ (let e : EngRef := .copy core ctx
        let k := carterOf c.words
        ready e → c.emit = some [] → k.rce = true → ∀ i : Instr, carter i k → ∀ co, s.cohorts[c.origin.cohort]? = some co →
          (∀ rg, co.ring k.ring = some rg → rg.canCmt 1 = true → co.ringq = [] → ∃ t co', exec i s = .next t ∧ done e t
            ∧ t.cohorts[c.origin.cohort]? = some co' ∧ co'.ring k.ring = some { rg with cmt := rg.cmt + 1 } ∧ co'.sp = co.sp ∧ t.mem = s.mem)
          ∧ ((∀ rg, co.ring k.ring = some rg → rg.canCmt 1 = false) → ∃ t g', exec i s = .next t ∧ t.engine? e = some g'
            ∧ g'.halted = true ∧ g'.queue = [] ∧ t.tl e = g.tl ∧ t.cohorts = s.cohorts))
      ∧ (let e : EngRef := .sift core ctx
        let k := siftOf c.words
        ready e → c.emit = none → ∀ s1 xs s2 ys,
          engineRead s h e false (.glob true) (rangePieces k.a (4 * k.na)) = .ok s1 xs →
          engineRead s1 h e false (.glob true) (rangePieces k.b (4 * k.lenB)) = .ok s2 ys →
          let as := words32 k.na xs
          let bs := words32 k.lenB ys
          let emits (i : Instr) (es : List W64) : Prop := ∃ t g' c', exec i s = .next t ∧ t.engine? e = some g'
            ∧ g'.queue = c' :: g.queue.drop 1 ∧ c' = { c with emit := some (es ++ [siftMarker]) } ∧ t.mem = s2.mem
          (k.op = 0 → as.Pairwise (· ≤ ·) → bs.Pairwise (· ≤ ·) → ∃ es, emits (.sifterSortedIndex core ctx) es
              ∧ (∀ i j, i < 2 ^ 32 → j < 2 ^ 32 → (siftEntry i j ∈ es ↔ ∃ v, as[i]? = some v ∧ bs[j]? = some v))
              ∧ es.Pairwise fun x y => x.toNat % 2 ^ 32 < y.toNat % 2 ^ 32
                ∨ (x.toNat % 2 ^ 32 = y.toNat % 2 ^ 32 ∧ x.toNat / 2 ^ 32 < y.toNat / 2 ^ 32))
            ∧ (k.op = 1 → emits (.sifterBitmap core ctx) (bitmapPairs (as.zip bs) 0 0)))
      ∧ (let e : EngRef := .sift core ctx
        let k := siftOf c.words
        ready e → ∀ x es co rg, c.emit = some (x :: es) → s.cohorts[c.origin.cohort]? = some co → co.ring k.ring = some rg →
          co.ringq = [] → rg.canRsv 1 = true → { rg with rsv := rg.rsv + 1 }.canCmt 1 = true →
          (es = [] ∧ x = siftMarker ∨ es ≠ [] ∧ { rg with rsv := rg.rsv + 1 }.canRsv 1 = false) → ∀ i : Instr, sifter i k →
          ∃ t co' g', exec i s = .next t ∧ t.cohorts[c.origin.cohort]? = some co' ∧ t.engine? e = some g' ∧ t.mem = s.mem
            ∧ co'.ring k.ring = some { rg with rsv := rg.rsv + 1, cmt := rg.cmt + 1 }
            ∧ g'.queue = { c with emit := some es, pairs := if x = siftMarker then c.pairs else c.pairs + 1 } :: g.queue.drop 1
            ∧ (let off := rg.base.toNat + rg.rsv.toNat % rg.nslot.toNat * rg.slotsz.toNat
              swf co.sp = true → readNat co'.sp off 8 = x.toNat ∧ ∀ p, ¬(off ≤ p ∧ p < off + 8) → sget co'.sp p = sget co.sp p))
      ∧ (let e : EngRef := .sift core ctx
        ready e → c.emit = some [] → ∀ co, s.cohorts[c.origin.cohort]? = some co → co.compq.length < 64 → ∀ i : Instr,
          sifter i (siftOf c.words) →
          ∃ t co', exec i s = .next t ∧ done e t ∧ t.cohorts[c.origin.cohort]? = some co'
            ∧ co'.compq = co.compq ++ [BitVec.ofNat 64 (c.n.toNat % 2 ^ 30 * 2 ^ 34 + ctx * 2 ^ 32 + c.pairs % 2 ^ 32)])

/-- Lattices (R206, R207, R209, R215 to R222, R225). `ldlat` puts a descriptor that passes its checks into the slot, and raises
LATTICE for another. `ldi` and `spl` raise LATTICE from an empty slot, and for lanes with a bad coordinate; where no lane has a bad
coordinate or address `ldi` goes on with its values in flight. `spl` raises SPLATRANGE where a contribution to an EXACT or INT32
lattice is out of range, and nothing is added; else it goes on, and every element that it reaches, local and apart from the others,
takes the sum of its contributions in order of lane and corner: PLAIN a chain of rounded f32 steps added with one rounding to the
element's type, EXACT the integer sum modulo 2¹²⁸ in its shadow, INT32 the integer sum modulo 2³²; no other byte of memory changes,
and the core holds no clean copy of those lines. `settle` raises LATTICE for an empty slot or one that is not EXACT, and else queues
its command; SETTLE_EXECUTE ends it once every shadow has been added, each entry taking one rounded sum and its shadow becoming
zero; a shadow that is zero leaves its entry alone; the timeline takes its number, where no abort has taken one below it (log 68,
DEDUCED). That ADDR is the descriptor's base for a rejected descriptor, and for a `settle` of a slot that is not EXACT, is the model's
choice (log 114). The bytes written are none of a queue's state record or a context record that take a write otherwise
(R5, R294, R318). -/
def Obligations.Lattices : Prop :=
  (∀ (sw : Bool) (n : Fin 16) (s : State) (h : Here), Quiet s h → NoWatch h →
    let faults (i : Instr) (code : Byte) (lanes : Mask) (base : W64) : Prop :=
      exec i s = .next (takeFault s h h.tm (.plain code h.tm.pc lanes base) h.tm.pc)
    (∀ (a : USrc) (bs : List Byte),
        let i : Instr := .ldlat sw n a
        let r := placeAll s h (.glob true) .read 64 [⟨0, usrcVal h.frame a, 64⟩]
        let q := loadPlaced r.1 h none r.2.1
        let d : BitVec 512 := BitVec.ofNat 512 (natOf bs)
        r.2.2 = [] → knownBytes q.2.1 = some bs →
        (latOk d = true → ∃ t tm, exec i s = .next t ∧ t.teams[h.t]? = some tm ∧ GoesOn i h tm
            ∧ t.cohorts[h.tm.cohort]? = some { h.co with lats := h.co.lats.set n.val (some d) } ∧ t.mem = q.1.mem)
          ∧ (latOk d = false → ∃ u tm, exec i s = .next (takeFault u { h with tm := tm } tm
              (.plain 0x0B h.tm.pc h.tm.active (latOf d).base) h.tm.pc) ∧ u.mem = q.1.mem))
      ∧ (∀ (d : Fin 192) (grad : Bool) (crd : Fin 128) (str : Stream),
        let ldi : Instr := .ldi sw d grad crd str n
        let spl : Instr := .spl sw d grad crd str n
        let ldiReady : Prop := Ready (jobLdi d grad crd str n) h.frame
        let splReady : Prop := Ready (jobSpl d grad crd str n) h.frame
        (h.frame.lats[n.val]? = some none →
            ((jobLdi d grad crd str n h.frame).spansOk = true → faults ldi 0x0B h.frame.part 0)
              ∧ ((jobSpl d grad crd str n h.frame).spansOk = true → faults spl 0x0B h.frame.part 0))
          ∧ ∀ x, h.frame.lats[n.val]? = some (some x) →
            let l := latOf x
            let cs := lanesCorners l h.frame crd.val
            (cs.2 ≠ [] → (ldiReady → faults ldi 0x0B (maskOf cs.2) l.base) ∧ (splReady → faults spl 0x0B (maskOf cs.2) l.base))
              ∧ (cs.2 = [] →
              (let r := placeCorners s h .read (cornerAccs l cs.1)
                let q := loadPlaced (countBanks r.1 h.t r.2.1) h none r.2.1
                ldiReady → r.2.2 = [] → ∀ bs, knownBytes q.2.1 = some bs →
                ∃ t tm fl, exec ldi s = .next t ∧ t.teams[h.t]? = some tm ∧ GoesOn ldi h tm ∧ tm.inflight = [fl]
                  ∧ fl.writes = Writes.ofV (ldiWrites l d.val grad cs.1 bs) ∧ t.mem = q.1.mem)
              ∧ (let r := placeCorners s h .both (splAccs l cs.1)
                let ps := cs.1.flatMap fun c => laneSplats l h.frame d.val grad c.1 c.2
                let key (p : Splat) : W64 := if l.smode = 1 then p.sh else p.addr
                let w := if l.smode = 1 then 128 else 32
                let bad := if l.smode = 0 then [] else ps.filter fun p => !splatFits l.elo w p
                let n := if l.smode = 0 then latSize l.etype else w / 8
                let on (p : Splat) : List Splat := ps.filter fun q => key q = key p
                let new (p : Splat) (old : Nat) : Nat :=
                  if l.smode = 0 then splatNew l.etype old ((on p).foldl (fun acc q => step32 q.coef q.data acc) 0)
                  else (((old : Int) + (((on p).filterMap (splatInt l.elo)).foldl (· + ·) 0)) % 2 ^ w).toNat
                splReady → r.2.2 = [] →
                (bad ≠ [] → exec spl s = .next (takeFault r.1 h (teamNow r.1 h)
                    (.plain 0x0C h.tm.pc (maskOf (bad.map (·.lane))) l.base) h.tm.pc))
                  ∧ (bad = [] → ∃ t tm, exec spl s = .next t ∧ t.teams[h.t]? = some tm ∧ GoesOn spl h tm
                    ∧ ∀ pa : W64 → Nat, MemoryOk s → (∀ p ∈ ps, findElem r.2.1 (key p) = some (.glob (pa (key p)))) →
                      (∀ p ∈ ps, pa (key p) + n ≤ apertureBase) →
                      (∀ p ∈ ps, ∀ q ∈ ps, key p ≠ key q → pa (key p) + n ≤ pa (key q) ∨ pa (key q) + n ≤ pa (key p)) →
                      PlainAt r.1 (ps.flatMap fun p => (List.range n).map fun j => pa (key p) + j) →
                      (∀ p ∈ ps, readNat t.mem (pa (key p)) n = new p (readNat r.1.mem (pa (key p)) n) % 2 ^ (8 * n))
                        ∧ (∀ a, (∀ p ∈ ps, ¬(pa (key p) ≤ a ∧ a < pa (key p) + n)) → sget t.mem a = sget r.1.mem a)
                        ∧ ∀ p ∈ ps, ∀ c y, t.cores[h.core]? = some c → y ∈ c.l1 → y.line = lineOf (pa (key p)) → y.clean = none))))
      ∧ (let i : Instr := .settle sw n
        (h.co.lats[n.val]? = some none → faults i 0x0B h.tm.active 0)
          ∧ ∀ d, h.co.lats[n.val]? = some (some d) →
            ((latOf d).smode ≠ 1 → faults i 0x0B h.tm.active (latOf d).base)
              ∧ ∀ g, (latOf d).smode = 1 → s.engine? (.settle h.core) = some g →
                (g.halted = true → faults i 0x0E h.tm.active 0)
                  ∧ (g.halted = false → ∃ t tm g', exec i s = .next t ∧ t.teams[h.t]? = some tm ∧ GoesOn i h tm
                    ∧ t.engine? (.settle h.core) = some g' ∧ g'.queue = g.queue ++ [⟨g.next, [], d, h.origin h.tm.pc, none, 0⟩]
                    ∧ g'.next = g.next + 1 ∧ t.mem = s.mem)))
    ∧ (∀ (core : Nat) (s s1 : State) (h : Here) (g : Engine) (c : Cmd), here s c.origin.team = some h →
        s.engine? (.settle core) = some g → g.queue.head? = some c → g.fault = none → g.need = [] →
        let l := latOf c.desc
        let ends (m : Sparse 8) : Prop := ∃ t, exec (.settleExecute core) s = .next t ∧ t.tl (.settle core) = tlPast g.stuck c.n
          ∧ (g.stuck = none → t.tl (.settle core) = c.n) ∧ t.mem = m
        (c.emit = none → settleFrom h (.settle core) l c (l.elems - c.pairs) c.pairs s [] = (s1, some []) →
            (s1.engine? (.settle core)).isSome → ends s1.mem)
          ∧ (c.emit.isSome = true → ends s.mem))
    ∧ (∀ (s : State) (h : Here) (e : EngRef) (l : Machine.Lat) (pa pe : Nat) (ah ae : Acc) (x y : Xlat), MemoryOk s →
        PlainAt s ((List.range 16).map (pa + ·) ++ (List.range ae.size).map (pe + ·)) →
        x.pa = pa → y.pa = pe → x.imp = false → y.imp = false → ah.size = 16 → (pa + 16 ≤ pe ∨ pe + ae.size ≤ pa) →
        ∃ t, settlePair s h e l ⟨ah, .glob x 16 x⟩ ⟨ae, .glob y ae.size y⟩ = .ok t []
          ∧ readNat t.mem pe ae.size = settleNew l.etype l.elo (readNat s.mem pe ae.size) (readNat s.mem pa 16) % 2 ^ (8 * ae.size)
          ∧ readNat t.mem pa 16 = 0 ∧ ∀ a, ¬(pa ≤ a ∧ a < pa + 16) → ¬(pe ≤ a ∧ a < pe + ae.size) → sget t.mem a = sget s.mem a)
    ∧ (∀ (s s1 : State) (h : Here) (e : EngRef) (l : Machine.Lat) (i : Nat) (sh : Placed),
        enginePlace s h (.glob true) .both [⟨0, shadowAddr l (i / l.channels) (i % l.channels), 16⟩] = .ok s1 [sh] →
        placedImp sh = none → placedNat s1 sh = 0 → settleOne s h e l i = .ok s1 [])

/-! ## Matrix units (spec/13_matrix_and_sparse.md R229 to R248) -/

/-- Matrix instructions at issue (R229 to R231, R234, R236, R242, R245 to R248). A numbered instruction whose checks pass takes the
bench's next number with the operands as they stand, and an arithmetic one counts BURST down and brings the unit out of IDLE, HOLD
or DOWN; its checks are ILLEGAL for a type that it does not accept and for an odd tile under f64, MATRIX for a gang
whose matrix fault nobody has resolved and for a tile outside the share, MATRIX for its descriptors' fields, ALIGN and PROT, where of a
sparse descriptor's address the alignment alone is checked (R242). R234 orders none of MATRIX, ALIGN and PROT: that they come in this
order, and that of the bytes behind an address only the first is held to R118 here, is the model's (log 115, DESIGN CHOICE; log 116,
DEDUCED). `mhint`
sets BURST and starts or ends a ramp; `acrd` reads the tile, or waits for its last earlier write; `acst` stores the tile's rows once
no earlier write of it is left, and raises in FLAGS what its conversions raise (that they do is the model's reading, log 63). -/
def Obligations.MatrixIssue : Prop :=
  ∀ (sw : Bool) (n : Fin 8) (s : State) (h : Here) (b : Bench), Quiet s h → s.bench? h.core h.bench = some b →
    let f := h.frame
    let t := f.mode.t
    let u (k : Nat) : W64 := f.regs.uget k
    let named : Prop := tileEven t n.val = true ∧ h.ga.mfault = false ∧ tileIn h t n.val = true
    let arith (i : Instr) : Bool := match i with
      | .mma .. => true | .mmab .. => true | .mmar .. => true | _ => false
    let takes (i : Instr) (args : List W64) : Prop := ∃ s' tm b', exec i s = .next s' ∧ s'.teams[h.t]? = some tm ∧ GoesOn i h tm
      ∧ s'.bench? h.core h.bench = some b' ∧ b'.nxmat = b.nxmat + 1 ∧ b'.tl = b.tl ∧ s'.mem = s.mem
      ∧ b'.queue = b.queue ++ [⟨b.nxmat, i, h.tm.mode, args, h.origin h.tm.pc, false, false⟩]
      ∧ b'.burst = (if arith i = true ∧ b.burst ≠ 0 then b.burst - 1 else b.burst)
      ∧ b'.ramp = (match b.ramp with
        | .idle => if (match b.queue with | [] => arith i | c :: _ => arith c.instr) then .up else .idle
        | .hold => if arith i then .run else .hold
        | .down => if arith i then .run else .down
        | r => r)
    let raises (i : Instr) (code : Byte) (addr : W64) : Prop :=
      exec i s = .next (takeFault s h h.tm (.plain code h.tm.pc h.tm.active addr) h.tm.pc)
    let faults (i : Instr) (code : Byte) : Prop := raises i code 0
    let placed (i : Instr) (args : List W64) (al : List (Nat × W64)) (strides forms : List W64) : Prop :=
      (((∃ a ∈ al, a.2.toNat % a.1 ≠ 0) ∨ ∃ x ∈ strides, x.toNat % 16 ≠ 0) → ∃ addr, raises i 0x04 addr)
        ∧ ((∀ a ∈ al, a.2.toNat % a.1 = 0) → (∀ x ∈ strides, x.toNat % 16 = 0) →
          ((∃ a ∈ forms, formOk h a = false) → ∃ a ∈ forms, formOk h a = false ∧ raises i 0x06 a)
            ∧ ((∀ a ∈ forms, formOk h a = true) → takes i args))
    let kind (i : Instr) (ok : Bool) : Prop := (i = .aclr sw n ∧ ok = true) ∨ (∃ x y, i = .acld sw n x y ∧ ok = tileTyOk t)
      ∨ (∃ x y, i = .mma sw n x y ∧ ok = (matTy t).isSome) ∨ (∃ x y, i = .mmab sw n x y ∧ ok = mmabOk t)
      ∨ ∃ x y, i = .mmar sw n x y ∧ ok = mmarOk t
    (∀ i ok, kind i ok → ((ok = false ∨ tileEven t n.val = false) → faults i 0x01)
        ∧ (ok = true → tileEven t n.val = true → (h.ga.mfault = true ∨ tileIn h t n.val = false) → faults i 0x0D))
      ∧ (named → takes (.aclr sw n) [])
      ∧ (∀ x y, named → tileTyOk t = true →
          let va := usrcVal f (asrcToU x)
          placed (.acld sw n x y) [va, usrcVal f y] [(16, va)] [usrcVal f y] [])
      ∧ (∀ x y : Fin 30, named → (matTy t).isSome →
          let fields : Prop := (u (x.val + 1)).toNat % 2 ^ 8 = 0 ∧ rowsOf (u (x.val + 1)) ≤ 128 ∧ bFieldsOk (u (y.val + 1)) = true
            ∧ (mxTy t = false → u (x.val + 2) = 0 ∧ u (y.val + 2) = 0)
          (¬fields → faults (.mma sw n x y) 0x0D)
            ∧ (fields → placed (.mma sw n x y) [u x.val, u (x.val + 1), u (x.val + 2), u y.val, u (y.val + 1), u (y.val + 2)]
                [(16, u x.val), (16, u y.val)] [strideOf (u (x.val + 1)), strideOf (u (y.val + 1))]
                [u x.val, u y.val, u (x.val + 2), u (y.val + 2)]))
      ∧ (∀ (x : SReg) (y : Fin 30) (i : Instr), named → ((i = .mmab sw n x y ∧ mmabOk t = true) ∨ (i = .mmar sw n x y ∧ mmarOk t = true)) →
          let fields : Prop := bFieldsOk (u (y.val + 1)) = true ∧ u (y.val + 2) = 0
          (¬fields → faults i 0x0D)
            ∧ (fields → placed i [u x.val, u y.val, u (y.val + 1), u (y.val + 2)] [(64, u x.val), (16, u y.val)]
                [strideOf (u (y.val + 1))] [u y.val]))
      ∧ (∀ x, let v : BitVec 16 := (usrcVal f x).setWidth 16
          ∃ s' tm b', exec (.mhint sw x) s = .next s' ∧ s'.teams[h.t]? = some tm ∧ GoesOn (.mhint sw x) h tm
            ∧ s'.bench? h.core h.bench = some b' ∧ b'.burst = v ∧ b'.queue = b.queue
            ∧ b'.ramp = (match b.ramp with
              | .idle => if v = 0 then .idle else .up
              | .hold => if v = 0 then .down else .hold
              | r => r))
      ∧ (∀ d x, Ready (jobAcrd d n x) f →
          ((h.ga.mfault = true ∨ tileIn h t n.val = false) → faults (.acrd sw d n x) 0x0D)
            ∧ (h.ga.mfault = false → tileIn h t n.val = true → RegistersOk s →
              let e (l : Nat) : Nat := (usrcVal f x).toNat + l
              ∃ s' tm fl, exec (.acrd sw d n x) s = .next s' ∧ s'.teams[h.t]? = some tm ∧ GoesOn (.acrd sw d n x) h tm
                ∧ tm.inflight = [fl] ∧ fl.tile = lastWriter s h n.val t.wide
                ∧ ((∀ l ∈ f.on, e l < tileElems) →
                  LaneResult f (h.tm.regs.apply fl.writes) d t.regs fun l => tileGet h.co h.bench n.val t.wide (e l))))
      ∧ (∀ x y bs hd, named → NoWatch h → (t = .f32 ∨ t = .i32 ∨ t = .f64) → usrcVal f y = 0 →
          let r := placeAll s h (.glob true) .read 64 [⟨0, usrcVal f x, 64⟩]
          let q := loadPlaced r.1 h none r.2.1
          r.2.2 = [] → knownBytes q.2.1 = some bs → headerOf bs = some hd → headerOk hd t false = true →
          hd.data.toNat % 16 = 0 → hd.stride.toNat % 16 = 0 → lastWriter s h n.val t.wide = none →
          let h' := { h with tm := teamNow q.1 h }
          let r2 := placeAll q.1 h' (.glob true) .write 1 ((List.range hd.rows).flatMap hd.rowAccs)
          let rows := acstRows hd h.tm.mode t [] (tileGet h.co h.bench n.val t.wide)
          r2.2.2 = [] →
          ∃ s' tm, exec (.acst sw n x y) s = .next s' ∧ s'.teams[h.t]? = some tm ∧ tm.pc = after h (.acst sw n x y)
            ∧ tm.regs = h.tm.regs ∧ tm.flags = h.tm.flags ||| rows.2
            ∧ s'.mem = (storePlaced r2.1 h' none (r2.2.1.zip rows.1)).1.mem)

/-- The matrix unit (R66, R230, R233, R236, R242 to R246): the instruction at the head of its queue, an arithmetic one only in RUN,
leaves the queue and the timeline takes its number; where no arithmetic one waits any more RUN ends in HOLD or DOWN. `aclr` leaves every
element of its tile zero and no element of another changed; `acld` leaves the elements it read. `mma`, `mmab` and `mmar`, once all
their chunks have been read, leave every element inside ROWS and COLS with the products of each chunk added in turn, and every other
element as it was: a `mma` in chunks of sixteen elements along K, those beyond K exact zeros, a sparse instruction in chunks of sixteen
stored positions of each row. A chunk of an integer type adds the exact sum of its products modulo 2³². That a ramp event out of its state
is no step is the model's reading (log 91). -/
def Obligations.MatrixUnit : Prop :=
  (∀ (core bench : Nat) (s : State) (h : Here) (b : Bench) (c : MCmd) (r : List MCmd) (co : Cohort), here s c.origin.team = some h →
    s.bench? core bench = some b → b.queue = c :: r → b.fault = none → b.need = [] → b.stuck = none → (∀ x ∈ r.head?, x.skip = false) →
    s.cohorts[c.origin.cohort]? = some co → swf co.tiles = true → bench < 4 → c.begun = false →
    let e : EngRef := .matrix core bench
    let wide : Bool := decide (c.mode.t = .f64)
    let arg (i : Nat) : W64 := c.args.getD i 0
    let s0 := s.modBench core bench fun b => { b with queue := modAt (fun x => { x with begun := true }) b.queue 0, mprog := 0 }
    let done (co' : Cohort) : Prop := ∃ t b', exec (.matrixUnitExecute core bench) s = .next t ∧ t.bench? core bench = some b'
      ∧ b'.queue = r ∧ b'.tl = c.q ∧ b'.mprog = 0 ∧ t.cohorts[c.origin.cohort]? = some co'
      ∧ b'.ramp = (match b.ramp with
        | .run => if ∀ x ∈ r, x.skip = false → isArith x.instr = false then (if b.burst = 0 then .down else .hold) else .run
        | .idle => if ∃ x ∈ r.head?, isArith x.instr = true then .up else .idle
        | x => x)
    let others (n : Nat) (co' : Cohort) : Prop := ∀ k n' e, (k ≠ bench ∨ n' < n ∨ n + (if wide then 2 else 1) ≤ n') → n' < 8 →
      e < tileElems → sget co'.tiles (tileKey k n' e) = sget co.tiles (tileKey k n' e)
    let works (n rows cols : Nat) (mt : MatTy) (read : State → Nat → Got Chunk) (s1 : State) (chs : List Chunk) : Prop :=
      tileEven c.mode.t n = true → b.ramp = .run → rows ≤ 128 → cols ≤ 96 →
      ChunksRead (chunkDone core bench n cols mt wide c) read chs 0 s1 →
      ∃ co', done co' ∧ others n co' ∧ ∀ m k, m < 128 → k < 96 → tileGet co' bench n wide (m * 96 + k) =
        if m < rows ∧ k < cols then chs.foldl (chunkElem mt (if wide then 64 else 32) m k) (tileGet co bench n wide (m * 96 + k))
        else tileGet co bench n wide (m * 96 + k)
    (∀ sw n, c.instr = .aclr sw n → tileEven c.mode.t n.val = true →
        ∃ co', done co' ∧ others n.val co' ∧ ∀ e, e < tileElems → tileGet co' bench n.val wide e = 0)
      ∧ (∀ sw n x y s1 rows, c.instr = .acld sw n x y → tileEven c.mode.t n.val = true →
          let size := if wide then 8 else 4
          unitRead s0 h e (acldParts (arg 0) (arg 1) size) = .ok s1 rows →
          ∃ co', done co' ∧ others n.val co' ∧ ∀ m k, m < 128 → k < 96 →
            tileGet co' bench n.val wide (m * 96 + k) = natOf (((rows.getD m []).drop (k * size)).take size))
      ∧ (∀ sw n x y mt chs, c.instr = .mma sw n x y → matTy c.mode.t = some mt → chs.length = (kOf (arg 1) + 15) / 16 →
          works n.val (rowsOf (arg 1)) (colsOf (arg 4)) mt (denseChunk h e mt (mxTy c.mode.t) c.args) s0 chs)
      ∧ (∀ sw n x y mt csr s1 d ps chs, matTy c.mode.t = some mt →
          ((c.instr = .mmab sw n x y ∧ csr = false) ∨ (c.instr = .mmar sw n x y ∧ csr = true)) →
          sparseRead csr h e c.args s0 = .ok s1 (d, ps) → chs.length = (ps.map fun p => (p.length + 15) / 16).foldl max 0 →
          works n.val d.rows (colsOf (arg 2)) mt (sparseChunk csr h e mt c.args d ps) s1 chs))
    ∧ (∀ (h : Here) (e : EngRef) (mt : MatTy) (args : List W64) (s t : State) (j : Nat) (ch : Chunk),
        (∀ mx, denseChunk h e mt mx args s j = .ok t ch → ∀ m as, ch.rows[m]? = some as →
            m < rowsOf (args.getD 1 0) ∧ as.1 = m ∧ as.2.map (·.2) = List.range 16
              ∧ ∀ k, kOf (args.getD 1 0) ≤ 16 * j + k → (∀ p ∈ as.2, p.2 = k → p.1 = 0) ∧ ∀ y ∈ ch.b, y.1 = k → ∀ v ∈ y.2, v = 0)
          ∧ (∀ csr d ps, sparseChunk csr h e mt args d ps s j = .ok t ch → ∀ m as, ch.rows[m]? = some as →
            as.1 = m ∧ as.2.map (·.2) = (((ps.getD m []).drop (16 * j)).take 16).map (·.2)))
    ∧ (∀ (a : Elem) (x : Nat) (ps : List (Nat × Nat)) (sc : Option Int), (a = .int true 8 ∨ a = .tern) →
        macElem ⟨a, .int true 8, .int true 32⟩ x ps sc
          = (((x : Int) + ((ps.map fun (p : Nat × Nat) => elemInt a p.1 * sx 8 p.2).foldl (· + ·) 0)) % 2 ^ 32).toNat)
    ∧ (∀ (core bench : Nat) (s : State) (b : Bench), s.bench? core bench = some b →
        let goes (i : Instr) (r : Ramp) (n : Nat) (next : Ramp) : Prop :=
          (b.ramp = r → ∃ t, exec i s = .next t
              ∧ t.bench? core bench = some { b with ramp := next, mfill := b.mfill + BitVec.ofNat 64 n })
            ∧ (b.ramp ≠ r → exec i s = .fault .notEnabled)
        goes (.matrixRampUpDone core bench) .up 16 (if b.waiting then .run else .hold)
          ∧ goes (.matrixHoldExpiry core bench) .hold 4096 .down ∧ goes (.matrixRampDownDone core bench) .down 32 .idle)

/-! ## Rings, barriers, control registers (spec/06_instructions_memory.md R144 to R147, spec/16_barrier_lifecycle.md) -/

/-- Rings (R144, R145). `init` puts a valid descriptor into the cohort with every counter 0, and raises QUEUE for another and for an
initialised ring in use, ALIGN for an offset that is not a multiple of 8; that a Carter command without a ring event names no ring is the
model's reading (log 107). `rsv` and `wait` give the old RSV or CNS and advance it, or block where the ring has no room or no
committed slot; `cmt` and `rel` advance CMT and REL, or raise QUEUE; with k = 0 each succeeds and changes no counter; `stat` reads
two counters. A ring that is not initialised raises QUEUE, and so does k above NSLOT. -/
def Obligations.Rings : Prop :=
  ∀ (sw : Bool) (r : Fin 16) (a k : USrc) (b : Byte) (d : Option SReg) (s : State) (h : Here), Quiet s h → h.wake = none →
    h.tm.posts = [] →
    h.co.ringq = [] →
    let n := usrcVal h.frame k
    let k32 : W32 := n.setWidth 32
    let raises (i : Instr) (code : Byte) (addr : W64) : Prop :=
      exec i s = .next (takeFault s h h.tm (.plain code h.tm.pc h.tm.active addr) h.tm.pc)
    let faults (i : Instr) : Prop := raises i 0x0E 0
    let put (i : Instr) (g' : Ring) (rg : Regs) : Prop := ∃ t tm co', exec i s = .next t ∧ t.teams[h.t]? = some tm
      ∧ tm.pc = after h i ∧ tm.regs = rg ∧ t.cohorts[h.tm.cohort]? = some co' ∧ co'.ring r.val = some g' ∧ co'.ringq = []
      ∧ (∀ q, q ≠ r.val → co'.ring q = h.co.ring q) ∧ co'.sp = h.co.sp ∧ t.mem = s.mem
    let old (x : W32) : Regs := match d with
      | some c => h.tm.regs.uset c.val (x.setWidth 64)
      | none => h.tm.regs
    let blocked (i : Instr) (wait : Bool) : Prop := ∃ t tm co', exec i s = .next t ∧ t.teams[h.t]? = some tm
      ∧ tm.status = .blocked .ring ∧ tm.pc = h.tm.pc ∧ tm.regs = h.tm.regs ∧ t.cohorts[h.tm.cohort]? = some co'
      ∧ co'.ringq = [⟨.team h.t h.tm.handlers, r.val, wait, k32, none⟩] ∧ co'.rings = h.co.rings
    (∀ g, h.co.ring r.val = some g →
        (g.nslot.toNat < n.toNat → faults (.ringRsv sw r d k) ∧ faults (.ringWait sw r d k) ∧ faults (.ringCmt sw r k)
            ∧ faults (.ringRel sw r k))
          ∧ (n = 0 → put (.ringRsv sw r d k) g (old g.rsv) ∧ put (.ringWait sw r d k) g (old g.cns)
            ∧ put (.ringCmt sw r k) g h.tm.regs ∧ put (.ringRel sw r k) g h.tm.regs)
          ∧ (n.toNat ≤ g.nslot.toNat → n ≠ 0 →
            (if g.canRsv k32 then put (.ringRsv sw r d k) { g with rsv := g.rsv + k32 } (old g.rsv) else blocked (.ringRsv sw r d k) false)
              ∧ (if g.canWait k32 then put (.ringWait sw r d k) { g with cns := g.cns + k32 } (old g.cns)
                else blocked (.ringWait sw r d k) true)
              ∧ (postedSlots s h.tm.cohort r.val false = 0 →
                if g.canCmt k32 then put (.ringCmt sw r k) { g with cmt := g.cmt + k32 } h.tm.regs else faults (.ringCmt sw r k))
              ∧ (postedSlots s h.tm.cohort r.val true = 0 →
                if g.canRel k32 then put (.ringRel sw r k) { g with rel := g.rel + k32 } h.tm.regs else faults (.ringRel sw r k)))
          ∧ (∀ c : SReg, (n = 0 → put (.ringStat sw r c k) g (h.tm.regs.uset c.val (g.cmt ++ g.rsv)))
              ∧ (n = 1 → put (.ringStat sw r c k) g (h.tm.regs.uset c.val (g.rel ++ g.cns)))))
      ∧ (h.co.ring r.val = none → faults (.ringRsv sw r d k) ∧ faults (.ringWait sw r d k) ∧ faults (.ringCmt sw r k)
          ∧ faults (.ringRel sw r k) ∧ ∀ c : SReg, n = 0 ∨ n = 1 → faults (.ringStat sw r c k))
      ∧ (∀ c : SReg, n ≠ 0 → n ≠ 1 → raises (.ringStat sw r c k) 0x01 0)
      ∧ (let off := (usrcVal h.frame a).toNat % 2 ^ 32;
          (off % 8 ≠ 0 → raises (.ringInit sw r a b) 0x04 (BitVec.ofNat 64 off))
            ∧ (off % 8 = 0 → off < 2 ^ 22 → off + 16 ≤ h.share → (h.neighbour 0).isSome → r.val < h.co.rings.length →
              let desc := ringOf (readBytes h.co.sp off 16) h.share
              ((desc = none ∨ (h.co.ring r.val).isSome = true ∧ ringBusy s h r.val = true) → faults (.ringInit sw r a b))
                ∧ ∀ g, desc = some g → (h.co.ring r.val = none ∨ ringBusy s h r.val = false) →
                  put (.ringInit sw r a b) g h.tm.regs ∧ g.rsv = 0 ∧ g.cmt = 0 ∧ g.cns = 0 ∧ g.rel = 0))

/-- Barriers (R146, R274 to R279, R199). An arrival whose checks pass counts where its instance is IDLE or COUNTING and changes nothing
where it is COMPLETE; the one that meets the target completes the generation, at the cohort level at once. An arrival that the team has
not waited for, one with n above the live members or other than the generation's, and any use of a FAULTED instance raise BARRIER, and
the instance is FAULTED. `wait` goes on once the generation of its arrival has passed, the core self-invalidating above the cohort
level, and a team that blocked before the generation passed goes on even if the instance has been FAULTED since; it blocks before, and
raises BARRIER without an arrival. `sync` does both. Without COOP the die, package and pod levels raise BARRIER.
BARRIER_GENERATION_COMPLETE brings the participating cores' dirty sets to their homes and begins the next generation, at pod level once
their forwarded writes are confirmed. The model's readings: in a joined pod other packages have their part in the count, and how many
live gangs they hold is free (log 52), an arrival at a COMPLETE instance sets ARR and g and counts nothing (log 54), the writes to be
confirmed are all that the cores have forwarded (log 17), and a completion whose cause is absent is no step (log 91). The bytes that
reach their homes are none of a queue's state record or a context record that take a write otherwise (R5, R294, R318). -/
def Obligations.Barriers : Prop :=
  (∀ (sw : Bool) (l : BarLevel) (id : Fin 16) (n : Cnt) (s : State) (h : Here), Quiet s h →
    let v := cntVal h.frame n
    let raises (s' : State) (i : Instr) : Prop := exec i s = .next (takeFault s' h h.tm (.plain 0x13 h.tm.pc h.tm.active 0) h.tm.pc)
    ((l = .die ∨ l = .pkg ∨ l = .pod) → h.ke.launch.coop = false →
        raises s (.barArrive sw l id n) ∧ raises s (.barWait sw l id n) ∧ raises s (.barSync sw l id n))
      ∧ ∀ (b : BarRef) (x : Bar), barRefOf h l id = some b → s.bar? b = some x →
        let u := h.tm.barUse b
        let live := liveMembers s b.unit
        let first : Prop := x.state = .idle ∧ arrivalPosted s b x.gen = false
        let members' := live + otherGangs s b.unit
        let ok : Prop := u.arr = false ∧ v.toNat ≤ members' ∧ x.state ≠ .faulted
          ∧ (¬first → x.state ≠ .complete → x.operand = some v)
        let refused : Prop := u.arr = true ∨ members' < v.toNat ∨ x.state = .faulted
          ∨ (x.state = .counting ∧ ∃ m, x.operand = some m ∧ m ≠ v)
        let target := if x.state = .idle then (if v = 0 then live else v.toNat) else x.target
        let members := x.members ++ [h.t]
        let full : Prop := (joined s b.unit = false ∨ v ≠ 0) ∧ target ≤ arrivals s b.unit members
        let counted (y : Bar) : Prop :=
          (full → l = .cohort → y = ⟨x.gen + 1, none, 0, .idle, []⟩)
            ∧ (full → l ≠ .cohort → y = ⟨x.gen, some v, target, .complete, members⟩)
            ∧ (¬full → y = ⟨x.gen, some v, target, .counting, members⟩)
        let left (t : State) : Prop := l ≠ .cohort →
          ∀ c y, t.cores[h.core]? = some c → y ∈ c.l1 → y.asid = h.asid → y.priv = false → y.clean = none
        let goes (i : Instr) (t : State) (arr : Bool) : Prop := exec i s = .next t ∧ ∃ tm, t.teams[h.t]? = some tm ∧ tm.pc = after h i
          ∧ tm.regs = h.tm.regs ∧ (tm.barUse b).arr = arr ∧ (arr = true → (tm.barUse b).g = x.gen) ∧ t.mem = s.mem
        let waits (i : Instr) : Prop :=
          ((x.state ≠ .faulted ∨ ∃ g, h.wake = some (.barrier b g)) → u.arr = true → x.gen ≠ u.g → ∃ t, goes i t false ∧ left t)
            ∧ (x.state ≠ .faulted → u.arr = true → x.gen = u.g →
              exec i s = .next { s with teams := s.teams.set h.t { h.tm with status := .blocked (.barrier b u.g) } })
            ∧ ((u.arr = false ∨ (x.state = .faulted ∧ (x.gen = u.g ∨ ∀ g, h.wake ≠ some (.barrier b g)))) → raises (faultBar s b) i)
        waits (.barWait sw l id n)
          ∧ (∀ g, h.wake = some (.barrier b g) → waits (.barSync sw l id n))
          ∧ ((∀ c g, h.wake ≠ some (.barrier c g)) → h.tm.posts = [] →
            (refused → raises (faultBar s b) (.barArrive sw l id n) ∧ raises (faultBar s b) (.barSync sw l id n))
              ∧ (ok → x.state = .complete →
                (∃ t, goes (.barArrive sw l id n) t true ∧ t.bar? b = some x)
                  ∧ ∃ t tm, exec (.barSync sw l id n) s = .next t ∧ t.teams[h.t]? = some tm
                    ∧ tm.status = .blocked (.barrier b x.gen) ∧ tm.pc = h.tm.pc ∧ t.bar? b = some x)
              ∧ (ok → (x.state = .idle ∨ x.state = .counting) →
                (∃ t y, goes (.barArrive sw l id n) t true ∧ t.bar? b = some y ∧ counted y)
                  ∧ (full → l = .cohort → ∃ t, goes (.barSync sw l id n) t false)
                  ∧ (¬(full ∧ l = .cohort) → ∃ t tm y, exec (.barSync sw l id n) s = .next t ∧ t.teams[h.t]? = some tm
                      ∧ tm.status = .blocked (.barrier b x.gen) ∧ tm.pc = h.tm.pc ∧ t.bar? b = some y ∧ counted y))))
    ∧ (∀ (s : State) (b : BarRef) (x : Bar), s.bar? b = some x →
        let i : Instr := .barrierGenerationComplete b
        let cs := (barCores s b.unit).eraseDups
        let pod : Prop := ∃ k, b.unit = .pod k
        let open_ (t : State) : Prop := pod ∧ ∃ c ∈ cs, t.forwardsFrom c.1 = true
        let d := cs.flatMap fun c => dirtyOf s c.1 fun y => y.asid == c.2
        ((x.state ≠ .complete ∧ othersMay s b x = false) ∨ open_ s → exec i s = .fault .notEnabled)
          ∧ ((x.state = .complete ∨ othersMay s b x = true) → ¬open_ s → ∃ t, exec i s = .next t
            ∧ (open_ t → t.bar? b = some x) ∧ (¬open_ t → t.bar? b = some ⟨x.gen + 1, none, 0, .idle, []⟩)
            ∧ (∀ c ∈ cs, ∀ k, t.cores[c.1]? = some k → ∀ y ∈ k.l1, y.asid = c.2 → y.dirty = [])
            ∧ (MemoryOk s → OneEach d → PlainAt s (d.map (·.1)) → Reached d s.mem t.mem)))

/-- Control registers (R147, R59, R315). `csrr` reads one into a uniform register, each its own value; `csrw` writes the RW registers,
leaves the read-only ones, and raises PRIV for TSLICE and RTMO; FLAGS and TRAPVEC are written by instructions of their own: FLAGS_CLEAR
clears the flags that have a one in its operand, and TRAPVEC takes its operand with bits 1:0 cleared. PASSES stands one above what was
written, since the instruction's own pass counts after its write (the model's reading: log 108). SPBANKC reads without the cycles of
passes that teams still owe (R151, R259), which the model has added at issue (log 100). -/
def Obligations.ControlRegisters : Prop :=
  ∀ (sw : Bool) (d : SReg) (a : USrc) (s : State) (h : Here), Quiet s h →
    let x := usrcVal h.frame a
    let bench {n : Nat} (g : Bench → BitVec n) : W64 := (((s.bench? h.core h.bench).map g).getD 0).setWidth 64
    let next (e : EngRef) : W64 := ((s.engine? e).map (·.next)).getD 0
    let held (r : Csr) : W64 := match r with
      | .mode => h.tm.mode.bits.setWidth 64 | .flags => h.tm.flags.setWidth 64 | .regions => h.tm.regions.setWidth 64
      | .repc => h.tm.repc | .rdepth => BitVec.ofNat 64 h.tm.rdepth | .trapvec => h.tm.trapvec
      | .stkdepth => BitVec.ofNat 64 h.tm.stack.length | .rescap => BitVec.ofNat 64 h.tm.rescap | .resstall => h.tm.resstall
      | .mprog => bench Bench.mprog | .mfill => bench Bench.mfill | .spbankc => h.co.spbankc - banksDue s h.tm.cohort | .cycle => s.cycle
      | .passes => h.tm.passes | .clears => h.tm.clears
      | .tslice => BitVec.ofNat 64 (((slotOfQueue s h.ke.ctx h.ke.queue).map fun y => y.2.tslice).getD s.cfg.tslice)
      | .rtmo => BitVec.ofNat 64 s.cfg.rtmo
      | .tlcopy n => s.tl (.copy h.core n.val) | .tlsift n => s.tl (.sift h.core n.val)
      | .tlmat => s.tl (.matrix h.core h.bench) | .tlsettle => s.tl (.settle h.core)
      | .nxcopy n => next (.copy h.core n.val) | .nxsift n => next (.sift h.core n.val)
      | .nxmat => bench Bench.nxmat | .nxsettle => next (.settle h.core)
    (∀ r, Did (.csrr sw d r) s h sw { h.tm with regs := h.tm.regs.uset d.val (held r) } (h.tm.pc + 4) 1)
      ∧ (∀ r, let i : Instr := .csrw sw a r
        ((r = .tslice ∨ r = .rtmo) → exec i s = .next (takeFault s h h.tm (.plain 0x02 h.tm.pc h.tm.active 0) h.tm.pc))
          ∧ (r ≠ .tslice → r ≠ .rtmo → r ≠ .flags → r ≠ .trapvec →
            ∃ t tm, exec i s = .next t ∧ t.teams[h.t]? = some tm ∧ GoesOn i h tm ∧ t.mem = s.mem
            ∧ tm.resstall = (if r = .resstall then x else h.tm.resstall) ∧ tm.clears = (if r = .clears then x else h.tm.clears)
            ∧ tm.passes = (if r = .passes then x else h.tm.passes) + 1
            ∧ (t.cohorts[h.tm.cohort]?).map Cohort.spbankc = some (if r = .spbankc then x + banksDue s h.tm.cohort else h.co.spbankc)
            ∧ (t.bench? h.core h.bench).map Bench.mfill
              = (s.bench? h.core h.bench).map fun (b : Bench) => if r = .mfill then x else b.mfill))
      ∧ Did (.flagsClear sw a) s h sw { h.tm with flags := h.tm.flags &&& ~~~(x.setWidth 7) } (after h (.flagsClear sw a)) 1
      ∧ Did (.trapvecWrite sw a) s h sw { h.tm with trapvec := x &&& ~~~3 } (after h (.trapvecWrite sw a)) 1

/-- Values that land, and residues that run (R155, R160, R161, R167). LOAD_LANDS delivers a ready access to the registers that wait
for it; RESIDUE_RUN performs a residue once its references are delivered, with its saved frame, its own PC and its own number, here of a
team that holds no other; neither moves the team's PC. The model's readings: flags are raised when the value lands (log 101), and
LOAD_LANDS of an access that is not ready is no step (log 91). -/
def Obligations.Landings : Prop :=
  (∀ (t : Nat) (s : State) (tm : Team) (a : InFlight) (lanes : RegKey → Mask), s.teams[t]? = some tm → tm.inflight = [a] →
    tm.residues = [] → tm.posts = [] → a.ready = true → a.nacked = [] → a.late = [] →
    tm.claims = a.dests.map (fun k => ⟨k, a.id, false, 0, lanes k⟩) → (∀ k ∈ a.writes.keys, k ∈ a.dests) → a.writes.x = [] →
    ∃ u, exec (.loadLands t a.id) s = .next u ∧ u.mem = s.mem
      ∧ u.teams[t]? = some { tm with
        inflight := [], claims := [], regs := tm.regs.apply a.writes, flags := tm.flags ||| a.writes.flags })
    ∧ (∀ (s : State) (t : Nat) (tm : Team) (id : Nat), s.teams[t]? = some tm → (∀ a ∈ tm.inflight, a.id = id → a.ready = false) →
        exec (.loadLands t id) s = .fault .noSuch ∨ exec (.loadLands t id) s = .fault .notEnabled)
    ∧ (∀ (t : Nat) (s : State) (h : Here) (r : Residue) (jf : Frame → Job) (w : Writes), here s t = some h → h.tm.residues = [r] →
        h.tm.inflight = [] → h.tm.posts = [] → jobOf r.instr = some jf → r.waits = [] →
        let j := jf r.frame
        j.badLanes r.frame r.frame.on = [] → j.late = false →
        j.run { h with tm := { h.tm with pc := r.frame.pc, nextId := r.id } } r.frame s = .done s w [] [] [] →
        ∃ u tm, exec (.residueRun t) s = .next u ∧ u.teams[t]? = some tm ∧ tm.residues = [] ∧ tm.pc = h.tm.pc
          ∧ tm.flags = h.tm.flags ||| w.flags ∧ tm.stack = h.tm.stack ∧ tm.mode = h.tm.mode
          ∧ tm.regs = h.tm.regs.apply (w.owned (h.tm.claims.filter fun c => c.id = r.id)) ∧ u.mem = s.mem)

/-! ## Queues and kernels (spec/17_kernel_lifecycle.md, spec/18_queue_lifecycle.md) -/

/-- Queues (R295 to R298). TAIL_WRITE stores TAIL; one more than RSIZE ahead of HEAD sets OVR and HALT; a queue that HALT holds is
DISABLED, without a slot, once no kernel of it is live; where records wait an IDLE queue becomes PENDING and a QUIET one ACTIVE, and
where none waits an ACTIVE queue whose kernels are all COMPLETE becomes QUIET. QUEUE_ENABLE makes a DISABLED queue IDLE unless HALT
holds it; its state record is where the context's queue table says, or, where the table is not mapped, where the create request put it
(the model's reading: log 11, DEDUCED); before READY it does nothing. SLOT_ASSIGNMENT gives the slot to
the PENDING queue that comes first; the queue that loses it becomes IDLE. A record is read in the state that the walks to it leave (R327;
log 103). That an assignment which cannot take place is no step is the model's reading (log 91). -/
def Obligations.QueueEvents : Prop :=
  ∀ (ctx qn : Nat) (s0 : State) (c : Ctx) (q : Queue), s0.queueCtx ctx qn = some (c, q) →
    let s := seeQueue s0 c q
    let live := kernelsOf s0 ctx qn Kernel.live
    let unfinished := kernelsOf s0 ctx qn fun k => k.state != .complete
    (∀ tail : W64,
      let s1 := (qput s c q 0x10 8 tail.toNat).order
      let beyond : Bool := decide (qget s1 c q 0x08 4 < qwaiting s1 c q)
      let s2 := if beyond then qflagSet (qflagSet s1 c q qflagOvr) c q qflagHalt else s1
      ∃ t q', exec (.tailWrite ctx qn tail) s0 = .next t ∧ t.queue? ctx qn = some q' ∧ t.kernels = s0.kernels ∧ t.mem = s2.mem
        ∧ q'.addr = q.addr
        ∧ q'.state = (if q.state = .disabled then .disabled
          else if qflag s2 c q qflagHalt = true then (if live = [] then .disabled else q.state)
          else if qwaiting s2 c q = 0 then (if q.state = .active ∧ unfinished = [] then .quiet else q.state)
          else if beyond = true then q.state
          else match q.state with
            | .idle => .pending
            | .quiet => .active
            | x => x)
        ∧ (q'.state = .disabled → q.state ≠ .disabled → ∀ x ∈ t.slots, x.queue ≠ some (ctx, qn))
        ∧ (q'.state ≠ .disabled → t.slots = s0.slots))
      ∧ (s0.boot ≠ .ready → exec (.queueEnable ctx qn) s0 = .next s0)
      ∧ (s0.boot = .ready →
        let e := seeEntry s0 c qn
        let q1 : Queue := match queueEntry e c qn with
          | some a => if a = 0 then q else { q with addr := a }
          | none => q
        let u := seeQueue e c q1
        ∃ t q', exec (.queueEnable ctx qn) s0 = .next t ∧ t.queue? ctx qn = some q' ∧ t.mem = (qflagSet u c q1 qflagEn).mem
        ∧ q'.addr = q1.addr
        ∧ q'.state = (if q.state = .disabled ∧ qflag u c q1 qflagHalt = false ∧ c.state ≠ .aborted ∧ c.state ≠ .destroyed then .idle
          else q.state))
      ∧ (∀ i, q.state = .pending → (∀ o ∈ s0.queues, o.state = .pending → queueBefore s0 o q = false) → slotFor s0 = some i →
        ∃ t q', exec (.slotAssignment ctx qn) s0 = .next t ∧ t.queue? ctx qn = some q' ∧ t.mem = s.mem ∧ q'.addr = q.addr
          ∧ q'.state = (if qflag s c q qflagHalt = true then (if live = [] then .disabled else .active)
            else if qwaiting s c q = 0 ∧ unfinished = [] then .quiet else .active)
          ∧ (q'.state ≠ .disabled → (∃ x, t.slots[i]? = some x ∧ x.queue = some (ctx, qn) ∧ x.tslice = s0.cfg.tslice ∧ x.runList = [])
            ∧ ∀ j, j ≠ i → t.slots[j]? = s0.slots[j]?)
          ∧ (∀ x o, s0.slots[i]? = some x → x.queue = some (o.ctx, o.num) → (o.ctx, o.num) ≠ (ctx, qn) →
            s0.queue? o.ctx o.num = some o → t.queue? o.ctx o.num = some { o with state := .idle }))
      ∧ (q.state ≠ .pending → exec (.slotAssignment ctx qn) s0 = .fault .notEnabled)

/-- Kernels (R284 to R291, R302). LAUNCH_RECORD reads the record at HEAD of an ACTIVE queue: a SEQ that has been accepted before is a
duplicate and launches nothing; otherwise a kernel is accepted, WAITING where the record meets no reason of R287 (said for a record
without lists), and REJECTED with reason 1 for fields outside their values, 2 for a shape that R262 refuses, 3 for a co-operative kernel
too large for the package, or 4 for a list that is misaligned. A WAITING kernel whose dependences are met is DISPATCHING, with a failed
one it ends as DEPFAULT. With its last gang placed and every gang done a kernel is DRAINING: of the context's dirty bytes in its cores
those of its out-regions reach their homes, and the others stay. It is COMPLETE once its write-backs are confirmed and the completion
ring has room. A record or a list is read in the state that the walks to it leave (R327; log 103). That an event whose cause has not
arisen is no step is the model's reading (log 91). The bytes that reach their homes are
none of a queue's state record or a context record that take a write otherwise (R5, R294, R318). -/
def Obligations.Kernels : Prop :=
  (∀ (ctx qn : Nat) (s : State) (c : Ctx) (q : Queue), s.queueCtx ctx qn = some (c, q) → q.state = .active →
    let s1 := seeQueue s c q
    qwaiting s1 c q ≠ 0 → qflag s1 c q qflagHalt = false →
    let at_ : W64 := BitVec.ofNat 64 (qget s1 c q 0 8 + qget s1 c q 0x18 8 % qget s1 c q 0x08 4 * 64)
    let s2 := devSee s1 c.ptroot.toNat at_ 64
    let x := natOf (devBytes s2 c at_ 64)
    let r := launchOf x
    let seq := recField x 0 8
    let fits : Prop := shapeOk r = true ∧ (r.coop = false ∨ coopFits r = true)
    ∃ t, exec (.launchRecord ctx qn) s = .next t
      ∧ (seq ≤ qget s2 c q 0x20 8 → t.kernels = s.kernels)
      ∧ (qget s2 c q 0x20 8 < seq → ∃ k, t.kernels = s.kernels ++ [k] ∧ k.ctx = ctx ∧ k.queue = qn ∧ k.launch = r ∧ k.placed = 0
        ∧ (recordFieldsOk x r = false → k.status = 1 ∧ k.code = 1)
        ∧ (recordFieldsOk x r = true → recField x 0x2F 1 = 0 → recField x 0x38 8 = 0 →
          (shapeOk r = false → k.status = 1 ∧ k.code = 2)
            ∧ (fits → k.state = .waiting)
            ∧ (shapeOk r = true → r.coop = true → coopFits r = false → k.status = 1 ∧ k.code = 3))
        ∧ (recordFieldsOk x r = true → fits →
          (recField x 0x2F 1 ≠ 0 ∧ recField x 0x30 8 % 16 ≠ 0 ∧ recField x 0x38 8 = 0
            ∨ recField x 0x2F 1 = 0 ∧ recField x 0x38 8 % 16 ≠ 0) → k.status = 1 ∧ k.code = 4)))
    ∧ (∀ (i : Nat) (s : State) (k : Kernel), s.kernels[i]? = some k →
      let s1 := seeEdges s k
      let ds := k.deps.map (depState s1 k.ctx)
      (k.state = .waiting → (∀ d ∈ ds, d = .met) → ∃ t, exec (.dependencesSatisfied i) s = .next t ∧ t.mem = s1.mem
          ∧ t.kernels[i]? = some { k with state := .dispatching, began := some s.podTime })
        ∧ (k.state = .waiting → DepState.failed ∈ ds → ∃ t k', exec (.dependencesSatisfied i) s = .next t
          ∧ t.kernels[i]? = some k' ∧ k'.status = 2 ∧ k'.code = 0 ∧ (k'.state = .complete ∨ k'.state = .draining))
        ∧ (k.state = .waiting → DepState.failed ∉ ds → DepState.open_ ∈ ds → exec (.dependencesSatisfied i) s = .fault .notEnabled)
        ∧ (k.state ≠ .waiting → exec (.dependencesSatisfied i) s = .fault .notEnabled)
        ∧ (∀ c, k.state = .running → k.placed = k.launch.gangs → (∀ g ∈ gangsOf s i fun _ => true, gangDone s g = true) →
          s.ctx? k.ctx = some c → ∃ t d, exec (.kernelDrain i) s = .next t
            ∧ t.kernels[i]? = some { k with state := .draining, drain := d } ∧ t.gangs = s.gangs
            ∧ ∀ a, c.asid = some a →
              let ps := outSpans s c k
              let out := k.cores.flatMap fun core => (dirtyOf s core fun x => x.asid == a).filter fun p => inSpans ps p.1
              (MemoryOk s → OneEach out → PlainAt s (out.map (·.1)) → Reached out s.mem t.mem)
                ∧ ∀ core ∈ k.cores, ∀ x y, s.cores[core]? = some x → t.cores[core]? = some y →
                  (∀ l ∈ y.l1, l.asid = a → ∀ p ∈ l.dirty, inSpans ps (l.line * 128 + p.1) = false)
                    ∧ ((x.l1.map (·.line)).Nodup → ∀ l ∈ x.l1, ∀ p ∈ l.dirty, ¬(l.asid = a ∧ inSpans ps (l.line * 128 + p.1) = true) →
                      ∃ l' ∈ y.l1, l'.line = l.line ∧ p ∈ l'.dirty))
        ∧ (∀ c q, k.state = .draining → (k.status = 0 → drained s k = true) → s.queueCtx k.ctx k.queue = some (c, q) →
          (qroom (seeQueue s c q) c q = true → ∃ t, exec (.kernelCompletion i) s = .next t ∧ t.kernels[i]? = some { k with state := .complete })
            ∧ (qroom (seeQueue s c q) c q = false → exec (.kernelCompletion i) s = .fault .notEnabled))
        ∧ (k.state = .draining → k.status = 0 → drained s k = false → exec (.kernelCompletion i) s = .fault .notEnabled))

/-! ## The scheduler (spec/15_group_lifecycle.md R260 to R271, spec/18_queue_lifecycle.md R299 to R301) -/

/-- Placement and restoration (R263 to R266, R270, R299). When a slot has its turn and its offer is not refused and fits at a place,
GANG_PLACEMENT adds the offer's gangs, the first with the next linear index on the cores of its quad and base, its teams RUNNING at
ENTRY with every lane live and every register as at launch, each of its cohorts with scratchpad, tiles, slots, rings, barriers,
completion queue and SPBANKC as R263 says; GANG_RESTORATION makes the captured gang resident at the place, with its
blocked teams BLOCKED as they were, those with a fault STOPPED and the others RUNNING, and takes it off the run list. A refusal of a
budget is recorded once. A time slice expires, a bucket is refilled up to its depth, less what its channel has served, a free amount
(log 15). The place is the event's operand, and the model searches places for the rest of a co-operative kernel (log 26); a slice may
expire at any step after a gang of its slot was placed, since there is no time in the model to count it by (log 85). -/
def Obligations.Placement : Prop :=
  (∀ (i quad base j : Nat) (s s1 : State) (k : Kernel) (x : Slot) (c : Ctx) (asid : Nat), s.kernels[i]? = some k →
    slotOfQueue s k.ctx k.queue = some (j, x) → offerOf s x = some (.place i) → s.ctx? k.ctx = some c → slotTurn s j x = true →
    let r := k.launch
    (∀ ps, offerRefused s (.place i) = none → offerPlaces s (.place i) (quad, base) = some ps → ensureAsid s c = some (s1, asid) →
      ∃ t k' ga gs, exec (.gangPlacement i quad base) s = .next t ∧ t.kernels[i]? = some k' ∧ k'.placed = k.placed + ps.length
        ∧ k'.state = .running ∧ k'.launch = k.launch ∧ t.gangs = s.gangs ++ ga :: gs ∧ gs.length + 1 = ps.length
        ∧ ga.kernel = i ∧ ga.index = BitVec.ofNat 64 k.placed ∧ ga.state = .resident ∧ ga.cores = coresAt quad base r.cores
        ∧ ga.teams.length = r.cores * r.teams
        ∧ (∀ j n, ga.teams[j]? = some n → ∃ tm, t.teams[n]? = some tm ∧ tm.pc = r.entry ∧ tm.status = .running
          ∧ tm.live = maskBelow r.lanes ∧ tm.active = maskBelow r.lanes ∧ tm.stack = [] ∧ tm.regs.uget 0 = r.args
          ∧ tm.regs.uget 1 = ga.index ∧ tm.regs.uget 2 = BitVec.ofNat 64 r.gangs ∧ tm.regs.uget 3 = BitVec.ofNat 64 j
          ∧ tm.regs.uget 4 = BitVec.ofNat 64 (r.cores * r.teams) ∧ (∀ u, 5 ≤ u → tm.regs.uget u = 0)
          ∧ (∀ v l, tm.regs.vget v l = 0) ∧ (∀ p, p ≠ 0 → tm.regs.pget p = 0) ∧ tm.mode = Mode.launch r.df)
        ∧ ga.cohorts.length = r.cores
        ∧ ∀ n ∈ ga.cohorts, ∃ co, t.cohorts[n]? = some co ∧ co.sp = [] ∧ co.tiles = [] ∧ (∀ x ∈ co.lats, x = none)
          ∧ (∀ x ∈ co.rings, x = none) ∧ co.ringq = [] ∧ co.bars = freshBars ∧ co.compq = [] ∧ co.spbankc = 0)
      ∧ (∀ b, offerRefused s (.place i) = some (some b) → c.refusal ≠ some b →
        exec (.gangPlacement i quad base) s = .next (s.setCtx { c with refusal := some b })))
    ∧ (∀ (g quad base j : Nat) (s s1 : State) (ga : Gang) (k : Kernel) (x : Slot) (c : Ctx) (asid : Nat) (ps : List (Nat × Nat)),
      s.gangs[g]? = some ga → s.kernels[ga.kernel]? = some k → slotOfQueue s k.ctx k.queue = some (j, x) →
      offerOf s x = some (.restore g) → s.ctx? k.ctx = some c → slotTurn s j x = true → offerRefused s (.restore g) = none →
      offerPlaces s (.restore g) (quad, base) = some ps → ensureAsid s c = some (s1, asid) →
      ∃ t ga' x', exec (.gangRestoration g quad base) s = .next t ∧ t.gangs[g]? = some ga' ∧ ga'.state = .resident ∧ ga'.quad = quad
        ∧ ga'.base = base ∧ ga'.cores = coresAt quad base ga.cores.length ∧ ga'.teams = ga.teams
        ∧ t.slots[j]? = some x' ∧ g ∉ x'.runList
        ∧ ∀ n ∈ ga.teams, ∀ tm w, s.teams[n]? = some tm → tm.status = .captured w →
          ∃ tm', t.teams[n]? = some tm' ∧ tm'.regs = tm.regs ∧ tm'.pc = tm.pc ∧ tm'.status = (match w with
            | some x => .blocked x
            | none => if tm.fault.isSome = true then .stopped else .running))
    ∧ (∀ (i : Nat) (s : State) (x : Slot), s.slots[i]? = some x → x.started = true → x.expired = false → x.queue.isSome = true →
      ∃ t, exec (.timeSliceExpiry i) s = .next t ∧ t.slots[i]? = some { x with expired := true }
        ∧ (∀ j, j ≠ i → t.slots[j]? = s.slots[j]?) ∧ t.gangs = s.gangs ∧ t.teams = s.teams)
    ∧ (∀ (ctx cls ch us : Nat) (s : State) (c : Ctx), s.ctx? ctx = some c → cls < 16 →
      ∃ t c', exec (.tokenBucketRefill ctx cls ch us) s = .next t ∧ t.ctx? ctx = some c' ∧ c'.budgets = c.budgets
        ∧ c'.tokens cls ch ≤ (c.budget cls).depth ∧ min (c.budget cls).depth ((c.budget cls).rate * us) ≤ c'.tokens cls ch
        ∧ c'.tokens cls ch ≤ c.tokens cls ch + (c.budget cls).rate * us
        ∧ ∀ k h, (k ≠ cls ∨ h ≠ ch) → c'.tokens k h = c.tokens k h)

/-- Capture (R269, R271): gangs of one kernel that are captured together, each with a pre-emption pending and its commands complete,
with every team where a capture may find it, become CAPTURED; each of their teams is saved or RETIRED; a team without an outstanding
access keeps its registers and PC; and the gangs stand on the run list of their slot. Where their cores hold no dirty byte of the
context, and no releaser tag is left that the walks to the save pool could clear (R327), memory changes only in the bytes that they have
reserved in the save pool, whose contents are free (log 82). -/
def Obligations.Capture : Prop :=
  ∀ (g i : Nat) (s : State) (ga : Gang) (k : Kernel) (c : Ctx) (asid : Nat) (x : Slot), s.gangs[g]? = some ga →
    s.kernels[ga.kernel]? = some k → s.ctx? k.ctx = some c → c.asid = some asid → slotOfQueue s k.ctx k.queue = some (i, x) →
    ga.state = .capturing →
    let gs := groupOf s g fun st => st == .capturing
    (∀ n ∈ gs, ∃ y, s.gangs[n]? = some y ∧ y.state = .capturing ∧ commandsOut s n y = false
      ∧ ∀ m ∈ y.teams, ∀ tm, s.teams[m]? = some tm → atPoint s m tm = true) →
    gangAlive s ga = true →
    ∃ t x', exec (.gangCapture g) s = .next t ∧ t.slots[i]? = some x' ∧ (∀ n ∈ gs, n ∈ x'.runList)
      ∧ (MemoryOk s → (∀ n ∈ gs, ∀ y, s.gangs[n]? = some y → ∀ core ∈ y.cores, ∀ z, s.cores[core]? = some z →
          ∀ l ∈ z.l1, l.asid = asid → l.dirty = []) → (∀ e ∈ s.tags, matchesPkg e none = true → e.cleared = true) →
        ∀ a, (∀ n ∈ gs, ∀ y, s.gangs[n]? = some y → a ∉ (saveBytes s c y).map (·.1)) → sget t.mem a = sget s.mem a)
      ∧ (∀ n ∈ gs, ∀ y, s.gangs[n]? = some y → (∃ bars, t.gangs[n]? = some { y with state := .captured, bars := bars })
        ∧ ∀ m ∈ y.teams, ∀ tm, s.teams[m]? = some tm → ∃ tm', t.teams[m]? = some tm'
          ∧ (tm.status ≠ .retired → ∃ w, tm'.status = .captured w)
          ∧ (tm.inflight = [] → tm'.regs = tm.regs ∧ tm'.pc = tm.pc))

/-! ## Contexts, debug and bring-up (spec/20_context_lifecycle.md, spec/25_debug_ras_boot.md, R48) -/

/-- Contexts (R318, R319, R323, R324). A create request that holds makes a CREATED context with its page-table root and key, and its
queues DISABLED. An abort makes the context ABORTED with its code, retires its gangs and teams, disables its queues, takes its commands
and unit instructions away (R323 halts them; that they leave their queues, whose timelines do not pass the first of them while other
contexts' commands go on, is the model's reading: log 68, DEDUCED), drops the dirty bytes of its ASID and ends every kernel that is not
COMPLETE with status 3 and the code. A destruction leaves the context DESTROYED, without ASID, key or queue, and no copy of an imported
line under its key. Before READY none of the three does anything. -/
def Obligations.Contexts : Prop :=
  (∀ (c : CtxInit) (s : State), (s.boot ≠ .ready → exec (.contextCreate c) s = .next s)
      ∧ (s.boot = .ready → createOk s c = true → ∃ t x, exec (.contextCreate c) s = .next t ∧ t.ctx? c.ctxid = some x
        ∧ x.state = .created ∧ x.ptroot = c.ptroot ∧ x.keyidx = c.keyidx ∧ x.asid = none ∧ x.halted = false
        ∧ x.budgets = c.budgets ∧ x.reserved = c.reserved ∧ x.qtable = c.qtable ∧ x.ftail = 0 ∧ x.saveused = 0
        ∧ (c.keyidx, c.key) ∈ t.keys
        ∧ ∀ q ∈ c.queues, ∃ y, t.queue? c.ctxid q.number = some y ∧ y.state = .disabled ∧ y.addr = q.addr))
    ∧ (∀ (ctx : Nat) (code : Byte) (s : State), s.boot ≠ .ready →
      exec (.contextAbort ctx code) s = .next s ∧ exec (.contextDestroy ctx) s = .next s)
    ∧ (∀ (ctx : Nat) (code : Byte) (s : State) (c : Ctx), s.boot = .ready → s.ctx? ctx = some c →
      ((c.state = .aborted ∨ c.state = .destroyed) → exec (.contextAbort ctx code) s = .next s)
        ∧ (c.state ≠ .aborted → c.state ≠ .destroyed → ∃ t c', exec (.contextAbort ctx code) s = .next t ∧ t.ctx? ctx = some c'
          ∧ c'.state = .aborted ∧ c'.acode = code
          ∧ (∀ (g : Nat) (ga : Gang), s.gangs[g]? = some ga → gangOfCtx s ctx ga = true → ∃ ga' : Gang, t.gangs[g]? = some ga' ∧ ga'.state = .retired
            ∧ ∀ n ∈ ga.teams, ∀ tm : Team, t.teams[n]? = some tm → tm.status = .retired)
          ∧ (∀ q ∈ t.queues, q.ctx = ctx → q.state = .disabled)
          ∧ (∀ (i : Nat) (k : Kernel), s.kernels[i]? = some k → k.ctx = ctx → k.state ≠ .complete →
            ∃ k' : Kernel, t.kernels[i]? = some k' ∧ k'.status = 3 ∧ k'.code = code)
          ∧ ctxCommands t ctx = false
          ∧ (∀ e g, s.engine? e = some g → ∃ g', t.engine? e = some g' ∧ g'.queue = g.queue.filter (fun x => x.origin.ctx != ctx)
            ∧ g'.tl = g.tl ∧ ∀ x, (g.queue.filter fun x => x.origin.ctx = ctx).head? = some x → t.neverTl e x.n = true)
          ∧ (∀ a, c.asid = some a → ∀ k ∈ t.cores, ∀ l ∈ k.l1, l.asid = a → l.dirty = [])
          ∧ (∀ x ∈ t.slots, ∀ q, x.queue = some (ctx, q) → False)))
    ∧ (∀ (ctx : Nat) (s : State) (c : Ctx), s.boot = .ready → s.ctx? ctx = some c →
      (c.state = .destroyed → exec (.contextDestroy ctx) s = .next s)
        ∧ ((c.state = .aborted ∨ c.state = .active
            ∨ ((c.state = .created ∨ c.state = .switched) ∧ (∀ k ∈ s.kernels, k.ctx = ctx → k.live = false) ∧ ctxCommands s ctx = false)) →
          ∃ t c', exec (.contextDestroy ctx) s = .next t ∧ t.ctx? ctx = some c' ∧ c'.state = .destroyed ∧ c'.asid = none
            ∧ (∀ k ∈ t.keys, k.1 ≠ c.keyidx) ∧ (∀ q ∈ t.queues, q.ctx ≠ ctx) ∧ (∀ p ∈ t.lineKey, p.2 ≠ c.keyidx)
            ∧ (∀ x ∈ t.dieCopies, x.key ≠ c.keyidx) ∧ ∀ x ∈ t.msc, x.key ≠ c.keyidx))

/-- Debug, errors and bring-up (R48, R355, R356, R358, R360 to R364). A comparator takes an address, the fields of a control word that
R355 allows, and the pod option, and stays as it is where the word is refused (the model's reading: log 74); a resume ends a halt of
every team of the context; a lane-cycle read clears its bench's counters (IDLE is read with a free number of clocks, log 5); a
self-test's result is logged, a lasting fault takes a spare, or else its unit is disabled, a home slice with the eviction of the lines
it holds (which lines those are is free, log 13); an uncorrectable error aborts the owning context with ECC, or resets the device, which
then keeps what the model itself needs (memory is as at power-on, log 4), and an access takes it only once nothing that it waits for is
unanswered (R121); what else a disabled line or way changes is nothing (log 97); an image is taken in LISTEN; a configuration record
signed by the owner makes the device READY with the fields that its signed bytes carry (their encoding is free, log 77), and is
answered; an attestation answers with the hashes and the bring-up state (numbered as log 14 says); before READY Chandler does none of
the first three; a word that is no instruction raises ILLEGAL for the active mask. What has no unit, context or comparator of its number
is no step (log 91). -/
def Obligations.DebugAndBringUp : Prop :=
  (∀ (ctx core bench i : Nat) (addr : W64) (ctl : CompCtl) (s : State), s.boot ≠ .ready →
    exec (.comparatorWrite ctx i addr ctl) s = .next s ∧ exec (.contextResume ctx) s = .next s
      ∧ exec (.laneCycleReadClear core bench) s = .next s)
    ∧ (∀ (ctx : Nat) (s : State) (c : Ctx), s.boot = .ready → s.ctx? ctx = some c →
    (∀ (i : Nat) (addr : W64) (ctl : CompCtl), i < 16 →
      (ctlOk ctl.word = true → ∃ t, exec (.comparatorWrite ctx i addr ctl) s = .next t
          ∧ t.ctx? ctx = some { c with comps := c.comps.set i ⟨addr, ctl.word &&& 0xF33, ctl.pod⟩ } ∧ t.teams = s.teams)
        ∧ (ctlOk ctl.word = false → exec (.comparatorWrite ctx i addr ctl) s = .next s))
      ∧ (∃ t, exec (.contextResume ctx) s = .next t ∧ t.ctx? ctx = some { c with halted := false }
        ∧ ∀ (n : Nat) (tm : Team), s.teams[n]? = some tm → t.teams[n]? = some
          (if tm.halted = true ∧ teamOfCtx s ctx tm = true then { tm with halted := false } else tm)))
    ∧ (∀ (core bench : Nat) (s : State) (b : Bench), s.boot = .ready → s.bench? core bench = some b →
      ∃ t idle, exec (.laneCycleReadClear core bench) s = .next t
        ∧ t.bench? core bench = some { b with counts := [], idle := 0 } ∧ t.svcQ = s.svcQ ++ [.counts core bench b.counts idle]
        ∧ t.teams = s.teams ∧ t.mem = s.mem)
    ∧ (∀ (u : UnitRef) (key : Option Nat) (use : Option EccUse) (pass : Bool) (dis : Disable) (s : State), unitOk u = false →
      exec (.errorSelfTest u key use pass dis) s = .fault .noSuch)
    ∧ (∀ (u : UnitRef) (key : Option Nat) (use : EccUse) (pass : Bool) (dis : Disable) (s : State), eccBack s use = false →
      unitOk u = true → exec (.errorSelfTest u key (some use) pass dis) s = .fault .notEnabled)
    ∧ (∀ (u : UnitRef) (use : Option EccUse) (pass : Bool) (dis : Disable) (s : State), unitOk u = true →
      (∀ x, use = some x → eccBack s x = true) →
      (pass = true → exec (.errorSelfTest u none use pass dis) s = .next { s with svcQ := s.svcQ ++ [.test u false false none] })
        ∧ (pass = false → ∃ t, exec (.errorSelfTest u none use pass dis) s = .next t
          ∧ (s.replaced.length < Config.spares → t = { s with
              replaced := s.replaced ++ [u], svcQ := s.svcQ ++ [.test u true true none] })
          ∧ (Config.spares ≤ s.replaced.length → t.disabled = s.disabled ++ [(u, dis)]
            ∧ t.svcQ = s.svcQ ++ [.test u true false (some dis)]
            ∧ (∀ slice n, u = .line slice n → dis = .slice → ∀ g ∈ t.tags, (Config.homeSlice g.line).val ≠ slice)
            ∧ ((∀ slice n, ¬(u = .line slice n ∧ dis = .slice)) → t = { s with
                disabled := s.disabled ++ [(u, dis)], svcQ := s.svcQ ++ [.test u true false (some dis)] })))
        ∧ (∃ t, exec (.errorSelfTest u (some 0) use pass dis) s = .next t ∧ t.boot = .rom ∧ t.ctxs = [] ∧ t.mem = [])
        ∧ (∀ key c, key ≠ 0 → ctxOfKey s key = some c → s.ctx? c.id = some c → c.state ≠ .aborted →
          ∃ t c', exec (.errorSelfTest u (some key) none pass dis) s = .next t ∧ t.ctx? c.id = some c' ∧ c'.state = .aborted
            ∧ c'.acode = 0x09))
    ∧ (∀ (image record signature : List Byte) (nonce : W64) (s : State),
      let c := Config.readConfig record
      let accepted : Prop := s.boot = .firmware ∧ Config.ownerSigned s.image record signature = true ∧ configOk c = true
      (s.boot = .listen → exec (.firmwareImage image) s = .next { s with boot := .verify, image := image })
        ∧ (s.boot ≠ .listen → exec (.firmwareImage image) s = .next s)
        ∧ (∃ t, exec (.configurationRecord record signature) s = .next t
          ∧ (accepted → t.boot = .ready ∧ t.cfg = c ∧ t.cfgHash = some (Config.hash record) ∧ t.ueOut = s.ueOut ++ [.config true]
            ∧ (∀ x ∈ t.slots, x.tslice = c.tslice) ∧ (∀ n ∈ t.hthresh, n = BitVec.ofNat 16 c.hthresh) ∧ t.mem = s.mem ∧ t.teams = s.teams)
          ∧ (¬accepted → t = { s with ueOut := s.ueOut ++ [.config false] }))
        ∧ (∃ sig, exec (.attestationRequest nonce) s = .next { s with ueOut := s.ueOut ++
            [.attest nonce Config.romHash (s.fwHash.getD 0) (s.cfgHash.getD 0) s.boot.code sig] }))
    ∧ (∀ (w : W32) (s : State) (h : Here), issuing s = some h →
      exec (.illegalInstruction w) s = .next (takeFault s h h.tm (.plain 0x01 h.tm.pc h.tm.active 0) h.tm.pc))

/-! ## Pages (spec/22_page_lifecycle.md, R310, R338, R349 to R351) -/

/-- Chandler's work on pages (R310, R335 to R338, R350). A PAGE is held while its page migrates, met by a frame at an address that the
context has reserved, which is written with its contents and whose entry is written, and reported otherwise, as a PROT is; a team whose
PAGE is resolved goes on at REPC, and an inbound request whose deadline has passed is refused. PTE_CHANGE writes an entry and no TLB
keeps what it said; where it takes something away, no L1, constant cache or instruction cache keeps a line of the page, and there, as
where MIG is set, the dirty bytes of the page reach their homes; the change of a live entry waits until no access translated before is
open. PAGE_MIGRATION leaves the frame's bytes, the dirty ones over those at home, at the new place and the new entry; said where no
releaser tag of the frame needs a clearing. EXPORT_GRANT writes an ingress entry that is neither valid nor being revoked, and every HBM
or LPDDR page of its window is EXPORTED; EXPORT_REVOKE makes it invalid, sends the invalidations, and leaves EXP until the dies that
hold copies have acknowledged. Bytes that reach their homes are none of a queue's state record or a context record that take a write
otherwise (R5, R294, R318). That Chandler does nothing where its step cannot take place is the model's reading (log 91), that a migration
is one step is another (log 25), and that it gives no context a frame of another, or a page to migrate a frame that is mapped already, a
third (log 113). -/
def Obligations.PageWork : Prop :=
  (∀ (p : FaultParty) (s : State) (ctx : Nat) (f : FaultInfo) (c : Ctx), s.boot = .ready → partyFault s p = some (ctx, f) →
    s.ctx? ctx = some c →
    let root := c.ptroot.toNat
    let va := faultVa f
    (f.code = 0x05 → migrating s root va = true → exec (.chandlerFaultService p .hold) s = .next s)
      ∧ (¬(f.code = 0x05 ∧ migrating s root va = true) → exec (.chandlerFaultService p .hold) s = .fault .notEnabled)
      ∧ (let reported : Prop := f.code = 0x05 → c.hasReserved va = false ∧ migrating s root va = false ∧ resolved s root f = false
        (∀ n tm, reported → p = .team n → s.teams[n]? = some tm → tm.status = .blocked .chandler → ∃ t tm',
          exec (.chandlerFaultService p .report) s = .next t ∧ t.teams[n]? = some tm' ∧ tm'.status = .stopped ∧ tm'.fault = tm.fault
            ∧ tm'.pc = tm.pc ∧ tm'.regs = tm.regs)
          ∧ (¬reported → exec (.chandlerFaultService p .report) s = .fault .notEnabled))
      ∧ (∀ (pte : W64) (fill : List Byte) (home : Nat), MemoryOk s → f.code = 0x05 → c.hasReserved va = true →
        let e := pte.toNat
        entryHome s root va (if pteBit e 4 then 1 else 2) = some home → pteBit (readNat s.mem home 8) 0 = false →
        (pageState e = some .hbm ∨ pageState e = some .lpddr) → leafOk s e (pteBit e 4) = true →
        frameFree s c (ptePage e) (leafSize (pteBit e 4)) = true →
        ∃ t, exec (.chandlerFaultService p (.map pte fill)) s = .next t ∧ readNat t.mem home 8 = e
          ∧ ∀ j, j < leafSize (pteBit e 4) → (ptePage e + j < home ∨ home + 8 ≤ ptePage e + j) →
            sget t.mem (ptePage e + j) = fill.getD j 0)
      ∧ (∀ (pte : W64) (fill : List Byte), (f.code ≠ 0x05 ∨ c.hasReserved va = false) →
        exec (.chandlerFaultService p (.map pte fill)) s = .fault .notEnabled)
      ∧ (∀ n tm, p = .team n → s.teams[n]? = some tm → tm.status = .blocked .chandler → resolved s root f = true →
        tm.rmask &&& tm.live ≠ 0 → ∃ t tm', exec (.chandlerResumption p) s = .next t ∧ t.teams[n]? = some tm'
          ∧ tm'.pc = tm.repc ∧ tm'.active = tm.rmask &&& tm.live ∧ tm'.status = .running ∧ tm'.fault = none ∧ tm'.regs = tm.regs
          ∧ tm'.stack = tm.stack.drop (tm.stack.length - tm.rdepth))
      ∧ (∀ n x, p = .inbound n → s.inbound[n]? = some x → resolved s root f = true → x.req.deadline < s.podTime →
        exec (.chandlerResumption p) s = .next { s with
          inbound := s.inbound.eraseIdx n
          svcQ := s.svcQ ++ [.fabric x.arrived x.req.src x.req.index x.req.off x.req.tag 6]
          spanOut := s.spanOut ++ [.nack x.req.src x.req.tag] })
      ∧ (resolved s root f = false → exec (.chandlerResumption p) s = .fault .notEnabled))
    ∧ (∀ (ctx : Nat) (va pte : W64) (level : Fin 3) (s : State) (c : Ctx) (home : Nat) (a b : PageState), MemoryOk s → s.boot = .ready →
      s.ctx? ctx = some c → entryHome s c.ptroot.toNat va level.val = some home →
      let old := readNat s.mem home 8
      let new := pte.toNat
      let large : Bool := level.val = 1
      let src := ptePage old
      let n := leafSize large
      (level.val = 2 ∨ (level.val = 1 ∧ (pteBit old 4 = true ∨ pteBit old 0 = false) ∧ (pteBit new 4 = true ∨ pteBit new 0 = false))) →
      pageState old = some a → pageState new = some b → pageMove s a b = true → (b = .absent ∨ leafOk s new large = true) →
      (a = .absent ∨ b = .absent ∨ src = ptePage new) → (a = .absent ∨ pageQuiet s src n = true) →
      (a ≠ .absent ∨ b = .absent ∨ b = .imported ∨ frameFree s c (ptePage new) n = true) →
      ∃ t, exec (.pteChange ctx va level pte none) s = .next t ∧ (∀ es ∈ t.tlbs, ∀ e ∈ es, e.home ≠ home)
        ∧ (takesAway old new = false → setsMig old new = false → readNat t.mem home 8 = new)
        ∧ (takesAway old new = true → ∀ k ∈ t.cores, (∀ y ∈ k.l1, lineIn src n y.line = false)
          ∧ (∀ y ∈ k.ccache, lineIn src n y.line = false) ∧ ∀ y ∈ k.icache, lineIn src n y.line = false)
        ∧ (takesAway old new = true ∨ setsMig old new = true →
          let d := (List.range s.cores.length).flatMap fun core => dirtyOf s core fun x => lineIn src n x.line
          OneEach d → PlainAt s ((List.range 8).map (home + ·) ++ d.map (·.1)) →
          Reached d (ssetAll s.mem (atAddrs home (bytesOf 8 new))) t.mem))
    ∧ (∀ (ctx : Nat) (va pte : W64) (level : Fin 3) (s : State) (c : Ctx) (home : Nat), s.boot = .ready → s.ctx? ctx = some c →
      entryHome s c.ptroot.toNat va level.val = some home → level.val = 2 → pteBit (readNat s.mem home 8) 0 = true →
      pageQuiet s (ptePage (readNat s.mem home 8)) (leafSize false) = false →
      exec (.pteChange ctx va level pte none) s = .fault .notEnabled)
    ∧ (∀ (ctx : Nat) (va pte : W64) (s : State) (c : Ctx) (l : Leaf), MemoryOk s → s.boot = .ready → s.ctx? ctx = some c →
      walk s c.ptroot.toNat va = .ok l →
      let large : Bool := l.pages != 1
      let n := leafSize large
      let src := ptePage l.pte
      let dst := ptePage pte.toNat
      (∃ p, pageState l.pte = some p ∧ (p = .hbm ∨ p = .lpddr ∨ p = .migrating)) →
      (∃ p, pageState pte.toNat = some p ∧ (p = .hbm ∨ p = .lpddr)) → leafOk s pte.toNat large = true →
      (src + n ≤ dst ∨ dst + n ≤ src) → frameFree s c dst n = true →
      (∀ y ∈ mappedFrames s c.ptroot.toNat, overlaps (dst, n) y = false) →
      ∃ t, exec (.pageMigration ctx va pte) s = .next t ∧ readNat t.mem l.home 8 = pte.toNat
        ∧ (∀ es ∈ t.tlbs, ∀ e ∈ es, e.home ≠ l.home)
        ∧ (let d := (List.range s.cores.length).flatMap fun core => dirtyOf s core fun x => lineIn src n x.line
          OneEach d → PlainAt s (d.map (·.1)) → (∀ g ∈ s.tags, lineIn src n g.line = true → g.cleared = true) →
          ∀ j, j < n → (dst + j < l.home ∨ l.home + 8 ≤ dst + j) → sget t.mem (dst + j) = byteOver d s.mem (src + j)))
    ∧ (∀ (n : BitVec 12) (x : Ingress) (s : State) (c : Ctx), s.boot = .ready → s.ctx? x.ctx.toNat = some c →
      let free : Prop := n ∉ s.revoking ∧ ∀ e ∈ s.ingress, e.1 = n.toNat → e.2.v = false
      (x.v = true → free →
        (∀ va ∈ windowPages x, ∀ y, leafAt s c.ptroot.toNat va = some y → y.2 ≠ .migrating ∧ y.2 ≠ .imported) →
        ∃ t, exec (.exportGrant n x) s = .next t ∧ t.ingress.find? (fun e => e.1 = n.toNat) = some (n.toNat, x)
          ∧ (MemoryOk s → ∀ va ∈ windowPages x, ∀ l q, leafAt s c.ptroot.toNat va = some (l, q) → (q = .hbm ∨ q = .lpddr) →
            pteBit (readNat t.mem l.home 8) 12 = true))
        ∧ (¬free → exec (.exportGrant n x) s = .fault .notEnabled))
    ∧ (∀ (n : BitVec 12) (x : Ingress) (s : State), s.boot = .ready → s.ingress.find? (fun e => e.1 = n.toNat) = some (n.toNat, x) →
      (x.v = true → ∃ t, exec (.exportRevoke n) s = .next t ∧ (∀ e ∈ t.ingress, e.1 = n.toNat → e.2.v = false)
          ∧ t.gangs = s.gangs
          ∧ ∀ c, s.ctx? x.ctx.toNat = some c →
            let pages := (windowLeaves s c.ptroot.toNat x).map fun y => (leafPa y.2.1 y.1) / 65536
            (∀ d ∈ s.directory, d.page ∈ pages → d.ovf = false → ∀ y ∈ d.dies, SpanPkt.invalidate y d.page ∈ t.spanOut)
              ∧ ((∃ d ∈ s.directory, d.page ∈ pages ∧ (d.dies ≠ [] ∨ d.ovf = true)) → t.mem = s.mem ∧ n ∈ t.revoking)
              ∧ ((∀ d ∈ s.directory, d.page ∈ pages → d.dies = [] ∧ d.ovf = false ∧ d.owed = [] ∧ d.all = false) → n ∉ t.revoking))
        ∧ (x.v = false → exec (.exportRevoke n) s = .fault .notEnabled))
    ∧ (∀ (p : FaultParty) (act : FaultAct) (ctx : Nat) (va pte : W64) (level : Fin 3) (eg : Option (BitVec 12 × Egress)) (n : BitVec 12)
      (x : Ingress) (s : State), s.boot ≠ .ready →
      exec (.chandlerFaultService p act) s = .next s ∧ exec (.chandlerResumption p) s = .next s
        ∧ exec (.pteChange ctx va level pte eg) s = .next s ∧ exec (.pageMigration ctx va pte) s = .next s
        ∧ exec (.exportGrant n x) s = .next s ∧ exec (.exportRevoke n) s = .next s)

/-- The memory system on its own (R339 to R342). A rotation moves the current filter of a base die's cache to its previous one and
clears it; a refresh of a held row lets time pass and changes nothing else; Chandler clears a hotness entry; a die that is told to
invalidate an imported page drops its copies of what is not its own writing, lets no answer to a request sent before install one, keeps
what it has written, and answers; before READY it does nothing (R363). An event of a cache or a die that there is not is no step (log
91). -/
def Obligations.MemorySystem : Prop :=
  (∀ (slice : Nat) (s : State), (slice < 8 → ∃ t, exec (.bloomFilterRotation slice) s = .next t ∧ t.mem = s.mem ∧ t.teams = s.teams
      ∧ t.bloom = s.bloom.map fun b => if b.slice = slice then { b with cur := [], prev := b.cur } else b)
      ∧ (8 ≤ slice → exec (.bloomFilterRotation slice) s = .fault .noSuch))
    ∧ (∀ (ch : Nat) (s : State), ∃ t, exec (.heldRowRefresh ch) s = .next t
      ∧ t = { s with cycle := t.cycle, podTime := t.podTime, tick := s.tick + 1 })
    ∧ (∀ (die block src : Nat) (s : State), (s.boot = .ready → ∃ t, exec (.hotnessEntryClear die block src) s = .next t
      ∧ (∀ e, e ∈ t.hot ↔ e ∈ s.hot ∧ ¬(e.die = die ∧ e.block = block ∧ e.src = src)) ∧ t.mem = s.mem)
      ∧ (s.boot ≠ .ready → exec (.hotnessEntryClear die block src) s = .next s))
    ∧ (∀ (die page : Nat) (s : State),
      (die < 4 → s.boot ≠ .ready → exec (.importedCopyInvalidation die page) s = .next s)
        ∧ (die < 4 → s.boot = .ready → ∃ t, exec (.importedCopyInvalidation die page) s = .next t ∧ t.mem = s.mem ∧ t.spanOut = s.spanOut ++ [.ack die page]
          ∧ (∀ c ∈ t.dieCopies, c.die = die → c.line / 512 = page → c.full = none)
          ∧ (∀ c ∈ s.dieCopies, c.written ≠ [] → ∃ c' ∈ t.dieCopies, c'.die = c.die ∧ c'.line = c.line ∧ c'.written = c.written)
          ∧ (∀ r ∈ t.reqs, dieOf r.core = die → lineOf r.pa / 512 = page → r.fill = false)
          ∧ (∀ i k, i < 32 → t.cores[die * 32 + i]? = some k → ∀ y ∈ k.l1, y.line / 512 = page → y.clean = none))
        ∧ (4 ≤ die → exec (.importedCopyInvalidation die page) s = .fault .noSuch))

/-! ## Links (spec/24_link_lifecycle.md) -/

/-- RMA and Chandler's requests (R346, R347). An access that the registered regions do not allow is answered by an error and recorded,
and one of a destroyed context, which has no page table (R324), by an error; a read answers with the bytes at home, a write leaves its
bytes there and is answered; every other byte is as the walks left it (R327). A request with a new number is performed, its answer sent,
and number and answer kept; a stored answer is sent again, an older number is answered DUPLICATE; a request that failed its transport
check is answered by an error; before READY only an attestation is answered (R363). The numbers of the statuses are the model's (log
14), and so is the error where a page of an RMA range is not mapped in local memory (log 11). The bytes of a write are none of a queue's
state record or a context record that take a write otherwise (R5, R294, R318). -/
def Obligations.Ethernet : Prop :=
  (∀ (sess : Nat) (flow : RmaFlow) (ctx : Nat) (va : W64) (tss : Bool) (s : State),
    (s.boot ≠ .ready → ∀ bytes len, exec (.rmaWrite sess flow ctx va bytes tss) s = .next s
        ∧ exec (.rmaRead sess flow ctx va len tss) s = .next s)
      ∧ (s.boot = .ready →
        (∀ bytes why, rmaReason s ctx va bytes.length true tss = some why → exec (.rmaWrite sess flow ctx va bytes tss) s = .next
            { s with ueOut := s.ueOut ++ [.error sess], svcQ := s.svcQ ++ [.rma s.podTime flow.src flow.label ctx va bytes.length why] })
          ∧ (∀ bytes c s1 l, rmaReason s ctx va bytes.length true tss = none → s.ctx? ctx = some c → c.state ≠ .destroyed →
            rmaPlaces s c va bytes.length = (s1, some l) →
            ∃ t, exec (.rmaWrite sess flow ctx va bytes tss) s = .next t ∧ t.ueOut = s1.ueOut ++ [.done sess]
              ∧ (MemoryOk s → PlainAt s1 l → l.Nodup →
                (∀ p ∈ l.zip bytes, sget t.mem p.1 = p.2) ∧ ∀ a, a ∉ l → sget t.mem a = sget s1.mem a))
          ∧ (∀ bytes c s1, rmaReason s ctx va bytes.length true tss = none → s.ctx? ctx = some c → c.state ≠ .destroyed →
            rmaPlaces s c va bytes.length = (s1, none) →
            exec (.rmaWrite sess flow ctx va bytes tss) s = .next { s1 with ueOut := s1.ueOut ++ [.error sess] })
          ∧ (∀ len why, rmaReason s ctx va len false tss = some why → exec (.rmaRead sess flow ctx va len tss) s = .next
            { s with ueOut := s.ueOut ++ [.error sess], svcQ := s.svcQ ++ [.rma s.podTime flow.src flow.label ctx va len why] })
          ∧ (∀ len c s1 l, rmaReason s ctx va len false tss = none → s.ctx? ctx = some c → c.state ≠ .destroyed →
            rmaPlaces s c va len = (s1, some l) →
            ∃ t, exec (.rmaRead sess flow ctx va len tss) s = .next t ∧ t.mem = s1.mem
              ∧ t.ueOut = s1.ueOut ++ [.data sess (l.map fun pa => sget s1.mem pa)])
          ∧ (∀ len c s1, rmaReason s ctx va len false tss = none → s.ctx? ctx = some c → c.state ≠ .destroyed →
            rmaPlaces s c va len = (s1, none) →
            exec (.rmaRead sess flow ctx va len tss) s = .next { s1 with ueOut := s1.ueOut ++ [.error sess] })
          ∧ (∀ c, s.ctx? ctx = some c → c.state = .destroyed →
            (∀ bytes, rmaReason s ctx va bytes.length true tss = none →
              exec (.rmaWrite sess flow ctx va bytes tss) s = .next { s with ueOut := s.ueOut ++ [.error sess] })
            ∧ ∀ len, rmaReason s ctx va len false tss = none →
              exec (.rmaRead sess flow ctx va len tss) s = .next { s with ueOut := s.ueOut ++ [.error sess] })))
    ∧ (∀ (sess : Nat) (rseq : W64) (msg : ChMsg) (s : State),
      let x := sessionOf s sess
      let i : Instr := .chandlerRequest sess rseq msg
      let heard : Prop := s.boot = .ready ∨ ∃ n, msg.req = .attest n
      (¬heard → exec i s = .next s)
        ∧ (heard → msg.tss = false → exec i s = .next { s with ueOut := s.ueOut ++ [.error sess] })
        ∧ (heard → msg.tss = true →
          (x.last < rseq →
              let r := chPerform s x msg.req
              ∃ t, exec i s = .next t ∧ (sessionOf t sess).last = rseq ∧ (sessionOf t sess).answers.head? = some (rseq, r.2.1, r.2.2)
                ∧ t.mem = r.1.mem ∧ t.teams = r.1.teams ∧ t.ctxs = r.1.ctxs
                ∧ t.ueOut = r.1.ueOut ++ [.answer sess rseq r.2.1 r.2.2])
            ∧ (¬ x.last < rseq → (∀ a, x.answers.find? (fun a => a.1 = rseq) = some a →
                exec i s = .next { s with ueOut := s.ueOut ++ [.answer sess rseq a.2.1 a.2.2] })
              ∧ (x.answers.find? (fun a => a.1 = rseq) = none →
                exec i s = .next { s with ueOut := s.ueOut ++ [.answer sess rseq 2 []] }))))

/-- Span (R348, R351, R352, R365). A flit in sequence whose CRC holds adds its payload to its port's stream (said of one that completes
no packet); every other one is replayed. A request that a check of R351 refuses is recorded and, unless it is stale, answered with a
NACK; one whose translation faults is held, with the address that failed and the time of its arrival; a read answers with the bytes at
home, a write that does not synchronise leaves its bytes there; before READY none is answered (R363). The answer to a request, its
refusal or its deadline ends it, and the access that sent it goes on or has failed; an answer or a refusal after the deadline is
dropped; a plain store of which a forwarded write has failed takes no fault while others of it are open, since it takes one fault when
the last has ended: the model's reading (log 72, DEDUCED). The CRC, and which packet a stream begins with, are free (log 14); the event
of a deadline that is not there is no step (log 91). The bytes of a write are none of a queue's state record or a context record that
take a write otherwise (R5, R294, R318). -/
def Obligations.Span : Prop :=
  (∀ (p : Fin 16) (f : Flit) (s : State) (x : Port), s.spanPorts[p.val]? = some x →
    (x.state = .up ∨ x.state = .degraded ∨ x.state = .draining) → f.payload.length = 60 →
    let good : Prop := Config.crc16 (f.payload ++ bytesOf 2 (f.fseq.toNat * 16 + f.vc.val)) = f.crc ∧ f.fseq = x.rxSeq
    let y : Port := { x with rxSeq := x.rxSeq + 1, received := x.received ++ f.payload }
    ∃ t, exec (.flitReceived p f) s = .next t
      ∧ (¬good → t = { s with spanPorts := s.spanPorts.set p.val { x with replays := x.replays + 1 } })
      ∧ (good → Config.readPacket y.received = none → t = { s with spanPorts := s.spanPorts.set p.val y }))
    ∧ (∀ (r : SpanReq) (s : State),
      let e := (s.ingress.find? fun x => x.1 = r.index.toNat).map (·.2)
      let i : Instr := .spanRequest r
      (s.boot ≠ .ready → exec i s = .next s)
      ∧ (s.boot = .ready → ∀ why, spanReason s r e = some why → exec i s = .next { s with
          svcQ := s.svcQ ++ [.fabric s.podTime r.src r.index r.off r.tag why]
          spanOut := if why = 7 then s.spanOut else s.spanOut ++ [.nack r.src r.tag] })
        ∧ (∀ x c, s.boot = .ready → spanReason s r e = none → e = some x → s.ctx? x.ctx.toNat = some c → c.state ≠ .destroyed →
          let at_ (o : BitVec 29) : W64 := BitVec.ofNat 64 (x.base.toNat * 65536 + o.toNat)
          let va := at_ r.off
          let vb := match r.op with
            | .settle _ _ o => at_ o
            | _ => va
          (∀ s1 y, spanXlat s c.ptroot.toNat va (opNeed r.op) = (s1, .error y) →
              exec i s = .next { s1 with inbound := s1.inbound ++ [⟨r, y.code, va, s.podTime⟩] })
            ∧ (∀ s1 s2 pa y, spanXlat s c.ptroot.toNat va (opNeed r.op) = (s1, .ok pa) →
              spanXlat s1 c.ptroot.toNat vb (opNeed r.op) = (s2, .error y) →
              exec i s = .next { s2 with inbound := s2.inbound ++ [⟨r, y.code, vb, s.podTime⟩] })
            ∧ (∀ s1 s2 pa pb, spanXlat s c.ptroot.toNat va (opNeed r.op) = (s1, .ok pa) →
              spanXlat s1 c.ptroot.toNat vb (opNeed r.op) = (s2, .ok pb) →
              (∃ t out bytes, exec i s = .next t ∧ t.spanOut = out ++ [.response r.src r.tag bytes])
                ∧ (∀ n, r.op = .read n → ∃ t, exec i s = .next t ∧ t.mem = s2.mem
                  ∧ t.spanOut = s2.spanOut ++ [.response r.src r.tag (readBytes s2.mem pa n)])
                ∧ (∀ bs, r.op = .write bs → MemoryOk s → PlainAt s2 ((List.range bs.length).map (pa + ·)) → r.sync = false →
                  ∃ t out, exec i s = .next t
                  ∧ t.spanOut = out ++ [.response r.src r.tag []] ∧ (∀ j, j < bs.length → sget t.mem (pa + j) = bs.getD j 0)
                  ∧ ∀ a, (a < pa ∨ pa + bs.length ≤ a) → sget t.mem a = sget s2.mem a))))
    ∧ (∀ (tag : BitVec 16) (bytes : List Byte) (s : State),
      let answer : Instr := .spanResponse tag bytes
      let nack : Instr := .nackReceived tag
      let late : Instr := .requestDeadline tag
      (reqOf s tag = none → exec answer s = .next s ∧ exec nack s = .next s ∧ exec late s = .fault .noSuch)
        ∧ (∀ r, reqOf s tag = some r →
          (∃ t, exec answer s = .next t) ∧ (∃ t, exec nack s = .next t)
            ∧ (r.deadline < s.podTime → exec answer s = .next s ∧ exec nack s = .next s)
            ∧ (r.deadline ≤ s.podTime → ∃ t, exec late s = .next t)
            ∧ (¬ r.deadline ≤ s.podTime → exec late s = .fault .notEnabled)
            ∧ (∀ n id tm a, r.owner = .team n id → r.forward = 0 → r.elem = 0 → s.teams[n]? = some tm → tm.inflight = [a] → a.id = id →
              a.nacked = [] → a.late = [] → a.seen = none →
              (acquiring a.instr = false → ¬ r.deadline < s.podTime → ∃ t, exec answer s = .next t
                  ∧ t.teams[n]? = some { tm with inflight := [a.answer r.tag bytes] } ∧ t.mem = s.mem)
                ∧ ((∃ g ∈ a.need, g ≠ r.tag) →
                  let left := a.need.filter fun g => g != r.tag
                  (¬ r.deadline < s.podTime → ∃ t, exec nack s = .next t ∧ t.teams[n]? = some { tm with
                      inflight := [{ a with need := left, nacked := [(r.tag, r.lanes, r.va)] }] })
                    ∧ (r.deadline ≤ s.podTime → ∃ t, exec late s = .next t ∧ t.teams[n]? = some { tm with
                      inflight := [{ a with need := left, late := [(r.tag, r.lanes, r.va)] }] })))
            ∧ (∀ n tick pc tm, r.owner = .forward n tick pc → r.forward ≠ 0 → s.teams[n]? = some tm →
              (∃ q ∈ s.reqs, q.tag ≠ r.tag ∧ q.owner = .forward n tick pc) →
              (¬ r.deadline < s.podTime → (∃ t, exec answer s = .next t ∧ t.teams[n]? = some tm)
                  ∧ ∃ t, exec nack s = .next t ∧ t.teams[n]? = some { tm with lost := tm.lost ++ [⟨pc, tick, r.tag, true, r.lanes, r.va⟩] })
                ∧ (r.deadline ≤ s.podTime → ∃ t, exec late s = .next t
                  ∧ t.teams[n]? = some { tm with lost := tm.lost ++ [⟨pc, tick, r.tag, false, r.lanes, r.va⟩] }))))

/-- The states of a port (R353), with the record that each change leaves on Chandler's service queue. Before READY Chandler moves
none, but for port 0, which the ROM enables (R362). That an event in a state for which R353 does not list it changes nothing, and that a
drain is not complete while requests are open, is the model's reading (log 91). -/
def Obligations.Ports : Prop :=
  ∀ (p : PortRef) (s : State) (x : Port), s.port? p = some x →
    let goes (i : Instr) (y : Port) : Prop := ∃ t, exec i s = .next t ∧ t.port? p = some y ∧ t.mem = s.mem ∧ t.teams = s.teams
      ∧ t.svcQ = (if y.state = x.state then s.svcQ else s.svcQ ++ [.port p y.state])
    ((s.boot = .ready ∨ p = .ue 0) →
        goes (.portEnable p) (if x.state = .down then { x with state := .training, attempts := 0 } else x))
      ∧ (s.boot ≠ .ready → (p ≠ .ue 0 → exec (.portEnable p) s = .next s) ∧ exec (.portDrain p) s = .next s ∧ exec (.portReset p) s = .next s)
      ∧ (∀ n, x.state = .training → goes (.trainingEnd p n)
        (if n = 8 then { x with state := .up, lanes := 8 } else if n = 7 then { x with state := .degraded, lanes := 7 }
        else if x.attempts = 2 then { x with state := .faulted, attempts := 3 } else { x with attempts := x.attempts + 1 }))
      ∧ (∀ n, x.state ≠ .training → goes (.trainingEnd p n) x)
      ∧ (x.state = .up → goes (.laneLoss p) { x with state := .degraded, lanes := 7 })
      ∧ (x.state = .degraded → goes (.laneLoss p) { x with state := .faulted })
      ∧ (x.state ≠ .up → x.state ≠ .degraded → goes (.laneLoss p) x ∧ goes (.replayThreshold p) x)
      ∧ ((x.state = .up ∨ x.state = .degraded) → goes (.replayThreshold p) { x with state := .faulted }
        ∧ (s.boot = .ready → goes (.portDrain p) { x with state := .draining }))
      ∧ (x.state = .draining → portBusy s p = false → goes (.drainComplete p) { x with state := .down })
      ∧ (portBusy s p = true → exec (.drainComplete p) s = .fault .notEnabled)
      ∧ (s.boot = .ready → goes (.portReset p) (if x.state = .faulted then { x with state := .down } else x))
end

