-- ==== Sys2Proof/Laws/State.lean ====
section
/-! SUPPORT. What each update of the state does to each of its fields: one lemma per field per update. -/
namespace Sys2Proof.Machine

variable (s : State)

/-! ## setTeam -/

@[simp] theorem State.setTeam_agenda (t : Nat) (tm : Team) : (s.setTeam t tm).agenda = s.agenda := rfl
@[simp] theorem State.setTeam_cur (t : Nat) (tm : Team) : (s.setTeam t tm).cur = s.cur := rfl
@[simp] theorem State.setTeam_tick (t : Nat) (tm : Team) : (s.setTeam t tm).tick = s.tick := rfl
@[simp] theorem State.setTeam_now (t : Nat) (tm : Team) : (s.setTeam t tm).now = s.now := rfl
@[simp] theorem State.setTeam_cycle (t : Nat) (tm : Team) : (s.setTeam t tm).cycle = s.cycle := rfl
@[simp] theorem State.setTeam_podTime (t : Nat) (tm : Team) : (s.setTeam t tm).podTime = s.podTime := rfl
@[simp] theorem State.setTeam_teams (t : Nat) (tm : Team) : (s.setTeam t tm).teams = s.teams.set t tm := rfl
@[simp] theorem State.setTeam_cohorts (t : Nat) (tm : Team) : (s.setTeam t tm).cohorts = s.cohorts := rfl
@[simp] theorem State.setTeam_gangs (t : Nat) (tm : Team) : (s.setTeam t tm).gangs = s.gangs := rfl
@[simp] theorem State.setTeam_kernels (t : Nat) (tm : Team) : (s.setTeam t tm).kernels = s.kernels := rfl
@[simp] theorem State.setTeam_queues (t : Nat) (tm : Team) : (s.setTeam t tm).queues = s.queues := rfl
@[simp] theorem State.setTeam_slots (t : Nat) (tm : Team) : (s.setTeam t tm).slots = s.slots := rfl
@[simp] theorem State.setTeam_ctxs (t : Nat) (tm : Team) : (s.setTeam t tm).ctxs = s.ctxs := rfl
@[simp] theorem State.setTeam_cores (t : Nat) (tm : Team) : (s.setTeam t tm).cores = s.cores := rfl
@[simp] theorem State.setTeam_tlbs (t : Nat) (tm : Team) : (s.setTeam t tm).tlbs = s.tlbs := rfl
@[simp] theorem State.setTeam_mem (t : Nat) (tm : Team) : (s.setTeam t tm).mem = s.mem := rfl
@[simp] theorem State.setTeam_lineKey (t : Nat) (tm : Team) : (s.setTeam t tm).lineKey = s.lineKey := rfl
@[simp] theorem State.setTeam_tags (t : Nat) (tm : Team) : (s.setTeam t tm).tags = s.tags := rfl
@[simp] theorem State.setTeam_dieCopies (t : Nat) (tm : Team) : (s.setTeam t tm).dieCopies = s.dieCopies := rfl
@[simp] theorem State.setTeam_reqs (t : Nat) (tm : Team) : (s.setTeam t tm).reqs = s.reqs := rfl
@[simp] theorem State.setTeam_nextTag (t : Nat) (tm : Team) : (s.setTeam t tm).nextTag = s.nextTag := rfl
@[simp] theorem State.setTeam_directory (t : Nat) (tm : Team) : (s.setTeam t tm).directory = s.directory := rfl
@[simp] theorem State.setTeam_ingress (t : Nat) (tm : Team) : (s.setTeam t tm).ingress = s.ingress := rfl
@[simp] theorem State.setTeam_egress (t : Nat) (tm : Team) : (s.setTeam t tm).egress = s.egress := rfl
@[simp] theorem State.setTeam_revoking (t : Nat) (tm : Team) : (s.setTeam t tm).revoking = s.revoking := rfl
@[simp] theorem State.setTeam_inbound (t : Nat) (tm : Team) : (s.setTeam t tm).inbound = s.inbound := rfl
@[simp] theorem State.setTeam_msc (t : Nat) (tm : Team) : (s.setTeam t tm).msc = s.msc := rfl
@[simp] theorem State.setTeam_bloom (t : Nat) (tm : Team) : (s.setTeam t tm).bloom = s.bloom := rfl
@[simp] theorem State.setTeam_hot (t : Nat) (tm : Team) : (s.setTeam t tm).hot = s.hot := rfl
@[simp] theorem State.setTeam_hthresh (t : Nat) (tm : Team) : (s.setTeam t tm).hthresh = s.hthresh := rfl
@[simp] theorem State.setTeam_uePorts (t : Nat) (tm : Team) : (s.setTeam t tm).uePorts = s.uePorts := rfl
@[simp] theorem State.setTeam_spanPorts (t : Nat) (tm : Team) : (s.setTeam t tm).spanPorts = s.spanPorts := rfl
@[simp] theorem State.setTeam_ueOut (t : Nat) (tm : Team) : (s.setTeam t tm).ueOut = s.ueOut := rfl
@[simp] theorem State.setTeam_spanOut (t : Nat) (tm : Team) : (s.setTeam t tm).spanOut = s.spanOut := rfl
@[simp] theorem State.setTeam_flitsOut (t : Nat) (tm : Team) : (s.setTeam t tm).flitsOut = s.flitsOut := rfl
@[simp] theorem State.setTeam_svcQ (t : Nat) (tm : Team) : (s.setTeam t tm).svcQ = s.svcQ := rfl
@[simp] theorem State.setTeam_sessions (t : Nat) (tm : Team) : (s.setTeam t tm).sessions = s.sessions := rfl
@[simp] theorem State.setTeam_regions (t : Nat) (tm : Team) : (s.setTeam t tm).regions = s.regions := rfl
@[simp] theorem State.setTeam_keys (t : Nat) (tm : Team) : (s.setTeam t tm).keys = s.keys := rfl
@[simp] theorem State.setTeam_replaced (t : Nat) (tm : Team) : (s.setTeam t tm).replaced = s.replaced := rfl
@[simp] theorem State.setTeam_disabled (t : Nat) (tm : Team) : (s.setTeam t tm).disabled = s.disabled := rfl
@[simp] theorem State.setTeam_boot (t : Nat) (tm : Team) : (s.setTeam t tm).boot = s.boot := rfl
@[simp] theorem State.setTeam_image (t : Nat) (tm : Team) : (s.setTeam t tm).image = s.image := rfl
@[simp] theorem State.setTeam_fwHash (t : Nat) (tm : Team) : (s.setTeam t tm).fwHash = s.fwHash := rfl
@[simp] theorem State.setTeam_cfgHash (t : Nat) (tm : Team) : (s.setTeam t tm).cfgHash = s.cfgHash := rfl
@[simp] theorem State.setTeam_cfg (t : Nat) (tm : Team) : (s.setTeam t tm).cfg = s.cfg := rfl
@[simp] theorem State.setTeam_frozen (t : Nat) (tm : Team) : (s.setTeam t tm).frozen = s.frozen := rfl

/-! ## modTeam -/

@[simp] theorem State.modTeam_agenda (t : Nat) (f : Team → Team) : (s.modTeam t f).agenda = s.agenda := rfl
@[simp] theorem State.modTeam_cur (t : Nat) (f : Team → Team) : (s.modTeam t f).cur = s.cur := rfl
@[simp] theorem State.modTeam_tick (t : Nat) (f : Team → Team) : (s.modTeam t f).tick = s.tick := rfl
@[simp] theorem State.modTeam_now (t : Nat) (f : Team → Team) : (s.modTeam t f).now = s.now := rfl
@[simp] theorem State.modTeam_cycle (t : Nat) (f : Team → Team) : (s.modTeam t f).cycle = s.cycle := rfl
@[simp] theorem State.modTeam_podTime (t : Nat) (f : Team → Team) : (s.modTeam t f).podTime = s.podTime := rfl
@[simp] theorem State.modTeam_teams (t : Nat) (f : Team → Team) : (s.modTeam t f).teams = modAt f s.teams t := rfl
@[simp] theorem State.modTeam_cohorts (t : Nat) (f : Team → Team) : (s.modTeam t f).cohorts = s.cohorts := rfl
@[simp] theorem State.modTeam_gangs (t : Nat) (f : Team → Team) : (s.modTeam t f).gangs = s.gangs := rfl
@[simp] theorem State.modTeam_kernels (t : Nat) (f : Team → Team) : (s.modTeam t f).kernels = s.kernels := rfl
@[simp] theorem State.modTeam_queues (t : Nat) (f : Team → Team) : (s.modTeam t f).queues = s.queues := rfl
@[simp] theorem State.modTeam_slots (t : Nat) (f : Team → Team) : (s.modTeam t f).slots = s.slots := rfl
@[simp] theorem State.modTeam_ctxs (t : Nat) (f : Team → Team) : (s.modTeam t f).ctxs = s.ctxs := rfl
@[simp] theorem State.modTeam_cores (t : Nat) (f : Team → Team) : (s.modTeam t f).cores = s.cores := rfl
@[simp] theorem State.modTeam_tlbs (t : Nat) (f : Team → Team) : (s.modTeam t f).tlbs = s.tlbs := rfl
@[simp] theorem State.modTeam_mem (t : Nat) (f : Team → Team) : (s.modTeam t f).mem = s.mem := rfl
@[simp] theorem State.modTeam_lineKey (t : Nat) (f : Team → Team) : (s.modTeam t f).lineKey = s.lineKey := rfl
@[simp] theorem State.modTeam_tags (t : Nat) (f : Team → Team) : (s.modTeam t f).tags = s.tags := rfl
@[simp] theorem State.modTeam_dieCopies (t : Nat) (f : Team → Team) : (s.modTeam t f).dieCopies = s.dieCopies := rfl
@[simp] theorem State.modTeam_reqs (t : Nat) (f : Team → Team) : (s.modTeam t f).reqs = s.reqs := rfl
@[simp] theorem State.modTeam_nextTag (t : Nat) (f : Team → Team) : (s.modTeam t f).nextTag = s.nextTag := rfl
@[simp] theorem State.modTeam_directory (t : Nat) (f : Team → Team) : (s.modTeam t f).directory = s.directory := rfl
@[simp] theorem State.modTeam_ingress (t : Nat) (f : Team → Team) : (s.modTeam t f).ingress = s.ingress := rfl
@[simp] theorem State.modTeam_egress (t : Nat) (f : Team → Team) : (s.modTeam t f).egress = s.egress := rfl
@[simp] theorem State.modTeam_revoking (t : Nat) (f : Team → Team) : (s.modTeam t f).revoking = s.revoking := rfl
@[simp] theorem State.modTeam_inbound (t : Nat) (f : Team → Team) : (s.modTeam t f).inbound = s.inbound := rfl
@[simp] theorem State.modTeam_msc (t : Nat) (f : Team → Team) : (s.modTeam t f).msc = s.msc := rfl
@[simp] theorem State.modTeam_bloom (t : Nat) (f : Team → Team) : (s.modTeam t f).bloom = s.bloom := rfl
@[simp] theorem State.modTeam_hot (t : Nat) (f : Team → Team) : (s.modTeam t f).hot = s.hot := rfl
@[simp] theorem State.modTeam_hthresh (t : Nat) (f : Team → Team) : (s.modTeam t f).hthresh = s.hthresh := rfl
@[simp] theorem State.modTeam_uePorts (t : Nat) (f : Team → Team) : (s.modTeam t f).uePorts = s.uePorts := rfl
@[simp] theorem State.modTeam_spanPorts (t : Nat) (f : Team → Team) : (s.modTeam t f).spanPorts = s.spanPorts := rfl
@[simp] theorem State.modTeam_ueOut (t : Nat) (f : Team → Team) : (s.modTeam t f).ueOut = s.ueOut := rfl
@[simp] theorem State.modTeam_spanOut (t : Nat) (f : Team → Team) : (s.modTeam t f).spanOut = s.spanOut := rfl
@[simp] theorem State.modTeam_flitsOut (t : Nat) (f : Team → Team) : (s.modTeam t f).flitsOut = s.flitsOut := rfl
@[simp] theorem State.modTeam_svcQ (t : Nat) (f : Team → Team) : (s.modTeam t f).svcQ = s.svcQ := rfl
@[simp] theorem State.modTeam_sessions (t : Nat) (f : Team → Team) : (s.modTeam t f).sessions = s.sessions := rfl
@[simp] theorem State.modTeam_regions (t : Nat) (f : Team → Team) : (s.modTeam t f).regions = s.regions := rfl
@[simp] theorem State.modTeam_keys (t : Nat) (f : Team → Team) : (s.modTeam t f).keys = s.keys := rfl
@[simp] theorem State.modTeam_replaced (t : Nat) (f : Team → Team) : (s.modTeam t f).replaced = s.replaced := rfl
@[simp] theorem State.modTeam_disabled (t : Nat) (f : Team → Team) : (s.modTeam t f).disabled = s.disabled := rfl
@[simp] theorem State.modTeam_boot (t : Nat) (f : Team → Team) : (s.modTeam t f).boot = s.boot := rfl
@[simp] theorem State.modTeam_image (t : Nat) (f : Team → Team) : (s.modTeam t f).image = s.image := rfl
@[simp] theorem State.modTeam_fwHash (t : Nat) (f : Team → Team) : (s.modTeam t f).fwHash = s.fwHash := rfl
@[simp] theorem State.modTeam_cfgHash (t : Nat) (f : Team → Team) : (s.modTeam t f).cfgHash = s.cfgHash := rfl
@[simp] theorem State.modTeam_cfg (t : Nat) (f : Team → Team) : (s.modTeam t f).cfg = s.cfg := rfl
@[simp] theorem State.modTeam_frozen (t : Nat) (f : Team → Team) : (s.modTeam t f).frozen = s.frozen := rfl

/-! ## modCohort -/

@[simp] theorem State.modCohort_agenda (c : Nat) (f : Cohort → Cohort) : (s.modCohort c f).agenda = s.agenda := rfl
@[simp] theorem State.modCohort_cur (c : Nat) (f : Cohort → Cohort) : (s.modCohort c f).cur = s.cur := rfl
@[simp] theorem State.modCohort_tick (c : Nat) (f : Cohort → Cohort) : (s.modCohort c f).tick = s.tick := rfl
@[simp] theorem State.modCohort_now (c : Nat) (f : Cohort → Cohort) : (s.modCohort c f).now = s.now := rfl
@[simp] theorem State.modCohort_cycle (c : Nat) (f : Cohort → Cohort) : (s.modCohort c f).cycle = s.cycle := rfl
@[simp] theorem State.modCohort_podTime (c : Nat) (f : Cohort → Cohort) : (s.modCohort c f).podTime = s.podTime := rfl
@[simp] theorem State.modCohort_teams (c : Nat) (f : Cohort → Cohort) : (s.modCohort c f).teams = s.teams := rfl
@[simp] theorem State.modCohort_cohorts (c : Nat) (f : Cohort → Cohort) : (s.modCohort c f).cohorts = modAt f s.cohorts c := rfl
@[simp] theorem State.modCohort_gangs (c : Nat) (f : Cohort → Cohort) : (s.modCohort c f).gangs = s.gangs := rfl
@[simp] theorem State.modCohort_kernels (c : Nat) (f : Cohort → Cohort) : (s.modCohort c f).kernels = s.kernels := rfl
@[simp] theorem State.modCohort_queues (c : Nat) (f : Cohort → Cohort) : (s.modCohort c f).queues = s.queues := rfl
@[simp] theorem State.modCohort_slots (c : Nat) (f : Cohort → Cohort) : (s.modCohort c f).slots = s.slots := rfl
@[simp] theorem State.modCohort_ctxs (c : Nat) (f : Cohort → Cohort) : (s.modCohort c f).ctxs = s.ctxs := rfl
@[simp] theorem State.modCohort_cores (c : Nat) (f : Cohort → Cohort) : (s.modCohort c f).cores = s.cores := rfl
@[simp] theorem State.modCohort_tlbs (c : Nat) (f : Cohort → Cohort) : (s.modCohort c f).tlbs = s.tlbs := rfl
@[simp] theorem State.modCohort_mem (c : Nat) (f : Cohort → Cohort) : (s.modCohort c f).mem = s.mem := rfl
@[simp] theorem State.modCohort_lineKey (c : Nat) (f : Cohort → Cohort) : (s.modCohort c f).lineKey = s.lineKey := rfl
@[simp] theorem State.modCohort_tags (c : Nat) (f : Cohort → Cohort) : (s.modCohort c f).tags = s.tags := rfl
@[simp] theorem State.modCohort_dieCopies (c : Nat) (f : Cohort → Cohort) : (s.modCohort c f).dieCopies = s.dieCopies := rfl
@[simp] theorem State.modCohort_reqs (c : Nat) (f : Cohort → Cohort) : (s.modCohort c f).reqs = s.reqs := rfl
@[simp] theorem State.modCohort_nextTag (c : Nat) (f : Cohort → Cohort) : (s.modCohort c f).nextTag = s.nextTag := rfl
@[simp] theorem State.modCohort_directory (c : Nat) (f : Cohort → Cohort) : (s.modCohort c f).directory = s.directory := rfl
@[simp] theorem State.modCohort_ingress (c : Nat) (f : Cohort → Cohort) : (s.modCohort c f).ingress = s.ingress := rfl
@[simp] theorem State.modCohort_egress (c : Nat) (f : Cohort → Cohort) : (s.modCohort c f).egress = s.egress := rfl
@[simp] theorem State.modCohort_revoking (c : Nat) (f : Cohort → Cohort) : (s.modCohort c f).revoking = s.revoking := rfl
@[simp] theorem State.modCohort_inbound (c : Nat) (f : Cohort → Cohort) : (s.modCohort c f).inbound = s.inbound := rfl
@[simp] theorem State.modCohort_msc (c : Nat) (f : Cohort → Cohort) : (s.modCohort c f).msc = s.msc := rfl
@[simp] theorem State.modCohort_bloom (c : Nat) (f : Cohort → Cohort) : (s.modCohort c f).bloom = s.bloom := rfl
@[simp] theorem State.modCohort_hot (c : Nat) (f : Cohort → Cohort) : (s.modCohort c f).hot = s.hot := rfl
@[simp] theorem State.modCohort_hthresh (c : Nat) (f : Cohort → Cohort) : (s.modCohort c f).hthresh = s.hthresh := rfl
@[simp] theorem State.modCohort_uePorts (c : Nat) (f : Cohort → Cohort) : (s.modCohort c f).uePorts = s.uePorts := rfl
@[simp] theorem State.modCohort_spanPorts (c : Nat) (f : Cohort → Cohort) : (s.modCohort c f).spanPorts = s.spanPorts := rfl
@[simp] theorem State.modCohort_ueOut (c : Nat) (f : Cohort → Cohort) : (s.modCohort c f).ueOut = s.ueOut := rfl
@[simp] theorem State.modCohort_spanOut (c : Nat) (f : Cohort → Cohort) : (s.modCohort c f).spanOut = s.spanOut := rfl
@[simp] theorem State.modCohort_flitsOut (c : Nat) (f : Cohort → Cohort) : (s.modCohort c f).flitsOut = s.flitsOut := rfl
@[simp] theorem State.modCohort_svcQ (c : Nat) (f : Cohort → Cohort) : (s.modCohort c f).svcQ = s.svcQ := rfl
@[simp] theorem State.modCohort_sessions (c : Nat) (f : Cohort → Cohort) : (s.modCohort c f).sessions = s.sessions := rfl
@[simp] theorem State.modCohort_regions (c : Nat) (f : Cohort → Cohort) : (s.modCohort c f).regions = s.regions := rfl
@[simp] theorem State.modCohort_keys (c : Nat) (f : Cohort → Cohort) : (s.modCohort c f).keys = s.keys := rfl
@[simp] theorem State.modCohort_replaced (c : Nat) (f : Cohort → Cohort) : (s.modCohort c f).replaced = s.replaced := rfl
@[simp] theorem State.modCohort_disabled (c : Nat) (f : Cohort → Cohort) : (s.modCohort c f).disabled = s.disabled := rfl
@[simp] theorem State.modCohort_boot (c : Nat) (f : Cohort → Cohort) : (s.modCohort c f).boot = s.boot := rfl
@[simp] theorem State.modCohort_image (c : Nat) (f : Cohort → Cohort) : (s.modCohort c f).image = s.image := rfl
@[simp] theorem State.modCohort_fwHash (c : Nat) (f : Cohort → Cohort) : (s.modCohort c f).fwHash = s.fwHash := rfl
@[simp] theorem State.modCohort_cfgHash (c : Nat) (f : Cohort → Cohort) : (s.modCohort c f).cfgHash = s.cfgHash := rfl
@[simp] theorem State.modCohort_cfg (c : Nat) (f : Cohort → Cohort) : (s.modCohort c f).cfg = s.cfg := rfl
@[simp] theorem State.modCohort_frozen (c : Nat) (f : Cohort → Cohort) : (s.modCohort c f).frozen = s.frozen := rfl

/-! ## modGang -/

@[simp] theorem State.modGang_agenda (g : Nat) (f : Gang → Gang) : (s.modGang g f).agenda = s.agenda := rfl
@[simp] theorem State.modGang_cur (g : Nat) (f : Gang → Gang) : (s.modGang g f).cur = s.cur := rfl
@[simp] theorem State.modGang_tick (g : Nat) (f : Gang → Gang) : (s.modGang g f).tick = s.tick := rfl
@[simp] theorem State.modGang_now (g : Nat) (f : Gang → Gang) : (s.modGang g f).now = s.now := rfl
@[simp] theorem State.modGang_cycle (g : Nat) (f : Gang → Gang) : (s.modGang g f).cycle = s.cycle := rfl
@[simp] theorem State.modGang_podTime (g : Nat) (f : Gang → Gang) : (s.modGang g f).podTime = s.podTime := rfl
@[simp] theorem State.modGang_teams (g : Nat) (f : Gang → Gang) : (s.modGang g f).teams = s.teams := rfl
@[simp] theorem State.modGang_cohorts (g : Nat) (f : Gang → Gang) : (s.modGang g f).cohorts = s.cohorts := rfl
@[simp] theorem State.modGang_gangs (g : Nat) (f : Gang → Gang) : (s.modGang g f).gangs = modAt f s.gangs g := rfl
@[simp] theorem State.modGang_kernels (g : Nat) (f : Gang → Gang) : (s.modGang g f).kernels = s.kernels := rfl
@[simp] theorem State.modGang_queues (g : Nat) (f : Gang → Gang) : (s.modGang g f).queues = s.queues := rfl
@[simp] theorem State.modGang_slots (g : Nat) (f : Gang → Gang) : (s.modGang g f).slots = s.slots := rfl
@[simp] theorem State.modGang_ctxs (g : Nat) (f : Gang → Gang) : (s.modGang g f).ctxs = s.ctxs := rfl
@[simp] theorem State.modGang_cores (g : Nat) (f : Gang → Gang) : (s.modGang g f).cores = s.cores := rfl
@[simp] theorem State.modGang_tlbs (g : Nat) (f : Gang → Gang) : (s.modGang g f).tlbs = s.tlbs := rfl
@[simp] theorem State.modGang_mem (g : Nat) (f : Gang → Gang) : (s.modGang g f).mem = s.mem := rfl
@[simp] theorem State.modGang_lineKey (g : Nat) (f : Gang → Gang) : (s.modGang g f).lineKey = s.lineKey := rfl
@[simp] theorem State.modGang_tags (g : Nat) (f : Gang → Gang) : (s.modGang g f).tags = s.tags := rfl
@[simp] theorem State.modGang_dieCopies (g : Nat) (f : Gang → Gang) : (s.modGang g f).dieCopies = s.dieCopies := rfl
@[simp] theorem State.modGang_reqs (g : Nat) (f : Gang → Gang) : (s.modGang g f).reqs = s.reqs := rfl
@[simp] theorem State.modGang_nextTag (g : Nat) (f : Gang → Gang) : (s.modGang g f).nextTag = s.nextTag := rfl
@[simp] theorem State.modGang_directory (g : Nat) (f : Gang → Gang) : (s.modGang g f).directory = s.directory := rfl
@[simp] theorem State.modGang_ingress (g : Nat) (f : Gang → Gang) : (s.modGang g f).ingress = s.ingress := rfl
@[simp] theorem State.modGang_egress (g : Nat) (f : Gang → Gang) : (s.modGang g f).egress = s.egress := rfl
@[simp] theorem State.modGang_revoking (g : Nat) (f : Gang → Gang) : (s.modGang g f).revoking = s.revoking := rfl
@[simp] theorem State.modGang_inbound (g : Nat) (f : Gang → Gang) : (s.modGang g f).inbound = s.inbound := rfl
@[simp] theorem State.modGang_msc (g : Nat) (f : Gang → Gang) : (s.modGang g f).msc = s.msc := rfl
@[simp] theorem State.modGang_bloom (g : Nat) (f : Gang → Gang) : (s.modGang g f).bloom = s.bloom := rfl
@[simp] theorem State.modGang_hot (g : Nat) (f : Gang → Gang) : (s.modGang g f).hot = s.hot := rfl
@[simp] theorem State.modGang_hthresh (g : Nat) (f : Gang → Gang) : (s.modGang g f).hthresh = s.hthresh := rfl
@[simp] theorem State.modGang_uePorts (g : Nat) (f : Gang → Gang) : (s.modGang g f).uePorts = s.uePorts := rfl
@[simp] theorem State.modGang_spanPorts (g : Nat) (f : Gang → Gang) : (s.modGang g f).spanPorts = s.spanPorts := rfl
@[simp] theorem State.modGang_ueOut (g : Nat) (f : Gang → Gang) : (s.modGang g f).ueOut = s.ueOut := rfl
@[simp] theorem State.modGang_spanOut (g : Nat) (f : Gang → Gang) : (s.modGang g f).spanOut = s.spanOut := rfl
@[simp] theorem State.modGang_flitsOut (g : Nat) (f : Gang → Gang) : (s.modGang g f).flitsOut = s.flitsOut := rfl
@[simp] theorem State.modGang_svcQ (g : Nat) (f : Gang → Gang) : (s.modGang g f).svcQ = s.svcQ := rfl
@[simp] theorem State.modGang_sessions (g : Nat) (f : Gang → Gang) : (s.modGang g f).sessions = s.sessions := rfl
@[simp] theorem State.modGang_regions (g : Nat) (f : Gang → Gang) : (s.modGang g f).regions = s.regions := rfl
@[simp] theorem State.modGang_keys (g : Nat) (f : Gang → Gang) : (s.modGang g f).keys = s.keys := rfl
@[simp] theorem State.modGang_replaced (g : Nat) (f : Gang → Gang) : (s.modGang g f).replaced = s.replaced := rfl
@[simp] theorem State.modGang_disabled (g : Nat) (f : Gang → Gang) : (s.modGang g f).disabled = s.disabled := rfl
@[simp] theorem State.modGang_boot (g : Nat) (f : Gang → Gang) : (s.modGang g f).boot = s.boot := rfl
@[simp] theorem State.modGang_image (g : Nat) (f : Gang → Gang) : (s.modGang g f).image = s.image := rfl
@[simp] theorem State.modGang_fwHash (g : Nat) (f : Gang → Gang) : (s.modGang g f).fwHash = s.fwHash := rfl
@[simp] theorem State.modGang_cfgHash (g : Nat) (f : Gang → Gang) : (s.modGang g f).cfgHash = s.cfgHash := rfl
@[simp] theorem State.modGang_cfg (g : Nat) (f : Gang → Gang) : (s.modGang g f).cfg = s.cfg := rfl
@[simp] theorem State.modGang_frozen (g : Nat) (f : Gang → Gang) : (s.modGang g f).frozen = s.frozen := rfl

/-! ## modKernel -/

@[simp] theorem State.modKernel_agenda (k : Nat) (f : Kernel → Kernel) : (s.modKernel k f).agenda = s.agenda := rfl
@[simp] theorem State.modKernel_cur (k : Nat) (f : Kernel → Kernel) : (s.modKernel k f).cur = s.cur := rfl
@[simp] theorem State.modKernel_tick (k : Nat) (f : Kernel → Kernel) : (s.modKernel k f).tick = s.tick := rfl
@[simp] theorem State.modKernel_now (k : Nat) (f : Kernel → Kernel) : (s.modKernel k f).now = s.now := rfl
@[simp] theorem State.modKernel_cycle (k : Nat) (f : Kernel → Kernel) : (s.modKernel k f).cycle = s.cycle := rfl
@[simp] theorem State.modKernel_podTime (k : Nat) (f : Kernel → Kernel) : (s.modKernel k f).podTime = s.podTime := rfl
@[simp] theorem State.modKernel_teams (k : Nat) (f : Kernel → Kernel) : (s.modKernel k f).teams = s.teams := rfl
@[simp] theorem State.modKernel_cohorts (k : Nat) (f : Kernel → Kernel) : (s.modKernel k f).cohorts = s.cohorts := rfl
@[simp] theorem State.modKernel_gangs (k : Nat) (f : Kernel → Kernel) : (s.modKernel k f).gangs = s.gangs := rfl
@[simp] theorem State.modKernel_kernels (k : Nat) (f : Kernel → Kernel) : (s.modKernel k f).kernels = modAt f s.kernels k := rfl
@[simp] theorem State.modKernel_queues (k : Nat) (f : Kernel → Kernel) : (s.modKernel k f).queues = s.queues := rfl
@[simp] theorem State.modKernel_slots (k : Nat) (f : Kernel → Kernel) : (s.modKernel k f).slots = s.slots := rfl
@[simp] theorem State.modKernel_ctxs (k : Nat) (f : Kernel → Kernel) : (s.modKernel k f).ctxs = s.ctxs := rfl
@[simp] theorem State.modKernel_cores (k : Nat) (f : Kernel → Kernel) : (s.modKernel k f).cores = s.cores := rfl
@[simp] theorem State.modKernel_tlbs (k : Nat) (f : Kernel → Kernel) : (s.modKernel k f).tlbs = s.tlbs := rfl
@[simp] theorem State.modKernel_mem (k : Nat) (f : Kernel → Kernel) : (s.modKernel k f).mem = s.mem := rfl
@[simp] theorem State.modKernel_lineKey (k : Nat) (f : Kernel → Kernel) : (s.modKernel k f).lineKey = s.lineKey := rfl
@[simp] theorem State.modKernel_tags (k : Nat) (f : Kernel → Kernel) : (s.modKernel k f).tags = s.tags := rfl
@[simp] theorem State.modKernel_dieCopies (k : Nat) (f : Kernel → Kernel) : (s.modKernel k f).dieCopies = s.dieCopies := rfl
@[simp] theorem State.modKernel_reqs (k : Nat) (f : Kernel → Kernel) : (s.modKernel k f).reqs = s.reqs := rfl
@[simp] theorem State.modKernel_nextTag (k : Nat) (f : Kernel → Kernel) : (s.modKernel k f).nextTag = s.nextTag := rfl
@[simp] theorem State.modKernel_directory (k : Nat) (f : Kernel → Kernel) : (s.modKernel k f).directory = s.directory := rfl
@[simp] theorem State.modKernel_ingress (k : Nat) (f : Kernel → Kernel) : (s.modKernel k f).ingress = s.ingress := rfl
@[simp] theorem State.modKernel_egress (k : Nat) (f : Kernel → Kernel) : (s.modKernel k f).egress = s.egress := rfl
@[simp] theorem State.modKernel_revoking (k : Nat) (f : Kernel → Kernel) : (s.modKernel k f).revoking = s.revoking := rfl
@[simp] theorem State.modKernel_inbound (k : Nat) (f : Kernel → Kernel) : (s.modKernel k f).inbound = s.inbound := rfl
@[simp] theorem State.modKernel_msc (k : Nat) (f : Kernel → Kernel) : (s.modKernel k f).msc = s.msc := rfl
@[simp] theorem State.modKernel_bloom (k : Nat) (f : Kernel → Kernel) : (s.modKernel k f).bloom = s.bloom := rfl
@[simp] theorem State.modKernel_hot (k : Nat) (f : Kernel → Kernel) : (s.modKernel k f).hot = s.hot := rfl
@[simp] theorem State.modKernel_hthresh (k : Nat) (f : Kernel → Kernel) : (s.modKernel k f).hthresh = s.hthresh := rfl
@[simp] theorem State.modKernel_uePorts (k : Nat) (f : Kernel → Kernel) : (s.modKernel k f).uePorts = s.uePorts := rfl
@[simp] theorem State.modKernel_spanPorts (k : Nat) (f : Kernel → Kernel) : (s.modKernel k f).spanPorts = s.spanPorts := rfl
@[simp] theorem State.modKernel_ueOut (k : Nat) (f : Kernel → Kernel) : (s.modKernel k f).ueOut = s.ueOut := rfl
@[simp] theorem State.modKernel_spanOut (k : Nat) (f : Kernel → Kernel) : (s.modKernel k f).spanOut = s.spanOut := rfl
@[simp] theorem State.modKernel_flitsOut (k : Nat) (f : Kernel → Kernel) : (s.modKernel k f).flitsOut = s.flitsOut := rfl
@[simp] theorem State.modKernel_svcQ (k : Nat) (f : Kernel → Kernel) : (s.modKernel k f).svcQ = s.svcQ := rfl
@[simp] theorem State.modKernel_sessions (k : Nat) (f : Kernel → Kernel) : (s.modKernel k f).sessions = s.sessions := rfl
@[simp] theorem State.modKernel_regions (k : Nat) (f : Kernel → Kernel) : (s.modKernel k f).regions = s.regions := rfl
@[simp] theorem State.modKernel_keys (k : Nat) (f : Kernel → Kernel) : (s.modKernel k f).keys = s.keys := rfl
@[simp] theorem State.modKernel_replaced (k : Nat) (f : Kernel → Kernel) : (s.modKernel k f).replaced = s.replaced := rfl
@[simp] theorem State.modKernel_disabled (k : Nat) (f : Kernel → Kernel) : (s.modKernel k f).disabled = s.disabled := rfl
@[simp] theorem State.modKernel_boot (k : Nat) (f : Kernel → Kernel) : (s.modKernel k f).boot = s.boot := rfl
@[simp] theorem State.modKernel_image (k : Nat) (f : Kernel → Kernel) : (s.modKernel k f).image = s.image := rfl
@[simp] theorem State.modKernel_fwHash (k : Nat) (f : Kernel → Kernel) : (s.modKernel k f).fwHash = s.fwHash := rfl
@[simp] theorem State.modKernel_cfgHash (k : Nat) (f : Kernel → Kernel) : (s.modKernel k f).cfgHash = s.cfgHash := rfl
@[simp] theorem State.modKernel_cfg (k : Nat) (f : Kernel → Kernel) : (s.modKernel k f).cfg = s.cfg := rfl
@[simp] theorem State.modKernel_frozen (k : Nat) (f : Kernel → Kernel) : (s.modKernel k f).frozen = s.frozen := rfl

/-! ## modCore -/

@[simp] theorem State.modCore_agenda (c : Nat) (f : Core → Core) : (s.modCore c f).agenda = s.agenda := rfl
@[simp] theorem State.modCore_cur (c : Nat) (f : Core → Core) : (s.modCore c f).cur = s.cur := rfl
@[simp] theorem State.modCore_tick (c : Nat) (f : Core → Core) : (s.modCore c f).tick = s.tick := rfl
@[simp] theorem State.modCore_now (c : Nat) (f : Core → Core) : (s.modCore c f).now = s.now := rfl
@[simp] theorem State.modCore_cycle (c : Nat) (f : Core → Core) : (s.modCore c f).cycle = s.cycle := rfl
@[simp] theorem State.modCore_podTime (c : Nat) (f : Core → Core) : (s.modCore c f).podTime = s.podTime := rfl
@[simp] theorem State.modCore_teams (c : Nat) (f : Core → Core) : (s.modCore c f).teams = s.teams := rfl
@[simp] theorem State.modCore_cohorts (c : Nat) (f : Core → Core) : (s.modCore c f).cohorts = s.cohorts := rfl
@[simp] theorem State.modCore_gangs (c : Nat) (f : Core → Core) : (s.modCore c f).gangs = s.gangs := rfl
@[simp] theorem State.modCore_kernels (c : Nat) (f : Core → Core) : (s.modCore c f).kernels = s.kernels := rfl
@[simp] theorem State.modCore_queues (c : Nat) (f : Core → Core) : (s.modCore c f).queues = s.queues := rfl
@[simp] theorem State.modCore_slots (c : Nat) (f : Core → Core) : (s.modCore c f).slots = s.slots := rfl
@[simp] theorem State.modCore_ctxs (c : Nat) (f : Core → Core) : (s.modCore c f).ctxs = s.ctxs := rfl
@[simp] theorem State.modCore_cores (c : Nat) (f : Core → Core) : (s.modCore c f).cores = modAt f s.cores c := rfl
@[simp] theorem State.modCore_tlbs (c : Nat) (f : Core → Core) : (s.modCore c f).tlbs = s.tlbs := rfl
@[simp] theorem State.modCore_mem (c : Nat) (f : Core → Core) : (s.modCore c f).mem = s.mem := rfl
@[simp] theorem State.modCore_lineKey (c : Nat) (f : Core → Core) : (s.modCore c f).lineKey = s.lineKey := rfl
@[simp] theorem State.modCore_tags (c : Nat) (f : Core → Core) : (s.modCore c f).tags = s.tags := rfl
@[simp] theorem State.modCore_dieCopies (c : Nat) (f : Core → Core) : (s.modCore c f).dieCopies = s.dieCopies := rfl
@[simp] theorem State.modCore_reqs (c : Nat) (f : Core → Core) : (s.modCore c f).reqs = s.reqs := rfl
@[simp] theorem State.modCore_nextTag (c : Nat) (f : Core → Core) : (s.modCore c f).nextTag = s.nextTag := rfl
@[simp] theorem State.modCore_directory (c : Nat) (f : Core → Core) : (s.modCore c f).directory = s.directory := rfl
@[simp] theorem State.modCore_ingress (c : Nat) (f : Core → Core) : (s.modCore c f).ingress = s.ingress := rfl
@[simp] theorem State.modCore_egress (c : Nat) (f : Core → Core) : (s.modCore c f).egress = s.egress := rfl
@[simp] theorem State.modCore_revoking (c : Nat) (f : Core → Core) : (s.modCore c f).revoking = s.revoking := rfl
@[simp] theorem State.modCore_inbound (c : Nat) (f : Core → Core) : (s.modCore c f).inbound = s.inbound := rfl
@[simp] theorem State.modCore_msc (c : Nat) (f : Core → Core) : (s.modCore c f).msc = s.msc := rfl
@[simp] theorem State.modCore_bloom (c : Nat) (f : Core → Core) : (s.modCore c f).bloom = s.bloom := rfl
@[simp] theorem State.modCore_hot (c : Nat) (f : Core → Core) : (s.modCore c f).hot = s.hot := rfl
@[simp] theorem State.modCore_hthresh (c : Nat) (f : Core → Core) : (s.modCore c f).hthresh = s.hthresh := rfl
@[simp] theorem State.modCore_uePorts (c : Nat) (f : Core → Core) : (s.modCore c f).uePorts = s.uePorts := rfl
@[simp] theorem State.modCore_spanPorts (c : Nat) (f : Core → Core) : (s.modCore c f).spanPorts = s.spanPorts := rfl
@[simp] theorem State.modCore_ueOut (c : Nat) (f : Core → Core) : (s.modCore c f).ueOut = s.ueOut := rfl
@[simp] theorem State.modCore_spanOut (c : Nat) (f : Core → Core) : (s.modCore c f).spanOut = s.spanOut := rfl
@[simp] theorem State.modCore_flitsOut (c : Nat) (f : Core → Core) : (s.modCore c f).flitsOut = s.flitsOut := rfl
@[simp] theorem State.modCore_svcQ (c : Nat) (f : Core → Core) : (s.modCore c f).svcQ = s.svcQ := rfl
@[simp] theorem State.modCore_sessions (c : Nat) (f : Core → Core) : (s.modCore c f).sessions = s.sessions := rfl
@[simp] theorem State.modCore_regions (c : Nat) (f : Core → Core) : (s.modCore c f).regions = s.regions := rfl
@[simp] theorem State.modCore_keys (c : Nat) (f : Core → Core) : (s.modCore c f).keys = s.keys := rfl
@[simp] theorem State.modCore_replaced (c : Nat) (f : Core → Core) : (s.modCore c f).replaced = s.replaced := rfl
@[simp] theorem State.modCore_disabled (c : Nat) (f : Core → Core) : (s.modCore c f).disabled = s.disabled := rfl
@[simp] theorem State.modCore_boot (c : Nat) (f : Core → Core) : (s.modCore c f).boot = s.boot := rfl
@[simp] theorem State.modCore_image (c : Nat) (f : Core → Core) : (s.modCore c f).image = s.image := rfl
@[simp] theorem State.modCore_fwHash (c : Nat) (f : Core → Core) : (s.modCore c f).fwHash = s.fwHash := rfl
@[simp] theorem State.modCore_cfgHash (c : Nat) (f : Core → Core) : (s.modCore c f).cfgHash = s.cfgHash := rfl
@[simp] theorem State.modCore_cfg (c : Nat) (f : Core → Core) : (s.modCore c f).cfg = s.cfg := rfl
@[simp] theorem State.modCore_frozen (c : Nat) (f : Core → Core) : (s.modCore c f).frozen = s.frozen := rfl

/-! ## modBench -/

@[simp] theorem State.modBench_agenda (c b : Nat) (f : Bench → Bench) : (s.modBench c b f).agenda = s.agenda := rfl
@[simp] theorem State.modBench_cur (c b : Nat) (f : Bench → Bench) : (s.modBench c b f).cur = s.cur := rfl
@[simp] theorem State.modBench_tick (c b : Nat) (f : Bench → Bench) : (s.modBench c b f).tick = s.tick := rfl
@[simp] theorem State.modBench_now (c b : Nat) (f : Bench → Bench) : (s.modBench c b f).now = s.now := rfl
@[simp] theorem State.modBench_cycle (c b : Nat) (f : Bench → Bench) : (s.modBench c b f).cycle = s.cycle := rfl
@[simp] theorem State.modBench_podTime (c b : Nat) (f : Bench → Bench) : (s.modBench c b f).podTime = s.podTime := rfl
@[simp] theorem State.modBench_teams (c b : Nat) (f : Bench → Bench) : (s.modBench c b f).teams = s.teams := rfl
@[simp] theorem State.modBench_cohorts (c b : Nat) (f : Bench → Bench) : (s.modBench c b f).cohorts = s.cohorts := rfl
@[simp] theorem State.modBench_gangs (c b : Nat) (f : Bench → Bench) : (s.modBench c b f).gangs = s.gangs := rfl
@[simp] theorem State.modBench_kernels (c b : Nat) (f : Bench → Bench) : (s.modBench c b f).kernels = s.kernels := rfl
@[simp] theorem State.modBench_queues (c b : Nat) (f : Bench → Bench) : (s.modBench c b f).queues = s.queues := rfl
@[simp] theorem State.modBench_slots (c b : Nat) (f : Bench → Bench) : (s.modBench c b f).slots = s.slots := rfl
@[simp] theorem State.modBench_ctxs (c b : Nat) (f : Bench → Bench) : (s.modBench c b f).ctxs = s.ctxs := rfl
@[simp] theorem State.modBench_cores (c b : Nat) (f : Bench → Bench) : (s.modBench c b f).cores = modAt (fun x => { x with benches := modAt f x.benches b }) s.cores c := rfl
@[simp] theorem State.modBench_tlbs (c b : Nat) (f : Bench → Bench) : (s.modBench c b f).tlbs = s.tlbs := rfl
@[simp] theorem State.modBench_mem (c b : Nat) (f : Bench → Bench) : (s.modBench c b f).mem = s.mem := rfl
@[simp] theorem State.modBench_lineKey (c b : Nat) (f : Bench → Bench) : (s.modBench c b f).lineKey = s.lineKey := rfl
@[simp] theorem State.modBench_tags (c b : Nat) (f : Bench → Bench) : (s.modBench c b f).tags = s.tags := rfl
@[simp] theorem State.modBench_dieCopies (c b : Nat) (f : Bench → Bench) : (s.modBench c b f).dieCopies = s.dieCopies := rfl
@[simp] theorem State.modBench_reqs (c b : Nat) (f : Bench → Bench) : (s.modBench c b f).reqs = s.reqs := rfl
@[simp] theorem State.modBench_nextTag (c b : Nat) (f : Bench → Bench) : (s.modBench c b f).nextTag = s.nextTag := rfl
@[simp] theorem State.modBench_directory (c b : Nat) (f : Bench → Bench) : (s.modBench c b f).directory = s.directory := rfl
@[simp] theorem State.modBench_ingress (c b : Nat) (f : Bench → Bench) : (s.modBench c b f).ingress = s.ingress := rfl
@[simp] theorem State.modBench_egress (c b : Nat) (f : Bench → Bench) : (s.modBench c b f).egress = s.egress := rfl
@[simp] theorem State.modBench_revoking (c b : Nat) (f : Bench → Bench) : (s.modBench c b f).revoking = s.revoking := rfl
@[simp] theorem State.modBench_inbound (c b : Nat) (f : Bench → Bench) : (s.modBench c b f).inbound = s.inbound := rfl
@[simp] theorem State.modBench_msc (c b : Nat) (f : Bench → Bench) : (s.modBench c b f).msc = s.msc := rfl
@[simp] theorem State.modBench_bloom (c b : Nat) (f : Bench → Bench) : (s.modBench c b f).bloom = s.bloom := rfl
@[simp] theorem State.modBench_hot (c b : Nat) (f : Bench → Bench) : (s.modBench c b f).hot = s.hot := rfl
@[simp] theorem State.modBench_hthresh (c b : Nat) (f : Bench → Bench) : (s.modBench c b f).hthresh = s.hthresh := rfl
@[simp] theorem State.modBench_uePorts (c b : Nat) (f : Bench → Bench) : (s.modBench c b f).uePorts = s.uePorts := rfl
@[simp] theorem State.modBench_spanPorts (c b : Nat) (f : Bench → Bench) : (s.modBench c b f).spanPorts = s.spanPorts := rfl
@[simp] theorem State.modBench_ueOut (c b : Nat) (f : Bench → Bench) : (s.modBench c b f).ueOut = s.ueOut := rfl
@[simp] theorem State.modBench_spanOut (c b : Nat) (f : Bench → Bench) : (s.modBench c b f).spanOut = s.spanOut := rfl
@[simp] theorem State.modBench_flitsOut (c b : Nat) (f : Bench → Bench) : (s.modBench c b f).flitsOut = s.flitsOut := rfl
@[simp] theorem State.modBench_svcQ (c b : Nat) (f : Bench → Bench) : (s.modBench c b f).svcQ = s.svcQ := rfl
@[simp] theorem State.modBench_sessions (c b : Nat) (f : Bench → Bench) : (s.modBench c b f).sessions = s.sessions := rfl
@[simp] theorem State.modBench_regions (c b : Nat) (f : Bench → Bench) : (s.modBench c b f).regions = s.regions := rfl
@[simp] theorem State.modBench_keys (c b : Nat) (f : Bench → Bench) : (s.modBench c b f).keys = s.keys := rfl
@[simp] theorem State.modBench_replaced (c b : Nat) (f : Bench → Bench) : (s.modBench c b f).replaced = s.replaced := rfl
@[simp] theorem State.modBench_disabled (c b : Nat) (f : Bench → Bench) : (s.modBench c b f).disabled = s.disabled := rfl
@[simp] theorem State.modBench_boot (c b : Nat) (f : Bench → Bench) : (s.modBench c b f).boot = s.boot := rfl
@[simp] theorem State.modBench_image (c b : Nat) (f : Bench → Bench) : (s.modBench c b f).image = s.image := rfl
@[simp] theorem State.modBench_fwHash (c b : Nat) (f : Bench → Bench) : (s.modBench c b f).fwHash = s.fwHash := rfl
@[simp] theorem State.modBench_cfgHash (c b : Nat) (f : Bench → Bench) : (s.modBench c b f).cfgHash = s.cfgHash := rfl
@[simp] theorem State.modBench_cfg (c b : Nat) (f : Bench → Bench) : (s.modBench c b f).cfg = s.cfg := rfl
@[simp] theorem State.modBench_frozen (c b : Nat) (f : Bench → Bench) : (s.modBench c b f).frozen = s.frozen := rfl

/-! ## setCtx -/

@[simp] theorem State.setCtx_agenda (c : Ctx) : (s.setCtx c).agenda = s.agenda := rfl
@[simp] theorem State.setCtx_cur (c : Ctx) : (s.setCtx c).cur = s.cur := rfl
@[simp] theorem State.setCtx_tick (c : Ctx) : (s.setCtx c).tick = s.tick := rfl
@[simp] theorem State.setCtx_now (c : Ctx) : (s.setCtx c).now = s.now := rfl
@[simp] theorem State.setCtx_cycle (c : Ctx) : (s.setCtx c).cycle = s.cycle := rfl
@[simp] theorem State.setCtx_podTime (c : Ctx) : (s.setCtx c).podTime = s.podTime := rfl
@[simp] theorem State.setCtx_teams (c : Ctx) : (s.setCtx c).teams = s.teams := rfl
@[simp] theorem State.setCtx_cohorts (c : Ctx) : (s.setCtx c).cohorts = s.cohorts := rfl
@[simp] theorem State.setCtx_gangs (c : Ctx) : (s.setCtx c).gangs = s.gangs := rfl
@[simp] theorem State.setCtx_kernels (c : Ctx) : (s.setCtx c).kernels = s.kernels := rfl
@[simp] theorem State.setCtx_queues (c : Ctx) : (s.setCtx c).queues = s.queues := rfl
@[simp] theorem State.setCtx_slots (c : Ctx) : (s.setCtx c).slots = s.slots := rfl
@[simp] theorem State.setCtx_ctxs (c : Ctx) : (s.setCtx c).ctxs = s.ctxs.map fun x => if x.id = c.id then c else x := rfl
@[simp] theorem State.setCtx_cores (c : Ctx) : (s.setCtx c).cores = s.cores := rfl
@[simp] theorem State.setCtx_tlbs (c : Ctx) : (s.setCtx c).tlbs = s.tlbs := rfl
@[simp] theorem State.setCtx_mem (c : Ctx) : (s.setCtx c).mem = s.mem := rfl
@[simp] theorem State.setCtx_lineKey (c : Ctx) : (s.setCtx c).lineKey = s.lineKey := rfl
@[simp] theorem State.setCtx_tags (c : Ctx) : (s.setCtx c).tags = s.tags := rfl
@[simp] theorem State.setCtx_dieCopies (c : Ctx) : (s.setCtx c).dieCopies = s.dieCopies := rfl
@[simp] theorem State.setCtx_reqs (c : Ctx) : (s.setCtx c).reqs = s.reqs := rfl
@[simp] theorem State.setCtx_nextTag (c : Ctx) : (s.setCtx c).nextTag = s.nextTag := rfl
@[simp] theorem State.setCtx_directory (c : Ctx) : (s.setCtx c).directory = s.directory := rfl
@[simp] theorem State.setCtx_ingress (c : Ctx) : (s.setCtx c).ingress = s.ingress := rfl
@[simp] theorem State.setCtx_egress (c : Ctx) : (s.setCtx c).egress = s.egress := rfl
@[simp] theorem State.setCtx_revoking (c : Ctx) : (s.setCtx c).revoking = s.revoking := rfl
@[simp] theorem State.setCtx_inbound (c : Ctx) : (s.setCtx c).inbound = s.inbound := rfl
@[simp] theorem State.setCtx_msc (c : Ctx) : (s.setCtx c).msc = s.msc := rfl
@[simp] theorem State.setCtx_bloom (c : Ctx) : (s.setCtx c).bloom = s.bloom := rfl
@[simp] theorem State.setCtx_hot (c : Ctx) : (s.setCtx c).hot = s.hot := rfl
@[simp] theorem State.setCtx_hthresh (c : Ctx) : (s.setCtx c).hthresh = s.hthresh := rfl
@[simp] theorem State.setCtx_uePorts (c : Ctx) : (s.setCtx c).uePorts = s.uePorts := rfl
@[simp] theorem State.setCtx_spanPorts (c : Ctx) : (s.setCtx c).spanPorts = s.spanPorts := rfl
@[simp] theorem State.setCtx_ueOut (c : Ctx) : (s.setCtx c).ueOut = s.ueOut := rfl
@[simp] theorem State.setCtx_spanOut (c : Ctx) : (s.setCtx c).spanOut = s.spanOut := rfl
@[simp] theorem State.setCtx_flitsOut (c : Ctx) : (s.setCtx c).flitsOut = s.flitsOut := rfl
@[simp] theorem State.setCtx_svcQ (c : Ctx) : (s.setCtx c).svcQ = s.svcQ := rfl
@[simp] theorem State.setCtx_sessions (c : Ctx) : (s.setCtx c).sessions = s.sessions := rfl
@[simp] theorem State.setCtx_regions (c : Ctx) : (s.setCtx c).regions = s.regions := rfl
@[simp] theorem State.setCtx_keys (c : Ctx) : (s.setCtx c).keys = s.keys := rfl
@[simp] theorem State.setCtx_replaced (c : Ctx) : (s.setCtx c).replaced = s.replaced := rfl
@[simp] theorem State.setCtx_disabled (c : Ctx) : (s.setCtx c).disabled = s.disabled := rfl
@[simp] theorem State.setCtx_boot (c : Ctx) : (s.setCtx c).boot = s.boot := rfl
@[simp] theorem State.setCtx_image (c : Ctx) : (s.setCtx c).image = s.image := rfl
@[simp] theorem State.setCtx_fwHash (c : Ctx) : (s.setCtx c).fwHash = s.fwHash := rfl
@[simp] theorem State.setCtx_cfgHash (c : Ctx) : (s.setCtx c).cfgHash = s.cfgHash := rfl
@[simp] theorem State.setCtx_cfg (c : Ctx) : (s.setCtx c).cfg = s.cfg := rfl
@[simp] theorem State.setCtx_frozen (c : Ctx) : (s.setCtx c).frozen = s.frozen := rfl

/-! ## setQueue -/

@[simp] theorem State.setQueue_agenda (q : Queue) : (s.setQueue q).agenda = s.agenda := rfl
@[simp] theorem State.setQueue_cur (q : Queue) : (s.setQueue q).cur = s.cur := rfl
@[simp] theorem State.setQueue_tick (q : Queue) : (s.setQueue q).tick = s.tick := rfl
@[simp] theorem State.setQueue_now (q : Queue) : (s.setQueue q).now = s.now := rfl
@[simp] theorem State.setQueue_cycle (q : Queue) : (s.setQueue q).cycle = s.cycle := rfl
@[simp] theorem State.setQueue_podTime (q : Queue) : (s.setQueue q).podTime = s.podTime := rfl
@[simp] theorem State.setQueue_teams (q : Queue) : (s.setQueue q).teams = s.teams := rfl
@[simp] theorem State.setQueue_cohorts (q : Queue) : (s.setQueue q).cohorts = s.cohorts := rfl
@[simp] theorem State.setQueue_gangs (q : Queue) : (s.setQueue q).gangs = s.gangs := rfl
@[simp] theorem State.setQueue_kernels (q : Queue) : (s.setQueue q).kernels = s.kernels := rfl
@[simp] theorem State.setQueue_queues (q : Queue) : (s.setQueue q).queues = s.queues.map fun x => if x.ctx = q.ctx && x.num = q.num then q else x := rfl
@[simp] theorem State.setQueue_slots (q : Queue) : (s.setQueue q).slots = s.slots := rfl
@[simp] theorem State.setQueue_ctxs (q : Queue) : (s.setQueue q).ctxs = s.ctxs := rfl
@[simp] theorem State.setQueue_cores (q : Queue) : (s.setQueue q).cores = s.cores := rfl
@[simp] theorem State.setQueue_tlbs (q : Queue) : (s.setQueue q).tlbs = s.tlbs := rfl
@[simp] theorem State.setQueue_mem (q : Queue) : (s.setQueue q).mem = s.mem := rfl
@[simp] theorem State.setQueue_lineKey (q : Queue) : (s.setQueue q).lineKey = s.lineKey := rfl
@[simp] theorem State.setQueue_tags (q : Queue) : (s.setQueue q).tags = s.tags := rfl
@[simp] theorem State.setQueue_dieCopies (q : Queue) : (s.setQueue q).dieCopies = s.dieCopies := rfl
@[simp] theorem State.setQueue_reqs (q : Queue) : (s.setQueue q).reqs = s.reqs := rfl
@[simp] theorem State.setQueue_nextTag (q : Queue) : (s.setQueue q).nextTag = s.nextTag := rfl
@[simp] theorem State.setQueue_directory (q : Queue) : (s.setQueue q).directory = s.directory := rfl
@[simp] theorem State.setQueue_ingress (q : Queue) : (s.setQueue q).ingress = s.ingress := rfl
@[simp] theorem State.setQueue_egress (q : Queue) : (s.setQueue q).egress = s.egress := rfl
@[simp] theorem State.setQueue_revoking (q : Queue) : (s.setQueue q).revoking = s.revoking := rfl
@[simp] theorem State.setQueue_inbound (q : Queue) : (s.setQueue q).inbound = s.inbound := rfl
@[simp] theorem State.setQueue_msc (q : Queue) : (s.setQueue q).msc = s.msc := rfl
@[simp] theorem State.setQueue_bloom (q : Queue) : (s.setQueue q).bloom = s.bloom := rfl
@[simp] theorem State.setQueue_hot (q : Queue) : (s.setQueue q).hot = s.hot := rfl
@[simp] theorem State.setQueue_hthresh (q : Queue) : (s.setQueue q).hthresh = s.hthresh := rfl
@[simp] theorem State.setQueue_uePorts (q : Queue) : (s.setQueue q).uePorts = s.uePorts := rfl
@[simp] theorem State.setQueue_spanPorts (q : Queue) : (s.setQueue q).spanPorts = s.spanPorts := rfl
@[simp] theorem State.setQueue_ueOut (q : Queue) : (s.setQueue q).ueOut = s.ueOut := rfl
@[simp] theorem State.setQueue_spanOut (q : Queue) : (s.setQueue q).spanOut = s.spanOut := rfl
@[simp] theorem State.setQueue_flitsOut (q : Queue) : (s.setQueue q).flitsOut = s.flitsOut := rfl
@[simp] theorem State.setQueue_svcQ (q : Queue) : (s.setQueue q).svcQ = s.svcQ := rfl
@[simp] theorem State.setQueue_sessions (q : Queue) : (s.setQueue q).sessions = s.sessions := rfl
@[simp] theorem State.setQueue_regions (q : Queue) : (s.setQueue q).regions = s.regions := rfl
@[simp] theorem State.setQueue_keys (q : Queue) : (s.setQueue q).keys = s.keys := rfl
@[simp] theorem State.setQueue_replaced (q : Queue) : (s.setQueue q).replaced = s.replaced := rfl
@[simp] theorem State.setQueue_disabled (q : Queue) : (s.setQueue q).disabled = s.disabled := rfl
@[simp] theorem State.setQueue_boot (q : Queue) : (s.setQueue q).boot = s.boot := rfl
@[simp] theorem State.setQueue_image (q : Queue) : (s.setQueue q).image = s.image := rfl
@[simp] theorem State.setQueue_fwHash (q : Queue) : (s.setQueue q).fwHash = s.fwHash := rfl
@[simp] theorem State.setQueue_cfgHash (q : Queue) : (s.setQueue q).cfgHash = s.cfgHash := rfl
@[simp] theorem State.setQueue_cfg (q : Queue) : (s.setQueue q).cfg = s.cfg := rfl
@[simp] theorem State.setQueue_frozen (q : Queue) : (s.setQueue q).frozen = s.frozen := rfl

/-! ## bump -/

@[simp] theorem State.bump_agenda : (s.bump).agenda = s.agenda := rfl
@[simp] theorem State.bump_cur : (s.bump).cur = s.cur := rfl
@[simp] theorem State.bump_tick : (s.bump).tick = s.tick + 1 := rfl
@[simp] theorem State.bump_now : (s.bump).now = s.now := rfl
@[simp] theorem State.bump_cycle : (s.bump).cycle = s.cycle := rfl
@[simp] theorem State.bump_podTime : (s.bump).podTime = s.podTime := rfl
@[simp] theorem State.bump_teams : (s.bump).teams = s.teams := rfl
@[simp] theorem State.bump_cohorts : (s.bump).cohorts = s.cohorts := rfl
@[simp] theorem State.bump_gangs : (s.bump).gangs = s.gangs := rfl
@[simp] theorem State.bump_kernels : (s.bump).kernels = s.kernels := rfl
@[simp] theorem State.bump_queues : (s.bump).queues = s.queues := rfl
@[simp] theorem State.bump_slots : (s.bump).slots = s.slots := rfl
@[simp] theorem State.bump_ctxs : (s.bump).ctxs = s.ctxs := rfl
@[simp] theorem State.bump_cores : (s.bump).cores = s.cores := rfl
@[simp] theorem State.bump_tlbs : (s.bump).tlbs = s.tlbs := rfl
@[simp] theorem State.bump_mem : (s.bump).mem = s.mem := rfl
@[simp] theorem State.bump_lineKey : (s.bump).lineKey = s.lineKey := rfl
@[simp] theorem State.bump_tags : (s.bump).tags = s.tags := rfl
@[simp] theorem State.bump_dieCopies : (s.bump).dieCopies = s.dieCopies := rfl
@[simp] theorem State.bump_reqs : (s.bump).reqs = s.reqs := rfl
@[simp] theorem State.bump_nextTag : (s.bump).nextTag = s.nextTag := rfl
@[simp] theorem State.bump_directory : (s.bump).directory = s.directory := rfl
@[simp] theorem State.bump_ingress : (s.bump).ingress = s.ingress := rfl
@[simp] theorem State.bump_egress : (s.bump).egress = s.egress := rfl
@[simp] theorem State.bump_revoking : (s.bump).revoking = s.revoking := rfl
@[simp] theorem State.bump_inbound : (s.bump).inbound = s.inbound := rfl
@[simp] theorem State.bump_msc : (s.bump).msc = s.msc := rfl
@[simp] theorem State.bump_bloom : (s.bump).bloom = s.bloom := rfl
@[simp] theorem State.bump_hot : (s.bump).hot = s.hot := rfl
@[simp] theorem State.bump_hthresh : (s.bump).hthresh = s.hthresh := rfl
@[simp] theorem State.bump_uePorts : (s.bump).uePorts = s.uePorts := rfl
@[simp] theorem State.bump_spanPorts : (s.bump).spanPorts = s.spanPorts := rfl
@[simp] theorem State.bump_ueOut : (s.bump).ueOut = s.ueOut := rfl
@[simp] theorem State.bump_spanOut : (s.bump).spanOut = s.spanOut := rfl
@[simp] theorem State.bump_flitsOut : (s.bump).flitsOut = s.flitsOut := rfl
@[simp] theorem State.bump_svcQ : (s.bump).svcQ = s.svcQ := rfl
@[simp] theorem State.bump_sessions : (s.bump).sessions = s.sessions := rfl
@[simp] theorem State.bump_regions : (s.bump).regions = s.regions := rfl
@[simp] theorem State.bump_keys : (s.bump).keys = s.keys := rfl
@[simp] theorem State.bump_replaced : (s.bump).replaced = s.replaced := rfl
@[simp] theorem State.bump_disabled : (s.bump).disabled = s.disabled := rfl
@[simp] theorem State.bump_boot : (s.bump).boot = s.boot := rfl
@[simp] theorem State.bump_image : (s.bump).image = s.image := rfl
@[simp] theorem State.bump_fwHash : (s.bump).fwHash = s.fwHash := rfl
@[simp] theorem State.bump_cfgHash : (s.bump).cfgHash = s.cfgHash := rfl
@[simp] theorem State.bump_cfg : (s.bump).cfg = s.cfg := rfl
@[simp] theorem State.bump_frozen : (s.bump).frozen = s.frozen := rfl

/-! ## order -/

@[simp] theorem State.order_agenda : (s.order).agenda = s.agenda := rfl
@[simp] theorem State.order_cur : (s.order).cur = s.cur := rfl
@[simp] theorem State.order_tick : (s.order).tick = s.tick := rfl
@[simp] theorem State.order_now : (s.order).now = s.now + 1 := rfl
@[simp] theorem State.order_cycle : (s.order).cycle = s.cycle := rfl
@[simp] theorem State.order_podTime : (s.order).podTime = s.podTime := rfl
@[simp] theorem State.order_teams : (s.order).teams = s.teams := rfl
@[simp] theorem State.order_cohorts : (s.order).cohorts = s.cohorts := rfl
@[simp] theorem State.order_gangs : (s.order).gangs = s.gangs := rfl
@[simp] theorem State.order_kernels : (s.order).kernels = s.kernels := rfl
@[simp] theorem State.order_queues : (s.order).queues = s.queues := rfl
@[simp] theorem State.order_slots : (s.order).slots = s.slots := rfl
@[simp] theorem State.order_ctxs : (s.order).ctxs = s.ctxs := rfl
@[simp] theorem State.order_cores : (s.order).cores = s.cores := rfl
@[simp] theorem State.order_tlbs : (s.order).tlbs = s.tlbs := rfl
@[simp] theorem State.order_mem : (s.order).mem = s.mem := rfl
@[simp] theorem State.order_lineKey : (s.order).lineKey = s.lineKey := rfl
@[simp] theorem State.order_tags : (s.order).tags = s.tags := rfl
@[simp] theorem State.order_dieCopies : (s.order).dieCopies = s.dieCopies := rfl
@[simp] theorem State.order_reqs : (s.order).reqs = s.reqs := rfl
@[simp] theorem State.order_nextTag : (s.order).nextTag = s.nextTag := rfl
@[simp] theorem State.order_directory : (s.order).directory = s.directory := rfl
@[simp] theorem State.order_ingress : (s.order).ingress = s.ingress := rfl
@[simp] theorem State.order_egress : (s.order).egress = s.egress := rfl
@[simp] theorem State.order_revoking : (s.order).revoking = s.revoking := rfl
@[simp] theorem State.order_inbound : (s.order).inbound = s.inbound := rfl
@[simp] theorem State.order_msc : (s.order).msc = s.msc := rfl
@[simp] theorem State.order_bloom : (s.order).bloom = s.bloom := rfl
@[simp] theorem State.order_hot : (s.order).hot = s.hot := rfl
@[simp] theorem State.order_hthresh : (s.order).hthresh = s.hthresh := rfl
@[simp] theorem State.order_uePorts : (s.order).uePorts = s.uePorts := rfl
@[simp] theorem State.order_spanPorts : (s.order).spanPorts = s.spanPorts := rfl
@[simp] theorem State.order_ueOut : (s.order).ueOut = s.ueOut := rfl
@[simp] theorem State.order_spanOut : (s.order).spanOut = s.spanOut := rfl
@[simp] theorem State.order_flitsOut : (s.order).flitsOut = s.flitsOut := rfl
@[simp] theorem State.order_svcQ : (s.order).svcQ = s.svcQ := rfl
@[simp] theorem State.order_sessions : (s.order).sessions = s.sessions := rfl
@[simp] theorem State.order_regions : (s.order).regions = s.regions := rfl
@[simp] theorem State.order_keys : (s.order).keys = s.keys := rfl
@[simp] theorem State.order_replaced : (s.order).replaced = s.replaced := rfl
@[simp] theorem State.order_disabled : (s.order).disabled = s.disabled := rfl
@[simp] theorem State.order_boot : (s.order).boot = s.boot := rfl
@[simp] theorem State.order_image : (s.order).image = s.image := rfl
@[simp] theorem State.order_fwHash : (s.order).fwHash = s.fwHash := rfl
@[simp] theorem State.order_cfgHash : (s.order).cfgHash = s.cfgHash := rfl
@[simp] theorem State.order_cfg : (s.order).cfg = s.cfg := rfl
@[simp] theorem State.order_frozen : (s.order).frozen = s.frozen := rfl

end Sys2Proof.Machine
end

