-- ==== Sys2Proof/Laws/Tables.lean ====
section
/-! SUPPORT. Sparse tables and registers: reads after writes, the canonical form, and lists changed at one place. -/
namespace Sys2Proof.Machine

section
variable {w : Nat}

/-! ## Sparse tables -/

theorem sabove_mono {a b : Nat} (h : a ≤ b) : ∀ {m : Sparse w}, sabove b m = true → sabove a m = true
  | [], _ => rfl
  | (c, _) :: t, hm => by
    simp only [sabove, Bool.and_eq_true, decide_eq_true_eq] at hm ⊢
    exact ⟨by omega, sabove_mono h hm.2⟩

theorem sget_of_sabove {k j : Nat} (h : j ≤ k) : ∀ {m : Sparse w}, sabove k m = true → sget m j = 0
  | [], _ => rfl
  | (c, _) :: t, hm => by
    simp only [sabove, Bool.and_eq_true, decide_eq_true_eq] at hm
    simp only [sget, show c ≠ j by omega, if_false, sget_of_sabove h hm.2]

/-- A write leaves every other entry alone. -/
theorem sget_sset_ne {k j : Nat} (x : BitVec w) (h : j ≠ k) : ∀ m : Sparse w, sget (sset m k x) j = sget m j
  | [] => by
    unfold sset
    split
    · rfl
    · simp [sget, Ne.symm h]
  | (a, y) :: t => by
    unfold sset
    split
    · split
      · rfl
      · simp [sget, Ne.symm h]
    · split
      · rename_i hka
        subst hka
        split
        · simp [sget, Ne.symm h]
        · simp [sget, Ne.symm h]
      · simp only [sget, sget_sset_ne x h t]

/-- In a canonical table, the entry written is the one read. -/
theorem sget_sset_same {k : Nat} (x : BitVec w) : ∀ {m : Sparse w}, swf m = true → sget (sset m k x) k = x
  | [], _ => by
    unfold sset
    split
    · rename_i h; rw [h]; rfl
    · simp [sget]
  | (a, y) :: t, hm => by
    simp only [swf, Bool.and_eq_true] at hm
    unfold sset
    split
    · rename_i hka
      split
      · rename_i h
        have := sget_of_sabove (Nat.le_of_lt hka) hm.1.2
        simp only [sget, show a ≠ k by omega, if_false, this, h]
      · simp [sget]
    · split
      · rename_i hka
        subst hka
        split
        · rename_i h; rw [sget_of_sabove (Nat.le_refl k) hm.1.2, h]
        · simp [sget]
      · rename_i h1 h2
        simp only [sget, show a ≠ k from fun e => h2 e.symm, if_false, sget_sset_same x hm.2]

theorem sabove_sset {a k : Nat} (x : BitVec w) (h : a < k) : ∀ {m : Sparse w}, sabove a m = true → sabove a (sset m k x) = true
  | [], _ => by
    unfold sset
    split
    · rfl
    · simp [sabove, h]
  | (b, y) :: t, hm => by
    have hm' := hm
    simp only [sabove, Bool.and_eq_true, decide_eq_true_eq] at hm
    unfold sset
    split
    · split
      · exact hm'
      · simp [sabove, h, hm.1, hm.2]
    · split
      · split
        · exact hm.2
        · simp [sabove, h, hm.2]
      · simp [sabove, hm.1, sabove_sset x h hm.2]

/-- A write keeps the canonical form. -/
theorem swf_sset (k : Nat) (x : BitVec w) : ∀ {m : Sparse w}, swf m = true → swf (sset m k x) = true
  | [], _ => by
    unfold sset
    split
    · rfl
    · rename_i h; simpa [swf, sabove] using h
  | (a, y) :: t, hm => by
    have hm' := hm
    simp only [swf, Bool.and_eq_true] at hm
    unfold sset
    split
    · rename_i hka
      split
      · exact hm'
      · rename_i hx
        simp only [swf, Bool.and_eq_true, sabove, decide_eq_true_eq]
        exact ⟨⟨by simpa using hx, hka, sabove_mono (Nat.le_of_lt hka) hm.1.2⟩, hm.1, hm.2⟩
    · split
      · rename_i hka
        subst hka
        split
        · exact hm.2
        · rename_i hx
          simp only [swf, Bool.and_eq_true]
          exact ⟨⟨by simpa using hx, hm.1.2⟩, hm.2⟩
      · rename_i h1 h2
        simp only [swf, Bool.and_eq_true]
        exact ⟨⟨hm.1.1, sabove_sset x (by omega) hm.1.2⟩, swf_sset k x hm.2⟩

theorem swf_ssetAll (ws : List (Nat × BitVec w)) : ∀ {m : Sparse w}, swf m = true → swf (ssetAll m ws) = true := by
  induction ws with
  | nil => exact fun h => h
  | cons p t ih => exact fun h => ih (swf_sset p.1 p.2 h)

theorem ssetAll_cons (m : Sparse w) (p : Nat × BitVec w) (ws : List (Nat × BitVec w)) :
    ssetAll m (p :: ws) = ssetAll (sset m p.1 p.2) ws := rfl

theorem ssetAll_append (m : Sparse w) (xs ys : List (Nat × BitVec w)) :
    ssetAll m (xs ++ ys) = ssetAll (ssetAll m xs) ys := List.foldl_append

/-- Writes leave the entries of all other keys alone. -/
theorem sget_ssetAll_ne {k : Nat} (ws : List (Nat × BitVec w)) (h : ∀ p ∈ ws, p.1 ≠ k) :
    ∀ m : Sparse w, sget (ssetAll m ws) k = sget m k := by
  induction ws with
  | nil => exact fun _ => rfl
  | cons p t ih =>
    intro m
    rw [ssetAll_cons, ih fun q hq => h q (List.mem_cons_of_mem _ hq),
      sget_sset_ne p.2 (Ne.symm (h p List.mem_cons_self)) m]

/-- Of writes to different keys, each is read back from a canonical table. -/
theorem sget_ssetAll_mem {k : Nat} {x : BitVec w} (ws : List (Nat × BitVec w)) (hn : (ws.map (·.1)).Nodup)
    (h : (k, x) ∈ ws) : ∀ {m : Sparse w}, swf m = true → sget (ssetAll m ws) k = x := by
  induction ws with
  | nil => cases h
  | cons p t ih =>
    intro m hm
    rw [ssetAll_cons]
    rw [List.map_cons, List.nodup_cons] at hn
    rcases List.mem_cons.mp h with rfl | ht
    · rw [sget_ssetAll_ne t, sget_sset_same x hm]
      intro q hq e
      exact hn.1 (List.mem_map.mpr ⟨q, hq, e⟩)
    · exact ih hn.2 ht (swf_sset p.1 p.2 hm)

theorem sabove_filter {k : Nat} (p : Nat × BitVec w → Bool) : ∀ {m : Sparse w}, sabove k m = true → sabove k (m.filter p) = true
  | [], _ => rfl
  | (a, x) :: t, hm => by
    simp only [sabove, Bool.and_eq_true] at hm
    rw [List.filter_cons]
    split
    · simpa [sabove, sabove_filter p hm.2] using hm.1
    · exact sabove_filter p hm.2

/-- Dropping entries keeps the canonical form. -/
theorem swf_filter (p : Nat × BitVec w → Bool) : ∀ {m : Sparse w}, swf m = true → swf (m.filter p) = true
  | [], _ => rfl
  | (a, x) :: t, hm => by
    simp only [swf, Bool.and_eq_true] at hm
    rw [List.filter_cons]
    split
    · simp only [swf, Bool.and_eq_true]; exact ⟨⟨hm.1.1, sabove_filter p hm.1.2⟩, swf_filter p hm.2⟩
    · exact swf_filter p hm.2

/-- Canonical tables that read alike are equal. -/
theorem swf_ext : ∀ {m n : Sparse w}, swf m = true → swf n = true → (∀ k, sget m k = sget n k) → m = n
  | [], [], _, _, _ => rfl
  | [], (a, x) :: t, _, hn, h => by
    have hx := h a
    simp only [swf, Bool.and_eq_true, bne_iff_ne] at hn
    simp only [sget, if_true] at hx
    exact absurd hx.symm hn.1.1
  | (a, x) :: t, [], hm, _, h => by
    have hx := h a
    simp only [swf, Bool.and_eq_true, bne_iff_ne] at hm
    simp only [sget, if_true] at hx
    exact absurd hx hm.1.1
  | (a, x) :: t, (b, y) :: u, hm, hn, h => by
    simp only [swf, Bool.and_eq_true, bne_iff_ne] at hm hn
    have ha := h a
    have hb := h b
    simp only [sget, if_true] at ha hb
    rcases Nat.lt_trichotomy a b with l | e | g
    · rw [if_neg (by omega), sget_of_sabove (Nat.le_of_lt l) hn.1.2] at ha
      exact absurd ha hm.1.1
    · subst e
      simp only [if_true] at ha
      subst ha
      congr 1
      refine swf_ext hm.2 hn.2 fun k => ?_
      rcases Nat.lt_or_ge a k with l | g
      · have := h k
        simpa [sget, show a ≠ k by omega] using this
      · rw [sget_of_sabove g hm.1.2, sget_of_sabove g hn.1.2]
    · rw [if_neg (by omega), sget_of_sabove (Nat.le_of_lt g) hm.1.2] at hb
      exact absurd hb.symm hn.1.1

end

/-! ## Lists changed at one place -/

section
variable {α : Type} (f : α → α)

@[simp] theorem length_modAt : ∀ (l : List α) (n : Nat), (modAt f l n).length = l.length
  | [], _ => rfl
  | _ :: _, 0 => rfl
  | _ :: t, n + 1 => by simp [modAt, length_modAt t n]

theorem getElem?_modAt : ∀ (l : List α) (n j : Nat), (modAt f l n)[j]? = if n = j then l[j]?.map f else l[j]?
  | [], n, j => by simp [modAt]
  | x :: t, 0, 0 => by simp [modAt]
  | x :: t, 0, j + 1 => by simp [modAt]
  | x :: t, n + 1, 0 => by simp [modAt]
  | x :: t, n + 1, j + 1 => by simp [modAt, getElem?_modAt t n j]

theorem modAt_ne (l : List α) {n j : Nat} (h : j ≠ n) : (modAt f l n)[j]? = l[j]? := by
  rw [getElem?_modAt, if_neg (Ne.symm h)]
theorem modAt_same (l : List α) (n : Nat) : (modAt f l n)[n]? = l[n]?.map f := by rw [getElem?_modAt, if_pos rfl]

theorem mem_modAt {x : α} : ∀ {l : List α} {n : Nat}, x ∈ modAt f l n → x ∈ l ∨ ∃ y ∈ l, x = f y
  | [], _, h => by simp [modAt] at h
  | y :: t, 0, h => by
    rcases List.mem_cons.mp h with rfl | ht
    · exact .inr ⟨y, List.mem_cons_self, rfl⟩
    · exact .inl (List.mem_cons_of_mem _ ht)
  | y :: t, n + 1, h => by
    rcases List.mem_cons.mp h with rfl | ht
    · exact .inl List.mem_cons_self
    · rcases mem_modAt ht with h | ⟨z, hz, e⟩
      · exact .inl (List.mem_cons_of_mem _ h)
      · exact .inr ⟨z, List.mem_cons_of_mem _ hz, e⟩

end

/-! ## Registers -/

@[simp] theorem Regs.wf_zero : Regs.zero.wf = true := rfl

theorem Regs.wf_uset {g : Regs} (h : g.wf = true) (r : Nat) (x : W64) : (g.uset r x).wf = true := by
  simp only [Regs.wf, Bool.and_eq_true] at h ⊢
  exact ⟨⟨⟨h.1.1.1, swf_sset r x h.1.1.2⟩, h.1.2⟩, h.2⟩
theorem Regs.wf_vsetAll {g : Regs} (h : g.wf = true) (ws : List (Nat × W32)) : (g.vsetAll ws).wf = true := by
  simp only [Regs.wf, Bool.and_eq_true] at h ⊢
  exact ⟨⟨⟨swf_ssetAll ws h.1.1.1, h.1.1.2⟩, h.1.2⟩, h.2⟩
theorem Regs.wf_usetAll {g : Regs} (h : g.wf = true) (ws : List (Nat × W64)) : (g.usetAll ws).wf = true := by
  simp only [Regs.wf, Bool.and_eq_true] at h ⊢
  exact ⟨⟨⟨h.1.1.1, swf_ssetAll ws h.1.1.2⟩, h.1.2⟩, h.2⟩
theorem Regs.wf_xsetAll {g : Regs} (h : g.wf = true) (ws : List (Nat × Byte)) : (g.xsetAll ws).wf = true := by
  simp only [Regs.wf, Bool.and_eq_true] at h ⊢
  exact ⟨h.1, swf_ssetAll ws h.2⟩
theorem Regs.wf_pset {g : Regs} (h : g.wf = true) (n : Nat) (m b : Mask) : (g.pset n m b).wf = true := by
  unfold Regs.pset
  split
  · exact h
  · simp only [Regs.wf, Bool.and_eq_true] at h ⊢
    exact ⟨⟨h.1.1, swf_sset n _ h.1.2⟩, h.2⟩
theorem Regs.wf_psetAll (ws : List (Nat × Mask × Mask)) : ∀ {g : Regs}, g.wf = true → (g.psetAll ws).wf = true := by
  induction ws with
  | nil => exact fun h => h
  | cons p t ih => exact fun h => ih (Regs.wf_pset h p.1 p.2.1 p.2.2)
/-- Writes keep the canonical form of the registers. -/
theorem Regs.wf_apply {g : Regs} (h : g.wf = true) (w : Writes) : (g.apply w).wf = true :=
  Regs.wf_xsetAll (Regs.wf_psetAll w.p (Regs.wf_usetAll (Regs.wf_vsetAll h w.v) w.u)) w.x

theorem Regs.uget_uset_ne (g : Regs) {r k : Nat} (x : W64) (h : k ≠ r) : (g.uset r x).uget k = g.uget k :=
  sget_sset_ne x h g.u
theorem Regs.uget_uset {g : Regs} (h : g.wf = true) (r : Nat) (x : W64) : (g.uset r x).uget r = x := by
  simp only [Regs.wf, Bool.and_eq_true] at h
  exact sget_sset_same x h.1.1.2

@[simp] theorem Regs.apply_none (g : Regs) : g.apply Writes.none = g := rfl
@[simp] theorem Regs.apply_ofU (g : Regs) (r : Nat) (x : W64) : g.apply (Writes.ofU r x) = g.uset r x := rfl
@[simp] theorem Regs.apply_ofV (g : Regs) (ws : List (Nat × W32)) : g.apply (Writes.ofV ws) = g.vsetAll ws := rfl
@[simp] theorem Regs.apply_ofP (g : Regs) (n : Nat) (m b : Mask) : g.apply (Writes.ofP n m b) = g.pset n m b := by
  simp [Regs.apply, Regs.psetAll, Writes.ofP, Writes.none, Regs.vsetAll, Regs.usetAll, Regs.xsetAll, ssetAll]

/-! ## Lanes of a mask -/

theorem mem_lanesOf {m : Mask} {l : Nat} : l ∈ lanesOf m ↔ m.getLsbD l = true := by
  unfold lanesOf maskTop
  rw [List.mem_filter, List.mem_range]
  refine ⟨fun h => h.2, fun h => ⟨?_, h⟩⟩
  have hz : m ≠ 0 := by rintro rfl; simp at h
  rw [if_neg hz]
  have ht : m.toNat.testBit l = true := h
  have hle := Nat.ge_two_pow_of_testBit ht
  have hn : m.toNat ≠ 0 := fun e => hz (BitVec.eq_of_toNat_eq (e.trans (BitVec.toNat_zero (w := 1024)).symm))
  have := (Nat.le_log2 hn).mpr hle
  omega

theorem lanesOf_lt {m : Mask} {l : Nat} (h : l ∈ lanesOf m) : l < 1024 := BitVec.lt_of_getLsbD (mem_lanesOf.mp h)

theorem nodup_lanesOf (m : Mask) : (lanesOf m).Nodup := List.nodup_range.filter _

end Sys2Proof.Machine
end

