-- ==== Sys2Proof/Laws/Issue.lean ====
section
/-! SUPPORT. What the shared operations of issue do: the team that issues, the end of an instruction, waits, and an instruction
whose inputs are all ready. -/
namespace Sys2Proof.Machine

/-! ## The team that issues -/

/-- What `issuing` finds: the team stands in the state, may issue, and runs. -/
theorem issuing_some {s : State} {h : Here} (hi : issuing s = some h) :
    ∃ tm, s.teams[h.t]? = some tm ∧ h.tm = { tm with status := .running, before := none } ∧ h.t = s.cur ∧ canIssue s h.t tm = true
      ∧ s.cohorts[h.tm.cohort]? = some h.co ∧ s.gangs[h.g]? = some h.ga ∧ h.co.gang = h.g
      ∧ s.kernels[h.k]? = some h.ke ∧ h.ga.kernel = h.k ∧ s.ctx? h.ke.ctx = some h.cx ∧ h.cx.asid = some h.asid
      ∧ h.core = coreOf h.ga h.co := by
  unfold issuing here at hi
  simp only [Option.bind_eq_some_iff] at hi
  obtain ⟨h0, ⟨tm, ht, co, hco, ga, hga, ke, hke, cx, hcx, asid, has, he⟩, hc⟩ := hi
  injection he with he
  split at hc
  · rename_i hcan
    injection hc with hc
    subst hc; subst he
    exact ⟨tm, ht, rfl, rfl, hcan, hco, hga, rfl, hke, rfl, hcx, has, rfl⟩
  · cases hc

/-- An instruction word runs for the team that issues. -/
theorem onTeam_issuing {s : State} {h : Here} (hi : issuing s = some h) (f : Here → Outcome State) : onTeam s f = f h := by
  unfold issuing at hi
  unfold onTeam
  cases hh : here s s.cur with
  | none => rw [hh] at hi; cases hi
  | some h0 =>
    rw [hh] at hi
    simp only [Option.bind_some] at hi
    split at hi
    · rename_i hc
      injection hi with hi
      simp only [hc, if_true, hi]
    · cases hi

/-- An instruction word does nothing unless a team can issue it. -/
theorem onTeam_none {s : State} (hi : issuing s = none) (f : Here → Outcome State) :
    onTeam s f = .fault .noTeam ∨ onTeam s f = .fault .notReady := by
  unfold issuing at hi
  unfold onTeam
  cases hh : here s s.cur with
  | none => exact .inl rfl
  | some h0 =>
    rw [hh] at hi
    simp only [Option.bind_some] at hi
    split at hi
    · cases hi
    · rename_i hc
      simp only [hc]
      exact .inr rfl

theorem teamNow_issuing {s : State} {h : Here} (hi : issuing s = some h) : teamNow s h = h.tm := by
  obtain ⟨tm, ht, htm, -⟩ := issuing_some hi
  rw [teamNow, ht, htm]; rfl

/-! ## The end of an instruction -/

theorem marker_noClaims (sw df : Bool) {tm : Team} (hc : tm.claims = []) : marker sw df tm = tm := by
  unfold marker
  cases sw <;> cases df <;> simp [hc]
  cases tm; simp_all

/-- The end of an instruction changes its team and counts time and passes; nothing else. -/
theorem endAt_team (s : State) (h : Here) (sw : Bool) (pc : W64) (cost : List (Nat × Nat)) (tm : Team) (hl : h.t < s.teams.length) :
    ∃ age owed, (endAt s h sw pc cost tm).teams[h.t]? = some (marker sw h.tm.mode.df
      { tm with pc := pc, passes := tm.passes + BitVec.ofNat 64 (costTotal cost), age := age, owed := owed, banks := keepBanks owed tm.banks
                stalled := false, resumed := false }) := by
  refine ⟨(spend s h h.frame cost tm).2.age, (spend s h h.frame cost tm).2.owed, ?_⟩
  show ((spend s h h.frame cost tm).1.teams.set h.t _)[h.t]? = _
  exact List.getElem?_set_self hl

theorem engine_modBench (s : State) (c b : Nat) (f : Bench → Bench) (e : EngRef) : (s.modBench c b f).engine? e = s.engine? e := by
  cases e <;> simp only [State.engine?, State.modBench_cores, getElem?_modAt] <;> split
  case copy.isTrue => rename_i x y hc; subst hc; cases s.cores[c]? <;> rfl
  case sift.isTrue => rename_i x y hc; subst hc; cases s.cores[c]? <;> rfl
  case settle.isTrue => rename_i x hc; subst hc; cases s.cores[c]? <;> rfl
  all_goals rfl

theorem bench_modBench (s : State) (c b c' b' : Nat) (f : Bench → Bench) :
    (s.modBench c b f).bench? c' b' = if c = c' ∧ b = b' then (s.bench? c' b').map f else s.bench? c' b' := by
  simp only [State.bench?, State.modBench_cores, getElem?_modAt]
  by_cases hc : c = c'
  · subst hc
    cases hq : s.cores[c]? with
    | none => simp
    | some x => simp [getElem?_modAt]
  · simp [hc]

theorem endAt_outside (s : State) (h : Here) (sw : Bool) (pc : W64) (cost : List (Nat × Nat)) (tm : Team) :
    Outside h.t s (endAt s h sw pc cost tm) where
  memory _ := rfl
  keys := rfl
  others j hj := by
    simp only [endAt, spend, State.setTeam_teams, State.modBench_teams]
    rw [List.getElem?_set_ne (Ne.symm hj)]
  cohorts := rfl
  gangs := rfl
  kernels := rfl
  queues := rfl
  slots := rfl
  contexts := rfl
  caches c := by
    simp only [endAt, spend, State.setTeam_cores, State.modBench_cores, getElem?_modAt]
    split
    · cases s.cores[c]? <;> exact ⟨rfl, rfl, rfl⟩
    · exact ⟨rfl, rfl, rfl⟩
  engines e := engine_modBench s _ _ _ e
  units c b := by
    have := bench_modBench s h.core h.bench c b fun b =>
      { b with issued := b.issued + (turnCut 0 cost).1
               counts := match rangeOf h.cx.ranges h.frame.pc with
                 | some r => cost.foldl (countWord h.frame h.tm.live r) b.counts
                 | none => b.counts }
    have e : (endAt s h sw pc cost tm).bench? c b = (s.modBench h.core h.bench fun b =>
      { b with issued := b.issued + (turnCut 0 cost).1
               counts := match rangeOf h.cx.ranges h.frame.pc with
                 | some r => cost.foldl (countWord h.frame h.tm.live r) b.counts
                 | none => b.counts }).bench? c b := rfl
    rw [e, this]
    split
    · cases s.bench? c b <;> rfl
    · rfl
  tlbs := rfl
  tags := rfl
  copies := rfl
  requests := rfl
  exports := ⟨rfl, rfl, rfl⟩
  links := ⟨rfl, rfl, rfl, rfl⟩
  agenda := ⟨rfl, rfl⟩
  flits := ⟨rfl, rfl, rfl, rfl⟩
  device := ⟨rfl, rfl, rfl, rfl, rfl, rfl, rfl, rfl, rfl⟩
  bringUp := ⟨rfl, rfl, rfl, rfl, rfl, rfl⟩

/-- An instruction that only ends in `endAt` has acted on its team alone. -/
theorem did_of_endAt {i : Instr} {s : State} {h : Here} {sw : Bool} {tm : Team} {pc : W64} {cost : List (Nat × Nat)}
    (hi : issuing s = some h) (hp : tm.passes = h.tm.passes) (he : exec i s = .next (endAt s h sw pc cost tm)) :
    Did i s h sw tm pc (costTotal cost) := by
  obtain ⟨tm0, ht, -⟩ := issuing_some hi
  obtain ⟨hl, -⟩ := List.getElem?_eq_some_iff.mp ht
  obtain ⟨age, owed, ha⟩ := endAt_team s h sw pc cost tm hl
  rw [hp] at ha
  exact ⟨_, age, owed, he, endAt_outside s h sw pc cost tm, ha⟩

@[simp] theorem costTotal_onePass : costTotal onePass = 1 := rfl

/-! ## Waits -/

theorem pendingOf_nil (ks : List RegKey) : pendingOf [] ks = [] := by simp [pendingOf, isPending]
theorem whenReady_noClaims {s : State} {h : Here} {ks : List RegKey} {k : Outcome State} (hc : h.tm.claims = []) :
    whenReady s h ks k = k := by simp [whenReady, hc, pendingOf_nil]
theorem whenDrained_noClaims {s : State} {h : Here} {k : Outcome State} (hc : h.tm.claims = []) (hr : h.tm.residues = []) :
    whenDrained s h k = k := by simp [whenDrained, hc, hr]
theorem reading_noClaims {s : State} {h : Here} {ks : List RegKey} {k : State → Frame → Outcome State} (hc : h.tm.claims = []) :
    reading s h ks k = k s h.frame := by
  rw [reading, whenReady_noClaims hc]; simp only [hc, List.isEmpty_nil, if_true]; rfl
theorem writeNow_noClaims {s : State} {tm : Team} {w : Writes} (hc : tm.claims = []) :
    writeNow s tm w = (s, { tm with regs := tm.regs.apply w, flags := tm.flags ||| w.flags }) := by
  simp [writeNow, hc]

/-! ## Words and the PC -/

theorem nextPc_encode (i : Instr) (pc : W64) : nextPc pc (litWords i).length = pc + BitVec.ofNat 64 (4 * (encode i).length) := by
  rw [nextPc, encode, List.length_cons]
  congr 2
  omega

/-! ## An instruction whose inputs are ready -/

theorem chained_noResidues {s : State} {h : Here} {f : Frame} {i : Instr} (hr : h.tm.residues = []) : chained s h f i = false := by
  unfold chained
  cases accStream i <;> simp [hr]

theorem isPending_nil (k : RegKey) : isPending [] k = false := rfl

/-- A quiet team issues an instruction at once: ILLEGAL where its check fails, the fault that its check at issue names, else what
`issueNow` does. -/
theorem issueJob_quiet {i : Instr} {sw : Bool} {jf : Frame → Job} {s : State} {h : Here} (hq : Quiet s h) :
    issueJob i sw jf s =
      if !((jf h.frame).ok h.frame && (jf h.frame).spansOk) then illegal s h
      else match (jf h.frame).check h.frame with
        | some code => raise s h code ((jf h.frame).hit h.frame) 0
        | none => issueNow i sw (jf h.frame) s h h.frame ((jf h.frame).lanesIn h.frame) := by
  obtain ⟨hi, hc, hr, -, hs⟩ := hq
  have hf : ({ h.frame with regs := h.tm.regs } : Frame) = h.frame := rfl
  rw [issueJob, onTeam_issuing hi]
  simp only [whenReady_noClaims hc, issueIn, mustDefer, hs, hc, hf, isPending_nil, pendingOf_nil, chained_noResidues hr, Bool.and_false,
    Bool.false_and, Bool.not_false, if_true, List.isEmpty_nil, Bool.and_self]
  try rfl

/-- A fixed-latency instruction of a quiet team that acts on its registers alone. -/
theorem issueNow_pure {i : Instr} {sw : Bool} {j : Job} {s : State} {h : Here} {w : Writes} (hq : Quiet s h)
    (hb : j.badLanes h.frame (j.lanesIn h.frame) = [])
    (hl : j.late = false) (hrun : j.run h h.frame s = .done s w [] [] []) :
    issueNow i sw j s h h.frame (j.lanesIn h.frame) = .next (endAt s h sw (nextPc h.tm.pc (litWords i).length) (j.passes h.frame)
      { h.tm with regs := h.tm.regs.apply w, flags := h.tm.flags ||| w.flags }) := by
  obtain ⟨hi, hc, -, -, -⟩ := hq
  simp only [issueNow, hb, List.isEmpty_nil, Bool.not_true, Bool.false_eq_true, if_false, hrun, settleWrites, hl,
    teamNow_issuing hi, writeNow_noClaims hc, watch, if_true, seenBy, onceActed, whileOpen, Bool.true_or]

end Sys2Proof.Machine
end

