-- ==== Sys2Proof/Laws/Keeps.lean ====
section
/-! SUPPORT. What the shared operations keep: the canonical form of memory and that of the registers of every team. -/
namespace Sys2Proof.Machine

/-- The canonical forms of memory and of registers pass from one state to another. -/
structure Keeps (s s' : State) : Prop where
  memory : MemoryOk s → MemoryOk s'
  registers : RegistersOk s → RegistersOk s'

/-- Reset has both forms. -/
theorem reset_ok : MemoryOk State.reset ∧ RegistersOk State.reset := ⟨rfl, fun _ h => by cases h⟩

theorem Keeps.refl (s : State) : Keeps s s := ⟨id, id⟩
theorem Keeps.trans {a b c : State} (h : Keeps a b) (k : Keeps b c) : Keeps a c :=
  ⟨fun x => k.memory (h.memory x), fun x => k.registers (h.registers x)⟩
/-- Memory and the teams are the same. -/
theorem Keeps.of_eq {s s' : State} (hm : s'.mem = s.mem) (ht : s'.teams = s.teams) : Keeps s s' :=
  ⟨fun h => by unfold MemoryOk; rw [hm]; exact h, fun h => by unfold RegistersOk; rw [ht]; exact h⟩
/-- Memory is the same, and every team has the registers of a team that was there. -/
theorem Keeps.of_regs {s s' : State} (hm : s'.mem = s.mem) (ht : ∀ tm ∈ s'.teams, ∃ t0 ∈ s.teams, tm.regs = t0.regs) : Keeps s s' :=
  ⟨fun h => by unfold MemoryOk; rw [hm]; exact h, fun h tm hx => by obtain ⟨t0, h0, e⟩ := ht tm hx; rw [e]; exact h t0 h0⟩
/-- Teams are changed one by one, and no registers. -/
theorem Keeps.of_map {s s' : State} (f : Team → Team) (hm : s'.mem = s.mem) (ht : s'.teams = s.teams.map f)
    (hf : ∀ tm, (f tm).regs = tm.regs) : Keeps s s' :=
  .of_regs hm fun tm h => by
    rw [ht] at h
    obtain ⟨t0, h0, rfl⟩ := List.mem_map.mp h
    exact ⟨t0, h0, hf t0⟩
/-- Bytes written at home. -/
theorem Keeps.of_mem {s s' : State} (hm : Memory.wf s.mem = true → Memory.wf s'.mem = true) (ht : s'.teams = s.teams) : Keeps s s' :=
  ⟨hm, fun h => by unfold RegistersOk; rw [ht]; exact h⟩

theorem Keeps.foldl {α : Type} {f : State → α → State} (hf : ∀ s x, Keeps s (f s x)) (l : List α) : ∀ s, Keeps s (l.foldl f s) := by
  induction l with
  | nil => exact fun s => .refl s
  | cons x r ih => exact fun s => (hf s x).trans (ih (f s x))
/-- A fold that carries a state beside other things. -/
theorem Keeps.foldl_fst {α β : Type} {f : State × β → α → State × β} (hf : ∀ p x, Keeps p.1 (f p x).1) (l : List α) :
    ∀ p, Keeps p.1 (l.foldl f p).1 := by
  induction l with
  | nil => exact fun p => .refl p.1
  | cons x r ih => exact fun p => (hf p x).trans (ih (f p x))

/-! ## Plain updates -/

theorem Keeps.setTeam {s s' : State} (h : Keeps s s') (t : Nat) {tm : Team} (ht : RegistersOk s → tm.regs.wf = true) :
    Keeps s (s'.setTeam t tm) :=
  ⟨h.memory, fun hr x hx => by
    rcases List.mem_or_eq_of_mem_set hx with hx | rfl
    · exact h.registers hr x hx
    · exact ht hr⟩
theorem Keeps.modTeam (s : State) (t : Nat) {f : Team → Team} (hf : ∀ tm, tm.regs.wf = true → (f tm).regs.wf = true) :
    Keeps s (s.modTeam t f) :=
  ⟨id, fun hr x hx => by
    rcases mem_modAt (f := f) hx with hx | ⟨y, hy, rfl⟩
    · exact hr x hx
    · exact hf y (hr y hy)⟩
theorem Keeps.setCtx (s : State) (c : Ctx) : Keeps s (s.setCtx c) := .of_eq rfl rfl
theorem Keeps.setQueue (s : State) (q : Queue) : Keeps s (s.setQueue q) := .of_eq rfl rfl
theorem Keeps.modCohort (s : State) (c : Nat) (f : Cohort → Cohort) : Keeps s (s.modCohort c f) := .of_eq rfl rfl
theorem Keeps.modGang (s : State) (g : Nat) (f : Gang → Gang) : Keeps s (s.modGang g f) := .of_eq rfl rfl
theorem Keeps.modKernel (s : State) (k : Nat) (f : Kernel → Kernel) : Keeps s (s.modKernel k f) := .of_eq rfl rfl
theorem Keeps.modCore (s : State) (c : Nat) (f : Core → Core) : Keeps s (s.modCore c f) := .of_eq rfl rfl
theorem Keeps.modBench (s : State) (c b : Nat) (f : Bench → Bench) : Keeps s (s.modBench c b f) := .of_eq rfl rfl
theorem Keeps.bump (s : State) : Keeps s s.bump := .of_eq rfl rfl
theorem Keeps.modEngine (s : State) (e : EngRef) (f : Engine → Engine) : Keeps s (s.modEngine e f) := by
  cases e
  case matrix => exact .refl s
  all_goals exact .of_eq rfl rfl

/-! ## Memory at home -/

theorem Keeps.wakeLines (s : State) (ls : List Nat) : Keeps s (wakeLines s ls) :=
  .of_map _ rfl rfl fun tm => by split <;> [split <;> rfl; rfl]
theorem Keeps.homeWriteRaw (s : State) (key : Nat) (ws : List (Nat × Byte)) : Keeps s (homeWriteRaw s key ws) :=
  (Keeps.of_mem (s' := { s with mem := ssetAll s.mem ws, lineKey := _ }) (fun h => swf_ssetAll ws h) rfl).trans (.wakeLines _ _)
theorem Keeps.mscPut (s : State) (line : Nat) : Keeps s (mscPut s line) := .of_eq rfl rfl
theorem Keeps.mscRead (s : State) (line : Nat) : Keeps s (mscRead s line) := .of_eq rfl rfl
theorem Keeps.mscReads (s : State) (ls : List Nat) : Keeps s (mscReads s ls) := .foldl .mscRead ls s
theorem Keeps.noteTails (s : State) (ws : List (Nat × Byte)) : Keeps s (noteTails s ws) := by
  unfold Machine.noteTails
  split
  · exact .refl s
  · exact .of_eq rfl rfl
theorem Keeps.noteHeads (s : State) (ws : List (Nat × Byte)) : Keeps s (noteHeads s ws) := by
  unfold Machine.noteHeads
  dsimp only
  split
  · exact .of_eq rfl rfl
  · exact .refl s
theorem Keeps.homeWriteExp (skip : Option Nat) (s : State) (key : Nat) (ws : List (Nat × Byte)) : Keeps s (homeWriteExp skip s key ws) :=
  (Keeps.homeWriteRaw s key ws).trans (.of_eq rfl rfl)
theorem Keeps.homeWriteFrom (skip : Option Nat) (s : State) (key : Nat) (ws : List (Nat × Byte)) : Keeps s (homeWriteFrom skip s key ws) :=
  (((Keeps.homeWriteExp skip s key _).trans (.foldl .mscPut _ _)).trans (.noteTails _ _)).trans (.noteHeads _ _)
theorem Keeps.homeWrite (s : State) (key : Nat) (ws : List (Nat × Byte)) : Keeps s (homeWrite s key ws) := .homeWriteFrom none s key ws
/-- Context records at home follow the state. -/
theorem Keeps.syncRecords (s0 s : State) : Keeps s (syncRecords s0 s) := by
  refine .foldl (fun s _ => ?_) _ s
  split
  · exact .refl s
  · exact .homeWriteRaw _ _ _
theorem Keeps.translate {s s' : State} {quad asid root : Nat} {va : W64} {n : Need} {x : Xlat}
    (h : translate s quad asid root va n = .ok (s', x)) : Keeps s s' := by
  unfold Machine.translate at h
  dsimp only at h
  split at h
  · cases h
  rename_i l _
  split at h
  · cases h
  split at h
  · cases h
  simp only [Except.ok.injEq, Prod.mk.injEq] at h
  obtain ⟨rfl, -⟩ := h
  have w : Keeps s (if pteTouch l.pte n = l.pte then s
      else Machine.mscPut (Machine.homeWriteRaw s 0 (atAddrs l.home (bytesOf 8 (readNat s.mem l.home 8 ||| pteTouch l.pte n))))
        (lineOf l.home)) := by
    split
    · exact .refl s
    · exact (Keeps.homeWriteRaw _ _ _).trans (.mscPut _ _)
  have k : ∀ (u : State) (b : Prop) [Decidable b] (t : List (List TlbEntry)),
      Keeps u (if b then u else { u with tlbs := t }) := fun u b _ t => by
    split
    · exact .refl u
    · exact .of_eq rfl rfl
  exact w.trans (k _ _ _)

/-! ## Fabric requests and the L1 of a core -/

theorem Keeps.wakeCore (s : State) (core : Nat) (ls : List Nat) : Keeps s (wakeCore s core ls) := by
  unfold Machine.wakeCore
  split
  · exact .refl s
  · exact .of_map _ rfl rfl fun tm => by split <;> [split <;> rfl; rfl]
theorem Keeps.sendReq (s : State) (o : ReqOwner) (core key pa : Nat) (va : W64) (l : Mask) (fill sync : Bool) (n : Nat) (op : FabricOp) :
    Keeps s (sendReq s o core key pa va l fill sync n op).1 := .of_eq rfl rfl
theorem Keeps.diePut (s : State) (c : DieCopy) : Keeps s (diePut s c) := .of_eq rfl rfl
theorem Keeps.closeFills (s : State) (die : Nat) (p : Nat → Bool) : Keeps s (closeFills s die p) := .of_eq rfl rfl
theorem Keeps.dieWrite (s : State) (o : ReqOwner) (core key line : Nat) (who : List (Nat × Author)) (sync : Bool) (ws : List (Nat × Byte)) :
    Keeps s (dieWrite s o core key line who sync ws).1 := by
  unfold Machine.dieWrite
  dsimp only
  refine Keeps.trans ?_ (Keeps.foldl_fst (β := List Nat) (fun _ _ => by dsimp only; exact .sendReq _ _ _ _ _ _ _ _ _ _ _) _ (_, []))
  exact .of_eq rfl rfl
theorem Keeps.forwardLine (s : State) (core : Nat) (x : L1Line) (ws : List (Nat × Byte)) : Keeps s (forwardLine s core x ws) :=
  .foldl (fun _ _ => .dieWrite _ _ _ _ _ _ _ _) _ s
theorem Keeps.writeBackPart (s : State) (core : Nat) (x : L1Line) (p : Nat → Bool) : Keeps s (writeBackPart s core x p) := by
  unfold Machine.writeBackPart
  split
  · exact .refl s
  · dsimp only
    split
    · exact (Keeps.forwardLine _ _ _ _).trans (.modCore _ _ _)
    · exact (Keeps.homeWrite _ _ _).trans (.modCore _ _ _)
theorem Keeps.writeBackLine (s : State) (core : Nat) (x : L1Line) : Keeps s (writeBackLine s core x) := .writeBackPart _ _ _ _
theorem Keeps.writeBackWhere (s : State) (core : Nat) (p : L1Line → Bool) : Keeps s (writeBackWhere s core p) := by
  unfold Machine.writeBackWhere
  split
  · exact .foldl (fun _ _ => .writeBackLine _ _ _) _ s
  · exact .refl s
theorem Keeps.writeBackBytes (s : State) (core : Nat) (p : L1Line → Bool) (b : Nat → Bool) : Keeps s (writeBackBytes s core p b) := by
  unfold Machine.writeBackBytes
  split
  · exact .foldl (fun _ _ => .writeBackPart _ _ _ _) _ s
  · exact .refl s
theorem Keeps.clearCore (s : State) (core asid : Nat) : Keeps s (clearCore s core asid) := .writeBackWhere _ _ _
theorem Keeps.dropClean (s : State) (core : Nat) (p : L1Line → Bool) : Keeps s (dropClean s core p) := by
  unfold Machine.dropClean
  split
  · exact (Keeps.modCore _ _ _).trans (.wakeCore _ _ _)
  · exact .refl s
theorem Keeps.selfInvalidate (s : State) (core asid : Nat) : Keeps s (selfInvalidate s core asid) := .dropClean _ _ _
theorem Keeps.dropLines (s : State) (core : Nat) (p : L1Line → Bool) : Keeps s (dropLines s core p) := by
  unfold Machine.dropLines
  split
  · exact (Keeps.modCore _ _ _).trans (.wakeCore _ _ _)
  · exact .refl s
theorem Keeps.fillLine (s : State) (core asid : Nat) (priv : Bool) (line : Nat) : Keeps s (fillLine s core asid priv line) := by
  unfold Machine.fillLine
  split
  · split
    · split
      · exact .refl s
      · exact .modCore _ _ _
    · split
      · exact .modCore _ _ _
      · exact .refl s
  · split
    · exact .modCore _ _ _
    · exact .refl s
theorem Keeps.l1Store (s : State) (core asid : Nat) (priv : Bool) (line : Nat) (ws : List (Nat × Byte)) (who : List (Nat × Author)) :
    Keeps s (l1Store s core asid priv line ws who) := .modCore _ _ _
theorem Keeps.l1Update (s : State) (core : Nat) (ws : List (Nat × Byte)) : Keeps s (l1Update s core ws) := by
  refine .foldl (fun s _ => ?_) ws s
  split
  · split
    · exact .refl s
    · exact .modCore _ _ _
  · exact .refl s
theorem Keeps.l1Clean (s : State) (core : Nat) (ws : List (Nat × Byte)) : Keeps s (l1Clean s core ws) := by
  refine .foldl (fun s _ => ?_) ws s
  split
  · exact .modCore _ _ _
  · exact .refl s

/-! ## Acquire and release -/

theorem Keeps.dieDrop (s : State) (die : Nat) (p : Nat → Bool) : Keeps s (dieDrop s die p) := .of_eq rfl rfl
theorem Keeps.tagged (s : State) (t : List Tag) : Keeps s { s with tags := t } := .of_eq rfl rfl
theorem Keeps.setTag (s : State) (t : Tag) : Keeps s (setTag s t) := .of_eq rfl rfl
theorem Keeps.clearTag (s : State) (t : Tag) (b : Option Nat) : Keeps s (clearTag s t b) := by
  unfold Machine.clearTag
  split
  · split
    · exact .refl s
    · exact (Keeps.clearCore _ _ _).trans (.setTag _ _)
  · exact .refl s
theorem Keeps.releaseLine (s : State) (core asid : Nat) (sc : Scope) (line : Nat) (ws : List (Nat × Byte)) :
    Keeps s (releaseLine s core asid sc line ws) := by
  unfold Machine.releaseLine
  dsimp only
  split
  · exact (((Keeps.clearTag _ _ _).trans (.homeWrite _ _ _)).trans (.l1Update _ _ _)).trans (.setTag _ _)
  · exact ((Keeps.homeWrite _ _ _).trans (.l1Update _ _ _)).trans (.setTag _ _)
theorem Keeps.acquireLine (s : State) (core asid : Nat) (sc : Scope) (line : Nat) : Keeps s (acquireLine s core asid sc line).1 := by
  unfold Machine.acquireLine
  split
  · exact .selfInvalidate _ _ _
  · split
    · exact .refl s
    · split
      · split
        · exact ((Keeps.clearCore _ _ _).trans (.setTag _ _)).trans (.selfInvalidate _ _ _)
        · exact (Keeps.setTag _ _).trans (.selfInvalidate _ _ _)
      · exact .selfInvalidate _ _ _
theorem Keeps.acquirePage (s : State) (core asid page : Nat) : Keeps s (acquirePage s core asid page) :=
  (Keeps.dieDrop s _ _).trans (.selfInvalidate _ _ _)
theorem Keeps.podWriteBack (s : State) (core asid : Nat) : Keeps s (podWriteBack s core asid) := .writeBackWhere _ _ _
theorem Keeps.evictHomeLine (s : State) (line : Nat) : Keeps s (evictHomeLine s line) := by
  unfold Machine.evictHomeLine
  split
  · exact ((Keeps.clearTag _ _ _).trans (Keeps.tagged _ _)).trans (.wakeLines _ _)
  · exact .wakeLines _ _
theorem Keeps.evictL1Line (s : State) (core line : Nat) : Keeps s (evictL1Line s core line) :=
  (Keeps.writeBackWhere _ _ _).trans (.dropLines _ _ _)
theorem Keeps.addClears (s : State) (h : Here) (n : Nat) : Keeps s (addClears s h n) := by
  unfold Machine.addClears
  split
  · exact .refl s
  · exact .modTeam _ _ fun _ => id
theorem Keeps.acquireOn (s : State) (h : Here) (sc : Scope) (line : Nat) : Keeps s (acquireOn s h sc line) := by
  unfold Machine.acquireOn
  split
  · split
    · exact .acquirePage _ _ _ _
    · exact .selfInvalidate _ _ _
  · exact (Keeps.acquireLine _ _ _ _ _).trans (.addClears _ _ _)

/-! ## Walks and the device's own accesses -/

theorem Keeps.acquireEntry (s : State) (core : Option Nat) (pa : Nat) : Keeps s (acquireEntry s core pa) := by
  unfold Machine.acquireEntry
  refine Keeps.trans ?_ (.mscRead _ _)
  split
  · split
    · exact .clearTag _ _ _
    · exact .refl s
  · exact .refl s
theorem Keeps.walkClear (s : State) (core : Option Nat) (root : Nat) (va : W64) : Keeps s (walkClear s core root va) := by
  unfold Machine.walkClear
  dsimp only
  split
  · exact .acquireEntry _ _ _
  · split
    · exact (Keeps.acquireEntry _ _ _).trans (.acquireEntry _ _ _)
    · exact ((Keeps.acquireEntry _ _ _).trans (.acquireEntry _ _ _)).trans (.acquireEntry _ _ _)
theorem Keeps.xlateFor (s : State) (core asid root : Nat) (va : W64) (n : Need) : Keeps s (xlateFor s core asid root va n).1 := by
  unfold Machine.xlateFor
  dsimp only
  have k : Keeps s (if (tlbFind (s.tlbs.getD (quadOf core) []) asid (vpage va)).isSome = true then s
      else Machine.walkClear s core root va) := by
    split
    · exact .refl s
    · exact .walkClear _ _ _ _
  split
  · exact k.trans (.translate ‹_›)
  · exact k
theorem Keeps.devWalk (s : State) (root : Nat) (va : W64) (n : Nat) : Keeps s (devWalk s root va n) :=
  .foldl (fun s _ => by split <;> [exact .walkClear _ _ _ _; exact .refl s]) _ s
theorem Keeps.devSee (s : State) (root : Nat) (va : W64) (n : Nat) : Keeps s (devSee s root va n) :=
  (Keeps.devWalk s root va n).trans (.foldl (fun s _ => by split <;> [exact .mscRead _ _; exact .refl s]) _ _)
theorem Keeps.devWrite (s : State) (c : Ctx) (va : W64) (bs : List Byte) : Keeps s (devWrite s c va bs) := by
  unfold Machine.devWrite
  dsimp only
  split
  · exact (Keeps.devWalk _ _ _ _).trans (.homeWriteExp _ _ _ _)
  · exact .devWalk _ _ _ _

/-! ## Fault records, stopping, handlers -/

theorem Keeps.writeRecord (s : State) (c : Ctx) (b : List Byte) : Keeps s (writeRecord s c b) :=
  (Keeps.devWrite s c _ _).trans (.setCtx _ _)
theorem Keeps.report (s : State) (c : Nat) (b : List Byte) : Keeps s (report s c b) := by
  unfold Machine.report
  split
  · exact .refl s
  · split
    · exact .refl s
    · split
      · exact .writeRecord _ _ _
      · exact .setCtx _ _
theorem Keeps.flushHeld : ∀ (n : Nat) (s : State) (c : Nat), Keeps s (flushHeld n s c)
  | 0, s, _ => .refl s
  | n + 1, s, c => by
    unfold Machine.flushHeld
    split
    · split
      · split
        · exact (Keeps.writeRecord _ _ _).trans (.flushHeld n _ _)
        · exact .refl s
      · exact .refl s
    · exact .refl s
theorem Keeps.flushRings (s : State) : Keeps s (flushRings s) := .foldl (fun s _ => .flushHeld _ s _) _ s
theorem Keeps.dropClaims (s : State) (cs : List Claim) (w : Writes) : Keeps s (dropClaims s cs w).1 :=
  .foldl_fst (fun p x => by
    dsimp only
    split
    · exact .bump _
    · exact .refl _) w.keys (s, cs)
theorem Keeps.yieldLanes (s : State) (cs : List Claim) (k : RegKey) : Keeps s (yieldLanes s cs k).1 :=
  .foldl_fst (fun _ _ => .bump _) _ (s, 0)
theorem Keeps.launch (s : State) (tm : Team) (a : InFlight) (lanes : RegKey → Mask) : Keeps s (launch s tm a lanes).1 :=
  Keeps.foldl_fst (β := List Claim) (fun p k => by dsimp only; exact .yieldLanes _ _ _) a.dests (s, tm.claims)
theorem regs_launch (s : State) (tm : Team) (a : InFlight) (lanes : RegKey → Mask) : (launch s tm a lanes).2.regs = tm.regs := rfl
theorem Keeps.writeNow (s : State) (tm : Team) (w : Writes) : Keeps s (writeNow s tm w).1 := by
  unfold Machine.writeNow
  split
  · exact .refl s
  · exact .dropClaims _ _ _
theorem wf_writeNow (s : State) {tm : Team} (w : Writes) (h : tm.regs.wf = true) : (writeNow s tm w).2.regs.wf = true := by
  unfold Machine.writeNow
  split <;> exact Regs.wf_apply h w
theorem Keeps.spend (s : State) (h : Here) (f : Frame) (cost : List (Nat × Nat)) (tm : Team) : Keeps s (spend s h f cost tm).1 :=
  .of_eq rfl rfl
theorem regs_marker (sw df : Bool) (tm : Team) : (marker sw df tm).regs = tm.regs := by
  unfold marker
  repeat' split
  all_goals rfl
theorem Keeps.endAt {s s' : State} (k : Keeps s s') (h : Here) (sw : Bool) (pc : W64) (cost : List (Nat × Nat)) {tm : Team}
    (ht : RegistersOk s → tm.regs.wf = true) : Keeps s (endAt s' h sw pc cost tm) :=
  (k.trans (.spend s' h h.frame cost tm)).setTeam h.t fun hr => by rw [regs_marker]; exact ht hr
theorem Keeps.park {s s' : State} (k : Keeps s s') (h : Here) {tm : Team} (w : Wake) (ht : RegistersOk s → tm.regs.wf = true) :
    Keeps s (park s' h tm w) := k.setTeam h.t ht
theorem Keeps.block {s s' : State} (k : Keeps s s') (h : Here) {tm : Team} (w : Wake) (ht : RegistersOk s → tm.regs.wf = true) :
    Keeps s (block s' h tm w) := k.setTeam h.t ht
/-- A fold that carries a state and a team. -/
theorem foldl_team {α : Type} {f : State × Team → α → State × Team} (hf : ∀ p x, Keeps p.1 (f p x).1)
    (hw : ∀ p x, p.2.regs.wf = true → (f p x).2.regs.wf = true) (l : List α) :
    ∀ p, Keeps p.1 (l.foldl f p).1 ∧ (p.2.regs.wf = true → (l.foldl f p).2.regs.wf = true) := by
  induction l with
  | nil => exact fun p => ⟨.refl p.1, id⟩
  | cons x r ih => exact fun p => ⟨(hf p x).trans (ih (f p x)).1, fun h => (ih (f p x)).2 (hw p x h)⟩
theorem discardAccess_keeps (s : State) (tm : Team) (a : InFlight) :
    Keeps s (discardAccess s tm a).1 ∧ (tm.regs.wf = true → (discardAccess s tm a).2.regs.wf = true) :=
  foldl_team (fun p x => by dsimp only; split <;> exact .bump _)
    (fun p x h => by dsimp only; split <;> [exact Regs.wf_apply h _; exact h]) a.dests (s, tm)
theorem discardAll_keeps (s : State) (tm : Team) :
    Keeps s (discardAll s tm).1 ∧ (tm.regs.wf = true → (discardAll s tm).2.regs.wf = true) :=
  foldl_team (fun p x => (discardAccess_keeps p.1 p.2 x).1) (fun p x => (discardAccess_keeps p.1 p.2 x).2) tm.inflight (s, tm)
theorem Keeps.withdrawRing (s : State) (t c : Nat) : Keeps s (withdrawRing s t c) := .modCohort _ _ _
theorem Keeps.modBar (s : State) (b : BarRef) (f : Bar → Bar) : Keeps s (s.modBar b f) := by
  unfold State.modBar
  split <;> exact .of_eq rfl rfl
theorem Keeps.settleBar (s : State) (b : BarRef) : Keeps s (settleBar s b) := by
  unfold Machine.settleBar
  split
  · split
    · split <;> exact .modBar _ _ _
    · exact .refl s
  · exact .refl s
theorem Keeps.countArrival (s : State) (b : BarRef) (t : Nat) (g : W32) : Keeps s (countArrival s b t g) := by
  unfold Machine.countArrival
  split
  · split
    · exact .refl s
    · exact (Keeps.modBar _ _ _).trans (.settleBar _ _)
  · exact .refl s
/-- Applying a posted update, where what becomes of a refused one keeps the forms. -/
theorem Keeps.actPost {s u : State} (t : Nat) (p : Post) (hu : Keeps s u) : Keeps s (actPost s t p u) := by
  unfold Machine.actPost
  dsimp only
  split
  · split
    · exact .modCohort _ _ _
    · exact hu
    · exact .refl s
  · split
    · exact .modCohort _ _ _
    · exact hu
    · exact .refl s
  · exact .countArrival _ _ _ _
theorem Keeps.settlePosts (s : State) (t : Nat) : Keeps s (settlePosts s t) := by
  unfold Machine.settlePosts
  split
  · exact (Keeps.modTeam s t (f := fun tm => { tm with posts := [] }) fun _ => id).trans
      (.foldl (fun s p => .actPost t p (.refl s)) _ _)
  · exact .refl s
theorem Keeps.stopTeam {s s' : State} (k : Keeps s s') (h : Here) {tm : Team} (f : FaultInfo) (st : Status)
    (ht : RegistersOk s → tm.regs.wf = true) : Keeps s (stopTeam s' h tm f st) :=
  Keeps.trans (b := ((discardAll (Machine.withdrawRing s' h.t tm.cohort) tm).1).setTeam h.t
      { (discardAll (Machine.withdrawRing s' h.t tm.cohort) tm).2 with status := st, fault := some f })
    (((k.trans (.withdrawRing s' h.t tm.cohort)).trans (discardAll_keeps _ tm).1).setTeam h.t fun hr =>
      (discardAll_keeps _ tm).2 (ht hr)) (.settlePosts _ h.t)
theorem wf_handlerRegs {g : Regs} (h : g.wf = true) (c : Byte) (i : BitVec 24) (a b d : W64) : (handlerRegs g c i a b d).wf = true :=
  Regs.wf_usetAll h _
theorem wf_trapRegs {g : Regs} (h : g.wf = true) (r : TrapRec) : (trapRegs g r).wf = true := Regs.wf_usetAll h _
theorem Keeps.enterHandler {s s' : State} (k : Keeps s s') (h : Here) {tm : Team} (c : Byte) (i : BitVec 24) (m : Mask) (a b d : W64)
    (ht : RegistersOk s → tm.regs.wf = true) : Keeps s (enterHandler s' h tm c i m a b d) := by
  unfold Machine.enterHandler
  split
  · exact (k.stopTeam h _ _ ht).trans (.report _ _ _)
  · exact k.setTeam h.t fun hr => wf_handlerRegs (ht hr) _ _ _ _ _
/-- Taking a fault keeps both forms, where the team's registers have theirs. -/
theorem Keeps.takeFault {s s' : State} (k : Keeps s s') (h : Here) {tm : Team} (f : FaultInfo) (pc : W64)
    (ht : RegistersOk s → tm.regs.wf = true) : Keeps s (takeFault s' h tm f pc) := by
  unfold Machine.takeFault
  split
  · split
    · exact k.enterHandler h _ _ _ _ _ _ ht
    · exact k.setTeam h.t ht
  · split
    · exact k.stopTeam h f _ ht
    · exact (k.stopTeam h f _ ht).trans (.report _ _ _)
theorem wf_takeEntry {tm : Team} (e : Entry) (h : tm.regs.wf = true) : (takeEntry tm e).regs.wf = true := by
  unfold takeEntry
  split
  · exact wf_trapRegs h _
  all_goals exact h
theorem wf_popLive : ∀ (l : List Entry) {tm : Team}, tm.regs.wf = true → (popLive l tm).regs.wf = true
  | [], _, h => h
  | e :: r, tm, h => by
    unfold popLive
    split
    · exact wf_popLive r h
    · exact wf_takeEntry e h
theorem regs_closeRegion (tm : Team) : (closeRegion tm).regs = tm.regs := by
  unfold closeRegion
  split <;> rfl
theorem wf_resumeTeam {tm : Team} (h : tm.regs.wf = true) : (resumeTeam tm).regs.wf = true := by
  unfold resumeTeam
  dsimp only
  split
  · rw [regs_closeRegion]; exact wf_popLive _ h
  · exact h
theorem Keeps.haltCtx (s : State) (c : Nat) : Keeps s (haltCtx s c) :=
  .of_map _ rfl rfl fun tm => by split <;> [split <;> rfl; rfl]

/-! ## Frames of memory -/

theorem swf_clearRange {m : Sparse 8} (pa n : Nat) (h : swf m = true) : swf (clearRange m pa n) = true := swf_filter _ h
theorem Keeps.writeEntry (s : State) (home pte : Nat) : Keeps s (writeEntry s home pte) := .homeWriteRaw _ _ _
theorem Keeps.dropCopies (s : State) (core : Nat) (p : Nat → Bool) : Keeps s (dropCopies s core p) := by
  unfold Machine.dropCopies
  exact (Keeps.dropLines _ _ _).trans (.modCore _ _ _)
theorem Keeps.onCores (s : State) {f : State → Nat → State} (h : ∀ s c, Keeps s (f s c)) : Keeps s (onCores s f) := .foldl h _ s
theorem Keeps.mapFrame (s : State) (c : Ctx) (home pte : Nat) (fill : List Byte) : Keeps s (mapFrame s c home pte fill) := by
  unfold Machine.mapFrame
  dsimp only
  refine Keeps.trans (Keeps.trans ?_ (.homeWriteRaw _ _ _)) (.writeEntry _ _ _)
  exact (Keeps.onCores s fun _ _ => .dropCopies _ _ _).trans (.of_mem (fun h => swf_clearRange _ _ h) rfl)
theorem Keeps.copyFrame (s : State) (src dst n : Nat) : Keeps s (copyFrame s src dst n) :=
  .of_mem (fun h => swf_ssetAll _ (swf_clearRange _ _ h)) rfl
theorem Keeps.written (s : State) (ws : List (Nat × Byte)) (n : Nat) : Keeps s { s with mem := ssetAll s.mem ws, tick := n } :=
  .of_mem (fun h => swf_ssetAll _ h) rfl
theorem Keeps.loseLines (s : State) (ls : List Nat) : Keeps s (loseLines s ls) := by
  unfold Machine.loseLines
  exact .foldl (fun s _ => .written s _ _) ls s

/-! ## Accesses of a memory instruction -/

theorem Keeps.placePage (s : State) (h : Here) (n : Need) (a : Acc) (va : W64) : Keeps s (placePage s h n a va).1 := by
  unfold Machine.placePage
  split
  · exact .refl s
  · exact .xlateFor _ _ _ _ _ _
theorem Keeps.placeGlob (s : State) (h : Here) (w : Bool) (n : Need) (a : Acc) : Keeps s (placeGlob s h w n a).1 := by
  unfold Machine.placeGlob
  split
  · dsimp only
    split <;> exact .refl s
  · dsimp only
    split
    · exact .placePage _ _ _ _ _
    · exact (Keeps.placePage _ _ _ _ _).trans (.placePage _ _ _ _ _)
theorem Keeps.placeAcc (s : State) (h : Here) (sp : Space) (n : Need) (al : Nat) (a : Acc) : Keeps s (placeAcc s h sp n al a).1 := by
  unfold Machine.placeAcc
  cases sp <;> dsimp only <;> split
  · exact .placeGlob _ _ _ _ _
  · exact .placeGlob _ _ _ _ _
  · exact .refl s
  · exact .refl s
theorem Keeps.placeAll (s : State) (h : Here) (sp : Space) (n : Need) (al : Nat) (as : List Acc) : Keeps s (placeAll s h sp n al as).1 := by
  refine Keeps.foldl_fst (fun p a => ?_) as (s, [], [])
  dsimp only
  split <;> exact .placeAcc _ _ _ _ _ _
theorem Keeps.countBanks (s : State) (t : Nat) (ps : List Placed) : Keeps s (countBanks s t ps) := by
  unfold Machine.countBanks
  split
  · exact .refl s
  · exact (Keeps.foldl (fun _ _ => .modCohort _ _ _) _ s).trans (.modTeam _ _ fun _ => id)
theorem Keeps.fillSpots (s : State) (h : Here) (sp : List Spot) : Keeps s (fillSpots s h sp) := by
  refine .foldl (fun s _ => ?_) _ s
  split
  · dsimp only
    split
    · exact .fillLine _ _ _ _ _
    · exact (Keeps.fillLine _ _ _ _ _).trans (.mscRead _ _)
  · exact .refl s
theorem Keeps.noteImported (s : State) (h : Here) (sp : List Spot) : Keeps s (noteImported s h sp) := by
  unfold Machine.noteImported
  dsimp only
  split
  · exact .refl s
  · exact .modTeam _ _ fun _ => id
theorem Keeps.askLines (s : State) (h : Here) (o : ReqOwner) (m : List Spot) : Keeps s (askLines s h o m).1 := by
  unfold Machine.askLines
  exact Keeps.foldl_fst (β := List (Nat × Nat)) (fun _ _ => by dsimp only; exact .sendReq _ _ _ _ _ _ _ _ _ _ _) _ (s, [])
theorem Keeps.l1Refresh (s : State) (core : Nat) (pas : List Nat) : Keeps s (l1Refresh s core pas) := .l1Clean _ _ _
theorem Keeps.gather (s : State) (h : Here) (o : ReqOwner) (get : State → Here → Spot → Option Byte) (ps : List Placed) :
    Keeps s (gather s h o get ps).1 := .askLines _ _ _ _
theorem Keeps.loadPlaced (s : State) (h : Here) (sync : Option Scope) (ps : List Placed) : Keeps s (loadPlaced s h sync ps).1 := by
  unfold Machine.loadPlaced
  dsimp only
  split
  · exact ((((Keeps.fillSpots _ _ _).trans (.mscReads _ _)).trans (.l1Refresh _ _ _)).trans (.gather _ _ _ _ _)).trans
      (.noteImported _ _ _)
  · exact ((((((Keeps.foldl (fun _ _ => .acquireOn _ _ _ _) _ s).trans (.mscReads _ _)).trans (.l1Refresh _ _ _)).trans
      (.gather _ _ _ _ _)).trans (.noteImported _ _ _)).trans (.foldl (fun _ _ => .acquireOn _ _ _ _) _ _)).trans (.dropClean _ _ _)
theorem Keeps.spadStore (s : State) (c : Nat) (ws : List (Nat × Byte)) : Keeps s (spadStore s c ws) := by
  unfold Machine.spadStore
  split
  · exact .refl s
  · exact .modCohort _ _ _
theorem Keeps.storeLine (s : State) (h : Here) (sync : Option Scope) (line : Nat) (ws : List (Spot × Byte)) :
    Keeps s (storeLine s h sync line ws).1 := by
  unfold Machine.storeLine
  dsimp only
  split
  · split
    · exact .l1Store _ _ _ _ _ _ _
    · split
      · exact (Keeps.dieWrite _ _ _ _ _ _ _ _).trans (.l1Update _ _ _)
      · exact (Keeps.homeWrite _ _ _).trans (.l1Update _ _ _)
  · split
    · exact (Keeps.dieWrite _ _ _ _ _ _ _ _).trans (.l1Update _ _ _)
    · exact .releaseLine _ _ _ _ _ _
theorem Keeps.storePlaced (s : State) (h : Here) (sync : Option Scope) (ps : List (Placed × List Byte)) :
    Keeps s (storePlaced s h sync ps).1 := by
  unfold Machine.storePlaced
  dsimp only
  refine Keeps.trans ?_ (Keeps.foldl_fst (β := List Nat) (fun p l => by dsimp only; exact .storeLine _ _ _ _ _) _ (_, []))
  refine .foldl (fun s _ => ?_) ps s
  split
  · exact .spadStore _ _ _
  · exact .refl s
theorem Keeps.dropElem (s : State) (core pa size : Nat) : Keeps s (dropElem s core pa size) := by
  unfold Machine.dropElem
  refine Keeps.trans ?_ (.dropClean _ _ _)
  split
  · exact (Keeps.dieDrop _ _ _).trans (.diePut _ _)
  · exact .dieDrop _ _ _
theorem Keeps.atomElem (s : State) (h : Here) (k : AtomKind) (sync : Option Scope) (size : Nat) (e : ElemAt) (ps : List Placed) :
    Keeps s (atomElem s h k sync size e ps).1 := by
  unfold Machine.atomElem
  dsimp only
  split
  · exact .spadStore _ _ _
  · split
    · exact (Keeps.dropElem _ _ _ _).trans (.sendReq _ _ _ _ _ _ _ _ _ _ _)
    · split
      · exact (Keeps.homeWrite _ _ _).trans (.l1Clean _ _ _)
      · exact .releaseLine _ _ _ _ _ _
theorem Keeps.atomElems (s : State) (h : Here) (k : AtomKind) (sync : Option Scope) (size : Nat) (ps : List Placed) :
    Keeps s (atomElems s h k sync size ps).1 :=
  Keeps.foldl_fst (β := List (Nat × List PByte) × List Nat) (fun _ _ => by dsimp only; exact .atomElem _ _ _ _ _ _ _) _ (s, [], [])

end Sys2Proof.Machine
end

