-- ==== Sys2Proof/Laws/Lanes.lean ====
section
/-! SUPPORT. What the lane, predicate and uniform writes of an instruction leave in the registers, and what an instruction that
issues as a job does with them. -/
namespace Sys2Proof.Machine

/-! ## Registers of a lane -/

theorem vKey_inj {r l r' l' : Nat} (hl : l < 1024) (hl' : l' < 1024) (h : vKey r l = vKey r' l') : r = r' ∧ l = l' := by
  unfold vKey at h; omega

theorem mem_laneWrites_key {l r n x : Nat} {p : Nat × W32} (h : p ∈ laneWrites l r n x) : ∃ i, i < n ∧ p.1 = vKey (r + i) l := by
  induction n generalizing r x with
  | zero => cases h
  | succ n ih =>
    rcases List.mem_cons.mp h with h | h
    · exact ⟨0, by omega, by rw [h]; rfl⟩
    · obtain ⟨i, hi, e⟩ := ih h
      exact ⟨i + 1, by omega, by rw [e]; congr 1; omega⟩

theorem nodup_laneWrites (l r n x : Nat) : ((laneWrites l r n x).map (·.1)).Nodup := by
  induction n generalizing r x with
  | zero => simp [laneWrites]
  | succ n ih =>
    simp only [laneWrites, List.map_cons, List.nodup_cons, List.mem_map, not_exists, not_and]
    refine ⟨fun p hp e => ?_, ih _ _⟩
    obtain ⟨i, -, hi⟩ := mem_laneWrites_key hp
    rw [hi] at e; unfold vKey at e; omega

/-- A register image is read back as it was written. -/
theorem laneNat_of_writes {g : Regs} {l r n x : Nat} (h : ∀ p ∈ laneWrites l r n x, sget g.v p.1 = p.2) :
    laneNat g l r n = x % 2 ^ (32 * n) := by
  induction n generalizing r x with
  | zero => simp only [laneNat, Nat.mul_zero, Nat.pow_zero, Nat.mod_one]
  | succ n ih =>
    rw [laneNat, ih fun p hp => h p (List.mem_cons_of_mem _ hp), Regs.vget, h _ List.mem_cons_self, BitVec.toNat_ofNat,
      Nat.mod_mod]
    rw [show 32 * (n + 1) = 32 + 32 * n by omega, Nat.pow_add, Nat.mod_mul]

/-- The writes of distinct lanes touch distinct registers. -/
theorem nodup_dstWrites (f : Frame) (d : Dst) (n : Nat) (val : Nat → Nat) :
    ∀ ls : List Nat, ls.Nodup → (∀ l ∈ ls, l < 1024) → ((ls.flatMap fun l => dstWrites f d n l (val l)).map (·.1)).Nodup
  | [], _, _ => by simp
  | l :: ls, hn, hl => by
    rw [List.flatMap_cons, List.map_append, List.nodup_append]
    refine ⟨nodup_laneWrites _ _ _ _, nodup_dstWrites f d n val ls (List.nodup_cons.mp hn).2 fun k hk => hl k (List.mem_cons_of_mem _ hk), ?_⟩
    intro a ha b hb e
    obtain ⟨p, hp, rfl⟩ := List.mem_map.mp ha
    obtain ⟨q, hq, rfl⟩ := List.mem_map.mp hb
    obtain ⟨k, hk, hq⟩ := List.mem_flatMap.mp hq
    obtain ⟨i, -, hi⟩ := mem_laneWrites_key hp
    obtain ⟨j, -, hj⟩ := mem_laneWrites_key hq
    rw [hi, hj] at e
    have := (vKey_inj (hl l List.mem_cons_self) (hl k (List.mem_cons_of_mem _ hk)) e).2
    exact (List.nodup_cons.mp hn).1 (this ▸ hk)

/-- Lane registers written in the lanes that take part (R71): they hold what is written, and nothing else changes. -/
theorem laneResult_of {f : Frame} {d : Dst} {n : Nat} {val : Nat → Nat} {fl : Flags} (hw : f.regs.wf = true) :
    LaneResult f (f.regs.apply { Writes.none with v := f.on.flatMap fun l => dstWrites f d n l (val l), flags := fl }) d n val := by
  have hv : swf f.regs.v = true := by simp only [Regs.wf, Bool.and_eq_true] at hw; exact hw.1.1.1
  refine ⟨fun l hl => laneNat_of_writes fun p hp => ?_, fun r l hl hno => ?_, rfl, rfl, rfl, rfl⟩
  · exact sget_ssetAll_mem _ (nodup_dstWrites f d n val _ (nodup_lanesOf _) fun _ h => lanesOf_lt h)
      (List.mem_flatMap.mpr ⟨l, hl, hp⟩) hv
  · refine sget_ssetAll_ne _ (fun p hp e => hno ?_) _
    obtain ⟨k, hk, hp⟩ := List.mem_flatMap.mp hp
    obtain ⟨i, hi, hpi⟩ := mem_laneWrites_key hp
    rw [hpi] at e
    obtain ⟨e1, e2⟩ := vKey_inj (lanesOf_lt hk) hl e
    subst e2
    exact ⟨hk, by omega, by omega⟩

/-- The bits of the mask of a list of lanes. -/
theorem getLsbD_laneBit {i l : Nat} (h : l < 1024) : (laneBit i).getLsbD l = decide (i = l) := by
  simp only [laneBit, BitVec.getLsbD_ofNat, Nat.testBit_two_pow, h, decide_true, Bool.true_and]

theorem getLsbD_maskOf {ls : List Nat} {l : Nat} (h : l < 1024) : (maskOf ls).getLsbD l = ls.contains l := by
  have : ∀ (ls : List Nat) (m : Mask), (ls.foldl (fun m l => m ||| laneBit l) m).getLsbD l = (m.getLsbD l || ls.contains l) := by
    intro ls
    induction ls with
    | nil => simp
    | cons k ls ih =>
      intro m
      rw [List.foldl_cons, ih, BitVec.getLsbD_or, getLsbD_laneBit h, List.contains_cons, Bool.or_assoc]
      have : decide (k = l) = (l == k) := by
        by_cases e : k = l
        · simp [e]
        · simp [e, Ne.symm e]
      rw [this]
  simpa [maskOf] using this ls 0

theorem Regs.pget_pset {g : Regs} (hw : g.wf = true) {p : Nat} (hp : p ≠ 0) (m b : Mask) :
    (g.pset p m b).pget p = (g.pget p &&& ~~~m) ||| (b &&& m) := by
  simp only [Regs.wf, Bool.and_eq_true] at hw
  simp only [Regs.pget, Regs.pset, hp, if_false]
  exact sget_sset_same _ hw.1.2

theorem Regs.pget_pset_ne (g : Regs) {p q : Nat} (h : q ≠ p) (m b : Mask) : (g.pset p m b).pget q = g.pget q := by
  unfold Regs.pget Regs.pset
  split
  · rfl
  · split
    · rfl
    · exact sget_sset_ne _ h _

/-- A predicate written in the lanes of a mask (R34, R71). -/
theorem predResult_of {f : Frame} {p : PReg} {val : Nat → Bool} {b : Mask} (hw : f.regs.wf = true)
    (hb : ∀ l ∈ f.on, b.getLsbD l = val l) : PredResult f (f.regs.pset p.val f.part b) p val := by
  have hv : (f.regs.pset p.val f.part b).v = f.regs.v := by unfold Regs.pset; split <;> rfl
  have hu : (f.regs.pset p.val f.part b).u = f.regs.u := by unfold Regs.pset; split <;> rfl
  have hx : (f.regs.pset p.val f.part b).x = f.regs.x := by unfold Regs.pset; split <;> rfl
  have hwin : (f.regs.pset p.val f.part b).win = f.regs.win := by unfold Regs.pset; split <;> rfl
  refine ⟨fun l hl => ?_, fun q l hl hno => ?_, hv, hu, hx, hwin⟩
  · have hlt := lanesOf_lt hl
    by_cases hp : p.val = 0
    · have hp0 : p = 0 := Fin.ext hp
      subst hp0
      have : ((f.regs.pset 0 f.part b).pget 0) = BitVec.allOnes 1024 := by simp [Regs.pget]
      show ((f.regs.pset 0 f.part b).pget 0).getLsbD l = _
      rw [this, BitVec.getLsbD_allOnes]; simp [hlt]
    · rw [Regs.pget_pset hw hp]
      have hm : f.part.getLsbD l = true := mem_lanesOf.mp hl
      have hne : (p = 0) = False := eq_false fun e => hp (by rw [e]; rfl)
      simp [hm, hb l hl, hne]
  · by_cases hq : q = p.val
    · subst hq
      have hm : f.part.getLsbD l = false := by
        cases hm : f.part.getLsbD l with
        | false => rfl
        | true => exact absurd ⟨mem_lanesOf.mpr hm, rfl⟩ hno
      by_cases hp : p.val = 0
      · have e : f.regs.pset p.val f.part b = f.regs := by unfold Regs.pset; rw [if_pos hp]
        rw [e]
      · rw [Regs.pget_pset hw hp, BitVec.getLsbD_or, BitVec.getLsbD_and, BitVec.getLsbD_and, BitVec.getLsbD_not, hm]
        simp only [hl, decide_true, Bool.not_false, Bool.and_true, Bool.and_false, Bool.or_false]
    · rw [Regs.pget_pset_ne _ hq]

/-! ## Jobs -/

theorem team_wf {s : State} {h : Here} (hi : issuing s = some h) (hok : RegistersOk s) : h.tm.regs.wf = true := by
  obtain ⟨tm, ht, htm, -⟩ := issuing_some hi
  rw [htm]; exact hok tm (List.mem_of_getElem? ht)

theorem did1 {i : Instr} {s : State} {h : Here} {sw : Bool} {tm : Team} {pc : W64} (hi : issuing s = some h)
    (he : exec i s = .next (endAt s h sw pc onePass tm)) (hp : tm.passes = h.tm.passes) : Did i s h sw tm pc 1 := by
  have := did_of_endAt hi hp he
  rwa [costTotal_onePass] at this

/-- A ready instruction of a quiet team that acts on its registers and flags alone. -/
theorem computed_of_job {i : Instr} {sw : Bool} {jf : Frame → Job} {s : State} {h : Here} {w : Writes} {post : Regs → Prop}
    {fl : Flags} (hq : Quiet s h) (hr : Ready jf h.frame) (he : exec i s = issueJob i sw jf s) (hl : (jf h.frame).late = false)
    (hrun : (jf h.frame).run h h.frame s = .done s w [] [] []) (hf : w.flags = fl) (hpost : post (h.tm.regs.apply w)) :
    Computed i s h sw fl post := by
  obtain ⟨hok, hsp, hck, hbad⟩ := hr
  have e := issueJob_quiet (i := i) (sw := sw) (jf := jf) hq
  rw [hok, hsp, hck] at e
  simp only [Bool.and_self, Bool.not_true, Bool.false_eq_true, if_false] at e
  rw [issueNow_pure hq hbad hl hrun, nextPc_encode] at e
  exact ⟨_, _, by subst hf; exact did_of_endAt hq.1 rfl (he.trans e), hpost⟩

/-- A ready lane instruction of a quiet team (R71). -/
theorem laneDid_of_job {i : Instr} {sw : Bool} {jf : Frame → Job} {s : State} {h : Here} {d : Dst} {n : Nat}
    {val : Nat → Nat × Flags} (hq : Quiet s h) (hw : RegistersOk s) (hr : Ready jf h.frame) (he : exec i s = issueJob i sw jf s)
    (hl : (jf h.frame).late = false) (hrun : (jf h.frame).run h h.frame s = laneRun d n (fun _ => val) h h.frame s) :
    LaneDid i s h sw d n val := by
  refine computed_of_job hq hr he hl (hrun.trans (by rw [laneRun, Act.writes])) ?_ ?_
  · simp only [flagsOver, List.foldl_map]
  · simp only [List.flatMap_map]
    exact laneResult_of (f := h.frame) (team_wf hq.1 hw)

/-- A ready instruction of a quiet team with a predicate result (R71). -/
theorem predDid_of_job {i : Instr} {sw : Bool} {jf : Frame → Job} {s : State} {h : Here} {p : PReg}
    {val : Nat → Bool × Flags} (hq : Quiet s h) (hw : RegistersOk s) (hr : Ready jf h.frame) (he : exec i s = issueJob i sw jf s)
    (hl : (jf h.frame).late = false) (hrun : (jf h.frame).run h h.frame s = predRun p (fun _ => val) h h.frame s) :
    PredDid i s h sw p val := by
  refine computed_of_job hq hr he hl (hrun.trans (by rw [predRun, Act.writes])) ?_ ?_
  · simp only [flagsOver, List.foldl_map]
  · have : ∀ (b : Mask) (fl : Flags), h.tm.regs.apply { Writes.none with p := [(p.val, h.frame.part, b)], flags := fl } = h.frame.regs.pset p.val h.frame.part b :=
      fun b fl => Regs.apply_ofP _ _ _ _
    rw [this]
    refine predResult_of (team_wf hq.1 hw) fun l hl => ?_
    rw [getLsbD_maskOf (lanesOf_lt hl)]
    cases e : (val l).1
    · simp [e]
    · simp [e, hl]

/-- The registers of an access are all claimed anew where the team has no claim. -/
theorem launchClaims (s : State) (id : Nat) (lanes : RegKey → Mask) (ds : List RegKey) (cs : List Claim) (hp : ∀ c ∈ cs, c.pending = false) :
    ds.foldl (fun (sc : State × List Claim) k =>
        let q := yieldLanes sc.1 [] k
        (q.1, unpend sc.2 k ++ [⟨k, id, false, q.2, lanes k⟩])) (s, cs)
      = (s, cs ++ ds.map fun k => ⟨k, id, false, 0, lanes k⟩) := by
  induction ds generalizing cs with
  | nil => simp
  | cons k ds ih =>
    have hu : unpend cs k = cs := List.filter_eq_self.mpr fun c hc => by simp [hp c hc]
    have hy : yieldLanes s [] k = (s, 0) := rfl
    simp only [List.foldl_cons, hy, hu, List.map_cons]
    rw [ih _ fun c hc => by
      rcases List.mem_append.mp hc with h | h
      · exact hp c h
      · rw [List.mem_singleton.mp h], List.append_assoc, List.singleton_append]

theorem launch_noClaims {s : State} {tm : Team} {a : InFlight} {lanes : RegKey → Mask} (hc : tm.claims = []) :
    launch s tm a lanes = (s, { tm with inflight := tm.inflight ++ [a], claims := a.dests.map fun k => ⟨k, a.id, false, 0, lanes k⟩ }) := by
  have e := launchClaims s a.id lanes a.dests [] fun _ h => nomatch h
  simp only [launch, hc]
  rw [e]; rfl

/-- A ready variable-latency instruction of a quiet team whose writes are known at issue (R155). -/
theorem sentOff_of_job {i : Instr} {sw : Bool} {jf : Frame → Job} {s : State} {h : Here} {w : Writes}
    (hq : Quiet s h) (hr : Ready jf h.frame) (he : exec i s = issueJob i sw jf s) (hl : (jf h.frame).late = true)
    (ht : (jf h.frame).tile s h = none) (hrun : (jf h.frame).run h h.frame s = .done s w [] [] []) :
    SentOff i s h sw ((jf h.frame).writeKeys h.frame ((jf h.frame).lanesIn h.frame)) w := by
  obtain ⟨hok, hsp, hck, hbad⟩ := hr
  obtain ⟨hi, hc, hres, hfl, hst⟩ := hq
  have e := issueJob_quiet (i := i) (sw := sw) (jf := jf) ⟨hi, hc, hres, hfl, hst⟩
  rw [hok, hsp, hck] at e
  simp only [Bool.and_self, Bool.not_true, Bool.false_eq_true, if_false] at e
  simp only [issueNow, hbad, List.isEmpty_nil, Bool.not_true, Bool.false_eq_true, if_false, hrun, settleWrites, hl, if_true,
    teamNow_issuing hi, watch, seenBy, onceActed, whileOpen, Bool.true_or, ht, nextPc_encode] at e
  rw [launch_noClaims (tm := { h.tm with nextId := h.tm.nextId + 1 }) hc] at e
  simp only [hfl, List.nil_append] at e
  exact ⟨_, _, _, did_of_endAt hi rfl (he.trans e), rfl, rfl, rfl, rfl, rfl, rfl⟩

end Sys2Proof.Machine
end

