-- ==== Sys2Proof/Laws/Words.lean ====
section
/-! SUPPORT. The fields of an encoded word, and for every operand and field that decoding its code gives it back. -/
namespace Sys2Proof.Laws

/-! ## Fields of an encoded word -/

theorem mkWord_toNat (sw : Bool) {maj body : Nat} (h : maj < 128) (hb : body < 2 ^ 24) :
    (mkWord sw maj body).toNat = sw.toNat * 2 ^ 31 + maj * 2 ^ 24 + body := by
  have : sw.toNat ≤ 1 := Bool.toNat_le sw
  simp only [mkWord, BitVec.toNat_ofNat]
  omega

theorem fld_body (sw : Bool) {maj body lo n : Nat} (h : maj < 128) (hb : body < 2 ^ 24) (hl : lo + n ≤ 24) :
    fld (mkWord sw maj body).toNat lo n = fld body lo n := by
  rw [mkWord_toNat sw h hb]
  have e : sw.toNat * 2 ^ 31 + maj * 2 ^ 24 + body = body + 2 ^ (lo + n) * (2 ^ (24 - (lo + n)) * (sw.toNat * 2 ^ 7 + maj)) := by
    rw [← Nat.mul_assoc, ← Nat.pow_add, Nat.add_sub_cancel' hl]
    omega
  rw [e]
  simp only [fld]
  rw [Nat.pow_add, Nat.mul_assoc, Nat.add_mul_div_left _ _ (Nat.pow_pos (by omega)), Nat.add_mul_mod_self_left]

theorem bodyR_lt {d a b : Nat} (hd : d < 256) (ha : a < 256) (hb : b < 256) : bodyR d a b < 2 ^ 24 := by
  simp only [bodyR]; omega
theorem bodyM_eq (d a str lit fn : Nat) : bodyM d a str lit fn = bodyR d a (str * 16 + lit * 8 + fn) := by
  simp only [bodyM, bodyR]; omega
theorem fldR_d {d a b : Nat} (hd : d < 256) (ha : a < 256) (hb : b < 256) : fld (bodyR d a b) 16 8 = d := by
  simp only [fld, bodyR]; omega
theorem fldR_a {d a b : Nat} (ha : a < 256) (hb : b < 256) : fld (bodyR d a b) 8 8 = a := by
  simp only [fld, bodyR]; omega
theorem fldR_b {d a b : Nat} (hb : b < 256) : fld (bodyR d a b) 0 8 = b := by
  simp only [fld, bodyR]; omega
theorem fldM_fn {d a str lit fn : Nat} (hf : fn < 8) : fld (bodyR d a (str * 16 + lit * 8 + fn)) 0 3 = fn := by
  simp only [fld, bodyR]; omega
theorem fldM_lit {d a str lit fn : Nat} (hl : lit < 2) (hf : fn < 8) : fld (bodyR d a (str * 16 + lit * 8 + fn)) 3 1 = lit := by
  simp only [fld, bodyR]; omega
theorem fldM_str {d a str lit fn : Nat} (hs : str < 16) (hl : lit < 2) (hf : fn < 8) :
    fld (bodyR d a (str * 16 + lit * 8 + fn)) 4 4 = str := by
  simp only [fld, bodyR]; omega
theorem fldC_f {p f a b : Nat} (hf : f < 32) (ha : a < 256) (hb : b < 256) : fld (bodyR (p * 32 + f) a b) 16 5 = f := by
  simp only [fld, bodyR]; omega
theorem fldC_p {p f a b : Nat} (hp : p < 8) (hf : f < 32) (ha : a < 256) (hb : b < 256) :
    fld (bodyR (p * 32 + f) a b) 21 3 = p := by
  simp only [fld, bodyR]; omega
theorem fldK {d r : Nat} (hr : r < 2 ^ 16) : fld (d * 2 ^ 16 + r) 0 16 = r := by
  simp only [fld]; omega

/-- Decoding of a word by its row of the opcode map: the parts of the word. -/
theorem decodeRaw_parts (sw : Bool) {hi lo body : Nat} (hh : hi < 8) (hl : lo < 16) (hb : body < 2 ^ 24) :
    let w := mkWord sw (16 * hi + lo) body
    fld w.toNat 31 1 = sw.toNat ∧ fld w.toNat 28 3 = hi ∧ fld w.toNat 24 4 = lo := by
  intro w
  have e : w.toNat = sw.toNat * 2 ^ 31 + (16 * hi + lo) * 2 ^ 24 + body := mkWord_toNat sw (by omega) hb
  have : sw.toNat ≤ 1 := Bool.toNat_le sw
  simp only [fld, e]
  omega

theorem toNat_beq_one (b : Bool) : (b.toNat == 1) = b := by cases b <;> rfl

/-! ## Operand codes -/

theorem Src.code_lt (a : Src) : a.code < 256 := by cases a <;> simp only [Src.code] <;> omega
theorem USrc.code_lt (a : USrc) : a.code < 256 := by cases a <;> simp only [USrc.code] <;> omega
theorem Cnt.code_lt (a : Cnt) : a.code < 256 := by cases a <;> simp only [Cnt.code] <;> omega
theorem ASrc.code_lt (a : ASrc) : a.code < 256 := by cases a <;> simp only [ASrc.code] <;> omega
theorem Dst.code_lt (a : Dst) : a.code < 256 := by cases a <;> simp only [Dst.code] <;> omega
theorem Base.code_lt (a : Base) : a.code < 256 := by cases a <;> simp only [Base.code] <;> omega
theorem atomDstCode_lt (a : Option Dst) : atomDstCode a < 256 := by
  cases a with
  | none => decide
  | some d => exact Dst.code_lt d
theorem ringDstCode_lt (a : Option SReg) : ringDstCode a < 256 := by
  cases a <;> simp only [ringDstCode] <;> omega

/-- The literal words that follow give the operand's literal. -/
def SrcAgrees (a : Src) (l : W32 × W32) : Prop :=
  match a with
  | .lit w => l.1 = w
  | .lit64 w => lit2 l.1 l.2 = w
  | _ => True
/-- The same for a uniform source. -/
def USrcAgrees (a : USrc) (l : W32 × W32) : Prop :=
  match a with
  | .lit w => l.1 = w
  | .lit64 w => lit2 l.1 l.2 = w
  | _ => True
/-- The same for a count operand. -/
def CntAgrees (a : Cnt) (l : W32 × W32) : Prop :=
  match a with
  | .lit w => l.1 = w
  | .lit64 w => lit2 l.1 l.2 = w
  | _ => True
/-- The same for the address of `acld`. -/
def ASrcAgrees (a : ASrc) (l : W32 × W32) : Prop :=
  match a with
  | .lit w => l.1 = w
  | .lit64 w => lit2 l.1 l.2 = w
  | _ => True

theorem fin_ofNat_val {n : Nat} [NeZero n] (x : Fin n) : Fin.ofNat n x.val = x := by
  apply Fin.ext
  simp [Fin.ofNat, Nat.mod_eq_of_lt x.isLt]

theorem Src.dec_code (a : Src) {l : W32 × W32} (h : SrcAgrees a l) : Src.dec a.code l.1 l.2 = some a := by
  cases a with
  | v r => simp [Src.code, Src.dec, r.isLt]
  | s r =>
    have : ¬ 192 + r.val < 192 := by omega
    have : 192 + r.val < 224 := by omega
    simp [Src.code, Src.dec, *]
  | lane => rfl
  | team => rfl
  | core => rfl
  | clock => rfl
  | konst n =>
    have h1 : ¬ 232 + n.val < 192 := by omega
    have h2 : ¬ 232 + n.val < 224 := by omega
    have h3 : ¬ 232 + n.val = 224 := by omega
    have h4 : ¬ 232 + n.val = 225 := by omega
    have h5 : ¬ 232 + n.val = 226 := by omega
    have h6 : ¬ 232 + n.val = 227 := by omega
    have h7 : ¬ 232 + n.val < 232 := by omega
    have h8 : 232 + n.val < 240 := by omega
    simp [Src.code, Src.dec, h1, h2, h3, h4, h5, h6, h8]
  | lit w => simp only [SrcAgrees] at h; simp [Src.code, Src.dec, h]
  | lit64 w => simp only [SrcAgrees] at h; simp [Src.code, Src.dec, h]
  | idx n =>
    have h1 : ¬ 244 + n.val < 192 := by omega
    have h2 : ¬ 244 + n.val < 224 := by omega
    have h3 : ¬ 244 + n.val = 224 := by omega
    have h4 : ¬ 244 + n.val = 225 := by omega
    have h5 : ¬ 244 + n.val = 226 := by omega
    have h6 : ¬ 244 + n.val = 227 := by omega
    have h7 : ¬ 244 + n.val < 232 := by omega
    have h8 : ¬ 244 + n.val < 240 := by omega
    have h9 : ¬ 244 + n.val = 240 := by omega
    have h10 : ¬ 244 + n.val = 241 := by omega
    have h11 : 244 + n.val < 248 := by omega
    simp [Src.code, Src.dec, h1, h2, h3, h4, h5, h6, h7, h8, h9, h10, h11]

theorem USrc.dec_code (a : USrc) {l : W32 × W32} (h : USrcAgrees a l) : USrc.dec a.code l.1 l.2 = some a := by
  cases a with
  | s r =>
    have : ¬ 192 + r.val < 192 := by omega
    have : 192 + r.val < 224 := by omega
    simp [USrc.code, USrc.dec, *]
  | team => rfl
  | core => rfl
  | clock => rfl
  | konst n =>
    have h1 : ¬ 232 + n.val < 192 := by omega
    have h2 : ¬ 232 + n.val < 224 := by omega
    have h4 : ¬ 232 + n.val = 225 := by omega
    have h5 : ¬ 232 + n.val = 226 := by omega
    have h6 : ¬ 232 + n.val = 227 := by omega
    have h7 : ¬ 232 + n.val < 232 := by omega
    have h8 : 232 + n.val < 240 := by omega
    simp [USrc.code, USrc.dec, h1, h2, h4, h5, h6, h8]
  | lit w => simp only [USrcAgrees] at h; simp [USrc.code, USrc.dec, h]
  | lit64 w => simp only [USrcAgrees] at h; simp [USrc.code, USrc.dec, h]

theorem Cnt.dec_code (a : Cnt) {l : W32 × W32} (h : CntAgrees a l) : Cnt.dec a.code l.1 l.2 = some a := by
  cases a with
  | s r =>
    have : ¬ 192 + r.val < 192 := by omega
    have : 192 + r.val < 224 := by omega
    simp [Cnt.code, Cnt.dec, *]
  | konst n =>
    have h1 : ¬ 232 + n.val < 192 := by omega
    have h2 : ¬ 232 + n.val < 224 := by omega
    have h7 : ¬ 232 + n.val < 232 := by omega
    have h8 : 232 + n.val < 240 := by omega
    simp [Cnt.code, Cnt.dec, h1, h2, h8]
  | lit w => simp only [CntAgrees] at h; simp [Cnt.code, Cnt.dec, h]
  | lit64 w => simp only [CntAgrees] at h; simp [Cnt.code, Cnt.dec, h]

theorem ASrc.dec_code (a : ASrc) {l : W32 × W32} (h : ASrcAgrees a l) : ASrc.dec a.code l.1 l.2 = some a := by
  cases a with
  | s r =>
    have : ¬ 192 + r.val < 192 := by omega
    have : 192 + r.val < 224 := by omega
    simp [ASrc.code, ASrc.dec, *]
  | lit w => simp only [ASrcAgrees] at h; simp [ASrc.code, ASrc.dec, h]
  | lit64 w => simp only [ASrcAgrees] at h; simp [ASrc.code, ASrc.dec, h]

theorem Dst.dec_code (a : Dst) : Dst.dec a.code = some a := by
  cases a with
  | v r => simp [Dst.code, Dst.dec, r.isLt]
  | idx n =>
    have h1 : ¬ 244 + n.val < 192 := by omega
    have h2 : 244 + n.val < 248 := by omega
    simp [Dst.code, Dst.dec, h1, h2]
theorem Base.dec_code (a : Base) : Base.dec a.code = some a := by
  cases a with
  | v r => simp [Base.code, Base.dec, r.isLt]
  | s r =>
    have h1 : ¬ 192 + r.val < 192 := by omega
    have h2 : 192 + r.val < 224 := by omega
    simp [Base.code, Base.dec, h2]
  | idx n =>
    have h1 : ¬ 244 + n.val < 192 := by omega
    have h2 : ¬ 244 + n.val < 224 := by omega
    have h3 : 244 + n.val < 248 := by omega
    simp [Base.code, Base.dec, h1, h2, h3]
theorem sregDec_code (r : SReg) : sregDec (192 + r.val) = some r := by
  have h : 192 + r.val < 224 := by omega
  simp [sregDec, h]
theorem finDec_val {n : Nat} [NeZero n] (x : Fin n) : finDec n x.val = some x := by
  simp [finDec, x.isLt]
theorem atomDstDec_code (a : Option Dst) : atomDstDec (atomDstCode a) = some a := by
  cases a with
  | none => rfl
  | some d =>
    have h : d.code ≠ 232 := by cases d <;> simp only [Dst.code] <;> omega
    simp [atomDstDec, atomDstCode, h, Dst.dec_code]
theorem ringDstDec_code (a : Option SReg) : ringDstDec (ringDstCode a) = some a := by
  cases a with
  | none => rfl
  | some r =>
    have h : 192 + r.val ≠ 232 := by omega
    simp [ringDstDec, ringDstCode, h, sregDec_code]

/-! ## Codes of the other fields -/

theorem Ty.dec_code (t : Ty) : Ty.dec t.code = some t := by cases t <;> rfl
theorem Ty.code_lt (t : Ty) : t.code < 17 := by cases t <;> decide
theorem Rnd.dec_code (r : Rnd) : Rnd.dec r.code = some r := by cases r <;> rfl
theorem Scope.dec_code (c : Scope) : Scope.dec c.code = some c := by cases c <;> rfl
theorem Scope.code_lt (c : Scope) : c.code < 8 := by cases c <;> decide
theorem Rel.dec_code (r : Rel) : Rel.dec r.code = some r := by cases r <;> rfl
theorem Rel.code_lt (r : Rel) : r.code < 32 := by cases r <;> decide
theorem ClassTest.dec_code (c : ClassTest) : ClassTest.dec c.code = some c := by cases c <;> rfl
theorem ClassTest.code_lt (c : ClassTest) : c.code < 32 := by cases c <;> decide
theorem VoteFn.dec_code (f : VoteFn) : VoteFn.dec f.code = some f := by cases f <;> rfl
theorem VoteFn.code_lt (f : VoteFn) : f.code < 32 := by cases f <;> decide
theorem FenceKind.dec_code (k : FenceKind) : FenceKind.dec k.code = some k := by cases k <;> rfl
theorem FenceKind.code_lt (k : FenceKind) : k.code < 4 := by cases k <;> decide
theorem MemForm.dec_code (m : MemForm) : MemForm.dec m.code = some m := by cases m <;> rfl
theorem MemForm.code_lt (m : MemForm) : m.code < 8 := by cases m <;> decide
theorem AtomFn.dec_code (f : AtomFn) : AtomFn.dec f.code = some f := by cases f <;> rfl
theorem AtomFn.code_lt (f : AtomFn) : f.code < 8 := by cases f <;> decide
theorem PrefLevel.dec_code (l : PrefLevel) : PrefLevel.dec l.code = some l := by cases l <;> rfl
theorem PrefLevel.code_lt (l : PrefLevel) : l.code < 8 := by cases l <;> decide
theorem Extent.dec_code (e : Extent) : Extent.dec e.code = some e := by cases e <;> rfl
theorem Extent.code_lt (e : Extent) : e.code < 8 := by cases e <;> decide
theorem BarLevel.dec_code (l : BarLevel) : BarLevel.dec l.code = some l := by cases l <;> rfl
theorem BarLevel.code_lt (l : BarLevel) : l.code < 8 := by cases l <;> decide
theorem TlCtx.code_lt (c : TlCtx) : c.code < 256 := by cases c <;> simp only [TlCtx.code] <;> omega
theorem TlCtx.dec_code (c : TlCtx) : TlCtx.dec c.code = some c := by
  cases c with
  | copy n => simp [TlCtx.code, TlCtx.dec, n.isLt]
  | sift n =>
    have h1 : ¬ 16 + n.val < 16 := by omega
    have h2 : 16 + n.val < 20 := by omega
    simp [TlCtx.code, TlCtx.dec, h2]
  | matrix => rfl
  | settle => rfl
theorem ModeField.code_lt (f : ModeField) : f.code < 2 ^ 24 := by
  cases f with
  | g gn p => have := Bool.toNat_le gn; simp only [ModeField.code]; omega
  | s p => simp only [ModeField.code]; omega
  | t ty => cases ty <;> decide
  | rnd r => cases r <;> decide
  | sat b => cases b <;> decide
  | ftz b => cases b <;> decide
  | df b => cases b <;> decide
  | sc c => cases c <;> decide
theorem ModeField.dec_code (f : ModeField) : ModeField.dec (fld f.code 20 4) (fld f.code 0 20) = some f := by
  cases f with
  | g gn p => revert p; cases gn <;> decide
  | s p => revert p; decide
  | t ty => cases ty <;> rfl
  | rnd r => cases r <;> rfl
  | sat b => cases b <;> rfl
  | ftz b => cases b <;> rfl
  | df b => cases b <;> rfl
  | sc c => cases c <;> rfl
theorem Csr.code_lt (r : Csr) : r.code < 2 ^ 16 := by cases r <;> simp only [Csr.code] <;> omega
theorem Csr.dec_code (r : Csr) : Csr.dec r.code = some r := by
  cases r with
  | tlcopy n => revert n; decide
  | tlsift n => revert n; decide
  | nxcopy n => revert n; decide
  | nxsift n => revert n; decide
  | _ => rfl
theorem offBit_lt (o : Offset) : offBit o < 2 := by cases o <;> simp [offBit]

/-! ## Literal words -/

theorem lit2_halves (w : W64) : lit2 (w.setWidth 32) ((w >>> 32).setWidth 32) = w := by
  apply BitVec.eq_of_toNat_eq
  simp only [lit2, BitVec.toNat_ofNat, BitVec.toNat_setWidth, BitVec.toNat_ushiftRight, Nat.shiftRight_eq_div_pow]
  have := w.isLt
  omega

theorem src_agrees (a : Src) (r : List W32) : SrcAgrees a (litsOf (a.words ++ r)) := by
  cases a <;> simp [SrcAgrees, Src.words, litsOf, lit2_halves]
  cases r <;> rfl
theorem usrc_agrees (a : USrc) (r : List W32) : USrcAgrees a (litsOf (a.words ++ r)) := by
  cases a <;> simp [USrcAgrees, USrc.words, litsOf, lit2_halves]
  cases r <;> rfl
theorem cnt_agrees (a : Cnt) (r : List W32) : CntAgrees a (litsOf (a.words ++ r)) := by
  cases a <;> simp [CntAgrees, Cnt.words, litsOf, lit2_halves]
  cases r <;> rfl
theorem asrc_agrees (a : ASrc) (r : List W32) : ASrcAgrees a (litsOf (a.words ++ r)) := by
  cases a <;> simp [ASrcAgrees, ASrc.words, litsOf, lit2_halves]
  cases r <;> rfl

theorem Src.words_nil {a : Src} (h : a.lits = 0) : a.words = [] := by cases a <;> simp_all [Src.lits, Src.words]
theorem USrc.words_nil {a : USrc} (h : a.lits = 0) : a.words = [] := by cases a <;> simp_all [USrc.lits, USrc.words]
theorem ASrc.words_nil {a : ASrc} (h : a.lits = 0) : a.words = [] := by cases a <;> simp_all [ASrc.lits, ASrc.words]
theorem src_trivial {a : Src} (l : W32 × W32) (h : a.lits = 0) : SrcAgrees a l := by cases a <;> simp_all [Src.lits, SrcAgrees]
theorem usrc_trivial {a : USrc} (l : W32 × W32) (h : a.lits = 0) : USrcAgrees a l := by cases a <;> simp_all [USrc.lits, USrcAgrees]
theorem asrc_trivial {a : ASrc} (l : W32 × W32) (h : a.lits = 0) : ASrcAgrees a l := by cases a <;> simp_all [ASrc.lits, ASrcAgrees]
theorem Src.lits_le (a : Src) : a.lits ≤ 1 := by cases a <;> simp [Src.lits]
theorem USrc.lits_le (a : USrc) : a.lits ≤ 1 := by cases a <;> simp [USrc.lits]
theorem ASrc.lits_le (a : ASrc) : a.lits ≤ 1 := by cases a <;> simp [ASrc.lits]

/-- Of two operands with at most one literal, both find theirs in the words of the two. -/
theorem src_src {a b : Src} (h : a.lits + b.lits ≤ 1) (r : List W32) :
    SrcAgrees a (litsOf (a.words ++ b.words ++ r)) ∧ SrcAgrees b (litsOf (a.words ++ b.words ++ r)) := by
  rw [List.append_assoc]
  refine ⟨src_agrees a _, ?_⟩
  by_cases hb : b.lits = 0
  · exact src_trivial _ hb
  · have ha : a.lits = 0 := by have := Src.lits_le b; omega
    rw [Src.words_nil ha]
    exact src_agrees b r
theorem usrc_usrc {a b : USrc} (h : a.lits + b.lits ≤ 1) (r : List W32) :
    USrcAgrees a (litsOf (a.words ++ b.words ++ r)) ∧ USrcAgrees b (litsOf (a.words ++ b.words ++ r)) := by
  rw [List.append_assoc]
  refine ⟨usrc_agrees a _, ?_⟩
  by_cases hb : b.lits = 0
  · exact usrc_trivial _ hb
  · have ha : a.lits = 0 := by have := USrc.lits_le b; omega
    rw [USrc.words_nil ha]
    exact usrc_agrees b r
theorem src_usrc {a : Src} {b : USrc} (h : a.lits + b.lits ≤ 1) (r : List W32) :
    SrcAgrees a (litsOf (a.words ++ b.words ++ r)) ∧ USrcAgrees b (litsOf (a.words ++ b.words ++ r)) := by
  rw [List.append_assoc]
  refine ⟨src_agrees a _, ?_⟩
  by_cases hb : b.lits = 0
  · exact usrc_trivial _ hb
  · have ha : a.lits = 0 := by have := USrc.lits_le b; omega
    rw [Src.words_nil ha]
    exact usrc_agrees b r
theorem asrc_usrc {a : ASrc} {b : USrc} (h : a.lits + b.lits ≤ 1) (r : List W32) :
    ASrcAgrees a (litsOf (a.words ++ b.words ++ r)) ∧ USrcAgrees b (litsOf (a.words ++ b.words ++ r)) := by
  rw [List.append_assoc]
  refine ⟨asrc_agrees a _, ?_⟩
  by_cases hb : b.lits = 0
  · exact usrc_trivial _ hb
  · have ha : a.lits = 0 := by have := USrc.lits_le b; omega
    rw [ASrc.words_nil ha]
    exact usrc_agrees b r

theorem litsOf_first (w : W32) (r : List W32) : (litsOf (w :: r)).1 = w := by cases r <;> rfl

/-- The offset of a memory word. -/
theorem offDec_bit (o : Offset) (r : List W32) : offDec (offBit o) (litsOf (offWords o ++ r)).1 = o := by
  cases o with
  | none => rfl
  | some w => cases r <;> rfl
theorem src_off {b : Src} {o : Offset} (h : b.lits + offLits o ≤ 1) (r : List W32) :
    SrcAgrees b (litsOf (b.words ++ offWords o ++ r)) ∧ offDec (offBit o) (litsOf (b.words ++ offWords o ++ r)).1 = o := by
  rw [List.append_assoc]
  refine ⟨src_agrees b _, ?_⟩
  cases o with
  | none => rfl
  | some w =>
    have hb : b.lits = 0 := by simp only [offLits] at h; omega
    rw [Src.words_nil hb]
    cases r <;> rfl
theorem usrc_off {b : USrc} {o : Offset} (h : b.lits + offLits o ≤ 1) (r : List W32) :
    USrcAgrees b (litsOf (b.words ++ offWords o ++ r)) ∧ offDec (offBit o) (litsOf (b.words ++ offWords o ++ r)).1 = o := by
  rw [List.append_assoc]
  refine ⟨usrc_agrees b _, ?_⟩
  cases o with
  | none => rfl
  | some w =>
    have hb : b.lits = 0 := by simp only [offLits] at h; omega
    rw [USrc.words_nil hb]
    cases r <;> rfl

end Sys2Proof.Laws
end

