-- ==== Sys2Proof/Laws/PerInstr.lean ====
section
/-! SUPPORT. Statements made for each instruction. `RoundTrip`: decoding the words of a well-formed instruction gives the
instruction and what follows it. -/
set_option linter.unusedSimpArgs false
namespace Sys2Proof.Laws

theorem roundtrip {i : Instr} {rest : List W32}
    (h : decodeRaw (encodeHead i) (litsOf (litWords i ++ rest)).1 (litsOf (litWords i ++ rest)).2 = some i) (hw : i.wf = true) :
    decodeWords (encode i ++ rest) = some (i, rest) := by
  simp [decodeWords, encode, decodeWord, h, hw]

theorem raw_row0 (sw : Bool) {maj lo body : Nat} {l0 l1 : W32} (hm : maj = 16 * 0 + lo) (hl : lo < 16) (hb : body < 2 ^ 24) :
    decodeRaw (mkWord sw maj body) l0 l1 =
      decRow0 sw lo (mkWord sw maj body).toNat (fld body 16 8) (fld body 8 8) (fld body 0 8) l0 l1 := by
  subst hm
  obtain ⟨h1, h2, h3⟩ := decodeRaw_parts sw (hi := 0) (by decide) hl hb
  simp only [decodeRaw, h1, h2, h3, toNat_beq_one, fld_body sw (show 16 * 0 + lo < 128 by omega) hb (show 16 + 8 ≤ 24 by decide),
    fld_body sw (show 16 * 0 + lo < 128 by omega) hb (show 8 + 8 ≤ 24 by decide),
    fld_body sw (show 16 * 0 + lo < 128 by omega) hb (show 0 + 8 ≤ 24 by decide)]

theorem raw_row1 (sw : Bool) {maj lo body : Nat} {l0 l1 : W32} (hm : maj = 16 * 1 + lo) (hl : lo < 16) (hb : body < 2 ^ 24) :
    decodeRaw (mkWord sw maj body) l0 l1 =
      decRow1 sw lo (mkWord sw maj body).toNat (fld body 16 8) (fld body 8 8) (fld body 0 8) l0 l1 := by
  subst hm
  obtain ⟨h1, h2, h3⟩ := decodeRaw_parts sw (hi := 1) (by decide) hl hb
  simp only [decodeRaw, h1, h2, h3, toNat_beq_one, fld_body sw (show 16 * 1 + lo < 128 by omega) hb (show 16 + 8 ≤ 24 by decide),
    fld_body sw (show 16 * 1 + lo < 128 by omega) hb (show 8 + 8 ≤ 24 by decide),
    fld_body sw (show 16 * 1 + lo < 128 by omega) hb (show 0 + 8 ≤ 24 by decide)]

theorem raw_row2 (sw : Bool) {maj lo body : Nat} {l0 l1 : W32} (hm : maj = 16 * 2 + lo) (hl : lo < 16) (hb : body < 2 ^ 24) :
    decodeRaw (mkWord sw maj body) l0 l1 =
      decRow2 sw lo (mkWord sw maj body).toNat (fld body 16 8) (fld body 8 8) (fld body 0 8) l0 l1 := by
  subst hm
  obtain ⟨h1, h2, h3⟩ := decodeRaw_parts sw (hi := 2) (by decide) hl hb
  simp only [decodeRaw, h1, h2, h3, toNat_beq_one, fld_body sw (show 16 * 2 + lo < 128 by omega) hb (show 16 + 8 ≤ 24 by decide),
    fld_body sw (show 16 * 2 + lo < 128 by omega) hb (show 8 + 8 ≤ 24 by decide),
    fld_body sw (show 16 * 2 + lo < 128 by omega) hb (show 0 + 8 ≤ 24 by decide)]

theorem raw_row3 (sw : Bool) {maj lo body : Nat} {l0 l1 : W32} (hm : maj = 16 * 3 + lo) (hl : lo < 16) (hb : body < 2 ^ 24) :
    decodeRaw (mkWord sw maj body) l0 l1 =
      decRow3 sw lo (mkWord sw maj body).toNat (fld body 16 8) (fld body 8 8) (fld body 0 8) l0 l1 := by
  subst hm
  obtain ⟨h1, h2, h3⟩ := decodeRaw_parts sw (hi := 3) (by decide) hl hb
  simp only [decodeRaw, h1, h2, h3, toNat_beq_one, fld_body sw (show 16 * 3 + lo < 128 by omega) hb (show 16 + 8 ≤ 24 by decide),
    fld_body sw (show 16 * 3 + lo < 128 by omega) hb (show 8 + 8 ≤ 24 by decide),
    fld_body sw (show 16 * 3 + lo < 128 by omega) hb (show 0 + 8 ≤ 24 by decide)]

theorem raw_row4 (sw : Bool) {maj lo body : Nat} {l0 l1 : W32} (hm : maj = 16 * 4 + lo) (hl : lo < 16) (hb : body < 2 ^ 24) :
    decodeRaw (mkWord sw maj body) l0 l1 =
      decRow4 sw lo (mkWord sw maj body).toNat (fld body 16 8) (fld body 8 8) (fld body 0 8) l0 l1 := by
  subst hm
  obtain ⟨h1, h2, h3⟩ := decodeRaw_parts sw (hi := 4) (by decide) hl hb
  simp only [decodeRaw, h1, h2, h3, toNat_beq_one, fld_body sw (show 16 * 4 + lo < 128 by omega) hb (show 16 + 8 ≤ 24 by decide),
    fld_body sw (show 16 * 4 + lo < 128 by omega) hb (show 8 + 8 ≤ 24 by decide),
    fld_body sw (show 16 * 4 + lo < 128 by omega) hb (show 0 + 8 ≤ 24 by decide)]

theorem raw_row5 (sw : Bool) {maj lo body : Nat} {l0 l1 : W32} (hm : maj = 16 * 5 + lo) (hl : lo < 16) (hb : body < 2 ^ 24) :
    decodeRaw (mkWord sw maj body) l0 l1 =
      decRow5 sw lo (mkWord sw maj body).toNat (fld body 16 8) (fld body 8 8) (fld body 0 8) l0 l1 := by
  subst hm
  obtain ⟨h1, h2, h3⟩ := decodeRaw_parts sw (hi := 5) (by decide) hl hb
  simp only [decodeRaw, h1, h2, h3, toNat_beq_one, fld_body sw (show 16 * 5 + lo < 128 by omega) hb (show 16 + 8 ≤ 24 by decide),
    fld_body sw (show 16 * 5 + lo < 128 by omega) hb (show 8 + 8 ≤ 24 by decide),
    fld_body sw (show 16 * 5 + lo < 128 by omega) hb (show 0 + 8 ≤ 24 by decide)]

theorem raw_row6 (sw : Bool) {maj lo body : Nat} {l0 l1 : W32} (hm : maj = 16 * 6 + lo) (hl : lo < 16) (hb : body < 2 ^ 24) :
    decodeRaw (mkWord sw maj body) l0 l1 =
      decRow6 sw lo (mkWord sw maj body).toNat (fld body 16 8) (fld body 8 8) (fld body 0 8) l0 l1 := by
  subst hm
  obtain ⟨h1, h2, h3⟩ := decodeRaw_parts sw (hi := 6) (by decide) hl hb
  simp only [decodeRaw, h1, h2, h3, toNat_beq_one, fld_body sw (show 16 * 6 + lo < 128 by omega) hb (show 16 + 8 ≤ 24 by decide),
    fld_body sw (show 16 * 6 + lo < 128 by omega) hb (show 8 + 8 ≤ 24 by decide),
    fld_body sw (show 16 * 6 + lo < 128 by omega) hb (show 0 + 8 ≤ 24 by decide)]

theorem raw_row7 (sw : Bool) {maj lo body : Nat} {l0 l1 : W32} (hm : maj = 16 * 7 + lo) (hl : lo < 16) (hb : body < 2 ^ 24) :
    decodeRaw (mkWord sw maj body) l0 l1 =
      decRow7 sw lo (mkWord sw maj body).toNat (fld body 16 8) (fld body 8 8) (fld body 0 8) l0 l1 := by
  subst hm
  obtain ⟨h1, h2, h3⟩ := decodeRaw_parts sw (hi := 7) (by decide) hl hb
  simp only [decodeRaw, h1, h2, h3, toNat_beq_one, fld_body sw (show 16 * 7 + lo < 128 by omega) hb (show 16 + 8 ≤ 24 by decide),
    fld_body sw (show 16 * 7 + lo < 128 by omega) hb (show 8 + 8 ≤ 24 by decide),
    fld_body sw (show 16 * 7 + lo < 128 by omega) hb (show 0 + 8 ≤ 24 by decide)]


/-- Every instruction word decodes, in front of any words, to the well-formed instruction that it encodes. -/
def RoundTrip.Statement (i : Instr) : Prop :=
  i.isWord = true → i.wf = true → ∀ rest : List W32, decodeWords (encode i ++ rest) = some (i, rest)

theorem RoundTrip.nop (sw : Bool) : RoundTrip.Statement (.nop sw) := by
  intro _ hw rest
  refine roundtrip ?_ hw
  show decodeRaw (mkWord sw 0 (0)) (litsOf ([] ++ rest)).1 (litsOf ([] ++ rest)).2 = some (.nop sw)
  rw [raw_row0 sw (lo := 0) rfl (by decide) (by decide)]
  simp [decRow0]

theorem RoundTrip.setm (sw : Bool) (f : ModeField) : RoundTrip.Statement (.setm sw f) := by
  intro _ hw rest
  refine roundtrip ?_ hw
  show decodeRaw (mkWord sw 1 (f.code)) (litsOf ([] ++ rest)).1 (litsOf ([] ++ rest)).2 = some (.setm sw f)
  have h0 := ModeField.code_lt f
  have hb : f.code < 2 ^ 24 := by omega
  rw [raw_row0 sw (lo := 1) rfl (by decide) hb]
  simp [decRow0, ModeField.dec_code, fld_body sw (show 1 < 128 by decide) hb, fin_ofNat_val]

theorem RoundTrip.bra (sw : Bool) (off : BitVec 24) : RoundTrip.Statement (.bra sw off) := by
  intro _ hw rest
  refine roundtrip ?_ hw
  show decodeRaw (mkWord sw 2 (off.toNat)) (litsOf ([] ++ rest)).1 (litsOf ([] ++ rest)).2 = some (.bra sw off)
  have h0 := off.isLt
  have e0_24 : fld (off.toNat) 0 24 = off.toNat := by simp only [fld]; omega
  have hb : off.toNat < 2 ^ 24 := by omega
  rw [raw_row0 sw (lo := 2) rfl (by decide) hb]
  simp [decRow0, e0_24, fld_body sw (show 2 < 128 by decide) hb, fin_ofNat_val]

theorem RoundTrip.brall (sw : Bool) (p : PReg) (neg : Bool) (off : BitVec 20) : RoundTrip.Statement (.brall sw p neg off) := by
  intro _ hw rest
  refine roundtrip ?_ hw
  show decodeRaw (mkWord sw 3 (p.val * 2097152 + neg.toNat * 1048576 + off.toNat)) (litsOf ([] ++ rest)).1 (litsOf ([] ++ rest)).2 = some (.brall sw p neg off)
  have h0 := off.isLt
  have h1 := Bool.toNat_le neg
  have h2 := p.isLt
  have e0_20 : fld (p.val * 2097152 + neg.toNat * 1048576 + off.toNat) 0 20 = off.toNat := by simp only [fld]; omega
  have e20_1 : fld (p.val * 2097152 + neg.toNat * 1048576 + off.toNat) 20 1 = neg.toNat := by simp only [fld]; omega
  have e21_3 : fld (p.val * 2097152 + neg.toNat * 1048576 + off.toNat) 21 3 = p.val := by simp only [fld]; omega
  have hb : p.val * 2097152 + neg.toNat * 1048576 + off.toNat < 2 ^ 24 := by omega
  rw [raw_row0 sw (lo := 3) rfl (by decide) hb]
  simp [decRow0, e0_20, e20_1, e21_3, fld_body sw (show 3 < 128 by decide) hb, fin_ofNat_val, finDec_val, toNat_beq_one]

theorem RoundTrip.brany (sw : Bool) (p : PReg) (neg : Bool) (off : BitVec 20) : RoundTrip.Statement (.brany sw p neg off) := by
  intro _ hw rest
  refine roundtrip ?_ hw
  show decodeRaw (mkWord sw 4 (p.val * 2097152 + neg.toNat * 1048576 + off.toNat)) (litsOf ([] ++ rest)).1 (litsOf ([] ++ rest)).2 = some (.brany sw p neg off)
  have h0 := off.isLt
  have h1 := Bool.toNat_le neg
  have h2 := p.isLt
  have e0_20 : fld (p.val * 2097152 + neg.toNat * 1048576 + off.toNat) 0 20 = off.toNat := by simp only [fld]; omega
  have e20_1 : fld (p.val * 2097152 + neg.toNat * 1048576 + off.toNat) 20 1 = neg.toNat := by simp only [fld]; omega
  have e21_3 : fld (p.val * 2097152 + neg.toNat * 1048576 + off.toNat) 21 3 = p.val := by simp only [fld]; omega
  have hb : p.val * 2097152 + neg.toNat * 1048576 + off.toNat < 2 ^ 24 := by omega
  rw [raw_row0 sw (lo := 4) rfl (by decide) hb]
  simp [decRow0, e0_20, e20_1, e21_3, fld_body sw (show 4 < 128 by decide) hb, fin_ofNat_val, finDec_val, toNat_beq_one]

theorem RoundTrip.brd (sw : Bool) (p : PReg) (neg : Bool) (off : BitVec 20) (joinOff : W32) : RoundTrip.Statement (.brd sw p neg off joinOff) := by
  intro _ hw rest
  refine roundtrip ?_ hw
  show decodeRaw (mkWord sw 5 (p.val * 2097152 + neg.toNat * 1048576 + off.toNat)) (litsOf ([joinOff] ++ rest)).1 (litsOf ([joinOff] ++ rest)).2 = some (.brd sw p neg off joinOff)
  have h0 := off.isLt
  have h1 := Bool.toNat_le neg
  have h2 := p.isLt
  have e0_20 : fld (p.val * 2097152 + neg.toNat * 1048576 + off.toNat) 0 20 = off.toNat := by simp only [fld]; omega
  have e20_1 : fld (p.val * 2097152 + neg.toNat * 1048576 + off.toNat) 20 1 = neg.toNat := by simp only [fld]; omega
  have e21_3 : fld (p.val * 2097152 + neg.toNat * 1048576 + off.toNat) 21 3 = p.val := by simp only [fld]; omega
  have hb : p.val * 2097152 + neg.toNat * 1048576 + off.toNat < 2 ^ 24 := by omega
  rw [raw_row0 sw (lo := 5) rfl (by decide) hb]
  simp [decRow0, e0_20, e20_1, e21_3, fld_body sw (show 5 < 128 by decide) hb, fin_ofNat_val, finDec_val, toNat_beq_one, litsOf_first]

theorem RoundTrip.join (sw : Bool) : RoundTrip.Statement (.join sw) := by
  intro _ hw rest
  refine roundtrip ?_ hw
  show decodeRaw (mkWord sw 6 (0)) (litsOf ([] ++ rest)).1 (litsOf ([] ++ rest)).2 = some (.join sw)
  rw [raw_row0 sw (lo := 6) rfl (by decide) (by decide)]
  simp [decRow0]

theorem RoundTrip.call (sw : Bool) (off : BitVec 24) : RoundTrip.Statement (.call sw off) := by
  intro _ hw rest
  refine roundtrip ?_ hw
  show decodeRaw (mkWord sw 7 (off.toNat)) (litsOf ([] ++ rest)).1 (litsOf ([] ++ rest)).2 = some (.call sw off)
  have h0 := off.isLt
  have e0_24 : fld (off.toNat) 0 24 = off.toNat := by simp only [fld]; omega
  have hb : off.toNat < 2 ^ 24 := by omega
  rw [raw_row0 sw (lo := 7) rfl (by decide) hb]
  simp [decRow0, e0_24, fld_body sw (show 7 < 128 by decide) hb, fin_ofNat_val]

theorem RoundTrip.ret (sw : Bool) : RoundTrip.Statement (.ret sw) := by
  intro _ hw rest
  refine roundtrip ?_ hw
  show decodeRaw (mkWord sw 8 (0)) (litsOf ([] ++ rest)).1 (litsOf ([] ++ rest)).2 = some (.ret sw)
  rw [raw_row0 sw (lo := 8) rfl (by decide) (by decide)]
  simp [decRow0]

theorem RoundTrip.jmpi (sw : Bool) (a : USrc) : RoundTrip.Statement (.jmpi sw a) := by
  intro _ hw rest
  refine roundtrip ?_ hw
  have hs := usrc_agrees a rest
  show decodeRaw (mkWord sw 9 (bodyR 0 a.code 0)) (litsOf (a.words ++ rest)).1 (litsOf (a.words ++ rest)).2 = some (.jmpi sw a)
  generalize litsOf (a.words ++ rest) = ls at hs ⊢
  have hd : 0 < 256 := by decide
  have ha : a.code < 256 := USrc.code_lt a
  have hb : 0 < 256 := by decide
  rw [raw_row0 sw (lo := 9) rfl (by decide) (bodyR_lt hd ha hb), fldR_d hd ha hb, fldR_a ha hb, fldR_b hb]
  simp [decRow0, USrc.dec_code _ hs]

theorem RoundTrip.exit (sw : Bool) : RoundTrip.Statement (.exit sw) := by
  intro _ hw rest
  refine roundtrip ?_ hw
  show decodeRaw (mkWord sw 10 (0)) (litsOf ([] ++ rest)).1 (litsOf ([] ++ rest)).2 = some (.exit sw)
  rw [raw_row0 sw (lo := 10) rfl (by decide) (by decide)]
  simp [decRow0]

theorem RoundTrip.trap (sw : Bool) (code : BitVec 24) : RoundTrip.Statement (.trap sw code) := by
  intro _ hw rest
  refine roundtrip ?_ hw
  show decodeRaw (mkWord sw 11 (code.toNat)) (litsOf ([] ++ rest)).1 (litsOf ([] ++ rest)).2 = some (.trap sw code)
  have h0 := code.isLt
  have e0_24 : fld (code.toNat) 0 24 = code.toNat := by simp only [fld]; omega
  have hb : code.toNat < 2 ^ 24 := by omega
  rw [raw_row0 sw (lo := 11) rfl (by decide) hb]
  simp [decRow0, e0_24, fld_body sw (show 11 < 128 by decide) hb, fin_ofNat_val]

theorem RoundTrip.yield (sw : Bool) : RoundTrip.Statement (.yield sw) := by
  intro _ hw rest
  refine roundtrip ?_ hw
  show decodeRaw (mkWord sw 12 (0)) (litsOf ([] ++ rest)).1 (litsOf ([] ++ rest)).2 = some (.yield sw)
  rw [raw_row0 sw (lo := 12) rfl (by decide) (by decide)]
  simp [decRow0]

theorem RoundTrip.region (sw : Bool) : RoundTrip.Statement (.region sw) := by
  intro _ hw rest
  refine roundtrip ?_ hw
  show decodeRaw (mkWord sw 13 (0)) (litsOf ([] ++ rest)).1 (litsOf ([] ++ rest)).2 = some (.region sw)
  rw [raw_row0 sw (lo := 13) rfl (by decide) (by decide)]
  simp [decRow0]

theorem RoundTrip.drain (sw : Bool) : RoundTrip.Statement (.drain sw) := by
  intro _ hw rest
  refine roundtrip ?_ hw
  show decodeRaw (mkWord sw 14 (0)) (litsOf ([] ++ rest)).1 (litsOf ([] ++ rest)).2 = some (.drain sw)
  rw [raw_row0 sw (lo := 14) rfl (by decide) (by decide)]
  simp [decRow0]

theorem RoundTrip.loop (sw : Bool) (c : SReg) (off : BitVec 16) : RoundTrip.Statement (.loop sw c off) := by
  intro _ hw rest
  refine roundtrip ?_ hw
  show decodeRaw (mkWord sw 15 ((192 + c.val) * 65536 + off.toNat)) (litsOf ([] ++ rest)).1 (litsOf ([] ++ rest)).2 = some (.loop sw c off)
  have h0 := off.isLt
  have h2 := c.isLt
  have e0_16 : fld ((192 + c.val) * 65536 + off.toNat) 0 16 = off.toNat := by simp only [fld]; omega
  have e16_8 : fld ((192 + c.val) * 65536 + off.toNat) 16 8 = 192 + c.val := by simp only [fld]; omega
  have hb : (192 + c.val) * 65536 + off.toNat < 2 ^ 24 := by omega
  rw [raw_row0 sw (lo := 15) rfl (by decide) hb]
  simp [decRow0, e0_16, e16_8, fld_body sw (show 15 < 128 by decide) hb, fin_ofNat_val, sregDec_code]

theorem RoundTrip.add (sw : Bool) (d : Dst) (a : Src) (b : Src) : RoundTrip.Statement (.add sw d a b) := by
  intro _ hw rest
  refine roundtrip ?_ hw
  have hs := src_src (a := a) (b := b) (of_decide_eq_true (show decide (a.lits + b.lits ≤ 1) = true from hw)) rest
  show decodeRaw (mkWord sw 16 (bodyR d.code a.code b.code)) (litsOf (a.words ++ b.words ++ rest)).1 (litsOf (a.words ++ b.words ++ rest)).2 = some (.add sw d a b)
  generalize litsOf (a.words ++ b.words ++ rest) = ls at hs ⊢
  have hd : d.code < 256 := Dst.code_lt d
  have ha : a.code < 256 := Src.code_lt a
  have hb : b.code < 256 := Src.code_lt b
  rw [raw_row1 sw (lo := 0) rfl (by decide) (bodyR_lt hd ha hb), fldR_d hd ha hb, fldR_a ha hb, fldR_b hb]
  simp [decRow1, Src.dec_code _ hs.1, Src.dec_code _ hs.2, Dst.dec_code]

theorem RoundTrip.sub (sw : Bool) (d : Dst) (a : Src) (b : Src) : RoundTrip.Statement (.sub sw d a b) := by
  intro _ hw rest
  refine roundtrip ?_ hw
  have hs := src_src (a := a) (b := b) (of_decide_eq_true (show decide (a.lits + b.lits ≤ 1) = true from hw)) rest
  show decodeRaw (mkWord sw 17 (bodyR d.code a.code b.code)) (litsOf (a.words ++ b.words ++ rest)).1 (litsOf (a.words ++ b.words ++ rest)).2 = some (.sub sw d a b)
  generalize litsOf (a.words ++ b.words ++ rest) = ls at hs ⊢
  have hd : d.code < 256 := Dst.code_lt d
  have ha : a.code < 256 := Src.code_lt a
  have hb : b.code < 256 := Src.code_lt b
  rw [raw_row1 sw (lo := 1) rfl (by decide) (bodyR_lt hd ha hb), fldR_d hd ha hb, fldR_a ha hb, fldR_b hb]
  simp [decRow1, Src.dec_code _ hs.1, Src.dec_code _ hs.2, Dst.dec_code]

theorem RoundTrip.mul (sw : Bool) (d : Dst) (a : Src) (b : Src) : RoundTrip.Statement (.mul sw d a b) := by
  intro _ hw rest
  refine roundtrip ?_ hw
  have hs := src_src (a := a) (b := b) (of_decide_eq_true (show decide (a.lits + b.lits ≤ 1) = true from hw)) rest
  show decodeRaw (mkWord sw 18 (bodyR d.code a.code b.code)) (litsOf (a.words ++ b.words ++ rest)).1 (litsOf (a.words ++ b.words ++ rest)).2 = some (.mul sw d a b)
  generalize litsOf (a.words ++ b.words ++ rest) = ls at hs ⊢
  have hd : d.code < 256 := Dst.code_lt d
  have ha : a.code < 256 := Src.code_lt a
  have hb : b.code < 256 := Src.code_lt b
  rw [raw_row1 sw (lo := 2) rfl (by decide) (bodyR_lt hd ha hb), fldR_d hd ha hb, fldR_a ha hb, fldR_b hb]
  simp [decRow1, Src.dec_code _ hs.1, Src.dec_code _ hs.2, Dst.dec_code]

theorem RoundTrip.fma (sw : Bool) (d : Dst) (a : Src) (b : Src) : RoundTrip.Statement (.fma sw d a b) := by
  intro _ hw rest
  refine roundtrip ?_ hw
  have hs := src_src (a := a) (b := b) (of_decide_eq_true (show decide (a.lits + b.lits ≤ 1) = true from hw)) rest
  show decodeRaw (mkWord sw 19 (bodyR d.code a.code b.code)) (litsOf (a.words ++ b.words ++ rest)).1 (litsOf (a.words ++ b.words ++ rest)).2 = some (.fma sw d a b)
  generalize litsOf (a.words ++ b.words ++ rest) = ls at hs ⊢
  have hd : d.code < 256 := Dst.code_lt d
  have ha : a.code < 256 := Src.code_lt a
  have hb : b.code < 256 := Src.code_lt b
  rw [raw_row1 sw (lo := 3) rfl (by decide) (bodyR_lt hd ha hb), fldR_d hd ha hb, fldR_a ha hb, fldR_b hb]
  simp [decRow1, Src.dec_code _ hs.1, Src.dec_code _ hs.2, Dst.dec_code]

theorem RoundTrip.fms (sw : Bool) (d : Dst) (a : Src) (b : Src) : RoundTrip.Statement (.fms sw d a b) := by
  intro _ hw rest
  refine roundtrip ?_ hw
  have hs := src_src (a := a) (b := b) (of_decide_eq_true (show decide (a.lits + b.lits ≤ 1) = true from hw)) rest
  show decodeRaw (mkWord sw 20 (bodyR d.code a.code b.code)) (litsOf (a.words ++ b.words ++ rest)).1 (litsOf (a.words ++ b.words ++ rest)).2 = some (.fms sw d a b)
  generalize litsOf (a.words ++ b.words ++ rest) = ls at hs ⊢
  have hd : d.code < 256 := Dst.code_lt d
  have ha : a.code < 256 := Src.code_lt a
  have hb : b.code < 256 := Src.code_lt b
  rw [raw_row1 sw (lo := 4) rfl (by decide) (bodyR_lt hd ha hb), fldR_d hd ha hb, fldR_a ha hb, fldR_b hb]
  simp [decRow1, Src.dec_code _ hs.1, Src.dec_code _ hs.2, Dst.dec_code]

theorem RoundTrip.min (sw : Bool) (d : Dst) (a : Src) (b : Src) : RoundTrip.Statement (.min sw d a b) := by
  intro _ hw rest
  refine roundtrip ?_ hw
  have hs := src_src (a := a) (b := b) (of_decide_eq_true (show decide (a.lits + b.lits ≤ 1) = true from hw)) rest
  show decodeRaw (mkWord sw 21 (bodyR d.code a.code b.code)) (litsOf (a.words ++ b.words ++ rest)).1 (litsOf (a.words ++ b.words ++ rest)).2 = some (.min sw d a b)
  generalize litsOf (a.words ++ b.words ++ rest) = ls at hs ⊢
  have hd : d.code < 256 := Dst.code_lt d
  have ha : a.code < 256 := Src.code_lt a
  have hb : b.code < 256 := Src.code_lt b
  rw [raw_row1 sw (lo := 5) rfl (by decide) (bodyR_lt hd ha hb), fldR_d hd ha hb, fldR_a ha hb, fldR_b hb]
  simp [decRow1, Src.dec_code _ hs.1, Src.dec_code _ hs.2, Dst.dec_code]

theorem RoundTrip.max (sw : Bool) (d : Dst) (a : Src) (b : Src) : RoundTrip.Statement (.max sw d a b) := by
  intro _ hw rest
  refine roundtrip ?_ hw
  have hs := src_src (a := a) (b := b) (of_decide_eq_true (show decide (a.lits + b.lits ≤ 1) = true from hw)) rest
  show decodeRaw (mkWord sw 22 (bodyR d.code a.code b.code)) (litsOf (a.words ++ b.words ++ rest)).1 (litsOf (a.words ++ b.words ++ rest)).2 = some (.max sw d a b)
  generalize litsOf (a.words ++ b.words ++ rest) = ls at hs ⊢
  have hd : d.code < 256 := Dst.code_lt d
  have ha : a.code < 256 := Src.code_lt a
  have hb : b.code < 256 := Src.code_lt b
  rw [raw_row1 sw (lo := 6) rfl (by decide) (bodyR_lt hd ha hb), fldR_d hd ha hb, fldR_a ha hb, fldR_b hb]
  simp [decRow1, Src.dec_code _ hs.1, Src.dec_code _ hs.2, Dst.dec_code]

theorem RoundTrip.abs (sw : Bool) (d : Dst) (a : Src) : RoundTrip.Statement (.abs sw d a) := by
  intro _ hw rest
  refine roundtrip ?_ hw
  have hs := src_agrees a rest
  show decodeRaw (mkWord sw 23 (bodyR d.code a.code 0)) (litsOf (a.words ++ rest)).1 (litsOf (a.words ++ rest)).2 = some (.abs sw d a)
  generalize litsOf (a.words ++ rest) = ls at hs ⊢
  have hd : d.code < 256 := Dst.code_lt d
  have ha : a.code < 256 := Src.code_lt a
  have hb : 0 < 256 := by decide
  rw [raw_row1 sw (lo := 7) rfl (by decide) (bodyR_lt hd ha hb), fldR_d hd ha hb, fldR_a ha hb, fldR_b hb]
  simp [decRow1, Src.dec_code _ hs, Dst.dec_code]

theorem RoundTrip.neg (sw : Bool) (d : Dst) (a : Src) : RoundTrip.Statement (.neg sw d a) := by
  intro _ hw rest
  refine roundtrip ?_ hw
  have hs := src_agrees a rest
  show decodeRaw (mkWord sw 24 (bodyR d.code a.code 0)) (litsOf (a.words ++ rest)).1 (litsOf (a.words ++ rest)).2 = some (.neg sw d a)
  generalize litsOf (a.words ++ rest) = ls at hs ⊢
  have hd : d.code < 256 := Dst.code_lt d
  have ha : a.code < 256 := Src.code_lt a
  have hb : 0 < 256 := by decide
  rw [raw_row1 sw (lo := 8) rfl (by decide) (bodyR_lt hd ha hb), fldR_d hd ha hb, fldR_a ha hb, fldR_b hb]
  simp [decRow1, Src.dec_code _ hs, Dst.dec_code]

theorem RoundTrip.cmp (sw : Bool) (p : PReg) (f : Rel) (a : Src) (b : Src) : RoundTrip.Statement (.cmp sw p f a b) := by
  intro _ hw rest
  refine roundtrip ?_ hw
  have hs := src_src (a := a) (b := b) (of_decide_eq_true (show decide (a.lits + b.lits ≤ 1) = true from hw)) rest
  show decodeRaw (mkWord sw 25 (bodyR (p.val * 32 + f.code) a.code b.code)) (litsOf (a.words ++ b.words ++ rest)).1 (litsOf (a.words ++ b.words ++ rest)).2 = some (.cmp sw p f a b)
  generalize litsOf (a.words ++ b.words ++ rest) = ls at hs ⊢
  have hd : p.val * 32 + f.code < 256 := by have := Rel.code_lt f; omega
  have ha : a.code < 256 := Src.code_lt a
  have hb : b.code < 256 := Src.code_lt b
  rw [raw_row1 sw (lo := 9) rfl (by decide) (bodyR_lt hd ha hb), fldR_d hd ha hb, fldR_a ha hb, fldR_b hb]
  have hf := Rel.code_lt f
  have hp := p.isLt
  simp [decRow1, Src.dec_code _ hs.1, Src.dec_code _ hs.2, fld_body sw (show 25 < 128 by decide) (bodyR_lt hd ha hb), fldC_f hf ha hb, fldC_p hp hf ha hb, Rel.dec_code, fin_ofNat_val, finDec_val]

theorem RoundTrip.sel (sw : Bool) (d : Dst) (a : Src) (b : Src) : RoundTrip.Statement (.sel sw d a b) := by
  intro _ hw rest
  refine roundtrip ?_ hw
  have hs := src_src (a := a) (b := b) (of_decide_eq_true (show decide (a.lits + b.lits ≤ 1) = true from hw)) rest
  show decodeRaw (mkWord sw 26 (bodyR d.code a.code b.code)) (litsOf (a.words ++ b.words ++ rest)).1 (litsOf (a.words ++ b.words ++ rest)).2 = some (.sel sw d a b)
  generalize litsOf (a.words ++ b.words ++ rest) = ls at hs ⊢
  have hd : d.code < 256 := Dst.code_lt d
  have ha : a.code < 256 := Src.code_lt a
  have hb : b.code < 256 := Src.code_lt b
  rw [raw_row1 sw (lo := 10) rfl (by decide) (bodyR_lt hd ha hb), fldR_d hd ha hb, fldR_a ha hb, fldR_b hb]
  simp [decRow1, Src.dec_code _ hs.1, Src.dec_code _ hs.2, Dst.dec_code]

theorem RoundTrip.cvt (sw : Bool) (d : Dst) (a : Src) (ty : Ty) : RoundTrip.Statement (.cvt sw d a ty) := by
  intro _ hw rest
  refine roundtrip ?_ hw
  have hs := src_agrees a rest
  show decodeRaw (mkWord sw 27 (bodyR d.code a.code ty.code)) (litsOf (a.words ++ rest)).1 (litsOf (a.words ++ rest)).2 = some (.cvt sw d a ty)
  generalize litsOf (a.words ++ rest) = ls at hs ⊢
  have hd : d.code < 256 := Dst.code_lt d
  have ha : a.code < 256 := Src.code_lt a
  have hb : ty.code < 256 := Nat.lt_trans (Ty.code_lt ty) (by decide)
  rw [raw_row1 sw (lo := 11) rfl (by decide) (bodyR_lt hd ha hb), fldR_d hd ha hb, fldR_a ha hb, fldR_b hb]
  simp [decRow1, Src.dec_code _ hs, Dst.dec_code, Ty.dec_code]

theorem RoundTrip.rcp (sw : Bool) (d : Dst) (a : Src) : RoundTrip.Statement (.rcp sw d a) := by
  intro _ hw rest
  refine roundtrip ?_ hw
  have hs := src_agrees a rest
  show decodeRaw (mkWord sw 28 (bodyR d.code a.code 0)) (litsOf (a.words ++ rest)).1 (litsOf (a.words ++ rest)).2 = some (.rcp sw d a)
  generalize litsOf (a.words ++ rest) = ls at hs ⊢
  have hd : d.code < 256 := Dst.code_lt d
  have ha : a.code < 256 := Src.code_lt a
  have hb : 0 < 256 := by decide
  rw [raw_row1 sw (lo := 12) rfl (by decide) (bodyR_lt hd ha hb), fldR_d hd ha hb, fldR_a ha hb, fldR_b hb]
  simp [decRow1, Src.dec_code _ hs, Dst.dec_code]

theorem RoundTrip.rsq (sw : Bool) (d : Dst) (a : Src) : RoundTrip.Statement (.rsq sw d a) := by
  intro _ hw rest
  refine roundtrip ?_ hw
  have hs := src_agrees a rest
  show decodeRaw (mkWord sw 29 (bodyR d.code a.code 0)) (litsOf (a.words ++ rest)).1 (litsOf (a.words ++ rest)).2 = some (.rsq sw d a)
  generalize litsOf (a.words ++ rest) = ls at hs ⊢
  have hd : d.code < 256 := Dst.code_lt d
  have ha : a.code < 256 := Src.code_lt a
  have hb : 0 < 256 := by decide
  rw [raw_row1 sw (lo := 13) rfl (by decide) (bodyR_lt hd ha hb), fldR_d hd ha hb, fldR_a ha hb, fldR_b hb]
  simp [decRow1, Src.dec_code _ hs, Dst.dec_code]

theorem RoundTrip.sqrt (sw : Bool) (d : Dst) (a : Src) : RoundTrip.Statement (.sqrt sw d a) := by
  intro _ hw rest
  refine roundtrip ?_ hw
  have hs := src_agrees a rest
  show decodeRaw (mkWord sw 30 (bodyR d.code a.code 0)) (litsOf (a.words ++ rest)).1 (litsOf (a.words ++ rest)).2 = some (.sqrt sw d a)
  generalize litsOf (a.words ++ rest) = ls at hs ⊢
  have hd : d.code < 256 := Dst.code_lt d
  have ha : a.code < 256 := Src.code_lt a
  have hb : 0 < 256 := by decide
  rw [raw_row1 sw (lo := 14) rfl (by decide) (bodyR_lt hd ha hb), fldR_d hd ha hb, fldR_a ha hb, fldR_b hb]
  simp [decRow1, Src.dec_code _ hs, Dst.dec_code]

theorem RoundTrip.div (sw : Bool) (d : Dst) (a : Src) (b : Src) : RoundTrip.Statement (.div sw d a b) := by
  intro _ hw rest
  refine roundtrip ?_ hw
  have hs := src_src (a := a) (b := b) (of_decide_eq_true (show decide (a.lits + b.lits ≤ 1) = true from hw)) rest
  show decodeRaw (mkWord sw 31 (bodyR d.code a.code b.code)) (litsOf (a.words ++ b.words ++ rest)).1 (litsOf (a.words ++ b.words ++ rest)).2 = some (.div sw d a b)
  generalize litsOf (a.words ++ b.words ++ rest) = ls at hs ⊢
  have hd : d.code < 256 := Dst.code_lt d
  have ha : a.code < 256 := Src.code_lt a
  have hb : b.code < 256 := Src.code_lt b
  rw [raw_row1 sw (lo := 15) rfl (by decide) (bodyR_lt hd ha hb), fldR_d hd ha hb, fldR_a ha hb, fldR_b hb]
  simp [decRow1, Src.dec_code _ hs.1, Src.dec_code _ hs.2, Dst.dec_code]

theorem RoundTrip.exp2 (sw : Bool) (d : Dst) (a : Src) : RoundTrip.Statement (.exp2 sw d a) := by
  intro _ hw rest
  refine roundtrip ?_ hw
  have hs := src_agrees a rest
  show decodeRaw (mkWord sw 32 (bodyR d.code a.code 0)) (litsOf (a.words ++ rest)).1 (litsOf (a.words ++ rest)).2 = some (.exp2 sw d a)
  generalize litsOf (a.words ++ rest) = ls at hs ⊢
  have hd : d.code < 256 := Dst.code_lt d
  have ha : a.code < 256 := Src.code_lt a
  have hb : 0 < 256 := by decide
  rw [raw_row2 sw (lo := 0) rfl (by decide) (bodyR_lt hd ha hb), fldR_d hd ha hb, fldR_a ha hb, fldR_b hb]
  simp [decRow2, Src.dec_code _ hs, Dst.dec_code]

theorem RoundTrip.log2 (sw : Bool) (d : Dst) (a : Src) : RoundTrip.Statement (.log2 sw d a) := by
  intro _ hw rest
  refine roundtrip ?_ hw
  have hs := src_agrees a rest
  show decodeRaw (mkWord sw 33 (bodyR d.code a.code 0)) (litsOf (a.words ++ rest)).1 (litsOf (a.words ++ rest)).2 = some (.log2 sw d a)
  generalize litsOf (a.words ++ rest) = ls at hs ⊢
  have hd : d.code < 256 := Dst.code_lt d
  have ha : a.code < 256 := Src.code_lt a
  have hb : 0 < 256 := by decide
  rw [raw_row2 sw (lo := 1) rfl (by decide) (bodyR_lt hd ha hb), fldR_d hd ha hb, fldR_a ha hb, fldR_b hb]
  simp [decRow2, Src.dec_code _ hs, Dst.dec_code]

theorem RoundTrip.sin (sw : Bool) (d : Dst) (a : Src) : RoundTrip.Statement (.sin sw d a) := by
  intro _ hw rest
  refine roundtrip ?_ hw
  have hs := src_agrees a rest
  show decodeRaw (mkWord sw 34 (bodyR d.code a.code 0)) (litsOf (a.words ++ rest)).1 (litsOf (a.words ++ rest)).2 = some (.sin sw d a)
  generalize litsOf (a.words ++ rest) = ls at hs ⊢
  have hd : d.code < 256 := Dst.code_lt d
  have ha : a.code < 256 := Src.code_lt a
  have hb : 0 < 256 := by decide
  rw [raw_row2 sw (lo := 2) rfl (by decide) (bodyR_lt hd ha hb), fldR_d hd ha hb, fldR_a ha hb, fldR_b hb]
  simp [decRow2, Src.dec_code _ hs, Dst.dec_code]

theorem RoundTrip.cos (sw : Bool) (d : Dst) (a : Src) : RoundTrip.Statement (.cos sw d a) := by
  intro _ hw rest
  refine roundtrip ?_ hw
  have hs := src_agrees a rest
  show decodeRaw (mkWord sw 35 (bodyR d.code a.code 0)) (litsOf (a.words ++ rest)).1 (litsOf (a.words ++ rest)).2 = some (.cos sw d a)
  generalize litsOf (a.words ++ rest) = ls at hs ⊢
  have hd : d.code < 256 := Dst.code_lt d
  have ha : a.code < 256 := Src.code_lt a
  have hb : 0 < 256 := by decide
  rw [raw_row2 sw (lo := 3) rfl (by decide) (bodyR_lt hd ha hb), fldR_d hd ha hb, fldR_a ha hb, fldR_b hb]
  simp [decRow2, Src.dec_code _ hs, Dst.dec_code]

theorem RoundTrip.rint (sw : Bool) (d : Dst) (a : Src) : RoundTrip.Statement (.rint sw d a) := by
  intro _ hw rest
  refine roundtrip ?_ hw
  have hs := src_agrees a rest
  show decodeRaw (mkWord sw 36 (bodyR d.code a.code 0)) (litsOf (a.words ++ rest)).1 (litsOf (a.words ++ rest)).2 = some (.rint sw d a)
  generalize litsOf (a.words ++ rest) = ls at hs ⊢
  have hd : d.code < 256 := Dst.code_lt d
  have ha : a.code < 256 := Src.code_lt a
  have hb : 0 < 256 := by decide
  rw [raw_row2 sw (lo := 4) rfl (by decide) (bodyR_lt hd ha hb), fldR_d hd ha hb, fldR_a ha hb, fldR_b hb]
  simp [decRow2, Src.dec_code _ hs, Dst.dec_code]

theorem RoundTrip.class (sw : Bool) (p : PReg) (f : ClassTest) (a : Src) : RoundTrip.Statement (.class sw p f a) := by
  intro _ hw rest
  refine roundtrip ?_ hw
  have hs := src_agrees a rest
  show decodeRaw (mkWord sw 37 (bodyR (p.val * 32 + f.code) a.code 0)) (litsOf (a.words ++ rest)).1 (litsOf (a.words ++ rest)).2 = some (.class sw p f a)
  generalize litsOf (a.words ++ rest) = ls at hs ⊢
  have hd : p.val * 32 + f.code < 256 := by have := ClassTest.code_lt f; omega
  have ha : a.code < 256 := Src.code_lt a
  have hb : 0 < 256 := by decide
  rw [raw_row2 sw (lo := 5) rfl (by decide) (bodyR_lt hd ha hb), fldR_d hd ha hb, fldR_a ha hb, fldR_b hb]
  have hf := ClassTest.code_lt f
  have hp := p.isLt
  simp [decRow2, Src.dec_code _ hs, fld_body sw (show 37 < 128 by decide) (bodyR_lt hd ha hb), fldC_f hf ha hb, fldC_p hp hf ha hb, ClassTest.dec_code, fin_ofNat_val, finDec_val]

theorem RoundTrip.wmad (sw : Bool) (d : Dst) (a : Src) (b : Src) : RoundTrip.Statement (.wmad sw d a b) := by
  intro _ hw rest
  refine roundtrip ?_ hw
  have hs := src_src (a := a) (b := b) (of_decide_eq_true (show decide (a.lits + b.lits ≤ 1) = true from hw)) rest
  show decodeRaw (mkWord sw 38 (bodyR d.code a.code b.code)) (litsOf (a.words ++ b.words ++ rest)).1 (litsOf (a.words ++ b.words ++ rest)).2 = some (.wmad sw d a b)
  generalize litsOf (a.words ++ b.words ++ rest) = ls at hs ⊢
  have hd : d.code < 256 := Dst.code_lt d
  have ha : a.code < 256 := Src.code_lt a
  have hb : b.code < 256 := Src.code_lt b
  rw [raw_row2 sw (lo := 6) rfl (by decide) (bodyR_lt hd ha hb), fldR_d hd ha hb, fldR_a ha hb, fldR_b hb]
  simp [decRow2, Src.dec_code _ hs.1, Src.dec_code _ hs.2, Dst.dec_code]

theorem RoundTrip.dot4 (sw : Bool) (d : Dst) (a : Src) (b : Src) : RoundTrip.Statement (.dot4 sw d a b) := by
  intro _ hw rest
  refine roundtrip ?_ hw
  have hs := src_src (a := a) (b := b) (of_decide_eq_true (show decide (a.lits + b.lits ≤ 1) = true from hw)) rest
  show decodeRaw (mkWord sw 39 (bodyR d.code a.code b.code)) (litsOf (a.words ++ b.words ++ rest)).1 (litsOf (a.words ++ b.words ++ rest)).2 = some (.dot4 sw d a b)
  generalize litsOf (a.words ++ b.words ++ rest) = ls at hs ⊢
  have hd : d.code < 256 := Dst.code_lt d
  have ha : a.code < 256 := Src.code_lt a
  have hb : b.code < 256 := Src.code_lt b
  rw [raw_row2 sw (lo := 7) rfl (by decide) (bodyR_lt hd ha hb), fldR_d hd ha hb, fldR_a ha hb, fldR_b hb]
  simp [decRow2, Src.dec_code _ hs.1, Src.dec_code _ hs.2, Dst.dec_code]

theorem RoundTrip.and (sw : Bool) (d : Dst) (a : Src) (b : Src) : RoundTrip.Statement (.and sw d a b) := by
  intro _ hw rest
  refine roundtrip ?_ hw
  have hs := src_src (a := a) (b := b) (of_decide_eq_true (show decide (a.lits + b.lits ≤ 1) = true from hw)) rest
  show decodeRaw (mkWord sw 40 (bodyR d.code a.code b.code)) (litsOf (a.words ++ b.words ++ rest)).1 (litsOf (a.words ++ b.words ++ rest)).2 = some (.and sw d a b)
  generalize litsOf (a.words ++ b.words ++ rest) = ls at hs ⊢
  have hd : d.code < 256 := Dst.code_lt d
  have ha : a.code < 256 := Src.code_lt a
  have hb : b.code < 256 := Src.code_lt b
  rw [raw_row2 sw (lo := 8) rfl (by decide) (bodyR_lt hd ha hb), fldR_d hd ha hb, fldR_a ha hb, fldR_b hb]
  simp [decRow2, Src.dec_code _ hs.1, Src.dec_code _ hs.2, Dst.dec_code]

theorem RoundTrip.or (sw : Bool) (d : Dst) (a : Src) (b : Src) : RoundTrip.Statement (.or sw d a b) := by
  intro _ hw rest
  refine roundtrip ?_ hw
  have hs := src_src (a := a) (b := b) (of_decide_eq_true (show decide (a.lits + b.lits ≤ 1) = true from hw)) rest
  show decodeRaw (mkWord sw 41 (bodyR d.code a.code b.code)) (litsOf (a.words ++ b.words ++ rest)).1 (litsOf (a.words ++ b.words ++ rest)).2 = some (.or sw d a b)
  generalize litsOf (a.words ++ b.words ++ rest) = ls at hs ⊢
  have hd : d.code < 256 := Dst.code_lt d
  have ha : a.code < 256 := Src.code_lt a
  have hb : b.code < 256 := Src.code_lt b
  rw [raw_row2 sw (lo := 9) rfl (by decide) (bodyR_lt hd ha hb), fldR_d hd ha hb, fldR_a ha hb, fldR_b hb]
  simp [decRow2, Src.dec_code _ hs.1, Src.dec_code _ hs.2, Dst.dec_code]

theorem RoundTrip.xor (sw : Bool) (d : Dst) (a : Src) (b : Src) : RoundTrip.Statement (.xor sw d a b) := by
  intro _ hw rest
  refine roundtrip ?_ hw
  have hs := src_src (a := a) (b := b) (of_decide_eq_true (show decide (a.lits + b.lits ≤ 1) = true from hw)) rest
  show decodeRaw (mkWord sw 42 (bodyR d.code a.code b.code)) (litsOf (a.words ++ b.words ++ rest)).1 (litsOf (a.words ++ b.words ++ rest)).2 = some (.xor sw d a b)
  generalize litsOf (a.words ++ b.words ++ rest) = ls at hs ⊢
  have hd : d.code < 256 := Dst.code_lt d
  have ha : a.code < 256 := Src.code_lt a
  have hb : b.code < 256 := Src.code_lt b
  rw [raw_row2 sw (lo := 10) rfl (by decide) (bodyR_lt hd ha hb), fldR_d hd ha hb, fldR_a ha hb, fldR_b hb]
  simp [decRow2, Src.dec_code _ hs.1, Src.dec_code _ hs.2, Dst.dec_code]

theorem RoundTrip.not (sw : Bool) (d : Dst) (a : Src) : RoundTrip.Statement (.not sw d a) := by
  intro _ hw rest
  refine roundtrip ?_ hw
  have hs := src_agrees a rest
  show decodeRaw (mkWord sw 43 (bodyR d.code a.code 0)) (litsOf (a.words ++ rest)).1 (litsOf (a.words ++ rest)).2 = some (.not sw d a)
  generalize litsOf (a.words ++ rest) = ls at hs ⊢
  have hd : d.code < 256 := Dst.code_lt d
  have ha : a.code < 256 := Src.code_lt a
  have hb : 0 < 256 := by decide
  rw [raw_row2 sw (lo := 11) rfl (by decide) (bodyR_lt hd ha hb), fldR_d hd ha hb, fldR_a ha hb, fldR_b hb]
  simp [decRow2, Src.dec_code _ hs, Dst.dec_code]

theorem RoundTrip.shl (sw : Bool) (d : Dst) (a : Src) (b : Src) : RoundTrip.Statement (.shl sw d a b) := by
  intro _ hw rest
  refine roundtrip ?_ hw
  have hs := src_src (a := a) (b := b) (of_decide_eq_true (show decide (a.lits + b.lits ≤ 1) = true from hw)) rest
  show decodeRaw (mkWord sw 44 (bodyR d.code a.code b.code)) (litsOf (a.words ++ b.words ++ rest)).1 (litsOf (a.words ++ b.words ++ rest)).2 = some (.shl sw d a b)
  generalize litsOf (a.words ++ b.words ++ rest) = ls at hs ⊢
  have hd : d.code < 256 := Dst.code_lt d
  have ha : a.code < 256 := Src.code_lt a
  have hb : b.code < 256 := Src.code_lt b
  rw [raw_row2 sw (lo := 12) rfl (by decide) (bodyR_lt hd ha hb), fldR_d hd ha hb, fldR_a ha hb, fldR_b hb]
  simp [decRow2, Src.dec_code _ hs.1, Src.dec_code _ hs.2, Dst.dec_code]

theorem RoundTrip.shr (sw : Bool) (d : Dst) (a : Src) (b : Src) : RoundTrip.Statement (.shr sw d a b) := by
  intro _ hw rest
  refine roundtrip ?_ hw
  have hs := src_src (a := a) (b := b) (of_decide_eq_true (show decide (a.lits + b.lits ≤ 1) = true from hw)) rest
  show decodeRaw (mkWord sw 45 (bodyR d.code a.code b.code)) (litsOf (a.words ++ b.words ++ rest)).1 (litsOf (a.words ++ b.words ++ rest)).2 = some (.shr sw d a b)
  generalize litsOf (a.words ++ b.words ++ rest) = ls at hs ⊢
  have hd : d.code < 256 := Dst.code_lt d
  have ha : a.code < 256 := Src.code_lt a
  have hb : b.code < 256 := Src.code_lt b
  rw [raw_row2 sw (lo := 13) rfl (by decide) (bodyR_lt hd ha hb), fldR_d hd ha hb, fldR_a ha hb, fldR_b hb]
  simp [decRow2, Src.dec_code _ hs.1, Src.dec_code _ hs.2, Dst.dec_code]

theorem RoundTrip.rol (sw : Bool) (d : Dst) (a : Src) (b : Src) : RoundTrip.Statement (.rol sw d a b) := by
  intro _ hw rest
  refine roundtrip ?_ hw
  have hs := src_src (a := a) (b := b) (of_decide_eq_true (show decide (a.lits + b.lits ≤ 1) = true from hw)) rest
  show decodeRaw (mkWord sw 46 (bodyR d.code a.code b.code)) (litsOf (a.words ++ b.words ++ rest)).1 (litsOf (a.words ++ b.words ++ rest)).2 = some (.rol sw d a b)
  generalize litsOf (a.words ++ b.words ++ rest) = ls at hs ⊢
  have hd : d.code < 256 := Dst.code_lt d
  have ha : a.code < 256 := Src.code_lt a
  have hb : b.code < 256 := Src.code_lt b
  rw [raw_row2 sw (lo := 14) rfl (by decide) (bodyR_lt hd ha hb), fldR_d hd ha hb, fldR_a ha hb, fldR_b hb]
  simp [decRow2, Src.dec_code _ hs.1, Src.dec_code _ hs.2, Dst.dec_code]

theorem RoundTrip.popc (sw : Bool) (d : Dst) (a : Src) : RoundTrip.Statement (.popc sw d a) := by
  intro _ hw rest
  refine roundtrip ?_ hw
  have hs := src_agrees a rest
  show decodeRaw (mkWord sw 47 (bodyR d.code a.code 0)) (litsOf (a.words ++ rest)).1 (litsOf (a.words ++ rest)).2 = some (.popc sw d a)
  generalize litsOf (a.words ++ rest) = ls at hs ⊢
  have hd : d.code < 256 := Dst.code_lt d
  have ha : a.code < 256 := Src.code_lt a
  have hb : 0 < 256 := by decide
  rw [raw_row2 sw (lo := 15) rfl (by decide) (bodyR_lt hd ha hb), fldR_d hd ha hb, fldR_a ha hb, fldR_b hb]
  simp [decRow2, Src.dec_code _ hs, Dst.dec_code]

theorem RoundTrip.clz (sw : Bool) (d : Dst) (a : Src) : RoundTrip.Statement (.clz sw d a) := by
  intro _ hw rest
  refine roundtrip ?_ hw
  have hs := src_agrees a rest
  show decodeRaw (mkWord sw 48 (bodyR d.code a.code 0)) (litsOf (a.words ++ rest)).1 (litsOf (a.words ++ rest)).2 = some (.clz sw d a)
  generalize litsOf (a.words ++ rest) = ls at hs ⊢
  have hd : d.code < 256 := Dst.code_lt d
  have ha : a.code < 256 := Src.code_lt a
  have hb : 0 < 256 := by decide
  rw [raw_row3 sw (lo := 0) rfl (by decide) (bodyR_lt hd ha hb), fldR_d hd ha hb, fldR_a ha hb, fldR_b hb]
  simp [decRow3, Src.dec_code _ hs, Dst.dec_code]

theorem RoundTrip.brev (sw : Bool) (d : Dst) (a : Src) : RoundTrip.Statement (.brev sw d a) := by
  intro _ hw rest
  refine roundtrip ?_ hw
  have hs := src_agrees a rest
  show decodeRaw (mkWord sw 49 (bodyR d.code a.code 0)) (litsOf (a.words ++ rest)).1 (litsOf (a.words ++ rest)).2 = some (.brev sw d a)
  generalize litsOf (a.words ++ rest) = ls at hs ⊢
  have hd : d.code < 256 := Dst.code_lt d
  have ha : a.code < 256 := Src.code_lt a
  have hb : 0 < 256 := by decide
  rw [raw_row3 sw (lo := 1) rfl (by decide) (bodyR_lt hd ha hb), fldR_d hd ha hb, fldR_a ha hb, fldR_b hb]
  simp [decRow3, Src.dec_code _ hs, Dst.dec_code]

theorem RoundTrip.bfe (sw : Bool) (d : Dst) (a : Src) (b : Src) : RoundTrip.Statement (.bfe sw d a b) := by
  intro _ hw rest
  refine roundtrip ?_ hw
  have hs := src_src (a := a) (b := b) (of_decide_eq_true (show decide (a.lits + b.lits ≤ 1) = true from hw)) rest
  show decodeRaw (mkWord sw 50 (bodyR d.code a.code b.code)) (litsOf (a.words ++ b.words ++ rest)).1 (litsOf (a.words ++ b.words ++ rest)).2 = some (.bfe sw d a b)
  generalize litsOf (a.words ++ b.words ++ rest) = ls at hs ⊢
  have hd : d.code < 256 := Dst.code_lt d
  have ha : a.code < 256 := Src.code_lt a
  have hb : b.code < 256 := Src.code_lt b
  rw [raw_row3 sw (lo := 2) rfl (by decide) (bodyR_lt hd ha hb), fldR_d hd ha hb, fldR_a ha hb, fldR_b hb]
  simp [decRow3, Src.dec_code _ hs.1, Src.dec_code _ hs.2, Dst.dec_code]

theorem RoundTrip.bfi (sw : Bool) (d : Dst) (a : Src) (b : Src) : RoundTrip.Statement (.bfi sw d a b) := by
  intro _ hw rest
  refine roundtrip ?_ hw
  have hs := src_src (a := a) (b := b) (of_decide_eq_true (show decide (a.lits + b.lits ≤ 1) = true from hw)) rest
  show decodeRaw (mkWord sw 51 (bodyR d.code a.code b.code)) (litsOf (a.words ++ b.words ++ rest)).1 (litsOf (a.words ++ b.words ++ rest)).2 = some (.bfi sw d a b)
  generalize litsOf (a.words ++ b.words ++ rest) = ls at hs ⊢
  have hd : d.code < 256 := Dst.code_lt d
  have ha : a.code < 256 := Src.code_lt a
  have hb : b.code < 256 := Src.code_lt b
  rw [raw_row3 sw (lo := 3) rfl (by decide) (bodyR_lt hd ha hb), fldR_d hd ha hb, fldR_a ha hb, fldR_b hb]
  simp [decRow3, Src.dec_code _ hs.1, Src.dec_code _ hs.2, Dst.dec_code]

theorem RoundTrip.mulhi (sw : Bool) (d : Dst) (a : Src) (b : Src) : RoundTrip.Statement (.mulhi sw d a b) := by
  intro _ hw rest
  refine roundtrip ?_ hw
  have hs := src_src (a := a) (b := b) (of_decide_eq_true (show decide (a.lits + b.lits ≤ 1) = true from hw)) rest
  show decodeRaw (mkWord sw 52 (bodyR d.code a.code b.code)) (litsOf (a.words ++ b.words ++ rest)).1 (litsOf (a.words ++ b.words ++ rest)).2 = some (.mulhi sw d a b)
  generalize litsOf (a.words ++ b.words ++ rest) = ls at hs ⊢
  have hd : d.code < 256 := Dst.code_lt d
  have ha : a.code < 256 := Src.code_lt a
  have hb : b.code < 256 := Src.code_lt b
  rw [raw_row3 sw (lo := 4) rfl (by decide) (bodyR_lt hd ha hb), fldR_d hd ha hb, fldR_a ha hb, fldR_b hb]
  simp [decRow3, Src.dec_code _ hs.1, Src.dec_code _ hs.2, Dst.dec_code]

theorem RoundTrip.addc (sw : Bool) (d : Dst) (a : Src) (b : Src) : RoundTrip.Statement (.addc sw d a b) := by
  intro _ hw rest
  refine roundtrip ?_ hw
  have hs := src_src (a := a) (b := b) (of_decide_eq_true (show decide (a.lits + b.lits ≤ 1) = true from hw)) rest
  show decodeRaw (mkWord sw 53 (bodyR d.code a.code b.code)) (litsOf (a.words ++ b.words ++ rest)).1 (litsOf (a.words ++ b.words ++ rest)).2 = some (.addc sw d a b)
  generalize litsOf (a.words ++ b.words ++ rest) = ls at hs ⊢
  have hd : d.code < 256 := Dst.code_lt d
  have ha : a.code < 256 := Src.code_lt a
  have hb : b.code < 256 := Src.code_lt b
  rw [raw_row3 sw (lo := 5) rfl (by decide) (bodyR_lt hd ha hb), fldR_d hd ha hb, fldR_a ha hb, fldR_b hb]
  simp [decRow3, Src.dec_code _ hs.1, Src.dec_code _ hs.2, Dst.dec_code]

theorem RoundTrip.lea (sw : Bool) (d : Dst) (a : Src) (b : Src) : RoundTrip.Statement (.lea sw d a b) := by
  intro _ hw rest
  refine roundtrip ?_ hw
  have hs := src_src (a := a) (b := b) (of_decide_eq_true (show decide (a.lits + b.lits ≤ 1) = true from hw)) rest
  show decodeRaw (mkWord sw 54 (bodyR d.code a.code b.code)) (litsOf (a.words ++ b.words ++ rest)).1 (litsOf (a.words ++ b.words ++ rest)).2 = some (.lea sw d a b)
  generalize litsOf (a.words ++ b.words ++ rest) = ls at hs ⊢
  have hd : d.code < 256 := Dst.code_lt d
  have ha : a.code < 256 := Src.code_lt a
  have hb : b.code < 256 := Src.code_lt b
  rw [raw_row3 sw (lo := 6) rfl (by decide) (bodyR_lt hd ha hb), fldR_d hd ha hb, fldR_a ha hb, fldR_b hb]
  simp [decRow3, Src.dec_code _ hs.1, Src.dec_code _ hs.2, Dst.dec_code]

theorem RoundTrip.mov (sw : Bool) (d : Dst) (a : Src) : RoundTrip.Statement (.mov sw d a) := by
  intro _ hw rest
  refine roundtrip ?_ hw
  have hs := src_agrees a rest
  show decodeRaw (mkWord sw 55 (bodyR d.code a.code 0)) (litsOf (a.words ++ rest)).1 (litsOf (a.words ++ rest)).2 = some (.mov sw d a)
  generalize litsOf (a.words ++ rest) = ls at hs ⊢
  have hd : d.code < 256 := Dst.code_lt d
  have ha : a.code < 256 := Src.code_lt a
  have hb : 0 < 256 := by decide
  rw [raw_row3 sw (lo := 7) rfl (by decide) (bodyR_lt hd ha hb), fldR_d hd ha hb, fldR_a ha hb, fldR_b hb]
  simp [decRow3, Src.dec_code _ hs, Dst.dec_code]

theorem RoundTrip.plog (sw : Bool) (p : PReg) (a : PReg) (b : PReg) (table : BitVec 4) : RoundTrip.Statement (.plog sw p a b table) := by
  intro _ hw rest
  refine roundtrip ?_ hw
  show decodeRaw (mkWord sw 56 (p.val * 2097152 + a.val * 262144 + b.val * 32768 + table.toNat * 2048)) (litsOf ([] ++ rest)).1 (litsOf ([] ++ rest)).2 = some (.plog sw p a b table)
  have h0 := table.isLt
  have h1 := p.isLt
  have h2 := a.isLt
  have h3 := b.isLt
  have e11_4 : fld (p.val * 2097152 + a.val * 262144 + b.val * 32768 + table.toNat * 2048) 11 4 = table.toNat := by simp only [fld]; omega
  have e15_3 : fld (p.val * 2097152 + a.val * 262144 + b.val * 32768 + table.toNat * 2048) 15 3 = b.val := by simp only [fld]; omega
  have e18_3 : fld (p.val * 2097152 + a.val * 262144 + b.val * 32768 + table.toNat * 2048) 18 3 = a.val := by simp only [fld]; omega
  have e21_3 : fld (p.val * 2097152 + a.val * 262144 + b.val * 32768 + table.toNat * 2048) 21 3 = p.val := by simp only [fld]; omega
  have hb : p.val * 2097152 + a.val * 262144 + b.val * 32768 + table.toNat * 2048 < 2 ^ 24 := by omega
  rw [raw_row3 sw (lo := 8) rfl (by decide) hb]
  simp [decRow3, e11_4, e15_3, e18_3, e21_3, fld_body sw (show 56 < 128 by decide) hb, fin_ofNat_val, finDec_val]

theorem RoundTrip.vtop (sw : Bool) (p : PReg) (a : Src) : RoundTrip.Statement (.vtop sw p a) := by
  intro _ hw rest
  refine roundtrip ?_ hw
  have hs := src_agrees a rest
  show decodeRaw (mkWord sw 57 (bodyR p.val a.code 0)) (litsOf (a.words ++ rest)).1 (litsOf (a.words ++ rest)).2 = some (.vtop sw p a)
  generalize litsOf (a.words ++ rest) = ls at hs ⊢
  have hd : p.val < 256 := by omega
  have ha : a.code < 256 := Src.code_lt a
  have hb : 0 < 256 := by decide
  rw [raw_row3 sw (lo := 9) rfl (by decide) (bodyR_lt hd ha hb), fldR_d hd ha hb, fldR_a ha hb, fldR_b hb]
  simp [decRow3, Src.dec_code _ hs, finDec_val]

theorem RoundTrip.ptov (sw : Bool) (d : Dst) (p : PReg) : RoundTrip.Statement (.ptov sw d p) := by
  intro _ hw rest
  refine roundtrip ?_ hw
  show decodeRaw (mkWord sw 58 (bodyR d.code p.val 0)) (litsOf ([] ++ rest)).1 (litsOf ([] ++ rest)).2 = some (.ptov sw d p)
  have hd : d.code < 256 := Dst.code_lt d
  have ha : p.val < 256 := by omega
  have hb : 0 < 256 := by decide
  rw [raw_row3 sw (lo := 10) rfl (by decide) (bodyR_lt hd ha hb), fldR_d hd ha hb, fldR_a ha hb, fldR_b hb]
  simp [decRow3, Dst.dec_code, finDec_val]

theorem RoundTrip.shfl (sw : Bool) (d : Dst) (a : Src) (b : Src) : RoundTrip.Statement (.shfl sw d a b) := by
  intro _ hw rest
  refine roundtrip ?_ hw
  have hs := src_src (a := a) (b := b) (of_decide_eq_true (show decide (a.lits + b.lits ≤ 1) = true from hw)) rest
  show decodeRaw (mkWord sw 59 (bodyR d.code a.code b.code)) (litsOf (a.words ++ b.words ++ rest)).1 (litsOf (a.words ++ b.words ++ rest)).2 = some (.shfl sw d a b)
  generalize litsOf (a.words ++ b.words ++ rest) = ls at hs ⊢
  have hd : d.code < 256 := Dst.code_lt d
  have ha : a.code < 256 := Src.code_lt a
  have hb : b.code < 256 := Src.code_lt b
  rw [raw_row3 sw (lo := 11) rfl (by decide) (bodyR_lt hd ha hb), fldR_d hd ha hb, fldR_a ha hb, fldR_b hb]
  simp [decRow3, Src.dec_code _ hs.1, Src.dec_code _ hs.2, Dst.dec_code]

theorem RoundTrip.shfx (sw : Bool) (d : Dst) (a : Src) (b : Src) : RoundTrip.Statement (.shfx sw d a b) := by
  intro _ hw rest
  refine roundtrip ?_ hw
  have hs := src_src (a := a) (b := b) (of_decide_eq_true (show decide (a.lits + b.lits ≤ 1) = true from hw)) rest
  show decodeRaw (mkWord sw 60 (bodyR d.code a.code b.code)) (litsOf (a.words ++ b.words ++ rest)).1 (litsOf (a.words ++ b.words ++ rest)).2 = some (.shfx sw d a b)
  generalize litsOf (a.words ++ b.words ++ rest) = ls at hs ⊢
  have hd : d.code < 256 := Dst.code_lt d
  have ha : a.code < 256 := Src.code_lt a
  have hb : b.code < 256 := Src.code_lt b
  rw [raw_row3 sw (lo := 12) rfl (by decide) (bodyR_lt hd ha hb), fldR_d hd ha hb, fldR_a ha hb, fldR_b hb]
  simp [decRow3, Src.dec_code _ hs.1, Src.dec_code _ hs.2, Dst.dec_code]

theorem RoundTrip.shfu (sw : Bool) (d : Dst) (a : Src) (b : Src) : RoundTrip.Statement (.shfu sw d a b) := by
  intro _ hw rest
  refine roundtrip ?_ hw
  have hs := src_src (a := a) (b := b) (of_decide_eq_true (show decide (a.lits + b.lits ≤ 1) = true from hw)) rest
  show decodeRaw (mkWord sw 61 (bodyR d.code a.code b.code)) (litsOf (a.words ++ b.words ++ rest)).1 (litsOf (a.words ++ b.words ++ rest)).2 = some (.shfu sw d a b)
  generalize litsOf (a.words ++ b.words ++ rest) = ls at hs ⊢
  have hd : d.code < 256 := Dst.code_lt d
  have ha : a.code < 256 := Src.code_lt a
  have hb : b.code < 256 := Src.code_lt b
  rw [raw_row3 sw (lo := 13) rfl (by decide) (bodyR_lt hd ha hb), fldR_d hd ha hb, fldR_a ha hb, fldR_b hb]
  simp [decRow3, Src.dec_code _ hs.1, Src.dec_code _ hs.2, Dst.dec_code]

theorem RoundTrip.shfd (sw : Bool) (d : Dst) (a : Src) (b : Src) : RoundTrip.Statement (.shfd sw d a b) := by
  intro _ hw rest
  refine roundtrip ?_ hw
  have hs := src_src (a := a) (b := b) (of_decide_eq_true (show decide (a.lits + b.lits ≤ 1) = true from hw)) rest
  show decodeRaw (mkWord sw 62 (bodyR d.code a.code b.code)) (litsOf (a.words ++ b.words ++ rest)).1 (litsOf (a.words ++ b.words ++ rest)).2 = some (.shfd sw d a b)
  generalize litsOf (a.words ++ b.words ++ rest) = ls at hs ⊢
  have hd : d.code < 256 := Dst.code_lt d
  have ha : a.code < 256 := Src.code_lt a
  have hb : b.code < 256 := Src.code_lt b
  rw [raw_row3 sw (lo := 14) rfl (by decide) (bodyR_lt hd ha hb), fldR_d hd ha hb, fldR_a ha hb, fldR_b hb]
  simp [decRow3, Src.dec_code _ hs.1, Src.dec_code _ hs.2, Dst.dec_code]

theorem RoundTrip.vote (sw : Bool) (p : PReg) (f : VoteFn) (a : Src) : RoundTrip.Statement (.vote sw p f a) := by
  intro _ hw rest
  refine roundtrip ?_ hw
  have hs := src_agrees a rest
  show decodeRaw (mkWord sw 63 (bodyR (p.val * 32 + f.code) a.code 0)) (litsOf (a.words ++ rest)).1 (litsOf (a.words ++ rest)).2 = some (.vote sw p f a)
  generalize litsOf (a.words ++ rest) = ls at hs ⊢
  have hd : p.val * 32 + f.code < 256 := by have := VoteFn.code_lt f; omega
  have ha : a.code < 256 := Src.code_lt a
  have hb : 0 < 256 := by decide
  rw [raw_row3 sw (lo := 15) rfl (by decide) (bodyR_lt hd ha hb), fldR_d hd ha hb, fldR_a ha hb, fldR_b hb]
  have hf := VoteFn.code_lt f
  have hp := p.isLt
  simp [decRow3, Src.dec_code _ hs, fld_body sw (show 63 < 128 by decide) (bodyR_lt hd ha hb), fldC_f hf ha hb, fldC_p hp hf ha hb, VoteFn.dec_code, fin_ofNat_val, finDec_val]

theorem RoundTrip.ballot (sw : Bool) (d : SReg) (a : Src) (b : USrc) : RoundTrip.Statement (.ballot sw d a b) := by
  intro _ hw rest
  refine roundtrip ?_ hw
  have hs := src_usrc (a := a) (b := b) (of_decide_eq_true (show decide (a.lits + b.lits ≤ 1) = true from hw)) rest
  show decodeRaw (mkWord sw 64 (bodyR (192 + d.val) a.code b.code)) (litsOf (a.words ++ b.words ++ rest)).1 (litsOf (a.words ++ b.words ++ rest)).2 = some (.ballot sw d a b)
  generalize litsOf (a.words ++ b.words ++ rest) = ls at hs ⊢
  have hd : 192 + d.val < 256 := by omega
  have ha : a.code < 256 := Src.code_lt a
  have hb : b.code < 256 := USrc.code_lt b
  rw [raw_row4 sw (lo := 0) rfl (by decide) (bodyR_lt hd ha hb), fldR_d hd ha hb, fldR_a ha hb, fldR_b hb]
  simp [decRow4, Src.dec_code _ hs.1, USrc.dec_code _ hs.2, sregDec_code]

theorem RoundTrip.psum (sw : Bool) (d : Dst) (a : Src) : RoundTrip.Statement (.psum sw d a) := by
  intro _ hw rest
  refine roundtrip ?_ hw
  have hs := src_agrees a rest
  show decodeRaw (mkWord sw 65 (bodyR d.code a.code 0)) (litsOf (a.words ++ rest)).1 (litsOf (a.words ++ rest)).2 = some (.psum sw d a)
  generalize litsOf (a.words ++ rest) = ls at hs ⊢
  have hd : d.code < 256 := Dst.code_lt d
  have ha : a.code < 256 := Src.code_lt a
  have hb : 0 < 256 := by decide
  rw [raw_row4 sw (lo := 1) rfl (by decide) (bodyR_lt hd ha hb), fldR_d hd ha hb, fldR_a ha hb, fldR_b hb]
  simp [decRow4, Src.dec_code _ hs, Dst.dec_code]

theorem RoundTrip.redu (sw : Bool) (d : SReg) (a : Src) : RoundTrip.Statement (.redu sw d a) := by
  intro _ hw rest
  refine roundtrip ?_ hw
  have hs := src_agrees a rest
  show decodeRaw (mkWord sw 66 (bodyR (192 + d.val) a.code 0)) (litsOf (a.words ++ rest)).1 (litsOf (a.words ++ rest)).2 = some (.redu sw d a)
  generalize litsOf (a.words ++ rest) = ls at hs ⊢
  have hd : 192 + d.val < 256 := by omega
  have ha : a.code < 256 := Src.code_lt a
  have hb : 0 < 256 := by decide
  rw [raw_row4 sw (lo := 2) rfl (by decide) (bodyR_lt hd ha hb), fldR_d hd ha hb, fldR_a ha hb, fldR_b hb]
  simp [decRow4, Src.dec_code _ hs, sregDec_code]

theorem RoundTrip.vconf (sw : Bool) (d : Dst) (a : Src) : RoundTrip.Statement (.vconf sw d a) := by
  intro _ hw rest
  refine roundtrip ?_ hw
  have hs := src_agrees a rest
  show decodeRaw (mkWord sw 67 (bodyR d.code a.code 0)) (litsOf (a.words ++ rest)).1 (litsOf (a.words ++ rest)).2 = some (.vconf sw d a)
  generalize litsOf (a.words ++ rest) = ls at hs ⊢
  have hd : d.code < 256 := Dst.code_lt d
  have ha : a.code < 256 := Src.code_lt a
  have hb : 0 < 256 := by decide
  rw [raw_row4 sw (lo := 3) rfl (by decide) (bodyR_lt hd ha hb), fldR_d hd ha hb, fldR_a ha hb, fldR_b hb]
  simp [decRow4, Src.dec_code _ hs, Dst.dec_code]

theorem RoundTrip.rdlane (sw : Bool) (d : SReg) (a : Src) (b : USrc) : RoundTrip.Statement (.rdlane sw d a b) := by
  intro _ hw rest
  refine roundtrip ?_ hw
  have hs := src_usrc (a := a) (b := b) (of_decide_eq_true (show decide (a.lits + b.lits ≤ 1) = true from hw)) rest
  show decodeRaw (mkWord sw 68 (bodyR (192 + d.val) a.code b.code)) (litsOf (a.words ++ b.words ++ rest)).1 (litsOf (a.words ++ b.words ++ rest)).2 = some (.rdlane sw d a b)
  generalize litsOf (a.words ++ b.words ++ rest) = ls at hs ⊢
  have hd : 192 + d.val < 256 := by omega
  have ha : a.code < 256 := Src.code_lt a
  have hb : b.code < 256 := USrc.code_lt b
  rw [raw_row4 sw (lo := 4) rfl (by decide) (bodyR_lt hd ha hb), fldR_d hd ha hb, fldR_a ha hb, fldR_b hb]
  simp [decRow4, Src.dec_code _ hs.1, USrc.dec_code _ hs.2, sregDec_code]

theorem RoundTrip.xset (sw : Bool) (x : Fin 4) (a : Src) : RoundTrip.Statement (.xset sw x a) := by
  intro _ hw rest
  refine roundtrip ?_ hw
  have hs := src_agrees a rest
  show decodeRaw (mkWord sw 69 (bodyR x.val a.code 0)) (litsOf (a.words ++ rest)).1 (litsOf (a.words ++ rest)).2 = some (.xset sw x a)
  generalize litsOf (a.words ++ rest) = ls at hs ⊢
  have hd : x.val < 256 := by omega
  have ha : a.code < 256 := Src.code_lt a
  have hb : 0 < 256 := by decide
  rw [raw_row4 sw (lo := 5) rfl (by decide) (bodyR_lt hd ha hb), fldR_d hd ha hb, fldR_a ha hb, fldR_b hb]
  simp [decRow4, Src.dec_code _ hs, finDec_val, fin_ofNat_val]

theorem RoundTrip.xwin (sw : Bool) (x : Fin 4) (base : Fin 192) (len : Cnt) : RoundTrip.Statement (.xwin sw x base len) := by
  intro _ hw rest
  refine roundtrip ?_ hw
  have hs := cnt_agrees len rest
  show decodeRaw (mkWord sw 70 (bodyR x.val base.val len.code)) (litsOf (len.words ++ rest)).1 (litsOf (len.words ++ rest)).2 = some (.xwin sw x base len)
  generalize litsOf (len.words ++ rest) = ls at hs ⊢
  have hd : x.val < 256 := by omega
  have ha : base.val < 256 := by omega
  have hb : len.code < 256 := Cnt.code_lt len
  rw [raw_row4 sw (lo := 6) rfl (by decide) (bodyR_lt hd ha hb), fldR_d hd ha hb, fldR_a ha hb, fldR_b hb]
  simp [decRow4, Cnt.dec_code _ hs, finDec_val, fin_ofNat_val]

theorem RoundTrip.uadd (sw : Bool) (d : SReg) (a : USrc) (b : USrc) : RoundTrip.Statement (.uadd sw d a b) := by
  intro _ hw rest
  refine roundtrip ?_ hw
  have hs := usrc_usrc (a := a) (b := b) (of_decide_eq_true (show decide (a.lits + b.lits ≤ 1) = true from hw)) rest
  show decodeRaw (mkWord sw 72 (bodyR (192 + d.val) a.code b.code)) (litsOf (a.words ++ b.words ++ rest)).1 (litsOf (a.words ++ b.words ++ rest)).2 = some (.uadd sw d a b)
  generalize litsOf (a.words ++ b.words ++ rest) = ls at hs ⊢
  have hd : 192 + d.val < 256 := by omega
  have ha : a.code < 256 := USrc.code_lt a
  have hb : b.code < 256 := USrc.code_lt b
  rw [raw_row4 sw (lo := 8) rfl (by decide) (bodyR_lt hd ha hb), fldR_d hd ha hb, fldR_a ha hb, fldR_b hb]
  simp [decRow4, USrc.dec_code _ hs.1, USrc.dec_code _ hs.2, sregDec_code]

theorem RoundTrip.usub (sw : Bool) (d : SReg) (a : USrc) (b : USrc) : RoundTrip.Statement (.usub sw d a b) := by
  intro _ hw rest
  refine roundtrip ?_ hw
  have hs := usrc_usrc (a := a) (b := b) (of_decide_eq_true (show decide (a.lits + b.lits ≤ 1) = true from hw)) rest
  show decodeRaw (mkWord sw 73 (bodyR (192 + d.val) a.code b.code)) (litsOf (a.words ++ b.words ++ rest)).1 (litsOf (a.words ++ b.words ++ rest)).2 = some (.usub sw d a b)
  generalize litsOf (a.words ++ b.words ++ rest) = ls at hs ⊢
  have hd : 192 + d.val < 256 := by omega
  have ha : a.code < 256 := USrc.code_lt a
  have hb : b.code < 256 := USrc.code_lt b
  rw [raw_row4 sw (lo := 9) rfl (by decide) (bodyR_lt hd ha hb), fldR_d hd ha hb, fldR_a ha hb, fldR_b hb]
  simp [decRow4, USrc.dec_code _ hs.1, USrc.dec_code _ hs.2, sregDec_code]

theorem RoundTrip.umul (sw : Bool) (d : SReg) (a : USrc) (b : USrc) : RoundTrip.Statement (.umul sw d a b) := by
  intro _ hw rest
  refine roundtrip ?_ hw
  have hs := usrc_usrc (a := a) (b := b) (of_decide_eq_true (show decide (a.lits + b.lits ≤ 1) = true from hw)) rest
  show decodeRaw (mkWord sw 74 (bodyR (192 + d.val) a.code b.code)) (litsOf (a.words ++ b.words ++ rest)).1 (litsOf (a.words ++ b.words ++ rest)).2 = some (.umul sw d a b)
  generalize litsOf (a.words ++ b.words ++ rest) = ls at hs ⊢
  have hd : 192 + d.val < 256 := by omega
  have ha : a.code < 256 := USrc.code_lt a
  have hb : b.code < 256 := USrc.code_lt b
  rw [raw_row4 sw (lo := 10) rfl (by decide) (bodyR_lt hd ha hb), fldR_d hd ha hb, fldR_a ha hb, fldR_b hb]
  simp [decRow4, USrc.dec_code _ hs.1, USrc.dec_code _ hs.2, sregDec_code]

theorem RoundTrip.uand (sw : Bool) (d : SReg) (a : USrc) (b : USrc) : RoundTrip.Statement (.uand sw d a b) := by
  intro _ hw rest
  refine roundtrip ?_ hw
  have hs := usrc_usrc (a := a) (b := b) (of_decide_eq_true (show decide (a.lits + b.lits ≤ 1) = true from hw)) rest
  show decodeRaw (mkWord sw 75 (bodyR (192 + d.val) a.code b.code)) (litsOf (a.words ++ b.words ++ rest)).1 (litsOf (a.words ++ b.words ++ rest)).2 = some (.uand sw d a b)
  generalize litsOf (a.words ++ b.words ++ rest) = ls at hs ⊢
  have hd : 192 + d.val < 256 := by omega
  have ha : a.code < 256 := USrc.code_lt a
  have hb : b.code < 256 := USrc.code_lt b
  rw [raw_row4 sw (lo := 11) rfl (by decide) (bodyR_lt hd ha hb), fldR_d hd ha hb, fldR_a ha hb, fldR_b hb]
  simp [decRow4, USrc.dec_code _ hs.1, USrc.dec_code _ hs.2, sregDec_code]

theorem RoundTrip.uor (sw : Bool) (d : SReg) (a : USrc) (b : USrc) : RoundTrip.Statement (.uor sw d a b) := by
  intro _ hw rest
  refine roundtrip ?_ hw
  have hs := usrc_usrc (a := a) (b := b) (of_decide_eq_true (show decide (a.lits + b.lits ≤ 1) = true from hw)) rest
  show decodeRaw (mkWord sw 76 (bodyR (192 + d.val) a.code b.code)) (litsOf (a.words ++ b.words ++ rest)).1 (litsOf (a.words ++ b.words ++ rest)).2 = some (.uor sw d a b)
  generalize litsOf (a.words ++ b.words ++ rest) = ls at hs ⊢
  have hd : 192 + d.val < 256 := by omega
  have ha : a.code < 256 := USrc.code_lt a
  have hb : b.code < 256 := USrc.code_lt b
  rw [raw_row4 sw (lo := 12) rfl (by decide) (bodyR_lt hd ha hb), fldR_d hd ha hb, fldR_a ha hb, fldR_b hb]
  simp [decRow4, USrc.dec_code _ hs.1, USrc.dec_code _ hs.2, sregDec_code]

theorem RoundTrip.uxor (sw : Bool) (d : SReg) (a : USrc) (b : USrc) : RoundTrip.Statement (.uxor sw d a b) := by
  intro _ hw rest
  refine roundtrip ?_ hw
  have hs := usrc_usrc (a := a) (b := b) (of_decide_eq_true (show decide (a.lits + b.lits ≤ 1) = true from hw)) rest
  show decodeRaw (mkWord sw 77 (bodyR (192 + d.val) a.code b.code)) (litsOf (a.words ++ b.words ++ rest)).1 (litsOf (a.words ++ b.words ++ rest)).2 = some (.uxor sw d a b)
  generalize litsOf (a.words ++ b.words ++ rest) = ls at hs ⊢
  have hd : 192 + d.val < 256 := by omega
  have ha : a.code < 256 := USrc.code_lt a
  have hb : b.code < 256 := USrc.code_lt b
  rw [raw_row4 sw (lo := 13) rfl (by decide) (bodyR_lt hd ha hb), fldR_d hd ha hb, fldR_a ha hb, fldR_b hb]
  simp [decRow4, USrc.dec_code _ hs.1, USrc.dec_code _ hs.2, sregDec_code]

theorem RoundTrip.ushl (sw : Bool) (d : SReg) (a : USrc) (b : USrc) : RoundTrip.Statement (.ushl sw d a b) := by
  intro _ hw rest
  refine roundtrip ?_ hw
  have hs := usrc_usrc (a := a) (b := b) (of_decide_eq_true (show decide (a.lits + b.lits ≤ 1) = true from hw)) rest
  show decodeRaw (mkWord sw 78 (bodyR (192 + d.val) a.code b.code)) (litsOf (a.words ++ b.words ++ rest)).1 (litsOf (a.words ++ b.words ++ rest)).2 = some (.ushl sw d a b)
  generalize litsOf (a.words ++ b.words ++ rest) = ls at hs ⊢
  have hd : 192 + d.val < 256 := by omega
  have ha : a.code < 256 := USrc.code_lt a
  have hb : b.code < 256 := USrc.code_lt b
  rw [raw_row4 sw (lo := 14) rfl (by decide) (bodyR_lt hd ha hb), fldR_d hd ha hb, fldR_a ha hb, fldR_b hb]
  simp [decRow4, USrc.dec_code _ hs.1, USrc.dec_code _ hs.2, sregDec_code]

theorem RoundTrip.ushr (sw : Bool) (d : SReg) (a : USrc) (b : USrc) : RoundTrip.Statement (.ushr sw d a b) := by
  intro _ hw rest
  refine roundtrip ?_ hw
  have hs := usrc_usrc (a := a) (b := b) (of_decide_eq_true (show decide (a.lits + b.lits ≤ 1) = true from hw)) rest
  show decodeRaw (mkWord sw 79 (bodyR (192 + d.val) a.code b.code)) (litsOf (a.words ++ b.words ++ rest)).1 (litsOf (a.words ++ b.words ++ rest)).2 = some (.ushr sw d a b)
  generalize litsOf (a.words ++ b.words ++ rest) = ls at hs ⊢
  have hd : 192 + d.val < 256 := by omega
  have ha : a.code < 256 := USrc.code_lt a
  have hb : b.code < 256 := USrc.code_lt b
  rw [raw_row4 sw (lo := 15) rfl (by decide) (bodyR_lt hd ha hb), fldR_d hd ha hb, fldR_a ha hb, fldR_b hb]
  simp [decRow4, USrc.dec_code _ hs.1, USrc.dec_code _ hs.2, sregDec_code]

theorem RoundTrip.umov (sw : Bool) (d : SReg) (a : USrc) : RoundTrip.Statement (.umov sw d a) := by
  intro _ hw rest
  refine roundtrip ?_ hw
  have hs := usrc_agrees a rest
  show decodeRaw (mkWord sw 80 (bodyR (192 + d.val) a.code 0)) (litsOf (a.words ++ rest)).1 (litsOf (a.words ++ rest)).2 = some (.umov sw d a)
  generalize litsOf (a.words ++ rest) = ls at hs ⊢
  have hd : 192 + d.val < 256 := by omega
  have ha : a.code < 256 := USrc.code_lt a
  have hb : 0 < 256 := by decide
  rw [raw_row5 sw (lo := 0) rfl (by decide) (bodyR_lt hd ha hb), fldR_d hd ha hb, fldR_a ha hb, fldR_b hb]
  have n1 : ¬ 192 + d.val = 248 := by omega
  have n2 : ¬ 192 + d.val = 250 := by omega
  have n3 : ¬ a.code = 251 := by cases a <;> simp only [USrc.code] <;> omega
  simp [decRow5, USrc.dec_code _ hs, sregDec_code, n1, n2, n3]

theorem RoundTrip.umovPushQ0 (sw : Bool) (a : USrc) : RoundTrip.Statement (.umovPushQ0 sw a) := by
  intro _ hw rest
  refine roundtrip ?_ hw
  have hs := usrc_agrees a rest
  show decodeRaw (mkWord sw 80 (bodyR 248 a.code 0)) (litsOf (a.words ++ rest)).1 (litsOf (a.words ++ rest)).2 = some (.umovPushQ0 sw a)
  generalize litsOf (a.words ++ rest) = ls at hs ⊢
  have hd : 248 < 256 := by decide
  have ha : a.code < 256 := USrc.code_lt a
  have hb : 0 < 256 := by decide
  rw [raw_row5 sw (lo := 0) rfl (by decide) (bodyR_lt hd ha hb), fldR_d hd ha hb, fldR_a ha hb, fldR_b hb]
  simp [decRow5, USrc.dec_code _ hs]

theorem RoundTrip.umovPushQ2 (sw : Bool) (a : USrc) : RoundTrip.Statement (.umovPushQ2 sw a) := by
  intro _ hw rest
  refine roundtrip ?_ hw
  have hs := usrc_agrees a rest
  show decodeRaw (mkWord sw 80 (bodyR 250 a.code 0)) (litsOf (a.words ++ rest)).1 (litsOf (a.words ++ rest)).2 = some (.umovPushQ2 sw a)
  generalize litsOf (a.words ++ rest) = ls at hs ⊢
  have hd : 250 < 256 := by decide
  have ha : a.code < 256 := USrc.code_lt a
  have hb : 0 < 256 := by decide
  rw [raw_row5 sw (lo := 0) rfl (by decide) (bodyR_lt hd ha hb), fldR_d hd ha hb, fldR_a ha hb, fldR_b hb]
  simp [decRow5, USrc.dec_code _ hs]

theorem RoundTrip.umovPopQ3 (sw : Bool) (d : SReg) : RoundTrip.Statement (.umovPopQ3 sw d) := by
  intro _ hw rest
  refine roundtrip ?_ hw
  show decodeRaw (mkWord sw 80 (bodyR (192 + d.val) 251 0)) (litsOf ([] ++ rest)).1 (litsOf ([] ++ rest)).2 = some (.umovPopQ3 sw d)
  have hd : 192 + d.val < 256 := by omega
  have ha : 251 < 256 := by decide
  have hb : 0 < 256 := by decide
  rw [raw_row5 sw (lo := 0) rfl (by decide) (bodyR_lt hd ha hb), fldR_d hd ha hb, fldR_a ha hb, fldR_b hb]
  have n1 : ¬ 192 + d.val = 248 := by omega
  have n2 : ¬ 192 + d.val = 250 := by omega
  simp [decRow5, sregDec_code, n1, n2]

theorem RoundTrip.ucmp (sw : Bool) (p : PReg) (f : Rel) (a : USrc) (b : USrc) : RoundTrip.Statement (.ucmp sw p f a b) := by
  intro _ hw rest
  refine roundtrip ?_ hw
  have hs := usrc_usrc (a := a) (b := b) (of_decide_eq_true (show decide (a.lits + b.lits ≤ 1) = true from hw)) rest
  show decodeRaw (mkWord sw 81 (bodyR (p.val * 32 + f.code) a.code b.code)) (litsOf (a.words ++ b.words ++ rest)).1 (litsOf (a.words ++ b.words ++ rest)).2 = some (.ucmp sw p f a b)
  generalize litsOf (a.words ++ b.words ++ rest) = ls at hs ⊢
  have hd : p.val * 32 + f.code < 256 := by have := Rel.code_lt f; omega
  have ha : a.code < 256 := USrc.code_lt a
  have hb : b.code < 256 := USrc.code_lt b
  rw [raw_row5 sw (lo := 1) rfl (by decide) (bodyR_lt hd ha hb), fldR_d hd ha hb, fldR_a ha hb, fldR_b hb]
  have hf := Rel.code_lt f
  have hp := p.isLt
  simp [decRow5, USrc.dec_code _ hs.1, USrc.dec_code _ hs.2, fld_body sw (show 81 < 128 by decide) (bodyR_lt hd ha hb), fldC_f hf ha hb, fldC_p hp hf ha hb, Rel.dec_code, fin_ofNat_val, finDec_val]

theorem RoundTrip.umin (sw : Bool) (d : SReg) (a : USrc) (b : USrc) : RoundTrip.Statement (.umin sw d a b) := by
  intro _ hw rest
  refine roundtrip ?_ hw
  have hs := usrc_usrc (a := a) (b := b) (of_decide_eq_true (show decide (a.lits + b.lits ≤ 1) = true from hw)) rest
  show decodeRaw (mkWord sw 82 (bodyR (192 + d.val) a.code b.code)) (litsOf (a.words ++ b.words ++ rest)).1 (litsOf (a.words ++ b.words ++ rest)).2 = some (.umin sw d a b)
  generalize litsOf (a.words ++ b.words ++ rest) = ls at hs ⊢
  have hd : 192 + d.val < 256 := by omega
  have ha : a.code < 256 := USrc.code_lt a
  have hb : b.code < 256 := USrc.code_lt b
  rw [raw_row5 sw (lo := 2) rfl (by decide) (bodyR_lt hd ha hb), fldR_d hd ha hb, fldR_a ha hb, fldR_b hb]
  simp [decRow5, USrc.dec_code _ hs.1, USrc.dec_code _ hs.2, sregDec_code]

theorem RoundTrip.umax (sw : Bool) (d : SReg) (a : USrc) (b : USrc) : RoundTrip.Statement (.umax sw d a b) := by
  intro _ hw rest
  refine roundtrip ?_ hw
  have hs := usrc_usrc (a := a) (b := b) (of_decide_eq_true (show decide (a.lits + b.lits ≤ 1) = true from hw)) rest
  show decodeRaw (mkWord sw 83 (bodyR (192 + d.val) a.code b.code)) (litsOf (a.words ++ b.words ++ rest)).1 (litsOf (a.words ++ b.words ++ rest)).2 = some (.umax sw d a b)
  generalize litsOf (a.words ++ b.words ++ rest) = ls at hs ⊢
  have hd : 192 + d.val < 256 := by omega
  have ha : a.code < 256 := USrc.code_lt a
  have hb : b.code < 256 := USrc.code_lt b
  rw [raw_row5 sw (lo := 3) rfl (by decide) (bodyR_lt hd ha hb), fldR_d hd ha hb, fldR_a ha hb, fldR_b hb]
  simp [decRow5, USrc.dec_code _ hs.1, USrc.dec_code _ hs.2, sregDec_code]

theorem RoundTrip.udiv (sw : Bool) (d : SReg) (a : USrc) (b : USrc) : RoundTrip.Statement (.udiv sw d a b) := by
  intro _ hw rest
  refine roundtrip ?_ hw
  have hs := usrc_usrc (a := a) (b := b) (of_decide_eq_true (show decide (a.lits + b.lits ≤ 1) = true from hw)) rest
  show decodeRaw (mkWord sw 84 (bodyR (192 + d.val) a.code b.code)) (litsOf (a.words ++ b.words ++ rest)).1 (litsOf (a.words ++ b.words ++ rest)).2 = some (.udiv sw d a b)
  generalize litsOf (a.words ++ b.words ++ rest) = ls at hs ⊢
  have hd : 192 + d.val < 256 := by omega
  have ha : a.code < 256 := USrc.code_lt a
  have hb : b.code < 256 := USrc.code_lt b
  rw [raw_row5 sw (lo := 4) rfl (by decide) (bodyR_lt hd ha hb), fldR_d hd ha hb, fldR_a ha hb, fldR_b hb]
  simp [decRow5, USrc.dec_code _ hs.1, USrc.dec_code _ hs.2, sregDec_code]

theorem RoundTrip.urem (sw : Bool) (d : SReg) (a : USrc) (b : USrc) : RoundTrip.Statement (.urem sw d a b) := by
  intro _ hw rest
  refine roundtrip ?_ hw
  have hs := usrc_usrc (a := a) (b := b) (of_decide_eq_true (show decide (a.lits + b.lits ≤ 1) = true from hw)) rest
  show decodeRaw (mkWord sw 85 (bodyR (192 + d.val) a.code b.code)) (litsOf (a.words ++ b.words ++ rest)).1 (litsOf (a.words ++ b.words ++ rest)).2 = some (.urem sw d a b)
  generalize litsOf (a.words ++ b.words ++ rest) = ls at hs ⊢
  have hd : 192 + d.val < 256 := by omega
  have ha : a.code < 256 := USrc.code_lt a
  have hb : b.code < 256 := USrc.code_lt b
  rw [raw_row5 sw (lo := 5) rfl (by decide) (bodyR_lt hd ha hb), fldR_d hd ha hb, fldR_a ha hb, fldR_b hb]
  simp [decRow5, USrc.dec_code _ hs.1, USrc.dec_code _ hs.2, sregDec_code]

theorem RoundTrip.ld (sw : Bool) (d : Dst) (a : Base) (off : Offset) (str : Stream) (form : MemForm) : RoundTrip.Statement (.ld sw d a off str form) := by
  intro _ hw rest
  refine roundtrip ?_ hw
  have hs := offDec_bit off rest
  show decodeRaw (mkWord sw 88 (bodyM d.code a.code str.val (offBit off) form.code)) (litsOf (offWords off ++ rest)).1 (litsOf (offWords off ++ rest)).2 = some (.ld sw d a off str form)
  generalize litsOf (offWords off ++ rest) = ls at hs ⊢
  have hd : d.code < 256 := Dst.code_lt d
  have ha : a.code < 256 := Base.code_lt a
  have hs1 : str.val < 16 := by omega
  have hl : offBit off < 2 := offBit_lt _
  have hf : form.code < 8 := MemForm.code_lt form
  have hb : str.val * 16 + offBit off * 8 + form.code < 256 := by omega
  rw [bodyM_eq, raw_row5 sw (lo := 8) rfl (by decide) (bodyR_lt hd ha hb), fldR_d hd ha hb, fldR_a ha hb, fldR_b hb]
  have e0 : bodyR (d.code) (a.code) (str.val * 16 + offBit off * 8 + form.code) < 2 ^ 24 := bodyR_lt hd ha hb
  have e1 : fld (bodyR (d.code) (a.code) (str.val * 16 + offBit off * 8 + form.code)) 0 3 = form.code := fldM_fn hf
  have e2 : fld (bodyR (d.code) (a.code) (str.val * 16 + offBit off * 8 + form.code)) 3 1 = offBit off := fldM_lit hl hf
  have e3 : fld (bodyR (d.code) (a.code) (str.val * 16 + offBit off * 8 + form.code)) 4 4 = str.val := fldM_str hs1 hl hf
  generalize bodyR (d.code) (a.code) (str.val * 16 + offBit off * 8 + form.code) = bd at *
  simp [decRow5, hs, MemForm.dec_code, fld_body sw (show 88 < 128 by decide) e0, e1, e2, e3, fin_ofNat_val, Dst.dec_code, Base.dec_code]

theorem RoundTrip.st (sw : Bool) (b : Src) (a : Base) (off : Offset) (str : Stream) (form : MemForm) : RoundTrip.Statement (.st sw b a off str form) := by
  intro _ hw rest
  refine roundtrip ?_ hw
  have hs := src_off (b := b) (o := off) (by have h : decide (b.lits + offLits off ≤ 1) = true := hw; simp at h; omega) rest
  show decodeRaw (mkWord sw 89 (bodyM b.code a.code str.val (offBit off) form.code)) (litsOf (b.words ++ offWords off ++ rest)).1 (litsOf (b.words ++ offWords off ++ rest)).2 = some (.st sw b a off str form)
  generalize litsOf (b.words ++ offWords off ++ rest) = ls at hs ⊢
  have hd : b.code < 256 := Src.code_lt b
  have ha : a.code < 256 := Base.code_lt a
  have hs1 : str.val < 16 := by omega
  have hl : offBit off < 2 := offBit_lt _
  have hf : form.code < 8 := MemForm.code_lt form
  have hb : str.val * 16 + offBit off * 8 + form.code < 256 := by omega
  rw [bodyM_eq, raw_row5 sw (lo := 9) rfl (by decide) (bodyR_lt hd ha hb), fldR_d hd ha hb, fldR_a ha hb, fldR_b hb]
  have e0 : bodyR (b.code) (a.code) (str.val * 16 + offBit off * 8 + form.code) < 2 ^ 24 := bodyR_lt hd ha hb
  have e1 : fld (bodyR (b.code) (a.code) (str.val * 16 + offBit off * 8 + form.code)) 0 3 = form.code := fldM_fn hf
  have e2 : fld (bodyR (b.code) (a.code) (str.val * 16 + offBit off * 8 + form.code)) 3 1 = offBit off := fldM_lit hl hf
  have e3 : fld (bodyR (b.code) (a.code) (str.val * 16 + offBit off * 8 + form.code)) 4 4 = str.val := fldM_str hs1 hl hf
  generalize bodyR (b.code) (a.code) (str.val * 16 + offBit off * 8 + form.code) = bd at *
  simp [decRow5, Src.dec_code _ hs.1, hs.2, MemForm.dec_code, fld_body sw (show 89 < 128 by decide) e0, e1, e2, e3, fin_ofNat_val, Base.dec_code]

theorem RoundTrip.ldc (sw : Bool) (d : Dst) (a : Base) (off : Offset) (form : MemForm) : RoundTrip.Statement (.ldc sw d a off form) := by
  intro _ hw rest
  refine roundtrip ?_ hw
  have hs := offDec_bit off rest
  show decodeRaw (mkWord sw 90 (bodyM d.code a.code 0 (offBit off) form.code)) (litsOf (offWords off ++ rest)).1 (litsOf (offWords off ++ rest)).2 = some (.ldc sw d a off form)
  generalize litsOf (offWords off ++ rest) = ls at hs ⊢
  have hd : d.code < 256 := Dst.code_lt d
  have ha : a.code < 256 := Base.code_lt a
  have hs1 : 0 < 16 := by omega
  have hl : offBit off < 2 := offBit_lt _
  have hf : form.code < 8 := MemForm.code_lt form
  have hb : 0 * 16 + offBit off * 8 + form.code < 256 := by omega
  rw [bodyM_eq, raw_row5 sw (lo := 10) rfl (by decide) (bodyR_lt hd ha hb), fldR_d hd ha hb, fldR_a ha hb, fldR_b hb]
  have e0 : bodyR (d.code) (a.code) (0 * 16 + offBit off * 8 + form.code) < 2 ^ 24 := bodyR_lt hd ha hb
  have e1 : fld (bodyR (d.code) (a.code) (0 * 16 + offBit off * 8 + form.code)) 0 3 = form.code := fldM_fn hf
  have e2 : fld (bodyR (d.code) (a.code) (0 * 16 + offBit off * 8 + form.code)) 3 1 = offBit off := fldM_lit hl hf
  have e3 : fld (bodyR (d.code) (a.code) (0 * 16 + offBit off * 8 + form.code)) 4 4 = 0 := fldM_str hs1 hl hf
  generalize bodyR (d.code) (a.code) (0 * 16 + offBit off * 8 + form.code) = bd at *
  simp [decRow5, hs, MemForm.dec_code, fld_body sw (show 90 < 128 by decide) e0, e1, e2, e3, fin_ofNat_val, Dst.dec_code, Base.dec_code]

theorem RoundTrip.lds (sw : Bool) (d : Dst) (a : Base) (off : Offset) (str : Stream) (form : MemForm) : RoundTrip.Statement (.lds sw d a off str form) := by
  intro _ hw rest
  refine roundtrip ?_ hw
  have hs := offDec_bit off rest
  show decodeRaw (mkWord sw 91 (bodyM d.code a.code str.val (offBit off) form.code)) (litsOf (offWords off ++ rest)).1 (litsOf (offWords off ++ rest)).2 = some (.lds sw d a off str form)
  generalize litsOf (offWords off ++ rest) = ls at hs ⊢
  have hd : d.code < 256 := Dst.code_lt d
  have ha : a.code < 256 := Base.code_lt a
  have hs1 : str.val < 16 := by omega
  have hl : offBit off < 2 := offBit_lt _
  have hf : form.code < 8 := MemForm.code_lt form
  have hb : str.val * 16 + offBit off * 8 + form.code < 256 := by omega
  rw [bodyM_eq, raw_row5 sw (lo := 11) rfl (by decide) (bodyR_lt hd ha hb), fldR_d hd ha hb, fldR_a ha hb, fldR_b hb]
  have e0 : bodyR (d.code) (a.code) (str.val * 16 + offBit off * 8 + form.code) < 2 ^ 24 := bodyR_lt hd ha hb
  have e1 : fld (bodyR (d.code) (a.code) (str.val * 16 + offBit off * 8 + form.code)) 0 3 = form.code := fldM_fn hf
  have e2 : fld (bodyR (d.code) (a.code) (str.val * 16 + offBit off * 8 + form.code)) 3 1 = offBit off := fldM_lit hl hf
  have e3 : fld (bodyR (d.code) (a.code) (str.val * 16 + offBit off * 8 + form.code)) 4 4 = str.val := fldM_str hs1 hl hf
  generalize bodyR (d.code) (a.code) (str.val * 16 + offBit off * 8 + form.code) = bd at *
  simp [decRow5, hs, MemForm.dec_code, fld_body sw (show 91 < 128 by decide) e0, e1, e2, e3, fin_ofNat_val, Dst.dec_code, Base.dec_code]

theorem RoundTrip.sts (sw : Bool) (b : Src) (a : Base) (off : Offset) (str : Stream) (form : MemForm) : RoundTrip.Statement (.sts sw b a off str form) := by
  intro _ hw rest
  refine roundtrip ?_ hw
  have hs := src_off (b := b) (o := off) (by have h : decide (b.lits + offLits off ≤ 1) = true := hw; simp at h; omega) rest
  show decodeRaw (mkWord sw 92 (bodyM b.code a.code str.val (offBit off) form.code)) (litsOf (b.words ++ offWords off ++ rest)).1 (litsOf (b.words ++ offWords off ++ rest)).2 = some (.sts sw b a off str form)
  generalize litsOf (b.words ++ offWords off ++ rest) = ls at hs ⊢
  have hd : b.code < 256 := Src.code_lt b
  have ha : a.code < 256 := Base.code_lt a
  have hs1 : str.val < 16 := by omega
  have hl : offBit off < 2 := offBit_lt _
  have hf : form.code < 8 := MemForm.code_lt form
  have hb : str.val * 16 + offBit off * 8 + form.code < 256 := by omega
  rw [bodyM_eq, raw_row5 sw (lo := 12) rfl (by decide) (bodyR_lt hd ha hb), fldR_d hd ha hb, fldR_a ha hb, fldR_b hb]
  have e0 : bodyR (b.code) (a.code) (str.val * 16 + offBit off * 8 + form.code) < 2 ^ 24 := bodyR_lt hd ha hb
  have e1 : fld (bodyR (b.code) (a.code) (str.val * 16 + offBit off * 8 + form.code)) 0 3 = form.code := fldM_fn hf
  have e2 : fld (bodyR (b.code) (a.code) (str.val * 16 + offBit off * 8 + form.code)) 3 1 = offBit off := fldM_lit hl hf
  have e3 : fld (bodyR (b.code) (a.code) (str.val * 16 + offBit off * 8 + form.code)) 4 4 = str.val := fldM_str hs1 hl hf
  generalize bodyR (b.code) (a.code) (str.val * 16 + offBit off * 8 + form.code) = bd at *
  simp [decRow5, Src.dec_code _ hs.1, hs.2, MemForm.dec_code, fld_body sw (show 92 < 128 by decide) e0, e1, e2, e3, fin_ofNat_val, Base.dec_code]

theorem RoundTrip.atom (sw : Bool) (d : Option Dst) (a : Base) (off : Offset) (str : Stream) (fn : AtomFn) : RoundTrip.Statement (.atom sw d a off str fn) := by
  intro _ hw rest
  refine roundtrip ?_ hw
  have hs := offDec_bit off rest
  show decodeRaw (mkWord sw 93 (bodyM (atomDstCode d) a.code str.val (offBit off) fn.code)) (litsOf (offWords off ++ rest)).1 (litsOf (offWords off ++ rest)).2 = some (.atom sw d a off str fn)
  generalize litsOf (offWords off ++ rest) = ls at hs ⊢
  have hd : atomDstCode d < 256 := atomDstCode_lt d
  have ha : a.code < 256 := Base.code_lt a
  have hs1 : str.val < 16 := by omega
  have hl : offBit off < 2 := offBit_lt _
  have hf : fn.code < 8 := AtomFn.code_lt fn
  have hb : str.val * 16 + offBit off * 8 + fn.code < 256 := by omega
  rw [bodyM_eq, raw_row5 sw (lo := 13) rfl (by decide) (bodyR_lt hd ha hb), fldR_d hd ha hb, fldR_a ha hb, fldR_b hb]
  have e0 : bodyR (atomDstCode d) (a.code) (str.val * 16 + offBit off * 8 + fn.code) < 2 ^ 24 := bodyR_lt hd ha hb
  have e1 : fld (bodyR (atomDstCode d) (a.code) (str.val * 16 + offBit off * 8 + fn.code)) 0 3 = fn.code := fldM_fn hf
  have e2 : fld (bodyR (atomDstCode d) (a.code) (str.val * 16 + offBit off * 8 + fn.code)) 3 1 = offBit off := fldM_lit hl hf
  have e3 : fld (bodyR (atomDstCode d) (a.code) (str.val * 16 + offBit off * 8 + fn.code)) 4 4 = str.val := fldM_str hs1 hl hf
  generalize bodyR (atomDstCode d) (a.code) (str.val * 16 + offBit off * 8 + fn.code) = bd at *
  simp [decRow5, hs, AtomFn.dec_code, fld_body sw (show 93 < 128 by decide) e0, e1, e2, e3, fin_ofNat_val, atomDstDec_code, Base.dec_code]

theorem RoundTrip.atoms (sw : Bool) (d : Option Dst) (a : Base) (off : Offset) (str : Stream) (fn : AtomFn) : RoundTrip.Statement (.atoms sw d a off str fn) := by
  intro _ hw rest
  refine roundtrip ?_ hw
  have hs := offDec_bit off rest
  show decodeRaw (mkWord sw 94 (bodyM (atomDstCode d) a.code str.val (offBit off) fn.code)) (litsOf (offWords off ++ rest)).1 (litsOf (offWords off ++ rest)).2 = some (.atoms sw d a off str fn)
  generalize litsOf (offWords off ++ rest) = ls at hs ⊢
  have hd : atomDstCode d < 256 := atomDstCode_lt d
  have ha : a.code < 256 := Base.code_lt a
  have hs1 : str.val < 16 := by omega
  have hl : offBit off < 2 := offBit_lt _
  have hf : fn.code < 8 := AtomFn.code_lt fn
  have hb : str.val * 16 + offBit off * 8 + fn.code < 256 := by omega
  rw [bodyM_eq, raw_row5 sw (lo := 14) rfl (by decide) (bodyR_lt hd ha hb), fldR_d hd ha hb, fldR_a ha hb, fldR_b hb]
  have e0 : bodyR (atomDstCode d) (a.code) (str.val * 16 + offBit off * 8 + fn.code) < 2 ^ 24 := bodyR_lt hd ha hb
  have e1 : fld (bodyR (atomDstCode d) (a.code) (str.val * 16 + offBit off * 8 + fn.code)) 0 3 = fn.code := fldM_fn hf
  have e2 : fld (bodyR (atomDstCode d) (a.code) (str.val * 16 + offBit off * 8 + fn.code)) 3 1 = offBit off := fldM_lit hl hf
  have e3 : fld (bodyR (atomDstCode d) (a.code) (str.val * 16 + offBit off * 8 + fn.code)) 4 4 = str.val := fldM_str hs1 hl hf
  generalize bodyR (atomDstCode d) (a.code) (str.val * 16 + offBit off * 8 + fn.code) = bd at *
  simp [decRow5, hs, AtomFn.dec_code, fld_body sw (show 94 < 128 by decide) e0, e1, e2, e3, fin_ofNat_val, atomDstDec_code, Base.dec_code]

theorem RoundTrip.cas (sw : Bool) (d : Dst) (a : Base) (off : Offset) (str : Stream) : RoundTrip.Statement (.cas sw d a off str) := by
  intro _ hw rest
  refine roundtrip ?_ hw
  have hs := offDec_bit off rest
  show decodeRaw (mkWord sw 95 (bodyM d.code a.code str.val (offBit off) 0)) (litsOf (offWords off ++ rest)).1 (litsOf (offWords off ++ rest)).2 = some (.cas sw d a off str)
  generalize litsOf (offWords off ++ rest) = ls at hs ⊢
  have hd : d.code < 256 := Dst.code_lt d
  have ha : a.code < 256 := Base.code_lt a
  have hs1 : str.val < 16 := by omega
  have hl : offBit off < 2 := offBit_lt _
  have hf : 0 < 8 := by decide
  have hb : str.val * 16 + offBit off * 8 + 0 < 256 := by omega
  rw [bodyM_eq, raw_row5 sw (lo := 15) rfl (by decide) (bodyR_lt hd ha hb), fldR_d hd ha hb, fldR_a ha hb, fldR_b hb]
  have e0 : bodyR (d.code) (a.code) (str.val * 16 + offBit off * 8 + 0) < 2 ^ 24 := bodyR_lt hd ha hb
  have e1 : fld (bodyR (d.code) (a.code) (str.val * 16 + offBit off * 8 + 0)) 0 3 = 0 := fldM_fn hf
  have e2 : fld (bodyR (d.code) (a.code) (str.val * 16 + offBit off * 8 + 0)) 3 1 = offBit off := fldM_lit hl hf
  have e3 : fld (bodyR (d.code) (a.code) (str.val * 16 + offBit off * 8 + 0)) 4 4 = str.val := fldM_str hs1 hl hf
  generalize bodyR (d.code) (a.code) (str.val * 16 + offBit off * 8 + 0) = bd at *
  simp [decRow5, hs, fld_body sw (show 95 < 128 by decide) e0, e1, e2, e3, fin_ofNat_val, Dst.dec_code, Base.dec_code]

theorem RoundTrip.uld (sw : Bool) (d : SReg) (a : SReg) (off : Offset) (str : Stream) (form : MemForm) : RoundTrip.Statement (.uld sw d a off str form) := by
  intro _ hw rest
  refine roundtrip ?_ hw
  have hs := offDec_bit off rest
  show decodeRaw (mkWord sw 96 (bodyM (192 + d.val) (192 + a.val) str.val (offBit off) form.code)) (litsOf (offWords off ++ rest)).1 (litsOf (offWords off ++ rest)).2 = some (.uld sw d a off str form)
  generalize litsOf (offWords off ++ rest) = ls at hs ⊢
  have hd : 192 + d.val < 256 := by omega
  have ha : 192 + a.val < 256 := by omega
  have hs1 : str.val < 16 := by omega
  have hl : offBit off < 2 := offBit_lt _
  have hf : form.code < 8 := MemForm.code_lt form
  have hb : str.val * 16 + offBit off * 8 + form.code < 256 := by omega
  rw [bodyM_eq, raw_row6 sw (lo := 0) rfl (by decide) (bodyR_lt hd ha hb), fldR_d hd ha hb, fldR_a ha hb, fldR_b hb]
  have e0 : bodyR (192 + d.val) (192 + a.val) (str.val * 16 + offBit off * 8 + form.code) < 2 ^ 24 := bodyR_lt hd ha hb
  have e1 : fld (bodyR (192 + d.val) (192 + a.val) (str.val * 16 + offBit off * 8 + form.code)) 0 3 = form.code := fldM_fn hf
  have e2 : fld (bodyR (192 + d.val) (192 + a.val) (str.val * 16 + offBit off * 8 + form.code)) 3 1 = offBit off := fldM_lit hl hf
  have e3 : fld (bodyR (192 + d.val) (192 + a.val) (str.val * 16 + offBit off * 8 + form.code)) 4 4 = str.val := fldM_str hs1 hl hf
  generalize bodyR (192 + d.val) (192 + a.val) (str.val * 16 + offBit off * 8 + form.code) = bd at *
  simp [decRow6, hs, MemForm.dec_code, fld_body sw (show 96 < 128 by decide) e0, e1, e2, e3, fin_ofNat_val, sregDec_code]

theorem RoundTrip.ust (sw : Bool) (b : USrc) (a : SReg) (off : Offset) (str : Stream) (form : MemForm) : RoundTrip.Statement (.ust sw b a off str form) := by
  intro _ hw rest
  refine roundtrip ?_ hw
  have hs := usrc_off (b := b) (o := off) (by have h : (form != .x2 && form != .x4 && decide (b.lits + offLits off ≤ 1)) = true := hw; simp at h; omega) rest
  show decodeRaw (mkWord sw 97 (bodyM b.code (192 + a.val) str.val (offBit off) form.code)) (litsOf (b.words ++ offWords off ++ rest)).1 (litsOf (b.words ++ offWords off ++ rest)).2 = some (.ust sw b a off str form)
  generalize litsOf (b.words ++ offWords off ++ rest) = ls at hs ⊢
  have hd : b.code < 256 := USrc.code_lt b
  have ha : 192 + a.val < 256 := by omega
  have hs1 : str.val < 16 := by omega
  have hl : offBit off < 2 := offBit_lt _
  have hf : form.code < 8 := MemForm.code_lt form
  have hb : str.val * 16 + offBit off * 8 + form.code < 256 := by omega
  rw [bodyM_eq, raw_row6 sw (lo := 1) rfl (by decide) (bodyR_lt hd ha hb), fldR_d hd ha hb, fldR_a ha hb, fldR_b hb]
  have e0 : bodyR (b.code) (192 + a.val) (str.val * 16 + offBit off * 8 + form.code) < 2 ^ 24 := bodyR_lt hd ha hb
  have e1 : fld (bodyR (b.code) (192 + a.val) (str.val * 16 + offBit off * 8 + form.code)) 0 3 = form.code := fldM_fn hf
  have e2 : fld (bodyR (b.code) (192 + a.val) (str.val * 16 + offBit off * 8 + form.code)) 3 1 = offBit off := fldM_lit hl hf
  have e3 : fld (bodyR (b.code) (192 + a.val) (str.val * 16 + offBit off * 8 + form.code)) 4 4 = str.val := fldM_str hs1 hl hf
  generalize bodyR (b.code) (192 + a.val) (str.val * 16 + offBit off * 8 + form.code) = bd at *
  simp [decRow6, USrc.dec_code _ hs.1, hs.2, MemForm.dec_code, fld_body sw (show 97 < 128 by decide) e0, e1, e2, e3, fin_ofNat_val, sregDec_code]

theorem RoundTrip.fence (sw : Bool) (mask : BitVec 16) (sc : Scope) (k : FenceKind) : RoundTrip.Statement (.fence sw mask sc k) := by
  intro _ hw rest
  refine roundtrip ?_ hw
  show decodeRaw (mkWord sw 98 (mask.toNat * 256 + sc.code * 32 + k.code * 8)) (litsOf ([] ++ rest)).1 (litsOf ([] ++ rest)).2 = some (.fence sw mask sc k)
  have h0 := mask.isLt
  have h1 := Scope.code_lt sc
  have h2 := FenceKind.code_lt k
  have e8_16 : fld (mask.toNat * 256 + sc.code * 32 + k.code * 8) 8 16 = mask.toNat := by simp only [fld]; omega
  have e5_3 : fld (mask.toNat * 256 + sc.code * 32 + k.code * 8) 5 3 = sc.code := by simp only [fld]; omega
  have e3_2 : fld (mask.toNat * 256 + sc.code * 32 + k.code * 8) 3 2 = k.code := by simp only [fld]; omega
  have hb : mask.toNat * 256 + sc.code * 32 + k.code * 8 < 2 ^ 24 := by omega
  rw [raw_row6 sw (lo := 2) rfl (by decide) hb]
  simp [decRow6, Scope.dec_code, FenceKind.dec_code, e8_16, e5_3, e3_2, fld_body sw (show 98 < 128 by decide) hb, fin_ofNat_val]

theorem RoundTrip.monitor (sw : Bool) (a : SReg) (off : Offset) : RoundTrip.Statement (.monitor sw a off) := by
  intro _ hw rest
  refine roundtrip ?_ hw
  have hs := offDec_bit off rest
  show decodeRaw (mkWord sw 99 (bodyM 0 (192 + a.val) 0 (offBit off) 0)) (litsOf (offWords off ++ rest)).1 (litsOf (offWords off ++ rest)).2 = some (.monitor sw a off)
  generalize litsOf (offWords off ++ rest) = ls at hs ⊢
  have hd : 0 < 256 := by decide
  have ha : 192 + a.val < 256 := by omega
  have hs1 : 0 < 16 := by omega
  have hl : offBit off < 2 := offBit_lt _
  have hf : 0 < 8 := by decide
  have hb : 0 * 16 + offBit off * 8 + 0 < 256 := by omega
  rw [bodyM_eq, raw_row6 sw (lo := 3) rfl (by decide) (bodyR_lt hd ha hb), fldR_d hd ha hb, fldR_a ha hb, fldR_b hb]
  have e0 : bodyR (0) (192 + a.val) (0 * 16 + offBit off * 8 + 0) < 2 ^ 24 := bodyR_lt hd ha hb
  have e1 : fld (bodyR (0) (192 + a.val) (0 * 16 + offBit off * 8 + 0)) 0 3 = 0 := fldM_fn hf
  have e2 : fld (bodyR (0) (192 + a.val) (0 * 16 + offBit off * 8 + 0)) 3 1 = offBit off := fldM_lit hl hf
  have e3 : fld (bodyR (0) (192 + a.val) (0 * 16 + offBit off * 8 + 0)) 4 4 = 0 := fldM_str hs1 hl hf
  generalize bodyR (0) (192 + a.val) (0 * 16 + offBit off * 8 + 0) = bd at *
  simp [decRow6, hs, fld_body sw (show 99 < 128 by decide) e0, e1, e2, e3, fin_ofNat_val, sregDec_code]

theorem RoundTrip.mwait (sw : Bool) : RoundTrip.Statement (.mwait sw) := by
  intro _ hw rest
  refine roundtrip ?_ hw
  show decodeRaw (mkWord sw 100 (0)) (litsOf ([] ++ rest)).1 (litsOf ([] ++ rest)).2 = some (.mwait sw)
  rw [raw_row6 sw (lo := 4) rfl (by decide) (by decide)]
  simp [decRow6]

theorem RoundTrip.pref (sw : Bool) (a : Base) (off : Offset) (str : Stream) (lvl : PrefLevel) : RoundTrip.Statement (.pref sw a off str lvl) := by
  intro _ hw rest
  refine roundtrip ?_ hw
  have hs := offDec_bit off rest
  show decodeRaw (mkWord sw 101 (bodyM 0 a.code str.val (offBit off) lvl.code)) (litsOf (offWords off ++ rest)).1 (litsOf (offWords off ++ rest)).2 = some (.pref sw a off str lvl)
  generalize litsOf (offWords off ++ rest) = ls at hs ⊢
  have hd : 0 < 256 := by decide
  have ha : a.code < 256 := Base.code_lt a
  have hs1 : str.val < 16 := by omega
  have hl : offBit off < 2 := offBit_lt _
  have hf : lvl.code < 8 := PrefLevel.code_lt lvl
  have hb : str.val * 16 + offBit off * 8 + lvl.code < 256 := by omega
  rw [bodyM_eq, raw_row6 sw (lo := 5) rfl (by decide) (bodyR_lt hd ha hb), fldR_d hd ha hb, fldR_a ha hb, fldR_b hb]
  have e0 : bodyR (0) (a.code) (str.val * 16 + offBit off * 8 + lvl.code) < 2 ^ 24 := bodyR_lt hd ha hb
  have e1 : fld (bodyR (0) (a.code) (str.val * 16 + offBit off * 8 + lvl.code)) 0 3 = lvl.code := fldM_fn hf
  have e2 : fld (bodyR (0) (a.code) (str.val * 16 + offBit off * 8 + lvl.code)) 3 1 = offBit off := fldM_lit hl hf
  have e3 : fld (bodyR (0) (a.code) (str.val * 16 + offBit off * 8 + lvl.code)) 4 4 = str.val := fldM_str hs1 hl hf
  generalize bodyR (0) (a.code) (str.val * 16 + offBit off * 8 + lvl.code) = bd at *
  simp [decRow6, hs, PrefLevel.dec_code, fld_body sw (show 101 < 128 by decide) e0, e1, e2, e3, fin_ofNat_val, Base.dec_code]

theorem RoundTrip.clean (sw : Bool) (a : Base) (off : Offset) (e : Extent) : RoundTrip.Statement (.clean sw a off e) := by
  intro _ hw rest
  refine roundtrip ?_ hw
  have hs := offDec_bit off rest
  show decodeRaw (mkWord sw 102 (bodyM 0 a.code 0 (offBit off) e.code)) (litsOf (offWords off ++ rest)).1 (litsOf (offWords off ++ rest)).2 = some (.clean sw a off e)
  generalize litsOf (offWords off ++ rest) = ls at hs ⊢
  have hd : 0 < 256 := by decide
  have ha : a.code < 256 := Base.code_lt a
  have hs1 : 0 < 16 := by omega
  have hl : offBit off < 2 := offBit_lt _
  have hf : e.code < 8 := Extent.code_lt e
  have hb : 0 * 16 + offBit off * 8 + e.code < 256 := by omega
  rw [bodyM_eq, raw_row6 sw (lo := 6) rfl (by decide) (bodyR_lt hd ha hb), fldR_d hd ha hb, fldR_a ha hb, fldR_b hb]
  have e0 : bodyR (0) (a.code) (0 * 16 + offBit off * 8 + e.code) < 2 ^ 24 := bodyR_lt hd ha hb
  have e1 : fld (bodyR (0) (a.code) (0 * 16 + offBit off * 8 + e.code)) 0 3 = e.code := fldM_fn hf
  have e2 : fld (bodyR (0) (a.code) (0 * 16 + offBit off * 8 + e.code)) 3 1 = offBit off := fldM_lit hl hf
  have e3 : fld (bodyR (0) (a.code) (0 * 16 + offBit off * 8 + e.code)) 4 4 = 0 := fldM_str hs1 hl hf
  generalize bodyR (0) (a.code) (0 * 16 + offBit off * 8 + e.code) = bd at *
  simp [decRow6, hs, Extent.dec_code, fld_body sw (show 102 < 128 by decide) e0, e1, e2, e3, fin_ofNat_val, Base.dec_code]

theorem RoundTrip.inval (sw : Bool) (a : Base) (off : Offset) (e : Extent) : RoundTrip.Statement (.inval sw a off e) := by
  intro _ hw rest
  refine roundtrip ?_ hw
  have hs := offDec_bit off rest
  show decodeRaw (mkWord sw 103 (bodyM 0 a.code 0 (offBit off) e.code)) (litsOf (offWords off ++ rest)).1 (litsOf (offWords off ++ rest)).2 = some (.inval sw a off e)
  generalize litsOf (offWords off ++ rest) = ls at hs ⊢
  have hd : 0 < 256 := by decide
  have ha : a.code < 256 := Base.code_lt a
  have hs1 : 0 < 16 := by omega
  have hl : offBit off < 2 := offBit_lt _
  have hf : e.code < 8 := Extent.code_lt e
  have hb : 0 * 16 + offBit off * 8 + e.code < 256 := by omega
  rw [bodyM_eq, raw_row6 sw (lo := 7) rfl (by decide) (bodyR_lt hd ha hb), fldR_d hd ha hb, fldR_a ha hb, fldR_b hb]
  have e0 : bodyR (0) (a.code) (0 * 16 + offBit off * 8 + e.code) < 2 ^ 24 := bodyR_lt hd ha hb
  have e1 : fld (bodyR (0) (a.code) (0 * 16 + offBit off * 8 + e.code)) 0 3 = e.code := fldM_fn hf
  have e2 : fld (bodyR (0) (a.code) (0 * 16 + offBit off * 8 + e.code)) 3 1 = offBit off := fldM_lit hl hf
  have e3 : fld (bodyR (0) (a.code) (0 * 16 + offBit off * 8 + e.code)) 4 4 = 0 := fldM_str hs1 hl hf
  generalize bodyR (0) (a.code) (0 * 16 + offBit off * 8 + e.code) = bd at *
  simp [decRow6, hs, Extent.dec_code, fld_body sw (show 103 < 128 by decide) e0, e1, e2, e3, fin_ofNat_val, Base.dec_code]

theorem RoundTrip.ldi (sw : Bool) (d : Fin 192) (grad : Bool) (crd : Fin 128) (str : Stream) (lat : Fin 16) : RoundTrip.Statement (.ldi sw d grad crd str lat) := by
  intro _ hw rest
  refine roundtrip ?_ hw
  show decodeRaw (mkWord sw 104 (d.val * 65536 + grad.toNat * 32768 + crd.val * 256 + str.val * 16 + lat.val)) (litsOf ([] ++ rest)).1 (litsOf ([] ++ rest)).2 = some (.ldi sw d grad crd str lat)
  have h0 := d.isLt
  have h1 := Bool.toNat_le grad
  have h2 := crd.isLt
  have h3 := str.isLt
  have h4 := lat.isLt
  have e16_8 : fld (d.val * 65536 + grad.toNat * 32768 + crd.val * 256 + str.val * 16 + lat.val) 16 8 = d.val := by simp only [fld]; omega
  have e15_1 : fld (d.val * 65536 + grad.toNat * 32768 + crd.val * 256 + str.val * 16 + lat.val) 15 1 = grad.toNat := by simp only [fld]; omega
  have e8_7 : fld (d.val * 65536 + grad.toNat * 32768 + crd.val * 256 + str.val * 16 + lat.val) 8 7 = crd.val := by simp only [fld]; omega
  have e4_4 : fld (d.val * 65536 + grad.toNat * 32768 + crd.val * 256 + str.val * 16 + lat.val) 4 4 = str.val := by simp only [fld]; omega
  have e0_4 : fld (d.val * 65536 + grad.toNat * 32768 + crd.val * 256 + str.val * 16 + lat.val) 0 4 = lat.val := by simp only [fld]; omega
  have hb : d.val * 65536 + grad.toNat * 32768 + crd.val * 256 + str.val * 16 + lat.val < 2 ^ 24 := by omega
  rw [raw_row6 sw (lo := 8) rfl (by decide) hb]
  simp [decRow6, e16_8, e15_1, e8_7, e4_4, e0_4, fld_body sw (show 104 < 128 by decide) hb, fin_ofNat_val, finDec_val, toNat_beq_one]

theorem RoundTrip.spl (sw : Bool) (d : Fin 192) (grad : Bool) (crd : Fin 128) (str : Stream) (lat : Fin 16) : RoundTrip.Statement (.spl sw d grad crd str lat) := by
  intro _ hw rest
  refine roundtrip ?_ hw
  show decodeRaw (mkWord sw 105 (d.val * 65536 + grad.toNat * 32768 + crd.val * 256 + str.val * 16 + lat.val)) (litsOf ([] ++ rest)).1 (litsOf ([] ++ rest)).2 = some (.spl sw d grad crd str lat)
  have h0 := d.isLt
  have h1 := Bool.toNat_le grad
  have h2 := crd.isLt
  have h3 := str.isLt
  have h4 := lat.isLt
  have e16_8 : fld (d.val * 65536 + grad.toNat * 32768 + crd.val * 256 + str.val * 16 + lat.val) 16 8 = d.val := by simp only [fld]; omega
  have e15_1 : fld (d.val * 65536 + grad.toNat * 32768 + crd.val * 256 + str.val * 16 + lat.val) 15 1 = grad.toNat := by simp only [fld]; omega
  have e8_7 : fld (d.val * 65536 + grad.toNat * 32768 + crd.val * 256 + str.val * 16 + lat.val) 8 7 = crd.val := by simp only [fld]; omega
  have e4_4 : fld (d.val * 65536 + grad.toNat * 32768 + crd.val * 256 + str.val * 16 + lat.val) 4 4 = str.val := by simp only [fld]; omega
  have e0_4 : fld (d.val * 65536 + grad.toNat * 32768 + crd.val * 256 + str.val * 16 + lat.val) 0 4 = lat.val := by simp only [fld]; omega
  have hb : d.val * 65536 + grad.toNat * 32768 + crd.val * 256 + str.val * 16 + lat.val < 2 ^ 24 := by omega
  rw [raw_row6 sw (lo := 9) rfl (by decide) hb]
  simp [decRow6, e16_8, e15_1, e8_7, e4_4, e0_4, fld_body sw (show 105 < 128 by decide) hb, fin_ofNat_val, finDec_val, toNat_beq_one]

theorem RoundTrip.ldlat (sw : Bool) (n : Fin 16) (a : USrc) : RoundTrip.Statement (.ldlat sw n a) := by
  intro _ hw rest
  refine roundtrip ?_ hw
  have hs := usrc_agrees a rest
  show decodeRaw (mkWord sw 106 (bodyR n.val a.code 0)) (litsOf (a.words ++ rest)).1 (litsOf (a.words ++ rest)).2 = some (.ldlat sw n a)
  generalize litsOf (a.words ++ rest) = ls at hs ⊢
  have hd : n.val < 256 := by omega
  have ha : a.code < 256 := USrc.code_lt a
  have hb : 0 < 256 := by decide
  rw [raw_row6 sw (lo := 10) rfl (by decide) (bodyR_lt hd ha hb), fldR_d hd ha hb, fldR_a ha hb, fldR_b hb]
  simp [decRow6, USrc.dec_code _ hs, finDec_val, fin_ofNat_val]

theorem RoundTrip.settle (sw : Bool) (n : Fin 16) : RoundTrip.Statement (.settle sw n) := by
  intro _ hw rest
  refine roundtrip ?_ hw
  show decodeRaw (mkWord sw 107 (bodyR n.val 0 0)) (litsOf ([] ++ rest)).1 (litsOf ([] ++ rest)).2 = some (.settle sw n)
  have hd : n.val < 256 := by omega
  have ha : 0 < 256 := by decide
  have hb : 0 < 256 := by decide
  rw [raw_row6 sw (lo := 11) rfl (by decide) (bodyR_lt hd ha hb), fldR_d hd ha hb, fldR_a ha hb, fldR_b hb]
  simp [decRow6, finDec_val, fin_ofNat_val]

theorem RoundTrip.atomar (sw : Bool) (d : Option Dst) (a : Base) (off : Offset) (str : Stream) (fn : AtomFn) : RoundTrip.Statement (.atomar sw d a off str fn) := by
  intro _ hw rest
  refine roundtrip ?_ hw
  have hs := offDec_bit off rest
  show decodeRaw (mkWord sw 108 (bodyM (atomDstCode d) a.code str.val (offBit off) fn.code)) (litsOf (offWords off ++ rest)).1 (litsOf (offWords off ++ rest)).2 = some (.atomar sw d a off str fn)
  generalize litsOf (offWords off ++ rest) = ls at hs ⊢
  have hd : atomDstCode d < 256 := atomDstCode_lt d
  have ha : a.code < 256 := Base.code_lt a
  have hs1 : str.val < 16 := by omega
  have hl : offBit off < 2 := offBit_lt _
  have hf : fn.code < 8 := AtomFn.code_lt fn
  have hb : str.val * 16 + offBit off * 8 + fn.code < 256 := by omega
  rw [bodyM_eq, raw_row6 sw (lo := 12) rfl (by decide) (bodyR_lt hd ha hb), fldR_d hd ha hb, fldR_a ha hb, fldR_b hb]
  have e0 : bodyR (atomDstCode d) (a.code) (str.val * 16 + offBit off * 8 + fn.code) < 2 ^ 24 := bodyR_lt hd ha hb
  have e1 : fld (bodyR (atomDstCode d) (a.code) (str.val * 16 + offBit off * 8 + fn.code)) 0 3 = fn.code := fldM_fn hf
  have e2 : fld (bodyR (atomDstCode d) (a.code) (str.val * 16 + offBit off * 8 + fn.code)) 3 1 = offBit off := fldM_lit hl hf
  have e3 : fld (bodyR (atomDstCode d) (a.code) (str.val * 16 + offBit off * 8 + fn.code)) 4 4 = str.val := fldM_str hs1 hl hf
  generalize bodyR (atomDstCode d) (a.code) (str.val * 16 + offBit off * 8 + fn.code) = bd at *
  simp [decRow6, hs, AtomFn.dec_code, fld_body sw (show 108 < 128 by decide) e0, e1, e2, e3, fin_ofNat_val, atomDstDec_code, Base.dec_code]

theorem RoundTrip.ldq (sw : Bool) (d : Dst) (a : Base) (off : Offset) (str : Stream) (form : MemForm) : RoundTrip.Statement (.ldq sw d a off str form) := by
  intro _ hw rest
  refine roundtrip ?_ hw
  have hs := offDec_bit off rest
  show decodeRaw (mkWord sw 109 (bodyM d.code a.code str.val (offBit off) form.code)) (litsOf (offWords off ++ rest)).1 (litsOf (offWords off ++ rest)).2 = some (.ldq sw d a off str form)
  generalize litsOf (offWords off ++ rest) = ls at hs ⊢
  have hd : d.code < 256 := Dst.code_lt d
  have ha : a.code < 256 := Base.code_lt a
  have hs1 : str.val < 16 := by omega
  have hl : offBit off < 2 := offBit_lt _
  have hf : form.code < 8 := MemForm.code_lt form
  have hb : str.val * 16 + offBit off * 8 + form.code < 256 := by omega
  rw [bodyM_eq, raw_row6 sw (lo := 13) rfl (by decide) (bodyR_lt hd ha hb), fldR_d hd ha hb, fldR_a ha hb, fldR_b hb]
  have e0 : bodyR (d.code) (a.code) (str.val * 16 + offBit off * 8 + form.code) < 2 ^ 24 := bodyR_lt hd ha hb
  have e1 : fld (bodyR (d.code) (a.code) (str.val * 16 + offBit off * 8 + form.code)) 0 3 = form.code := fldM_fn hf
  have e2 : fld (bodyR (d.code) (a.code) (str.val * 16 + offBit off * 8 + form.code)) 3 1 = offBit off := fldM_lit hl hf
  have e3 : fld (bodyR (d.code) (a.code) (str.val * 16 + offBit off * 8 + form.code)) 4 4 = str.val := fldM_str hs1 hl hf
  generalize bodyR (d.code) (a.code) (str.val * 16 + offBit off * 8 + form.code) = bd at *
  simp [decRow6, hs, MemForm.dec_code, fld_body sw (show 109 < 128 by decide) e0, e1, e2, e3, fin_ofNat_val, Dst.dec_code, Base.dec_code]

theorem RoundTrip.stq (sw : Bool) (b : Src) (a : Base) (off : Offset) (str : Stream) (form : MemForm) : RoundTrip.Statement (.stq sw b a off str form) := by
  intro _ hw rest
  refine roundtrip ?_ hw
  have hs := src_off (b := b) (o := off) (by have h : decide (b.lits + offLits off ≤ 1) = true := hw; simp at h; omega) rest
  show decodeRaw (mkWord sw 110 (bodyM b.code a.code str.val (offBit off) form.code)) (litsOf (b.words ++ offWords off ++ rest)).1 (litsOf (b.words ++ offWords off ++ rest)).2 = some (.stq sw b a off str form)
  generalize litsOf (b.words ++ offWords off ++ rest) = ls at hs ⊢
  have hd : b.code < 256 := Src.code_lt b
  have ha : a.code < 256 := Base.code_lt a
  have hs1 : str.val < 16 := by omega
  have hl : offBit off < 2 := offBit_lt _
  have hf : form.code < 8 := MemForm.code_lt form
  have hb : str.val * 16 + offBit off * 8 + form.code < 256 := by omega
  rw [bodyM_eq, raw_row6 sw (lo := 14) rfl (by decide) (bodyR_lt hd ha hb), fldR_d hd ha hb, fldR_a ha hb, fldR_b hb]
  have e0 : bodyR (b.code) (a.code) (str.val * 16 + offBit off * 8 + form.code) < 2 ^ 24 := bodyR_lt hd ha hb
  have e1 : fld (bodyR (b.code) (a.code) (str.val * 16 + offBit off * 8 + form.code)) 0 3 = form.code := fldM_fn hf
  have e2 : fld (bodyR (b.code) (a.code) (str.val * 16 + offBit off * 8 + form.code)) 3 1 = offBit off := fldM_lit hl hf
  have e3 : fld (bodyR (b.code) (a.code) (str.val * 16 + offBit off * 8 + form.code)) 4 4 = str.val := fldM_str hs1 hl hf
  generalize bodyR (b.code) (a.code) (str.val * 16 + offBit off * 8 + form.code) = bd at *
  simp [decRow6, Src.dec_code _ hs.1, hs.2, MemForm.dec_code, fld_body sw (show 110 < 128 by decide) e0, e1, e2, e3, fin_ofNat_val, Base.dec_code]

theorem RoundTrip.mma (sw : Bool) (n : Fin 8) (a : Fin 30) (b : Fin 30) : RoundTrip.Statement (.mma sw n a b) := by
  intro _ hw rest
  refine roundtrip ?_ hw
  show decodeRaw (mkWord sw 112 (bodyR n.val (192 + a.val) (192 + b.val))) (litsOf ([] ++ rest)).1 (litsOf ([] ++ rest)).2 = some (.mma sw n a b)
  have hd : n.val < 256 := by omega
  have ha : 192 + a.val < 256 := by omega
  have hb : 192 + b.val < 256 := by omega
  rw [raw_row7 sw (lo := 0) rfl (by decide) (bodyR_lt hd ha hb), fldR_d hd ha hb, fldR_a ha hb, fldR_b hb]
  simp [decRow7, finDec_val, fin_ofNat_val]

theorem RoundTrip.mmab (sw : Bool) (n : Fin 8) (a : SReg) (b : Fin 30) : RoundTrip.Statement (.mmab sw n a b) := by
  intro _ hw rest
  refine roundtrip ?_ hw
  show decodeRaw (mkWord sw 113 (bodyR n.val (192 + a.val) (192 + b.val))) (litsOf ([] ++ rest)).1 (litsOf ([] ++ rest)).2 = some (.mmab sw n a b)
  have hd : n.val < 256 := by omega
  have ha : 192 + a.val < 256 := by omega
  have hb : 192 + b.val < 256 := by omega
  rw [raw_row7 sw (lo := 1) rfl (by decide) (bodyR_lt hd ha hb), fldR_d hd ha hb, fldR_a ha hb, fldR_b hb]
  simp [decRow7, finDec_val, fin_ofNat_val, sregDec_code]

theorem RoundTrip.mmar (sw : Bool) (n : Fin 8) (a : SReg) (b : Fin 30) : RoundTrip.Statement (.mmar sw n a b) := by
  intro _ hw rest
  refine roundtrip ?_ hw
  show decodeRaw (mkWord sw 114 (bodyR n.val (192 + a.val) (192 + b.val))) (litsOf ([] ++ rest)).1 (litsOf ([] ++ rest)).2 = some (.mmar sw n a b)
  have hd : n.val < 256 := by omega
  have ha : 192 + a.val < 256 := by omega
  have hb : 192 + b.val < 256 := by omega
  rw [raw_row7 sw (lo := 2) rfl (by decide) (bodyR_lt hd ha hb), fldR_d hd ha hb, fldR_a ha hb, fldR_b hb]
  simp [decRow7, finDec_val, fin_ofNat_val, sregDec_code]

theorem RoundTrip.aclr (sw : Bool) (n : Fin 8) : RoundTrip.Statement (.aclr sw n) := by
  intro _ hw rest
  refine roundtrip ?_ hw
  show decodeRaw (mkWord sw 115 (bodyR n.val 0 0)) (litsOf ([] ++ rest)).1 (litsOf ([] ++ rest)).2 = some (.aclr sw n)
  have hd : n.val < 256 := by omega
  have ha : 0 < 256 := by decide
  have hb : 0 < 256 := by decide
  rw [raw_row7 sw (lo := 3) rfl (by decide) (bodyR_lt hd ha hb), fldR_d hd ha hb, fldR_a ha hb, fldR_b hb]
  simp [decRow7, finDec_val, fin_ofNat_val]

theorem RoundTrip.acst (sw : Bool) (n : Fin 8) (a : USrc) (b : USrc) : RoundTrip.Statement (.acst sw n a b) := by
  intro _ hw rest
  refine roundtrip ?_ hw
  have hs := usrc_usrc (a := a) (b := b) (of_decide_eq_true (show decide (a.lits + b.lits ≤ 1) = true from hw)) rest
  show decodeRaw (mkWord sw 116 (bodyR n.val a.code b.code)) (litsOf (a.words ++ b.words ++ rest)).1 (litsOf (a.words ++ b.words ++ rest)).2 = some (.acst sw n a b)
  generalize litsOf (a.words ++ b.words ++ rest) = ls at hs ⊢
  have hd : n.val < 256 := by omega
  have ha : a.code < 256 := USrc.code_lt a
  have hb : b.code < 256 := USrc.code_lt b
  rw [raw_row7 sw (lo := 4) rfl (by decide) (bodyR_lt hd ha hb), fldR_d hd ha hb, fldR_a ha hb, fldR_b hb]
  simp [decRow7, USrc.dec_code _ hs.1, USrc.dec_code _ hs.2, finDec_val, fin_ofNat_val]

theorem RoundTrip.acld (sw : Bool) (n : Fin 8) (a : ASrc) (b : USrc) : RoundTrip.Statement (.acld sw n a b) := by
  intro _ hw rest
  refine roundtrip ?_ hw
  have hs := asrc_usrc (a := a) (b := b) (of_decide_eq_true (show decide (a.lits + b.lits ≤ 1) = true from hw)) rest
  show decodeRaw (mkWord sw 117 (bodyR n.val a.code b.code)) (litsOf (a.words ++ b.words ++ rest)).1 (litsOf (a.words ++ b.words ++ rest)).2 = some (.acld sw n a b)
  generalize litsOf (a.words ++ b.words ++ rest) = ls at hs ⊢
  have hd : n.val < 256 := by omega
  have ha : a.code < 256 := ASrc.code_lt a
  have hb : b.code < 256 := USrc.code_lt b
  rw [raw_row7 sw (lo := 5) rfl (by decide) (bodyR_lt hd ha hb), fldR_d hd ha hb, fldR_a ha hb, fldR_b hb]
  simp [decRow7, ASrc.dec_code _ hs.1, USrc.dec_code _ hs.2, finDec_val, fin_ofNat_val]

theorem RoundTrip.acrd (sw : Bool) (d : Dst) (n : Fin 8) (b : USrc) : RoundTrip.Statement (.acrd sw d n b) := by
  intro _ hw rest
  refine roundtrip ?_ hw
  have hs := usrc_agrees b rest
  show decodeRaw (mkWord sw 118 (bodyR d.code n.val b.code)) (litsOf (b.words ++ rest)).1 (litsOf (b.words ++ rest)).2 = some (.acrd sw d n b)
  generalize litsOf (b.words ++ rest) = ls at hs ⊢
  have hd : d.code < 256 := Dst.code_lt d
  have ha : n.val < 256 := by omega
  have hb : b.code < 256 := USrc.code_lt b
  rw [raw_row7 sw (lo := 6) rfl (by decide) (bodyR_lt hd ha hb), fldR_d hd ha hb, fldR_a ha hb, fldR_b hb]
  simp [decRow7, USrc.dec_code _ hs, Dst.dec_code, finDec_val, fin_ofNat_val]

theorem RoundTrip.mhint (sw : Bool) (a : USrc) : RoundTrip.Statement (.mhint sw a) := by
  intro _ hw rest
  refine roundtrip ?_ hw
  have hs := usrc_agrees a rest
  show decodeRaw (mkWord sw 119 (bodyR 0 a.code 0)) (litsOf (a.words ++ rest)).1 (litsOf (a.words ++ rest)).2 = some (.mhint sw a)
  generalize litsOf (a.words ++ rest) = ls at hs ⊢
  have hd : 0 < 256 := by decide
  have ha : a.code < 256 := USrc.code_lt a
  have hb : 0 < 256 := by decide
  rw [raw_row7 sw (lo := 7) rfl (by decide) (bodyR_lt hd ha hb), fldR_d hd ha hb, fldR_a ha hb, fldR_b hb]
  simp [decRow7, USrc.dec_code _ hs]

theorem RoundTrip.hadq (sw : Bool) (d : Dst) (a : Src) (b : Fin 31) : RoundTrip.Statement (.hadq sw d a b) := by
  intro _ hw rest
  refine roundtrip ?_ hw
  have hs := src_agrees a rest
  show decodeRaw (mkWord sw 120 (bodyR d.code a.code (192 + b.val))) (litsOf (a.words ++ rest)).1 (litsOf (a.words ++ rest)).2 = some (.hadq sw d a b)
  generalize litsOf (a.words ++ rest) = ls at hs ⊢
  have hd : d.code < 256 := Dst.code_lt d
  have ha : a.code < 256 := Src.code_lt a
  have hb : 192 + b.val < 256 := by omega
  rw [raw_row7 sw (lo := 8) rfl (by decide) (bodyR_lt hd ha hb), fldR_d hd ha hb, fldR_a ha hb, fldR_b hb]
  simp [decRow7, Src.dec_code _ hs, Dst.dec_code, finDec_val, fin_ofNat_val]

theorem RoundTrip.qnt (sw : Bool) (d : Dst) (a : Src) : RoundTrip.Statement (.qnt sw d a) := by
  intro _ hw rest
  refine roundtrip ?_ hw
  have hs := src_agrees a rest
  show decodeRaw (mkWord sw 121 (bodyR d.code a.code 0)) (litsOf (a.words ++ rest)).1 (litsOf (a.words ++ rest)).2 = some (.qnt sw d a)
  generalize litsOf (a.words ++ rest) = ls at hs ⊢
  have hd : d.code < 256 := Dst.code_lt d
  have ha : a.code < 256 := Src.code_lt a
  have hb : 0 < 256 := by decide
  rw [raw_row7 sw (lo := 9) rfl (by decide) (bodyR_lt hd ha hb), fldR_d hd ha hb, fldR_a ha hb, fldR_b hb]
  simp [decRow7, Src.dec_code _ hs, Dst.dec_code]

theorem RoundTrip.dqnt (sw : Bool) (d : Dst) (a : Src) : RoundTrip.Statement (.dqnt sw d a) := by
  intro _ hw rest
  refine roundtrip ?_ hw
  have hs := src_agrees a rest
  show decodeRaw (mkWord sw 122 (bodyR d.code a.code 0)) (litsOf (a.words ++ rest)).1 (litsOf (a.words ++ rest)).2 = some (.dqnt sw d a)
  generalize litsOf (a.words ++ rest) = ls at hs ⊢
  have hd : d.code < 256 := Dst.code_lt d
  have ha : a.code < 256 := Src.code_lt a
  have hb : 0 < 256 := by decide
  rw [raw_row7 sw (lo := 10) rfl (by decide) (bodyR_lt hd ha hb), fldR_d hd ha hb, fldR_a ha hb, fldR_b hb]
  simp [decRow7, Src.dec_code _ hs, Dst.dec_code]

theorem RoundTrip.tlwait (sw : Bool) (c : TlCtx) (n : Cnt) : RoundTrip.Statement (.tlwait sw c n) := by
  intro _ hw rest
  refine roundtrip ?_ hw
  have hs := cnt_agrees n rest
  show decodeRaw (mkWord sw 123 (bodyR c.code n.code 0)) (litsOf (n.words ++ rest)).1 (litsOf (n.words ++ rest)).2 = some (.tlwait sw c n)
  generalize litsOf (n.words ++ rest) = ls at hs ⊢
  have hd : c.code < 256 := TlCtx.code_lt c
  have ha : n.code < 256 := Cnt.code_lt n
  have hb : 0 < 256 := by decide
  rw [raw_row7 sw (lo := 11) rfl (by decide) (bodyR_lt hd ha hb), fldR_d hd ha hb, fldR_a ha hb, fldR_b hb]
  simp [decRow7, Cnt.dec_code _ hs, TlCtx.dec_code]

theorem RoundTrip.ringInit (sw : Bool) (r : Fin 16) (a : USrc) (b : Byte) : RoundTrip.Statement (.ringInit sw r a b) := by
  intro _ hw rest
  refine roundtrip ?_ hw
  have hs := usrc_agrees a rest
  show decodeRaw (mkWord sw 124 (bodyR (r.val * 8 + 0) a.code b.toNat)) (litsOf (a.words ++ rest)).1 (litsOf (a.words ++ rest)).2 = some (.ringInit sw r a b)
  generalize litsOf (a.words ++ rest) = ls at hs ⊢
  have hd : r.val * 8 + 0 < 256 := by omega
  have ha : a.code < 256 := USrc.code_lt a
  have hb : b.toNat < 256 := b.isLt
  rw [raw_row7 sw (lo := 12) rfl (by decide) (bodyR_lt hd ha hb), fldR_d hd ha hb, fldR_a ha hb, fldR_b hb]
  have hr : (r.val * 8 + 0) / 8 = r.val := by omega
  have hk : (r.val * 8 + 0) % 8 = 0 := by omega
  simp [decRow7, USrc.dec_code _ hs, finDec_val, fin_ofNat_val, ringDec, hr, hk]

theorem RoundTrip.ringRsv (sw : Bool) (r : Fin 16) (a : Option SReg) (k : USrc) : RoundTrip.Statement (.ringRsv sw r a k) := by
  intro _ hw rest
  refine roundtrip ?_ hw
  have hs := usrc_agrees k rest
  show decodeRaw (mkWord sw 124 (bodyR (r.val * 8 + 1) (ringDstCode a) k.code)) (litsOf (k.words ++ rest)).1 (litsOf (k.words ++ rest)).2 = some (.ringRsv sw r a k)
  generalize litsOf (k.words ++ rest) = ls at hs ⊢
  have hd : r.val * 8 + 1 < 256 := by omega
  have ha : ringDstCode a < 256 := ringDstCode_lt a
  have hb : k.code < 256 := USrc.code_lt k
  rw [raw_row7 sw (lo := 12) rfl (by decide) (bodyR_lt hd ha hb), fldR_d hd ha hb, fldR_a ha hb, fldR_b hb]
  have hr : (r.val * 8 + 1) / 8 = r.val := by omega
  have hk : (r.val * 8 + 1) % 8 = 1 := by omega
  simp [decRow7, USrc.dec_code _ hs, finDec_val, fin_ofNat_val, ringDstDec_code, ringDec, hr, hk]

theorem RoundTrip.ringCmt (sw : Bool) (r : Fin 16) (k : USrc) : RoundTrip.Statement (.ringCmt sw r k) := by
  intro _ hw rest
  refine roundtrip ?_ hw
  have hs := usrc_agrees k rest
  show decodeRaw (mkWord sw 124 (bodyR (r.val * 8 + 2) 0 k.code)) (litsOf (k.words ++ rest)).1 (litsOf (k.words ++ rest)).2 = some (.ringCmt sw r k)
  generalize litsOf (k.words ++ rest) = ls at hs ⊢
  have hd : r.val * 8 + 2 < 256 := by omega
  have ha : 0 < 256 := by decide
  have hb : k.code < 256 := USrc.code_lt k
  rw [raw_row7 sw (lo := 12) rfl (by decide) (bodyR_lt hd ha hb), fldR_d hd ha hb, fldR_a ha hb, fldR_b hb]
  have hr : (r.val * 8 + 2) / 8 = r.val := by omega
  have hk : (r.val * 8 + 2) % 8 = 2 := by omega
  simp [decRow7, USrc.dec_code _ hs, finDec_val, fin_ofNat_val, ringDec, hr, hk]

theorem RoundTrip.ringWait (sw : Bool) (r : Fin 16) (a : Option SReg) (k : USrc) : RoundTrip.Statement (.ringWait sw r a k) := by
  intro _ hw rest
  refine roundtrip ?_ hw
  have hs := usrc_agrees k rest
  show decodeRaw (mkWord sw 124 (bodyR (r.val * 8 + 3) (ringDstCode a) k.code)) (litsOf (k.words ++ rest)).1 (litsOf (k.words ++ rest)).2 = some (.ringWait sw r a k)
  generalize litsOf (k.words ++ rest) = ls at hs ⊢
  have hd : r.val * 8 + 3 < 256 := by omega
  have ha : ringDstCode a < 256 := ringDstCode_lt a
  have hb : k.code < 256 := USrc.code_lt k
  rw [raw_row7 sw (lo := 12) rfl (by decide) (bodyR_lt hd ha hb), fldR_d hd ha hb, fldR_a ha hb, fldR_b hb]
  have hr : (r.val * 8 + 3) / 8 = r.val := by omega
  have hk : (r.val * 8 + 3) % 8 = 3 := by omega
  simp [decRow7, USrc.dec_code _ hs, finDec_val, fin_ofNat_val, ringDstDec_code, ringDec, hr, hk]

theorem RoundTrip.ringRel (sw : Bool) (r : Fin 16) (k : USrc) : RoundTrip.Statement (.ringRel sw r k) := by
  intro _ hw rest
  refine roundtrip ?_ hw
  have hs := usrc_agrees k rest
  show decodeRaw (mkWord sw 124 (bodyR (r.val * 8 + 4) 0 k.code)) (litsOf (k.words ++ rest)).1 (litsOf (k.words ++ rest)).2 = some (.ringRel sw r k)
  generalize litsOf (k.words ++ rest) = ls at hs ⊢
  have hd : r.val * 8 + 4 < 256 := by omega
  have ha : 0 < 256 := by decide
  have hb : k.code < 256 := USrc.code_lt k
  rw [raw_row7 sw (lo := 12) rfl (by decide) (bodyR_lt hd ha hb), fldR_d hd ha hb, fldR_a ha hb, fldR_b hb]
  have hr : (r.val * 8 + 4) / 8 = r.val := by omega
  have hk : (r.val * 8 + 4) % 8 = 4 := by omega
  simp [decRow7, USrc.dec_code _ hs, finDec_val, fin_ofNat_val, ringDec, hr, hk]

theorem RoundTrip.ringStat (sw : Bool) (r : Fin 16) (a : SReg) (k : USrc) : RoundTrip.Statement (.ringStat sw r a k) := by
  intro _ hw rest
  refine roundtrip ?_ hw
  have hs := usrc_agrees k rest
  show decodeRaw (mkWord sw 124 (bodyR (r.val * 8 + 5) (192 + a.val) k.code)) (litsOf (k.words ++ rest)).1 (litsOf (k.words ++ rest)).2 = some (.ringStat sw r a k)
  generalize litsOf (k.words ++ rest) = ls at hs ⊢
  have hd : r.val * 8 + 5 < 256 := by omega
  have ha : 192 + a.val < 256 := by omega
  have hb : k.code < 256 := USrc.code_lt k
  rw [raw_row7 sw (lo := 12) rfl (by decide) (bodyR_lt hd ha hb), fldR_d hd ha hb, fldR_a ha hb, fldR_b hb]
  have hr : (r.val * 8 + 5) / 8 = r.val := by omega
  have hk : (r.val * 8 + 5) % 8 = 5 := by omega
  simp [decRow7, USrc.dec_code _ hs, finDec_val, fin_ofNat_val, sregDec_code, ringDec, hr, hk]

theorem RoundTrip.barSync (sw : Bool) (l : BarLevel) (id : Fin 16) (n : Cnt) : RoundTrip.Statement (.barSync sw l id n) := by
  intro _ hw rest
  refine roundtrip ?_ hw
  have hs := cnt_agrees n rest
  show decodeRaw (mkWord sw 125 (l.code * 2097152 + id.val * 131072 + 0 * 32768 + n.code)) (litsOf (n.words ++ rest)).1 (litsOf (n.words ++ rest)).2 = some (.barSync sw l id n)
  generalize litsOf (n.words ++ rest) = ls at hs ⊢
  rw [show l.code * 2097152 + id.val * 131072 + 0 * 32768 + n.code = l.code * 2097152 + id.val * 131072 + n.code by omega]
  have h0 := BarLevel.code_lt l
  have h1 := id.isLt
  have h2 := Cnt.code_lt n
  have e21_3 : fld (l.code * 2097152 + id.val * 131072 + n.code) 21 3 = l.code := by simp only [fld]; omega
  have e17_4 : fld (l.code * 2097152 + id.val * 131072 + n.code) 17 4 = id.val := by simp only [fld]; omega
  have e15_2 : fld (l.code * 2097152 + id.val * 131072 + n.code) 15 2 = 0 := by simp only [fld]; omega
  have e0_8 : fld (l.code * 2097152 + id.val * 131072 + n.code) 0 8 = n.code := by simp only [fld]; omega
  have hb : l.code * 2097152 + id.val * 131072 + n.code < 2 ^ 24 := by omega
  rw [raw_row7 sw (lo := 13) rfl (by decide) hb]
  simp [decRow7, Cnt.dec_code _ hs, barDec, e21_3, e17_4, e15_2, e0_8, fld_body sw (show 125 < 128 by decide) hb, fin_ofNat_val, BarLevel.dec_code, finDec_val]

theorem RoundTrip.barArrive (sw : Bool) (l : BarLevel) (id : Fin 16) (n : Cnt) : RoundTrip.Statement (.barArrive sw l id n) := by
  intro _ hw rest
  refine roundtrip ?_ hw
  have hs := cnt_agrees n rest
  show decodeRaw (mkWord sw 125 (l.code * 2097152 + id.val * 131072 + 1 * 32768 + n.code)) (litsOf (n.words ++ rest)).1 (litsOf (n.words ++ rest)).2 = some (.barArrive sw l id n)
  generalize litsOf (n.words ++ rest) = ls at hs ⊢
  have h0 := BarLevel.code_lt l
  have h1 := id.isLt
  have h2 := Cnt.code_lt n
  have e21_3 : fld (l.code * 2097152 + id.val * 131072 + 1 * 32768 + n.code) 21 3 = l.code := by simp only [fld]; omega
  have e17_4 : fld (l.code * 2097152 + id.val * 131072 + 1 * 32768 + n.code) 17 4 = id.val := by simp only [fld]; omega
  have e15_2 : fld (l.code * 2097152 + id.val * 131072 + 1 * 32768 + n.code) 15 2 = 1 := by simp only [fld]; omega
  have e0_8 : fld (l.code * 2097152 + id.val * 131072 + 1 * 32768 + n.code) 0 8 = n.code := by simp only [fld]; omega
  have hb : l.code * 2097152 + id.val * 131072 + 1 * 32768 + n.code < 2 ^ 24 := by omega
  rw [raw_row7 sw (lo := 13) rfl (by decide) hb]
  simp [decRow7, Cnt.dec_code _ hs, barDec, e21_3, e17_4, e15_2, e0_8, fld_body sw (show 125 < 128 by decide) hb, fin_ofNat_val, BarLevel.dec_code, finDec_val]

theorem RoundTrip.barWait (sw : Bool) (l : BarLevel) (id : Fin 16) (n : Cnt) : RoundTrip.Statement (.barWait sw l id n) := by
  intro _ hw rest
  refine roundtrip ?_ hw
  have hs := cnt_agrees n rest
  show decodeRaw (mkWord sw 125 (l.code * 2097152 + id.val * 131072 + 2 * 32768 + n.code)) (litsOf (n.words ++ rest)).1 (litsOf (n.words ++ rest)).2 = some (.barWait sw l id n)
  generalize litsOf (n.words ++ rest) = ls at hs ⊢
  have h0 := BarLevel.code_lt l
  have h1 := id.isLt
  have h2 := Cnt.code_lt n
  have e21_3 : fld (l.code * 2097152 + id.val * 131072 + 2 * 32768 + n.code) 21 3 = l.code := by simp only [fld]; omega
  have e17_4 : fld (l.code * 2097152 + id.val * 131072 + 2 * 32768 + n.code) 17 4 = id.val := by simp only [fld]; omega
  have e15_2 : fld (l.code * 2097152 + id.val * 131072 + 2 * 32768 + n.code) 15 2 = 2 := by simp only [fld]; omega
  have e0_8 : fld (l.code * 2097152 + id.val * 131072 + 2 * 32768 + n.code) 0 8 = n.code := by simp only [fld]; omega
  have hb : l.code * 2097152 + id.val * 131072 + 2 * 32768 + n.code < 2 ^ 24 := by omega
  rw [raw_row7 sw (lo := 13) rfl (by decide) hb]
  simp [decRow7, Cnt.dec_code _ hs, barDec, e21_3, e17_4, e15_2, e0_8, fld_body sw (show 125 < 128 by decide) hb, fin_ofNat_val, BarLevel.dec_code, finDec_val]

theorem RoundTrip.csrr (sw : Bool) (d : SReg) (r : Csr) : RoundTrip.Statement (.csrr sw d r) := by
  intro _ hw rest
  refine roundtrip ?_ hw
  show decodeRaw (mkWord sw 126 ((192 + d.val) * 65536 + r.code)) (litsOf ([] ++ rest)).1 (litsOf ([] ++ rest)).2 = some (.csrr sw d r)
  have h0 := Csr.code_lt r
  have h1 := d.isLt
  have e0_16 : fld ((192 + d.val) * 65536 + r.code) 0 16 = r.code := by simp only [fld]; omega
  have e16_8 : fld ((192 + d.val) * 65536 + r.code) 16 8 = 192 + d.val := by simp only [fld]; omega
  have hb : (192 + d.val) * 65536 + r.code < 2 ^ 24 := by omega
  rw [raw_row7 sw (lo := 14) rfl (by decide) hb]
  simp [decRow7, e0_16, e16_8, fld_body sw (show 126 < 128 by decide) hb, fin_ofNat_val, sregDec_code, Csr.dec_code]

theorem RoundTrip.csrw (sw : Bool) (a : USrc) (r : Csr) : RoundTrip.Statement (.csrw sw a r) := by
  intro _ hw rest
  refine roundtrip ?_ hw
  have hs := usrc_agrees a rest
  show decodeRaw (mkWord sw 127 (a.code * 65536 + r.code)) (litsOf (a.words ++ rest)).1 (litsOf (a.words ++ rest)).2 = some (.csrw sw a r)
  generalize litsOf (a.words ++ rest) = ls at hs ⊢
  have h1 := USrc.code_lt a
  have h0 := Csr.code_lt r
  have hw : (r != .flags && r != .trapvec) = true := hw
  simp at hw
  have e0_16 : fld (a.code * 65536 + r.code) 0 16 = r.code := by simp only [fld]; omega
  have e16_8 : fld (a.code * 65536 + r.code) 16 8 = a.code := by simp only [fld]; omega
  have hb : a.code * 65536 + r.code < 2 ^ 24 := by omega
  rw [raw_row7 sw (lo := 15) rfl (by decide) hb]
  simp [decRow7, USrc.dec_code _ hs, csrwDec, hw, e0_16, e16_8, fld_body sw (show 127 < 128 by decide) hb, fin_ofNat_val, Csr.dec_code]

theorem RoundTrip.flagsClear (sw : Bool) (a : USrc) : RoundTrip.Statement (.flagsClear sw a) := by
  intro _ hw rest
  refine roundtrip ?_ hw
  have hs := usrc_agrees a rest
  show decodeRaw (mkWord sw 127 (a.code * 65536 + 1)) (litsOf (a.words ++ rest)).1 (litsOf (a.words ++ rest)).2 = some (.flagsClear sw a)
  generalize litsOf (a.words ++ rest) = ls at hs ⊢
  have h1 := USrc.code_lt a
  have e0_16 : fld (a.code * 65536 + 1) 0 16 = 1 := by simp only [fld]; omega
  have e16_8 : fld (a.code * 65536 + 1) 16 8 = a.code := by simp only [fld]; omega
  have hb : a.code * 65536 + 1 < 2 ^ 24 := by omega
  rw [raw_row7 sw (lo := 15) rfl (by decide) hb]
  simp [decRow7, USrc.dec_code _ hs, csrwDec, show Csr.dec 1 = some .flags from rfl, show Csr.dec 5 = some .trapvec from rfl, e0_16, e16_8, fld_body sw (show 127 < 128 by decide) hb, fin_ofNat_val]

theorem RoundTrip.trapvecWrite (sw : Bool) (a : USrc) : RoundTrip.Statement (.trapvecWrite sw a) := by
  intro _ hw rest
  refine roundtrip ?_ hw
  have hs := usrc_agrees a rest
  show decodeRaw (mkWord sw 127 (a.code * 65536 + 5)) (litsOf (a.words ++ rest)).1 (litsOf (a.words ++ rest)).2 = some (.trapvecWrite sw a)
  generalize litsOf (a.words ++ rest) = ls at hs ⊢
  have h1 := USrc.code_lt a
  have e0_16 : fld (a.code * 65536 + 5) 0 16 = 5 := by simp only [fld]; omega
  have e16_8 : fld (a.code * 65536 + 5) 16 8 = a.code := by simp only [fld]; omega
  have hb : a.code * 65536 + 5 < 2 ^ 24 := by omega
  rw [raw_row7 sw (lo := 15) rfl (by decide) hb]
  simp [decRow7, USrc.dec_code _ hs, csrwDec, show Csr.dec 1 = some .flags from rfl, show Csr.dec 5 = some .trapvec from rfl, e0_16, e16_8, fld_body sw (show 127 < 128 by decide) hb, fin_ofNat_val]

theorem RoundTrip.loadLands (t : Nat) (id : Nat) : RoundTrip.Statement (.loadLands t id) := fun h => absurd (show false = true from h) (by decide)

theorem RoundTrip.residueRun (t : Nat) : RoundTrip.Statement (.residueRun t) := fun h => absurd (show false = true from h) (by decide)

theorem RoundTrip.carterCopy (core : Nat) (ctx : Nat) : RoundTrip.Statement (.carterCopy core ctx) := fun h => absurd (show false = true from h) (by decide)

theorem RoundTrip.carterCopy2d (core : Nat) (ctx : Nat) : RoundTrip.Statement (.carterCopy2d core ctx) := fun h => absurd (show false = true from h) (by decide)

theorem RoundTrip.carterFill (core : Nat) (ctx : Nat) : RoundTrip.Statement (.carterFill core ctx) := fun h => absurd (show false = true from h) (by decide)

theorem RoundTrip.sifterSortedIndex (core : Nat) (ctx : Nat) : RoundTrip.Statement (.sifterSortedIndex core ctx) := fun h => absurd (show false = true from h) (by decide)

theorem RoundTrip.sifterBitmap (core : Nat) (ctx : Nat) : RoundTrip.Statement (.sifterBitmap core ctx) := fun h => absurd (show false = true from h) (by decide)

theorem RoundTrip.matrixUnitExecute (core : Nat) (bench : Nat) : RoundTrip.Statement (.matrixUnitExecute core bench) := fun h => absurd (show false = true from h) (by decide)

theorem RoundTrip.matrixRampUpDone (core : Nat) (bench : Nat) : RoundTrip.Statement (.matrixRampUpDone core bench) := fun h => absurd (show false = true from h) (by decide)

theorem RoundTrip.matrixHoldExpiry (core : Nat) (bench : Nat) : RoundTrip.Statement (.matrixHoldExpiry core bench) := fun h => absurd (show false = true from h) (by decide)

theorem RoundTrip.matrixRampDownDone (core : Nat) (bench : Nat) : RoundTrip.Statement (.matrixRampDownDone core bench) := fun h => absurd (show false = true from h) (by decide)

theorem RoundTrip.settleExecute (core : Nat) : RoundTrip.Statement (.settleExecute core) := fun h => absurd (show false = true from h) (by decide)

theorem RoundTrip.barrierGenerationComplete (b : BarRef) : RoundTrip.Statement (.barrierGenerationComplete b) := fun h => absurd (show false = true from h) (by decide)

theorem RoundTrip.tailWrite (ctx : Nat) (q : Nat) (tail : W64) : RoundTrip.Statement (.tailWrite ctx q tail) := fun h => absurd (show false = true from h) (by decide)

theorem RoundTrip.launchRecord (ctx : Nat) (q : Nat) : RoundTrip.Statement (.launchRecord ctx q) := fun h => absurd (show false = true from h) (by decide)

theorem RoundTrip.slotAssignment (ctx : Nat) (q : Nat) : RoundTrip.Statement (.slotAssignment ctx q) := fun h => absurd (show false = true from h) (by decide)

theorem RoundTrip.dependencesSatisfied (k : Nat) : RoundTrip.Statement (.dependencesSatisfied k) := fun h => absurd (show false = true from h) (by decide)

theorem RoundTrip.gangPlacement (k : Nat) (quad : Nat) (base : Nat) : RoundTrip.Statement (.gangPlacement k quad base) := fun h => absurd (show false = true from h) (by decide)

theorem RoundTrip.timeSliceExpiry (slot : Nat) : RoundTrip.Statement (.timeSliceExpiry slot) := fun h => absurd (show false = true from h) (by decide)

theorem RoundTrip.gangCapture (g : Nat) : RoundTrip.Statement (.gangCapture g) := fun h => absurd (show false = true from h) (by decide)

theorem RoundTrip.gangRestoration (g : Nat) (quad : Nat) (base : Nat) : RoundTrip.Statement (.gangRestoration g quad base) := fun h => absurd (show false = true from h) (by decide)

theorem RoundTrip.kernelDrain (k : Nat) : RoundTrip.Statement (.kernelDrain k) := fun h => absurd (show false = true from h) (by decide)

theorem RoundTrip.kernelCompletion (k : Nat) : RoundTrip.Statement (.kernelCompletion k) := fun h => absurd (show false = true from h) (by decide)

theorem RoundTrip.chandlerFaultService (p : FaultParty) (act : FaultAct) : RoundTrip.Statement (.chandlerFaultService p act) := fun h => absurd (show false = true from h) (by decide)

theorem RoundTrip.chandlerResumption (p : FaultParty) : RoundTrip.Statement (.chandlerResumption p) := fun h => absurd (show false = true from h) (by decide)

theorem RoundTrip.contextCreate (c : CtxInit) : RoundTrip.Statement (.contextCreate c) := fun h => absurd (show false = true from h) (by decide)

theorem RoundTrip.queueEnable (ctx : Nat) (q : Nat) : RoundTrip.Statement (.queueEnable ctx q) := fun h => absurd (show false = true from h) (by decide)

theorem RoundTrip.contextAbort (ctx : Nat) (code : Byte) : RoundTrip.Statement (.contextAbort ctx code) := fun h => absurd (show false = true from h) (by decide)

theorem RoundTrip.contextDestroy (ctx : Nat) : RoundTrip.Statement (.contextDestroy ctx) := fun h => absurd (show false = true from h) (by decide)

theorem RoundTrip.pteChange (ctx : Nat) (va : W64) (level : Fin 3) (pte : W64) (eg : Option (BitVec 12 × Egress)) : RoundTrip.Statement (.pteChange ctx va level pte eg) := fun h => absurd (show false = true from h) (by decide)

theorem RoundTrip.pageMigration (ctx : Nat) (va : W64) (pte : W64) : RoundTrip.Statement (.pageMigration ctx va pte) := fun h => absurd (show false = true from h) (by decide)

theorem RoundTrip.exportGrant (n : BitVec 12) (x : Ingress) : RoundTrip.Statement (.exportGrant n x) := fun h => absurd (show false = true from h) (by decide)

theorem RoundTrip.exportRevoke (n : BitVec 12) : RoundTrip.Statement (.exportRevoke n) := fun h => absurd (show false = true from h) (by decide)

theorem RoundTrip.bloomFilterRotation (slice : Nat) : RoundTrip.Statement (.bloomFilterRotation slice) := fun h => absurd (show false = true from h) (by decide)

theorem RoundTrip.heldRowRefresh (channel : Nat) : RoundTrip.Statement (.heldRowRefresh channel) := fun h => absurd (show false = true from h) (by decide)

theorem RoundTrip.errorSelfTest (u : UnitRef) (key : Option Nat) (consumer : Option EccUse) (pass : Bool) (dis : Disable) : RoundTrip.Statement (.errorSelfTest u key consumer pass dis) := fun h => absurd (show false = true from h) (by decide)

theorem RoundTrip.rmaWrite (sess : Nat) (flow : RmaFlow) (ctx : Nat) (va : W64) (bytes : List Byte) (tss : Bool) : RoundTrip.Statement (.rmaWrite sess flow ctx va bytes tss) := fun h => absurd (show false = true from h) (by decide)

theorem RoundTrip.rmaRead (sess : Nat) (flow : RmaFlow) (ctx : Nat) (va : W64) (len : Nat) (tss : Bool) : RoundTrip.Statement (.rmaRead sess flow ctx va len tss) := fun h => absurd (show false = true from h) (by decide)

theorem RoundTrip.chandlerRequest (sess : Nat) (rseq : W64) (msg : ChMsg) : RoundTrip.Statement (.chandlerRequest sess rseq msg) := fun h => absurd (show false = true from h) (by decide)

theorem RoundTrip.flitReceived (p : Fin 16) (f : Flit) : RoundTrip.Statement (.flitReceived p f) := fun h => absurd (show false = true from h) (by decide)

theorem RoundTrip.spanRequest (r : SpanReq) : RoundTrip.Statement (.spanRequest r) := fun h => absurd (show false = true from h) (by decide)

theorem RoundTrip.nackReceived (tag : BitVec 16) : RoundTrip.Statement (.nackReceived tag) := fun h => absurd (show false = true from h) (by decide)

theorem RoundTrip.requestDeadline (tag : BitVec 16) : RoundTrip.Statement (.requestDeadline tag) := fun h => absurd (show false = true from h) (by decide)

theorem RoundTrip.portEnable (p : PortRef) : RoundTrip.Statement (.portEnable p) := fun h => absurd (show false = true from h) (by decide)

theorem RoundTrip.trainingEnd (p : PortRef) (lanes : Nat) : RoundTrip.Statement (.trainingEnd p lanes) := fun h => absurd (show false = true from h) (by decide)

theorem RoundTrip.laneLoss (p : PortRef) : RoundTrip.Statement (.laneLoss p) := fun h => absurd (show false = true from h) (by decide)

theorem RoundTrip.replayThreshold (p : PortRef) : RoundTrip.Statement (.replayThreshold p) := fun h => absurd (show false = true from h) (by decide)

theorem RoundTrip.portDrain (p : PortRef) : RoundTrip.Statement (.portDrain p) := fun h => absurd (show false = true from h) (by decide)

theorem RoundTrip.drainComplete (p : PortRef) : RoundTrip.Statement (.drainComplete p) := fun h => absurd (show false = true from h) (by decide)

theorem RoundTrip.portReset (p : PortRef) : RoundTrip.Statement (.portReset p) := fun h => absurd (show false = true from h) (by decide)

theorem RoundTrip.freeze : RoundTrip.Statement (.freeze) := fun h => absurd (show false = true from h) (by decide)

theorem RoundTrip.comparatorWrite (ctx : Nat) (i : Nat) (addr : W64) (ctl : CompCtl) : RoundTrip.Statement (.comparatorWrite ctx i addr ctl) := fun h => absurd (show false = true from h) (by decide)

theorem RoundTrip.contextResume (ctx : Nat) : RoundTrip.Statement (.contextResume ctx) := fun h => absurd (show false = true from h) (by decide)

theorem RoundTrip.laneCycleReadClear (core : Nat) (bench : Nat) : RoundTrip.Statement (.laneCycleReadClear core bench) := fun h => absurd (show false = true from h) (by decide)

theorem RoundTrip.coldReset : RoundTrip.Statement (.coldReset) := fun h => absurd (show false = true from h) (by decide)

theorem RoundTrip.firmwareImage (image : List Byte) : RoundTrip.Statement (.firmwareImage image) := fun h => absurd (show false = true from h) (by decide)

theorem RoundTrip.configurationRecord (record signature : List Byte) : RoundTrip.Statement (.configurationRecord record signature) := fun h => absurd (show false = true from h) (by decide)

theorem RoundTrip.attestationRequest (nonce : W64) : RoundTrip.Statement (.attestationRequest nonce) := fun h => absurd (show false = true from h) (by decide)

theorem RoundTrip.illegalInstruction (w : W32) : RoundTrip.Statement (.illegalInstruction w) := fun h => absurd (show false = true from h) (by decide)

theorem RoundTrip.spanResponse (tag : BitVec 16) (bytes : List Byte) : RoundTrip.Statement (.spanResponse tag bytes) := fun h => absurd (show false = true from h) (by decide)

theorem RoundTrip.importedCopyInvalidation (die : Nat) (page : Nat) : RoundTrip.Statement (.importedCopyInvalidation die page) := fun h => absurd (show false = true from h) (by decide)

theorem RoundTrip.tokenBucketRefill (ctx : Nat) (cls : Nat) (channel : Nat) (us : Nat) : RoundTrip.Statement (.tokenBucketRefill ctx cls channel us) := fun h => absurd (show false = true from h) (by decide)

theorem RoundTrip.hotnessEntryClear (die : Nat) (block : Nat) (src : Nat) : RoundTrip.Statement (.hotnessEntryClear die block src) := fun h => absurd (show false = true from h) (by decide)

end Sys2Proof.Laws
end

