-- ==== Sys2Proof/Laws/Plain.lean ====
section
/-! SUPPORT. What the walk of a page table depends on, and a check that bytes at some addresses are plain memory for every queue. -/
namespace Sys2Proof.Laws
open Sys2Proof Sys2Proof.Machine

/-- A number read from memory depends on its bytes alone. -/
theorem readNat_congr {m m' : Sparse 8} {pa n : Nat} (h : ∀ j, j < n → sget m (pa + j) = sget m' (pa + j)) :
    readNat m pa n = readNat m' pa n := by
  unfold readNat readBytes
  congr 1
  exact List.map_congr_left fun j hj => h j (List.mem_range.mp hj)

/-- The addresses of the entries that a walk may read (R327). -/
def walkReads (s : State) (root : Nat) (va : W64) : List Nat :=
  let a := va.toNat
  let p0 := root + 8 * (a / 2 ^ 42 % 2 ^ 13)
  let p1 := ptePage (readNat s.mem p0 8) + 8 * (a / 2 ^ 29 % 2 ^ 13)
  [p0, p1, ptePage (readNat s.mem p1 8) + 8 * (a / 2 ^ 16 % 2 ^ 13)]

/-- A walk depends on memory through the entries that it reads. -/
theorem walk_congr {s : State} {m : Sparse 8} {root : Nat} {va : W64}
    (h : ∀ p ∈ walkReads s root va, ∀ j, j < 8 → sget m (p + j) = sget s.mem (p + j)) :
    walk { s with mem := m } root va = walk s root va := by
  simp only [walkReads, List.mem_cons, List.not_mem_nil, or_false, forall_eq_or_imp, forall_eq] at h
  simp only [walk, readNat_congr h.1, readNat_congr h.2.1, readNat_congr h.2.2]
  rfl

/-- The place of a queue's field depends on memory through the entries of its context's table. -/
theorem queueField_congr {s : State} {m : Sparse 8} {q : Queue} {off : Nat}
    (h : ∀ c, s.ctx? q.ctx = some c → ∀ p ∈ walkReads s c.ptroot.toNat (q.addr + BitVec.ofNat 64 off),
      ∀ j, j < 8 → sget m (p + j) = sget s.mem (p + j)) :
    queueField { s with mem := m } q off = queueField s q off := by
  show ((s.ctx? q.ctx).bind fun c => devXlat { s with mem := m } c.ptroot.toNat _) = (s.ctx? q.ctx).bind _
  cases hc : s.ctx? q.ctx with
  | none => rfl
  | some c => simp only [Option.bind_some, devXlat, walk_congr (h c hc)]

/-- The table entries that place a queue's field lie at none of the addresses. -/
def fieldFixed (s : State) (as : List Nat) (q : Queue) (off : Nat) : Bool :=
  ((s.ctx? q.ctx).map fun c => (walkReads s c.ptroot.toNat (q.addr + BitVec.ofNat 64 off)).all fun p =>
    (List.range 8).all fun j => !as.contains (p + j)).getD true

theorem queueField_fixed {s : State} {as : List Nat} {q : Queue} {off : Nat} (c : fieldFixed s as q off = true) {m : Sparse 8}
    (hm : ∀ a, a ∉ as → sget m a = sget s.mem a) : queueField { s with mem := m } q off = queueField s q off := by
  refine queueField_congr fun x hx p hp j hj => hm _ ?_
  simp only [fieldFixed, hx, Option.map_some, Option.getD_some, List.all_eq_true, List.mem_range, Bool.not_eq_true',
    List.contains_eq_mem, decide_eq_false_iff_not] at c
  exact c p hp j hj

/-- Bytes at the addresses are plain for a queue: none is a table entry of its, a reserved byte, QPRIO or QFLAGS. -/
def plainFor (s : State) (as : List Nat) (q : Queue) : Bool :=
  fieldFixed s as q 0 && fieldFixed s as q 0x0C
    && ((queueField s q 0).map fun b => as.all fun a => !(decide (b ≤ a) && decide (a < b + 128) && (queueReserved (a - b) || a == b + 0x3C))).getD true
    && ((queueField s q 0x0C).map fun b => as.all fun a => !(decide (b ≤ a) && decide (a < b + 4))).getD true

/-- Bytes at the addresses are plain for a context: none is ASV or a reserved byte of its record. -/
def plainRec (as : List Nat) (c : Ctx) : Bool :=
  c.state == .destroyed
    || as.all fun a => !(decide (c.recAt ≤ a) && decide (a < c.recAt + 128) && (ctxReserved (a - c.recAt) || a == c.recAt + 7))

theorem plainAt_of {s : State} {as : List Nat} (x : (s.ctxs.all (plainRec as)) = true) (c : (s.queues.all (plainFor s as)) = true) :
    PlainAt s as := by
  refine ⟨fun y hy hd a ha h1 h2 => ?_, fun m hm q hq a ha => ?_⟩
  · have x := List.all_eq_true.mp x y hy
    simp only [plainRec, Bool.or_eq_true, beq_iff_eq, hd, false_or] at x
    have := List.all_eq_true.mp x a ha
    simp [h1, h2] at this
    exact this
  have c := List.all_eq_true.mp c q hq
  simp only [plainFor, Bool.and_eq_true] at c
  obtain ⟨⟨⟨f0, fc⟩, c0⟩, cc⟩ := c
  rw [queueField_fixed f0 hm, queueField_fixed fc hm]
  refine ⟨fun b hb h1 h2 => ?_, fun b hb h1 => ?_⟩
  · rw [hb] at c0
    have := List.all_eq_true.mp c0 a ha
    simp [h1, h2] at this
    exact ⟨this.1, fun e => this.2 e⟩
  · rw [hb] at cc
    have := List.all_eq_true.mp cc a ha
    simp [h1.1] at this
    omega

end Sys2Proof.Laws
end

