-- ==== Sys2Proof/Tests/Slice0.lean ====
section
/-! SUPPORT. Tests: ill-formed terms, words of the spec's own examples, single steps with results taken from the spec, and a witness
for the hypotheses of each statement. -/
open Sys2Proof Sys2Proof.Machine

/- One theorem at a time: each holds a thread while the kernel evaluates it. -/
set_option Elab.async false

/-! ## Ill-formed terms: one for each check of `Instr.wf` -/

theorem test_wf_two_literals : (Instr.add false (.v 1) (.lit 1) (.lit 2)).wf = false := by decide
theorem test_wf_two_uniform_literals : (Instr.uadd false 1 (.lit 1) (.lit64 2)).wf = false := by decide
theorem test_wf_store_literal_and_offset : (Instr.st false (.lit 1) (.s 0) (some 4) 0 .nat).wf = false := by decide
theorem test_wf_uniform_store_literal_and_offset : (Instr.ust false (.lit 1) 0 (some 4) 0 .nat).wf = false := by decide
theorem test_wf_ldc_acquire : (Instr.ldc false (.v 1) (.s 0) none .sync).wf = false := by decide
theorem test_wf_uld_x2 : (Instr.uld false 1 2 none 0 .x2).wf = false ∧ (Instr.uld false 1 2 none 0 .x4).wf = false := by decide
theorem test_wf_ust_x2 : (Instr.ust false (.s 1) 2 none 0 .x2).wf = false ∧ (Instr.ust false (.s 1) 2 none 0 .x4).wf = false := by decide
theorem test_wf_fence_no_stream : (Instr.fence false 0 .core .acq).wf = false := by decide
theorem test_wf_acst_two_literals : (Instr.acst false 0 (.lit 0) (.lit 16)).wf = false := by decide
theorem test_wf_acld_two_literals : (Instr.acld false 0 (.lit 0) (.lit 16)).wf = false := by decide
theorem test_wf_ring_init_no_count : (Instr.ringInit false 0 (.lit 0) 0xF1).wf = true := by decide
theorem test_wf_csrw_flags : (Instr.csrw false (.s 0) .flags).wf = false ∧ (Instr.csrw false (.s 0) .trapvec).wf = false := by decide
/-- Words that stand for nothing are refused: a reserved major, two literal codes, reserved relations, scopes, engine classes, levels,
functions, control registers, MODE fields, types and sizes, and reserved bits of the lattice, matrix and ring forms (R30, R34, R42,
R45 to R47, R231). -/
theorem test_wf_words_refused :
    ([0x47000000#32, 0x1001F0F0, 0x62000000, 0x19280203, 0x3F440500, 0x620001A5, 0x7B40C000, 0x7DA000E8, 0x7D0180E8, 0x7EC50007,
      0x01800000, 0x01000010, 0x1B080211, 0x5806C627, 0x5A06C605, 0x7008D4D8, 0x7000DED8, 0x6A10C600, 0x7C06C9E9].all
      fun w => (decodeWords [w, 1, 2]).isNone) = true := by decide +kernel

/-! ## Words: the spec's own examples decode to the instructions they stand for -/

/-- The worked encodings of spec/03_encoding.md: the if/else, and the table below it. -/
theorem test_decode_worked_encodings :
    ([([0x19220203#32], .cmp false 1 .lt (.v 2) (.v 3)),
      ([0x05200004#32, 6#32], .brd false 1 false 4 6),
      ([0x11040203#32], .sub false (.v 4) (.v 2) (.v 3)),
      ([0x06000000#32], .join false),
      ([0x100504EE#32], .add false (.v 5) (.v 4) (.konst 6)),
      ([0x01200008#32], .setm false (.t .f32)),
      ([0x01300000#32], .setm false (.rnd .rne)),
      ([0x13040203#32], .fma false (.v 4) (.v 2) (.v 3)),
      ([0x900604F0#32, 0x3FC00000#32], .add true (.v 6) (.v 4) (.lit 0x3FC00000)),
      ([0x5906C630#32], .st false (.v 6) (.s 6) none 3 .nat),
      ([0xD8040A08#32, 0x40#32], .ld true (.v 4) (.v 10) (some 0x40) 0 .nat),
      ([0xE0CCCA15#32], .uld true 12 10 none 1 .sync),
      ([0x5120C7E8#32], .ucmp false 1 .eq (.s 7) (.konst 0)),
      ([0x0FC7FFFF#32], .loop false 7 (-1)),
      ([0x7B03D800#32], .tlwait false (.copy 3) (.s 24)),
      ([0x62000968#32], .fence false 9 .pkg .rel)].all fun (p : List W32 × Instr) =>
      decodeWords p.1 == some (p.2, [])) = true := by decide +kernel
/-- Examples of spec/05_instructions_core.md (R93, R94, R102, R104, R105). -/
theorem test_decode_core :
    ([([0x1B080208#32], .cvt false (.v 8) (.v 2) .f32),
      ([0x26140408#32], .wmad false (.v 20) (.v 4) (.v 8)),
      ([0x38654000#32], .plog false 3 1 2 8),
      ([0x3C0302EE#32], .shfx false (.v 3) (.v 2) (.konst 6)),
      ([0x3F400500#32], .vote false 2 .every (.v 5)),
      ([0x3F430500#32], .vote false 2 .odd (.v 5))].all fun (p : List W32 × Instr) =>
      decodeWords p.1 == some (p.2, [])) = true := by decide +kernel
/-- Examples of spec/06_instructions_memory.md. -/
theorem test_decode_memory :
    ([([0x58040A21#32], .ld false (.v 4) (.v 10) none 2 .x2),
      ([0x5C061410#32], .sts false (.v 6) (.v 20) none 1 .nat),
      ([0x5D050C00#32], .atom false (some (.v 5)) (.v 12) none 0 .add),
      ([0x6C07CA06#32], .atomar false (some (.v 7)) (.s 10) none 0 .exch),
      ([0x5F080C00#32], .cas false (.v 8) (.v 12) none 0),
      ([0x6300CA00#32], .monitor false 10 none),
      ([0x64000000#32], .mwait false),
      ([0x65000A01#32], .pref false (.v 10) none 0 .home),
      ([0x6600C601#32], .clean false (.s 6) none .page),
      ([0x61E9D405#32], .ust false (.konst 1) 20 none 0 .sync)].all fun (p : List W32 × Instr) =>
      decodeWords p.1 == some (p.2, [])) = true := by decide +kernel
/-- Examples of queues, rings, barriers and control registers (R143 to R147). -/
theorem test_decode_engines :
    ([([0x7EC90120#32], .csrr false 9 (.nxcopy 0)),
      ([0x49C9C9E9#32], .usub false 9 (.s 9) (.konst 1)),
      ([0x7C03C9E9#32], .ringWait false 0 (some 9) (.konst 1)),
      ([0x7D0600E8#32], .barSync false .cohort 3 (.konst 0)),
      ([0x7D6000E8#32], .barSync false .pkg 0 (.konst 0)),
      ([0x7C00C700#32], .ringInit false 0 (.s 7) 0),
      ([0x7C00C800#32], .ringInit false 0 (.s 8) 0),
      ([0x7EC50009#32], .csrr false 5 .resstall),
      ([0x62FFFF98#32], .fence false 0xFFFF .pod .sc)].all fun (p : List W32 × Instr) =>
      decodeWords p.1 == some (p.2, [])) = true := by decide +kernel
/-- Examples of lattices and matrix work (spec/11_lattice_access.md, spec/13_matrix_and_sparse.md), and of `trap`. -/
theorem test_decode_lattice_matrix :
    ([([0x6A03C600#32], .ldlat false 3 (.s 6)),
      ([0x68288803#32], .ldi false 40 true 8 0 3),
      ([0x6B020000#32], .settle false 2),
      ([0x7000D4D8#32], .mma false 0 20 24),
      ([0x7700EC00#32], .mhint false (.konst 4)),
      ([0x73000000#32], .aclr false 0),
      ([0x7501C6C7#32], .acld false 1 (.s 6) (.s 7)),
      ([0x762802C5#32], .acrd false (.v 40) 2 (.s 5)),
      ([0x7400C6E8#32], .acst false 0 (.s 6) (.konst 0)),
      ([0x79080400#32], .qnt false (.v 8) (.v 4)),
      ([0x7A0C0800#32], .dqnt false (.v 12) (.v 8)),
      ([0x781404CC#32], .hadq false (.v 20) (.v 4) 12),
      ([0x0B00BEEF#32], .trap false 0xBEEF)].all fun (p : List W32 × Instr) =>
      decodeWords p.1 == some (p.2, [])) = true := by decide +kernel

/-! ## A small machine -/

/-- The machine whose next step runs the word at its PC: one team of 32 lanes on core 0, with 512 MiB of memory mapped from virtual
address 0 (log 3). -/
def mach : State := State.reset.withFetchWord 32 0
/-- The same machine READY, as Chandler's events ask. -/
def ready : State := { mach with boot := .ready }
/-- A machine whose team has been changed. -/
def teamIs (s : State) (f : Team → Team) : State := s.modTeam 0 f
/-- A machine whose team has another element type. -/
def typed (t : Ty) : State := teamIs mach fun tm => { tm with mode := { tm.mode with t := t } }
/-- Sets lane registers of a lane. -/
def lane (s : State) (ws : List (Nat × Nat × W32)) : State :=
  teamIs s fun tm => { tm with regs := tm.regs.apply { Writes.none with v := ws.map fun p => (vKey p.1 p.2.1, p.2.2) } }
/-- Sets uniform registers. -/
def unif (s : State) (ws : List (Nat × W64)) : State := teamIs s fun tm => { tm with regs := tm.regs.usetAll ws }

/-- The operands of the instructions of some jobs can be used. -/
def readyAll (js : List (Frame → Job)) (f : Frame) : Bool :=
  js.all fun jf => (jf f).ok f && (jf f).spansOk && (jf f).check f == none && ((jf f).badLanes f ((jf f).lanesIn f)).isEmpty

theorem issuing_of {s : State} {P : Here → Bool} (c : (match issuing s with | some h => P h | none => false) = true) :
    ∃ h, issuing s = some h ∧ P h = true := by
  cases hi : issuing s with
  | none => rw [hi] at c; cases c
  | some h => rw [hi] at c; exact ⟨h, rfl, c⟩

/-- A check of the issuing team that shows it quiet and more. -/
theorem quiet_of {s : State} {P : Here → Bool}
    (c : (match issuing s with
      | some h => h.tm.claims.isEmpty && h.tm.residues.isEmpty && h.tm.inflight.isEmpty && !h.tm.stalled && P h
      | none => false) = true) : ∃ h, Quiet s h ∧ P h = true := by
  cases hi : issuing s with
  | none => rw [hi] at c; cases c
  | some h =>
    rw [hi] at c
    simp only [Bool.and_eq_true, List.isEmpty_iff, Bool.not_eq_true'] at c
    exact ⟨h, ⟨hi, c.1.1.1.1, c.1.1.1.2, c.1.1.2, c.1.2⟩, c.2⟩

theorem ready_of {js : List (Frame → Job)} {f : Frame} (c : readyAll js f = true) : ∀ jf ∈ js, Ready jf f := by
  intro jf hj
  have := List.all_eq_true.mp c jf hj
  simp only [Bool.and_eq_true, List.isEmpty_iff, beq_iff_eq] at this
  exact ⟨this.1.1.1, this.1.1.2, this.1.2, this.2⟩

/-- Canonical registers of every team, as a check. -/
theorem registers_of {s : State} (c : (s.teams.all fun tm => tm.regs.wf) = true) : RegistersOk s := List.all_eq_true.mp c

theorem test_mach_registers : RegistersOk mach := registers_of (by decide +kernel)
theorem test_mach_memory : MemoryOk mach := by unfold MemoryOk; decide +kernel
theorem test_mach_quiet : ∃ h, Quiet mach h ∧ (h.tm.pc == 0x10000) = true := quiet_of (by decide +kernel)

/-! ## One step, with the values of the spec's worked examples -/

/-- What an instruction leaves in lane registers, from a state. -/
def lanesAfter (i : Instr) (s : State) (rs : List (Nat × Nat)) : Option (List W32) :=
  match exec i s with
  | .next t => (t.teams[0]?).map fun tm => rs.map fun r => tm.regs.vget r.1 r.2
  | _ => none
/-- What an instruction leaves in the team, from a state. -/
def teamAfter {α : Type} (i : Instr) (s : State) (f : Team → α) : Option α :=
  match exec i s with
  | .next t => (t.teams[0]?).map f
  | _ => none
/-- A machine whose active mask is given. -/
def activeIs (s : State) (m : Mask) : State := teamIs s fun tm => { tm with active := m }

/-- R90's example: v2 of e4m3x4 to four registers of f32. -/
theorem test_cvt_widens : lanesAfter (.cvt false (.v 8) (.v 2) .f32) (lane (typed .e4m3x4) [(2, 0, 0x7EC23801)]) [(8, 0), (9, 0), (10, 0), (11, 0)]
    = some [0x3B000000, 0x3F800000, 0xC0200000, 0x43E00000] := by decide +kernel
/-- R90's example, back. -/
theorem test_cvt_narrows :
    lanesAfter (.cvt false (.v 12) (.v 8) .e4m3x4)
      (lane (typed .f32) [(8, 0, 0x3B000000), (9, 0, 0x3F800000), (10, 0, 0xC0200000), (11, 0, 0x43E00000)]) [(12, 0)] = some [0x7EC23801] := by
  decide +kernel
/-- The two-limb sum under R100: the low limb, then the high one with its carry. -/
theorem test_addc_low : lanesAfter (.addc false (.v 10) (.v 0) (.v 4)) (lane (typed .u32) [(0, 0, 0xFFFFFFFF), (4, 0, 1)]) [(10, 0), (11, 0)]
    = some [0, 1] := by decide +kernel
/-- The high limb of the same sum. -/
theorem test_addc_high : lanesAfter (.addc false (.v 11) (.v 1) (.v 5)) (lane (typed .u32) [(1, 0, 1), (5, 0, 2), (11, 0, 1)]) [(11, 0), (12, 0)]
    = some [4, 0] := by decide +kernel
/-- The if/else under R86: lanes 0 to 3, f32. -/
def ifElse : State := activeIs (lane (typed .f32) [(2, 0, 0x40A00000), (2, 1, 0x3F800000), (2, 2, 0x40E00000), (2, 3, 0x40000000),
  (3, 0, 0x40400000), (3, 1, 0x40400000), (3, 2, 0x40400000), (3, 3, 0x40400000)]) 0xF
/-- Its compare. -/
theorem test_cmp_lt : teamAfter (.cmp false 1 .lt (.v 2) (.v 3)) ifElse (fun tm => tm.regs.pget 1) = some 0xA := by decide +kernel
/-- Its branch. -/
theorem test_brd_below : teamAfter (.brd false 1 false 5 7) (ifElse.modTeam 0 fun tm => { tm with regs := tm.regs.pset 1 0xA 0xA })
    (fun tm => (tm.active, tm.stack.map fun e => e.mask)) = some (0x5, [0xA, 0xF]) := by decide +kernel
/-- Its first subtraction. -/
theorem test_sub_lanes : lanesAfter (.sub false (.v 4) (.v 2) (.v 3)) (activeIs ifElse 0x5) [(4, 0), (4, 1), (4, 2)]
    = some [0x40000000, 0, 0x40800000] := by decide +kernel
/-- R21: a loop whose counter is 0 goes on at 2^64 - 1. -/
theorem test_loop_zero : teamAfter (.loop false 7 5) mach (fun tm => tm.regs.uget 7) = some 0xFFFFFFFFFFFFFFFF := by decide +kernel
/-- R113: an unsigned division by 0 gives all ones. -/
theorem test_udiv_zero : teamAfter (.udiv false 9 (.s 5) (.s 6)) (unif mach [(5, 12)]) (fun tm => tm.regs.uget 9)
    = some 0xFFFFFFFFFFFFFFFF := by decide +kernel
/-- R102: table 8 is AND. -/
theorem test_plog_and : teamAfter (.plog false 3 1 2 8)
    (teamIs mach fun tm => { tm with regs := (tm.regs.pset 1 0xFF 0x0F).pset 2 0xFF 0x3C }) (fun tm => tm.regs.pget 3) = some 0xC := by
  decide +kernel
/-- The last two rows of R70's table, and the input 1. -/
theorem test_mix : (mix 0).getLsbD 0 = false ∧ (mix 1).getLsbD 0 = true := by decide

/-! ## Witnesses: for each statement, states and operands that meet its hypotheses together -/

theorem test_wit_DecodeEncode : ∃ i : Instr, i.isWord = true ∧ i.wf = true := ⟨.add true (.v 191) (.lit 5) (.idx 3), rfl, by decide⟩
theorem test_wit_DecodedIsWellFormed : ∃ ws i rest, decodeWords ws = some (i, rest) := ⟨[0#32, 7], .nop false, [7], by decide⟩

/-- The checks of StepRunsDecoded on a machine. -/
def stepsRight (s : State) (legal : Bool) : Bool :=
  s.agenda.isEmpty && !s.frozen && teamsFirst s && match pickTeam s with
    | none => false
    | some h => h.tm.owed.isEmpty && !residueDue h.tm && h.tm.status == .running && (pcHalts h).isEmpty && match fetchWord { s with cur := h.t } h h.tm.pc with
      | .ok s1 w => match fetchMore h (wordCount w - 1) (h.tm.pc + 4) [w] s1 with
        | .ok (_, ws) => (decodeWords ws).isSome == legal
        | .error _ => false
      | _ => false

theorem stepsRight_spec {s : State} {legal : Bool} (c : stepsRight s legal = true) :
    ∃ s1 s2 h w ws, s.agenda = [] ∧ s.frozen = false ∧ teamsFirst s = true ∧ pickTeam s = some h
      ∧ h.tm.owed = [] ∧ residueDue h.tm = false ∧ (∀ c i l f a, h.tm.status.wake? ≠ some (.handler c i l f a)) ∧ pcHalts h = []
      ∧ fetchWord { s with cur := h.t } h h.tm.pc = .ok s1 w
      ∧ fetchMore h (wordCount w - 1) (h.tm.pc + 4) [w] s1 = .ok (s2, ws) ∧ (decodeWords ws).isSome = legal := by
  unfold stepsRight at c
  simp only [Bool.and_eq_true, List.isEmpty_iff, Bool.not_eq_true'] at c
  obtain ⟨⟨⟨ha, hf⟩, ht⟩, c⟩ := c
  cases hp : pickTeam s with
  | none => rw [hp] at c; cases c
  | some h =>
    rw [hp] at c
    simp only [Bool.and_eq_true, List.isEmpty_iff, Bool.not_eq_true'] at c
    obtain ⟨⟨⟨⟨ho, hr⟩, hs⟩, hc⟩, c⟩ := c
    cases hw : fetchWord { s with cur := h.t } h h.tm.pc with
    | ok s1 w =>
      rw [hw] at c
      simp only at c
      cases hm : fetchMore h (wordCount w - 1) (h.tm.pc + 4) [w] s1 with
      | error e => rw [hm] at c; cases c
      | ok r =>
        rw [hm] at c
        refine ⟨s1, r.1, h, w, r.2, ha, hf, ht, rfl, ho, hr, ?_, hc, hw, hm, by simpa using c⟩
        intro _ _ _ _ _ e
        rw [beq_iff_eq.mp hs] at e
        cases e
    | fault _ _ _ => rw [hw] at c; cases c
    | ask _ _ _ => rw [hw] at c; cases c

/-- The team whose turn it is, where no event and nothing frozen comes first. -/
def turnOf (s : State) (P : Here → Bool) : Bool :=
  s.agenda.isEmpty && !s.frozen && teamsFirst s && match pickTeam s with
    | none => false
    | some h => P h
/-- A residue of `add` in every lane, which waits for nothing or for one producer. -/
def addResidue (tm : Team) (waits : List Claim) : Residue :=
  ⟨7, .add false (.v 9) (.v 1) (.v 2), ⟨tm.pc, tm.mode, tm.active, tm.regs, tm.idx, 0, 0, tm.lanes, []⟩, none, [.v 9], waits⟩
theorem test_wit_StepRunsDecoded :
    stepsRight (State.reset.withFetchWord 64 0x9006_04F0) true = true ∧ stepsRight (State.reset.withFetchWord 32 0x47000000) false = true
    ∧ turnOf (teamIs mach fun tm => { tm with owed := [(0, 40)] }) (fun h => !h.tm.owed.isEmpty) = true
    ∧ turnOf (teamIs mach fun tm => { tm with residues := [addResidue tm []] }) (fun h => h.tm.owed.isEmpty && residueDue h.tm) = true := by
  decide +kernel

/-- The translation of a fetch at an address, for the team of the small machine. -/
def fetchAt (va : W64) : Option (State × Except WalkFault Xlat) :=
  (here mach 0).map fun h => xlateFor mach h.core h.asid h.cx.ptroot.toNat va .fetch
/-- The small machine whose core 0 holds the line of the team's next word. -/
def fetched : State := (teamIs mach fun tm => tm).modCore 0 fun c => { c with icache := ⟨lineOf 0x100020010000, [(3, 7)]⟩ :: c.icache }
theorem test_wit_FetchReadsHome_held : ((here fetched 0).bind fun h => match xlateFor fetched h.core h.asid h.cx.ptroot.toNat 0x10000 .fetch with
      | (s1, .ok x) => some (ordinary 0x10000 && x.pa % 4 == 0 && codeHeld s1 h.core (lineOf x.pa) == some [(3, 7)])
      | _ => none) = some true
    ∧ ((here mach 0).bind fun h => match xlateFor mach h.core h.asid h.cx.ptroot.toNat 0x10000 .fetch with
      | (s1, .ok x) => some (x.pa % 4 == 0 && decide (x.pa < apertureBase) && (codeHeld s1 h.core (lineOf x.pa)).isNone
          && (s1.cores[h.core]?).isSome)
      | _ => none) = some true := by
  decide +kernel
theorem test_wit_FetchReadsHome : ordinary windowBase = false
    ∧ (match fetchAt (2 ^ 40) with | some (_, .error _) => ordinary (2 ^ 40) | _ => false) = true
    ∧ (match fetchAt 0x10000 with | some (_, .ok x) => ordinary 0x10000 && decide (x.pa + 3 < apertureBase) | _ => false) = true := by
  decide +kernel

theorem test_wit_StepRunsEvents :
    (∃ (s : State) (i : Instr) (r : List Happening), s.agenda = .event i :: r ∧ s.frozen = false ∧ i.isWord = false
        ∧ (∀ w, i ≠ .illegalInstruction w) ∧ ∀ t, i ≠ .residueRun t)
      ∧ (∃ s : State, s.frozen = true ∧ ∀ r, s.agenda ≠ .event .coldReset :: r) ∧ ∃ (s : State) (r : List Happening), s.agenda = .event .coldReset :: r :=
  ⟨⟨{ mach with agenda := [.event (.heldRowRefresh 0)] }, .heldRowRefresh 0, [], rfl, rfl, rfl, (fun _ h => by cases h), fun _ h => by cases h⟩,
    ⟨{ mach with frozen := true }, rfl, fun r h => by cases h⟩, ⟨{ mach with agenda := [.event .coldReset] }, [], rfl⟩⟩

/-- An event that runs a residue: of the team that its bench picks, and of one that owes passes. -/
def residueEvent (owed : List (Nat × Nat)) : State :=
  { teamIs mach fun tm => { tm with residues := [addResidue tm []], owed := owed } with agenda := [.event (.residueRun 0)] }
/-- The hypotheses of a residue's turn. -/
def residueTurnRight (s : State) (picked due : Bool) : Bool :=
  let s1 := { s with agenda := [] }
  !s.frozen && match here s1 0 with
    | some h => ((benchPick s1 (readyTeams s1) h.core h.bench).map (·.t) == some 0) == picked && h.tm.owed.isEmpty == due
        && (!due || residueDue h.tm)
    | none => false
theorem test_wit_StepRunsEvents_residue : residueTurnRight (residueEvent []) true true = true
    ∧ residueTurnRight (residueEvent [(0, 40)]) true false = true := by
  decide +kernel

theorem test_wit_MemoryStaysCanonical : ∃ s t : State, MemoryOk s ∧ RegistersOk s ∧ step s = .next t :=
  ⟨{ mach with agenda := [.event .freeze] }, { mach with agenda := [], frozen := true }, test_mach_memory, test_mach_registers, rfl⟩

theorem test_wit_WritesReadBack : MemoryOk mach ∧ ([(5, 1), (0, 2)] : List (Nat × Byte)).map (·.1) = [5, 0] ∧ [5, 0].Nodup
    ∧ Regs.zero.wf = true ∧ (7 : Nat) ≠ 0 := ⟨test_mach_memory, rfl, by decide, by decide, by decide⟩

/-- A stack of `n` entries that hold every lane. -/
def deep (n : Nat) : State := teamIs mach fun tm => { tm with stack := List.replicate n ⟨.div, 0x10000, maskBelow 32⟩ }

theorem test_wit_Jumps : (∃ h, issuing (deep 255) = some h ∧ decide (h.tm.stack.length = 255) = true)
    ∧ (∃ h, issuing (deep 256) = some h ∧ decide (256 ≤ h.tm.stack.length) = true)
    ∧ (∃ h, Quiet (unif mach [(4, 8), (5, 6)]) h
      ∧ decide ((usrcVal h.frame (.s 4)).toNat % 4 = 0 ∧ (usrcVal h.frame (.s 5)).toNat % 4 ≠ 0) = true) :=
  ⟨issuing_of (by decide +kernel), issuing_of (by decide +kernel), quiet_of (by decide +kernel)⟩

/-- The predicate p1 holds in the lanes of a mask. -/
def pred (s : State) (m : Mask) : State := teamIs s fun tm => { tm with regs := tm.regs.pset 1 (maskBelow 32) m }
/-- The lanes of M where p1 holds. -/
def holdsIn (h : Here) : List Nat := (lanesOf h.tm.active).filter fun l => (h.tm.regs.pget 1).getLsbD l

theorem test_wit_UniformBranches : (∃ h, Quiet (pred mach (maskBelow 32)) h ∧ decide ((holdsIn h).length = 32) = true)
    ∧ (∃ h, Quiet (pred mach 1) h ∧ decide (holdsIn h = [0]) = true)
    ∧ (∃ h, Quiet (pred mach 0) h ∧ decide (holdsIn h = []) = true) :=
  ⟨quiet_of (by decide +kernel), quiet_of (by decide +kernel), quiet_of (by decide +kernel)⟩

/-- The lanes outside T of `brd`, and T. -/
def brdSets (h : Here) (neg : Bool) : Mask × Mask := (h.tm.active &&& ~~~testLanes h.frame 1 neg, testLanes h.frame 1 neg)
theorem test_wit_DivergentBranch :
    (∃ h, Quiet (pred (deep 255) (maskBelow 32)) h ∧ decide (h.tm.stack.length < 256 ∧ (brdSets h false).1 = 0) = true)
      ∧ (∃ h, Quiet (pred (deep 255) 0) h ∧ decide (h.tm.stack.length < 256 ∧ (brdSets h false).1 ≠ 0 ∧ (brdSets h false).2 = 0) = true)
      ∧ (∃ h, Quiet (pred (deep 254) 1) h ∧ decide (h.tm.stack.length < 255 ∧ (brdSets h true).1 ≠ 0 ∧ (brdSets h true).2 ≠ 0) = true)
      ∧ (∃ h, Quiet (pred (deep 255) 1) h ∧ decide (255 ≤ h.tm.stack.length ∧ (brdSets h true).1 ≠ 0 ∧ (brdSets h true).2 ≠ 0) = true)
      ∧ (∃ h, Quiet (deep 256) h ∧ decide (256 ≤ h.tm.stack.length) = true) :=
  ⟨quiet_of (by decide +kernel), quiet_of (by decide +kernel), quiet_of (by decide +kernel), quiet_of (by decide +kernel),
    quiet_of (by decide +kernel)⟩

/-- A stack of one entry, at a region's stack depth. -/
def oneEntry (k : EntryKind) (d : Nat) : State :=
  teamIs mach fun tm => { tm with stack := [⟨k, 0x10000, 1⟩], rdepth := d }
theorem test_wit_Pops :
    (∀ k ∈ [EntryKind.div, .pend, .call, .trap ⟨0, Mode.launch false, 0, 0, 0, 0, none⟩], ∀ d ∈ [0, 1],
        ∃ h, Quiet (oneEntry k d) h ∧ (h.tm.stack == [⟨k, 0x10000, 1⟩] && (1 &&& h.tm.live) != 0 && h.tm.rdepth == d) = true)
      ∧ RegistersOk (oneEntry (.trap ⟨0, Mode.launch false, 0, 0, 0, 0, none⟩) 1)
      ∧ (∃ h, issuing mach = some h ∧ h.tm.stack.isEmpty = true) := by
  refine ⟨fun k hk d hd => ?_, registers_of (by decide +kernel), issuing_of (by decide +kernel)⟩
  simp only [List.mem_cons, List.not_mem_nil, or_false] at hk hd
  rcases hk with rfl | rfl | rfl | rfl <;> rcases hd with rfl | rfl <;> exact quiet_of (by decide +kernel)

theorem test_wit_LoopCounts : (∃ h, Quiet (unif mach [(7, 1)]) h ∧ (h.tm.regs.uget 7 - 1 == 0) = true)
    ∧ (∃ h, Quiet mach h ∧ (h.tm.regs.uget 7 - 1 != 0) = true) ∧ RegistersOk (unif mach [(7, 1)]) ∧ RegistersOk mach :=
  ⟨quiet_of (by decide +kernel), quiet_of (by decide +kernel), registers_of (by decide +kernel), test_mach_registers⟩

theorem test_wit_SetmWritesOneField : (∃ h, issuing mach = some h ∧ h.tm.residues.isEmpty = true)
    ∧ ∃ h, issuing (teamIs mach fun tm => { tm with residues := [addResidue tm [⟨.v 1, 3, true, 0, 1⟩]] }) = some h
      ∧ (!h.tm.residues.isEmpty) = true :=
  ⟨issuing_of (by decide +kernel), issuing_of (by decide +kernel)⟩

theorem test_wit_RegionDrainYield : (∃ h, Quiet mach h ∧ (h.ga.state != .capturing) = true)
    ∧ (∃ h, Quiet (mach.modGang 0 fun g => { g with state := .capturing }) h ∧ (h.ga.state == .capturing) = true)
    ∧ (∃ h, issuing (teamIs mach fun tm => { tm with claims := [⟨.s 3, 0, false, 0, 0⟩] }) = some h ∧ (!h.tm.claims.isEmpty) = true) :=
  ⟨quiet_of (by decide +kernel), quiet_of (by decide +kernel), issuing_of (by decide +kernel)⟩

/-- A team that leaves one live entry of a kind under a dead one, at a region's stack depth. -/
def leaving (k : EntryKind) (d : Nat) : State :=
  teamIs mach fun tm => { tm with active := 1, rdepth := d, stack := [⟨.div, 0x10000, 1⟩, ⟨k, 0x10000, 2⟩] }
theorem test_wit_ExitLeaves : (∃ h, Quiet mach h ∧ (h.tm.live &&& ~~~h.tm.active == 0) = true)
    ∧ ∀ k ∈ [EntryKind.pend, .call, .trap ⟨0, Mode.launch false, 0, 0, 0, 0, none⟩], ∀ d ∈ [0, 1], ∃ h, Quiet (leaving k d) h
      ∧ (let live := h.tm.live &&& ~~~h.tm.active
        live != 0 && h.tm.stack == [⟨.div, 0x10000, 1⟩, ⟨k, 0x10000, 2⟩] && (1 &&& live) == 0 && (2 &&& live) != 0 && h.tm.rdepth == d) = true := by
  refine ⟨quiet_of (by decide +kernel), fun k hk d hd => ?_⟩
  simp only [List.mem_cons, List.not_mem_nil, or_false] at hk hd
  rcases hk with rfl | rfl | rfl <;> rcases hd with rfl | rfl <;> exact quiet_of (by decide +kernel)

theorem test_wit_Traps : (∃ h, Quiet (teamIs (deep 255) fun tm => { tm with trapvec := 0x20000 }) h
      ∧ (h.tm.trapvec != 0 && decide (h.tm.stack.length < 256)) = true)
    ∧ RegistersOk (teamIs (deep 255) fun tm => { tm with trapvec := 0x20000 }) ∧ ∃ h, Quiet mach h ∧ (h.tm.trapvec == 0) = true :=
  ⟨quiet_of (by decide +kernel), registers_of (by decide +kernel), quiet_of (by decide +kernel)⟩

/-- The team of a machine is quiet, its registers are canonical, and some jobs can use their operands. -/
def lanesReady (s : State) (js : List (Frame → Job)) : Bool :=
  (s.teams.all fun tm => tm.regs.wf) && match issuing s with
    | some h => h.tm.claims.isEmpty && h.tm.residues.isEmpty && h.tm.inflight.isEmpty && !h.tm.stalled && readyAll js h.frame
    | none => false
theorem lanesReady_spec {s : State} {js : List (Frame → Job)} (c : lanesReady s js = true) :
    ∃ h, Quiet s h ∧ RegistersOk s ∧ ∀ jf ∈ js, Ready jf h.frame := by
  unfold lanesReady at c
  simp only [Bool.and_eq_true] at c
  obtain ⟨h, hq, hr⟩ := quiet_of (P := fun h => readyAll js h.frame) (s := s) c.2
  exact ⟨h, hq, registers_of c.1, ready_of hr⟩

theorem test_wit_ElementwiseLanes :
    lanesReady (typed .f32) [jobAdd (.v 1) (.v 2) (.v 3), jobSub (.v 1) (.v 2) (.v 3), jobMul (.v 1) (.v 2) (.v 3),
        jobMin (.v 1) (.v 2) (.v 3), jobMax (.v 1) (.v 2) (.v 3), jobFma (.v 1) (.v 2) (.v 3), jobFms (.v 1) (.v 2) (.v 3),
        jobAbs (.v 1) (.v 2), jobNeg (.v 1) (.v 2), jobRcp (.v 1) (.v 2), jobRsq (.v 1) (.v 2), jobExp2 (.v 1) (.v 2),
        jobLog2 (.v 1) (.v 2), jobSin (.v 1) (.v 2), jobCos (.v 1) (.v 2), jobSqrt (.v 1) (.v 2), jobRint (.v 1) (.v 2),
        jobDiv (.v 1) (.v 2) (.v 3)] = true
      ∧ lanesReady (typed .i32) [jobDiv (.v 1) (.v 2) (.v 3), jobShl (.v 1) (.v 2) (.v 3), jobShr (.v 1) (.v 2) (.v 3),
        jobRol (.v 1) (.v 2) (.v 3), jobPopc (.v 1) (.v 2), jobClz (.v 1) (.v 2), jobBrev (.v 1) (.v 2), jobBfe (.v 1) (.v 2) (.v 3),
        jobBfi (.v 1) (.v 2) (.v 3), jobMulhi (.v 1) (.v 2) (.v 3)] = true
      ∧ (typed .f32).teams.all (fun tm => !tm.mode.ftz) = true ∧ f32IsNan 0x7FA00001 ∧ ¬f32IsNan 0x3F800000 ∧ f32Finite 0x3F800000 ∧ f32Finite 0x40000000
      ∧ f32Int 0x40400000 ≠ 0 ∧ f32Int 0x3F800000 + f32Int 0x40000000 = f32Int 0x40400000
      ∧ f32Int 0x40000000 * f32Int 0x40400000 = f32Int 0x40C00000 * 2 ^ 149 := by
  unfold f32IsNan f32Finite
  decide +kernel

theorem test_wit_IntegerLanes :
    (∀ t ∈ [Ty.i32, .u32, .i64, .u64], lanesReady (typed t) [jobAdd (.v 2) (.v 4) (.v 6), jobSub (.v 2) (.v 4) (.v 6),
        jobMul (.v 2) (.v 4) (.v 6), jobMin (.v 2) (.v 4) (.v 6), jobMax (.v 2) (.v 4) (.v 6), jobAnd (.v 2) (.v 4) (.v 6), jobOr (.v 2) (.v 4) (.v 6), jobXor (.v 2) (.v 4) (.v 6),
        jobNot (.v 2) (.v 4), jobMov (.v 2) (.v 4), jobShl (.v 2) (.v 4) (.v 6), jobShr (.v 2) (.v 4) (.v 6),
        jobRol (.v 2) (.v 4) (.v 6), jobPsum (.v 2) (.v 4)] = true ∧ ∀ u ∈ [Ty.i32, .u64], lanesReady (typed t) [jobCvt (.v 2) (.v 4) u] = true)
      ∧ (∀ t ∈ [Ty.i32, .i64], lanesReady (typed t) [jobNeg (.v 2) (.v 4), jobAbs (.v 2) (.v 4)] = true)
      ∧ (∀ t ∈ [Ty.i8x4, .u8x4, .i16x2, .u16x2], lanesReady (typed t) [jobWmad (.v 20) (.v 4) (.v 8)] = true)
      ∧ (∀ t ∈ [Ty.i8x4, .u8x4], lanesReady (typed t) [jobDot4 (.v 1) (.v 2) (.v 3)] = true)
      ∧ mach.teams.all (fun tm => !tm.mode.sat) = true ∧ Ty.u8x4.elem = .int false 8 ∧ Ty.i16x2.elem = .int true 16
      ∧ ∀ t ∈ [Ty.i32, .u32, .i64, .u64], ∃ sg, t.elem = .int sg (32 * t.regs) := by
  refine ⟨by decide +kernel, by decide +kernel, by decide +kernel, by decide +kernel, by decide +kernel, rfl, rfl, fun t ht => ?_⟩
  simp only [List.mem_cons, List.not_mem_nil, or_false] at ht
  rcases ht with rfl | rfl | rfl | rfl
  · exact ⟨true, rfl⟩
  · exact ⟨false, rfl⟩
  · exact ⟨true, rfl⟩
  · exact ⟨false, rfl⟩

theorem test_wit_WholeRegisters :
    lanesReady (typed .i32) [jobAnd (.v 1) (.v 2) (.v 3), jobOr (.v 1) (.v 2) (.v 3), jobXor (.v 1) (.v 2) (.v 3), jobNot (.v 1) (.v 2),
        jobMov (.v 1) (.v 2), jobSel (.v 1) (.v 2) (.v 3), jobAddc (.v 8) (.v 2) (.v 3), jobLea (.v 8) (.v 2) (.v 3), jobPtov (.v 1) 2]
        = true
      ∧ lanesReady (typed .i8x4) [jobWmad (.v 20) (.v 4) (.v 8), jobDot4 (.v 1) (.v 2) (.v 3)] = true
      ∧ lanesReady (typed .e4m3x4) [jobCvt (.v 8) (.v 2) .f32] = true ∧ leaSize .i32 = some 4 := by
  decide +kernel

theorem test_wit_PredicateLanes :
    lanesReady (typed .f32) [jobCmp 1 .lt (.v 2) (.v 3), jobClass 1 .sub (.v 2), jobPlog 3 1 2 8, jobVtop 1 (.v 2),
      jobVote 2 .every (.v 5)] = true := by
  decide +kernel

theorem test_wit_LaneExchange :
    lanesReady (typed .i32) [jobShfl (.v 1) (.v 2) (.v 3), jobShfx (.v 1) (.v 2) (.v 3), jobShfu (.v 1) (.v 2) (.v 3),
      jobShfd (.v 1) (.v 2) (.v 3), jobVconf (.v 1) (.v 2), jobPsum (.v 1) (.v 2)] = true := by
  decide +kernel

theorem test_wit_LaneToUniform :
    lanesReady (typed .i32) [jobBallot 5 (.v 2) (.konst 0), jobRedu 5 (.v 2), jobRdlane 5 (.v 2) (.konst 7)] = true
      ∧ ((issuing (typed .i32)).map fun h => srcLaneOk h.frame .i32 (.v 2) 7) = some true := by
  decide +kernel

theorem test_wit_IndexRegisters : lanesReady mach [jobXset 1 (.v 2)] = true
    ∧ (∃ h, Quiet (unif mach [(4, 192)]) h ∧ ((cntVal h.frame (.s 4)).toNat == 192 && (cntVal h.frame (.konst 0)).toNat == 0) = true) :=
  ⟨by decide +kernel, quiet_of (by decide +kernel)⟩

theorem test_wit_Quantisation : lanesReady (typed .e4m3x4) [jobQnt (.v 8) (.v 4), jobDqnt (.v 8) (.v 4)] = true
    ∧ (mxFmt .e4m3x4).isSome = true ∧ lanesReady (unif (typed .f32) [(13, 4)]) [jobHadq (.v 20) (.v 4) 12] = true
    ∧ ((issuing (unif (typed .f32) [(13, 4)])).map fun h => hadqOk h.frame 12) = some true
    ∧ ((issuing (unif (typed .f32) [(13, 5)])).map fun h => hadqOk h.frame 12) = some false
    ∧ ((issuing (unif (typed .f32) [(13, 5)])).map fun h => (jobHadq (.v 20) (.v 4) 12 h.frame).ok h.frame
        && (jobHadq (.v 20) (.v 4) 12 h.frame).spansOk) = some true
    ∧ ((issuing (unif (typed .f32) [(13, 4)])).map fun h => h.frame.on.all fun l =>
        (groupLanes (2 ^ (hadqCtl h.frame 12).1) (l / 2 ^ (hadqCtl h.frame 12).1)).all fun k => srcLaneOk h.frame .f32 (.v 4) k) = some true := by
  decide +kernel

theorem test_wit_UniformAlu : ∃ h, Quiet (unif mach [(5, 0)]) h ∧ (usrcVal h.frame (.s 5) == 0 && usrcVal h.frame (.konst 1) != 0) = true :=
  quiet_of (by decide +kernel)
theorem test_wit_UniformCompare : (∃ h, Quiet mach h ∧ (h.tm.active == maskBelow 32) = true) ∧ RegistersOk mach :=
  ⟨quiet_of (by decide +kernel), test_mach_registers⟩

/-- A machine whose index register x0 holds 1, with a window of a length. -/
def windowed (n : Nat) : State :=
  teamIs (typed .i32) fun tm => { tm with regs := { tm.regs with win := tm.regs.win.set 0 ⟨5, n⟩, x := (List.range 32).foldl (fun x l => sset x l 1) [] } }
/-- How an instruction's operands stand: its checks, spans and the lanes with a bad index. -/
def operandsAt (s : State) (jf : Frame → Job) : Option (Bool × Bool × Option Nat × Nat) :=
  (issuing s).map fun h => ((jf h.frame).ok h.frame, (jf h.frame).spansOk, ((jf h.frame).check h.frame).map BitVec.toNat,
    ((jf h.frame).badLanes h.frame h.frame.on).length)

theorem test_wit_OperandFaults :
    [operandsAt (typed .i32) (jobRcp (.v 1) (.v 2)), operandsAt (typed .i64) (jobAdd (.v 1) (.v 2) (.v 4)),
        operandsAt (windowed 1) (jobAdd (.v 1) (.idx 0) (.v 4)), operandsAt (windowed 2) (jobAdd (.v 1) (.idx 0) (.v 4)),
        operandsAt (unif (typed .f32) [(13, 5)]) (jobHadq (.v 20) (.v 4) 12), operandsAt (typed .f32) (jobLdi 40 false 8 0 3)]
      = [some (false, true, none, 0), some (true, false, none, 0), some (true, true, none, 32), some (true, true, none, 0),
        some (true, true, some 0x0D, 0), some (true, true, some 0x0B, 0)] := by
  decide +kernel

/-- A machine in which v2 is pending, with DF, a capacity and a choice of what a full file does. -/
def awaits (df flt : Bool) (cap : Nat) : State :=
  teamIs (typed .i32) fun tm => { tm with
    claims := [⟨.v 2, 7, true, 0, maskBelow 32⟩], mode := { tm.mode with df := df }, rescap := cap, resflt := flt }
/-- The checks of PendingInputs for `add v1, v2, v3`. -/
def pendingRight (s : State) (df flt : Bool) (full : Bool) : Bool :=
  match issuing s with
  | none => false
  | some h =>
    let f := h.frame
    let j := jobAdd (.v 1) (.v 2) (.v 3) f
    let ls := j.lanesIn f
    j.ok f && j.spansOk && j.check f == none
      && (j.okKeys ++ j.readKeys f (j.lanesAll f)).all (fun k => h.tm.claims.all fun c => c.key != k || c.pending) && (pendingOf h.tm.claims j.okKeys).isEmpty && !isPending h.tm.claims (.p f.mode.g.val)
      && (j.badLanes f ls).isEmpty && (!(pendingOf h.tm.claims (j.readKeys f ls)).isEmpty || mustDefer h.tm)
      && j.defers && h.tm.mode.df == df && h.tm.resflt == flt && h.tm.stalled == mustDefer h.tm && decide (h.tm.rescap ≤ h.tm.residues.length) == full
theorem test_wit_PendingInputs :
    pendingRight (awaits false false 1) false false false = true ∧ pendingRight (awaits true false 1) true false false = true
      ∧ pendingRight (awaits true true 0) true true true = true ∧ pendingRight (awaits true false 0) true false true = true
      ∧ pendingRight (teamIs (awaits true false 1) fun tm => { tm with claims := [], stalled := true }) true false false = true := by
  decide +kernel

/-! ### Memory -/

/-- The small machine with addresses in s6 (mapped), s7 (scratchpad), s8 (odd) and s9 (not mapped). -/
def memm : State := unif (typed .f32) [(6, 0x40000), (7, 0x100), (8, 0x40001), (9, 2 ^ 40)]
/-- The same for one lane. -/
def memOne : State := teamIs memm fun tm => { tm with active := 1 }
/-- The same for an integer type. -/
def memInt : State := unif (typed .i32) [(6, 0x40000), (7, 0x100)]
/-- The physical address of virtual address 0x40000. -/
def paOf : Nat := 0x100020040000
/-- A machine in which a core's L1 holds a dirty byte of that line. -/
def dirtied (s : State) (core : Nat) : State :=
  s.modCore core fun c => { c with l1 := ⟨lineOf paOf, 0, false, none, [(0, 7)], []⟩ :: c.l1 }
/-- A machine in which that line has a tag. -/
def taggedBy (s : State) (r : Releaser) (cleared : Bool) : State := { s with tags := [⟨lineOf paOf, r, 0, .pkg, cleared⟩] }
/-- A machine at another scope. -/
def atScope (s : State) (sc : Scope) : State := teamIs s fun tm => { tm with mode := { tm.mode with sc := sc } }
/-- Bytes are plain in a machine that has a queue and a context record; `Laws.plainAt_of` makes PlainAt of it. -/
def plainIn (s : State) (as : List Nat) : Bool := !s.queues.isEmpty && s.ctxs.all (Laws.plainRec as) && s.queues.all (Laws.plainFor s as)
/-- OneEach, as a check. -/
def oneEach (d : List (Nat × Byte)) : Bool := d.all fun u => d.all fun v => u.1 != v.1 || u.2 == v.2
theorem oneEach_spec {d : List (Nat × Byte)} (c : oneEach d = true) : OneEach d := by
  intro u hu v hv e
  have := List.all_eq_true.mp (List.all_eq_true.mp c u hu) v hv
  simpa [e] using this

/-- What the hypotheses of an access ask, with where its lanes go and their faults. -/
def accessAt (s : State) (i : Instr) : Option (Bool × State × List Placed × List LaneFault) :=
  match issuing s, jobOf i with
  | some h, some jf => (accessOf i h.frame).map fun a =>
      (h.tm.claims.isEmpty && h.tm.residues.isEmpty && h.tm.inflight.isEmpty && !h.tm.stalled && readyAll [jf] h.frame
        && (h.cx.comps.all fun c => c.action != 1 && c.action != 2) && (h.tm.mode.sc != .pod || (podRelease s h).isNone)
        && (s.teams.all fun tm => tm.regs.wf) && Memory.wf s.mem && decide (h.core < s.cores.length),
        placeAll s h a.1 a.2.1 a.2.2.1 a.2.2.2)
  | _, _ => none
/-- No lane of an access takes a fault. -/
def goesThrough (s : State) (i : Instr) : Bool := match accessAt s i with | some (ok, _, _, []) => ok | _ => false
/-- Some lane takes one. -/
def faultsAt (s : State) (i : Instr) : Bool := match accessAt s i with | some (ok, _, _, fs) => ok && (pickFault fs).isSome | _ => false

theorem test_wit_AccessesIssue :
    ([.ld false (.v 1) (.s 6) none 0 .nat, .ldc false (.v 1) (.s 6) none .nat, .lds false (.v 1) (.s 7) none 0 .nat,
      .ldq false (.v 1) (.s 7) none 0 .nat, .st false (.v 1) (.s 6) none 0 .nat, .sts false (.v 1) (.s 7) none 0 .nat,
      .stq false (.v 1) (.s 7) none 0 .nat, .cas false (.v 2) (.s 6) none 0, .uld false 1 6 none 0 .nat,
      .ust false (.s 1) 6 none 0 .nat].all (goesThrough memm)) = true
    ∧ ([.atom false (some (.v 1)) (.s 6) none 0 .add, .atomar false (some (.v 1)) (.s 6) none 0 .add,
      .atoms false (some (.v 1)) (.s 7) none 0 .add].all (goesThrough memInt)) = true
    ∧ goesThrough (atScope memm .pod) (.st false (.v 1) (.s 6) none 0 .sync) = true := by
  decide +kernel

theorem test_wit_AccessFaults : faultsAt memm (.ld false (.v 1) (.s 9) none 0 .nat) = true
    ∧ faultsAt memm (.ust false (.s 1) 9 none 0 .nat) = true ∧ faultsAt memm (.st false (.v 1) (.s 8) none 0 .nat) = true := by
  decide +kernel

theorem test_wit_ScratchpadAccesses :
    (match issuing memm with
      | some h => let f := h.frame
          readyAll [jobLds (.v 1) (.s 7) none 0 .nat, jobLdq (.v 1) (.s 7) none 0 .nat, jobSts (.v 1) (.s 7) none 0 .nat,
              jobStq (.v 1) (.s 7) none 0 .nat] f
            && (f.on.all fun l => baseOff f (.s 7) none l % formAlign f.mode.t .nat = 0 && decide (baseOff f (.s 7) none l < 2 ^ 22)
              && decide (baseOff f (.s 7) none l % 2 ^ 22 + formBytes f.mode.t .nat ≤ h.share) && h.neighbour 0 == some (0, 0))
            && (memm.cohorts.all fun c => swf c.sp) && !memm.cohorts.isEmpty
      | none => false) = true ∧ lanesReady memm [] = true := by
  decide +kernel

/-- Every byte of an access lies in local memory, and more. -/
def localOnly (s : State) (i : Instr) (P : State → List Spot → Bool) : Bool :=
  match accessAt s i with
  | some (ok, s1, ps, []) => ok && !ps.isEmpty && (ps.all fun p => !p.spots.isEmpty && p.spots.all fun x => !x.x.imp && decide (x.pa < apertureBase))
      && P s1 (ps.flatMap Placed.spots)
  | _ => false
/-- The lines of an access carry no tag. -/
def untaggedAt (s1 : State) (xs : List Spot) : Bool := xs.all fun x => (tagOf s1 (lineOf x.pa)).isNone
theorem test_wit_GlobalLoads :
    ([Instr.ld false (.v 1) (.s 6) none 0 .nat, .uld false 1 6 none 0 .nat, .ldc false (.v 1) (.s 6) none .nat].all fun i =>
      localOnly memm i fun _ _ => true) = true
    ∧ ([Instr.ld false (.v 1) (.s 6) none 0 .sync, .uld false 1 6 none 0 .sync].all fun i =>
      localOnly (atScope memm .core) i (fun _ _ => true) && localOnly (atScope memm .pkg) i untaggedAt) = true := by
  decide +kernel
/-- The acquire of one line, by core 0 at PKG scope: no tag, its own tag, another core's that matches, and one that was cleared. -/
theorem test_wit_GlobalLoads_acquire : MemoryOk (dirtied memm 1) ∧ tagOf memm (lineOf paOf) = none
    ∧ (∀ r ∈ [Releaser.core 0, .core 1, .link 2], (tagOf (taggedBy (dirtied memm 1) r false) (lineOf paOf)).map Tag.by_ = some r)
    ∧ scopesMatch (.core 1) .pkg 0 .pkg = true ∧ scopesMatch (.link 2) .pkg 0 .pkg = false
    ∧ scopesMatch (.link 2) .pod 0 .pod = true
    ∧ (∃ d, d = dirtyOf (taggedBy (dirtied memm 1) (.core 1) false) 1 (fun x => x.asid == 0) ∧ d = [(paOf, 7)] ∧ OneEach d
      ∧ PlainAt (taggedBy (dirtied memm 1) (.core 1) false) (d.map (·.1))) := by
  refine ⟨test_mach_memory, by decide +kernel, by decide +kernel, by decide, by decide, by decide, _, rfl, by decide +kernel,
    oneEach_spec (by decide +kernel), Laws.plainAt_of (by decide +kernel) (by decide +kernel)⟩

/-- What the hypotheses of a store to local pages ask; the bytes of a release go to their homes. -/
def storeRight (s : State) (i : Instr) (release : Bool) : Bool :=
  localOnly s i fun s1 xs =>
    (xs.all fun x => xs.all fun y => lineOf x.pa != lineOf y.pa || x.x.cach == y.x.cach)
      && plainIn s1 ((xs.filter fun x => release || !x.x.cach).map Spot.pa)
      && (!release || xs.all fun x => ((tagOf s1 (lineOf x.pa)).map fun g => g.by_ == .core 0 || g.cleared).getD true)
theorem test_wit_GlobalStores :
    storeRight memm (.st false (.v 1) (.s 6) none 0 .nat) false = true ∧ storeRight memm (.ust false (.s 1) 6 none 0 .nat) false = true
      ∧ storeRight (atScope memm .pkg) (.st false (.v 1) (.s 6) none 0 .sync) true = true
      ∧ storeRight (atScope (taggedBy memm (.core 0) false) .pod) (.ust false (.s 1) 6 none 0 .sync) true = true
      ∧ storeRight (atScope (taggedBy memm (.core 1) true) .quad) (.ust false (.s 1) 6 none 0 .sync) true = true := by
  decide +kernel
/-- The release of a byte of a line whose tag names another core. -/
theorem test_wit_GlobalStores_release : ∃ (s : State) (ws d : List (Nat × Byte)) (g : Tag), MemoryOk s ∧ OneEach ws
    ∧ (∀ p ∈ ws, lineOf p.1 = lineOf paOf) ∧ tagOf s (lineOf paOf) = some g ∧ g.by_ = .core 1 ∧ g.cleared = false
    ∧ d = dirtyOf s 1 (fun x => x.asid == g.asid) ∧ d ≠ [] ∧ OneEach d ∧ PlainAt s (d.map (·.1) ++ ws.map (·.1)) :=
  ⟨taggedBy (dirtied memm 1) (.core 1) false, [(paOf + 4, 1)], _, ⟨lineOf paOf, .core 1, 0, .pkg, false⟩, test_mach_memory,
    oneEach_spec (by decide), by decide, by decide +kernel, rfl, rfl, rfl, by decide +kernel, oneEach_spec (by decide +kernel),
    Laws.plainAt_of (by decide +kernel) (by decide +kernel)⟩

/-- The lanes of an atomic meet at one local element, whose lines carry no tag; with the core's own dirty bytes where it writes them
back. -/
def atomicRight (s : State) (i : Instr) (own : Bool) : Bool :=
  match issuing s with
  | none => false
  | some h => localOnly s i fun s1 xs =>
      let f := h.frame
      let x : Xlat := ((xs.head?).map Spot.x).getD ⟨0, false, false, false⟩
      let d := if own then dirtyOf s1 h.core fun y => y.line == lineOf paOf else []
      x.pa == paOf && (xs.map Spot.pa).all (fun a => decide (paOf ≤ a) && decide (a < paOf + 4)) && f.on.length == 32
        && (match accessAt s i with
          | some (_, _, ps, _) => ps == f.on.map fun l => ⟨⟨l, 0x40000, 4⟩, .glob x 4 x⟩
          | none => false)
        && oneEach d && own != d.isEmpty && plainIn s1 (d.map (·.1) ++ xs.map Spot.pa) && (own || untaggedAt s1 xs)
theorem test_wit_AtomicsAtHome :
    atomicRight memInt (.atom false (some (.v 1)) (.s 6) none 0 .add) false = true ∧ atomicRight memInt (.cas false (.v 2) (.s 6) none 0) false = true
      ∧ atomicRight (atScope (dirtied memInt 0) .core) (.atomar false none (.s 6) none 0 .add) true = true
      ∧ atomicRight (atScope memInt .pkg) (.atomar false (some (.v 1)) (.s 6) none 0 .exch) false = true := by
  decide +kernel
theorem test_wit_AtomicsAtHome_scratchpad : (match issuing memInt with
    | some h => let f := h.frame
        readyAll [jobAtoms (some (.v 1)) (.s 7) none 0 .add, jobAtoms none (.s 7) none 0 .add] f && f.on.all fun l =>
          baseOff f (.s 7) none l % 4 == 0 && decide (baseOff f (.s 7) none l < 2 ^ 24)
            && decide (baseOff f (.s 7) none l % 2 ^ 22 + 4 ≤ h.share) && h.neighbour (baseOff f (.s 7) none l / 2 ^ 22) == some (0, 0)
    | none => false) = true := by
  decide +kernel

/-- A translation that hits the TLB, and one that walks. -/
theorem test_wit_TranslationMarksTheLeaf : (match issuing mach with
    | some h =>
      let translates (s : State) : Bool := match translate s (quadOf h.core) h.asid h.cx.ptroot.toNat 0x40000 .write with
        | .ok _ => Memory.wf s.mem
        | .error _ => false
      (tlbFind (mach.tlbs.getD 0 []) h.asid (vpage 0x40000)).isSome && translates mach && translates { mach with tlbs := mach.tlbs.set 0 [] }
    | none => false) = true := by
  decide +kernel

theorem test_wit_FencesAndMonitors :
    (∃ h, Quiet (teamIs memm fun tm => { tm with podPages := [paOf / 65536] }) h ∧ (openTags memm h.tm.podTags == []
      && !ordinary windowBase && ordinary (2 ^ 40) && ordinary 0x40000 && h.tm.monitor == none
      && (match (xlateFor memm h.core h.asid h.cx.ptroot.toNat (2 ^ 40) .read).2 with | .ok _ => false | .error _ => true)
      && match (xlateFor memm h.core h.asid h.cx.ptroot.toNat 0x40000 .read).2 with | .ok _ => true | .error _ => false) = true)
      ∧ (∃ h, Quiet (teamIs mach fun tm => { tm with monitor := some 3 }) h ∧ (!h.tm.wake && h.tm.monitor != none) = true)
      ∧ (∃ h, Quiet (teamIs mach fun tm => { tm with monitor := some 3, wake := true }) h ∧ h.tm.wake = true) :=
  ⟨quiet_of (by decide +kernel), quiet_of (by decide +kernel), quiet_of (by decide +kernel)⟩

theorem test_wit_CacheControl : (match issuing (dirtied memOne 0) with
    | some h =>
      let s := dirtied memOne 0
      let r := cleanAddrs s h (globAccs h.frame (.s 6) none 1)
      let hit (e : Extent) (line : Nat) : Bool := r.2.any fun pa => inExtent e pa line
      readyAll [jobPref (.s 6) none 0 .l1, jobClean (.s 6) none .page, jobInval (.s 6) none .line] h.frame && Memory.wf s.mem
        && (h.cx.comps.all fun c => c.action != 1 && c.action != 2) && [Extent.line, .page].all fun e =>
          let d := dirtyOf r.1 h.core fun x => hit e x.line
          (extentTags (writeBackWhere r.1 h.core fun x => hit e x.line) h (hit e)).isEmpty && d == [(paOf, 7)] && oneEach d
            && plainIn r.1 (d.map (·.1))
    | none => false) = true
    ∧ (match issuing (unif memOne [(6, windowBase)]) with
      | some h => readyAll [jobPref (.s 6) none 0 .l1] h.frame && h.frame.on.all fun l => !ordinary (baseAddr h.frame (.s 6) none l)
      | none => false) = true
    ∧ OneEach (dirtyOf (dirtied memOne 0) 0 fun x => x.asid == 0) ∧ PlainAt (dirtied memOne 0) [paOf] :=
  ⟨by decide +kernel, by decide +kernel, oneEach_spec (by decide +kernel), Laws.plainAt_of (by decide +kernel) (by decide +kernel)⟩

/-! ### Queues, engines, lattices -/

/-- The origin of what the team of the small machine sends. -/
def orig : Origin := ⟨0, 0, 0, 0, 0, 0x10000, maskBelow 32, 0, 0, 0⟩
/-- The words of a copy of 16 bytes to context 0, and of a fill, and of a copy of two rows. -/
def copyWords : List W64 := [16 * 2 ^ 32, 0x40000, 0x50000, 0]
/-- A fill of 16 bytes. -/
def fillWords : List W64 := [16 * 2 ^ 32 + 2, 0xAB, 0x50000, 0]
/-- A fill of 16 bytes of the scratchpad. -/
def fillPadWords : List W64 := [16 * 2 ^ 32 + 2 ^ 18 + 2, 0xAB, 0x100, 0]
/-- A copy of two rows of 16 bytes. -/
def copy2dWords : List W64 := [16 * 2 ^ 32 + 1, 0x40000, 0x50000, 32 * 2 ^ 40 + 64 * 2 ^ 16 + 2]
/-- A Sifter command on two lists of two words. -/
def siftWords (op : W64) : List W64 := [op, 0x40000, 0x40010, if op = 0 then 2 * 2 ^ 32 + 2 else 2]
/-- The cohort has a ring 0 with slots of 64 bytes, for Sifter. -/
def ringed : State := mach.modCohort 0 fun c => { c with rings := c.rings.set 0 (some ⟨0, 64, 4, 0, 0, 0, 0⟩) }
/-- A team that has staged words. -/
def staged (s : State) (a b : List W64) : State := teamIs s fun tm => { tm with stage0 := a, stage2 := b }

/-- The bytes that a command's push sends home are plain ones (R5, R294). -/
def pushesPlain (s : State) : Bool :=
  let d := dirtyOf s 0 fun x => (rangeLines s seedRoot 0x40000 16).contains x.line
  d == [(paOf, 7)] && oneEach d && plainIn s (d.map (·.1))
theorem test_wit_QueueMoves_home : pushesPlain (dirtied ringed 0) = true ∧ MemoryOk ringed := ⟨by decide +kernel, test_mach_memory⟩
theorem test_wit_QueueMoves :
    (∃ h, Quiet (staged mach [0, 0] [0, 0]) h ∧ decide (h.tm.stage0.length < 3 ∧ h.tm.stage2.length < 3) = true)
      ∧ (∃ h, Quiet (staged ringed (copyWords.take 3) ((siftWords 0).take 3)) h ∧
        (h.tm.stage0.length == 3 && h.tm.stage2.length == 3 && carterOk h (h.tm.stage0 ++ [0]) && siftOk h (h.tm.stage2 ++ [2 * 2 ^ 32 + 2])
          && !ringed.engHalted (.copy h.core 0) && !ringed.engHalted (.sift h.core 0)
          && ((ringed.engine? (.copy h.core 0)).map fun e => decide (e.queue.length < 64)) == some true
          && ((ringed.engine? (.sift h.core 0)).map fun e => decide (e.queue.length < 64)) == some true) = true)
      ∧ (∃ h, Quiet (staged mach [3, 0, 0] [3, 0, 0]) h ∧ (!carterOk h [3, 0, 0, 0] && !siftOk h [3, 0, 0, 0]) = true)
      ∧ (∃ h, Quiet (mach.modCohort 0 fun c => { c with compq := [7] }) h ∧ (h.co.compq == [7]) = true)
      ∧ (∃ h, Quiet mach h ∧ (h.co.compq.isEmpty && h.wake.isNone && !h.ga.mfault && decide (0 ≤ (mach.tl (tlEngine h (.copy 3))).toNat)
        && decide ((mach.tl (tlEngine h (.copy 3))).toNat < 1) && !mach.neverTl (tlEngine h (.copy 3)) 1) = true)
      ∧ (∃ h, Quiet (mach.modEngine (.copy 0 3) fun e => { e with halted := true }) h
        ∧ ((mach.modEngine (.copy 0 3) fun e => { e with halted := true }).engHalted (tlEngine h (.copy 3))
          && (mach.modEngine (.copy 0 3) fun e => { e with halted := true }).neverTl (tlEngine h (.copy 3)) 1) = true) :=
  ⟨quiet_of (by decide +kernel), quiet_of (by decide +kernel), quiet_of (by decide +kernel), quiet_of (by decide +kernel),
    quiet_of (by decide +kernel), quiet_of (by decide +kernel)⟩

/-- A machine with one command at the head of an engine. -/
def commanded (e : EngRef) (ws : List W64) (emit : Option (List W64)) (s : State := ringed) : State :=
  s.modEngine e fun x => { x with queue := [⟨1, ws, 0, orig, emit, 0⟩] }
/-- A fill whose end commits a slot of ring 0. -/
def fillRceWords : List W64 := [16 * 2 ^ 32 + 2 ^ 10 + 2, 0xAB, 0x50000, 0]
/-- The same with some slots reserved, none committed, and no requests that wait. -/
def reserved (n : W32) : State := mach.modCohort 0 fun c => { c with rings := c.rings.set 0 (some ⟨0, 64, 4, n, 0, 0, 0⟩) }
/-- The ring of a command's cohort allows one more commit. -/
def commitsOne (s : State) : Bool := ((s.cohorts[0]?).bind fun co => (co.ring 0).map fun g => g.canCmt 1 && co.ringq.isEmpty).getD false
/-- The hypotheses of an entry of Sifter: the ring has room for one, and it is the marker or the last that has room. -/
def entryRight (es : List W64) (n : W32) : Bool :=
  let s := commanded (.sift 0 0) (siftWords 0) (some es) (mach.modCohort 0 fun c =>
    { c with rings := c.rings.set 0 (some ⟨0, 64, 4, n, n, 0, 0⟩) })
  match here s 0, s.cohorts[0]?, es with
  | some _, some co, x :: r => ((co.ring 0).map fun g => g.canRsv 1 && { g with rsv := g.rsv + 1 }.canCmt 1
      && (r.isEmpty && x == siftMarker || !r.isEmpty && !{ g with rsv := g.rsv + 1 }.canRsv 1)).getD false
      && co.ringq.isEmpty && swf co.sp && (siftOf (siftWords 0)).ring == 0
  | _, _, _ => false
/-- The hypotheses of a copy or fill. -/
def copyRight (ws : List W64) (op : Nat) (rce : Bool := false) : Bool :=
  let s := commanded (.copy 0 0) ws none (reserved 2)
  match here s 0 with
  | none => false
  | some h =>
    let k := carterOf ws
    k.op == op && k.rce == rce && match carterSource s h (.copy 0 0) k with
      | .ok s1 r => match enginePlace s1 h (if k.dsp then .spad false else .glob true) .write (rowAccs k.dsp k.dstRow k.rows k.len) with
        | .ok s2 ps =>
          let keys := ps.flatMap byteKeys
          let pas := (ps.flatMap Placed.spots).map Spot.pa
          (r.2.all fun x => !keys.contains x) && (!rce || commitsOne s2) && Memory.wf s2.mem && (s2.cohorts.all fun co => swf co.sp) && plainIn s2 pas
            && (pas.all fun a => decide (a < 2 ^ 60)) && (ps.all fun p => (byteKeys p).length == p.acc.size && match p.place with
              | .glob x _ _ => !x.imp && !k.dsp
              | .spad c _ o => k.dsp && decide (c < s2.cohorts.length) && decide (o + p.acc.size ≤ 2 ^ 22))
            && decide keys.Nodup && keys.length == r.1.length
        | _ => false
      | _ => false
/-- Accesses of an engine lie in memory of the package. -/
def placesLocal (s : State) (h : Here) (as : List Acc) : Bool :=
  let r := placeAll s h (.glob true) .read 1 as
  r.2.2.isEmpty && r.2.1.all fun p => p.spots.length == p.acc.size && p.spots.all fun x => !x.x.imp
/-- The hypotheses of a Sifter command that has to read its lists. -/
def siftRight (op : W64) : Bool :=
  let s := commanded (.sift 0 0) (siftWords op) none
  match here s 0 with
  | none => false
  | some h =>
    let k := siftOf (siftWords op)
    match engineRead s h (.sift 0 0) false (.glob true) (rangePieces k.a (4 * k.na)) with
    | .ok s1 xs => placesLocal s h (rangePieces k.a (4 * k.na)) && match engineRead s1 h (.sift 0 0) false (.glob true) (rangePieces k.b (4 * k.lenB)) with
      | .ok _ ys => decide ((words32 k.na xs).Pairwise (· ≤ ·)) && decide ((words32 k.lenB ys).Pairwise (· ≤ ·)) && k.op == op.toNat
      | _ => false
    | _ => false
theorem test_wit_EngineCommands : copyRight copyWords 0 = true ∧ copyRight copy2dWords 1 = true ∧ copyRight fillWords 2 = true
    ∧ copyRight fillPadWords 2 = true ∧ copyRight fillRceWords 2 true = true
    ∧ (here (commanded (.copy 0 0) fillRceWords (some []) (reserved 1)) 0).isSome = true
    ∧ commitsOne (reserved 1) = true ∧ commitsOne (reserved 0) = false ∧ (carterOf fillRceWords).rce = true
    ∧ entryRight [siftEntry 0 1, siftMarker] 3 = true ∧ entryRight [siftMarker] 0 = true
    ∧ siftRight 0 = true ∧ siftRight 1 = true
    ∧ ((here (commanded (.sift 0 0) (siftWords 0) (some [])) 0).map fun h => decide (h.co.compq.length < 64)) = some true := by
  decide +kernel

/-- A table of four f32 entries of one channel at 0x40000 (R208); `exact` gives it a shadow at 0x50000 (R219). -/
def table (exact : Bool) : BitVec 512 :=
  BitVec.ofNat 512 ((0x40000 / 64) * 2 ^ 15 + 2 * 2 ^ 13 + (if exact then 4 + 2 ^ 64 * ((0x50000 / 16) * 2 ^ 13) else 0)
    + 2 ^ 128 * 4 + 2 ^ (8 * 24) * 0x3F800000)
/-- A machine whose slot 3 holds a descriptor, or is empty. -/
def latticed (d : Option (BitVec 512)) : State := (typed .f32).modCohort 0 fun c => { c with lats := c.lats.set 3 d }
/-- A table of the same entries, as INT32 (R219). -/
def tableInt : BitVec 512 := table false + 8
/-- Element reads of `ldi` and `ldlat` that have all their bytes. -/
def readsAll (h : Here) (r : State × List Placed × List LaneFault) : Bool :=
  r.2.2.isEmpty && (knownBytes (loadPlaced r.1 h none r.2.1).2.1).isSome
theorem test_wit_Lattices :
    (latOk (table false) && latOk (table true) && latOk tableInt && !latOk 3 && (latOf (table true)).smode == 1
        && (latOf (table false)).smode == 0 && (latOf tableInt).smode == 2) = true
      ∧ ((issuing (latticed none)).map fun h => (jobLdi 40 false 8 0 3 h.frame).spansOk && (jobSpl 40 false 8 0 3 h.frame).spansOk) = some true
      ∧ lanesReady (latticed none) [] = true
      ∧ ((issuing (latticed none)).map fun h => h.frame.lats[3]? == some none) = some true
      ∧ lanesReady (latticed (some (table false))) [jobLdi 40 false 8 0 3, jobSpl 40 false 8 0 3] = true
      ∧ (match issuing (latticed (some (table false))) with
        | some h =>
          let s := latticed (some (table false))
          let cs := lanesCorners (latOf (table false)) h.frame 8
          let r := placeCorners s h .read (cornerAccs (latOf (table false)) cs.1)
          cs.2.isEmpty && readsAll h (countBanks r.1 h.t r.2.1, r.2) && h.frame.lats[3]? == some (some (table false))
            && !(s.cores.any fun c => c.settle.halted)
        | none => false) = true
      ∧ (match issuing memm with
        | some h => readsAll h (placeAll memm h (.glob true) .read 64 [⟨0, usrcVal h.frame (.s 6), 64⟩])
            && h.cx.comps.all fun c => c.action == 0
        | none => false) = true := by
  decide +kernel

/-- The hypotheses of `spl` on a table in its three modes, with every contribution in range or not: its elements are local, apart
and plain. -/
def splatRight (d : BitVec 512) (v : W32) (fits : Bool) : Bool :=
  let s := teamIs (lane (latticed (some d)) [(40, 0, v), (40, 1, 0x40000000)]) fun tm => { tm with active := 3 }
  match issuing s with
  | none => false
  | some h =>
    let l := latOf d
    let cs := lanesCorners l h.frame 8
    let r := placeCorners s h .both (splAccs l cs.1)
    let ps := cs.1.flatMap fun c => laneSplats l h.frame 40 false c.1 c.2
    let key (p : Splat) : W64 := if l.smode = 1 then p.sh else p.addr
    let n := if l.smode = 0 then latSize l.etype else (if l.smode = 1 then 128 else 32) / 8
    let pa (va : W64) : Nat := match findElem r.2.1 va with | some (.glob a) => a | _ => 0
    let bad := if l.smode = 0 then [] else ps.filter fun p => !splatFits l.elo (if l.smode = 1 then 128 else 32) p
    readyAll [jobSpl 40 false 8 0 3] h.frame && cs.2.isEmpty && r.2.2.isEmpty && !ps.isEmpty && bad.isEmpty == fits && Memory.wf s.mem
      && (ps.all fun p => findElem r.2.1 (key p) == some (.glob (pa (key p))) && decide (pa (key p) + n ≤ apertureBase))
      && (ps.all fun p => ps.all fun q => key p == key q || decide (pa (key p) + n ≤ pa (key q) ∨ pa (key q) + n ≤ pa (key p)))
      && plainIn r.1 (ps.flatMap fun p => (List.range n).map fun j => pa (key p) + j)
theorem test_wit_Lattices_spl : splatRight (table false) 0x3F800000 true = true ∧ splatRight (table true) 0x3F800000 true = true
    ∧ splatRight tableInt 0x3F800000 true = true ∧ splatRight (table true) 0x7F800000 false = true := by
  decide +kernel

/-- A lane's coordinate that is not finite. -/
theorem test_wit_Lattices_coordinate :
    (match issuing (lane (latticed (some (table false))) [(8, 0, 0x7FC00000)]) with
      | some h => (lanesCorners (latOf (table false)) h.frame 8).2 == [0] && readyAll [jobLdi 40 false 8 0 3, jobSpl 40 false 8 0 3] h.frame
      | none => false) = true := by
  decide +kernel

/-- A machine with a settle command of an EXACT table at the head of its queue. -/
def settling (emit : Option (List W64)) : State :=
  (latticed (some (table true))).modEngine (.settle 0) fun x => { x with queue := [⟨1, [], table true, orig, emit, 0⟩] }
theorem test_wit_Lattices_settle :
    (match here (settling none) 0 with
    | some h => let l := latOf (table true)
        match settleFrom h (.settle 0) l ⟨1, [], table true, orig, none, 0⟩ l.elems 0 (settling none) [] with
        | (s1, some []) => (s1.engine? (.settle 0)).isSome
        | _ => false
    | none => false) = true ∧ (here (settling (some [])) 0).isSome = true := by
  decide +kernel
/-- One pair of a shadow at 0x40000 and an entry behind it, in a machine with a queue. -/
theorem test_wit_Lattices_pair : MemoryOk mach ∧ (paOf + 16 ≤ paOf + 16 ∨ paOf + 16 + 4 ≤ paOf)
    ∧ PlainAt mach ((List.range 16).map (paOf + ·) ++ (List.range 4).map (paOf + 16 + ·)) :=
  ⟨test_mach_memory, by decide, Laws.plainAt_of (by decide +kernel) (by decide +kernel)⟩
/-- A shadow that is zero. -/
theorem test_wit_Lattices_zero : (match here (settling none) 0 with
    | some h => let l := latOf (table true)
        match enginePlace (settling none) h (.glob true) .both [⟨0, shadowAddr l 0 0, 16⟩] with
        | .ok s1 [sh] => (placedImp sh).isNone && placedNat s1 sh == 0 && s1.mem == s1.mem
        | _ => false
    | none => false) = true := by
  decide +kernel

/-! ### Matrix units -/

/-- A header of one row of four f32 at 0x60000, with rows 16 bytes apart (R68). -/
def header : List Byte := bytesOf 8 8 ++ bytesOf 16 0 ++ bytesOf 8 0x60000 ++ bytesOf 4 1 ++ bytesOf 4 4 ++ bytesOf 8 16 ++ bytesOf 16 0
/-- The small machine with operands of matrix instructions: A and B descriptors in s10 and s13, a header's address in s6. -/
def matr (t : Ty) : State :=
  let s := unif (typed t) [(6, 0x40000), (7, 0), (10, 0x40000), (11, 16 * 2 ^ 32 + 4 * 2 ^ 16 + 2 ^ 8), (12, 0), (13, 0x50000),
    (14, 16 * 2 ^ 32 + 2 ^ 24), (15, 0), (20, 0)]
  homeWriteRaw s 1 (atAddrs 0x100020040000 header)
/-- The hypotheses of the matrix instructions at issue. -/
def matRight (s : State) : Bool :=
  match issuing s with
  | none => false
  | some h =>
    let f := h.frame
    let t := f.mode.t
    let u (k : Nat) : W64 := f.regs.uget k
    h.tm.claims.isEmpty && h.tm.residues.isEmpty && h.tm.inflight.isEmpty && !h.tm.stalled && !h.ga.mfault && (s.bench? h.core h.bench).isSome
      && tileEven t 0 && tileIn h t 0 && (matTy t).isSome && (u 11).toNat % 2 ^ 8 == 0 && decide (rowsOf (u 11) ≤ 128) && bFieldsOk (u 14)
      && u 12 == 0 && u 15 == 0 && [u 10, u 13].all (fun a => a.toNat % 64 == 0 && formOk h a)
      && [u 11, u 14].all (fun a => (strideOf a).toNat % 16 == 0) && formOk h 0
theorem test_wit_MatrixIssue :
    matRight (matr .f32) = true ∧ matRight (matr .bf16x2) = true ∧ mmarOk .f32 = true ∧ mmabOk .bf16x2 = true ∧ tileTyOk .f32 = true
      ∧ ((issuing (matr .f64)).map fun h => tileEven h.frame.mode.t 1) = some false
      ∧ ((issuing (matr .f32)).map fun h => tileEven h.frame.mode.t 2 && !tileIn h h.frame.mode.t 2 && tileIn h h.frame.mode.t 1) = some true
      ∧ lanesReady (matr .f32) [jobAcrd (.v 1) 0 (.s 20)] = true
      ∧ ((issuing (matr .f32)).map fun h => h.frame.on.all fun l => decide ((h.frame.regs.uget 20).toNat + l < tileElems)) = some true := by
  decide +kernel
/-- The hypotheses of `acst`. -/
def acstRight (s : State) : Bool :=
  match issuing s with
  | none => false
  | some h =>
    let t := h.frame.mode.t
    let r := placeAll s h (.glob true) .read 64 [⟨0, usrcVal h.frame (.s 6), 64⟩]
    let q := loadPlaced r.1 h none r.2.1
    r.2.2.isEmpty && (h.cx.comps.all fun c => c.action == 0) && usrcVal h.frame (.s 7) == 0 && match knownBytes q.2.1 with
      | none => false
      | some bs => match headerOf bs with
        | none => false
        | some hd =>
          headerOk hd t false && hd.data.toNat % 16 == 0 && hd.stride.toNat % 16 == 0 && lastWriter s h 0 t.wide == none
            && (placeAll q.1 { h with tm := teamNow q.1 h } (.glob true) .write 1 ((List.range hd.rows).flatMap hd.rowAccs)).2.2.isEmpty
theorem test_wit_MatrixIssue_acst : acstRight (matr .f32) = true := by decide +kernel

/-- A machine whose unit has one instruction at the head of its queue, in RUN. -/
def unitHas (t : Ty) (i : Instr) (args : List W64) : State :=
  (matr t).modBench 0 0 fun b =>
    { b with ramp := .run, queue := [⟨1, i, { Mode.launch false with t := t }, args, orig, false, false⟩] }
/-- The descriptors of a product of one row of four elements by one column. -/
def mmaArgs : List W64 := [0x40000, 16 * 2 ^ 32 + 4 * 2 ^ 16 + 2 ^ 8, 0, 0x50000, 16 * 2 ^ 32 + 2 ^ 24, 0]
/-- The common hypotheses of what the unit does. -/
def unitRight (s : State) (p : Here → Bool) : Bool :=
  match here s 0, s.bench? 0 0, s.cohorts[0]? with
  | some h, some b, some co => b.queue.length == 1 && b.fault.isNone && b.need.isEmpty && b.stuck.isNone && b.ramp == .run
      && (b.queue.all fun c => !c.begun && tileEven c.mode.t 0) && swf co.tiles && p h
  | _, _, _ => false
theorem test_wit_MatrixUnit :
    unitRight (unitHas .f32 (.aclr false 1) []) (fun _ => tileEven .f32 1) = true
      ∧ unitRight (unitHas .f32 (.mma false 0 10 13) mmaArgs) (fun h =>
        let s0 := (unitHas .f32 (.mma false 0 10 13) mmaArgs).modBench 0 0 fun b =>
          { b with queue := modAt (fun x => { x with begun := true }) b.queue 0, mprog := 0 };
        match matTy .f32 with
        | some mt => match denseChunk h (.matrix 0 0) mt (mxTy .f32) mmaArgs s0 0 with
          | .ok _ ch => (kOf (mmaArgs.getD 1 0) + 15) / 16 == 1 && rowsOf (mmaArgs.getD 1 0) == 1 && colsOf (mmaArgs.getD 4 0) == 1
              && ch.rows.any fun r => r.1 == 0 && r.2.length == 16 && r.2.all fun p => decide (p.2 < 4) || p.1 == 0
          | _ => false
        | none => false) = true := by
  decide +kernel
/-- With a row stride of 0 every row of `acld` stands at one address; two of the 128 are read here, for the size of the test. -/
theorem test_wit_MatrixUnit_acld :
    unitRight (unitHas .f32 (.acld false 0 (.s 10) (.s 20)) [0x40000, 0]) (fun h =>
      match unitRead ((unitHas .f32 (.acld false 0 (.s 10) (.s 20)) [0x40000, 0]).modBench 0 0 fun b =>
          { b with queue := modAt (fun x => { x with begun := true }) b.queue 0, mprog := 0 }) h (.matrix 0 0)
        ((acldParts 0x40000 0 4).take 2) with
      | .ok _ rows => rows.length == 2
      | _ => false) = true := by
  decide +kernel
/-- A sparse descriptor at 0x40000 with its arrays behind it (R242): FORM, log2 of the block, rows, ROWPTR, COLIDX and K. -/
def sparse (form blog rows : Nat) (rp cols : List Nat) (k : Nat) : List (Nat × Byte) :=
  atAddrs paOf (bytesOf 1 form ++ bytesOf 1 blog ++ bytesOf 1 rows ++ bytesOf 5 0 ++ bytesOf 8 0x40100 ++ bytesOf 8 0x40200
    ++ bytesOf 8 0x40300 ++ bytesOf 4 k ++ bytesOf 28 0)
    ++ atAddrs (paOf + 0x100) (rp.flatMap (bytesOf 4)) ++ atAddrs (paOf + 0x200) (cols.flatMap (bytesOf 4))
/-- A unit with a sparse product of one column at the head of its queue reads its descriptor and its one chunk. -/
def sparseRight (csr : Bool) (t : Ty) (i : Instr) (mem : List (Nat × Byte)) (stored : List Nat) : Bool :=
  let args : List W64 := [0x40000, 0x50000, 16 * 2 ^ 32 + 2 ^ 24, 0]
  let s := homeWriteRaw (unitHas t i args) 1 mem
  unitRight s fun h =>
    let s0 := s.modBench 0 0 fun b => { b with queue := modAt (fun x => { x with begun := true }) b.queue 0, mprog := 0 }
    match matTy t, sparseRead csr h (.matrix 0 0) args s0 with
    | some mt, .ok s1 (d, ps) => ps.map List.length == stored && (ps.map fun p => (p.length + 15) / 16).foldl max 0 == 1
        && decide (d.rows ≤ 128) && colsOf (args.getD 2 0) == 1 && match sparseChunk csr h (.matrix 0 0) mt args d ps s1 0 with
          | .ok _ ch => ch.rows.map (fun r => r.2.length) == stored
          | _ => false
    | _, _ => false
/-- The rows 0 and 1 of R244's example, and one block of four by four. -/
theorem test_wit_MatrixUnit_sparse :
    sparseRight true .f32 (.mmar false 0 10 13) (sparse 1 0 2 [0, 2, 3] [4, 1, 4] 5) [2, 1] = true
      ∧ sparseRight false .bf16x2 (.mmab false 0 10 13) (sparse 0 2 4 [0, 1] [0] 4) [4, 4, 4, 4] = true := by
  decide +kernel
theorem test_wit_MatrixUnit_ramps : ((mach.bench? 0 0).map fun (b : Bench) => b.ramp) = some .idle
    ∧ (((mach.modBench 0 0 fun b => { b with ramp := .up }).bench? 0 0).map fun (b : Bench) => b.ramp) = some .up := by
  decide +kernel

/-! ### Rings, barriers, control registers, landings -/

/-- A machine whose ring 0 has counters RSV, CMT, CNS, REL, of 4 slots. -/
def ringAt (a b c d : W32) : State := mach.modCohort 0 fun x => { x with rings := x.rings.set 0 (some ⟨0, 64, 4, a, b, c, d⟩) }
/-- The hypotheses of a ring operation. -/
def ringRight (s : State) (p : Ring → Bool) : Bool :=
  match issuing s with
  | none => false
  | some h => h.tm.claims.isEmpty && h.tm.residues.isEmpty && h.tm.inflight.isEmpty && !h.tm.stalled && h.wake.isNone && h.tm.posts.isEmpty
      && h.co.ringq.isEmpty && postedSlots s h.tm.cohort 0 false == 0 && postedSlots s h.tm.cohort 0 true == 0 && match h.co.ring 0 with
        | some g => p g
        | none => false
/-- A machine whose scratchpad holds a ring's descriptor at 0x100, of slots of a size, and nothing at 0x200. -/
def ringDesc (size : Nat) : State := unif (mach.modCohort 0 fun c =>
  { c with sp := ssetAll c.sp (atAddrs 0x100 (bytesOf 4 0 ++ bytesOf 4 size ++ bytesOf 4 4 ++ bytesOf 4 0)) }) [(4, 0x100), (5, 0x204)]
/-- The hypotheses of `ring.init`. -/
def initRight (s : State) (desc busy : Bool) : Bool :=
  match issuing s with
  | some h =>
    let off := (usrcVal h.frame (.s 4)).toNat % 2 ^ 32
    off % 8 == 0 && decide (off + 16 ≤ h.share) && (h.neighbour 0).isSome && decide (0 < h.co.rings.length)
      && (usrcVal h.frame (.s 5)).toNat % 2 ^ 32 % 8 != 0 && (ringOf (readBytes h.co.sp off 16) h.share).isSome == desc
      && ringBusy s h 0 == busy
  | none => false
theorem test_wit_Rings :
    ringRight (ringAt 0 0 0 0) (fun g => g.canRsv 4 && !g.canWait 1 && !g.canCmt 1 && !g.canRel 1 && decide (g.nslot.toNat = 4)) = true
      ∧ ringRight (ringAt 4 2 1 0) (fun g => !g.canRsv 1 && g.canWait 1 && g.canCmt 2 && g.canRel 1) = true
      ∧ ((issuing mach).map fun h => h.co.ring 0 == none) = some true
      ∧ initRight (ringDesc 64) true false = true ∧ initRight (ringDesc 0) false false = true
      ∧ initRight ((ringDesc 64).modEngine (.sift 0 0) fun x => { x with queue := [⟨1, siftWords 0, 0, orig, none, 0⟩] }) true true = true
      ∧ initRight (((ringDesc 64).modEngine (.sift 0 0) fun x => { x with queue := [⟨1, siftWords 0, 0, orig, none, 0⟩] }).modCohort 0 fun c =>
          { c with rings := c.rings.set 0 (some ⟨0, 64, 4, 0, 0, 0, 0⟩) }) true true = true := by
  decide +kernel

/-- A machine with barrier 3 of a unit in a state, and a team that has used it. -/
def barred (u : BarUnit) (b : Bar) (use : Option (Bool × W32)) : State :=
  (teamIs mach fun tm => { tm with bars := (use.map fun x => ⟨⟨u, 3⟩, x.1, x.2⟩).toList }).modBar ⟨u, 3⟩ fun _ => b
/-- What the clauses of Barriers ask of a level: its instance, the team's use, and an operand. -/
def barRight (l : BarLevel) (u : BarUnit) (s : State) (p : BarRef → Bar → BarUse → Bool) : Bool :=
  match issuing s with
  | some h => match barRefOf h l 3 with
    | some b => h.tm.claims.isEmpty && h.tm.residues.isEmpty && h.tm.inflight.isEmpty && !h.tm.stalled && h.wake.isNone
        && h.tm.posts.isEmpty && h.ke.launch.coop && b == ⟨u, 3⟩ && match s.bar? b with
          | some x => p b x (h.tm.barUse b)
          | none => false
    | none => false
  | none => false
/-- The five levels, with the unit that the small machine's team is in. -/
def levels : List (BarLevel × BarUnit) := [(.cohort, .cohort 0), (.gang, .gang 0), (.die, .die 0 0), (.pkg, .pkg 0), (.pod, .pod 0)]
/-- Arrivals at every level: the first, that meets its target; one that does not; one at a COMPLETE instance; and those refused. -/
theorem test_wit_Barriers : (levels.all fun q =>
    let at_ (b : Bar) (use : Option (Bool × W32)) := barRight q.1 q.2 (barred q.2 b use)
    let s := barred q.2 Bar.reset none
    at_ Bar.reset none (fun b x u => !u.arr && !joined s b.unit && liveMembers s b.unit == 1 && !arrivalPosted s b x.gen
        && x.state == .idle && decide (1 ≤ arrivals s b.unit [0]))
      && at_ ⟨0, some 0, 3, .counting, [8]⟩ none (fun b x u => !u.arr && x.state == .counting && decide (arrivals s b.unit [8, 0] < x.target))
      && at_ ⟨0, some 0, 1, .complete, [0]⟩ none (fun _ x u => !u.arr && x.state == .complete)
      && at_ ⟨0, some 1, 3, .counting, [8]⟩ none (fun _ x _ => x.state == .counting && x.operand == some 1)
      && at_ Bar.reset none (fun b _ _ => decide (liveMembers s b.unit + otherGangs s b.unit < 2))
      && at_ Bar.reset (some (true, 0)) (fun _ _ u => u.arr)
      && at_ ⟨0, none, 0, .faulted, []⟩ none (fun _ x _ => x.state == .faulted)) = true := by
  decide +kernel
/-- Waits at every level: the generation has passed, it has not, and without an arrival; a level without COOP; and a team that has
blocked, at an instance that goes on and at one that has been FAULTED since. -/
theorem test_wit_Barriers_wait : (levels.all fun q =>
    let at_ (b : Bar) (use : Option (Bool × W32)) := barRight q.1 q.2 (barred q.2 b use)
    at_ ⟨5, none, 0, .idle, []⟩ (some (true, 4)) (fun _ x u => x.state != .faulted && u.arr && x.gen != u.g)
      && at_ ⟨5, some 0, 2, .counting, [0]⟩ (some (true, 5)) (fun _ x u => x.state != .faulted && u.arr && x.gen == u.g)
      && at_ ⟨5, none, 0, .idle, []⟩ none (fun _ _ u => !u.arr)) = true
    ∧ (∃ h, Quiet (mach.modKernel 0 fun k => { k with launch := { k.launch with coop := false } }) h ∧ (!h.ke.launch.coop) = true)
    ∧ [⟨5, none, 0, .idle, []⟩, ⟨5, none, 0, .faulted, []⟩].all (fun x =>
      let b : BarRef := ⟨.gang 0, 3⟩
      let s := (teamIs mach fun tm => { tm with status := .blocked (.barrier b 4), bars := [⟨b, true, 4⟩] }).modBar b fun _ => x
      match issuing s with
      | some h => h.wake == some (.barrier b 4) && s.bar? b == some x | none => false) = true :=
  ⟨by decide +kernel, quiet_of (by decide +kernel), by decide +kernel⟩
/-- A complete generation of a gang, with dirty bytes on its core. -/
theorem test_wit_Barriers_complete : ∃ (s : State) (x : Bar) (cs : List (Nat × Nat)) (d : List (Nat × Byte)),
    s = (dirtied mach 0).modBar ⟨.gang 0, 3⟩ (fun _ => ⟨0, some 0, 1, .complete, [0]⟩) ∧ s.bar? ⟨.gang 0, 3⟩ = some x ∧ x.state = .complete
      ∧ cs = (barCores s (.gang 0)).eraseDups ∧ cs = [(0, 0)] ∧ d = (cs.flatMap fun c => dirtyOf s c.1 fun y => y.asid == c.2)
      ∧ d ≠ [] ∧ MemoryOk s ∧ OneEach d ∧ PlainAt s (d.map (·.1)) :=
  ⟨_, ⟨0, some 0, 1, .complete, [0]⟩, _, _, rfl, by decide +kernel, rfl, rfl, by decide +kernel, rfl, by decide +kernel, test_mach_memory,
    oneEach_spec (by decide +kernel), Laws.plainAt_of (by decide +kernel) (by decide +kernel)⟩

theorem test_wit_ControlRegisters : ∃ h, Quiet mach h ∧ (h.tm.passes == 0) = true := quiet_of (by decide +kernel)

/-- An access in flight that is ready, for v1, and a residue whose references are delivered. -/
def landing : Team → Team := fun tm =>
  { tm with inflight := [⟨7, .nop false, ⟨0, tm.mode, 1, tm.regs, 0, 0, 0, 32, []⟩, none, [.v 1], [],
      { Writes.none with v := [(vKey 1 0, 9)] }, [], [], [], none, none⟩], claims := [⟨.v 1, 7, false, 0, 1⟩] }
theorem test_wit_Landings :
    (match (teamIs mach landing).teams[0]? with
    | some tm => match tm.inflight with
      | [a] => tm.residues.isEmpty && tm.posts.isEmpty && a.ready && a.nacked.isEmpty && a.late.isEmpty
          && tm.claims == a.dests.map (fun k => ⟨k, a.id, false, 0, 1⟩) && (a.writes.keys.all a.dests.contains) && a.writes.x.isEmpty
      | _ => false
    | none => false) = true
    ∧ (match here (teamIs (typed .i32) fun tm => { tm with claims := [⟨.v 1, 3, true, 0, maskBelow 32⟩], residues :=
          [⟨3, .add false (.v 1) (.v 2) (.v 3), ⟨0, tm.mode, maskBelow 32, tm.regs, 0, 0, 0, 32, []⟩, none, [.v 1], []⟩] }) 0 with
      | some h => match h.tm.residues with
        | [r] => (match jobOf r.instr with
          | some jf => let j := jf r.frame
              r.waits.isEmpty && h.tm.inflight.isEmpty && h.tm.posts.isEmpty && !j.late
                && (j.badLanes r.frame r.frame.on).isEmpty
          | none => false)
        | _ => false
      | none => false) = true := by
  decide +kernel

/-! ### Queues, kernels, scheduler -/

/-- Physical address of a virtual one of the small machine. -/
def atPa (va : Nat) : Nat := 0x100020000000 + va
/-- The small machine, READY, whose queue has rings of 16 records at 0x70000 and 0x80000, one record that waits, and a launch record
with one changed byte. -/
def queued (tail change at_ : Nat) : State :=
  let rec_ := bytesOf 8 2 ++ bytesOf 8 0x10000 ++ bytesOf 8 0 ++ bytesOf 4 1 ++ bytesOf 2 1 ++ bytesOf 2 1 ++ [1, 1, 1, 8]
    ++ bytesOf 4 (8 + 2 ^ 8 + 2 * 2 ^ 16) ++ bytesOf 4 1 ++ bytesOf 20 0
  let q := bytesOf 8 0x70000 ++ bytesOf 4 16 ++ bytesOf 4 0 ++ bytesOf 8 tail ++ bytesOf 24 0 ++ bytesOf 8 0x80000 ++ bytesOf 4 16 ++ bytesOf 4 0
  { ready with mem := ssetAll ready.mem (atAddrs (atPa 0x30000) q ++ atAddrs (atPa 0x70000) (rec_.set at_ (BitVec.ofNat 8 change))) }
/-- The queue in a state. -/
def queueIn (st : QState) (s : State) : State := { s with queues := s.queues.map fun q => { q with state := st } }
/-- A check of a queue and its context. -/
def queueRight (s : State) (p : Ctx → Queue → Bool) : Bool :=
  match s.queueCtx 0 0 with
  | some (c, q) => p c q
  | none => false

theorem test_wit_QueueEvents :
    queueRight (queueIn .idle (queued 0 1 0x20)) (fun c q =>
      let s := seeQueue (queueIn .idle (queued 0 1 0x20)) c q;
      let at_ (n : Nat) := (qput s c q 0x10 8 n).order;
      !decide (qget (at_ 16) c q 0x08 4 < qwaiting (at_ 16) c q) && decide (qget (at_ 17) c q 0x08 4 < qwaiting (at_ 17) c q)
        && qwaiting (at_ 16) c q == 16 && !qflag (at_ 16) c q qflagHalt && qwaiting (at_ 0) c q == 0 && q.state == .idle) = true
      ∧ queueRight (queueIn .disabled (queued 0 1 0x20)) (fun c q => q.state == .disabled
        && !qflag (seeQueue (seeEntry (queueIn .disabled (queued 0 1 0x20)) c 0) c q) c q qflagHalt && c.state == .active) = true
      ∧ queueRight (queueIn .pending (queued 0 1 0x20)) (fun _ q => q.state == .pending
        && (queueIn .pending (queued 0 1 0x20)).queues.all (fun o => o.state != .pending || !queueBefore (queueIn .pending (queued 0 1 0x20)) o q)
        && slotFor (queueIn .pending (queued 0 1 0x20)) == some 1) = true
      ∧ (kernelsOf { ready with kernels := [] } 0 0 Kernel.live) = [] := by
  decide +kernel

/-- A state whose queue's next LAUNCH_RECORD reads a record. -/
def recordIs (s : State) (x : Nat) : Bool :=
  queueRight s fun c q =>
    let s1 := seeQueue s c q
    let at_ : W64 := BitVec.ofNat 64 (qget s1 c q 0 8 + qget s1 c q 0x18 8 % qget s1 c q 0x08 4 * 64)
    let s2 := devSee s1 c.ptroot.toNat at_ 64
    q.state == .active && qwaiting s1 c q == 1 && !qflag s1 c q qflagHalt && qget s2 c q 0x20 8 == 0 && natOf (devBytes s2 c at_ 64) == x
theorem test_wit_Kernels_good : recordIs (queued 1 1 0x20) 0x100020108080101010001000100000001000000000000000000000000000100000000000000000002 = true
    ∧ (let rec_ := 0x100020108080101010001000100000001000000000000000000000000000100000000000000000002; recordFieldsOk rec_ (launchOf rec_) && shapeOk (launchOf rec_) && !(launchOf rec_).coop && recField rec_ 0 8 == 2 && recField rec_ 0x2F 1 == 0
      && recField rec_ 0x38 8 == 0) = true := by
  decide +kernel
theorem test_wit_Kernels_field : recordIs (queued 1 0 0x20) 0x100020108080101000001000100000001000000000000000000000000000100000000000000000002 = true
    ∧ (let rec_ := 0x100020108080101000001000100000001000000000000000000000000000100000000000000000002; !recordFieldsOk rec_ (launchOf rec_)) = true := by
  decide +kernel
theorem test_wit_Kernels_power : recordIs (queued 1 8 0x26) 0x100080108080101010001000100000001000000000000000000000000000100000000000000000002 = true
    ∧ (let rec_ := 0x100080108080101010001000100000001000000000000000000000000000100000000000000000002; recordFieldsOk rec_ (launchOf rec_) && shapeOk (launchOf rec_) && (launchOf rec_).acc == 8) = true := by
  decide +kernel
theorem test_wit_Kernels_cores : recordIs (queued 1 64 0x21) 0x100020108080140010001000100000001000000000000000000000000000100000000000000000002 = true
    ∧ (let rec_ := 0x100020108080140010001000100000001000000000000000000000000000100000000000000000002; recordFieldsOk rec_ (launchOf rec_) && !shapeOk (launchOf rec_)) = true := by
  decide +kernel
theorem test_wit_Kernels_empty : recordIs (queued 1 0 0) 0x100020108080101010001000100000001000000000000000000000000000100000000000000000000 = true
    ∧ (let rec_ := 0x100020108080101010001000100000001000000000000000000000000000100000000000000000000; recField rec_ 0 8 == 0) = true := by
  decide +kernel
theorem test_wit_Kernels_coop : recordIs (queued 1 1 0x2C) 0x10000000100020108080101010001000100000001000000000000000000000000000100000000000000000002 = true
    ∧ (let rec_ := 0x10000000100020108080101010001000100000001000000000000000000000000000100000000000000000002; recordFieldsOk rec_ (launchOf rec_) && (launchOf rec_).coop && coopFits (launchOf rec_)) = true := by
  decide +kernel
theorem test_wit_Kernels_coop_big : recordIs (let s := queued 1 1 0x2C; { s with mem := ssetAll s.mem (atAddrs (atPa 0x70018) (bytesOf 4 2000)) }) 0x100000001000201080801010100010001000007d0000000000000000000000000000100000000000000000002 = true
    ∧ (let rec_ := 0x100000001000201080801010100010001000007d0000000000000000000000000000100000000000000000002; recordFieldsOk rec_ (launchOf rec_) && shapeOk (launchOf rec_) && (launchOf rec_).coop && !coopFits (launchOf rec_)) = true := by
  decide +kernel

/-- A record of one dependence whose list is misaligned. -/
theorem test_wit_Kernels_list : recordIs (let s := queued 1 1 0x2F; { s with mem := ssetAll s.mem (atAddrs (atPa 0x70030) [8]) }) 0x8010000000000000100020108080101010001000100000001000000000000000000000000000100000000000000000002 = true
    ∧ (let rec_ := 0x8010000000000000100020108080101010001000100000001000000000000000000000000000100000000000000000002; recordFieldsOk rec_ (launchOf rec_) && shapeOk (launchOf rec_) && !(launchOf rec_).coop && recField rec_ 0x2F 1 != 0
      && recField rec_ 0x30 8 % 16 != 0 && recField rec_ 0x38 8 == 0) = true := by
  decide +kernel

/-- The small machine whose kernel is changed. -/
def kernelIs (f : Kernel → Kernel) : State := (queued 1 1 0x20).modKernel 0 f
/-- The states of a kernel's dependences. -/
def depsAt (s : State) : Option (KState × List DepState) := (s.kernels[0]?).map fun k => (k.state, k.deps.map (depState (seeEdges s k) k.ctx))
theorem test_wit_Kernels_states :
    depsAt (kernelIs fun k => { k with state := .waiting, deps := [.timeline (.copy 0 0) 0] }) = some (.waiting, [.met])
      ∧ depsAt (kernelIs fun k => { k with state := .waiting, deps := [.timeline (.copy 0 0) 1] }) = some (.waiting, [.open_])
      ∧ depsAt ((kernelIs fun k => { k with state := .waiting, deps := [.timeline (.copy 0 0) 1] }).modEngine (.copy 0 0) fun e =>
        { e with halted := true }) = some (.waiting, [.failed])
      ∧ (let s := (mach.modGang 0 fun g => { g with state := .retired })
        ((s.kernels[0]?).map fun k => k.state == .running && k.placed == k.launch.gangs && (gangsOf s 0 fun _ => true).all (gangDone s)
          && (s.ctx? k.ctx).isSome)) = some true
      ∧ queueRight (kernelIs fun k => { k with state := .draining }) (fun c q => qroom (seeQueue (kernelIs fun k => { k with state := .draining }) c q) c q
          && ((kernelIs fun k => { k with state := .draining }).kernels.all (drained (kernelIs fun k => { k with state := .draining })))) = true
      ∧ (let s := { kernelIs fun k => { k with state := .draining, drain := [6] } with
          reqs := [⟨6, 2, .forward 0 0 0x10000, 0, 1, 2 ^ 51, 0x40000, 1, false, 1, 0, 0⟩] };
        s.kernels.all fun k => !drained s k) = true
      ∧ queueRight (let s := kernelIs fun k => { k with state := .draining }; { s with mem := ssetAll s.mem (atAddrs (atPa 0x30040) (bytesOf 8 16)) })
        (fun c q => !qroom (seeQueue (let s := kernelIs fun k => { k with state := .draining };
          { s with mem := ssetAll s.mem (atAddrs (atPa 0x30040) (bytesOf 8 16)) }) c q) c q) = true := by
  decide +kernel

/-- A finished kernel with an out-region, whose core holds a dirty byte in it. -/
def draining : State := ((dirtied ready 0).modKernel 0 fun k => { k with outs := [(0x40000, 128)], cores := [0] }).modGang 0 fun g => { g with state := .retired }
/-- The dirty bytes of its cores in its out-regions. -/
def outBytes (s : State) : List (Nat × Byte) :=
  match s.ctx? 0, s.kernels[0]? with
  | some c, some k => k.cores.flatMap fun core => (dirtyOf s core fun x => x.asid == 0).filter fun p => inSpans (outSpans s c k) p.1
  | _, _ => []
theorem test_wit_Kernels_drain : ((draining.kernels[0]?).map fun k => k.state == .running && k.placed == k.launch.gangs && k.cores == [0]
      && (gangsOf draining 0 fun _ => true).all (gangDone draining)) = some true
    ∧ ((draining.ctx? 0).map (·.asid)) = some (some 0) ∧ outBytes draining = [(paOf, 7)] ∧ MemoryOk draining ∧ OneEach (outBytes draining)
    ∧ PlainAt draining ((outBytes draining).map (·.1)) ∧ ((draining.cores[0]?).map fun c => decide ((c.l1.map (·.line)).Nodup)) = some true :=
  ⟨by decide +kernel, by decide +kernel, by decide +kernel, test_mach_memory, oneEach_spec (by decide +kernel),
    Laws.plainAt_of (by decide +kernel) (by decide +kernel), by decide +kernel⟩

/-- Buckets that no refill has touched hold a full depth: no channel refuses (log 20). -/
theorem channels_full (c : Ctx) (cls n : Nat) (hb : c.buckets = []) :
    ((List.range n).any fun ch => decide (8 * c.tokens cls ch < (c.budget cls).depth)) = false := by
  rw [List.any_eq_false]
  intro ch _
  simp only [Ctx.tokens, hb, List.find?_nil, decide_eq_true_eq]
  omega

/-- An offer that its budgets, the save pool and the ASIDs admit is not refused. -/
theorem admitted {s : State} {o : Offer} {i n : Nat} {k : Kernel} {c : Ctx} (h1 : offerCount s o = some (i, k, n))
    (h2 : s.ctx? k.ctx = some c) (hb : c.buckets = []) (rest : (!coresRefuse s o c k n
      && decide ((((classGangs s c.id k.launch.bclass).filter fun g => g.1.resident).map fun g => g.2.power).foldl (· + ·) 0
        + n * k.launch.power ≤ (c.budget k.launch.bclass).pwrlim)
      && decide (c.saveused + n * k.launch.saveSize ≤ c.savesize) && (ensureAsid s c).isSome) = true) : offerRefused s o = none := by
  simp only [Bool.and_eq_true, Bool.not_eq_true', decide_eq_true_eq] at rest
  obtain ⟨⟨⟨r1, r2⟩, r3⟩, r4⟩ := rest
  have hp := Nat.not_lt.mpr r2
  simp only [offerRefused, h1, h2, budgetRefusal, channels_full _ _ _ hb, r1, hp, Bool.false_eq_true, if_false]
  cases o with
  | place => simp [Nat.not_lt.mpr r3, Option.isSome_iff_ne_none.mp r4]
  | restore => simp [Nat.not_lt.mpr (Nat.le_trans (Nat.le_add_right _ _) r3), Option.isSome_iff_ne_none.mp r4]

/-- A machine with another gang to place, with a core budget. -/
def placing (lim : Nat) : State :=
  { ready.modKernel 0 fun k => { k with launch := { k.launch with gx := 2, coop := false } } with
    ctxs := ready.ctxs.map fun c => { c with budgets := List.replicate 16 ⟨lim, 0, 0, 65535⟩ } }
/-- What the placement of an offer asks: its slot's turn, no refusal, a place and an ASID. -/
def offerRight (s : State) (o : Offer) : Prop :=
  ∃ (x : Slot) (c : Ctx) (k : Kernel), s.slots[0]? = some x ∧ s.ctx? 0 = some c ∧ s.kernels[0]? = some k ∧ offerOf s x = some o
    ∧ slotOfQueue s k.ctx k.queue = some (0, x) ∧ slotTurn s 0 x = true ∧ offerRefused s o = none ∧ (offerPlaces s o (0, 1)).isSome
    ∧ (ensureAsid s c).isSome
/-- The checks of `offerRight`. -/
def offerCheck (s : State) (o : Offer) : Bool :=
  match s.slots[0]?, s.ctx? 0, s.kernels[0]?, offerCount s o with
  | some x, some c, some k, some (_, k', n) =>
    offerOf s x == some o && slotTurn s 0 x && slotOfQueue s k.ctx k.queue == some (0, x) && c.buckets.isEmpty && k' == k && k.ctx == 0
      && (offerPlaces s o (0, 1)).isSome && (!coresRefuse s o c k n
      && decide ((((classGangs s c.id k.launch.bclass).filter fun g => g.1.resident).map fun g => g.2.power).foldl (· + ·) 0
        + n * k.launch.power ≤ (c.budget k.launch.bclass).pwrlim)
      && decide (c.saveused + n * k.launch.saveSize ≤ c.savesize) && (ensureAsid s c).isSome)
  | _, _, _, _ => false
theorem offerRight_of {s : State} {o : Offer} (c : offerCheck s o = true) : offerRight s o := by
  unfold offerCheck at c
  split at c
  · rename_i x cx k i k' n hx hc hk ho
    simp only [Bool.and_eq_true, beq_iff_eq, List.isEmpty_iff] at c
    obtain ⟨⟨⟨⟨⟨⟨⟨h1, h2⟩, h3⟩, h4⟩, h5⟩, h6⟩, h7⟩, h8⟩ := c
    subst h5
    refine ⟨x, cx, k', hx, hc, hk, h1, h3, h2, admitted ho (h6 ▸ hc) h4 ?_, h7, h8.2⟩
    simpa [Bool.and_eq_true] using h8
  · cases c
theorem test_wit_Placement : offerRight (placing 128) (.place 0) := offerRight_of (by decide +kernel)
/-- A machine whose gang is captured, at the head of its slot's run list. -/
def captured : State :=
  let s := (teamIs (placing 128) fun tm => { tm with status := .captured (some .q3) }).modGang 0 fun g => { g with state := .captured }
  { s with slots := modAt (fun x => { x with runList := [0] }) s.slots 0 }
theorem test_wit_Placement_restore : offerRight captured (.restore 0) ∧ (captured.teams.map (·.status)) = [.captured (some .q3)] :=
  ⟨offerRight_of (by decide +kernel), by decide +kernel⟩
/-- With a core budget of one core that is in use, the budget refuses (R300). -/
theorem test_wit_Placement_refused :
    (match (placing 1).slots[0]?, (placing 1).ctx? 0 with
    | some x, some c => offerOf (placing 1) x == some (.place 0) && slotTurn (placing 1) 0 x && c.refusal == none
        && offerRefused (placing 1) (.place 0) == some (some 0)
    | _, _ => false) = true := by
  decide +kernel
theorem test_wit_Placement_slices : ((mach.slots[0]?).map fun x => x.started && !x.expired && x.queue.isSome) = some true
    ∧ (mach.ctx? 0).isSome = true ∧ 15 < 16 := by decide +kernel

/-- A machine whose gang has a pre-emption pending and whose team has been halted. -/
def capturing : State := (teamIs ready fun tm => { tm with halted := true }).modGang 0 fun g => { g with state := .capturing }
theorem test_wit_Capture :
    (match capturing.gangs[0]?, capturing.kernels[0]? with
    | some ga, some k => (groupOf capturing 0 fun st => st == .capturing) == [0] && ga.state == .capturing && !commandsOut capturing 0 ga
        && gangAlive capturing ga && (capturing.ctx? k.ctx).map (·.asid) == some (some 0) && (slotOfQueue capturing k.ctx k.queue).isSome
        && (ga.teams.all fun t => ((capturing.teams[t]?).map (atPoint capturing t)).getD false) && Memory.wf capturing.mem
        && (capturing.cores.all fun z => z.l1.all fun l => l.asid != 0 || l.dirty.isEmpty)
        && capturing.tags.all fun e => !matchesPkg e none || e.cleared
    | _, _ => false) = true := by
  decide +kernel

/-! ### Contexts, debug, bring-up -/

/-- A request for a second context with one queue and a reserved range. -/
def second : CtxInit := { seedCtx with
  ctxid := 1, keyidx := 2, ptroot := 0x1000F0000000, queues := [⟨3, 0x30080, 0x70000, 16, 0x80000, 65536, 7⟩], reserved := [(0x90000, 0xA0000)] }
theorem test_wit_Contexts : createOk ready second = true ∧ ready.boot = .ready ∧ mach.boot ≠ .ready
    ∧ (ready.ctx? 0).map (·.state) = some .active ∧ ctxCommands ready 0 = false
    ∧ (({ ready with ctxs := ready.ctxs.map fun c => { c with state := .aborted } } : State).ctx? 0).map (·.state) = some .aborted
    ∧ (({ ready with ctxs := ready.ctxs.map fun c => { c with state := .destroyed } } : State).ctx? 0).map (·.state) = some .destroyed
    ∧ (({ ready with ctxs := ready.ctxs.map fun c => { c with state := .switched }, kernels := [] } : State).ctx? 0).map (·.state) = some .switched := by
  decide +kernel

theorem test_wit_DebugAndBringUp : (ready.ctx? 0).isSome = true ∧ ctlOk 0x200 = true ∧ ctlOk 0x100 = false ∧ ctlOk 0x203 = false
    ∧ (15 : Nat) < 16 ∧ (ready.bench? 127 3).isSome = true ∧ ((ctxOfKey ready 1).map fun c => c.id) = some 0
    ∧ ({ mach with boot := .listen } : State).boot = .listen ∧ ({ mach with boot := .firmware } : State).boot = .firmware
    ∧ unitOk (.line 256 0) = false ∧ unitOk (.line 255 0) = true ∧ unitOk (.bank 128 0) = false ∧ unitOk (.row 0 0) = true
    ∧ ((ctxOfKey ready 1).bind fun c => (ready.ctx? c.id).map fun c => c.state != .aborted) = some true
    ∧ mach.boot ≠ .listen ∧ mach.boot ≠ .firmware := by
  decide +kernel
theorem test_wit_DebugAndBringUp_illegal : ∃ h, issuing mach = some h ∧ (h.tm.trapvec == 0) = true := issuing_of (by decide +kernel)

/-! ### Pages -/

/-- A window of two pages from virtual address 0x40000 (R350). -/
def window : Ingress := ⟨5, 0, 3, false, 4, 0, true, true, true, true⟩
/-- A machine that exports it. -/
def exporting : State := { ready with ingress := [(9, window)] }
/-- A request from module 3 in the exported window. -/
def asks (op : FabricOp) (key : W32) : SpanReq := ⟨op, 2, 3, 0, false, 9, 0x100, key, 6, 100⟩
/-- A request of the module with tag 6 on port 2 for a line of another, with a deadline. -/
def asked (o : ReqOwner) (deadline : W64) : Req := ⟨6, 2, o, 0, 1, 2 ^ 51, 0x40000, 1, true, 0, 0, deadline⟩

/-- A PAGE fault of the team at an address, which waits for Chandler. -/
def paged (va : W64) : State :=
  { teamIs ready fun tm => { tm with status := .blocked .chandler, fault := some (.plain 0x05 0x10000 1 va) } with
    ctxs := ready.ctxs.map fun c => { c with reserved := [(2 ^ 29, 2 ^ 30)] } }
/-- An entry of 512 MiB of LPDDR6 in the place behind the seeded one. -/
def nextPte : Nat := seedPte + 2 ^ 29
theorem test_wit_PageWork_faults :
    (match partyFault (paged (2 ^ 29)) (.team 0), (paged (2 ^ 29)).ctx? 0 with
    | some (ctx, f), some c =>
      let s := paged (2 ^ 29)
      ctx == 0 && f.code == 0x05 && pteBit nextPte 4 && pageState nextPte == some .lpddr && leafOk s nextPte true && Memory.wf s.mem
        && !resolved s c.ptroot.toNat f && match entryHome s c.ptroot.toNat (faultVa f) 1 with
          | some home => !pteBit (readNat s.mem home 8) 0 && c.hasReserved (faultVa f) && !migrating s c.ptroot.toNat (faultVa f)
              && frameFree s c (ptePage nextPte) (leafSize true)
          | none => false
    | _, _ => false) = true
    ∧ (match partyFault (paged (2 ^ 31)) (.team 0), (paged (2 ^ 31)).ctx? 0 with
    | some (_, f), some c => !c.hasReserved (faultVa f) && !migrating (paged (2 ^ 31)) c.ptroot.toNat (faultVa f)
        && !resolved (paged (2 ^ 31)) c.ptroot.toNat f
    | _, _ => false) = true
    ∧ (match partyFault (paged 0x40000) (.team 0), (paged 0x40000).ctx? 0, (paged 0x40000).teams[0]? with
      | some (_, f), some c, some tm => resolved (paged 0x40000) c.ptroot.toNat f && tm.rmask &&& tm.live != 0 && !c.hasReserved (faultVa f)
      | _, _, _ => false) = true := by
  decide +kernel
/-- A PAGE of a store to a page that migrates, and an inbound request, held for Chandler, whose deadline has passed. -/
theorem test_wit_PageWork_held :
    (let s := { paged 0x40000 with mem := ssetAll ready.mem (atAddrs seedNode (bytesOf 8 (seedPte + 2 ^ 11))) };
      match partyFault s (.team 0), s.ctx? 0 with
      | some (_, f), some c => f.code == 0x05 && migrating s c.ptroot.toNat (faultVa f)
      | _, _ => false) = true
    ∧ (let s := { exporting with inbound := [⟨asks (.read 8) 5, 0x05, 0x40100, 7⟩], podTime := 101 };
      match partyFault s (.inbound 0), s.ctx? 0, s.inbound[0]? with
      | some (0, f), some c, some x => resolved s c.ptroot.toNat f && decide (x.req.deadline < s.podTime)
      | _, _, _ => false) = true := by
  decide +kernel

/-- The checks of a change of the entry for address 0. -/
def changeRight (new : Nat) (b : PageState) (takes : Bool) : Bool :=
  match ready.ctx? 0 with
  | some c => match entryHome ready c.ptroot.toNat 0 1 with
    | some home =>
      let old := readNat ready.mem home 8
      pteBit old 4 && (pteBit new 4 || !pteBit new 0) && pageState old == some .lpddr && pageState new == some b && pageMove ready .lpddr b
        && (b == .absent || leafOk ready new true) && takesAway old new == takes && decide (new < 2 ^ 64)
        && (b == .absent || ptePage old == ptePage new) && pageQuiet ready (ptePage old) (leafSize true)
    | none => false
  | none => false
theorem test_wit_PageWork_changes : changeRight seedPte .lpddr false = true ∧ changeRight 0 .absent true = true
    ∧ changeRight (seedPte - 4) .lpddr true = true ∧ changeRight (seedPte + 2 ^ 11) .migrating false = true := by decide +kernel
/-- A machine with a node for address 2^29 that holds one page of 64 KiB at 0x100000050000, and a dirty byte of a core in it. -/
def paging : State := ({ ready with mem := ssetAll ready.mem (atAddrs (seedNode + 8) (bytesOf 8 (0x100000040000 + 1))
  ++ atAddrs 0x100000040000 (bytesOf 8 (0x100000050000 + 2 ^ 9 + 0x1CF))) } : State).modCore 1 fun c =>
    { c with l1 := [⟨lineOf 0x100000050000, 0, false, none, [(3, 7)], []⟩] }
/-- The dirty bytes of every core in a frame. -/
def frameDirt (s : State) (pa n : Nat) : List (Nat × Byte) :=
  (List.range s.cores.length).flatMap fun core => dirtyOf s core fun x => lineIn pa n x.line
theorem test_wit_PageWork_level2 : (match paging.ctx? 0 with
    | some c => match entryHome paging c.ptroot.toNat (2 ^ 29) 2 with
      | some home => home == 0x100000040000 && pteBit (readNat paging.mem home 8) 0 && pageState (readNat paging.mem home 8) == some .lpddr
          && pageQuiet paging 0x100000050000 (leafSize false)
          && !pageQuiet { paging with reqs := [{ asked (.team 0 7) 0 with pa := 0x100000050000 }] } 0x100000050000 (leafSize false)
      | none => false
    | none => false) = true ∧ takesAway (0x100000050000 + 2 ^ 9 + 0x1CF) 0 = true
    ∧ frameDirt paging 0x100000050000 (leafSize false) = [(0x100000050003, 7)]
    ∧ OneEach (frameDirt paging 0x100000050000 (leafSize false)) ∧ MemoryOk paging
    ∧ PlainAt paging ((List.range 8).map (0x100000040000 + ·) ++ [0x100000050003]) :=
  ⟨by decide +kernel, by decide +kernel, by decide +kernel, oneEach_spec (by decide +kernel), by unfold MemoryOk; decide +kernel,
    Laws.plainAt_of (by decide +kernel) (by decide +kernel)⟩
theorem test_wit_PageWork_migration :
    (match ready.ctx? 0 with
    | some c => match walk ready c.ptroot.toNat 0 with
      | .ok l => l.pages != 1 && pageState l.pte == some .lpddr && pageState nextPte == some .lpddr && leafOk ready nextPte true
          && decide (ptePage l.pte + leafSize true ≤ ptePage nextPte) && decide (frameDirt (dirtied ready 1) (ptePage l.pte) (leafSize true) = [(paOf, 7)])
          && plainIn (dirtied ready 1) [paOf] && (ready.tags.all fun g => g.cleared)
          && frameFree ready c (ptePage nextPte) (leafSize true)
          && (mappedFrames ready c.ptroot.toNat).all (fun y => !overlaps (ptePage nextPte, leafSize true) y)
      | .error _ => false
    | none => false) = true := by
  decide +kernel

theorem test_wit_PageWork_exports :
    (match ready.ctx? window.ctx.toNat with
    | some c => window.v && (windowPages window).length == 2 && (windowPages window).all fun va => match leafAt ready c.ptroot.toNat va with
        | some y => y.2 != .migrating && y.2 != .imported
        | none => true
    | none => false) = true
    ∧ (exporting.ingress.find? fun e => e.1 = (9 : BitVec 12).toNat) = some (9, window)
    ∧ (({ ready with ingress := [(9, { window with v := false })] } : State).ingress.find? fun e => e.1 = (9 : BitVec 12).toNat)
      = some (9, { window with v := false })
    ∧ ((windowLeaves exporting seedRoot window).map fun y => (leafPa y.2.1 y.1) / 65536) = [paOf / 65536, paOf / 65536 + 1] := by
  decide +kernel
theorem test_wit_PageWork_grants : ready.revoking = [] ∧ (ready.ingress.all fun e => e.1 != 9 || !e.2.v) = true
    ∧ (exporting.ingress.any fun e => e.1 == 9 && e.2.v) = true
    ∧ ((windowPages window).all fun va => match leafAt ready seedRoot va with | some (_, p) => p == .lpddr | none => false) = true := by
  decide +kernel
theorem test_wit_MemorySystem : ready.boot = .ready ∧ (3 : Nat) < 4 ∧ 4 ≤ 4 := by decide +kernel

/-! ### Links -/

/-- A machine with a registered region of a page, for reading and writing. -/
def regioned : State := { ready with regions := [⟨0, 0x40000, 65536, true, true⟩, ⟨0, 2 ^ 29, 65536, true, true⟩] }
theorem test_wit_Ethernet :
    rmaReason regioned 0 0x4FFF8 8 true true = none ∧ rmaReason regioned 0 0x4FFF9 8 true true = some 3
      ∧ rmaReason regioned 0 0x4FFF8 8 false true = none ∧ rmaReason regioned 0 0x40000 8 false false = some 4
      ∧ ((regioned.ctx? 0).bind fun c => (rmaPlaces regioned c 0x4FFF8 8).2.map fun l =>
          decide l.Nodup && plainIn (rmaPlaces regioned c 0x4FFF8 8).1 l) = some true
      ∧ rmaReason regioned 0 (2 ^ 29) 8 true true = none ∧ ((regioned.ctx? 0).map fun c => (rmaPlaces regioned c (2 ^ 29) 8).2.isNone) = some true
      ∧ (let gone : State := { regioned with ctxs := regioned.ctxs.map fun c => { c with state := .destroyed } };
        rmaReason gone 0 0x4FFF8 8 true true = none ∧ rmaReason gone 0 0x4FFF8 8 false true = none ∧ (gone.ctx? 0).map (·.state) = some .destroyed)
      ∧ Memory.wf regioned.mem = true
      ∧ (sessionOf ready 4).last < 1 ∧ ¬ (sessionOf ready 4).last < 0
      ∧ (sessionOf { ready with sessions := [⟨4, 7, 0, 0, [(7, 0, [])]⟩] } 4).answers.find? (fun a => a.1 = 7) = some (7, 0, [])
      ∧ (sessionOf { ready with sessions := [⟨4, 7, 0, 0, [(7, 0, [])]⟩] } 4).answers.find? (fun a => a.1 = 6) = none := by
  decide +kernel

/-- A machine whose Span ports are UP. -/
def linked : State := { exporting with spanPorts := exporting.spanPorts.map fun p => { p with state := .up } }
/-- The checks of an admitted request. -/
def spanRight (op : FabricOp) : Bool :=
  let s : State := exporting
  spanReason s (asks op 5) (some window) == none && Memory.wf s.mem && match s.ctx? 0 with
    | some c => c.state != .destroyed && match spanXlat s c.ptroot.toNat 0x40100 (opNeed op) with
      | (s1, .ok _) => match spanXlat s1 c.ptroot.toNat 0x40100 (opNeed op) with
        | (s2, .ok pa) => plainIn s2 ((List.range 3).map (pa + ·))
        | (_, .error _) => false
      | (_, .error _) => false
    | none => false
theorem test_wit_Span :
    ((linked.spanPorts[2]?).map fun p => p.state == .up) = some true ∧ (List.replicate 60 (0 : Byte)).length = 60
      ∧ spanRight (.read 8) = true ∧ spanRight (.write [1, 2, 3]) = true ∧ spanReason exporting (asks (.read 8) 4) (some window) = some 2
      ∧ (match (spanXlat exporting seedRoot (2 ^ 29) .read).2 with | .error _ => true | .ok _ => false) = true := by
  decide +kernel
/-- A machine with a request, whose team waits for its answer and another, or has forwarded two writes of one store. -/
def answering (o : ReqOwner) (deadline : W64) : State :=
  { teamIs ready fun tm => { tm with inflight := [⟨7, .ld false (.v 1) (.s 6) none 0 .nat, ⟨0, tm.mode, 1, tm.regs, 0, 0, 0, 32, []⟩, none,
      [.v 1], [], Writes.none, [6, 8], [], [], none, none⟩] } with
    reqs := match o with
      | .forward .. => [{ asked o deadline with forward := 1 }, { asked o deadline with tag := 8, forward := 1 }]
      | o => [asked o deadline] }
theorem test_wit_Span_answers :
    ([0, 5].all fun now => let s : State := { answering (.team 0 7) 3 with podTime := now };
      match reqOf s 6, s.teams[0]? with
      | some r, some tm => r.owner == .team 0 7 && r.forward == 0 && r.elem == 0 && decide (r.deadline < s.podTime) == (now == 5)
          && decide (r.deadline ≤ s.podTime) == (now == 5) && match tm.inflight with
            | [a] => a.id == 7 && a.nacked.isEmpty && a.late.isEmpty && a.seen.isNone && !acquiring a.instr && a.need.any fun g => g != r.tag
            | _ => false
      | _, _ => false) = true
    ∧ reqOf ready 6 = none
    ∧ (let s := answering (.forward 0 0 0x10000) 0;
      match reqOf s 6 with
      | some r => r.owner == .forward 0 0 0x10000 && r.forward != 0 && decide (r.deadline ≤ s.podTime) && !decide (r.deadline < s.podTime)
          && s.reqs.any fun q => q.tag != r.tag && q.owner == .forward 0 0 0x10000
      | none => false) = true := by
  decide +kernel

/-- A port in a state. -/
def portIn (st : PState) (n : Nat) : State :=
  { ready with uePorts := ready.uePorts.map fun p => { p with state := st, attempts := n }, spanPorts := ready.spanPorts.map fun p => { p with state := st, attempts := n } }
theorem test_wit_Ports :
    ([PState.down, .training, .up, .degraded, .draining, .faulted].all fun st =>
      ((portIn st 2).port? (.span 15)).map (·.state) == some st && ((portIn st 2).port? (.ue 0)).map (·.attempts) == some 2) = true
      ∧ portBusy (portIn .draining 0) (.span 15) = false
      ∧ portBusy { portIn .draining 0 with reqs := [{ asked (.team 0 7) 0 with port := 15 }] } (.span 15) = true := by
  decide +kernel
end

section
/-! Certificates for the family spec/00_scope.md: bytes and numbers written at home, and registers, are read back. -/
namespace Sys2Proof.Proofs.Scope
open Sys2Proof Sys2Proof.Machine

/-! ## Numbers as bytes (R3) -/

@[simp] theorem length_bytesOf (n x : Nat) : (bytesOf n x).length = n := by
  induction n generalizing x with
  | zero => rfl
  | succ n ih => simp [bytesOf, ih]

/-- `n` bytes hold a number modulo 2^(8n). -/
theorem natOf_bytesOf (n x : Nat) : natOf (bytesOf n x) = x % 2 ^ (8 * n) := by
  induction n generalizing x with
  | zero => simp [bytesOf, natOf, Nat.mod_one]
  | succ n ih =>
    calc natOf (bytesOf (n + 1) x) = x % 256 + 256 * (x / 256 % 2 ^ (8 * n)) := by simp [bytesOf, natOf, ih]
      _ = x % (256 * 2 ^ (8 * n)) := Nat.mod_mul.symm
      _ = x % 2 ^ (8 * (n + 1)) := by rw [Nat.mul_succ, Nat.pow_add, Nat.mul_comm]

/-! ## Bytes at consecutive addresses -/

theorem map_fst_atAddrs (pa : Nat) (bs : List Byte) : (atAddrs pa bs).map (·.1) = (List.range bs.length).map (pa + ·) := by
  apply List.ext_getElem <;> simp [atAddrs]

theorem nodup_map_fst_atAddrs (pa : Nat) (bs : List Byte) : ((atAddrs pa bs).map (·.1)).Nodup := by
  rw [map_fst_atAddrs]
  exact List.nodup_range.map (add_right_injective pa)

theorem getElem_mem_atAddrs (pa : Nat) {bs : List Byte} {j : Nat} (h : j < bs.length) : (pa + j, bs[j]) ∈ atAddrs pa bs :=
  List.mem_mapIdx.mpr ⟨j, h, rfl⟩

/-- Bytes written at consecutive addresses of a canonical table are read back in their order. -/
theorem readBytes_ssetAll_atAddrs {m : Sparse 8} (hm : swf m = true) (pa : Nat) (bs : List Byte) :
    readBytes (ssetAll m (atAddrs pa bs)) pa bs.length = bs := by
  apply List.ext_getElem
  · simp [readBytes]
  · intro j hj hb
    simpa [readBytes] using sget_ssetAll_mem _ (nodup_map_fst_atAddrs pa bs) (getElem_mem_atAddrs pa hb) hm

theorem readNat_ssetAll_bytesOf {m : Sparse 8} (hm : swf m = true) (pa n x : Nat) :
    readNat (ssetAll m (atAddrs pa (bytesOf n x))) pa n = x % 2 ^ (8 * n) := by
  have hr := readBytes_ssetAll_atAddrs hm pa (bytesOf n x)
  rw [length_bytesOf] at hr
  rw [readNat, hr, natOf_bytesOf]

/-! ## Writes at home (R170) -/

@[simp] theorem homeWriteRaw_mem (s : State) (key : Nat) (ws : List (Nat × Byte)) :
    (homeWriteRaw s key ws).mem = ssetAll s.mem ws := rfl

section
variable {s : State} (hs : MemoryOk s) (key : Nat)
include hs

theorem homeWriteRaw_ok (ws : List (Nat × Byte)) : MemoryOk (homeWriteRaw s key ws) := (Keeps.homeWriteRaw s key ws).memory hs

theorem sget_homeWriteRaw {ws : List (Nat × Byte)} (hn : (ws.map (·.1)).Nodup) {p : Nat × Byte} (hp : p ∈ ws) :
    sget (homeWriteRaw s key ws).mem p.1 = p.2 := sget_ssetAll_mem ws hn hp hs

theorem readNat_homeWriteRaw (pa n x : Nat) :
    readNat (homeWriteRaw s key (atAddrs pa (bytesOf n x))).mem pa n = x % 2 ^ (8 * n) := readNat_ssetAll_bytesOf hs pa n x

end

theorem sget_homeWriteRaw_ne (s : State) (key : Nat) {ws : List (Nat × Byte)} {a : Nat} (ha : a ∉ ws.map (·.1)) :
    sget (homeWriteRaw s key ws).mem a = sget s.mem a :=
  sget_ssetAll_ne ws (fun p hp e => ha (List.mem_map.mpr ⟨p, hp, e⟩)) s.mem

/-! ## The predicate p0 (R34) -/

@[simp] theorem pget_zero (g : Regs) : g.pget 0 = BitVec.allOnes 1024 := rfl
@[simp] theorem pset_zero (g : Regs) (m b : Mask) : g.pset 0 m b = g := rfl

/-- Settles O10: at home by the rules of writes to a canonical table (the bytes of a number stand at different addresses), and the
registers by the rule of each table after a write to the same and to another key. -/
theorem writesReadBack : Obligations.WritesReadBack := by
  unfold Obligations.WritesReadBack
  refine ⟨fun s key hs => ⟨fun ws hn => ?_, readNat_homeWriteRaw hs key⟩, fun g hg => ?_⟩
  · exact ⟨homeWriteRaw_ok hs key ws, fun p hp => sget_homeWriteRaw hs key hn hp, fun a ha => sget_homeWriteRaw_ne s key ha⟩
  · exact ⟨pget_zero g, pset_zero g,
      fun p m b hp => ⟨Regs.pget_pset hg hp m b, fun q hq => Regs.pget_pset_ne g hq m b⟩,
      fun r x => ⟨Regs.uget_uset hg r x, fun k hk => Regs.uget_uset_ne g x hk⟩⟩

end Sys2Proof.Proofs.Scope
end

section
/-! Certificates for the family spec/01_machine.md: loads and stores of scratchpads. -/
namespace Sys2Proof.Proofs.Scratchpads
open Sys2Proof Sys2Proof.Machine Sys2Proof.Proofs.Scope

/-! ## An access that issues (R150, R155) -/

/-- The team that issues stands in the state. -/
theorem team_lt {s : State} {h : Here} (hi : issuing s = some h) : h.t < s.teams.length := by
  obtain ⟨tm, ht, -⟩ := issuing_some hi
  exact (List.getElem?_eq_some_iff.mp ht).1

/-- Without comparators that act, no access is seen (R355). -/
theorem seenBy_noWatch {h : Here} (hw : NoWatch h) (saved : Option Mask) (acc : List Touch) : seenBy h saved acc = none := by
  have hhalt : (compNumbers h.cx.comps fun c => c.action == 2 && acc.any c.matchesTouch) = [] := by
    simp only [compNumbers, List.map_eq_nil_iff, List.filter_eq_nil_iff]
    intro c hc
    simp [(hw c.1 (List.fst_mem_of_mem_zipIdx hc)).2]
  have hhit : (acc.filter fun t => h.cx.comps.any fun c => c.action == 1 && c.matchesTouch t) = [] := by
    simp only [List.filter_eq_nil_iff, List.any_eq_true, not_exists, not_and]
    intro t _ c hc
    simp [(hw c hc).1]
  simp [seenBy, hhalt, hhit]

section
variable {i : Instr} {sw : Bool} {jf : Frame → Job} {s s1 : State} {h : Here} {w : Writes} {bytes : List PByte} {need : List Nat}
  {acc : List Touch}

/-- A ready instruction of a quiet team that acts goes on at the next word, once its writes are under way. -/
theorem issueJob_done (hq : Quiet s h) (hw : NoWatch h) (hr : Ready jf h.frame)
    (hrun : (jf h.frame).run h h.frame s = .done s1 w bytes need acc) :
    issueJob i sw jf s =
      let r := settleWrites i (jf h.frame) h s1 (teamNow s1 h) h.frame w bytes need none
      .next (endAt r.1 h sw (after h i) ((jf h.frame).passes h.frame) r.2) := by
  obtain ⟨hok, hspans, hcheck, hbad⟩ := hr
  have hwhile : whileOpen need none = none := by simp [whileOpen]
  have honce : onceActed need none = none := by simp [onceActed]
  rw [issueJob_quiet hq, hok, hspans, hcheck]
  simp [issueNow, hbad, hrun, seenBy_noWatch hw, hwhile, honce, watch, nextPc_encode, after]

/-- The marker changes nothing that an access leaves to its team. -/
theorem goesOn_marker {tm : Team} (df : Bool) (hg : GoesOn i h tm) : GoesOn i h (marker sw df tm) := by
  unfold marker
  split
  · exact hg
  · split
    · exact { hg with }
    · split
      · exact hg
      · exact { hg with }

theorem inflight_marker (df : Bool) (tm : Team) : (marker sw df tm).inflight = tm.inflight := by
  unfold marker
  split
  · rfl
  · split
    · rfl
    · split <;> rfl

/-- At the end of an instruction its team stands as `GoesOn` says, where it stood so before but for its PC. -/
theorem endAt_goesOn (hl : h.t < s1.teams.length) (pc : W64) (cost : List (Nat × Nat)) {tm : Team}
    (hg : GoesOn i h { tm with pc := pc }) :
    ∃ tm', (endAt s1 h sw pc cost tm).teams[h.t]? = some tm' ∧ GoesOn i h tm' ∧ tm'.inflight = tm.inflight := by
  obtain ⟨age, owed, hend⟩ := endAt_team s1 h sw pc cost tm hl
  exact ⟨_, hend, goesOn_marker _ { hg with }, inflight_marker _ _⟩

/-- The team has acted as an access may: it waits for no value, and at the next word it goes on. -/
structure Acted (i : Instr) (h : Here) (tm : Team) : Prop where
  goesOn   : GoesOn i h { tm with pc := after h i }
  claims   : tm.claims = []
  inflight : tm.inflight = []

/-- A quiet team that has only counted bank cycles has acted as an access may. -/
theorem acted_banks (hq : Quiet s h) (bs : List (Nat × Nat × Nat)) : Acted i h { h.tm with banks := bs } := by
  obtain ⟨-, hclaims, -, hflight, -⟩ := hq
  exact ⟨by constructor <;> trivial, hclaims, hflight⟩

/-- An access of a team that waits for no value is in flight, and changes nothing else (R155). -/
theorem launch_goesOn {tm : Team} (hteam : Acted i h tm) (a : InFlight) (lanes : RegKey → Mask) :
    ∃ tm', launch s tm a lanes = (s, tm') ∧ GoesOn i h { tm' with pc := after h i } ∧ tm'.inflight = [a] := by
  obtain ⟨hgo, hclaims, hflight⟩ := hteam
  exact ⟨_, launch_noClaims hclaims, { hgo with }, congrArg (· ++ [a]) hflight⟩

/-- A variable-latency instruction of such a team has one access in flight, with its writes. -/
theorem settleWrites_late {j : Job} {tm : Team} {f : Frame} (hlate : j.late = true) (hteam : Acted i h tm) :
    ∃ tm' fl, settleWrites i j h s tm f w bytes need none = (s, tm') ∧ GoesOn i h { tm' with pc := after h i } ∧ tm'.inflight = [fl]
      ∧ fl.bytes = bytes ∧ fl.need = need ∧ fl.writes = w := by
  have hnext : Acted i h { tm with nextId := tm.nextId + 1 } := ⟨{ hteam.goesOn with }, hteam.claims, hteam.inflight⟩
  obtain ⟨tm', hlaunch, hgo, hflight⟩ := launch_goesOn (s := s) hnext
    ⟨tm.nextId, i, f, j.stream, j.writeKeys f (j.lanesIn f), bytes, w, need, [], [], j.tile s h, none⟩ (j.lanesAt f (j.lanesIn f))
  exact ⟨tm', _, by rw [settleWrites, if_pos hlate]; exact hlaunch, hgo, hflight, rfl, rfl, rfl⟩

/-- A store that waits for nothing changes nothing of its team. -/
theorem settleWrites_stored {j : Job} {tm : Team} {f : Frame} (hlate : j.late = false) (hclaims : tm.claims = []) :
    settleWrites i j h s tm f Writes.none [] [] none = (s, tm) := by
  have hflags : tm.flags ||| Writes.none.flags = tm.flags := BitVec.or_zero
  simp [settleWrites, hlate, writeNow_noClaims hclaims, hflags]

/-- A variable-latency access of a quiet team (R155): it is in flight with its writes, and the rest of the machine is as it has left it. -/
theorem issueJob_late (hq : Quiet s h) (hw : NoWatch h) (hr : Ready jf h.frame) (hlate : (jf h.frame).late = true)
    (hrun : (jf h.frame).run h h.frame s = .done s1 w bytes need acc) (hl : h.t < s1.teams.length)
    (hteam : Acted i h (teamNow s1 h)) :
    ∃ t tm fl, issueJob i sw jf s = .next t ∧ t.teams[h.t]? = some tm ∧ GoesOn i h tm ∧ tm.inflight = [fl]
      ∧ fl.bytes = bytes ∧ fl.need = need ∧ fl.writes = w ∧ t.mem = s1.mem ∧ t.cohorts = s1.cohorts := by
  obtain ⟨tm1, fl, hsettle, hgo, hflight, hbytes, hneed, hwrites⟩ :=
    settleWrites_late (s := s1) (f := h.frame) (w := w) (bytes := bytes) (need := need) hlate hteam
  obtain ⟨tm, ht, hg, hin⟩ := endAt_goesOn (sw := sw) hl (after h i) ((jf h.frame).passes h.frame) hgo
  refine ⟨_, tm, fl, issueJob_done hq hw hr hrun, ?_⟩
  rw [hsettle]
  exact ⟨ht, hg, hin.trans hflight, hbytes, hneed, hwrites, rfl, rfl⟩

/-- A store of a quiet team that waits for nothing: no access is in flight, and the rest of the machine is as the store has left it. -/
theorem issueJob_stored (hq : Quiet s h) (hw : NoWatch h) (hr : Ready jf h.frame) (hlate : (jf h.frame).late = false)
    (hrun : (jf h.frame).run h h.frame s = .done s1 Writes.none [] [] acc) (hl : h.t < s1.teams.length)
    (hteam : Acted i h (teamNow s1 h)) :
    ∃ t tm, issueJob i sw jf s = .next t ∧ t.teams[h.t]? = some tm ∧ GoesOn i h tm ∧ tm.inflight = []
      ∧ t.mem = s1.mem ∧ t.cohorts = s1.cohorts := by
  obtain ⟨hgo, hclaims, hflight⟩ := hteam
  obtain ⟨tm, ht, hg, hin⟩ := endAt_goesOn (sw := sw) hl (after h i) ((jf h.frame).passes h.frame) hgo
  refine ⟨_, tm, issueJob_done hq hw hr hrun, ?_⟩
  rw [settleWrites_stored hlate hclaims]
  exact ⟨ht, hg, hin.trans hflight, rfl, rfl⟩
end

/-! ## The scratchpad of a cohort -/

/-- The bytes of a cohort's scratchpad. -/
def spadOf (s : State) (c : Nat) : Sparse 8 := ((s.cohorts[c]?).map Cohort.sp).getD []

theorem sget_spadOf (s : State) (c p : Nat) : ((s.cohorts[c]?).map fun co => sget co.sp p).getD 0 = sget (spadOf s c) p := by
  unfold spadOf
  cases s.cohorts[c]? <;> rfl

theorem spadOf_congr {s s' : State} (h : s'.cohorts = s.cohorts) (q : Nat) : spadOf s' q = spadOf s q := by
  rw [spadOf, h, spadOf]

/-- A change of a cohort that keeps its scratchpad. -/
theorem spadOf_modCohort_keep (s : State) (c : Nat) {f : Cohort → Cohort} (hf : ∀ co, (f co).sp = co.sp) (q : Nat) :
    spadOf (s.modCohort c f) q = spadOf s q := by
  unfold spadOf
  rw [State.modCohort_cohorts, getElem?_modAt]
  split
  · cases s.cohorts[q]? <;> simp [hf]
  · rfl

theorem spadOf_spadStore (s : State) {c : Nat} (hc : c < s.cohorts.length) (ws : List (Nat × Byte)) (q : Nat) :
    spadOf (spadStore s c ws) q = if c = q then ssetAll (spadOf s q) ws else spadOf s q := by
  unfold spadStore
  split
  case isTrue he => rw [List.isEmpty_iff.mp he]; split <;> rfl
  case isFalse =>
    unfold spadOf
    rw [State.modCohort_cohorts, getElem?_modAt]
    split
    case isTrue e => subst e; simp [List.getElem?_eq_getElem hc]
    case isFalse => rfl

theorem spadStore_frame (s : State) (c : Nat) (ws : List (Nat × Byte)) :
    (spadStore s c ws).mem = s.mem ∧ (spadStore s c ws).teams = s.teams ∧ (spadStore s c ws).cohorts.length = s.cohorts.length := by
  unfold spadStore
  split
  · exact ⟨rfl, rfl, rfl⟩
  · exact ⟨rfl, rfl, length_modAt ..⟩

/-- A state in which memory, the scratchpads and the number of teams and cohorts are as in another. -/
structure SameBytes (s s' : State) : Prop where
  mem     : s'.mem = s.mem
  spads   : ∀ q, spadOf s' q = spadOf s q
  cohorts : s'.cohorts.length = s.cohorts.length
  teams   : s'.teams.length = s.teams.length

theorem SameBytes.refl (s : State) : SameBytes s s := ⟨rfl, fun _ => rfl, rfl, rfl⟩

theorem SameBytes.trans {a b c : State} (h : SameBytes a b) (k : SameBytes b c) : SameBytes a c :=
  ⟨k.mem.trans h.mem, fun q => (k.spads q).trans (h.spads q), k.cohorts.trans h.cohorts, k.teams.trans h.teams⟩

/-- The bank cycles of a list added to the counters of their cohorts, as `countBanks` does it. -/
def addBanks (s : State) (bs : List (Nat × Nat × Nat)) : State :=
  bs.foldl (fun s k => s.modCohort k.2.1 fun co => { co with spbankc := co.spbankc + BitVec.ofNat 64 k.2.2 }) s

theorem addBanks_sameBytes (s : State) (bs : List (Nat × Nat × Nat)) : SameBytes s (addBanks s bs) := by
  refine List.foldlRecOn bs _ (.refl s) fun x hx k _ => hx.trans ?_
  exact ⟨rfl, spadOf_modCohort_keep x _ fun _ => rfl, length_modAt .., rfl⟩

theorem addBanks_teams (s : State) (bs : List (Nat × Nat × Nat)) : (addBanks s bs).teams = s.teams :=
  List.foldlRecOn (motive := fun (x : State) => x.teams = s.teams) bs _ rfl fun _ hx _ _ => hx

theorem countBanks_cases (s : State) (t : Nat) (ps : List Placed) :
    countBanks s t ps = s ∨ ∃ bs, countBanks s t ps = (addBanks s bs).modTeam t fun tm => { tm with banks := bs } := by
  unfold countBanks
  split
  · exact .inl rfl
  · exact .inr ⟨_, rfl⟩

/-- The bank cycles of an access are counted beside all bytes (R126). -/
theorem countBanks_sameBytes (s : State) (t : Nat) (ps : List Placed) : SameBytes s (countBanks s t ps) := by
  obtain hsame | ⟨bs, hsome⟩ := countBanks_cases s t ps
  · rw [hsame]
    exact .refl s
  · rw [hsome]
    exact (addBanks_sameBytes s bs).trans ⟨rfl, fun _ => rfl, rfl, length_modAt ..⟩

/-- The team of an access has counted its bank cycles, and no more. -/
theorem teamNow_countBanks {s : State} {h : Here} (hi : issuing s = some h) (ps : List Placed) :
    ∃ bs, teamNow (countBanks s h.t ps) h = { h.tm with banks := bs } := by
  obtain hsame | ⟨bs, hsome⟩ := countBanks_cases s h.t ps
  · exact ⟨h.tm.banks, by rw [hsame, teamNow_issuing hi]⟩
  · obtain ⟨tm, ht, htm, -⟩ := issuing_some hi
    refine ⟨bs, ?_⟩
    rw [hsome, teamNow, State.modTeam_teams, addBanks_teams, modAt_same, ht, htm]
    rfl

/-! ## Placing (R119 to R121) -/

theorem placeAll_concat {s : State} {h : Here} {sp : Space} {need : Need} {al : Nat} {as : List Acc} {a : Acc} {ps : List Placed}
    {p : Placed} (has : placeAll s h sp need al as = (s, ps, [])) (ha : placeAcc s h sp need al a = (s, .ok p)) :
    placeAll s h sp need al (as ++ [a]) = (s, ps ++ [p], []) := by
  unfold placeAll at has ⊢
  rw [List.foldl_append, has, List.foldl_cons, ha]
  rfl

/-- Accesses that all pass their checks without a translation are placed in their order. -/
theorem placeAll_ok {s : State} {h : Here} {sp : Space} {need : Need} {al : Nat} (g : Nat → Acc) (p : Nat → Placed) {ls : List Nat}
    (hp : ∀ l ∈ ls, placeAcc s h sp need al (g l) = (s, .ok (p l))) : placeAll s h sp need al (ls.map g) = (s, ls.map p, []) := by
  induction ls using List.reverseRecOn with
  | nil => rfl
  | append_singleton ls l ih =>
    rw [List.map_append, List.map_append]
    exact placeAll_concat (ih fun k hk => hp k (List.mem_append_left _ hk)) (hp l (List.mem_append_right _ List.mem_cons_self))

/-- The scratchpad access of a lane, of `n` bytes at the offset `off`, placed on core `k` in the scratchpad of cohort `c`. -/
def spadPlaced (n : Nat) (off c k : Nat → Nat) (l : Nat) : Placed :=
  ⟨⟨l, BitVec.ofNat 64 (off l), n⟩, .spad (c l) (k l) (off l % 2 ^ 22)⟩

@[simp] theorem spots_spadPlaced (n : Nat) (off c k : Nat → Nat) (l : Nat) : (spadPlaced n off c k l).spots = [] := rfl

theorem spots_spadPlaced_map (n : Nat) (off c k : Nat → Nat) (ls : List Nat) :
    (ls.map (spadPlaced n off c k)).flatMap Placed.spots = [] := by
  simp [List.flatMap_map]

/-- The accesses of some lanes at offsets `off` lie in the gang's share, on cores of the quad that hold the gang's cohorts `c`, or on the
team's own core (R119). -/
def Fits (s : State) (h : Here) (own : Bool) (al n : Nat) (ls : List Nat) (off c k : Nat → Nat) : Prop :=
  ∀ l ∈ ls, off l % al = 0 ∧ off l < 2 ^ (if own then 22 else 24) ∧ off l % 2 ^ 22 + n ≤ h.share
    ∧ h.neighbour (off l / 2 ^ 22) = some (c l, k l) ∧ c l < s.cohorts.length

theorem toNat_offset {own : Bool} {x : Nat} (hx : x < 2 ^ (if own then 22 else 24)) : (BitVec.ofNat 64 x).toNat = x := by
  rw [BitVec.toNat_ofNat]
  cases own <;> simp at hx <;> omega

theorem placeOffset_fits {h : Here} {own : Bool} {l n x c k : Nat} (hx : x < 2 ^ (if own then 22 else 24))
    (hn : x % 2 ^ 22 + n ≤ h.share) (hc : h.neighbour (x / 2 ^ 22) = some (c, k)) :
    placeOffset h own ⟨l, BitVec.ofNat 64 x, n⟩ = .ok (.spad c k (x % 2 ^ 22)) := by
  have hbits : x / 2 ^ 24 = 0 := by cases own <;> simp at hx <;> omega
  have hpos : x / 2 ^ 22 % 4 = x / 2 ^ 22 := by omega
  have hown : (own && x / 2 ^ 22 != 0) = false := by
    cases own
    · rfl
    · simp at hx ⊢; omega
  have hguard : (x / 2 ^ 24 != 0 || (own && x / 2 ^ 22 != 0)) = false := by rw [hbits, hown]; rfl
  simp only [placeOffset, toNat_offset hx, hpos, hguard, Bool.false_eq_true, if_false, placeSpad, hc, hn, if_true]

theorem placeAll_fits {s : State} {h : Here} {own : Bool} {need : Need} {al n : Nat} {ls : List Nat} {off c k : Nat → Nat}
    (hf : Fits s h own al n ls off c k) :
    placeAll s h (.spad own) need al (ls.map fun l => ⟨l, BitVec.ofNat 64 (off l), n⟩) = (s, ls.map (spadPlaced n off c k), []) := by
  refine placeAll_ok _ _ fun l hl => ?_
  obtain ⟨hal, hlt, hshare, hc, -⟩ := hf l hl
  simp only [placeAcc, placeOffset_fits hlt hshare hc, toNat_offset hlt, hal, bne_self_eq_false, Bool.false_eq_true, if_false]
  rfl

/-- A team with nothing in flight orders its access behind nothing, but for a release at POD scope (R123, R185). -/
theorem inOrder_noFlight {s : State} {h : Here} (hf : h.tm.inflight = []) (k : Option Nat) {release : Option Scope}
    (hr : release ≠ some .pod) (act : Act) : inOrder s h k release act = act := by
  simp [inOrder, streamTags, hf, hr]

/-- A scratchpad access releases at no wider scope than that of its core (R124). -/
theorem outerScope_spad_ne_pod (own : Bool) (as : List Acc) (sync : Bool) (sc : Scope) :
    outerScope (.spad own) as sync sc ≠ some .pod := by
  cases sync <;> simp [outerScope]

/-! ## Loads -/

@[simp] theorem knownBytes_map_known (bs : List Byte) : knownBytes (bs.map .known) = some bs := by
  induction bs with
  | nil => rfl
  | cons b bs ih => simp [knownBytes, ih]

/-- Bytes joined from equally long pieces are cut into these pieces. -/
theorem blocks_flatMap {n : Nat} {g : Nat → List Byte} : ∀ {ls : List Nat}, (∀ l ∈ ls, (g l).length = n) →
    blocks n ls.length (ls.flatMap g) = ls.map g
  | [], _ => rfl
  | l :: ls, hn => by
    have hl : (g l).length = n := hn l List.mem_cons_self
    have ih := blocks_flatMap fun k hk => hn k (List.mem_cons_of_mem _ hk)
    rw [List.length_cons, List.flatMap_cons, blocks, List.take_left' hl, List.drop_left' hl, ih, List.map_cons]

/-- The writes of a load whose lanes have found the bytes `g` (R122). -/
theorem loadFin_flatMap {d : Dst} {m : MemForm} {f : Frame} {g : Nat → List Byte}
    (hn : ∀ l ∈ f.on, (g l).length = formBytes f.mode.t m) :
    loadFin d m f (f.on.flatMap g) = Writes.ofV (f.on.flatMap fun l => dstWrites f d (formRegs f.mode.t m) l (natOf (g l))) := by
  have hzip : f.on.zip (f.on.map g) = f.on.map fun l => (l, g l) := by
    simpa using List.zip_map' (f := fun l : Nat => l) (g := g) (l := f.on)
  rw [loadFin, blocks_flatMap hn, hzip, List.flatMap_map]

@[simp] theorem length_readBytes (mem : Sparse 8) (pa n : Nat) : (readBytes mem pa n).length = n := by simp [readBytes]

/-- The bytes that the lanes of an access find in the scratchpads. -/
def spadBytes (s : State) (n : Nat) (off c : Nat → Nat) (ls : List Nat) : List Byte :=
  ls.flatMap fun l => readBytes (spadOf s (c l)) (off l % 2 ^ 22) n

section
variable (s : State) (h : Here) (n : Nat) (off c k : Nat → Nat) (ls : List Nat)

/-- Scratchpad bytes are all known, and no request is sent for them. -/
theorem gather_spad (owner : ReqOwner) (get : State → Here → Spot → Option Byte) :
    gather s h owner get (ls.map (spadPlaced n off c k)) = (s, (spadBytes s n off c ls).map .known, []) := by
  have hbytes (l : Nat) : ((List.range n).map fun j =>
      PByte.known (((s.cohorts[c l]?).map fun co => sget co.sp (off l % 2 ^ 22 + j)).getD 0))
        = (readBytes (spadOf s (c l)) (off l % 2 ^ 22) n).map .known := by
    rw [readBytes, List.map_map]
    exact List.map_congr_left fun j _ => congrArg PByte.known (sget_spadOf s (c l) _)
  have hask : askLines s h owner [] = (s, []) := rfl
  simp only [gather, spots_spadPlaced_map, List.any_nil, Bool.false_eq_true, if_false, hask, List.map_nil]
  simp only [spadBytes, List.map_flatMap, List.flatMap_map, spadPlaced, hbytes]

/-- Clean bytes discarded of no line: the L1 keeps its useful lines, and nothing else changes. -/
theorem dropClean_none (core : Nat) {p : L1Line → Bool} (hp : ∀ x, p x = false) :
    (dropClean s core p).mem = s.mem ∧ (dropClean s core p).cohorts = s.cohorts ∧ (dropClean s core p).teams = s.teams := by
  unfold dropClean
  split
  · simp [hp, wakeCore]
  · exact ⟨rfl, rfl, rfl⟩

/-- A load of scratchpads, whatever its scope (R124): the bytes as they stand; memory, scratchpads and teams stay. -/
theorem loadPlaced_spad (sync : Option Scope) : ∃ s1, loadPlaced s h sync (ls.map (spadPlaced n off c k))
      = (s1, (spadBytes s n off c ls).map .known, []) ∧ s1.mem = s.mem ∧ s1.cohorts = s.cohorts ∧ s1.teams = s.teams := by
  unfold loadPlaced
  dsimp only
  rw [spots_spadPlaced_map]
  cases sync with
  | none =>
    refine ⟨s, ?_, rfl, rfl, rfl⟩
    show (noteImported (gather s h _ _ _).1 h [], (gather s h _ _ _).2) = _
    rw [gather_spad]
    rfl
  | some sc =>
    refine ⟨dropClean s h.core fun _ => false, ?_, dropClean_none s h.core fun _ => rfl⟩
    show (dropClean (noteImported (gather s h _ _ _).1 h []) h.core _, (gather s h _ _ _).2) = _
    rw [gather_spad]
    rfl

end

/-- A scratchpad load of a quiet team by lanes whose accesses fit: their bytes in lane order; memory and scratchpads stay. -/
theorem loadLanes_spad {s : State} {h : Here} {own : Bool} {al n : Nat} {f : Frame} {off c k : Nat → Nat} (hq : Quiet s h)
    (hf : Fits s h own al n f.on off c k) (str : Option Nat) (sync : Bool) (fin : Frame → List Byte → Writes) :
    ∃ s1, loadLanes h f s str (.spad own) al sync (f.on.map fun l => ⟨l, BitVec.ofNat 64 (off l), n⟩) fin
        = .done s1 (fin f (spadBytes s n off c f.on)) [] [] (touches (f.on.map fun l => ⟨l, BitVec.ofNat 64 (off l), n⟩) true false)
      ∧ SameBytes s s1 ∧ ∃ bs, teamNow s1 h = { h.tm with banks := bs } := by
  obtain ⟨hi, -, -, hflight, -⟩ := hq
  have hcount := countBanks_sameBytes s h.t (f.on.map (spadPlaced n off c k))
  obtain ⟨bs, hbanks⟩ := teamNow_countBanks hi (f.on.map (spadPlaced n off c k))
  obtain ⟨s1, hload, hmem, hcohorts, hteams⟩ :=
    loadPlaced_spad (countBanks s h.t (f.on.map (spadPlaced n off c k))) h n off c k f.on (beyondCore sync f.mode.sc)
  have hbytes : spadBytes (countBanks s h.t (f.on.map (spadPlaced n off c k))) n off c f.on = spadBytes s n off c f.on := by
    simp only [spadBytes, hcount.spads]
  refine ⟨s1, ?_, hcount.trans ⟨hmem, spadOf_congr hcohorts, by rw [hcohorts], by rw [hteams]⟩, bs, ?_⟩
  · rw [loadLanes, inOrder_noFlight hflight _ (by simp), placeAll_fits hf]
    simp only [hload, hbytes]
    simp [pickFault, finish]
  · rw [← hbanks, teamNow, teamNow, hteams]

/-! ## Stores -/

/-- A store of scratchpads, whatever its scope (R124): each lane's bytes in lane order, and no request. -/
theorem storePlaced_spad (s : State) (h : Here) (sync : Option Scope) (n : Nat) (off c k : Nat → Nat) (b : Nat → List Byte)
    (ls : List Nat) : storePlaced s h sync ((ls.map (spadPlaced n off c k)).map fun p => (p, b p.acc.lane))
      = (ls.foldl (fun s l => spadStore s (c l) (atAddrs (off l % 2 ^ 22) (b l))) s, []) := by
  have hspots : ((ls.map (spadPlaced n off c k)).map fun p => (p, b p.acc.lane)).flatMap (fun p => p.1.spots.zip p.2) = [] := by
    simp [List.flatMap_map]
  rw [storePlaced, hspots, List.map_map, List.foldl_map]
  rfl

/-- The bytes that the lanes of a list store into the scratchpad of cohort `q`, each with its offset there, in lane order. -/
def spadWrites (x c : Nat → Nat) (b : Nat → List Byte) (q : Nat) (ls : List Nat) : List (Nat × Byte) :=
  (ls.filter fun l => c l = q).flatMap fun l => atAddrs (x l) (b l)

/-- Stores of lanes into scratchpads: memory and teams stay, and each scratchpad takes its writes in lane order. -/
theorem spadStores_spec (x c : Nat → Nat) (b : Nat → List Byte) (ls : List Nat) {s : State}
    (hc : ∀ l ∈ ls, c l < s.cohorts.length) :
    let s1 := ls.foldl (fun s l => spadStore s (c l) (atAddrs (x l) (b l))) s
    s1.mem = s.mem ∧ s1.teams = s.teams ∧ ∀ q, spadOf s1 q = ssetAll (spadOf s q) (spadWrites x c b q ls) := by
  induction ls generalizing s with
  | nil => exact ⟨rfl, rfl, fun _ => rfl⟩
  | cons l ls ih =>
    obtain ⟨hmem, hteams, hlen⟩ := spadStore_frame s (c l) (atAddrs (x l) (b l))
    obtain ⟨hmem', hteams', hspad⟩ := ih (s := spadStore s (c l) (atAddrs (x l) (b l)))
      fun k hk => by rw [hlen]; exact hc k (List.mem_cons_of_mem _ hk)
    refine ⟨hmem'.trans hmem, hteams'.trans hteams, fun q => ?_⟩
    rw [List.foldl_cons, hspad q, spadOf_spadStore s (hc l List.mem_cons_self), spadWrites, spadWrites, List.filter_cons]
    by_cases hq : c l = q
    · simp [hq, ssetAll_append]
    · simp [hq]

theorem mem_atAddrs_range {pa : Nat} {bs : List Byte} {p : Nat × Byte} (hp : p ∈ atAddrs pa bs) :
    pa ≤ p.1 ∧ p.1 < pa + bs.length := by
  obtain ⟨j, hj, rfl⟩ := List.mem_mapIdx.mp hp
  exact ⟨Nat.le_add_right .., Nat.add_lt_add_left hj _⟩

section
variable {x c : Nat → Nat} {b : Nat → List Byte}

/-- Bytes that no lane stores are left alone. -/
theorem sget_spadWrites_ne {q p : Nat} {ls : List Nat} (hp : ∀ l ∈ ls, c l = q → ¬(x l ≤ p ∧ p < x l + (b l).length))
    (m : Sparse 8) : sget (ssetAll m (spadWrites x c b q ls)) p = sget m p := by
  refine sget_ssetAll_ne _ (fun w hw e => ?_) m
  obtain ⟨l, hl, hwl⟩ := List.mem_flatMap.mp hw
  obtain ⟨hmem, hq⟩ := List.mem_filter.mp hl
  have hrange := mem_atAddrs_range hwl
  rw [e] at hrange
  exact hp l hmem (of_decide_eq_true hq) hrange

/-- Of bytes that several lanes store at one offset, the last lane's stands. -/
theorem sget_spadWrites_last {l : Nat} {ls : List Nat} (hs : ls.Pairwise (· < ·)) (hl : l ∈ ls) {j : Nat} (hj : j < (b l).length)
    (hlast : ∀ k ∈ ls, l < k → c k = c l → ¬(x k ≤ x l + j ∧ x l + j < x k + (b k).length))
    {m : Sparse 8} (hm : swf m = true) : sget (ssetAll m (spadWrites x c b (c l) ls)) (x l + j) = (b l)[j] := by
  obtain ⟨before, later, rfl⟩ := List.append_of_mem hl
  have hlater : ∀ k ∈ later, l < k := (List.pairwise_cons.mp (List.pairwise_append.mp hs).2.1).1
  have hsplit : spadWrites x c b (c l) (before ++ l :: later)
      = spadWrites x c b (c l) before ++ (atAddrs (x l) (b l) ++ spadWrites x c b (c l) later) := by simp [spadWrites]
  rw [hsplit, ssetAll_append, ssetAll_append,
    sget_spadWrites_ne fun k hk => hlast k (List.mem_append_right _ (List.mem_cons_of_mem _ hk)) (hlater k hk)]
  exact sget_ssetAll_mem _ (nodup_map_fst_atAddrs _ _) (getElem_mem_atAddrs _ hj) (swf_ssetAll _ hm)

end

theorem sorted_on (f : Frame) : f.on.Pairwise (· < ·) := List.pairwise_lt_range.filter _

/-- An access of a form is made of whole elements, or is shorter than one (R122). -/
theorem element_dvd_formBytes (t : Ty) (m : MemForm) : min (formBytes t m) t.bytes ∣ formBytes t m := by
  have he : 2 ≤ t.bytes := by unfold Ty.bytes; split <;> decide
  cases m with
  | nat | sync => exact (Nat.min_self t.bytes).symm ▸ dvd_rfl
  | x2 => exact (Nat.min_eq_right (Nat.le_mul_of_pos_left t.bytes (Nat.zero_lt_succ 1))).symm ▸ dvd_mul_left ..
  | x4 => exact (Nat.min_eq_right (Nat.le_mul_of_pos_left t.bytes (Nat.zero_lt_succ 3))).symm ▸ dvd_mul_left ..
  | byte => exact (Nat.min_eq_left (Nat.le_of_succ_le he)).symm ▸ dvd_rfl
  | half => exact (Nat.min_eq_left he).symm ▸ dvd_rfl

/-- A lane stores the bytes of its form (R122). -/
theorem length_storeBytes (b : Src) (m : MemForm) (f : Frame) (l : Nat) : (storeBytes b m f l).length = formBytes f.mode.t m := by
  unfold storeBytes
  split <;> simp [Nat.div_mul_cancel (element_dvd_formBytes f.mode.t m)]

/-- A scratchpad store of a quiet team by lanes whose accesses fit, whatever its scope (R124): each scratchpad takes the bytes of its
lanes in lane order. -/
theorem storeLanes_spad {s : State} {h : Here} {own : Bool} {al n : Nat} {f : Frame} {off c k : Nat → Nat} (hq : Quiet s h)
    (hf : Fits s h own al n f.on off c k) (str : Option Nat) (sync : Bool) (b : Nat → List Byte) :
    ∃ s1, storeLanes h f s str (.spad own) al sync (f.on.map fun l => ⟨l, BitVec.ofNat 64 (off l), n⟩) b
        = .done s1 Writes.none [] [] (touches (f.on.map fun l => ⟨l, BitVec.ofNat 64 (off l), n⟩) false true)
      ∧ s1.mem = s.mem ∧ s1.teams.length = s.teams.length ∧ (∃ bs, teamNow s1 h = { h.tm with banks := bs })
      ∧ ∀ q, spadOf s1 q = ssetAll (spadOf s q) (spadWrites (fun l => off l % 2 ^ 22) c b q f.on) := by
  obtain ⟨hi, -, -, hflight, -⟩ := hq
  have hcount := countBanks_sameBytes s h.t (f.on.map (spadPlaced n off c k))
  obtain ⟨bs, hbanks⟩ := teamNow_countBanks hi (f.on.map (spadPlaced n off c k))
  obtain ⟨hmem, hteams, hspads⟩ := spadStores_spec (fun l => off l % 2 ^ 22) c b f.on
    (s := countBanks s h.t (f.on.map (spadPlaced n off c k))) fun l hl => by
      obtain ⟨-, -, -, -, hc⟩ := hf l hl
      rwa [hcount.cohorts]
  refine ⟨_, ?_, hmem.trans hcount.mem, by rw [hteams, hcount.teams], ⟨bs, ?_⟩, fun q => by rw [hspads, hcount.spads]⟩
  · rw [storeLanes, inOrder_noFlight hflight _ (outerScope_spad_ne_pod own _ sync f.mode.sc), placeAll_fits hf]
    simp only [storePlaced_spad]
    rfl
  · rw [← hbanks, teamNow, teamNow, hteams]

/-! ## The accesses as instructions -/

section
variable {s : State} {h : Here} {own sw : Bool} {a : Base} {o : Offset} {str : Stream} {m : MemForm} {c k : Nat → Nat} {i : Instr}

/-- A load of scratchpads through a job of R122. -/
theorem loadJob_spad {jf : Frame → Job} {d : Dst} (hq : Quiet s h) (hw : NoWatch h) (hok : RegistersOk s)
    (he : exec i s = issueJob i sw jf s) (hj : jf = loadJob (.spad own) d a o str m) (hr : Ready jf h.frame)
    (hf : Fits s h own (formAlign h.frame.mode.t m) (formBytes h.frame.mode.t m) h.frame.on (baseOff h.frame a o) c k) :
    ∃ t tm fl, exec i s = .next t ∧ t.teams[h.t]? = some tm ∧ GoesOn i h tm ∧ tm.inflight = [fl] ∧ fl.bytes = [] ∧ fl.need = []
      ∧ LaneResult h.frame (h.tm.regs.apply fl.writes) d (formRegs h.frame.mode.t m)
          (fun l => readNat (spadOf s (c l)) (baseOff h.frame a o l % 2 ^ 22) (formBytes h.frame.mode.t m))
      ∧ (∀ q, spadOf t q = spadOf s q) ∧ ∀ p, sget t.mem p = sget s.mem p := by
  obtain ⟨s1, hrun, hsame, bs, hbanks⟩ := loadLanes_spad hq hf (some str.val) (m == .sync) (loadFin d m)
  subst hj
  obtain ⟨t, tm, fl, hnext, ht, hgo, hflight, hbytes, hneed, hwrites, hmem, hcohorts⟩ :=
    issueJob_late (i := i) (sw := sw) hq hw hr rfl hrun (by rw [hsame.teams]; exact team_lt hq.1) (hbanks ▸ acted_banks hq bs)
  refine ⟨t, tm, fl, he.trans hnext, ht, hgo, hflight, hbytes, hneed, ?_, fun q => (spadOf_congr hcohorts q).trans (hsame.spads q),
    fun p => by rw [hmem, hsame.mem]⟩
  rw [hwrites, spadBytes, loadFin_flatMap fun _ _ => length_readBytes ..]
  exact laneResult_of (f := h.frame) (team_wf hq.1 hok)

/-- A store of scratchpads through a job of R122. -/
theorem storeJob_spad {jf : Frame → Job} {b : Src} (hq : Quiet s h) (hw : NoWatch h) (he : exec i s = issueJob i sw jf s)
    (hj : jf = storeJob (.spad own) b a o str m) (hr : Ready jf h.frame)
    (hf : Fits s h own (formAlign h.frame.mode.t m) (formBytes h.frame.mode.t m) h.frame.on (baseOff h.frame a o) c k)
    (hm : ∀ q, swf (spadOf s q) = true) :
    let n := formBytes h.frame.mode.t m
    let x (l : Nat) : Nat := baseOff h.frame a o l % 2 ^ 22
    ∃ t tm, exec i s = .next t ∧ t.teams[h.t]? = some tm ∧ GoesOn i h tm ∧ tm.inflight = []
      ∧ (∀ l ∈ h.frame.on, ∀ j, j < n →
          (∀ l' ∈ h.frame.on, l < l' → c l' = c l → ¬(x l' ≤ x l + j ∧ x l + j < x l' + n)) →
          some (sget (spadOf t (c l)) (x l + j)) = (storeBytes b m h.frame l)[j]?)
      ∧ (∀ q p, (∀ l ∈ h.frame.on, c l = q → ¬(x l ≤ p ∧ p < x l + n)) → sget (spadOf t q) p = sget (spadOf s q) p)
      ∧ ∀ p, sget t.mem p = sget s.mem p := by
  intro n x
  obtain ⟨s1, hrun, hmem1, hteams, ⟨bs, hbanks⟩, hspads⟩ :=
    storeLanes_spad hq hf (some str.val) (m == .sync) (storeBytes b m h.frame)
  subst hj
  obtain ⟨t, tm, hnext, ht, hgo, hflight, hmem, hcohorts⟩ := issueJob_stored (i := i) (sw := sw) hq hw hr rfl hrun
    (by rw [hteams]; exact team_lt hq.1) (hbanks ▸ acted_banks hq bs)
  have hspad (q : Nat) : spadOf t q = ssetAll (spadOf s q) (spadWrites x c (storeBytes b m h.frame) q h.frame.on) :=
    (spadOf_congr hcohorts q).trans (hspads q)
  have hlen := length_storeBytes b m h.frame
  refine ⟨t, tm, he.trans hnext, ht, hgo, hflight, fun l hl j hj hlast => ?_, fun q p hp => ?_, fun p => by rw [hmem, hmem1]⟩
  · have hj' : j < (storeBytes b m h.frame l).length := by rwa [hlen]
    rw [hspad, sget_spadWrites_last (sorted_on _) hl hj' (fun l' => by rw [hlen]; exact hlast l') (hm _),
      List.getElem?_eq_getElem hj']
  · rw [hspad]
    exact sget_spadWrites_ne (fun l => by rw [hlen]; exact hp l) _

end

/-- Settles O34: where they fit, the accesses of all lanes reach the scratchpads alone. A load finds the bytes as they stand; of the
stores the last lane's byte at each offset stands. -/
theorem scratchpadAccesses : Obligations.ScratchpadAccesses := by
  unfold Obligations.ScratchpadAccesses
  intro sw a o str m s h c k hq hw hok
  exact ⟨fun d => ⟨loadJob_spad hq hw hok rfl rfl, loadJob_spad hq hw hok rfl rfl⟩,
    fun b => ⟨storeJob_spad hq hw rfl rfl, storeJob_spad hq hw rfl rfl⟩⟩

end Sys2Proof.Proofs.Scratchpads
end

section
/-! Certificates for the family spec/05_instructions_core.md: control flow, MODE and regions (R72 to R86). -/
namespace Sys2Proof.Proofs.ControlFlow
open Sys2Proof Sys2Proof.Machine

/-! ## Ends and waits of a control instruction -/

section
variable {i : Instr} {s : State} {h : Here} {sw : Bool} {pc : W64}

theorem did_goTo (hi : issuing s = some h) (he : exec i s = goTo sw s h pc) : Did i s h sw h.tm pc 1 := did1 hi he rfl

/-- With a residue or an outstanding destination the team parks until all has drained. -/
theorem whenDrained_parks {k : Outcome State} (hw : h.tm.residues ≠ [] ∨ h.tm.claims ≠ []) :
    whenDrained s h k = .next (park s h h.tm .drained) := by
  have hne : ¬(h.tm.residues.isEmpty && h.tm.claims.isEmpty) = true := by
    simpa only [Bool.and_eq_true, List.isEmpty_iff, not_and_or] using hw
  rw [whenDrained, if_neg hne]

/-- The team at the end of an instruction that leaves it no claim: its marker changes nothing. -/
theorem endAt_noClaims (hlt : h.t < s.teams.length) (sw : Bool) (pc : W64) (cost : List (Nat × Nat)) {tm : Team}
    (hclaims : tm.claims = []) : ∃ age owed, (endAt s h sw pc cost tm).teams[h.t]? = some
      { tm with pc := pc, passes := tm.passes + BitVec.ofNat 64 (costTotal cost), age := age, owed := owed, banks := keepBanks owed tm.banks
                stalled := false, resumed := false } := by
  obtain ⟨age, owed, hend⟩ := endAt_team s h sw pc cost tm hlt
  exact ⟨age, owed, hend.trans (congrArg some (marker_noClaims _ _ hclaims))⟩

end

/-! ## NOP, BRA, CALL and JMPI (R75, R31) -/

theorem stackFull_iff (tm : Team) (n : Nat) : stackFull tm n = true ↔ 256 < tm.stack.length + n := decide_eq_true_iff

theorem exec_nop {s : State} {h : Here} (hi : issuing s = some h) (sw : Bool) : exec (.nop sw) s = goTo sw s h (pcNext h) := by
  show execNop sw s = _
  rw [execNop, onTeam_issuing hi]

theorem exec_bra {s : State} {h : Here} (hi : issuing s = some h) (sw : Bool) (off : BitVec 24) :
    exec (.bra sw off) s = goTo sw s h (target h off) := by
  show execBra sw off s = _
  rw [execBra, onTeam_issuing hi]

theorem exec_call {s : State} {h : Here} (hi : issuing s = some h) (sw : Bool) (off : BitVec 24) :
    exec (.call sw off) s = if stackFull h.tm 1 then stackFault s h
      else .next (endAt s h sw (target h off) onePass { h.tm with stack := ⟨.call, pcNext h, h.tm.active⟩ :: h.tm.stack }) := by
  show execCall sw off s = _
  rw [execCall, onTeam_issuing hi]

theorem exec_jmpi {s : State} {h : Here} (hq : Quiet s h) (sw : Bool) (a : USrc) :
    exec (.jmpi sw a) s = if (usrcVal h.frame a).toNat % 4 != 0 then raise s h 0x04 h.tm.active 0
      else goTo sw s h (usrcVal h.frame a) := by
  show execJmpi sw a s = _
  rw [execJmpi, onTeam_issuing hq.1, reading_noClaims hq.2.1]

/-- Settles O11: each jump ends at its target with its team otherwise unchanged, or raises its fault. -/
theorem jumps : Obligations.Jumps := by
  unfold Obligations.Jumps
  intro sw s h hi
  refine ⟨did_goTo hi (exec_nop hi sw), fun off => ⟨did_goTo hi (exec_bra hi sw off), fun hroom => ?_, fun hfull => ?_⟩,
    fun a hq => ⟨fun ha => ?_, fun ha => ?_⟩⟩
  · refine did1 hi ((exec_call hi sw off).trans (if_neg ?_)) rfl
    rw [stackFull_iff]; omega
  · refine (exec_call hi sw off).trans (if_pos ?_)
    rw [stackFull_iff]; omega
  · exact did_goTo hi ((exec_jmpi hq sw a).trans (if_neg (by simpa using ha)))
  · exact (exec_jmpi hq sw a).trans (if_pos (by simpa using ha))

/-! ## Branches on a predicate (R76, R77) -/

/-- The lanes of the active mask in which p XOR NEG holds. -/
theorem getLsbD_testLanes (f : Frame) (p : PReg) (neg : Bool) (l : Nat) :
    (testLanes f p neg).getLsbD l = (f.mask.getLsbD l && ((f.regs.pget p.val).getLsbD l != neg)) := by
  cases neg
  · simp [testLanes]
  · by_cases hl : l < 1024
    · simp [testLanes, hl]
    · simp [testLanes, BitVec.getLsbD_of_ge _ _ (Nat.le_of_not_lt hl)]

theorem testLanes_eq_mask_iff (f : Frame) (p : PReg) (neg : Bool) :
    testLanes f p neg = f.mask ↔ ∀ l ∈ lanesOf f.mask, ((f.regs.pget p.val).getLsbD l != neg) = true := by
  refine ⟨fun h l hl => ?_, fun h => BitVec.eq_of_getLsbD_eq fun l _ => ?_⟩
  · have hbit := getLsbD_testLanes f p neg l
    rw [h, mem_lanesOf.mp hl, Bool.true_and] at hbit
    exact hbit.symm
  · rw [getLsbD_testLanes]
    cases hm : f.mask.getLsbD l with
    | false => rfl
    | true => exact h l (mem_lanesOf.mpr hm)

theorem testLanes_eq_zero_iff (f : Frame) (p : PReg) (neg : Bool) :
    testLanes f p neg = 0 ↔ ∀ l ∈ lanesOf f.mask, ((f.regs.pget p.val).getLsbD l != neg) = false := by
  refine ⟨fun h l hl => ?_, fun h => BitVec.eq_of_getLsbD_eq fun l _ => ?_⟩
  · have hbit := getLsbD_testLanes f p neg l
    rw [h, mem_lanesOf.mp hl, Bool.true_and] at hbit
    simpa using hbit.symm
  · rw [getLsbD_testLanes]
    cases hm : f.mask.getLsbD l with
    | false => simp
    | true => simpa using h l (mem_lanesOf.mpr hm)

theorem exec_brall {s : State} {h : Here} (hq : Quiet s h) (sw : Bool) (p : PReg) (neg : Bool) (off : BitVec 20) :
    exec (.brall sw p neg off) s = goTo sw s h (if testLanes h.frame p neg = h.frame.mask then target h off else pcNext h) := by
  show execBrall sw p neg off s = _
  rw [execBrall, onTeam_issuing hq.1, reading_noClaims hq.2.1]

theorem exec_brany {s : State} {h : Here} (hq : Quiet s h) (sw : Bool) (p : PReg) (neg : Bool) (off : BitVec 20) :
    exec (.brany sw p neg off) s = goTo sw s h (if testLanes h.frame p neg = 0 then pcNext h else target h off) := by
  show execBrany sw p neg off s = _
  rw [execBrany, onTeam_issuing hq.1, reading_noClaims hq.2.1]

/-- Settles O12: the lanes in which the test holds are M where it holds in all of them, and none where it holds in none. -/
theorem uniformBranches : Obligations.UniformBranches := by
  unfold Obligations.UniformBranches
  intro sw p neg off s h hq
  have hall := testLanes_eq_mask_iff h.frame p neg
  have hnone := testLanes_eq_zero_iff h.frame p neg
  refine ⟨fun ht => did_goTo hq.1 ?_, fun ⟨l, hl, ht⟩ => did_goTo hq.1 ?_, fun ⟨l, hl, ht⟩ => did_goTo hq.1 ?_,
    fun ht => did_goTo hq.1 ?_⟩
  · rw [exec_brall hq, if_pos (hall.mpr ht)]; rfl
  · rw [exec_brall hq, if_neg fun e => Bool.false_ne_true (ht.symm.trans (hall.mp e l hl))]; rfl
  · rw [exec_brany hq, if_neg fun e => Bool.false_ne_true ((hnone.mp e l hl).symm.trans ht)]; rfl
  · rw [exec_brany hq, if_pos (hnone.mpr ht)]; rfl

/-- What BRD does for a quiet team (R77). -/
theorem exec_brd {s : State} {h : Here} (hq : Quiet s h) (sw : Bool) (p : PReg) (neg : Bool) (off : BitVec 20) (j : W32) :
    exec (.brd sw p neg off j) s =
      let t := testLanes h.frame p neg
      let e := h.tm.active &&& ~~~t
      let div : Entry := ⟨.div, target h j, h.tm.active⟩
      if stackFull h.tm 1 || (e != 0 && t != 0 && stackFull h.tm 2) then stackFault s h
      else if e = 0 then .next (endAt s h sw (target h off) onePass { h.tm with stack := div :: h.tm.stack })
      else if t = 0 then .next (endAt s h sw (nextPc h.tm.pc 1) onePass { h.tm with stack := div :: h.tm.stack })
      else .next (endAt s h sw (nextPc h.tm.pc 1) onePass
        { h.tm with stack := ⟨.pend, target h off, t⟩ :: div :: h.tm.stack, active := e }) := by
  show execBrd sw p neg off j s = _
  rw [execBrd, onTeam_issuing hq.1, reading_noClaims hq.2.1]; rfl

/-- Settles O13: by the lanes in which the test holds and those in which it does not, and the room of the stack. -/
theorem divergentBranch : Obligations.DivergentBranch := by
  unfold Obligations.DivergentBranch
  intro sw p neg off j s h hq
  have hexec := exec_brd hq sw p neg off j
  dsimp only at hexec ⊢
  simp only [Bool.or_eq_true, Bool.and_eq_true, bne_iff_ne, stackFull_iff] at hexec
  refine ⟨fun hroom he => ?_, fun hroom he ht => ?_, fun hroom he ht => ?_, fun hfull => ?_⟩
  · rw [if_neg (by simp only [he, ne_eq, not_true_eq_false, false_and, or_false]; omega), if_pos he] at hexec
    exact did1 hq.1 hexec rfl
  · rw [if_neg (by simp only [ht, ne_eq, not_true_eq_false, and_false, false_and, or_false]; omega), if_neg he, if_pos ht] at hexec
    exact did1 hq.1 hexec rfl
  · rw [if_neg (by omega), if_neg he, if_neg ht] at hexec
    exact did1 hq.1 hexec rfl
  · rw [if_pos (hfull.imp (by omega) fun ⟨hl, he, ht⟩ => ⟨⟨he, ht⟩, by omega⟩)] at hexec
    exact hexec

end Sys2Proof.Proofs.ControlFlow
end

section
/-! Certificates for the family spec/05_instructions_core.md: pops, MODE, regions and loops (R74, R78 to R86). -/
namespace Sys2Proof.Proofs.Pops
open Sys2Proof Sys2Proof.Machine Sys2Proof.Proofs.Scratchpads Sys2Proof.Proofs.ControlFlow

/-! ## Taking an entry (R74, R314) -/

theorem takeEntry_plain (tm : Team) {e : Entry} (hk : ∀ x, e.kind ≠ .trap x) :
    takeEntry tm e = { tm with active := e.mask &&& tm.live, pc := e.pc } := by
  unfold takeEntry
  split
  case h_1 x hx => exact absurd hx (hk x)
  all_goals rfl

theorem takeEntry_trap (tm : Team) {e : Entry} {x : TrapRec} (hk : e.kind = .trap x) :
    takeEntry tm e = { tm with active := e.mask &&& tm.live, pc := x.pc, mode := x.mode, regs := trapRegs tm.regs x, before := x.wake } := by
  unfold takeEntry
  rw [hk]

/-- What every entry gives its team, whatever its kind. -/
theorem takeEntry_common (tm : Team) (e : Entry) :
    (takeEntry tm e).active = e.mask &&& tm.live ∧ (takeEntry tm e).passes = tm.passes ∧ (takeEntry tm e).rdepth = tm.rdepth
      ∧ (takeEntry tm e).status = tm.status := by
  unfold takeEntry
  split <;> exact ⟨rfl, rfl, rfl, rfl⟩

/-- The uniform registers that a return from a handler restores (R314). -/
theorem trapRegs_restored {g : Regs} (hw : g.wf = true) (x : TrapRec) :
    (trapRegs g x).uget 28 = x.s28 ∧ (trapRegs g x).uget 29 = x.s29 ∧ (trapRegs g x).uget 30 = x.s30 ∧ (trapRegs g x).uget 31 = x.s31 := by
  have hu : swf g.u = true := by simp only [Regs.wf, Bool.and_eq_true] at hw; exact hw.1.1.2
  have hget (n : Nat) (y : W64) (hm : (n, y) ∈ [(28, x.s28), (29, x.s29), (30, x.s30), (31, x.s31)]) : (trapRegs g x).uget n = y :=
    sget_ssetAll_mem _ (by simp) hm hu
  exact ⟨hget 28 _ (by simp), hget 29 _ (by simp), hget 30 _ (by simp), hget 31 _ (by simp)⟩

theorem trapRegs_frame (g : Regs) (x : TrapRec) {k : Nat} (hk : k < 28 ∨ 31 < k) : (trapRegs g x).uget k = g.uget k := by
  refine sget_ssetAll_ne _ (fun p hp => ?_) g.u
  simp only [List.mem_cons, List.not_mem_nil, or_false] at hp
  rcases hp with rfl | rfl | rfl | rfl <;> dsimp only <;> omega

/-! ## Pops (R74, R78, R84) -/

/-- The region that a pop opens where it leaves the stack shallower than RDEPTH. -/
theorem closeRegion_eq (tm : Team) : closeRegion tm = if tm.stack.length < tm.rdepth then openRegion tm tm.pc else tm := rfl

theorem closeRegion_pc (tm : Team) : (closeRegion tm).pc = tm.pc := by
  rw [closeRegion_eq]; split <;> rfl

theorem closeRegion_passes (tm : Team) : (closeRegion tm).passes = tm.passes := by
  rw [closeRegion_eq]; split <;> rfl

theorem closeRegion_status (tm : Team) : (closeRegion tm).status = tm.status := by
  rw [closeRegion_eq]; split <;> rfl

/-- The top entry holds a live lane: it alone is popped. -/
theorem popTop_live {tm : Team} {e : Entry} (r : List Entry) (hlive : e.mask &&& tm.live ≠ 0) :
    popTop tm e r = { takeEntry tm e with stack := r } := by
  have hact : ¬(takeEntry tm e).active = 0 := by rw [(takeEntry_common tm e).1]; exact hlive
  simp only [popTop, hact, if_false]

/-- Entries without a live lane are discarded, and the first that holds one is taken. -/
theorem popLive_dead {tm : Team} {e : Entry} (r : List Entry) (hlive : e.mask &&& tm.live ≠ 0) :
    ∀ dead : List Entry, (∀ x ∈ dead, x.mask &&& tm.live = 0) → popLive (dead ++ e :: r) tm = { takeEntry tm e with stack := r }
  | [], _ => by rw [List.nil_append, popLive, if_neg hlive]
  | x :: dead, hd => by
    rw [List.cons_append, popLive, if_pos (hd x List.mem_cons_self)]
    exact popLive_dead r hlive dead fun y hy => hd y (List.mem_cons_of_mem _ hy)

section
variable {s : State} {h : Here}

/-- The end of a pop of a quiet team: nothing is drained, and no value gives way to the registers restored. -/
theorem endPop_quiet (hq : Quiet s h) (sw : Bool) (tm : Team) :
    endPop sw s h tm = .next (endAt s h sw tm.pc onePass (closeRegion tm)) := by
  obtain ⟨-, hclaims, hres, -, -⟩ := hq
  simp only [endPop, whenDrained_noClaims hclaims hres, ite_self, dropTrap, hclaims, List.isEmpty_nil, Bool.true_or, if_true,
    closeRegion_pc]

/-- A pop of a quiet team whose top entry holds a live lane. -/
theorem did_popTop (hq : Quiet s h) {i : Instr} {sw : Bool} {e : Entry} {r : List Entry} (hlive : e.mask &&& h.tm.live ≠ 0)
    (he : exec i s = endPop sw s h (popTop h.tm e r)) :
    Did i s h sw (closeRegion { takeEntry h.tm e with stack := r }) (takeEntry h.tm e).pc 1 := by
  rw [popTop_live r hlive, endPop_quiet hq] at he
  exact did1 hq.1 he ((closeRegion_passes _).trans (takeEntry_common h.tm e).2.1)

variable {e : Entry} {r : List Entry}

theorem exec_join (hi : issuing s = some h) (sw : Bool) (hst : h.tm.stack = e :: r) :
    exec (.join sw) s = if e.kind = .call then stackFault s h else endPop sw s h (popTop h.tm e r) := by
  show execJoin sw s = _
  rw [execJoin, onTeam_issuing hi, hst]

theorem exec_ret (hi : issuing s = some h) (sw : Bool) (hst : h.tm.stack = e :: r) :
    exec (.ret sw) s = if e.kind = .call then endPop sw s h (popTop h.tm e r) else stackFault s h := by
  show execRet sw s = _
  rw [execRet, onTeam_issuing hi, hst]

theorem exec_join_nil (hi : issuing s = some h) (sw : Bool) (hst : h.tm.stack = []) : exec (.join sw) s = stackFault s h := by
  show execJoin sw s = _
  rw [execJoin, onTeam_issuing hi, hst]

theorem exec_ret_nil (hi : issuing s = some h) (sw : Bool) (hst : h.tm.stack = []) : exec (.ret sw) s = stackFault s h := by
  show execRet sw s = _
  rw [execRet, onTeam_issuing hi, hst]

/-- JOIN takes an entry that is no CALL entry, and RET a CALL entry. -/
theorem did_join (hq : Quiet s h) (sw : Bool) (hst : h.tm.stack = e :: r) (hlive : e.mask &&& h.tm.live ≠ 0) (hk : e.kind ≠ .call) :
    Did (.join sw) s h sw (closeRegion { takeEntry h.tm e with stack := r }) (takeEntry h.tm e).pc 1 :=
  did_popTop hq hlive ((exec_join hq.1 sw hst).trans (if_neg hk))

theorem did_ret (hq : Quiet s h) (sw : Bool) (hst : h.tm.stack = e :: r) (hlive : e.mask &&& h.tm.live ≠ 0) (hk : e.kind = .call) :
    Did (.ret sw) s h sw (closeRegion { takeEntry h.tm e with stack := r }) (takeEntry h.tm e).pc 1 :=
  did_popTop hq hlive ((exec_ret hq.1 sw hst).trans (if_pos hk))

end

theorem kind_not_trap {e : Entry} (hk : (e.kind = .div ∨ e.kind = .pend) ∨ e.kind = .call) (x : TrapRec) : e.kind ≠ .trap x := by
  rcases hk with (hk | hk) | hk <;> rw [hk] <;> exact EntryKind.noConfusion

/-- Settles O14: what the entry gives its team, by its kind, and the region that a pop below RDEPTH opens. -/
theorem pops : Obligations.Pops := by
  unfold Obligations.Pops
  refine ⟨fun sw s h e r hq hst hlive => ?_, fun sw s h hi => ⟨fun hst => ⟨exec_join_nil hi sw hst, exec_ret_nil hi sw hst⟩,
    fun e r hst => ⟨fun hk => (exec_join hi sw hst).trans (if_pos hk), fun hk => (exec_ret hi sw hst).trans (if_neg hk)⟩⟩⟩
  have hplain (hk : (e.kind = .div ∨ e.kind = .pend) ∨ e.kind = .call) := takeEntry_plain h.tm (kind_not_trap hk)
  have hjoin := did_join hq sw hst hlive
  have hret := did_ret hq sw hst hlive
  have hnocall {k : EntryKind} (hk : e.kind = k) (hne : k ≠ .call) : e.kind ≠ .call := hk ▸ hne
  have htrap (x : TrapRec) (hk : e.kind = .trap x) := hjoin (hnocall hk EntryKind.noConfusion)
  refine ⟨fun hdeep => ⟨fun hk => ?_, fun hk => ?_, fun x hk => ?_⟩, fun hshallow => ⟨fun hk => ?_, fun hk => ?_, fun x hk => ?_⟩⟩
  · have hdid := hjoin (hk.elim (hnocall · EntryKind.noConfusion) (hnocall · EntryKind.noConfusion))
    rw [hplain (.inl hk), closeRegion_eq, if_neg (Nat.not_lt.mpr hdeep)] at hdid
    exact hdid
  · have hdid := hret hk
    rw [hplain (.inr hk), closeRegion_eq, if_neg (Nat.not_lt.mpr hdeep)] at hdid
    exact hdid
  · have hdid := htrap x hk
    rw [takeEntry_trap h.tm hk, closeRegion_eq, if_neg (Nat.not_lt.mpr hdeep)] at hdid
    exact ⟨_, hdid, fun hregs => trapRegs_restored (team_wf hq.1 hregs) x, fun k => trapRegs_frame _ x, rfl, rfl, rfl⟩
  · have hdid := hjoin (hk.elim (hnocall · EntryKind.noConfusion) (hnocall · EntryKind.noConfusion))
    rw [hplain (.inl hk), closeRegion_eq, if_pos hshallow] at hdid
    exact hdid
  · have hdid := hret hk
    rw [hplain (.inr hk), closeRegion_eq, if_pos hshallow] at hdid
    exact hdid
  · have hdid := htrap x hk
    rw [takeEntry_trap h.tm hk, closeRegion_eq, if_pos hshallow] at hdid
    exact ⟨_, hdid, fun hregs => trapRegs_restored (team_wf hq.1 hregs) x⟩

/-! ## LOOP (R79) -/

/-- A uniform register written by a team without claims. -/
theorem writeNow_ofU {s : State} {tm : Team} (hclaims : tm.claims = []) (r : Nat) (x : W64) :
    writeNow s tm (Writes.ofU r x) = (s, { tm with regs := tm.regs.uset r x }) := by
  have hflags : tm.flags ||| (Writes.ofU r x).flags = tm.flags := BitVec.or_zero
  rw [writeNow_noClaims hclaims, hflags, Regs.apply_ofU]

theorem exec_loop {s : State} {h : Here} (hq : Quiet s h) (sw : Bool) (c : SReg) (off : BitVec 16) :
    let x := h.tm.regs.uget c.val - 1
    exec (.loop sw c off) s = .next (endAt s h sw (if x = 0 then pcNext h else target h off) onePass
      { h.tm with regs := h.tm.regs.uset c.val x }) := by
  obtain ⟨hi, hclaims, -, -, -⟩ := hq
  show execLoop sw c off s = _
  rw [execLoop, onTeam_issuing hi, reading_noClaims hclaims]
  simp only [writeNow_ofU hclaims]
  rfl

/-- Settles O15: the counter is written and read back, and the branch is taken by its new value. -/
theorem loopCounts : Obligations.LoopCounts := by
  unfold Obligations.LoopCounts
  intro sw c off s h hq hregs
  exact ⟨_, did1 hq.1 (exec_loop hq sw c off) rfl, Regs.uget_uset (team_wf hq.1 hregs) _ _, fun k hk => Regs.uget_uset_ne _ _ hk,
    rfl, rfl, rfl, rfl⟩

/-! ## SETM (R86, R163) -/

section
variable {s : State} {h : Here} (hi : issuing s = some h) (sw : Bool)
include hi

/-- A write of MODE goes on at the next word, but one of DF while a residue remains. -/
theorem did_setm {f : ModeField} (hf : (∀ b, f ≠ .df b) ∨ h.tm.residues = []) :
    Did (.setm sw f) s h sw { h.tm with mode := h.tm.mode.set f } (h.tm.pc + 4) 1 := by
  refine did1 hi ?_ rfl
  show execSetm sw f s = _
  rw [execSetm, onTeam_issuing hi]
  cases f
  case df b =>
    have hres := hf.resolve_left fun hne => hne b rfl
    simp only [hres, List.isEmpty_nil, if_true]; rfl
  all_goals rfl

theorem exec_setm_df (b : Bool) (hres : h.tm.residues ≠ []) : exec (.setm sw (.df b)) s = .next (park s h h.tm .residues) := by
  show execSetm sw (.df b) s = _
  rw [execSetm, onTeam_issuing hi]
  simp only [List.isEmpty_iff, hres, if_false]

end

/-- Settles O16: each field has its own write, and that of DF waits for the residues. -/
theorem setmWritesOneField : Obligations.SetmWritesOneField := by
  unfold Obligations.SetmWritesOneField
  intro sw s h hi
  have hfree {f : ModeField} (hf : ∀ b, f ≠ .df b) := did_setm hi sw (f := f) (.inl hf)
  exact ⟨fun n p => hfree fun _ => ModeField.noConfusion, fun p => hfree fun _ => ModeField.noConfusion,
    fun t => hfree fun _ => ModeField.noConfusion, fun r => hfree fun _ => ModeField.noConfusion,
    fun b => hfree fun _ => ModeField.noConfusion, fun b => hfree fun _ => ModeField.noConfusion,
    fun c => hfree fun _ => ModeField.noConfusion, fun b hres => did_setm hi sw (.inr hres), exec_setm_df hi sw⟩

/-! ## REGION, DRAIN and YIELD (R82, R83, R85) -/

section
variable {s : State} {h : Here} (sw : Bool)

theorem exec_region (hi : issuing s = some h) :
    exec (.region sw) s = whenDrained s h (.next (endAt s h sw (pcNext h) onePass (openRegion h.tm (pcNext h)))) := by
  show execRegion sw s = _
  rw [execRegion, onTeam_issuing hi]

theorem exec_drain (hi : issuing s = some h) : exec (.drain sw) s = whenDrained s h (goTo sw s h (pcNext h)) := by
  show execDrain sw s = _
  rw [execDrain, onTeam_issuing hi]

/-- The end of an EXIT for the team that has left (R80). -/
def exitEnd (s : State) (h : Here) (sw : Bool) (tm : Team) : State :=
  if tm.status = .retired then teamRetired (endAt s h sw tm.pc onePass tm) h.t else endAt s h sw tm.pc onePass tm

theorem exec_exit (hi : issuing s = some h) : exec (.exit sw) s = whenDrained s h (.next (exitEnd s h sw (leave h.tm))) := by
  show execExit sw s = _
  rw [execExit, onTeam_issuing hi]
  rfl

theorem exec_yield (hi : issuing s = some h) :
    exec (.yield sw) s = if h.ga.state = .capturing then
        whenDrained s h (.next ((endAt s h sw (pcNext h) onePass h.tm).modTeam h.t fun tm => { tm with status := .blocked .preempted }))
      else goTo sw s h (pcNext h) := by
  show execYield sw s = _
  rw [execYield, onTeam_issuing hi]

/-- The team that a YIELD stops at a blocking point, with a pre-emption pending. -/
theorem yield_stops (hq : Quiet s h) : ∃ tm,
    ((endAt s h sw (pcNext h) onePass h.tm).modTeam h.t fun tm => { tm with status := .blocked .preempted }).teams[h.t]? = some tm
      ∧ tm.status = .blocked .preempted ∧ tm.pc = h.tm.pc + 4 ∧ tm.regs = h.tm.regs := by
  obtain ⟨age, owed, hend⟩ := endAt_noClaims (team_lt hq.1) sw (pcNext h) onePass (tm := h.tm) hq.2.1
  exact ⟨_, (modAt_same _ _ _).trans (congrArg _ hend), rfl, rfl, rfl⟩

end

/-- Settles O17: nothing is left to drain for a quiet team; else each of the three parks. -/
theorem regionDrainYield : Obligations.RegionDrainYield := by
  unfold Obligations.RegionDrainYield
  refine ⟨fun sw s h hq => ?_, fun sw s h i hi hw hcase => ?_⟩
  · have hdrained {k : Outcome State} : whenDrained s h k = k := whenDrained_noClaims hq.2.1 hq.2.2.1
    refine ⟨did1 hq.1 ((exec_region sw hq.1).trans hdrained) rfl, did_goTo hq.1 ((exec_drain sw hq.1).trans hdrained),
      fun hga => did_goTo hq.1 ((exec_yield sw hq.1).trans (if_neg hga)), fun hga => ?_⟩
    obtain ⟨tm, hteam⟩ := yield_stops sw hq
    exact ⟨_, tm, (exec_yield sw hq.1).trans ((if_pos hga).trans hdrained), hteam⟩
  · rcases hcase with rfl | rfl | rfl
    · exact (exec_drain sw hi).trans (whenDrained_parks hw)
    · exact (exec_region sw hi).trans (whenDrained_parks hw)
    · exact (exec_exit sw hi).trans (whenDrained_parks hw)

end Sys2Proof.Proofs.Pops
end

section
/-! Certificates for the family spec/05_instructions_core.md: what writes at home, write-backs and reports leave of the teams, the engines
and the records, and what write-backs leave in memory (R137, R170, R174). -/
namespace Sys2Proof.Proofs.WriteBacks
open Sys2Proof Sys2Proof.Machine Sys2Proof.Proofs.Scope

/-! ## Teams that are at most woken -/

/-- Every team is as it was, but for its wake flag. -/
def OnlyWakes (s s' : State) : Prop := ∀ (j : Nat) (tm : Team), s.teams[j]? = some tm → ∃ b, s'.teams[j]? = some { tm with wake := b }

theorem OnlyWakes.of_eq {s s' : State} (ht : s'.teams = s.teams) : OnlyWakes s s' := fun j tm h => ⟨tm.wake, by rw [ht, h]⟩

theorem OnlyWakes.trans {a b c : State} (h : OnlyWakes a b) (k : OnlyWakes b c) : OnlyWakes a c := fun j tm hj => by
  obtain ⟨x, hx⟩ := h j tm hj
  obtain ⟨y, hy⟩ := k j _ hx
  exact ⟨y, hy⟩

/-- Teams are changed one by one, and no more than woken. -/
theorem OnlyWakes.of_map {s s' : State} (f : Team → Team) (ht : s'.teams = s.teams.map f)
    (hf : ∀ tm, ∃ b, f tm = { tm with wake := b }) : OnlyWakes s s' := fun j tm hj => by
  obtain ⟨b, hb⟩ := hf tm
  exact ⟨b, by rw [ht, List.getElem?_map, hj, Option.map_some, hb]⟩

theorem OnlyWakes.wakeCore (s : State) (core : Nat) (ls : List Nat) : OnlyWakes s (wakeCore s core ls) := by
  unfold Machine.wakeCore
  split
  · exact .of_eq rfl
  · refine .of_map _ rfl fun tm => ?_
    split
    · split
      · exact ⟨true, rfl⟩
      · exact ⟨tm.wake, rfl⟩
    · exact ⟨tm.wake, rfl⟩

theorem OnlyWakes.dropClean (s : State) (core : Nat) (p : L1Line → Bool) : OnlyWakes s (dropClean s core p) := by
  unfold Machine.dropClean
  split
  · exact (OnlyWakes.of_eq (s := s) (s' := s.modCore core _) rfl).trans (.wakeCore _ _ _)
  · exact .of_eq rfl

theorem wakeCore_mem (s : State) (core : Nat) (ls : List Nat) : (wakeCore s core ls).mem = s.mem := by
  unfold Machine.wakeCore
  split <;> rfl

/-- Clean bytes that a core discards leave memory as it is. -/
theorem dropClean_mem (s : State) (core : Nat) (p : L1Line → Bool) : (dropClean s core p).mem = s.mem := by
  unfold Machine.dropClean
  split
  · exact wakeCore_mem _ _ _
  · rfl

/-! ## What writes at home leave alone -/

/-- A context without its FHEAD, which a write at home may change (R318). -/
def withoutHead (c : Ctx) : Ctx := { c with fhead := 0 }

/-- What writes at home and write-backs leave alone: the teams but for their wake flags, the engines, the queues, the configuration, and
the contexts but for FHEAD. -/
structure HomeFrame (s s' : State) : Prop where
  teams   : OnlyWakes s s'
  engines : ∀ e, s'.engine? e = s.engine? e
  queues  : s'.queues = s.queues
  cfg     : s'.cfg = s.cfg
  ctxs    : s'.ctxs.map withoutHead = s.ctxs.map withoutHead

theorem HomeFrame.refl (s : State) : HomeFrame s s := ⟨.of_eq rfl, fun _ => rfl, rfl, rfl, rfl⟩

theorem HomeFrame.trans {a b c : State} (h : HomeFrame a b) (k : HomeFrame b c) : HomeFrame a c :=
  ⟨h.teams.trans k.teams, fun e => (k.engines e).trans (h.engines e), k.queues.trans h.queues, k.cfg.trans h.cfg, k.ctxs.trans h.ctxs⟩

theorem engine_congr {s s' : State} (hc : s'.cores = s.cores) (e : EngRef) : s'.engine? e = s.engine? e := by
  cases e <;> simp only [State.engine?, hc]

/-- Nothing that the frame speaks of is another. -/
theorem HomeFrame.of_eq {s s' : State} (ht : s'.teams = s.teams) (hc : s'.cores = s.cores) (hq : s'.queues = s.queues)
    (hcfg : s'.cfg = s.cfg) (hx : s'.ctxs = s.ctxs) : HomeFrame s s' :=
  ⟨.of_eq ht, engine_congr hc, hq, hcfg, by rw [hx]⟩

theorem HomeFrame.foldl {α : Type} {f : State → α → State} (hf : ∀ s x, HomeFrame s (f s x)) (l : List α) :
    ∀ s, HomeFrame s (l.foldl f s) := by
  induction l with
  | nil => exact fun s => .refl s
  | cons x r ih => exact fun s => (hf s x).trans (ih (f s x))

theorem HomeFrame.foldl_fst {α β : Type} {f : State × β → α → State × β} (hf : ∀ p x, HomeFrame p.1 (f p x).1) (l : List α) :
    ∀ p, HomeFrame p.1 (l.foldl f p).1 := by
  induction l with
  | nil => exact fun p => .refl p.1
  | cons x r ih => exact fun p => (hf p x).trans (ih (f p x))

/-- A change of a core's caches. -/
theorem HomeFrame.modCore (s : State) (core : Nat) {f : Core → Core} (hf : ∀ c, (f c).carter = c.carter ∧ (f c).sifter = c.sifter
    ∧ (f c).settle = c.settle) : HomeFrame s (s.modCore core f) := by
  refine ⟨.of_eq rfl, fun e => ?_, rfl, rfl, rfl⟩
  have hcore (k : Nat) : ((s.modCore core f).cores[k]?).map (fun c => (c.carter, c.sifter, c.settle))
      = (s.cores[k]?).map fun c => (c.carter, c.sifter, c.settle) := by
    rw [State.modCore_cores, getElem?_modAt]
    split
    · cases s.cores[k]? with
      | none => rfl
      | some c => obtain ⟨h1, h2, h3⟩ := hf c; simp only [Option.map_some, h1, h2, h3]
    · rfl
  cases e with
  | matrix => rfl
  | copy k n =>
    have he := congrArg (fun o => o.bind fun (x : List Engine × List Engine × Engine) => x.1[n]?) (hcore k)
    rwa [Option.bind_map, Option.bind_map] at he
  | sift k n =>
    have he := congrArg (fun o => o.bind fun (x : List Engine × List Engine × Engine) => x.2.1[n]?) (hcore k)
    rwa [Option.bind_map, Option.bind_map] at he
  | settle k =>
    have he := congrArg (fun o => o.map fun (x : List Engine × List Engine × Engine) => x.2.2) (hcore k)
    rwa [Option.map_map, Option.map_map] at he

theorem HomeFrame.mscPut (s : State) (line : Nat) : HomeFrame s (mscPut s line) := .of_eq rfl rfl rfl rfl rfl
theorem HomeFrame.mscRead (s : State) (line : Nat) : HomeFrame s (mscRead s line) := .of_eq rfl rfl rfl rfl rfl
theorem HomeFrame.sendReq (s : State) (o : ReqOwner) (core key pa : Nat) (va : W64) (l : Mask) (fill sync : Bool) (n : Nat) (op : FabricOp) :
    HomeFrame s (sendReq s o core key pa va l fill sync n op).1 := .of_eq rfl rfl rfl rfl rfl

theorem HomeFrame.wakeLines (s : State) (ls : List Nat) : HomeFrame s (wakeLines s ls) := by
  refine ⟨.of_map _ rfl fun tm => ?_, engine_congr rfl, rfl, rfl, rfl⟩
  split
  · split
    · exact ⟨true, rfl⟩
    · exact ⟨tm.wake, rfl⟩
  · exact ⟨tm.wake, rfl⟩

theorem HomeFrame.homeWriteRaw (s : State) (key : Nat) (ws : List (Nat × Byte)) : HomeFrame s (homeWriteRaw s key ws) :=
  (HomeFrame.of_eq (s := s) (s' := { s with mem := ssetAll s.mem ws, lineKey := _ }) rfl rfl rfl rfl rfl).trans (.wakeLines _ _)

theorem HomeFrame.homeWriteExp (skip : Option Nat) (s : State) (key : Nat) (ws : List (Nat × Byte)) :
    HomeFrame s (homeWriteExp skip s key ws) :=
  (HomeFrame.homeWriteRaw s key ws).trans (.of_eq rfl rfl rfl rfl rfl)

theorem HomeFrame.noteTails (s : State) (ws : List (Nat × Byte)) : HomeFrame s (noteTails s ws) := by
  unfold Machine.noteTails
  split
  · exact .refl s
  · exact .of_eq rfl rfl rfl rfl rfl

theorem HomeFrame.noteHeads (s : State) (ws : List (Nat × Byte)) : HomeFrame s (noteHeads s ws) := by
  unfold Machine.noteHeads
  dsimp only
  split
  · refine ⟨.of_eq rfl, engine_congr rfl, rfl, rfl, ?_⟩
    rw [List.map_map]
    exact List.map_congr_left fun c _ => by dsimp only [Function.comp]; split <;> rfl
  · exact .refl s

theorem HomeFrame.homeWrite (s : State) (key : Nat) (ws : List (Nat × Byte)) : HomeFrame s (homeWrite s key ws) :=
  (((HomeFrame.homeWriteExp none s key _).trans (.foldl .mscPut _ _)).trans (.noteTails _ _)).trans
    (.noteHeads _ _)

theorem HomeFrame.dieWrite (s : State) (o : ReqOwner) (core key line : Nat) (who : List (Nat × Author)) (sync : Bool)
    (ws : List (Nat × Byte)) : HomeFrame s (dieWrite s o core key line who sync ws).1 := by
  unfold Machine.dieWrite
  dsimp only
  refine HomeFrame.trans ?_ (HomeFrame.foldl_fst (β := List Nat) (fun _ _ => by dsimp only; exact .sendReq _ _ _ _ _ _ _ _ _ _ _) _ (_, []))
  exact .of_eq rfl rfl rfl rfl rfl

theorem HomeFrame.writeBackPart (s : State) (core : Nat) (x : L1Line) (p : Nat → Bool) : HomeFrame s (writeBackPart s core x p) := by
  unfold Machine.writeBackPart
  split
  · exact .refl s
  · dsimp only
    split
    · exact (HomeFrame.foldl (fun _ _ => .dieWrite _ _ _ _ _ _ _ _) _ s).trans (.modCore _ _ fun c => by split <;> exact ⟨rfl, rfl, rfl⟩)
    · exact (HomeFrame.homeWrite _ _ _).trans (.modCore _ _ fun c => by split <;> exact ⟨rfl, rfl, rfl⟩)

theorem HomeFrame.writeBackWhere (s : State) (core : Nat) (p : L1Line → Bool) : HomeFrame s (writeBackWhere s core p) := by
  unfold Machine.writeBackWhere
  split
  · exact .foldl (fun _ _ => .writeBackPart _ _ _ _) _ s
  · exact .refl s

/-! ## Reports (R318) -/

theorem HomeFrame.clearTag (s : State) (t : Tag) (b : Option Nat) : HomeFrame s (clearTag s t b) := by
  unfold Machine.clearTag
  split
  · split
    · exact .refl s
    · exact (HomeFrame.writeBackWhere _ _ _).trans (.of_eq rfl rfl rfl rfl rfl)
  · exact .refl s

theorem HomeFrame.acquireEntry (s : State) (core : Option Nat) (pa : Nat) : HomeFrame s (acquireEntry s core pa) := by
  unfold Machine.acquireEntry
  refine HomeFrame.trans ?_ (.mscRead _ _)
  split
  · split
    · exact .clearTag _ _ _
    · exact .refl s
  · exact .refl s

theorem HomeFrame.walkClear (s : State) (core : Option Nat) (root : Nat) (va : W64) : HomeFrame s (walkClear s core root va) := by
  unfold Machine.walkClear
  dsimp only
  split
  · exact .acquireEntry _ _ _
  · split
    · exact (HomeFrame.acquireEntry _ _ _).trans (.acquireEntry _ _ _)
    · exact ((HomeFrame.acquireEntry _ _ _).trans (.acquireEntry _ _ _)).trans (.acquireEntry _ _ _)

theorem HomeFrame.devWalk (s : State) (root : Nat) (va : W64) (n : Nat) : HomeFrame s (devWalk s root va n) :=
  .foldl (fun s _ => by
    split
    · exact .walkClear _ _ _ _
    · exact .refl s) _ s

theorem HomeFrame.devWrite (s : State) (c : Ctx) (va : W64) (bs : List Byte) : HomeFrame s (devWrite s c va bs) := by
  unfold Machine.devWrite
  dsimp only
  split
  · exact (HomeFrame.devWalk _ _ _ _).trans (.homeWriteExp _ _ _ _)
  · exact .devWalk _ _ _ _

/-- A fault record leaves the teams alone, but may wake them. -/
theorem report_onlyWakes (s : State) (ctx : Nat) (body : List Byte) : OnlyWakes s (report s ctx body) := by
  unfold report
  split
  · exact .of_eq rfl
  · split
    · exact .of_eq rfl
    · split
      · exact (HomeFrame.devWrite _ _ _ _).teams.trans (.of_eq rfl)
      · exact .of_eq rfl

/-! ## Plain bytes of records (R5, R294, R318) -/

/-- A write none of whose bytes a record takes otherwise is performed as it stands. -/
theorem ignoreReserved_plain {b o : Nat} {reserved : Nat → Bool} {bits : Byte} {ws : List (Nat × Byte)} (ho : o < 128)
    (h : ∀ a ∈ ws.map (·.1), b ≤ a → a < b + 128 → reserved (a - b) = false ∧ a ≠ b + o) :
    ignoreReserved b reserved o bits ws = ws := by
  have hin {w : Nat × Byte} (hw : w ∈ ws) := h w.1 (List.mem_map.mpr ⟨w, hw, rfl⟩)
  have hfilter : ws.filter (fun w => !(decide (b ≤ w.1) && decide (w.1 < b + 128) && reserved (w.1 - b))) = ws := by
    refine List.filter_eq_self.mpr fun w hw => ?_
    by_cases hr : b ≤ w.1 ∧ w.1 < b + 128
    · simp [(hin hw hr.1 hr.2).1]
    · rcases not_and_or.mp hr with hlow | hhigh
      · simp [hlow]
      · simp [hhigh]
  rw [ignoreReserved, hfilter]
  refine (List.map_congr_left fun w hw => ?_).trans (List.map_id ws)
  rw [if_neg fun e => (hin hw (by omega) (by omega)).2 e]; rfl

/-- The addresses at which a write takes effect as it stands, whatever has been written at them. -/
theorem ctxWrite_plain {s : State} {as : List Nat} (hp : PlainAt s as) {c : Ctx} (hc : c ∈ s.ctxs) {ws : List (Nat × Byte)}
    (hws : ∀ a ∈ ws.map (·.1), a ∈ as) : ctxWrite c ws = ws := by
  unfold ctxWrite
  split
  · rfl
  · rename_i hd
    exact ignoreReserved_plain (by omega) fun a ha h1 h2 => hp.1 c hc hd a (hws a ha) h1 h2

section
variable {s : State} {as : List Nat} {q : Queue} {ws : List (Nat × Byte)}

theorem reservedWrite_plain (hws : ∀ a ∈ ws.map (·.1), a ∈ as)
    (h : ∀ a ∈ as, ∀ b, queueField s q 0 = some b → b ≤ a → a < b + 128 → queueReserved (a - b) = false ∧ a ≠ b + 0x3C) :
    reservedWrite s q ws = ws := by
  unfold reservedWrite
  split
  · rfl
  · rename_i b hb
    exact ignoreReserved_plain (by omega) fun a ha h1 h2 => h a (hws a ha) b hb h1 h2

theorem qflagsWrite_plain (hws : ∀ a ∈ ws.map (·.1), a ∈ as)
    (h : ∀ a ∈ as, ∀ b, queueField s q 0x0C = some b → ¬(b ≤ a ∧ a < b + 4)) : qflagsWrite s q ws = ws := by
  unfold qflagsWrite
  split
  · rfl
  · rename_i pa hpa
    have hno {w : Nat × Byte} (hw : w ∈ ws) : ¬(pa ≤ w.1 ∧ w.1 < pa + 4) := h w.1 (hws w.1 (List.mem_map.mpr ⟨w, hw, rfl⟩)) pa hpa
    split
    · refine List.filter_eq_self.mpr fun w hw => ?_
      have := hno hw
      simp only [Bool.not_eq_true', Bool.and_eq_false_iff, decide_eq_false_iff_not]
      omega
    · rename_i b hfind
      have hmem := List.mem_of_find?_eq_some hfind
      have hat := List.find?_some hfind
      simp only [decide_eq_true_eq] at hat
      exact absurd ⟨by omega, by omega⟩ (hno hmem)

end

/-- The state has the records of another, and its memory but at some addresses. -/
structure SameRecords (as : List Nat) (s s' : State) : Prop where
  frame : HomeFrame s s'
  memory : ∀ a, a ∉ as → sget s'.mem a = sget s.mem a

theorem ctx_root {s s' : State} (hx : s'.ctxs.map withoutHead = s.ctxs.map withoutHead) (id : Nat) :
    (s'.ctx? id).map Ctx.ptroot = (s.ctx? id).map Ctx.ptroot := by
  have hfind (l : List Ctx) : (l.find? fun c => c.id = id).map Ctx.ptroot = ((l.map withoutHead).find? fun c => c.id = id).map Ctx.ptroot := by
    rw [List.find?_map, Option.map_map]; rfl
  rw [State.ctx?, State.ctx?, hfind, hx, ← hfind]

/-- A queue's fields lie where they lay, in a state with the same records and the same memory. -/
theorem queueField_frame {s s' : State} (h : HomeFrame s s') (q : Queue) (off : Nat) :
    queueField s' q off = queueField { s with mem := s'.mem } q off := by
  have hnode (e : Nat) : nodeOk s' e = nodeOk { s with mem := s'.mem } e := by simp only [nodeOk, inHbm, h.cfg]
  have hleaf (e : Nat) (large : Bool) : leafOk s' e large = leafOk { s with mem := s'.mem } e large := by
    simp only [leafOk, inHbm, h.cfg]
  have hwalk (root : Nat) (va : W64) : walk s' root va = walk { s with mem := s'.mem } root va := by
    simp only [walk, hnode, hleaf]
  have hroot := ctx_root h.ctxs q.ctx
  show ((s'.ctx? q.ctx).bind _) = (s.ctx? q.ctx).bind _
  cases hc' : s'.ctx? q.ctx <;> cases hc : s.ctx? q.ctx <;> simp only [hc, hc', Option.map_none, Option.map_some, reduceCtorEq,
    Option.some.injEq] at hroot
  · rfl
  · simp only [Option.bind_some, devXlat, hroot, hwalk]

/-- Plain addresses stay plain, whatever has been written at them. -/
theorem recordWrite_plain {s s' : State} {as : List Nat} (hp : PlainAt s as) (hr : SameRecords as s s') {ws : List (Nat × Byte)}
    (hws : ∀ a ∈ ws.map (·.1), a ∈ as) : recordWrite s' ws = ws := by
  have hctxs : ∀ l : List Ctx, (∀ c ∈ l, c ∈ s'.ctxs) → l.foldl (fun ws c => ctxWrite c ws) ws = ws := by
    intro l hl
    refine List.foldlRecOn l _ (motive := fun x => x = ws) rfl fun x hx c hc => ?_
    subst hx
    have hmem : withoutHead c ∈ s.ctxs.map withoutHead := hr.frame.ctxs ▸ List.mem_map_of_mem (hl c hc)
    obtain ⟨c0, hc0, he⟩ := List.mem_map.mp hmem
    have hsame : ctxWrite c x = ctxWrite c0 x := by
      have hstate : c0.state = c.state := (congrArg Ctx.state he :)
      have hat : c0.recAt = c.recAt := (congrArg Ctx.recAt he :)
      rw [ctxWrite, ctxWrite, hstate, hat]
    exact hsame.trans (ctxWrite_plain hp hc0 hws)
  have hqueues : ∀ l : List Queue, (∀ q ∈ l, q ∈ s'.queues) →
      l.foldl (fun ws q => qflagsWrite s' q (reservedWrite s' q ws)) ws = ws := by
    intro l hl
    refine List.foldlRecOn l _ (motive := fun x => x = ws) rfl fun x hx q hq => ?_
    subst hx
    have hplain := hp.2 s'.mem hr.memory q (hr.frame.queues ▸ hl q hq)
    rw [reservedWrite_plain hws fun a ha => by rw [queueField_frame hr.frame]; exact (hplain a ha).1,
      qflagsWrite_plain hws fun a ha => by rw [queueField_frame hr.frame]; exact (hplain a ha).2]
  rw [recordWrite, hctxs _ fun _ h => h, hqueues _ fun _ h => h]

/-! ## What write-backs leave in memory (R170, R174) -/

/-- Of writes that agree where they meet, each is read back from a canonical table. -/
theorem sget_ssetAll_agree {w : Nat} {k : Nat} {x : BitVec w} (ws : List (Nat × BitVec w)) (hagree : ∀ q ∈ ws, q.1 = k → q.2 = x)
    (hmem : (k, x) ∈ ws) : ∀ {m : Sparse w}, swf m = true → sget (ssetAll m ws) k = x := by
  induction ws with
  | nil => cases hmem
  | cons p t ih =>
    intro m hm
    rw [ssetAll_cons]
    by_cases ht : (k, x) ∈ t
    · exact ih (fun q hq => hagree q (List.mem_cons_of_mem _ hq)) ht (swf_sset p.1 p.2 hm)
    · have hp : p = (k, x) := ((List.mem_cons.mp hmem).resolve_right ht).symm
      rw [sget_ssetAll_ne t fun q hq e => ht (by
        have hx := hagree q (List.mem_cons_of_mem _ hq) e
        rw [← hx, ← e]; exact hq), hp, sget_sset_same x hm]

/-- The bytes of a local line that its write-back takes to memory. -/
def localDirty (x : L1Line) : List (Nat × Byte) := if importedLine x.line then [] else x.dirty.map fun q => (x.line * 128 + q.1, q.2)

theorem localDirty_imported {x : L1Line} (hi : importedLine x.line = true) : localDirty x = [] := if_pos hi
theorem localDirty_local {x : L1Line} (hi : importedLine x.line = false) :
    localDirty x = x.dirty.map fun q => (x.line * 128 + q.1, q.2) := by simp [localDirty, hi]

theorem foldl_mscPut_mem (ls : List Nat) : ∀ s : State, (ls.foldl mscPut s).mem = s.mem := by
  induction ls with
  | nil => exact fun _ => rfl
  | cons l r ih => exact fun s => ih (mscPut s l)

theorem noteTails_mem (s : State) (ws : List (Nat × Byte)) : (noteTails s ws).mem = s.mem := by
  unfold noteTails; split <;> rfl

theorem noteHeads_mem (s : State) (ws : List (Nat × Byte)) : (noteHeads s ws).mem = s.mem := by
  unfold noteHeads; dsimp only; split <;> rfl

theorem homeWrite_mem (s : State) (key : Nat) (ws : List (Nat × Byte)) : (homeWrite s key ws).mem = ssetAll s.mem (recordWrite s ws) := by
  simp only [homeWrite, homeWriteFrom, noteHeads_mem, noteTails_mem, foldl_mscPut_mem]
  rfl

theorem dieWrite_mem (s : State) (o : ReqOwner) (core key line : Nat) (who : List (Nat × Author)) (sync : Bool) (ws : List (Nat × Byte)) :
    (dieWrite s o core key line who sync ws).1.mem = s.mem := by
  unfold dieWrite
  dsimp only
  exact List.foldlRecOn _ _ (motive := fun p : State × List Nat => p.1.mem = s.mem) rfl fun p hp r _ => hp

theorem forwardLine_mem (s : State) (core : Nat) (x : L1Line) (ws : List (Nat × Byte)) : (forwardLine s core x ws).mem = s.mem := by
  unfold forwardLine
  exact List.foldlRecOn _ _ (motive := fun t : State => t.mem = s.mem) rfl fun t ht k _ => (dieWrite_mem _ _ _ _ _ _ _ _).trans ht

/-- The write-back of a line writes its dirty bytes to their home, as the records there take them. -/
theorem writeBackLine_mem (s : State) (core : Nat) (x : L1Line) (hplain : recordWrite s (localDirty x) = localDirty x) :
    (writeBackLine s core x).mem = ssetAll s.mem (localDirty x) := by
  have hall : x.dirty.filter (fun _ => true) = x.dirty := List.filter_eq_self.mpr fun _ _ => rfl
  rw [writeBackLine, writeBackPart, hall]
  split
  · rename_i hnil
    have hnone : localDirty x = [] := by
      cases hi : importedLine x.line
      · rw [localDirty_local hi, hnil, List.map_nil]
      · exact localDirty_imported hi
    rw [hnone]; rfl
  · cases hi : importedLine x.line
    · rw [localDirty_local hi] at hplain ⊢
      show (homeWrite s _ _).mem = _
      rw [homeWrite_mem, hplain]
    · rw [localDirty_imported hi]
      exact forwardLine_mem _ _ _ _

section
variable {s : State} {d : List (Nat × Byte)} (hone : OneEach d) (hp : PlainAt s (d.map (·.1))) (core : Nat)
include hone hp

/-- Write-backs of lines whose dirty bytes agree: memory holds them, and elsewhere what it held. -/
theorem foldl_writeBackLine (ls : List L1Line) (hd : ∀ x ∈ ls, ∀ u ∈ localDirty x, u ∈ d) {t : State}
    (hr : SameRecords (d.map (·.1)) s t) (ht : MemoryOk t) :
    (∀ x ∈ ls, ∀ u ∈ localDirty x, sget (ls.foldl (fun s x => writeBackLine s core x) t).mem u.1 = u.2)
      ∧ ∀ a, (∀ x ∈ ls, ∀ u ∈ localDirty x, u.1 ≠ a) → sget (ls.foldl (fun s x => writeBackLine s core x) t).mem a = sget t.mem a := by
  induction ls generalizing t with
  | nil => exact ⟨fun _ hx => absurd hx List.not_mem_nil, fun _ _ => rfl⟩
  | cons x ls ih =>
    have hx := hd x List.mem_cons_self
    have hkeys : ∀ a ∈ (localDirty x).map (·.1), a ∈ d.map (·.1) := fun a ha => by
      obtain ⟨u, hu, rfl⟩ := List.mem_map.mp ha
      exact List.mem_map_of_mem (hx u hu)
    have hmem := writeBackLine_mem t core x (recordWrite_plain hp hr hkeys)
    have hr' : SameRecords (d.map (·.1)) s (writeBackLine t core x) := by
      refine ⟨hr.frame.trans (.writeBackPart _ _ _ _), fun a ha => ?_⟩
      rw [hmem, sget_ssetAll_ne _ fun u hu e => ha (hkeys a (List.mem_map.mpr ⟨u, hu, e⟩)), hr.memory a ha]
    obtain ⟨hin, hout⟩ := ih (fun y hy => hd y (List.mem_cons_of_mem _ hy)) hr' ((Keeps.writeBackLine t core x).memory ht)
    refine ⟨fun y hy u hu => ?_, fun a ha => ?_⟩
    · by_cases hlater : ∃ z ∈ ls, ∃ v ∈ localDirty z, v.1 = u.1
      · obtain ⟨z, hz, v, hv, he⟩ := hlater
        have hval := hone v (hd z (List.mem_cons_of_mem _ hz) v hv) u (hd y hy u hu) he
        rw [List.foldl_cons, ← he, hin z hz v hv, hval]
      · have hno : ∀ z ∈ ls, ∀ v ∈ localDirty z, v.1 ≠ u.1 := fun z hz v hv e => hlater ⟨z, hz, v, hv, e⟩
        rcases List.mem_cons.mp hy with rfl | hy
        · rw [List.foldl_cons, hout u.1 hno, hmem]
          exact sget_ssetAll_agree _ (fun v hv e => hone v (hx v hv) u (hx u hu) e) hu ht
        · exact absurd rfl (hno y hy u hu)
    · rw [List.foldl_cons, hout a fun y hy => ha y (List.mem_cons_of_mem _ hy), hmem]
      exact sget_ssetAll_ne _ (fun u hu => ha x List.mem_cons_self u hu) _

end

theorem mem_insertBy {α : Type} (le : α → α → Bool) (x y : α) : ∀ l : List α, y ∈ insertBy le x l ↔ y = x ∨ y ∈ l
  | [] => by simp [insertBy]
  | z :: r => by
    rw [insertBy]
    split
    · exact List.mem_cons
    · rw [List.mem_cons, mem_insertBy le x y r, List.mem_cons]; tauto

theorem mem_sortBy {α : Type} (le : α → α → Bool) (y : α) : ∀ l : List α, y ∈ sortBy le l ↔ y ∈ l
  | [] => Iff.rfl
  | x :: r => by rw [sortBy, mem_insertBy, mem_sortBy le y r, List.mem_cons]

/-- The byte of an address after bytes that agree have reached memory. -/
theorem byteOver_mem {d : List (Nat × Byte)} (hone : OneEach d) (m : Sparse 8) {u : Nat × Byte} (hu : u ∈ d) : byteOver d m u.1 = u.2 := by
  unfold byteOver
  cases hf : d.find? fun p => p.1 = u.1 with
  | none => exact absurd (List.find?_eq_none.mp hf u hu) (by simp)
  | some v => exact hone v (List.mem_of_find?_eq_some hf) u hu (by simpa using List.find?_some hf)

theorem byteOver_not_mem {d : List (Nat × Byte)} (m : Sparse 8) {a : Nat} (ha : ∀ u ∈ d, u.1 ≠ a) : byteOver d m a = sget m a := by
  have hf : d.find? (fun p => p.1 = a) = none := List.find?_eq_none.mpr fun u hu => by simpa using ha u hu
  rw [byteOver, hf]; rfl

/-- The dirty bytes that a condition picks in a core's L1 reach their homes, and no other byte of memory changes. -/
theorem writeBackWhere_reached {s : State} (core : Nat) (p : L1Line → Bool) (hok : MemoryOk s) (hone : OneEach (dirtyOf s core p))
    (hp : PlainAt s ((dirtyOf s core p).map (·.1))) : Reached (dirtyOf s core p) s.mem (writeBackWhere s core p).mem := by
  cases hc : s.cores[core]? with
  | none => intro a; simp [writeBackWhere, dirtyOf, hc, byteOver]
  | some c =>
    let ls := sortBy (fun a b => decide (a.line ≤ b.line)) (c.l1.filter fun x => p x && !x.dirty.isEmpty)
    have hls (u : Nat × Byte) : u ∈ dirtyOf s core p ↔ ∃ x ∈ ls, u ∈ localDirty x := by
      simp only [dirtyOf, hc, Option.map_some, Option.getD_some, List.mem_flatMap, List.mem_filter, Bool.and_eq_true, Bool.not_eq_true', ls,
        mem_sortBy]
      refine exists_congr fun x => ⟨fun ⟨⟨hx, hpx, hi⟩, hu⟩ => ⟨⟨hx, hpx, ?_⟩, (localDirty_local hi).symm ▸ hu⟩, fun ⟨⟨hx, hpx, _⟩, hu⟩ => ?_⟩
      · obtain ⟨v, hv, -⟩ := List.mem_map.mp hu
        exact List.isEmpty_eq_false_iff.mpr (List.ne_nil_of_mem hv)
      · cases hi : importedLine x.line with
        | true => rw [localDirty_imported hi] at hu; cases hu
        | false => exact ⟨⟨hx, hpx, rfl⟩, localDirty_local hi ▸ hu⟩
    have hfold : writeBackWhere s core p = ls.foldl (fun s x => writeBackLine s core x) s := by rw [writeBackWhere, hc]
    obtain ⟨hin, hout⟩ := foldl_writeBackLine hone hp core ls (fun x hx u hu => (hls u).mpr ⟨x, hx, hu⟩)
      ⟨.refl s, fun _ _ => rfl⟩ hok
    intro a
    rw [hfold]
    by_cases ha : ∃ u ∈ dirtyOf s core p, u.1 = a
    · obtain ⟨u, hu, rfl⟩ := ha
      obtain ⟨x, hx, hux⟩ := (hls u).mp hu
      rw [hin x hx u hux, byteOver_mem hone _ hu]
    · rw [hout a fun x hx u hu e => ha ⟨u, (hls u).mpr ⟨x, hx, hu⟩, e⟩, byteOver_not_mem _ fun u hu e => ha ⟨u, hu, e⟩]

end Sys2Proof.Proofs.WriteBacks
end

section
/-! Certificates for the family spec/05_instructions_core.md: EXIT and TRAP (R80, R81, R309, R313). -/
namespace Sys2Proof.Proofs.Leaving
open Sys2Proof Sys2Proof.Machine Sys2Proof.Proofs.Scratchpads Sys2Proof.Proofs.ControlFlow Sys2Proof.Proofs.Pops Sys2Proof.Proofs.WriteBacks

/-! ## What barriers and gangs leave of teams and memory -/

/-- The teams and memory are the same. -/
structure SameTeams (s s' : State) : Prop where
  teams  : s'.teams = s.teams
  memory : s'.mem = s.mem

theorem SameTeams.refl (s : State) : SameTeams s s := ⟨rfl, rfl⟩
theorem SameTeams.trans {a b c : State} (h : SameTeams a b) (k : SameTeams b c) : SameTeams a c :=
  ⟨k.teams.trans h.teams, k.memory.trans h.memory⟩

theorem SameTeams.foldl {α : Type} {f : State → α → State} (hf : ∀ s x, SameTeams s (f s x)) (l : List α) :
    ∀ s, SameTeams s (l.foldl f s) := by
  induction l with
  | nil => exact fun s => .refl s
  | cons x r ih => exact fun s => (hf s x).trans (ih (f s x))

theorem SameTeams.modBar (s : State) (b : BarRef) (f : Bar → Bar) : SameTeams s (s.modBar b f) := by
  unfold State.modBar
  split <;> exact ⟨rfl, rfl⟩

theorem SameTeams.settleBar (s : State) (b : BarRef) : SameTeams s (settleBar s b) := by
  unfold Machine.settleBar
  split
  · split
    · split <;> exact .modBar _ _ _
    · exact .refl s
  · exact .refl s

theorem SameTeams.countArrival (s : State) (b : BarRef) (t : Nat) (g : W32) : SameTeams s (countArrival s b t g) := by
  unfold Machine.countArrival
  split
  · split
    · exact .refl s
    · exact (SameTeams.modBar _ _ _).trans (.settleBar _ _)
  · exact .refl s

theorem SameTeams.loseMember (s : State) (u : BarUnit) : SameTeams s (loseMember s u) := by
  refine .foldl (fun s i => ?_) _ s
  dsimp only
  split
  · split
    · exact (SameTeams.modBar _ _ _).trans (.settleBar _ _)
    · exact .settleBar _ _
  · exact .refl s

theorem SameTeams.ctxLeft (s : State) (ctx : Nat) : SameTeams s (ctxLeft s ctx) := by
  unfold Machine.ctxLeft
  split
  · exact .refl s
  · exact ⟨rfl, rfl⟩

theorem SameTeams.gangRetired (s : State) (g : Nat) : SameTeams s (gangRetired s g) := by
  unfold Machine.gangRetired
  split
  · split
    · exact .refl s
    · refine SameTeams.trans (SameTeams.trans ?_ (.foldl .loseMember _ _)) (.ctxLeft _ _)
      exact ⟨rfl, rfl⟩
  · exact .refl s

/-- A retirement changes barriers, gangs and contexts, but no team and no memory. -/
theorem SameTeams.teamRetired (s : State) (t : Nat) : SameTeams s (teamRetired s t) := by
  unfold Machine.teamRetired
  split
  · split
    · exact (((SameTeams.loseMember _ _).trans (.loseMember _ _)).trans
        (.foldl (fun _ _ => .foldl (fun _ _ => .settleBar _ _) _ _) _ _)).trans (.gangRetired _ _)
    · exact .refl s
  · exact .refl s

/-- A posted update changes rings and barriers; one that its ring refuses has the effect given. -/
theorem SameTeams.actPost (s : State) (t : Nat) (p : Post) : SameTeams s (actPost s t p s) := by
  unfold Machine.actPost
  dsimp only
  split
  · split
    · exact ⟨rfl, rfl⟩
    · exact .refl s
    · exact .refl s
  · split
    · exact ⟨rfl, rfl⟩
    · exact .refl s
    · exact .refl s
  · exact .countArrival _ _ _ _

/-! ## EXIT (R74, R80) -/

/-- Where no lane is left alive the team retires. -/
theorem leave_dead {tm : Team} (hdead : tm.live &&& ~~~tm.active = 0) :
    leave tm = { tm with live := 0, active := 0, status := .retired, stack := [] } := by
  simp only [leave, retireIfDead, hdead, if_true]

/-- Where a lane is left alive, entries are discarded until one holds a live lane, which is taken; below RDEPTH that opens a region. -/
theorem leave_live {tm : Team} {dead : List Entry} {e : Entry} {r : List Entry} (hlive : tm.live &&& ~~~tm.active ≠ 0)
    (hst : tm.stack = dead ++ e :: r) (hdead : ∀ x ∈ dead, x.mask &&& (tm.live &&& ~~~tm.active) = 0)
    (he : e.mask &&& (tm.live &&& ~~~tm.active) ≠ 0) :
    leave tm = closeRegion { takeEntry { tm with live := tm.live &&& ~~~tm.active, active := 0 } e with stack := r } := by
  rw [← popLive_dead (tm := { tm with live := tm.live &&& ~~~tm.active, active := 0 }) r he dead hdead, ← hst]
  simp only [leave, hlive, if_false]

section
variable {s : State} {h : Here} (hq : Quiet s h) (sw : Bool)
include hq

theorem exec_exit_quiet : exec (.exit sw) s = .next (exitEnd s h sw (leave h.tm)) :=
  (exec_exit sw hq.1).trans (whenDrained_noClaims hq.2.1 hq.2.2.1)

theorem quiet_running : h.tm.status = .running ∧ h.tm.before = none := by
  obtain ⟨tm, -, htm, -⟩ := issuing_some hq.1
  rw [htm]
  exact ⟨rfl, rfl⟩

/-- The team that has left with its last lanes. -/
theorem exit_retires (hdead : h.tm.live &&& ~~~h.tm.active = 0) : ∃ t tm, exec (.exit sw) s = .next t ∧ t.teams[h.t]? = some tm
    ∧ tm.status = .retired ∧ tm.live = 0 ∧ tm.active = 0 ∧ tm.stack = [] ∧ tm.regs = h.tm.regs ∧ t.mem = s.mem := by
  obtain ⟨age, owed, hend⟩ := endAt_noClaims (team_lt hq.1) sw h.tm.pc onePass (tm := leave h.tm) (by rw [leave_dead hdead]; exact hq.2.1)
  have hsame := SameTeams.teamRetired (endAt s h sw h.tm.pc onePass (leave h.tm)) h.t
  have hret : exitEnd s h sw (leave h.tm) = teamRetired (endAt s h sw h.tm.pc onePass (leave h.tm)) h.t := by
    rw [leave_dead hdead]; rfl
  refine ⟨_, _, (exec_exit_quiet hq sw).trans (congrArg _ hret), (congrArg (·[h.t]?) hsame.teams).trans hend, ?_⟩
  have hmem : (teamRetired (endAt s h sw h.tm.pc onePass (leave h.tm)) h.t).mem = s.mem := hsame.memory
  rw [leave_dead hdead] at hmem ⊢
  exact ⟨rfl, rfl, rfl, rfl, rfl, hmem⟩

/-- The team that has left some of its lanes goes on as the entry taken says. -/
theorem exit_takes {dead : List Entry} {e : Entry} {r : List Entry} (hlive : h.tm.live &&& ~~~h.tm.active ≠ 0)
    (hst : h.tm.stack = dead ++ e :: r) (hdead : ∀ x ∈ dead, x.mask &&& (h.tm.live &&& ~~~h.tm.active) = 0)
    (he : e.mask &&& (h.tm.live &&& ~~~h.tm.active) ≠ 0) :
    let tm := takeEntry { h.tm with live := h.tm.live &&& ~~~h.tm.active, active := 0 } e
    Did (.exit sw) s h sw (closeRegion { tm with stack := r }) tm.pc 1 := by
  have hcommon := takeEntry_common { h.tm with live := h.tm.live &&& ~~~h.tm.active, active := 0 } e
  have hexec := exec_exit_quiet hq sw
  rw [leave_live hlive hst hdead he] at hexec
  have hrun : ¬(closeRegion { takeEntry { h.tm with live := h.tm.live &&& ~~~h.tm.active, active := 0 } e with stack := r }).status
      = .retired := by
    rw [closeRegion_status]
    exact fun hret => Status.noConfusion (((quiet_running hq).1.symm.trans hcommon.2.2.2.symm).trans hret)
  rw [exitEnd, if_neg hrun, closeRegion_pc] at hexec
  exact did1 hq.1 hexec ((closeRegion_passes _).trans hcommon.2.1)

end

/-- Settles O18: by the lanes left alive, the kind of the entry taken, and the depth of the stack that is left. -/
theorem exitLeaves : Obligations.ExitLeaves := by
  unfold Obligations.ExitLeaves
  intro sw s h hq
  refine ⟨exit_retires hq sw, fun dead e r hlive hst hdead he => ?_⟩
  have hdid := exit_takes hq sw hlive hst hdead he
  dsimp only at hdid ⊢
  have htrap (x : TrapRec) (hk : e.kind = .trap x) := takeEntry_trap { h.tm with live := h.tm.live &&& ~~~h.tm.active, active := 0 } hk
  rw [closeRegion_eq] at hdid
  refine ⟨fun hdeep => ⟨fun hk => ?_, fun x hk => ?_⟩, fun hshallow => ⟨fun hk => ?_, fun x hk => ?_⟩⟩
  · rw [takeEntry_plain _ hk, if_neg (Nat.not_lt.mpr hdeep)] at hdid
    exact hdid
  · rw [htrap x hk, if_neg (Nat.not_lt.mpr hdeep)] at hdid
    exact ⟨_, hdid, fun hregs => trapRegs_restored (team_wf hq.1 hregs) x, fun k => trapRegs_frame _ x, rfl, rfl, rfl⟩
  · rw [takeEntry_plain _ hk, if_pos hshallow] at hdid
    exact hdid
  · rw [htrap x hk, if_pos hshallow] at hdid
    exact ⟨_, hdid, fun hregs => trapRegs_restored (team_wf hq.1 hregs) x, fun k => trapRegs_frame _ x, rfl, rfl, rfl⟩

/-! ## TRAP (R81, R309, R313) -/

/-- The registers at a handler's entry (R313). -/
theorem handlerRegs_set {g : Regs} (hw : g.wf = true) (code : Byte) (info : BitVec 24) (fpc resume addr : W64) :
    let g' := handlerRegs g code info fpc resume addr
    g'.uget 28 = fpc ∧ g'.uget 29 = BitVec.ofNat 64 (code.toNat + info.toNat * 2 ^ 8) ∧ g'.uget 30 = addr ∧ g'.uget 31 = resume :=
  trapRegs_restored hw ⟨0, Mode.launch false, fpc, BitVec.ofNat 64 (code.toNat + info.toNat * 2 ^ 8), addr, resume, none⟩

theorem handlerRegs_frame (g : Regs) (code : Byte) (info : BitVec 24) (fpc resume addr : W64) {k : Nat} (hk : k < 28) :
    (handlerRegs g code info fpc resume addr).uget k = g.uget k :=
  trapRegs_frame g ⟨0, Mode.launch false, fpc, BitVec.ofNat 64 (code.toNat + info.toNat * 2 ^ 8), addr, resume, none⟩ (.inl hk)

/-- The fault of a TRAP (R309). -/
def trapInfo (h : Here) (code : BitVec 24) : FaultInfo := { FaultInfo.plain 0x10 h.tm.pc h.tm.active 0 with info := code }

theorem exec_trap {s : State} {h : Here} (hi : issuing s = some h) (sw : Bool) (code : BitVec 24) :
    exec (.trap sw code) s = if h.tm.trapvec = 0 then .next (takeFault s h h.tm (trapInfo h code) (pcNext h))
      else
        let r := spend s h h.frame onePass { h.tm with stalled := false, resumed := false }
        .next (takeFault r.1 h r.2 (trapInfo h code) (pcNext h)) := by
  show execTrap sw code s = _
  rw [execTrap, onTeam_issuing hi]
  rfl

section
variable {s : State} {h : Here}

/-- A team that stops without an access in flight keeps its registers, its PC and its stack (R309). -/
theorem stopTeam_team (hq : Quiet s h) (f : FaultInfo) :
    ∃ tm, (stopTeam s h h.tm f .stopped).teams[h.t]? = some tm ∧ tm.status = .stopped ∧ tm.fault = some f ∧ tm.pc = h.tm.pc
      ∧ tm.regs = h.tm.regs ∧ tm.stack = h.tm.stack := by
  have hlt := team_lt hq.1
  let tm1 : Team := { (discardAll (withdrawRing s h.t h.tm.cohort) h.tm).2 with status := .stopped, fault := some f }
  let s1 := (discardAll (withdrawRing s h.t h.tm.cohort) h.tm).1.setTeam h.t tm1
  have hset : s1.teams[h.t]? = some tm1 := by
    refine List.getElem?_set_self ?_
    simp only [discardAll, hq.2.2.2.1, List.foldl_nil]
    exact hlt
  have hposts : (settlePosts s1 h.t).teams[h.t]? = some { tm1 with posts := [] } := by
    rw [settlePosts, hset]
    rw [(SameTeams.foldl (fun s p => SameTeams.actPost s h.t p) tm1.posts _).teams, State.modTeam_teams, modAt_same, hset]
    rfl
  refine ⟨_, hposts, rfl, rfl, ?_⟩
  simp only [tm1, discardAll, hq.2.2.2.1, List.foldl_nil, and_self]

/-- A team whose TRAP finds no handler is stopped, and its fault reported. -/
theorem trap_stops (hq : Quiet s h) (sw : Bool) (code : BitVec 24) (hvec : h.tm.trapvec = 0) :
    exec (.trap sw code) s
        = .next (report (stopTeam s h h.tm (trapInfo h code) .stopped) h.ke.ctx (recordBody h.party (trapInfo h code)))
      ∧ ∃ tm, (report (stopTeam s h h.tm (trapInfo h code) .stopped) h.ke.ctx (recordBody h.party (trapInfo h code))).teams[h.t]?
          = some tm
        ∧ tm.status = .stopped ∧ tm.fault = some (trapInfo h code) ∧ tm.pc = h.tm.pc ∧ tm.regs = h.tm.regs
        ∧ tm.stack = h.tm.stack := by
  constructor
  · have hvec' : (h.tm.trapvec != 0) = false := by simp [hvec]
    have hchandler : chandlerCode (trapInfo h code).code = false := rfl
    rw [exec_trap hq.1, if_pos hvec, takeFault, hvec', Bool.and_false, if_neg Bool.false_ne_true, hchandler, if_neg Bool.false_ne_true]
  · obtain ⟨tm, hteam, hfields⟩ := stopTeam_team hq (trapInfo h code)
    obtain ⟨b, hb⟩ := report_onlyWakes _ h.ke.ctx (recordBody h.party (trapInfo h code)) _ _ hteam
    exact ⟨_, hb, hfields⟩

/-- The passes of an instruction leave what a handler's entry reads of its team. -/
theorem spend_keeps (s : State) (h : Here) (f : Frame) (cost : List (Nat × Nat)) (tm : Team) :
    let tm' := (spend s h f cost tm).2
    tm'.regs = tm.regs ∧ tm'.mode = tm.mode ∧ tm'.active = tm.active ∧ tm'.stack = tm.stack ∧ tm'.trapvec = tm.trapvec
      ∧ tm'.status = tm.status ∧ tm'.before = tm.before ∧ tm'.residues = tm.residues ∧ tm'.claims = tm.claims :=
  ⟨rfl, rfl, rfl, rfl, rfl, rfl, rfl, rfl, rfl⟩

/-- BREAK and WATCH enter a handler where there is one and nothing is deferred or outstanding. -/
theorem takeFault_handler {tm : Team} {f : FaultInfo} (hcode : inTeamCode f.code = true) (hvec : tm.trapvec ≠ 0)
    (hres : tm.residues = []) (hclaims : tm.claims = []) (resume : W64) :
    takeFault s h tm f resume = enterHandler s h tm f.code f.info f.mask f.fpc resume f.addr := by
  have hin : (inTeamCode f.code && tm.trapvec != 0) = true := by rw [hcode, Bool.true_and]; exact bne_iff_ne.mpr hvec
  have hdrained : (tm.residues.isEmpty && tm.claims.isEmpty) = true := by simp [hres, hclaims]
  rw [takeFault, if_pos hin, if_pos hdrained]

/-- What the entry of a handler gives a team that was waiting for nothing, where the stack has room (R313). -/
theorem enterHandler_team {tm : Team} (hroom : tm.stack.length < 256) (hwaited : tm.waited = none) (code : Byte) (info : BitVec 24)
    (lanes : Mask) (fpc resume addr : W64) :
    ∃ tm', enterHandler s h tm code info lanes fpc resume addr = s.setTeam h.t tm'
      ∧ tm'.regs = handlerRegs tm.regs code info fpc resume addr ∧ tm'.pc = tm.trapvec ∧ tm'.active = lanes ∧ tm'.status = .running
      ∧ tm'.mode = { tm.mode with g := 0, gn := false, df := false }
      ∧ tm'.stack = ⟨.trap ⟨resume, tm.mode, tm.regs.uget 28, tm.regs.uget 29, tm.regs.uget 30, tm.regs.uget 31, none⟩,
          resume, tm.active⟩ :: tm.stack := by
  refine ⟨_, if_neg (Nat.not_le.mpr hroom), ?_⟩
  rw [hwaited]
  exact ⟨rfl, rfl, rfl, rfl, rfl, rfl⟩

/-- A team whose TRAP finds a handler enters it. -/
theorem trap_enters (hq : Quiet s h) (sw : Bool) (code : BitVec 24) (hvec : h.tm.trapvec ≠ 0) (hroom : h.tm.stack.length < 256) :
    ∃ t tm, exec (.trap sw code) s = .next t ∧ t.teams[h.t]? = some tm
      ∧ tm.regs = handlerRegs h.tm.regs 0x10 code h.tm.pc (pcNext h) 0
      ∧ tm.pc = h.tm.trapvec ∧ tm.active = h.tm.active ∧ tm.status = .running
      ∧ tm.mode = { h.tm.mode with g := 0, gn := false, df := false }
      ∧ tm.stack = ⟨.trap ⟨pcNext h, h.tm.mode, h.tm.regs.uget 28, h.tm.regs.uget 29, h.tm.regs.uget 30, h.tm.regs.uget 31, none⟩,
          pcNext h, h.tm.active⟩ :: h.tm.stack := by
  obtain ⟨hrun, hbefore⟩ := quiet_running hq
  have hexec := (exec_trap hq.1 sw code).trans (if_neg hvec)
  have hlt : h.t < (spend s h h.frame onePass { h.tm with stalled := false, resumed := false }).1.teams.length :=
    team_lt (s := s) hq.1
  obtain ⟨hregs, hmode, hactive, hstack, hvec', hstatus, hbefore', hres, hclaims⟩ :=
    spend_keeps s h h.frame onePass { h.tm with stalled := false, resumed := false }
  dsimp only at hexec
  generalize spend s h h.frame onePass { h.tm with stalled := false, resumed := false } = r at *
  have hwaited : r.2.waited = none := by rw [Team.waited, hbefore', hbefore, hstatus, hrun]; rfl
  obtain ⟨tm, hset, hfields⟩ := enterHandler_team (s := r.1) (h := h) (tm := r.2) (hstack ▸ hroom) hwaited 0x10 code h.tm.active h.tm.pc
    (pcNext h) 0
  have hfault := takeFault_handler (s := r.1) (h := h) (f := trapInfo h code) rfl (hvec' ▸ hvec) (hres.trans hq.2.2.1)
    (hclaims.trans hq.2.1) (pcNext h)
  rw [hfault] at hexec
  rw [hregs, hvec', hmode, hactive, hstack] at hfields
  exact ⟨_, tm, hexec.trans (congrArg _ hset), List.getElem?_set_self hlt, hfields⟩

end

/-- Settles O19: the handler is entered where there is one and the stack has room; where there is none the team stops. -/
theorem traps : Obligations.Traps := by
  unfold Obligations.Traps
  intro sw code s h hq
  refine ⟨fun hvec hroom hregs => ?_, fun hvec => ?_⟩
  · obtain ⟨t, tm, hexec, hteam, hg, hpc, hactive, hstatus, hmode, hstack⟩ := trap_enters hq sw code hvec hroom
    obtain ⟨h28, h29, h30, h31⟩ := handlerRegs_set (team_wf hq.1 hregs) 0x10 code h.tm.pc (pcNext h) 0
    exact ⟨t, tm, _, hexec, hteam, hg, hpc, hactive, hstatus, hmode, hstack, h28, h29, h30, h31,
      fun k hk => handlerRegs_frame _ _ _ _ _ _ hk, rfl, rfl, rfl⟩
  · obtain ⟨hexec, tm, hteam, hfields⟩ := trap_stops hq sw code hvec
    exact ⟨trapInfo h code, tm, rfl, hexec, hteam, hfields⟩

end Sys2Proof.Proofs.Leaving
end

section
/-! Certificates for the family spec/05_instructions_core.md: engine commands, completion words and TLWAIT (R115, R137, R141, R142). -/
namespace Sys2Proof.Proofs.Queues
open Sys2Proof Sys2Proof.Machine Sys2Proof.Proofs.ControlFlow Sys2Proof.Proofs.WriteBacks Sys2Proof.Proofs.Scratchpads

/-! ## Words and engines -/

theorem litWords_pushQ0 (sw : Bool) (a : USrc) : (litWords (.umovPushQ0 sw a)).length = usrcLits a := by cases a <;> rfl
theorem litWords_pushQ2 (sw : Bool) (a : USrc) : (litWords (.umovPushQ2 sw a)).length = usrcLits a := by cases a <;> rfl
theorem litWords_tlwait (sw : Bool) (c : TlCtx) (n : Cnt) : (litWords (.tlwait sw c n)).length = cntLits n := by cases n <;> rfl

/-- The next word's address, by the literals that the instruction has. -/
theorem nextPc_after {h : Here} {i : Instr} {n : Nat} (hn : (litWords i).length = n) : nextPc h.tm.pc n = after h i := by
  rw [← hn, nextPc_encode, after]

/-- An engine context after a change of it. -/
theorem engine_modEngine {s : State} {e : EngRef} {g : Engine} (he : s.engine? e = some g) (f : Engine → Engine) :
    (s.modEngine e f).engine? e = some (f g) := by
  cases e with
  | matrix => cases he
  | copy core ctx =>
    obtain ⟨c, hc, hg⟩ := Option.bind_eq_some_iff.mp he
    show ((modAt _ s.cores core)[core]?).bind _ = _
    rw [modAt_same, hc, Option.map_some, Option.bind_some, modAt_same, hg, Option.map_some]
  | sift core ctx =>
    obtain ⟨c, hc, hg⟩ := Option.bind_eq_some_iff.mp he
    show ((modAt _ s.cores core)[core]?).bind _ = _
    rw [modAt_same, hc, Option.map_some, Option.bind_some, modAt_same, hg, Option.map_some]
  | settle core =>
    obtain ⟨c, hc, rfl⟩ := Option.map_eq_some_iff.mp he
    show ((modAt _ s.cores core)[core]?).map _ = _
    rw [modAt_same, hc]; rfl

theorem modEngine_teams (s : State) (e : EngRef) (f : Engine → Engine) : (s.modEngine e f).teams = s.teams := by cases e <;> rfl
theorem modEngine_mem (s : State) (e : EngRef) (f : Engine → Engine) : (s.modEngine e f).mem = s.mem := by cases e <;> rfl

/-- The team that issues, in a state that has at most woken it. -/
theorem teamNow_onlyWakes {s s1 : State} {h : Here} (hi : issuing s = some h) (hw : OnlyWakes s s1) :
    h.t < s1.teams.length ∧ ∃ b, teamNow s1 h = { h.tm with wake := b } := by
  obtain ⟨tm0, hteam, htm, -⟩ := issuing_some hi
  obtain ⟨b, hb⟩ := hw _ _ hteam
  exact ⟨(List.getElem?_eq_some_iff.mp hb).1, b, by rw [teamNow, hb, htm]; rfl⟩

/-! ## Pushes (R137) -/

/-- The engine context with a command queued under its next number. -/
def queuedOn (ws : List W64) (o : Origin) (g : Engine) : Engine :=
  { g with queue := g.queue ++ [⟨g.next, ws, 0, o, none, 0⟩], next := g.next + 1 }

section
variable {s : State} {h : Here} (hq : Quiet s h)
include hq

/-- A push of a quiet team into a queue with room. -/
theorem pushCmd_room {e : EngRef} {g : Engine} (he : s.engine? e = some g) (hroom : g.queue.length < 64) (smask : BitVec 16)
    (ws : List W64) (ranges : List (W64 × Nat)) (k : State → Outcome State) :
    pushCmd s h e smask ws ranges k = k ((targetedClear s h ranges).modEngine e (queuedOn ws (h.origin h.tm.pc))) := by
  obtain ⟨-, -, hres, hflight, -⟩ := hq
  have hnotags : (((h.tm.inflight.filter fun a => (a.stream.map fun n => smask.getLsbD n).getD false).flatMap (·.need)).isEmpty) = true := by
    rw [hflight]; rfl
  have hnores : (h.tm.residues.any fun r => (r.stream.map fun n => smask.getLsbD n).getD false) = false := by rw [hres]; rfl
  simp only [pushCmd, he, Nat.not_le.mpr hroom, if_false, hnores, Bool.false_eq_true, hnotags, Bool.not_true]
  rfl

/-- What a completed push leaves (R137): the command in its queue, the team at the next word, and in memory the dirty bytes of the source
ranges. -/
theorem push_done {e : EngRef} {g : Engine} (he : s.engine? e = some g) (ws : List W64) (ranges : List (W64 × Nat)) (sw : Bool)
    (pc : W64) {f : Team → Team} (hf : ∀ tm, (f tm).regs = tm.regs ∧ (f tm).claims = tm.claims) :
    let s1 := (targetedClear s h ranges).modEngine e (queuedOn ws (h.origin h.tm.pc))
    let t := endAt s1 h sw pc onePass (f (teamNow s1 h))
    (∃ tm b, t.teams[h.t]? = some tm ∧ tm.stage0 = (f { h.tm with wake := b }).stage0 ∧ tm.stage2 = (f { h.tm with wake := b }).stage2
        ∧ tm.pc = pc ∧ tm.regs = h.tm.regs)
      ∧ t.engine? e = some (queuedOn ws (h.origin h.tm.pc) g)
      ∧ (let lines := ranges.flatMap fun r => rangeLines s h.cx.ptroot.toNat r.1 r.2
        let d := dirtyOf s h.core fun x => lines.contains x.line
        MemoryOk s → OneEach d → PlainAt s (d.map (·.1)) → Reached d s.mem t.mem) := by
  intro s1 t
  have hframe : HomeFrame s (targetedClear s h ranges) := .writeBackWhere _ _ _
  have hwakes : OnlyWakes s s1 := hframe.teams.trans (.of_eq (modEngine_teams _ _ _))
  obtain ⟨hlt, b, hnow⟩ := teamNow_onlyWakes hq.1 hwakes
  obtain ⟨hregs, hclaims⟩ := hf { h.tm with wake := b }
  obtain ⟨age, owed, hend⟩ := endAt_noClaims hlt sw pc onePass (tm := f { h.tm with wake := b }) (hclaims.trans hq.2.1)
  refine ⟨⟨_, b, (congrArg (fun x => (endAt s1 h sw pc onePass (f x)).teams[h.t]?) hnow).trans hend, rfl, rfl, rfl, hregs⟩, ?_,
    fun hok hone hplain => ?_⟩
  · have heng : (targetedClear s h ranges).engine? e = some g := (hframe.engines e).trans he
    exact ((endAt_outside s1 h sw pc onePass _).engines e).trans (engine_modEngine heng _)
  · have hmem : t.mem = (targetedClear s h ranges).mem := modEngine_mem _ _ _
    rw [hmem]
    exact writeBackWhere_reached h.core _ hok hone hplain

/-! ## UMOV with q0 and q2 (R115) -/

theorem exec_pushQ0 (sw : Bool) (a : USrc) :
    exec (.umovPushQ0 sw a) s =
      let ws := h.tm.stage0 ++ [usrcVal h.frame a]
      let e : EngRef := .copy h.core (carterOf ws).ctx
      if ws.length < 4 then .next (endAt s h sw (nextPc h.tm.pc (usrcLits a)) onePass { h.tm with stage0 := ws })
      else if !carterOk h ws || s.engHalted e then queueFault s { h with tm := { h.tm with stage0 := [] } }
      else pushCmd s h e (carterOf ws).smask ws (carterOf ws).sources fun s1 =>
        .next (endAt s1 h sw (nextPc h.tm.pc (usrcLits a)) onePass { teamNow s1 h with stage0 := [] }) := by
  show execUmovPushQ0 sw a s = _
  rw [execUmovPushQ0, onTeam_issuing hq.1, reading_noClaims hq.2.1]

theorem exec_pushQ2 (sw : Bool) (a : USrc) :
    exec (.umovPushQ2 sw a) s =
      let ws := h.tm.stage2 ++ [usrcVal h.frame a]
      let c := siftOf ws
      let e : EngRef := .sift h.core c.ctx
      if ws.length < 4 then .next (endAt s h sw (nextPc h.tm.pc (usrcLits a)) onePass { h.tm with stage2 := ws })
      else if !siftOk h ws || s.engHalted e then queueFault s { h with tm := { h.tm with stage2 := [] } }
      else pushCmd s h e c.smask ws [(c.a, 4 * c.na), (c.b, 4 * c.lenB)] fun s1 =>
        .next (endAt s1 h sw (nextPc h.tm.pc (usrcLits a)) onePass { teamNow s1 h with stage2 := [] }) := by
  show execUmovPushQ2 sw a s = _
  rw [execUmovPushQ2, onTeam_issuing hq.1, reading_noClaims hq.2.1]

/-! ## UMOV from q3 (R141) -/

theorem exec_popQ3 (sw : Bool) (d : SReg) :
    exec (.umovPopQ3 sw d) s = match h.co.compq with
      | [] => .next (block s h h.tm .q3)
      | x :: r =>
        let s1 := s.modCohort h.tm.cohort fun co => { co with compq := r }
        let a : InFlight := ⟨h.tm.nextId, .umovPopQ3 sw d, h.frame, none, [.s d.val], [], Writes.ofU d.val x, [], [], [], none, none⟩
        let l := launch s1 { h.tm with nextId := h.tm.nextId + 1 } a fun _ => BitVec.allOnes 1024
        .next (endAt l.1 h sw (nextPc h.tm.pc 0) onePass l.2) := by
  show execUmovPopQ3 sw d s = _
  rw [execUmovPopQ3, onTeam_issuing hq.1, whenDrained_noClaims hq.2.1 hq.2.2.1] <;> rfl

end

/-- The marker leaves a register claimed. -/
theorem isClaimed_marker (sw df : Bool) (tm : Team) (k : RegKey) : isClaimed (marker sw df tm).claims k = isClaimed tm.claims k := by
  unfold marker
  split
  · rfl
  · split
    · simp [isClaimed, List.any_map, Function.comp_def]
    · split <;> rfl

theorem pc_marker (sw df : Bool) (tm : Team) : (marker sw df tm).pc = tm.pc := by
  unfold marker
  split
  · rfl
  · split
    · rfl
    · split <;> rfl

section
variable {s : State} {h : Here} (hq : Quiet s h)
include hq

/-- A completion word is popped into a register that waits for it. -/
theorem popQ3_done (sw : Bool) (d : SReg) {w : W64} {r : List W64} (hc : h.co.compq = w :: r) :
    ∃ t tm fl, exec (.umovPopQ3 sw d) s = .next t ∧ t.teams[h.t]? = some tm ∧ tm.pc = h.tm.pc + 4 ∧ tm.regs = h.tm.regs
      ∧ tm.inflight = [fl] ∧ fl.writes = Writes.ofU d.val w ∧ isClaimed tm.claims (.s d.val) = true
      ∧ t.cohorts[h.tm.cohort]? = some { h.co with compq := r } := by
  obtain ⟨-, -, -, -, -, hco, -⟩ := issuing_some hq.1
  have hexec := exec_popQ3 hq sw d
  rw [hc] at hexec
  dsimp only at hexec
  rw [launch_noClaims (tm := { h.tm with nextId := h.tm.nextId + 1 }) hq.2.1] at hexec
  obtain ⟨age, owed, hend⟩ := endAt_team (s.modCohort h.tm.cohort fun co => { co with compq := r }) h sw (nextPc h.tm.pc 0) onePass
    { h.tm with
      nextId := h.tm.nextId + 1
      inflight := h.tm.inflight
        ++ [⟨h.tm.nextId, .umovPopQ3 sw d, h.frame, none, [.s d.val], [], Writes.ofU d.val w, [], [], [], none, none⟩]
      claims := [⟨.s d.val, h.tm.nextId, false, 0, BitVec.allOnes 1024⟩] } (team_lt (s := s) hq.1)
  refine ⟨_, _, _, hexec, hend, pc_marker _ _ _, regs_marker _ _ _, (inflight_marker _ _).trans (by rw [hq.2.2.2.1, List.nil_append]), rfl,
    (isClaimed_marker _ _ _ _).trans (by simp [isClaimed]), ?_⟩
  show (modAt _ s.cohorts h.tm.cohort)[h.tm.cohort]? = _
  rw [modAt_same, hco, Option.map_some]

theorem popQ3_blocks (sw : Bool) (d : SReg) (hc : h.co.compq = []) :
    exec (.umovPopQ3 sw d) s = .next (block s h h.tm .q3) := by
  rw [exec_popQ3 hq, hc]

end

/-! ## TLWAIT (R142) -/

/-- The context and the number that a TLWAIT waits for: those that it named when it first waited. -/
def tlwaitFor (h : Here) (c : TlCtx) (n : Cnt) : EngRef × W64 :=
  match h.wake with
  | some (.timeline e x) => (e, x)
  | _ => (tlEngine h c, cntVal h.frame n)

theorem OnlyWakes.tlAcquire (s : State) (h : Here) (e : EngRef) (n : W64) : OnlyWakes s (tlAcquire s h e n) := by
  unfold Machine.tlAcquire
  split
  · exact .of_eq rfl
  · dsimp only
    split
    · exact .of_eq rfl
    · exact .dropClean _ _ _

theorem tlAcquire_mem (s : State) (h : Here) (e : EngRef) (n : W64) : (tlAcquire s h e n).mem = s.mem := by
  unfold tlAcquire
  split
  · rfl
  · dsimp only
    split
    · rfl
    · exact dropClean_mem _ _ _

section
variable {s : State} {h : Here} (hq : Quiet s h) (sw : Bool) (c : TlCtx) (n : Cnt)
include hq

theorem exec_tlwait :
    exec (.tlwait sw c n) s =
      let w := tlwaitFor h c n
      if c = .matrix && h.ga.mfault then raise s h 0x0D h.tm.active 0
      else if w.2 ≤ s.tl w.1 then
        .next (endAt (tlAcquire s h w.1 w.2) h sw (nextPc h.tm.pc (cntLits n)) onePass (teamNow (tlAcquire s h w.1 w.2) h))
      else if s.neverTl w.1 w.2 then queueFault s h
      else .next (block s h h.tm (.timeline w.1 w.2)) := by
  show execTlwait sw c n s = _
  rw [execTlwait, onTeam_issuing hq.1, whenDrained_noClaims hq.2.1 hq.2.2.1]
  rfl

/-- The acquire of a TLWAIT whose timeline has reached its number leaves its team to go on, and memory as it is. -/
theorem tlwait_goesOn (e : EngRef) (x : W64) : ∃ tm,
    (endAt (tlAcquire s h e x) h sw (nextPc h.tm.pc (cntLits n)) onePass (teamNow (tlAcquire s h e x) h)).teams[h.t]? = some tm
      ∧ GoesOn (.tlwait sw c n) h tm := by
  obtain ⟨hlt, b, hnow⟩ := teamNow_onlyWakes hq.1 (OnlyWakes.tlAcquire s h e x)
  have hgo : GoesOn (.tlwait sw c n) h { teamNow (tlAcquire s h e x) h with pc := nextPc h.tm.pc (cntLits n) } := by
    rw [hnow, nextPc_after (litWords_tlwait sw c n)]
    constructor <;> trivial
  obtain ⟨tm, hend, hg, -⟩ := endAt_goesOn (sw := sw) hlt (nextPc h.tm.pc (cntLits n)) onePass hgo
  exact ⟨tm, hend, hg⟩

end

/-- Settles O41: a word is staged until it is the fourth, whose command is queued or refused; a completion word is popped, or the team
blocks; and TLWAIT by its timeline, which is what it named when it first waited. -/
theorem queueMoves : Obligations.QueueMoves := by
  unfold Obligations.QueueMoves
  intro sw a s h hq
  have hpush0 := exec_pushQ0 hq sw a
  have hpush2 := exec_pushQ2 hq sw a
  dsimp only at hpush0 hpush2 ⊢
  rw [nextPc_after (litWords_pushQ0 sw a)] at hpush0
  rw [nextPc_after (litWords_pushQ2 sw a)] at hpush2
  simp only [List.length_append, List.length_singleton] at hpush0 hpush2
  refine ⟨fun hlen => did1 hq.1 (hpush0.trans (if_pos (by omega))) rfl, fun hlen => did1 hq.1 (hpush2.trans (if_pos (by omega))) rfl,
    fun hlen => ⟨fun hok hhalt g he hroom => ?_, fun hbad => ?_⟩, fun hlen => ⟨fun hok hhalt g he hroom => ?_, fun hbad => ?_⟩,
    fun d => ⟨fun w r hc => popQ3_done hq sw d hc, popQ3_blocks hq sw d⟩, fun c n => ?_⟩
  · rw [if_neg (by omega), if_neg (by simp [hok, hhalt]), pushCmd_room hq he hroom] at hpush0
    obtain ⟨⟨tm, b, hteam, hstage, -, hpc, hregs⟩, heng, hmem⟩ := push_done hq he (h.tm.stage0 ++ [usrcVal h.frame a])
      (carterOf (h.tm.stage0 ++ [usrcVal h.frame a])).sources sw (after h (.umovPushQ0 sw a))
      (f := fun tm => { tm with stage0 := [] }) fun _ => ⟨rfl, rfl⟩
    exact ⟨_, tm, _, hpush0, hteam, hstage, hpc, hregs, heng, rfl, rfl, hmem⟩
  · rw [if_neg (by omega), if_pos (by rcases hbad with hbad | hbad <;> simp [hbad])] at hpush0
    exact hpush0
  · rw [if_neg (by omega), if_neg (by simp [hok, hhalt]), pushCmd_room hq he hroom] at hpush2
    obtain ⟨⟨tm, b, hteam, -, hstage, hpc, hregs⟩, heng, hmem⟩ := push_done hq he (h.tm.stage2 ++ [usrcVal h.frame a])
      [((siftOf (h.tm.stage2 ++ [usrcVal h.frame a])).a, 4 * (siftOf (h.tm.stage2 ++ [usrcVal h.frame a])).na),
        ((siftOf (h.tm.stage2 ++ [usrcVal h.frame a])).b, 4 * (siftOf (h.tm.stage2 ++ [usrcVal h.frame a])).lenB)]
      sw (after h (.umovPushQ2 sw a)) (f := fun tm => { tm with stage2 := [] }) fun _ => ⟨rfl, rfl⟩
    exact ⟨_, tm, _, hpush2, hteam, hstage, hpc, hregs, heng, rfl, rfl, hmem⟩
  · rw [if_neg (by omega), if_pos (by rcases hbad with hbad | hbad <;> simp [hbad])] at hpush2
    exact hpush2
  · have hexec := exec_tlwait hq sw c n
    refine ⟨fun hc hm => hexec.trans (if_pos (by simp [hc, hm])), fun hno => ?_⟩
    have hexec := hexec.trans (if_neg (by simpa using hno))
    refine ⟨fun hle => ?_, fun hlt hnever => hexec.trans ((if_neg hlt).trans (if_neg fun he => Bool.false_ne_true (hnever.symm.trans he))),
      fun hlt hnever => hexec.trans ((if_neg hlt).trans (if_pos hnever)), fun hhalt => by rw [State.neverTl, hhalt, Bool.true_or]⟩
    obtain ⟨tm, hend, hg⟩ := tlwait_goesOn hq sw c n (tlwaitFor h c n).1 (tlwaitFor h c n).2
    exact ⟨_, tm, hexec.trans (if_pos hle), hend, hg, tlAcquire_mem _ _ _ _⟩

end Sys2Proof.Proofs.Queues
end

section
/-! Certificates for the family spec/05_instructions_core.md: the uniform ALU, UCMP, XSET and XWIN (R111 to R114). -/
namespace Sys2Proof.Proofs.UniformAndIndex
open Sys2Proof Sys2Proof.Machine Sys2Proof.Proofs.Pops Sys2Proof.Proofs.Queues

/-! ## A fixed-latency instruction -/

/-- A ready fixed-latency instruction of a quiet team goes on at the next word, with its writes and flags. -/
theorem did_of_job {i : Instr} {sw : Bool} {jf : Frame → Job} {s : State} {h : Here} {w : Writes} (hq : Quiet s h)
    (hr : Ready jf h.frame) (he : exec i s = issueJob i sw jf s) (hl : (jf h.frame).late = false)
    (hrun : (jf h.frame).run h h.frame s = .done s w [] [] []) :
    Did i s h sw { h.tm with regs := h.tm.regs.apply w, flags := h.tm.flags ||| w.flags } (after h i)
      (costTotal ((jf h.frame).passes h.frame)) := by
  obtain ⟨hok, hspans, hcheck, hbad⟩ := hr
  have hissue := issueJob_quiet (i := i) (sw := sw) (jf := jf) hq
  rw [hok, hspans, hcheck] at hissue
  simp only [Bool.and_self, Bool.not_true, Bool.false_eq_true, if_false] at hissue
  rw [issueNow_pure hq hbad hl hrun, nextPc_encode] at hissue
  exact did_of_endAt hq.1 rfl (he.trans hissue)

/-- A job without lane registers has no lane with an index out of its window. -/
theorem badLanes_nil {j : Job} (hreads : j.vreads = []) (hwrites : j.vwrites = []) (f : Frame) (ls : List Nat) : j.badLanes f ls = [] := by
  simp [Job.badLanes, hreads, hwrites]

/-! ## The uniform ALU (R113) -/

section
variable {i : Instr} {sw : Bool} {d : SReg} {a b : USrc} {s : State} {h : Here}

/-- A uniform instruction writes its one result in one pass. -/
theorem did_uniJob (hq : Quiet s h) {g : W64 → W64 → W64} {r : W64} (he : exec i s = issueJob i sw (uniJob d a b g) s)
    (hr : g (usrcVal h.frame a) (usrcVal h.frame b) = r) :
    Did i s h sw { h.tm with regs := h.tm.regs.uset d.val r } (after h i) 1 := by
  have hready : Ready (uniJob d a b g) h.frame := ⟨rfl, rfl, rfl, badLanes_nil rfl rfl _ _⟩
  have hflags : h.tm.flags ||| (Writes.ofU d.val r).flags = h.tm.flags := BitVec.or_zero
  have hdid := did_of_job (w := Writes.ofU d.val r) hq hready he rfl (hr ▸ rfl)
  rw [hflags] at hdid
  exact hdid

end

theorem ushl_all (x y : W64) : (if y.toNat < 64 then x <<< y.toNat else 0) = x <<< y.toNat := by
  split
  · rfl
  · rename_i hlt
    exact (BitVec.shiftLeft_eq_zero (Nat.le_of_not_lt hlt)).symm

theorem ushr_all (x y : W64) : (if y.toNat < 64 then x >>> y.toNat else 0) = x >>> y.toNat := by
  split
  · rfl
  · rename_i hlt
    exact (BitVec.ushiftRight_eq_zero (Nat.le_of_not_lt hlt)).symm

theorem umin_toInt (x y : W64) : (if y.slt x then y else x) = if x.toInt ≤ y.toInt then x else y := by
  simp only [BitVec.slt_iff_toInt_lt]
  by_cases hle : x.toInt ≤ y.toInt
  · rw [if_neg (Int.not_lt.mpr hle), if_pos hle]
  · rw [if_pos (Int.not_le.mp hle), if_neg hle]

theorem umax_toInt (x y : W64) : (if x.slt y then y else x) = if x.toInt ≤ y.toInt then y else x := by
  simp only [BitVec.slt_iff_toInt_lt]
  rcases Int.lt_trichotomy x.toInt y.toInt with hlt | heq | hgt
  · rw [if_pos hlt, if_pos (Int.le_of_lt hlt)]
  · rw [BitVec.eq_of_toInt_eq heq, ite_self, ite_self]
  · rw [if_neg (Int.not_lt.mpr (Int.le_of_lt hgt)), if_neg (Int.not_le.mpr hgt)]

theorem udiv_toNat (x y : W64) : x / y = BitVec.ofNat 64 (x.toNat / y.toNat) :=
  BitVec.eq_of_toNat_eq (by
    rw [BitVec.toNat_udiv, BitVec.toNat_ofNat, Nat.mod_eq_of_lt (Nat.lt_of_le_of_lt (Nat.div_le_self _ _) x.isLt)])

theorem urem_toNat (x y : W64) : x % y = BitVec.ofNat 64 (x.toNat % y.toNat) :=
  BitVec.eq_of_toNat_eq (by
    rw [BitVec.toNat_umod, BitVec.toNat_ofNat, Nat.mod_eq_of_lt (Nat.lt_of_le_of_lt (Nat.mod_le _ _) x.isLt)])

/-- Settles O28: every operation is one uniform job, whose result is that of the word given. -/
theorem uniformAlu : Obligations.UniformAlu := by
  unfold Obligations.UniformAlu
  intro sw d a b s h hq
  exact ⟨did_uniJob hq rfl rfl, did_uniJob hq rfl rfl, did_uniJob hq rfl rfl, did_uniJob hq rfl rfl, did_uniJob hq rfl rfl,
    did_uniJob hq rfl rfl, did_uniJob hq rfl (ushl_all _ _), did_uniJob hq rfl (ushr_all _ _), did_uniJob hq rfl rfl,
    did_uniJob hq rfl (umin_toInt _ _), did_uniJob hq rfl (umax_toInt _ _), did_uniJob hq rfl (by rw [udiv_toNat]),
    did_uniJob hq rfl (by rw [urem_toNat])⟩

/-! ## UCMP (R114) -/

/-- A predicate written in every lane of M with one value. -/
theorem getLsbD_pset_all {g : Regs} (hw : g.wf = true) {p : Nat} (hp : p ≠ 0) (m : Mask) (t : Bool) (l : Nat) :
    ((g.pset p m (if t then m else 0)).pget p).getLsbD l = if m.getLsbD l then t else (g.pget p).getLsbD l := by
  rw [Regs.pget_pset hw hp, BitVec.getLsbD_or, BitVec.getLsbD_and, BitVec.getLsbD_and, BitVec.getLsbD_not]
  have hval : (if t then m else 0).getLsbD l = (t && m.getLsbD l) := by cases t <;> simp
  rw [hval]
  by_cases hl : l < 1024
  · cases m.getLsbD l <;> simp [hl]
  · have hout (x : Mask) : x.getLsbD l = false := BitVec.getLsbD_of_ge _ _ (Nat.le_of_not_lt hl)
    simp [hout]

/-- A write of a predicate leaves the other tables alone. -/
theorem pset_frame (g : Regs) (p : Nat) (m b : Mask) :
    (g.pset p m b).v = g.v ∧ (g.pset p m b).u = g.u ∧ (g.pset p m b).x = g.x ∧ (g.pset p m b).win = g.win := by
  unfold Regs.pset
  split <;> exact ⟨rfl, rfl, rfl, rfl⟩

/-- Settles O29: the predicate is written in the lanes of M with the relation's value, whatever the guard. -/
theorem uniformCompare : Obligations.UniformCompare := by
  unfold Obligations.UniformCompare
  intro sw p r a b s h hq hregs
  have hready : Ready (jobUcmp p r a b) h.frame := ⟨rfl, rfl, rfl, badLanes_nil rfl rfl _ _⟩
  have hdid := did_of_job (i := .ucmp sw p r a b) (sw := sw) hq hready rfl rfl rfl
  have hflags (m b : Mask) : h.tm.flags ||| (Writes.ofP p.val m b).flags = h.tm.flags := BitVec.or_zero
  rw [hflags, Regs.apply_ofP] at hdid
  refine ⟨_, hdid, fun hp l => ?_, fun q hq => ?_, pset_frame _ _ _ _⟩
  · have hp' : p.val ≠ 0 := fun e => hp (Fin.ext e)
    rw [getLsbD_pset_all (team_wf hq.1 hregs) hp']
    by_cases hm : h.tm.active.getLsbD l = true
    · rw [show h.frame.mask = h.tm.active from rfl, if_pos hm, if_pos hm]
      cases r <;> simp [relInt]
    · rw [show h.frame.mask = h.tm.active from rfl, if_neg hm, if_neg hm]
  · rcases hq with hne | rfl
    · exact Regs.pget_pset_ne _ hne _ _
    · rfl

/-! ## XSET and XWIN (R111, R112) -/

/-- Index registers written in the lanes of a list, each with its own value: the others keep theirs. -/
theorem xget_xsetAll {g : Regs} (hw : g.wf = true) (x : Nat) (ls : List Nat) (hn : ls.Nodup) (hlt : ∀ l ∈ ls, l < 1024) (v : Nat → Byte) :
    (∀ l, l < 1024 → (g.xsetAll (ls.map fun l => (vKey x l, v l))).xget x l = if l ∈ ls then v l else g.xget x l)
      ∧ ∀ k l, l < 1024 → k ≠ x → (g.xsetAll (ls.map fun l => (vKey x l, v l))).xget k l = g.xget k l := by
  have hx : swf g.x = true := by simp only [Regs.wf, Bool.and_eq_true] at hw; exact hw.2
  have hne {k l : Nat} (hl : l < 1024) (hno : ¬(k = x ∧ l ∈ ls)) :
      (g.xsetAll (ls.map fun l => (vKey x l, v l))).xget k l = g.xget k l := by
    refine sget_ssetAll_ne _ (fun p hp he => ?_) g.x
    obtain ⟨l', hl', rfl⟩ := List.mem_map.mp hp
    obtain ⟨e1, e2⟩ := vKey_inj (hlt l' hl') hl he
    exact hno ⟨e1.symm, e2 ▸ hl'⟩
  refine ⟨fun l hl => ?_, fun k l hl hk => hne hl fun hh => hk hh.1⟩
  split
  · rename_i hmem
    refine sget_ssetAll_mem _ ?_ (List.mem_map.mpr ⟨l, hmem, rfl⟩) hx
    rw [List.map_map]
    exact hn.map_on fun a ha b hb he => (vKey_inj (hlt a ha) (hlt b hb) he).2
  · rename_i hmem
    exact hne hl fun hh => hmem hh.2

theorem litWords_xwin (sw : Bool) (x : Fin 4) (base : Fin 192) (n : Cnt) : (litWords (.xwin sw x base n)).length = cntLits n := by
  cases n <;> rfl

theorem exec_xwin {s : State} {h : Here} (hq : Quiet s h) (sw : Bool) (x : Fin 4) (base : Fin 192) (len : Cnt) :
    exec (.xwin sw x base len) s =
      let n := (cntVal h.frame len).toNat
      if n = 0 || 192 < base.val + n then illegal s h
      else .next (endAt s h sw (nextPc h.tm.pc (cntLits len)) onePass
        { h.tm with regs := { h.tm.regs with win := h.tm.regs.win.set x.val ⟨base.val, n⟩ } }) := by
  show execXwin sw x base len s = _
  rw [execXwin, onTeam_issuing hq.1, reading_noClaims hq.2.1]

/-- Settles O26: the index is written in the lanes that take part, and the window where its length and its end allow it. -/
theorem indexRegisters : Obligations.IndexRegisters := by
  unfold Obligations.IndexRegisters
  intro sw x s h hq hregs
  refine ⟨fun a hready => ?_, fun base len => ⟨fun hlow hhigh => ?_, fun hbad => ?_⟩⟩
  · obtain ⟨hset, hother⟩ := xget_xsetAll (team_wf hq.1 hregs) x.val h.frame.on (nodup_lanesOf _) (fun l hl => lanesOf_lt hl)
      fun l => BitVec.ofNat 8 (srcVal h.frame .u32 a l)
    exact computed_of_job hq hready rfl rfl rfl rfl ⟨hset, hother, rfl, rfl, rfl, rfl⟩
  · have hexec := exec_xwin hq sw x base len
    dsimp only at hexec
    rw [if_neg (by simp only [Bool.or_eq_true, decide_eq_true_eq]; omega), nextPc_after (litWords_xwin sw x base len)] at hexec
    have hflags : h.tm.flags ||| 0 = h.tm.flags := BitVec.or_zero
    refine ⟨_, 1, ?_, rfl⟩
    rw [hflags]
    exact did1 hq.1 hexec rfl
  · have hexec := exec_xwin hq sw x base len
    dsimp only at hexec
    rw [if_pos (by simpa only [Bool.or_eq_true, decide_eq_true_eq] using hbad)] at hexec
    exact hexec

end Sys2Proof.Proofs.UniformAndIndex
end

section
/-! Certificates for the family spec/05_instructions_core.md: whole registers, predicates, exchanges between lanes and lane values in uniform
registers (R88 to R95, R100 to R110). -/
namespace Sys2Proof.Proofs.Lanes
open Sys2Proof Sys2Proof.Machine Sys2Proof.Proofs.UniformAndIndex

/-! ## Whole registers (R89, R90, R93 to R95, R100, R101, R103) -/

/-- A lane instruction whose values are given in another form. -/
theorem laneDid_congr {i : Instr} {s : State} {h : Here} {sw : Bool} {d : Dst} {n : Nat} {val val' : Nat → Nat × Flags}
    (he : ∀ l, val l = val' l) (hd : LaneDid i s h sw d n val) : LaneDid i s h sw d n val' := funext he ▸ hd

/-- An instruction with a predicate result whose values are given in another form. -/
theorem predDid_congr {i : Instr} {s : State} {h : Here} {sw : Bool} {p : PReg} {val val' : Nat → Bool × Flags}
    (he : ∀ l, val l = val' l) (hd : PredDid i s h sw p val) : PredDid i s h sw p val' := funext he ▸ hd

/-- The value of LEA (R101), with no size but those of R101 given a meaning. -/
def leaVal (a b : Src) (f : Frame) (l : Nat) : Nat × Flags :=
  (ux 64 ((srcVal f .i64 a l : Int) + sx 32 (srcVal f .i32 b l) * ((leaSize f.mode.t).getD 0 : Nat)), 0)

theorem jobLea_run (d : Dst) (a b : Src) (f : Frame) (h : Here) (s : State) :
    (jobLea d a b f).run h f s = laneRun d 2 (fun _ => leaVal a b f) h f s := by
  rw [jobLea]
  simp only [laneRun, leaVal]

/-- Settles O22: every operation is one lane job, which computes the value given. -/
theorem wholeRegisters : Obligations.WholeRegisters := by
  unfold Obligations.WholeRegisters
  intro sw d a b s h hq hregs
  refine ⟨fun hr => laneDid_of_job hq hregs hr rfl rfl rfl, fun hr => laneDid_of_job hq hregs hr rfl rfl rfl,
    fun hr => laneDid_of_job hq hregs hr rfl rfl rfl, fun hr => laneDid_of_job hq hregs hr rfl rfl rfl,
    fun hr => laneDid_of_job hq hregs hr rfl rfl rfl, fun hr => laneDid_of_job hq hregs hr rfl rfl rfl,
    fun hr => ?_, fun size hsize hr => ?_, fun p hr => ?_, fun u hr => laneDid_of_job hq hregs hr rfl rfl rfl,
    fun hr => laneDid_of_job hq hregs hr rfl rfl rfl, fun hr => laneDid_of_job hq hregs hr rfl rfl rfl⟩
  · have hdid := laneDid_of_job (i := .addc sw d a b) (sw := sw) hq hregs hr rfl rfl rfl
    refine laneDid_congr (fun l => congrArg (·, 0) ?_) hdid
    rw [Nat.add_assoc, Nat.add_comm]
  · have hdid := laneDid_of_job (i := .lea sw d a b) (sw := sw) hq hregs hr rfl rfl (jobLea_run d a b h.frame h s)
    have hsize' : leaSize h.frame.mode.t = some size := hsize
    exact laneDid_congr (fun l => by rw [leaVal, hsize', Option.getD_some]) hdid
  · have hdid := laneDid_of_job (i := .ptov sw d p) (sw := sw) hq hregs hr rfl rfl rfl
    refine laneDid_congr (fun l => congrArg (·, 0) ?_) hdid
    cases (h.frame.regs.pget p.val).getLsbD l <;> rfl

/-! ## Predicates (R88, R92, R102, R103, R105) -/

theorem flagsOver_zero (ls : List Nat) : flagsOver ls (fun _ => 0) = 0 := by
  induction ls with
  | nil => rfl
  | cons l ls ih =>
    rw [flagsOver] at ih ⊢
    exact ih

/-- A vote is one value in every lane that takes part (R105). -/
theorem predDid_vote {sw : Bool} {p : PReg} {fn : VoteFn} {a : Src} {s : State} {h : Here} (hq : Quiet s h) (hregs : RegistersOk s)
    (hr : Ready (jobVote p fn a) h.frame) :
    PredDid (.vote sw p fn a) s h sw p fun _ => (voteVal fn (h.frame.on.map fun l => srcVal h.frame .u32 a l != 0), 0) := by
  unfold PredDid
  rw [flagsOver_zero]
  by_cases hpart : h.frame.part = 0
  · refine computed_of_job (w := Writes.none) hq hr rfl rfl ?_ rfl ⟨fun l hl => ?_, fun _ _ _ _ => rfl, rfl, rfl, rfl, rfl⟩
    · show Act.writes s _ = Act.writes s Writes.none
      rw [if_pos hpart]
    · rw [Frame.on, hpart, mem_lanesOf] at hl
      simp at hl
  · refine computed_of_job (w := Writes.ofP p.val h.frame.part
      (if voteVal fn (h.frame.on.map fun l => srcVal h.frame .u32 a l != 0) then h.frame.part else 0)) hq hr rfl rfl ?_ rfl ?_
    · show Act.writes s _ = Act.writes s _
      rw [if_neg hpart]
    · rw [Regs.apply_ofP]
      refine predResult_of (f := h.frame) (team_wf hq.1 hregs) fun l hl => ?_
      cases voteVal fn (h.frame.on.map fun l => srcVal h.frame .u32 a l != 0)
      · exact BitVec.getLsbD_zero
      · exact mem_lanesOf.mp hl

/-- Settles O23: each operation is one job with a predicate result, and a vote has one value for all its lanes. -/
theorem predicateLanes : Obligations.PredicateLanes := by
  unfold Obligations.PredicateLanes
  intro sw p a b s h hq hregs
  refine ⟨fun r hr => predDid_of_job hq hregs hr rfl rfl rfl, fun c hr => predDid_of_job hq hregs hr rfl rfl rfl,
    fun q r tbl hr => ?_, fun hr => predDid_of_job hq hregs hr rfl rfl rfl, fun fn hr => predDid_vote hq hregs hr⟩
  have hdid := predDid_of_job (i := .plog sw p q r tbl) (sw := sw) hq hregs hr rfl rfl rfl
  exact predDid_congr (fun l => by rw [Nat.mul_comm 2]) hdid

/-! ## Sums and conflicts over lanes (R65, R107, R109) -/

theorem map_fst_partials (e : Elem) (v : Env) : ∀ (xs : List (Nat × Nat)) (acc : Option Res), (partials e v xs acc).map (·.1) = xs.map (·.1)
  | [], _ => rfl
  | (l, x) :: r, acc => by simp only [partials, List.map_cons, map_fst_partials e v r]

/-- A list of pairs with distinct keys is read back key by key. -/
theorem map_find_keys {α : Type} (ps : List (Nat × α)) (hn : (ps.map (·.1)).Nodup) :
    ps.map some = (ps.map (·.1)).map fun l => ps.find? fun p => p.1 = l := by
  rw [List.map_map]
  refine List.map_congr_left fun p hp => (List.find?_eq_some_iff_append.mpr ⟨by simp, ?_⟩).symm
  obtain ⟨as, bs, rfl⟩ := List.append_of_mem hp
  refine ⟨as, bs, rfl, fun q hq => ?_⟩
  rw [List.map_append, List.nodup_append] at hn
  simpa using hn.2.2 q.1 (List.mem_map_of_mem hq) p.1 (List.mem_map_of_mem List.mem_cons_self)

/-- The sum up to a lane, and its flags, of the partial sums. -/
def sumAt (ps : List (Nat × Res)) (l : Nat) : Nat × Flags :=
  match ps.find? fun p => p.1 = l with
  | some p => (p.2.val, p.2.flags)
  | none => (0, 0)

theorem map_sumAt (ps : List (Nat × Res)) (hn : (ps.map (·.1)).Nodup) :
    (ps.map (·.1)).map (fun l => (l, sumAt ps l)) = ps.map fun p => (p.1, p.2.val, p.2.flags) := by
  rw [List.map_map]
  refine List.map_congr_left fun p hp => ?_
  have hfind : some p = ps.find? fun q => q.1 = p.1 := by
    have hkeys := map_find_keys ps hn
    rw [List.map_map, List.map_inj_left] at hkeys
    exact hkeys p hp
  simp only [Function.comp_apply, sumAt, ← hfind]

/-- PSUM leaves in every lane that takes part the sum as far as its own. -/
theorem laneDid_psum {sw : Bool} {d : Dst} {a : Src} {s : State} {h : Here} (hq : Quiet s h) (hregs : RegistersOk s)
    (hr : Ready (jobPsum d a) h.frame) :
    LaneDid (.psum sw d a) s h sw d h.frame.mode.t.regs
      (sumAt (partials h.frame.mode.t.elem h.frame.mode.env (h.frame.on.map fun l => (l, srcVal h.frame h.frame.mode.t a l)) none)) := by
  refine laneDid_of_job hq hregs hr rfl rfl ?_
  have hkeys := map_fst_partials h.frame.mode.t.elem h.frame.mode.env (h.frame.on.map fun l => (l, srcVal h.frame h.frame.mode.t a l)) none
  rw [List.map_map, show ((fun p : Nat × Nat => p.1) ∘ fun l => (l, srcVal h.frame h.frame.mode.t a l)) = id from rfl, List.map_id] at hkeys
  show Act.writes s _ = laneRun d _ _ h h.frame s
  simp only [laneRun]
  generalize partials h.frame.mode.t.elem h.frame.mode.env (h.frame.on.map fun l => (l, srcVal h.frame h.frame.mode.t a l)) none = ps at *
  rw [← hkeys, map_sumAt ps (hkeys ▸ nodup_lanesOf _), List.flatMap_map, List.foldl_map]

/-- Settles O24: a shuffle reads the lane that its job names, PSUM by the partial sums, and VCONF by the first lane of the same value. -/
theorem laneExchange : Obligations.LaneExchange := by
  unfold Obligations.LaneExchange
  intro sw d a b s h hq hregs
  refine ⟨fun hr => laneDid_of_job hq hregs hr rfl rfl rfl, fun hr => laneDid_of_job hq hregs hr rfl rfl rfl,
    fun hr => laneDid_of_job hq hregs hr rfl rfl rfl, fun hr => laneDid_of_job hq hregs hr rfl rfl rfl, fun hr => ?_, fun hr => ?_⟩
  · have hdid := laneDid_of_job (i := .vconf sw d a) (sw := sw) hq hregs hr rfl rfl rfl
    refine laneDid_congr (fun l => ?_) hdid
    have hid : ((fun p : Nat × Nat => p.1) ∘ fun l => (l, srcVal h.frame h.frame.mode.t a l)) = id := rfl
    rw [List.find?_map, Option.map_map, hid, Option.map_id_apply, List.head?_filter]
    rfl
  · exact laneDid_psum hq hregs hr

/-! ## Lane values into a uniform register (R106, R108, R110) -/

/-- A number gets bit k when 2^k is added to it, where it has not got it. -/
theorem getLsbD_add_two_pow {x k i : Nat} (hx : (BitVec.ofNat 64 x).getLsbD k = false) (hi : i < 64) :
    (BitVec.ofNat 64 (x + 2 ^ k)).getLsbD i = ((BitVec.ofNat 64 x).getLsbD i || decide (i = k)) := by
  have hand : BitVec.ofNat 64 x &&& BitVec.twoPow 64 k = 0#64 := by rw [BitVec.and_twoPow, hx]; rfl
  have htwo : BitVec.ofNat 64 (2 ^ k) = BitVec.twoPow 64 k := by
    refine BitVec.eq_of_toNat_eq ?_
    rw [BitVec.toNat_ofNat, BitVec.toNat_twoPow]
  rw [BitVec.ofNat_add, htwo, BitVec.add_eq_or_of_and_eq_zero _ _ hand, BitVec.getLsbD_or, BitVec.getLsbD_twoPow]
  have hlt : (decide (k < 64) && decide (k = i)) = decide (i = k) := by
    rw [← Bool.decide_and]
    exact decide_eq_decide.mpr (by omega)
  rw [hlt]

/-- A sum of distinct powers of two has a bit for each of them. -/
theorem getLsbD_sum_two_pow {i : Nat} (hi : i < 64) (ks : List Nat) (hn : ks.Nodup) (hks : ∀ k ∈ ks, k < 64) (x : Nat)
    (hx : ∀ k ∈ ks, (BitVec.ofNat 64 x).getLsbD k = false) :
    (BitVec.ofNat 64 (ks.foldl (fun x k => x + 2 ^ k) x)).getLsbD i = ((BitVec.ofNat 64 x).getLsbD i || decide (i ∈ ks)) := by
  induction ks generalizing x with
  | nil => simp
  | cons k ks ih =>
    obtain ⟨hk, hn⟩ := List.nodup_cons.mp hn
    have hxk := hx k List.mem_cons_self
    have hnext : ∀ j ∈ ks, (BitVec.ofNat 64 (x + 2 ^ k)).getLsbD j = false := fun j hj => by
      have hne : j ≠ k := fun e => hk (e ▸ hj)
      rw [getLsbD_add_two_pow hxk (hks j (List.mem_cons_of_mem _ hj)), hx j (List.mem_cons_of_mem _ hj)]
      simpa using hne
    rw [List.foldl_cons, ih hn (fun j hj => hks j (List.mem_cons_of_mem _ hj)) _ hnext, getLsbD_add_two_pow hxk hi]
    simp [Bool.or_assoc]

/-- Bit i of a ballot is that of lane 64 j + i (R106). -/
theorem ballot_bit (ls : List Nat) (hn : ls.Nodup) (g : Nat → Bool) (j : Nat) {i : Nat} (hi : i < 64) :
    (BitVec.ofNat 64 ((ls.filter fun l => l / 64 == j && g l).foldl (fun x l => x + 2 ^ (l % 64)) 0)).getLsbD i
      = decide (64 * j + i ∈ ls ∧ g (64 * j + i) = true) := by
  rw [← List.foldl_map (f := fun l => l % 64) (g := fun x k => x + 2 ^ k), getLsbD_sum_two_pow hi]
  · have hmem : i ∈ (ls.filter fun l => l / 64 == j && g l).map (· % 64) ↔ 64 * j + i ∈ ls ∧ g (64 * j + i) = true := by
      simp only [List.mem_map, List.mem_filter, Bool.and_eq_true, beq_iff_eq]
      constructor
      · rintro ⟨l, ⟨hl, rfl, hg⟩, rfl⟩
        rw [Nat.div_add_mod]
        exact ⟨hl, hg⟩
      · rintro ⟨hl, hg⟩
        exact ⟨64 * j + i, ⟨hl, by omega, hg⟩, by omega⟩
    simp [hmem]
  · refine List.Nodup.map_on (fun x hx y hy e => ?_) (hn.filter _)
    simp only [List.mem_filter, Bool.and_eq_true, beq_iff_eq] at hx hy
    omega
  · intro k hk
    obtain ⟨l, -, rfl⟩ := List.mem_map.mp hk
    exact Nat.mod_lt _ (by decide)
  · simp

/-- Taking a free value counts it, and does no more. -/
theorem outside_of_bump {t : Nat} {s s' : State} (ho : Outside t s.bump s') : Outside t s s' := { ho with }

/-- An instruction that has taken a free value and then ends has acted on its team alone. -/
theorem did_of_endAt_bump {i : Instr} {s : State} {h : Here} {sw : Bool} {tm : Team} {pc : W64} {cost : List (Nat × Nat)}
    (hi : issuing s = some h) (hp : tm.passes = h.tm.passes) (he : exec i s = .next (endAt s.bump h sw pc cost tm)) :
    Did i s h sw tm pc (costTotal cost) := by
  obtain ⟨tm0, ht, -⟩ := issuing_some hi
  obtain ⟨hl, -⟩ := List.getElem?_eq_some_iff.mp ht
  obtain ⟨age, owed, ha⟩ := endAt_team s.bump h sw pc cost tm hl
  rw [hp] at ha
  exact ⟨_, age, owed, he, outside_of_bump (endAt_outside s.bump h sw pc cost tm), ha⟩

/-- A ready variable-latency instruction that takes a free value. -/
theorem sentOff_of_bump {i : Instr} {sw : Bool} {jf : Frame → Job} {s : State} {h : Here} {w : Writes}
    (hq : Quiet s h) (hr : Ready jf h.frame) (he : exec i s = issueJob i sw jf s) (hl : (jf h.frame).late = true)
    (ht : (jf h.frame).tile s.bump h = none) (hrun : (jf h.frame).run h h.frame s = .done s.bump w [] [] []) :
    SentOff i s h sw ((jf h.frame).writeKeys h.frame ((jf h.frame).lanesIn h.frame)) w := by
  obtain ⟨hok, hspans, hcheck, hbad⟩ := hr
  obtain ⟨hi, hclaims, hres, hflight, hstall⟩ := hq
  have hnow : teamNow s.bump h = h.tm := teamNow_issuing hi
  have hissue := issueJob_quiet (i := i) (sw := sw) (jf := jf) ⟨hi, hclaims, hres, hflight, hstall⟩
  rw [hok, hspans, hcheck] at hissue
  simp only [Bool.and_self, Bool.not_true, Bool.false_eq_true, if_false, issueNow, hbad, List.isEmpty_nil, hrun, settleWrites, hl,
    if_true, hnow, watch, seenBy, onceActed, whileOpen, Bool.true_or, ht, nextPc_encode] at hissue
  rw [launch_noClaims (tm := { h.tm with nextId := h.tm.nextId + 1 }) hclaims] at hissue
  simp only [hflight, List.nil_append] at hissue
  exact ⟨_, _, _, did_of_endAt_bump hi rfl (he.trans hissue), rfl, rfl, rfl, rfl, rfl, rfl⟩

/-- A job that writes one uniform register and nothing else. -/
theorem writeKeys_uniform {j : Job} {d : Nat} (hv : j.vwrites = []) (hu : j.uwrites = [d]) (hp : j.pwrites = []) (f : Frame)
    (ls : List Nat) : j.writeKeys f ls = [.s d] := by
  simp [Job.writeKeys, hv, hu, hp]

/-- Settles O25: each is one variable-latency job whose value is known at issue; a ballot is a sum of distinct powers of two. -/
theorem laneToUniform : Obligations.LaneToUniform := by
  unfold Obligations.LaneToUniform
  intro sw d a b s h hq
  refine ⟨fun hr => ?_, fun hr => ?_, fun hr => ?_⟩
  · have hsent := sentOff_of_job (i := .ballot sw d a b) (sw := sw) hq hr rfl rfl rfl rfl
    rw [writeKeys_uniform rfl rfl rfl] at hsent
    refine ⟨_, hsent, fun i hi => ?_⟩
    rw [Frame.on, ballot_bit _ (nodup_lanesOf _) _ _ hi]
    simp
  · have hsent := sentOff_of_job (i := .redu sw d a) (sw := sw) hq hr rfl rfl rfl rfl
    rw [writeKeys_uniform rfl rfl rfl] at hsent
    dsimp only at hsent ⊢
    generalize (partials h.frame.mode.t.elem h.frame.mode.env
      (h.frame.on.map fun l => (l, srcVal h.frame h.frame.mode.t a l)) none).getLast? = last at *
    cases last <;> exact hsent
  · refine ⟨laneVal h.frame h.frame.mode.t a ((usrcVal h.frame b).toNat % h.frame.lanes) s.tick, ?_, fun hok => ?_⟩
    · have hkeys := writeKeys_uniform (j := jobRdlane d a b h.frame) rfl rfl rfl h.frame ((jobRdlane d a b h.frame).lanesIn h.frame)
      rw [← hkeys]
      by_cases hok : srcLaneOk h.frame h.frame.mode.t a ((usrcVal h.frame b).toNat % h.frame.lanes) = true
      · exact sentOff_of_job hq hr rfl rfl rfl (congrArg (Act.writes · _) (if_pos hok))
      · exact sentOff_of_bump hq hr rfl rfl rfl (congrArg (Act.writes · _) (if_neg hok))
    · rw [laneVal, if_pos hok]

end Sys2Proof.Proofs.Lanes
end

section
/-! Certificates for the family spec/05_instructions_core.md: elementwise lane instructions (R71, R87, R91, R96 to R99). -/
namespace Sys2Proof.Proofs.Elementwise
open Sys2Proof Sys2Proof.Machine

/-! ## The jobs (R71, R87, R91, R96 to R99) -/

section
variable {i : Instr} {s : State} {h : Here} {sw : Bool} {ok : Ty → Bool} {n : Nat} {d : Dst} {a b : Src} {e : Elem}
variable (hq : Quiet s h) (hregs : RegistersOk s) (ht : h.frame.mode.t.elem = e)
include hq hregs ht

/-- An elementwise instruction on one source: its operation on each element of the type. -/
theorem laneDid_elemJob1 {g : Elem → Env → Nat → Res} {op : Nat → Res} (hr : Ready (elemJob1 ok n d a g) h.frame)
    (he : exec i s = issueJob i sw (elemJob1 ok n d a g) s) (hop : g e h.frame.mode.env = op) :
    LaneDid i s h sw d h.frame.mode.t.regs fun l =>
      elemLane h.frame.mode.t (fun _ x _ => op x) 0 (srcVal h.frame h.frame.mode.t a l) 0 := by
  subst ht hop
  exact laneDid_of_job hq hregs hr he rfl rfl

/-- An elementwise instruction on two sources. -/
theorem laneDid_elemJob2 {g : Elem → Env → Nat → Nat → Nat → Res} {op : Nat → Nat → Res} (hr : Ready (elemJob ok n false d a b g) h.frame)
    (he : exec i s = issueJob i sw (elemJob ok n false d a b g) s) (hop : g e h.frame.mode.env = fun _ => op) :
    LaneDid i s h sw d h.frame.mode.t.regs fun l =>
      elemLane h.frame.mode.t (fun _ x y => op x y) 0 (srcVal h.frame h.frame.mode.t a l) (srcVal h.frame h.frame.mode.t b l) := by
  subst ht
  have hdid := laneDid_of_job (n := h.frame.mode.t.regs) hq hregs hr he rfl rfl
  rwa [hop] at hdid

/-- An elementwise instruction that also reads its destination. -/
theorem laneDid_elemJob3 {g : Elem → Env → Nat → Nat → Nat → Res} {op : Nat → Nat → Nat → Res}
    (hr : Ready (elemJob ok n true d a b g) h.frame) (he : exec i s = issueJob i sw (elemJob ok n true d a b g) s)
    (hop : g e h.frame.mode.env = op) :
    LaneDid i s h sw d h.frame.mode.t.regs fun l =>
      elemLane h.frame.mode.t op (dstVal h.frame d h.frame.mode.t.regs l 0) (srcVal h.frame h.frame.mode.t a l)
        (srcVal h.frame h.frame.mode.t b l) := by
  subst ht hop
  exact laneDid_of_job hq hregs hr he rfl rfl

end

/-! ## f32 words (R52) -/

/-- The exponent field of a f32 word. -/
def f32Field (x : Nat) : Nat := x / 2 ^ 23 % 2 ^ 8
/-- The sign of a f32 word. -/
def f32Neg (x : Nat) : Bool := x / 2 ^ 31 % 2 == 1
/-- The significand of a finite f32 word. -/
def f32Sig (x : Nat) : Nat := if f32Field x = 0 then x % 2 ^ 23 else x % 2 ^ 23 + 2 ^ 23
/-- How far the significand of a finite f32 word stands above the least f32 number. -/
def f32Shift (x : Nat) : Nat := f32Field x - 1
/-- The magnitude of a finite f32 word, times 2¹⁴⁹. -/
def f32Mag (x : Nat) : Nat := f32Sig x * 2 ^ f32Shift x

theorem f32Mag_eq (x : Nat) :
    f32Mag x = if f32Field x = 0 then x % 2 ^ 23 else (2 ^ 23 + x % 2 ^ 23) * 2 ^ (f32Field x - 1) := by
  unfold f32Mag f32Sig f32Shift
  split
  next h0 => rw [h0, Nat.zero_sub, Nat.pow_zero, Nat.mul_one]
  next => rw [Nat.add_comm]

theorem f32Int_eq (x : Nat) : f32Int x = if f32Neg x then -(f32Mag x : Int) else f32Mag x := by
  rw [f32Mag_eq, f32Neg]
  simp only [beq_iff_eq]
  rfl

/-- How a f32 word is read. -/
theorem fread_f32 (ftz : Bool) (x : Nat) : fread fmtF32 ftz x =
    if f32Field x = 255 then (if x % 2 ^ 23 = 0 then .inf (f32Neg x) else .nan (x % 2 ^ 23 / 2 ^ 22 == 0))
    else if f32Field x = 0 then (if ftz then .fin (f32Neg x) 0 0 else .fin (f32Neg x) (x % 2 ^ 23) (-149))
    else .fin (f32Neg x) (x % 2 ^ 23 + 2 ^ 23) ((f32Field x : Int) - 127 - 23) := by
  have hfield : x % 2 ^ 31 / 2 ^ 23 = f32Field x := by unfold f32Field; omega
  have hfrac : x % 2 ^ 31 % 2 ^ 23 = x % 2 ^ 23 := by omega
  have hnan : (decide (0x7F7FFFFF < x % 2 ^ 31) && !(x % 2 ^ 31 == 0x7F800000)) = decide (f32Field x = 255 ∧ x % 2 ^ 23 ≠ 0) := by
    unfold f32Field
    simp only [Bool.beq_eq_decide_eq, ← Bool.decide_and, ← decide_not]
    exact decide_eq_decide.mpr (by omega)
  have hinf : (x % 2 ^ 31 == 0x7F800000) = decide (f32Field x = 255 ∧ x % 2 ^ 23 = 0) := by
    unfold f32Field
    exact decide_eq_decide.mpr (by omega)
  change (if decide (0x7F7FFFFF < x % 2 ^ 31) && !(x % 2 ^ 31 == 0x7F800000) then FVal.nan (x % 2 ^ 31 % 2 ^ 23 / 2 ^ 22 == 0)
    else if (x % 2 ^ 31 == 0x7F800000) then .inf (f32Neg x)
    else if x % 2 ^ 31 / 2 ^ 23 = 0 then (if ftz && true then .fin (f32Neg x) 0 0 else .fin (f32Neg x) (x % 2 ^ 31 % 2 ^ 23) (-149))
    else .fin (f32Neg x) (x % 2 ^ 31 % 2 ^ 23 + 2 ^ 23) ((x % 2 ^ 31 / 2 ^ 23 : Nat) - 127 - 23)) = _
  rw [hnan, hinf, hfield, hfrac, Bool.and_true]
  simp only [decide_eq_true_eq]
  by_cases hfield : f32Field x = 255
  · by_cases hfrac : x % 2 ^ 23 = 0
    · rw [if_neg fun h => h.2 hfrac, if_pos ⟨hfield, hfrac⟩, if_pos hfield, if_pos hfrac]
    · rw [if_pos ⟨hfield, hfrac⟩, if_pos hfield, if_neg hfrac]
  · rw [if_neg fun h => hfield h.1, if_neg fun h => hfield h.1, if_neg hfield]

/-- NaN words, and no others, are read as NaNs. -/
theorem isNan_fread_f32 (ftz : Bool) (x : Nat) : (fread fmtF32 ftz x).isNan = true ↔ f32IsNan x := by
  rw [fread_f32, f32IsNan, ← f32Field]
  by_cases hfield : f32Field x = 255
  · rw [if_pos hfield]
    split
    next hfrac => exact iff_of_false Bool.false_ne_true fun h => h.2 hfrac
    next hfrac => exact iff_of_true rfl ⟨hfield, hfrac⟩
  · rw [if_neg hfield]
    refine iff_of_false ?_ fun h => hfield h.1
    cases ftz <;> split <;> exact Bool.false_ne_true

/-- A finite word is read as its number. -/
theorem fread_f32_finite {x : Nat} (hf : f32Finite x) :
    fread fmtF32 false x = .fin (f32Neg x) (f32Sig x) ((f32Shift x : Int) - 149) := by
  rw [fread_f32, if_neg (show f32Field x ≠ 255 from hf), f32Sig, f32Shift]
  split
  next h0 => rw [h0]; rfl
  next h0 => rw [show ((f32Field x : Int) - 127 - 23) = ((f32Field x - 1 : Nat) : Int) - 149 by omega]

/-! ## Exact results (R55) -/

theorem f32Sig_lt (x : Nat) : f32Sig x < 2 ^ 24 := by unfold f32Sig; split <;> omega

/-- A significand of full length where the number is not subnormal. -/
theorem f32Sig_ge {x : Nat} (h : f32Shift x ≠ 0) : 2 ^ 23 ≤ f32Sig x := by
  unfold f32Shift at h
  unfold f32Sig
  rw [if_neg (by omega)]
  omega

/-- A finite word's magnitude is its shift and its significand, added up. -/
theorem f32_code (x : Nat) : (if f32Sig x < 2 ^ 23 then f32Sig x else f32Shift x * 2 ^ 23 + f32Sig x) = x % 2 ^ 31 := by
  have hmag : x % 2 ^ 31 = f32Field x * 2 ^ 23 + x % 2 ^ 23 := by unfold f32Field; omega
  unfold f32Sig f32Shift
  split <;> split <;> omega

theorem bitLen_mul_two_pow {m : Nat} (hm : m ≠ 0) (k : Nat) : bitLen (m * 2 ^ k) = bitLen m + k := by
  have hmk : m * 2 ^ k ≠ 0 := Nat.mul_ne_zero hm (by positivity)
  have hlog : (m * 2 ^ k).log2 = m.log2 + k := by
    rw [Nat.log2_eq_iff hmk, Nat.pow_add, Nat.add_right_comm, Nat.pow_add]
    exact ⟨Nat.mul_le_mul_right _ (Nat.log2_self_le hm), Nat.mul_lt_mul_of_pos_right Nat.lt_log2_self (by positivity)⟩
  rw [bitLen, bitLen, if_neg hm, if_neg hmk, hlog]
  omega

/-- Rounding has nothing to do to a magnitude without a remainder. -/
theorem roundMag_exact (r : Rnd) (neg : Bool) (q k : Nat) : roundMag r neg (q * 2 ^ k) k false = q := by
  have hpos : 0 < 2 ^ k := by positivity
  have hup : roundUp r neg q 0 k false = false := by
    cases r <;> simp [roundUp, hpos.ne]
  rw [roundMag, Nat.mul_div_cancel _ hpos, Nat.mul_mod_left, hup]
  rfl

/-- The numbers m × 2^e and q × 2^lsb are one number. -/
def SameNumber (m : Nat) (e : Int) (q : Nat) (lsb : Int) : Prop :=
  ∃ k : Nat, (m = q * 2 ^ k ∧ e = lsb - k) ∨ (q = m * 2 ^ k ∧ e = lsb + k)

theorem SameNumber.ne_zero {m q : Nat} {e lsb : Int} (h : SameNumber m e q lsb) (hm : m ≠ 0) : q ≠ 0 := by
  rintro rfl
  obtain ⟨k, ⟨rfl, -⟩ | ⟨hq, -⟩⟩ := h
  · exact hm (Nat.zero_mul _)
  · exact Nat.mul_ne_zero hm (by positivity) hq.symm

/-- A number's highest bit does not depend on how it is written. -/
theorem SameNumber.top {m q : Nat} {e lsb : Int} (h : SameNumber m e q lsb) (hm : m ≠ 0) : e + bitLen m = lsb + bitLen q := by
  have hq := h.ne_zero hm
  obtain ⟨k, ⟨rfl, rfl⟩ | ⟨rfl, rfl⟩⟩ := h
  · rw [bitLen_mul_two_pow hq]; omega
  · rw [bitLen_mul_two_pow hm]; omega

/-- A number written with a given last place, where that place holds it exactly. -/
theorem SameNumber.shiftTo {m q : Nat} {e lsb : Int} (h : SameNumber m e q lsb) : ∃ k, shiftTo m e lsb = (q * 2 ^ k, k) := by
  obtain ⟨k, ⟨rfl, rfl⟩ | ⟨rfl, rfl⟩⟩ := h
  · by_cases hk : k = 0
    · refine ⟨0, ?_⟩
      rw [Machine.shiftTo, if_pos (by omega), hk]
      simp
    · refine ⟨k, ?_⟩
      rw [Machine.shiftTo, if_neg (by omega), show (lsb - (lsb - k)).toNat = k by omega]
  · refine ⟨0, ?_⟩
    rw [Machine.shiftTo, if_pos (by omega), show (lsb + k - lsb).toNat = k by omega]
    simp

theorem bitLen_f32Sig_le (x : Nat) : bitLen (f32Sig x) ≤ 24 := by
  unfold bitLen
  split
  next => omega
  next h0 =>
    have := (Nat.log2_lt h0).mpr (f32Sig_lt x)
    omega

theorem bitLen_f32Sig_eq {x : Nat} (h : f32Shift x ≠ 0) : bitLen (f32Sig x) = 24 := by
  have hge := f32Sig_ge h
  have h0 : f32Sig x ≠ 0 := by omega
  rw [bitLen, if_neg h0, (Nat.log2_eq_iff h0).mpr ⟨hge, f32Sig_lt x⟩]

/-- The last place of a number that a finite f32 word holds is that of the word. -/
theorem lsb_f32 {m : Nat} {e : Int} {z : Nat} (hm : m ≠ 0) (hv : SameNumber m e (f32Sig z) ((f32Shift z : Int) - 149)) :
    max (e + bitLen m - 1) (1 - 127) - 23 = (f32Shift z : Int) - 149 := by
  have htop := hv.top hm
  have hle := bitLen_f32Sig_le z
  by_cases h0 : f32Shift z = 0
  · omega
  · have heq := bitLen_f32Sig_eq h0
    omega

/-- A number that a finite f32 word holds is rounded to that word, and raises no flag (R55). -/
theorem fround_f32_exact {v : Env} (hv : v.ftz = false) (neg : Bool) {m : Nat} {e : Int} {z : Nat} (hm : m ≠ 0) (hz : f32Finite z)
    (hsame : SameNumber m e (f32Sig z) ((f32Shift z : Int) - 149)) :
    fround fmtF32 v neg m e false = ⟨fmtF32.sign neg + z % 2 ^ 31, 0⟩ := by
  have hlsb := lsb_f32 hm hsame
  obtain ⟨k, hshift⟩ := hsame.shiftTo
  have hmax : ¬0x7F7FFFFF < z % 2 ^ 31 := by unfold f32Finite at hz; omega
  have hcode : (if f32Sig z < 2 ^ 23 then f32Sig z else (((f32Shift z : Int) - 149 + 23 + 127).toNat - 1) * 2 ^ 23 + f32Sig z)
      = z % 2 ^ 31 := by
    rw [show ((f32Shift z : Int) - 149 + 23 + 127).toNat - 1 = f32Shift z by omega]
    exact f32_code z
  have hbias : (fmtF32.bias : Int) = 127 := rfl
  have hmb : fmtF32.mb = 23 := rfl
  have hcast : ((23 : Nat) : Int) = 23 := rfl
  have hmaxc : fmtF32.maxc = 0x7F7FFFFF := rfl
  simp only [fround, if_neg hm, hbias, hmb, hcast, hlsb, hshift, roundMag_exact, hcode, hmaxc, if_neg hmax, hv, Nat.mul_mod_left,
    Bool.false_and, Bool.false_eq_true, if_false, bne_self_eq_false, Bool.or_false, Bool.and_false]
  rfl

theorem SameNumber.of_mul {m q p r : Nat} (h : m * 2 ^ p = q * 2 ^ r) (c : Int) : SameNumber m (p - c) q (r - c) := by
  rcases Nat.le_total p r with hle | hle
  · refine ⟨r - p, .inl ⟨?_, by omega⟩⟩
    refine Nat.eq_of_mul_eq_mul_right (Nat.two_pow_pos p) ?_
    rw [Nat.mul_assoc, ← Nat.pow_add, Nat.sub_add_cancel hle, h]
  · refine ⟨p - r, .inr ⟨?_, by omega⟩⟩
    refine Nat.eq_of_mul_eq_mul_right (Nat.two_pow_pos r) ?_
    rw [Nat.mul_assoc, ← Nat.pow_add, Nat.sub_add_cancel hle, h]

theorem natAbs_f32Int (x : Nat) : (f32Int x).natAbs = f32Mag x := by
  rw [f32Int_eq]
  split <;> omega

theorem f32Neg_eq {z : Nat} (h : f32Int z ≠ 0) : f32Neg z = decide (f32Int z < 0) := by
  rw [f32Int_eq] at h ⊢
  cases f32Neg z
  · simp
  · simp only [if_true] at h ⊢
    exact (decide_eq_true (by omega)).symm

theorem f32Sig_ne_zero {z : Nat} (h : f32Int z ≠ 0) : f32Sig z ≠ 0 := by
  intro hsig
  refine h (Int.natAbs_eq_zero.mp ?_)
  rw [natAbs_f32Int, f32Mag, hsig, Nat.zero_mul]

theorem sign_f32 (neg : Bool) : fmtF32.sign neg = if neg then 2 ^ 31 else 0 := rfl

/-- A word is its sign and its magnitude. -/
theorem f32_word {z : Nat} (hz : z < 2 ^ 32) : fmtF32.sign (f32Neg z) + z % 2 ^ 31 = z := by
  rw [sign_f32, f32Neg]
  simp only [beq_iff_eq]
  split <;> omega

/-- The number of a finite word, taken in a lower place. -/
theorem scaled_f32 {x lo : Nat} (h : lo ≤ f32Shift x) :
    scaled (f32Neg x) (f32Sig x) ((f32Shift x : Int) - 149) ((lo : Int) - 149) * 2 ^ lo = f32Int x := by
  have hmag : ((f32Sig x * 2 ^ ((f32Shift x : Int) - 149 - ((lo : Int) - 149)).toNat : Nat) : Int) * 2 ^ lo = f32Mag x := by
    rw [show ((f32Shift x : Int) - 149 - ((lo : Int) - 149)).toNat = f32Shift x - lo by omega, f32Mag]
    norm_cast
    rw [Nat.mul_assoc, ← Nat.pow_add, Nat.sub_add_cancel h]
  rw [f32Int_eq, scaled]
  cases f32Neg x
  · simpa using hmag
  · simp only [if_true, Int.neg_mul, hmag]

section
variable {v : Env} {x y z : Nat}

theorem isNan_add (r : Rnd) {a b : FVal} (h : a.isNan = true ∨ b.isNan = true) : (a.add r b).isNan = true := by
  cases a <;> cases b <;> simp_all [FVal.isNan, FVal.add]
theorem isNan_mul {a b : FVal} (h : a.isNan = true ∨ b.isNan = true) : (a.mul b).isNan = true := by
  cases a <;> cases b <;> simp_all [FVal.isNan, FVal.mul]
theorem isNan_neg (a : FVal) : a.neg.isNan = a.isNan := by cases a <;> rfl

theorem fput_f32_nan {a : FVal} (h : a.isNan = true) : (fput fmtF32 v a).val = 0x7FC00000 := by
  cases a with
  | nan s => rfl
  | inf => cases h
  | fin => cases h

/-- A NaN operand of a sum, a difference or a product gives the canonical NaN (R58). -/
theorem binElem_f32_nan {o : BinOp} (ho : o = .add ∨ o = .sub ∨ o = .mul) (hn : f32IsNan x ∨ f32IsNan y) :
    (binElem (.flt fmtF32) v o x y).val = 0x7FC00000 := by
  rw [← isNan_fread_f32 v.ftz, ← isNan_fread_f32 v.ftz] at hn
  obtain rfl | rfl | rfl := ho
  · exact fput_f32_nan (isNan_add v.rnd hn)
  · exact fput_f32_nan (isNan_add v.rnd (by rwa [isNan_neg]))
  · exact fput_f32_nan (isNan_mul hn)

/-- Of what is no NaN a change of sign changes the sign bit alone (R57). -/
theorem signElem_f32 (hn : ¬f32IsNan x) (abs : Bool) :
    (signElem (.flt fmtF32) v abs x).val = if abs then x % 2 ^ 31 else if f32Neg x then x % 2 ^ 31 else x % 2 ^ 31 + 2 ^ 31 := by
  rw [signElem]
  cases hval : fread fmtF32 false x with
  | nan s => exact absurd ((isNan_fread_f32 false x).mp (by rw [hval]; rfl)) hn
  | inf => rfl
  | fin => rfl

variable (hx : f32Finite x) (hy : f32Finite y) (hv : v.ftz = false) (hz : f32Finite z) (hlt : z < 2 ^ 32) (h0 : f32Int z ≠ 0)
include hx hy hv hz hlt h0

/-- A sum that a finite word holds exactly is that word (R55). -/
theorem binElem_f32_add (hsum : f32Int x + f32Int y = f32Int z) : binElem (.flt fmtF32) v .add x y = ⟨z, 0⟩ := by
  have hlo : min ((f32Shift x : Int) - 149) ((f32Shift y : Int) - 149) = ((min (f32Shift x) (f32Shift y) : Nat) : Int) - 149 := by
    omega
  have hscaled := scaled_f32 (Nat.min_le_left (f32Shift x) (f32Shift y))
  have hscaled' := scaled_f32 (Nat.min_le_right (f32Shift x) (f32Shift y))
  simp only [binElem, hv, fread_f32_finite hx, fread_f32_finite hy, FVal.add, hlo]
  generalize min (f32Shift x) (f32Shift y) = lo at *
  rw [← hscaled, ← hscaled', ← Int.add_mul] at hsum
  generalize scaled (f32Neg x) _ _ _ + scaled (f32Neg y) _ _ _ = n at *
  have hn : n ≠ 0 := by
    rintro rfl
    exact h0 (by rw [← hsum, Int.zero_mul])
  have hsign : decide (n < 0) = f32Neg z := by
    rw [f32Neg_eq h0, ← hsum]
    have hpos : (0 : Int) < 2 ^ lo := Int.pow_pos (by decide)
    exact decide_eq_decide.mpr ⟨fun h => Int.mul_neg_of_neg_of_pos h hpos, fun h => neg_of_mul_neg_left h hpos.le⟩
  have hsame : n.natAbs * 2 ^ lo = f32Sig z * 2 ^ f32Shift z := by
    have := congrArg Int.natAbs hsum
    rwa [Int.natAbs_mul, natAbs_f32Int, Int.natAbs_pow] at this
  rw [if_neg hn, fput, fround_f32_exact hv _ (Int.natAbs_ne_zero.mpr hn) hz (.of_mul hsame 149), hsign, f32_word hlt]

/-- A product that a finite word holds exactly is that word (R55). -/
theorem binElem_f32_mul (hprod : f32Int x * f32Int y = f32Int z * 2 ^ 149) : binElem (.flt fmtF32) v .mul x y = ⟨z, 0⟩ := by
  have hne : f32Int x * f32Int y ≠ 0 := by
    rw [hprod]
    exact Int.mul_ne_zero h0 (by decide)
  obtain ⟨hx0, hy0⟩ := Int.mul_ne_zero_iff.mp hne
  have hsign : (f32Neg x != f32Neg y) = f32Neg z := by
    have hneg : f32Int z < 0 ↔ f32Int x * f32Int y < 0 := by omega
    rw [f32Neg_eq hx0, f32Neg_eq hy0, f32Neg_eq h0, Bool.eq_iff_iff, decide_eq_true_eq, hneg, mul_neg_iff]
    rcases lt_or_gt_of_ne hx0 with hxs | hxs <;> rcases lt_or_gt_of_ne hy0 with hys | hys <;> simp [hxs, hys, hxs.not_gt, hys.not_gt]
  have hmags : f32Mag x * f32Mag y = f32Mag z * 2 ^ 149 := by
    have := congrArg Int.natAbs hprod
    rwa [Int.natAbs_mul, Int.natAbs_mul, natAbs_f32Int, natAbs_f32Int, natAbs_f32Int] at this
  have hsame : f32Sig x * f32Sig y * 2 ^ (f32Shift x + f32Shift y) = f32Sig z * 2 ^ (f32Shift z + 149) := by
    rw [Nat.pow_add, Nat.pow_add, ← Nat.mul_assoc (f32Sig z), ← f32Mag, ← hmags, f32Mag, f32Mag]
    ring
  have hsum : ((f32Shift x : Int) - 149) + ((f32Shift y : Int) - 149) = ((f32Shift x + f32Shift y : Nat) : Int) - 298 := by omega
  have hlast : ((f32Shift z + 149 : Nat) : Int) - 298 = (f32Shift z : Int) - 149 := by omega
  have hnumber := SameNumber.of_mul hsame 298
  rw [hlast] at hnumber
  simp only [binElem, hv, fread_f32_finite hx, fread_f32_finite hy, FVal.mul, fput, hsum]
  rw [fround_f32_exact hv _ (Nat.mul_ne_zero (f32Sig_ne_zero hx0) (f32Sig_ne_zero hy0)) hz hnumber, hsign, f32_word hlt]

end
/-- Settles O20: every operation is one elementwise job; of f32, a NaN is read as a NaN, and the word that holds an exact result is what
rounding gives. -/
theorem elementwiseLanes : Obligations.ElementwiseLanes := by
  unfold Obligations.ElementwiseLanes
  intro sw d a b s h hq hregs
  refine ⟨fun hr => laneDid_elemJob2 hq hregs rfl hr rfl rfl, fun hr => laneDid_elemJob2 hq hregs rfl hr rfl rfl,
    fun hr => laneDid_elemJob2 hq hregs rfl hr rfl rfl, fun hr => laneDid_elemJob2 hq hregs rfl hr rfl rfl,
    fun hr => laneDid_elemJob2 hq hregs rfl hr rfl rfl, fun hr => laneDid_elemJob3 hq hregs rfl hr rfl rfl,
    fun hr => laneDid_elemJob3 hq hregs rfl hr rfl rfl, fun hr => laneDid_elemJob1 hq hregs rfl hr rfl rfl,
    fun hr => laneDid_elemJob1 hq hregs rfl hr rfl rfl, fun m ht => ?_, fun sg w ht => ?_, fun ht x y hx hy => ?_⟩
  · exact ⟨fun hr => laneDid_elemJob1 hq hregs ht hr rfl rfl, fun hr => laneDid_elemJob1 hq hregs ht hr rfl rfl,
      fun hr => laneDid_elemJob1 hq hregs ht hr rfl rfl, fun hr => laneDid_elemJob1 hq hregs ht hr rfl rfl,
      fun hr => laneDid_elemJob1 hq hregs ht hr rfl rfl, fun hr => laneDid_elemJob1 hq hregs ht hr rfl rfl,
      fun hr => laneDid_elemJob1 hq hregs ht hr rfl rfl, fun hr => laneDid_elemJob1 hq hregs ht hr rfl rfl,
      fun hr => laneDid_elemJob2 hq hregs ht hr rfl rfl⟩
  · exact ⟨fun hr => laneDid_elemJob2 hq hregs ht hr rfl rfl, fun hr => laneDid_elemJob2 hq hregs ht hr rfl rfl,
      fun hr => laneDid_elemJob2 hq hregs ht hr rfl rfl, fun hr => laneDid_elemJob2 hq hregs ht hr rfl rfl,
      fun hr => laneDid_elemJob1 hq hregs ht hr rfl rfl, fun hr => laneDid_elemJob1 hq hregs ht hr rfl rfl,
      fun hr => laneDid_elemJob1 hq hregs ht hr rfl rfl, fun hr => laneDid_elemJob2 hq hregs ht hr rfl rfl,
      fun hr => laneDid_elemJob3 hq hregs ht hr rfl rfl, fun hr => laneDid_elemJob2 hq hregs ht hr rfl rfl⟩
  · have helem : h.frame.mode.t.elem = .flt fmtF32 := by rw [ht]; rfl
    rw [helem]
    refine ⟨fun o ho hn => binElem_f32_nan ho hn, fun hfx hfy hv z hz hfz h0 => ⟨binElem_f32_add hfx hfy hv hfz hz h0,
      binElem_f32_mul hfx hfy hv hfz hz h0⟩, fun hn => ⟨?_, signElem_f32 hn true⟩⟩
    rw [signElem_f32 hn, f32Neg]
    simp only [Bool.false_eq_true, if_false, beq_iff_eq]
    split <;> split <;> omega

end Sys2Proof.Proofs.Elementwise
end

section
/-! Certificates for the family spec/05_instructions_core.md: integer lanes (R60, R61, R65, R87, R91, R93 to R97, R107). -/
namespace Sys2Proof.Proofs.Integers
open Sys2Proof Sys2Proof.Machine

/-! ## The integers of the model as words (R60) -/

theorem ux_eq_toNat (w : Nat) (z : Int) : ux w z = (BitVec.ofInt w z).toNat := by
  rw [ux, BitVec.toNat_ofInt, Nat.cast_pow]
  rfl

theorem ofInt_intOf (sg : Bool) (w x : Nat) : BitVec.ofInt w (intOf sg w x) = BitVec.ofNat w x := by
  have hplain : BitVec.ofInt w (x : Int) = BitVec.ofNat w x := BitVec.ofInt_natCast w x
  have hwrapped : BitVec.ofInt w ((x : Int) - 2 ^ w) = BitVec.ofNat w x := by
    refine BitVec.eq_of_toNat_eq ?_
    rw [← hplain, BitVec.toNat_ofInt, BitVec.toNat_ofInt, Nat.cast_pow]
    exact congrArg Int.toNat (Int.sub_emod_right _ _)
  cases sg
  · exact hplain
  · rw [intOf, if_pos rfl, sx]
    split
    · exact hplain
    · exact hwrapped

theorem intOf_toNat {w : Nat} (hw : 0 < w) (sg : Bool) (x : BitVec w) : intOf sg w x.toNat = if sg then x.toInt else (x.toNat : Int) := by
  obtain ⟨n, rfl⟩ : ∃ n, w = n + 1 := ⟨w - 1, by omega⟩
  cases sg
  · rfl
  · rw [intOf, if_pos rfl, if_pos rfl, sx, BitVec.toInt_eq_toNat_cond, Nat.add_sub_cancel, Nat.cast_pow]
    have hhalf : x.toNat < 2 ^ n ↔ 2 * x.toNat < 2 ^ (n + 1) := by rw [Nat.pow_succ]; omega
    simp only [hhalf]
    rfl

/-- A word's low bits, or the word extended by its type's sign (R61). -/
def asWidth (sg : Bool) {w : Nat} (w' : Nat) (x : BitVec w) : BitVec w' := if sg then x.signExtend w' else x.setWidth w'

theorem asWidth_self (sg : Bool) {w : Nat} (x : BitVec w) : asWidth sg w x = x := by
  rw [asWidth, BitVec.signExtend_eq, BitVec.setWidth_eq, ite_self]

theorem ofInt_intOf_toNat {w : Nat} (hw : 0 < w) (sg : Bool) (x : BitVec w) (w' : Nat) :
    BitVec.ofInt w' (intOf sg w x.toNat) = asWidth sg w' x := by
  rw [intOf_toNat hw, asWidth]
  cases sg
  · simp only [Bool.false_eq_true, if_false]
    exact (BitVec.ofInt_natCast w' _).trans (BitVec.ofNat_toNat w' x)
  · rfl

/-- Without SAT a result is the integer's low bits. -/
theorem fitInt_wraps (sg : Bool) (w : Nat) (z : Int) : fitInt sg w false z = ⟨(BitVec.ofInt w z).toNat, 0⟩ := by
  rw [← ux_eq_toNat]; rfl

theorem ofInt_sub (w : Nat) (x y : Int) : BitVec.ofInt w (x - y) = BitVec.ofInt w x - BitVec.ofInt w y := by
  rw [Int.sub_eq_add_neg, BitVec.ofInt_add, BitVec.ofInt_neg, BitVec.sub_eq_add_neg]

/-- A number that a word holds, divided by a power of two beyond the word. -/
theorem fdiv_min {w : Nat} {z : Int} (hlow : -2 ^ w ≤ z) (hhigh : z < 2 ^ w) (c : Nat) :
    Int.fdiv z (2 ^ (min c w) : Nat) = z / (2 ^ c : Nat) := by
  rw [Int.fdiv_eq_ediv_of_nonneg _ (Int.natCast_nonneg _)]
  rcases Nat.le_total c w with hle | hle
  · rw [Nat.min_eq_left hle]
  · rw [Nat.min_eq_right hle]
    have hpow : (2 : Int) ^ w ≤ 2 ^ c := by exact_mod_cast Nat.pow_le_pow_right (by decide) hle
    push_cast
    rcases lt_or_ge z 0 with hneg | hpos
    · have hminus {p : Int} (hp : -p ≤ z) : z / p = -1 :=
        ((Int.ediv_emod_unique (b := p) (r := z + p) (by omega)).mpr ⟨by omega, by omega, by omega⟩).1
      rw [hminus hlow, hminus (by omega)]
    · rw [Int.ediv_eq_zero_of_lt hpos hhigh, Int.ediv_eq_zero_of_lt hpos (by omega)]

section
variable {w : Nat} {v : Env} (hw : 0 < w) (hv : v.sat = false) (sg : Bool) (x y : BitVec w)
include hv

theorem binElem_add : binElem (.int sg w) v .add x.toNat y.toNat = ⟨(x + y).toNat, 0⟩ := by
  simp only [binElem, hv, fitInt_wraps, BitVec.ofInt_add, ofInt_intOf, BitVec.ofNat_toNat, BitVec.setWidth_eq]
theorem binElem_sub : binElem (.int sg w) v .sub x.toNat y.toNat = ⟨(x - y).toNat, 0⟩ := by
  simp only [binElem, hv, fitInt_wraps, ofInt_sub, ofInt_intOf, BitVec.ofNat_toNat, BitVec.setWidth_eq]
theorem binElem_mul : binElem (.int sg w) v .mul x.toNat y.toNat = ⟨(x * y).toNat, 0⟩ := by
  simp only [binElem, hv, fitInt_wraps, BitVec.ofInt_mul, ofInt_intOf, BitVec.ofNat_toNat, BitVec.setWidth_eq]
theorem signElem_neg : signElem (.int sg w) v false x.toNat = ⟨(-x).toNat, 0⟩ := by
  simp only [signElem, hv, fitInt_wraps, Bool.false_eq_true, if_false, BitVec.ofInt_neg, ofInt_intOf, BitVec.ofNat_toNat, BitVec.setWidth_eq]

include hw
omit hv

/-- The order of a signed or an unsigned type (R60). -/
theorem intOf_lt : intOf sg w x.toNat < intOf sg w y.toNat ↔ (if sg then x.slt y else x.ult y) = true := by
  rw [intOf_toNat hw, intOf_toNat hw]
  cases sg
  · simp [BitVec.ult]
  · simp [BitVec.slt]

omit hw in
theorem intOf_inj : intOf sg w x.toNat = intOf sg w y.toNat ↔ x = y := by
  refine ⟨fun h => ?_, fun h => h ▸ rfl⟩
  have := congrArg (BitVec.ofInt w) h
  rwa [ofInt_intOf, ofInt_intOf, BitVec.ofNat_toNat, BitVec.ofNat_toNat, BitVec.setWidth_eq, BitVec.setWidth_eq] at this

theorem binElem_min :
    binElem (.int sg w) v .min x.toNat y.toNat = ⟨(if (if sg then x.slt y else x.ult y) then x else y).toNat, 0⟩ := by
  simp only [binElem, ← intOf_lt hw sg x y, Res.pure]
  split
  next hlt => rw [if_neg (by omega)]
  next hge =>
    split
    next => rfl
    next hle => rw [(intOf_inj sg x y).mp (by omega)]

theorem binElem_max :
    binElem (.int sg w) v .max x.toNat y.toNat = ⟨(if (if sg then y.slt x else y.ult x) then x else y).toNat, 0⟩ := by
  simp only [binElem, ← intOf_lt hw sg y x, Res.pure]
  split
  next hlt => rw [if_neg (by omega)]
  next hge =>
    split
    next => rfl
    next hle => rw [(intOf_inj sg x y).mp (by omega)]

include hv in
theorem signElem_abs : signElem (.int true w) v true x.toNat = ⟨(if x.msb then -x else x).toNat, 0⟩ := by
  have habs : BitVec.ofInt w (x.toInt.natAbs : Int) = if x.msb then -x else x := by
    rw [BitVec.msb_eq_toInt]
    by_cases hneg : x.toInt < 0
    · rw [decide_eq_true hneg, if_pos rfl, Int.ofNat_natAbs_of_nonpos (by omega), BitVec.ofInt_neg, BitVec.ofInt_toInt]
    · rw [decide_eq_false hneg, if_neg Bool.false_ne_true, Int.natAbs_of_nonneg (by omega), BitVec.ofInt_toInt]
  simp only [signElem, hv, fitInt_wraps, if_true, intOf_toNat hw, habs]

/-- Shifting right by more than a word's width gives its sign, as does shifting by the width. -/
theorem shr_signed (c : Nat) :
    ux w (Int.fdiv (sx w x.toNat) (2 ^ (min c w) : Nat)) = (x.sshiftRight c).toNat := by
  have hsx : sx w x.toNat = x.toInt := intOf_toNat hw true x
  have hpos : (0 : Int) < 2 ^ w := by positivity
  have hlow : -2 ^ w ≤ x.toInt := by
    have := BitVec.le_two_mul_toInt (x := x)
    omega
  have hhigh : x.toInt < 2 ^ w := by
    have := BitVec.two_mul_toInt_lt (x := x)
    omega
  rw [ux_eq_toNat, hsx, BitVec.sshiftRight, Int.shiftRight_eq_div_pow, fdiv_min hlow hhigh]

end

theorem shl_toNat {w : Nat} (x : BitVec w) (c : Nat) : (if c < w then x.toNat * 2 ^ c % 2 ^ w else 0) = (x <<< c).toNat := by
  rw [BitVec.toNat_shiftLeft, Nat.shiftLeft_eq]
  split
  next => rfl
  next hge =>
    obtain ⟨k, rfl⟩ : ∃ k, c = w + k := ⟨c - w, by omega⟩
    rw [Nat.pow_add, Nat.mul_left_comm, Nat.mul_mod_right]

theorem shr_toNat {w : Nat} (x : BitVec w) (c : Nat) : (if c < w then x.toNat / 2 ^ c else 0) = (x >>> c).toNat := by
  rw [BitVec.toNat_ushiftRight, Nat.shiftRight_eq_div_pow]
  split
  next => rfl
  next hge => rw [Nat.div_eq_of_lt (Nat.lt_of_lt_of_le x.isLt (Nat.pow_le_pow_right (by decide) (by omega)))]

theorem rol_toNat {w : Nat} (hw : 0 < w) (x : BitVec w) (c : Nat) :
    x.toNat * 2 ^ (c % w) % 2 ^ w + x.toNat / 2 ^ (w - c % w) = (x.rotateLeft c).toNat := by
  have hk : c % w < w := Nat.mod_lt _ hw
  have hsplit : 2 ^ w = 2 ^ (w - c % w) * 2 ^ (c % w) := by rw [← Nat.pow_add, Nat.sub_add_cancel hk.le]
  have hlow : x.toNat / 2 ^ (w - c % w) < 2 ^ (c % w) := Nat.div_lt_of_lt_mul (by rw [← hsplit]; exact x.isLt)
  rw [BitVec.toNat_rotateLeft, Nat.shiftLeft_eq, Nat.shiftRight_eq_div_pow]
  generalize x.toNat / 2 ^ (w - c % w) = r at *
  rw [hsplit, Nat.mul_mod_mul_right, ← Nat.shiftLeft_eq, Nat.shiftLeft_add_eq_or_of_lt hlow]

/-! ## Lanes of 32 and 64 bits -/

/-- A lane instruction's values count by their low bits, and in the lanes that take part. -/
theorem laneDid_of_mod {i : Instr} {s : State} {h : Here} {sw : Bool} {d : Dst} {n : Nat} {val val' : Nat → Nat × Flags}
    (hd : LaneDid i s h sw d n val) (hval : ∀ l ∈ h.frame.on, (val l).1 % 2 ^ (32 * n) = (val' l).1 % 2 ^ (32 * n))
    (hflags : ∀ l ∈ h.frame.on, (val l).2 = (val' l).2) : LaneDid i s h sw d n val' := by
  obtain ⟨g, passes, hdid, hres⟩ := hd
  have hover : (flagsOver h.frame.on fun l => (val l).2) = flagsOver h.frame.on fun l => (val' l).2 :=
    List.foldl_ext _ _ _ fun x l hl => congrArg (x ||| ·) (hflags l hl)
  rw [hover] at hdid
  exact ⟨g, passes, hdid, fun l hl => (hres.result l hl).trans (hval l hl), hres.others, hres.uniform, hres.preds, hres.index, hres.windows⟩

/-- A type of one integer element as wide as its registers. -/
structure IsWord (t : Ty) (sg : Bool) (w : Nat) : Prop where
  elem : t.elem = .int sg w
  width : w = 32 * t.regs

namespace IsWord
variable {t : Ty} {sg : Bool} {w : Nat}

theorem count (ht : IsWord t sg w) : t.count = 1 := by
  obtain ⟨he, hw⟩ := ht
  cases t <;> simp_all [Ty.elem, Ty.regs, Ty.wide, Ty.count, Elem.width]

theorem pos (ht : IsWord t sg w) : 0 < w := by
  rw [ht.width, Ty.regs]
  split <;> decide

theorem split (ht : IsWord t sg w) (x : Nat) : t.split x = [x % 2 ^ w] := by
  rw [Ty.split, ht.count, ht.elem]
  simp [Elem.width]

/-- An operation on the one element of a word. -/
theorem elemLane (ht : IsWord t sg w) (g : Nat → Nat → Nat → Res) (z x y : Nat) {r : BitVec w}
    (hg : ∀ z, g z (BitVec.ofNat w x).toNat (BitVec.ofNat w y).toNat = ⟨r.toNat, 0⟩) : elemLane t g z x y = (r.toNat, 0) := by
  simp only [BitVec.toNat_ofNat] at hg
  simp only [Machine.elemLane, ht.split, ht.count, ht.elem, Elem.width, List.range_one, List.map_cons, List.map_nil, List.getD_cons_zero,
    hg, packElems, allFlags, List.foldl_cons, List.foldl_nil, Nat.mod_eq_of_lt r.isLt]
  rfl

end IsWord

section
variable {i : Instr} {s : State} {h : Here} {sw : Bool} {ok : Ty → Bool} {n : Nat} {d : Dst} {a b : Src} {sg : Bool} {w : Nat}
variable (hq : Quiet s h) (hregs : RegistersOk s) (ht : IsWord h.frame.mode.t sg w)
include hq hregs ht

/-- An operation on one word. -/
theorem laneDid_word1 {g : Elem → Env → Nat → Res} {word : BitVec w → BitVec w} (hr : Ready (elemJob1 ok n d a g) h.frame)
    (he : exec i s = issueJob i sw (elemJob1 ok n d a g) s)
    (hop : ∀ x : BitVec w, g (.int sg w) h.frame.mode.env x.toNat = ⟨(word x).toNat, 0⟩) :
    LaneDid i s h sw d h.frame.mode.t.regs fun l => ((word (.ofNat w (srcVal h.frame h.frame.mode.t a l))).toNat, 0) :=
  Lanes.laneDid_congr
    (fun _ => ht.elemLane _ _ _ _ fun _ => hop _)
    (Elementwise.laneDid_elemJob1 hq hregs ht.elem hr he rfl)

/-- An operation on two words. -/
theorem laneDid_word2 {g : Elem → Env → Nat → Nat → Nat → Res} {op : Nat → Nat → Res} {word : BitVec w → BitVec w → BitVec w}
    (hr : Ready (elemJob ok n false d a b g) h.frame) (he : exec i s = issueJob i sw (elemJob ok n false d a b g) s)
    (hg : g (.int sg w) h.frame.mode.env = fun _ => op) (hop : ∀ x y : BitVec w, op x.toNat y.toNat = ⟨(word x y).toNat, 0⟩) :
    LaneDid i s h sw d h.frame.mode.t.regs fun l =>
      ((word (.ofNat w (srcVal h.frame h.frame.mode.t a l)) (.ofNat w (srcVal h.frame h.frame.mode.t b l))).toNat, 0) :=
  Lanes.laneDid_congr
    (fun _ => ht.elemLane _ _ _ _ fun _ => hop _ _)
    (Elementwise.laneDid_elemJob2 hq hregs ht.elem hr he hg)

/-- An operation on the register images of two words. -/
theorem laneDid_image {as : List Src} {g : Nat → List Nat → Nat} {word : Nat → BitVec w} (hr : Ready (imageJob d as g) h.frame)
    (he : exec i s = issueJob i sw (imageJob d as g) s)
    (hop : ∀ l, g w (as.map fun a => srcVal h.frame h.frame.mode.t a l) % 2 ^ w = (word l).toNat) :
    LaneDid i s h sw d h.frame.mode.t.regs fun l => ((word l).toNat, 0) := by
  refine laneDid_of_mod (laneDid_of_job hq hregs hr he rfl rfl) (fun l _ => ?_) fun _ _ => rfl
  rw [← ht.width, Nat.mod_eq_of_lt (word l).isLt]
  exact hop l

end

/-! ## Sums over lanes (R65, R107) -/

theorem pairwise_lanesOf (m : Mask) : (lanesOf m).Pairwise (· < ·) := List.pairwise_lt_range.filter _

/-- A partial sum of words is the sum of the words so far. -/
theorem sumStep_word {w : Nat} {v : Env} (hv : v.sat = false) (sg : Bool) {acc : Res} (hacc : acc.flags = 0) (x : Nat) :
    (sumStep (.int sg w) v acc x).flags = 0
      ∧ BitVec.ofNat w (sumStep (.int sg w) v acc x).val = BitVec.ofNat w acc.val + BitVec.ofNat w x := by
  simp only [sumStep, binElem, Res.also, hv, fitInt_wraps, hacc, BitVec.ofInt_add, ofInt_intOf, BitVec.ofNat_toNat, BitVec.setWidth_eq]
  exact ⟨rfl, trivial⟩

/-- What the partial sums start from. -/
def startsAt {w : Nat} (acc : Option Res) (z : BitVec w) : Prop :=
  (acc = none ∧ z = 0) ∨ ∃ r, acc = some r ∧ r.flags = 0 ∧ BitVec.ofNat w r.val = z

theorem partials_cons {w : Nat} {v : Env} (hv : v.sat = false) (sg : Bool) (p : Nat × Nat) (ps : List (Nat × Nat)) {acc : Option Res}
    {z : BitVec w} (hacc : startsAt acc z) :
    ∃ y, partials (.int sg w) v (p :: ps) acc = (p.1, y) :: partials (.int sg w) v ps (some y) ∧ y.flags = 0
      ∧ BitVec.ofNat w y.val = z + BitVec.ofNat w p.2 := by
  obtain ⟨rfl, rfl⟩ | ⟨r, rfl, hflags, rfl⟩ := hacc
  · exact ⟨Res.pure p.2, rfl, rfl, (BitVec.zero_add _).symm⟩
  · exact ⟨_, rfl, sumStep_word hv sg hflags p.2⟩

/-- The partial sum of a lane adds up the words of the lanes as far as its own, and raises no flag. -/
theorem find_partials {w : Nat} {v : Env} (hv : v.sat = false) (sg : Bool) (x : Nat → Nat) {l : Nat} (ls : List Nat)
    (hsorted : ls.Pairwise (· < ·)) (hl : l ∈ ls) (acc : Option Res) (z : BitVec w) (hacc : startsAt acc z) :
    ∃ r, ((partials (.int sg w) v (ls.map fun k => (k, x k)) acc).find? fun p => p.1 = l) = some (l, r) ∧ r.flags = 0
      ∧ BitVec.ofNat w r.val = (ls.filter fun k => decide (k ≤ l)).foldl (fun z k => z + BitVec.ofNat w (x k)) z := by
  induction ls generalizing acc z with
  | nil => cases hl
  | cons k ls ih =>
    obtain ⟨hk, hsorted⟩ := List.pairwise_cons.mp hsorted
    obtain ⟨y, hcons, hflags, hval⟩ := partials_cons hv sg (k, x k) (ls.map fun k => (k, x k)) hacc
    rw [List.map_cons, hcons]
    by_cases hlk : k = l
    · subst hlk
      have hrest : ls.filter (fun j => decide (j ≤ k)) = [] :=
        List.filter_eq_nil_iff.mpr fun j hj => by simpa using hk j hj
      refine ⟨y, by simp, hflags, ?_⟩
      rw [List.filter_cons_of_pos (by simp), hrest]
      exact hval
    · have hl : l ∈ ls := (List.mem_cons.mp hl).resolve_left (Ne.symm hlk)
      rw [List.find?_cons_of_neg (by simpa using hlk), List.filter_cons_of_pos (by simpa using (hk l hl).le)]
      exact ih hsorted hl (some y) _ (.inr ⟨y, rfl, hflags, hval⟩)

/-- PSUM leaves in every lane that takes part the sum of the words as far as its own. -/
theorem laneDid_psum_word {s : State} {h : Here} {sw : Bool} {d : Dst} {a : Src} {sg : Bool} {w : Nat} (hq : Quiet s h)
    (hregs : RegistersOk s) (ht : IsWord h.frame.mode.t sg w) (hsat : h.tm.mode.sat = false) (hr : Ready (jobPsum d a) h.frame) :
    LaneDid (.psum sw d a) s h sw d h.frame.mode.t.regs fun l =>
      (((h.frame.on.filter fun k => decide (k ≤ l)).foldl
        (fun z k => z + BitVec.ofNat w (srcVal h.frame h.frame.mode.t a k)) 0).toNat, 0) := by
  have hfind : ∀ l ∈ h.frame.on, _ := fun l hl => find_partials (v := h.frame.mode.env) hsat sg (srcVal h.frame h.frame.mode.t a)
    h.frame.on (pairwise_lanesOf _) hl none (0 : BitVec w) (.inl ⟨rfl, rfl⟩)
  refine laneDid_of_mod (Lanes.laneDid_psum hq hregs hr) (fun l hl => ?_) fun l hl => ?_
  · obtain ⟨r, hr, hflags, hval⟩ := hfind l hl
    rw [ht.elem, Lanes.sumAt, hr, ← hval, ← ht.width, BitVec.toNat_ofNat, Nat.mod_mod]
  · obtain ⟨r, hr, hflags, hval⟩ := hfind l hl
    rw [ht.elem, Lanes.sumAt, hr]
    exact hflags

/-! ## Conversion (R61, R90) -/

theorem allFlags_none {rs : List Res} (h : ∀ r ∈ rs, r.flags = 0) : allFlags rs = 0 := by
  rw [allFlags]
  induction rs with
  | nil => rfl
  | cons r rs ih =>
    rw [List.foldl_cons, h r List.mem_cons_self]
    exact ih fun r hr => h r (List.mem_cons_of_mem _ hr)

theorem srcValAt_zero (f : Frame) (t : Ty) (a : Src) (l : Nat) : srcValAt f t a l 0 = srcVal f t a l := by
  cases a <;> rfl

theorem cvtElem_word {w : Nat} (hw : 0 < w) {v : Env} (hv : v.sat = false) (sg sg' : Bool) (w' : Nat) (x : BitVec w) :
    cvtElem v (.int sg w) (.int sg' w') x.toNat = ⟨(asWidth sg w' x).toNat, 0⟩ := by
  simp only [cvtElem, hv, fitInt_wraps, ux_eq_toNat, ofInt_intOf_toNat hw]
  split <;> rfl

theorem packGroups_word {u : Ty} {sg : Bool} {w : Nat} (hu : IsWord u sg w) (x : BitVec w) : packGroups u 1 [x.toNat] = x.toNat := by
  simp only [packGroups, hu.count, hu.elem, Elem.width, List.take_one, List.head?_cons, Option.toList_some, packElems, Nat.mul_zero,
    Nat.add_zero, Nat.mod_eq_of_lt x.isLt]

/-- One word converted to a word type. -/
theorem cvtLane_word {t u : Ty} {sg sg' : Bool} {w w' : Nat} {f : Frame} (ht : IsWord t sg w) (hu : IsWord u sg' w')
    (hsat : f.mode.sat = false) (a : Src) (l : Nat) :
    cvtLane t u a f l = ((asWidth sg w' (BitVec.ofNat w (srcVal f t a l))).toNat, 0) := by
  have hxs : (List.range (max t.count u.count / t.count)).flatMap (fun i => t.split (srcValAt f t a l (i * t.regs)))
      = [(BitVec.ofNat w (srcVal f t a l)).toNat] := by
    rw [ht.count, hu.count, Nat.max_self, Nat.div_self Nat.one_pos, List.range_one, List.flatMap_singleton, ht.split, Nat.zero_mul,
      srcValAt_zero, BitVec.toNat_ofNat]
  generalize BitVec.ofNat w (srcVal f t a l) = x at *
  have helem : (if t = u then Res.pure x.toNat else cvtElem f.mode.env t.elem u.elem x.toNat) = ⟨(asWidth sg w' x).toNat, 0⟩ := by
    split
    next heq =>
      subst heq
      obtain ⟨rfl, rfl⟩ : sg = sg' ∧ w = w' := by simpa using ht.elem.symm.trans hu.elem
      rw [asWidth_self]
      rfl
    next => rw [ht.elem, hu.elem, cvtElem_word ht.pos hsat]
  rw [cvtLane]
  simp only [hxs, List.map_cons, List.map_nil, helem]
  rw [ht.count, hu.count, Nat.max_self, Nat.div_self Nat.one_pos, packGroups_word hu, allFlags_none fun r hr => by rw [List.mem_singleton.mp hr]]

/-! ## Packed elements (R50, R93, R94) -/

/-- A type of integer elements of 8 or 16 bits. -/
structure IsPacked (t : Ty) (sg : Bool) (w : Nat) : Prop where
  elem : t.elem = .int sg w
  width : w = 8 ∨ w = 16

theorem IsPacked.pos {t : Ty} {sg : Bool} {w : Nat} (ht : IsPacked t sg w) : 0 < w := by
  rcases ht.width with rfl | rfl <;> decide

/-- Element k of a register image. -/
def packed (w : Nat) (x k : Nat) : BitVec w := .ofNat w (x / 2 ^ (w * k))

theorem IsPacked.split {t : Ty} {sg : Bool} {w : Nat} (ht : IsPacked t sg w) (x : Nat) :
    t.split x = (List.range t.count).map fun k => (packed w x k).toNat := by
  rw [Ty.split, ht.elem]
  simp only [Elem.width, packed, BitVec.toNat_ofNat, Nat.mul_comm w]

theorem ofInt_elemInt {sg : Bool} {w : Nat} (hw : 0 < w) (x k : Nat) :
    BitVec.ofInt 32 (elemInt (.int sg w) (packed w x k).toNat) = asWidth sg 32 (packed w x k) :=
  ofInt_intOf_toNat hw sg _ 32

theorem packElems_append (w : Nat) (xs : List Nat) (y : Nat) :
    packElems w (xs ++ [y]) = packElems w xs + y % 2 ^ w * 2 ^ (w * xs.length) := by
  induction xs with
  | nil => simp [packElems]
  | cons x xs ih =>
    rw [List.cons_append, packElems, packElems, ih, List.length_cons, Nat.mul_add, Nat.mul_succ, Nat.pow_add]
    ring

/-- Words packed into a register image, added up at their places. -/
theorem packElems_words (w : Nat) (x : Nat → BitVec w) (n : Nat) :
    packElems w ((List.range n).map fun k => (x k).toNat) = ((List.range n).map fun k => (x k).toNat * 2 ^ (w * k)).foldl (· + ·) 0 := by
  induction n with
  | zero => rfl
  | succ n ih =>
    rw [List.range_succ, List.map_append, List.map_append, List.map_singleton, List.map_singleton, packElems_append, ih,
      List.foldl_append, List.length_map, List.length_range, Nat.mod_eq_of_lt (x n).isLt]
    rfl

theorem getD_map_range (g : Nat → Nat) {n k : Nat} (hk : k < n) : ((List.range n).map g).getD k 0 = g k := by
  simp [List.getD_eq_getElem?_getD, hk]

/-- A sum of integers wraps as the sum of the words does. -/
theorem add_ofInt_foldl {w : Nat} (z : BitVec w) (g : Nat → Int) (ks : List Nat) (c : Int) :
    z + BitVec.ofInt w ((ks.map g).foldl (· + ·) c) = ks.foldl (fun z k => z + BitVec.ofInt w (g k)) (z + BitVec.ofInt w c) := by
  induction ks generalizing c with
  | nil => rfl
  | cons k ks ih => rw [List.map_cons, List.foldl_cons, List.foldl_cons, ih, BitVec.ofInt_add, BitVec.add_assoc]

/-- WMAD adds each product to its own 32-bit word (R93). -/
theorem wmadLane_packed {t : Ty} {sg : Bool} {w : Nat} {f : Frame} (ht : IsPacked t sg w) (hsat : f.mode.sat = false) (d : Dst) (a b : Src)
    (l : Nat) :
    wmadLane t d a b f l = (((List.range t.count).map fun k => (BitVec.ofNat 32 (dstVal f d 1 l k)
      + asWidth sg 32 (packed w (srcVal f t a l) k) * asWidth sg 32 (packed w (srcVal f t b l) k)).toNat * 2 ^ (32 * k)).foldl (· + ·) 0, 0) := by
  rw [wmadLane, ht.split, ht.split, ← packElems_words 32 (fun k => BitVec.ofNat 32 (dstVal f d 1 l k)
      + asWidth sg 32 (packed w (srcVal f t a l) k) * asWidth sg 32 (packed w (srcVal f t b l) k))]
  simp only [ht.elem, elemSigned, hsat, fitInt_wraps, List.map_map]
  refine Prod.ext (congrArg (packElems 32) (List.map_congr_left fun k hk => ?_)) (allFlags_none fun r hr => ?_)
  · have hk' : k < t.count := List.mem_range.mp hk
    simp only [Function.comp_apply, getD_map_range _ hk', BitVec.ofInt_add, BitVec.ofInt_mul, ofInt_intOf, ofInt_elemInt ht.pos]
  · obtain ⟨k, -, rfl⟩ := List.mem_map.mp hr
    rfl

/-- DOT4 adds all products to one 32-bit word (R94). -/
theorem dotLane_packed {t : Ty} {sg : Bool} {w : Nat} {f : Frame} (ht : IsPacked t sg w) (hsat : f.mode.sat = false) (d : Dst) (a b : Src)
    (l : Nat) :
    dotLane t d a b f l = (((List.range t.count).foldl (fun z k => z
      + asWidth sg 32 (packed w (srcVal f t a l) k) * asWidth sg 32 (packed w (srcVal f t b l) k)) (BitVec.ofNat 32 (dstVal f d 1 l 0))).toNat, 0) := by
  simp only [dotLane, ht.split, ht.elem, elemSigned, hsat, fitInt_wraps, List.zip_map', List.map_map, BitVec.ofInt_add, ofInt_intOf]
  have hzero : BitVec.ofInt 32 0 = 0#32 := rfl
  rw [add_ofInt_foldl, hzero, BitVec.add_zero]
  simp only [Function.comp_apply, BitVec.ofInt_mul, ofInt_elemInt ht.pos]

theorem signOk_signed {t : Ty} {sg : Bool} {w : Nat} (hok : signOk t = true) (ht : t.elem = .int sg w) : sg = true := by
  cases t <;> simp_all [signOk, arithOk, Ty.elem]

theorem ready_ok {ok : Ty → Bool} {n : Nat} {d : Dst} {a : Src} {g : Elem → Env → Nat → Res} {f : Frame}
    (hr : Ready (elemJob1 ok n d a g) f) : ok f.mode.t = true := (Bool.and_eq_true _ _ ▸ hr.1).1

/-- Settles O21: each operation on integers is the operation on words, for taking the low bits of an integer is a homomorphism, and a
type's order is that of its words. -/
theorem integerLanes : Obligations.IntegerLanes := by
  unfold Obligations.IntegerLanes
  refine ⟨?_, ?_⟩
  · intro sw d a b s h sg w hq hregs helem hwidth hsat
    have ht : IsWord h.frame.mode.t sg w := ⟨helem, hwidth⟩
    have hw := ht.pos
    let word (a : Src) (l : Nat) : BitVec w := .ofNat w (srcVal h.frame h.frame.mode.t a l)
    refine ⟨fun hr => laneDid_word2 hq hregs ht hr rfl rfl (binElem_add hsat sg),
      fun hr => laneDid_word2 hq hregs ht hr rfl rfl (binElem_sub hsat sg),
      fun hr => laneDid_word2 hq hregs ht hr rfl rfl (binElem_mul hsat sg),
      fun hr => laneDid_word2 hq hregs ht hr rfl rfl (binElem_min hw sg),
      fun hr => laneDid_word2 hq hregs ht hr rfl rfl (binElem_max hw sg),
      fun hr => laneDid_word1 hq hregs ht hr rfl (signElem_neg hsat sg),
      fun hr => ?_,
      fun hr => laneDid_image (word := fun l => word a l &&& word b l) hq hregs ht hr rfl ?_,
      fun hr => laneDid_image (word := fun l => word a l ||| word b l) hq hregs ht hr rfl ?_,
      fun hr => laneDid_image (word := fun l => word a l ^^^ word b l) hq hregs ht hr rfl ?_,
      fun hr => laneDid_image (word := fun l => ~~~word a l) hq hregs ht hr rfl ?_,
      fun hr => laneDid_image (word := word a) hq hregs ht hr rfl ?_,
      fun hr => laneDid_word2 (word := fun x y => x <<< y.toNat) hq hregs ht hr rfl rfl ?_,
      fun hr => laneDid_word2 (word := fun x y => if sg then x.sshiftRight y.toNat else x >>> y.toNat) hq hregs ht hr rfl rfl ?_,
      fun hr => laneDid_word2 (word := fun x y => x.rotateLeft y.toNat) hq hregs ht hr rfl rfl ?_,
      fun hr => ?_, fun u sg' w' hu hw' hr => ?_⟩
    · have hsg : sg = true := signOk_signed (ready_ok hr) helem
      subst hsg
      exact laneDid_word1 hq hregs ht hr rfl (signElem_abs hw hsat)
    · exact fun l => Nat.and_mod_two_pow.trans (by rw [BitVec.toNat_and]; rfl)
    · exact fun l => Nat.or_mod_two_pow.trans (by rw [BitVec.toNat_or]; rfl)
    · exact fun l => Nat.xor_mod_two_pow.trans (by rw [BitVec.toNat_xor]; rfl)
    · intro l
      rw [BitVec.toNat_not]
      refine Nat.mod_eq_of_lt (a := 2 ^ w - 1 - srcVal h.frame h.frame.mode.t a l % 2 ^ w) ?_
      have := Nat.two_pow_pos w
      omega
    · exact fun l => rfl
    · exact fun x y => congrArg Res.pure (shl_toNat x y.toNat)
    · intro x y
      cases sg
      · exact congrArg Res.pure (shr_toNat x y.toNat)
      · exact congrArg Res.pure (shr_signed hw x y.toNat)
    · exact fun x y => congrArg Res.pure (rol_toNat hw x y.toNat)
    · exact laneDid_psum_word hq hregs ht hsat hr
    · have ht' : IsWord u sg' w' := ⟨hu, hw'⟩
      have hdid := laneDid_of_job (i := .cvt sw d a u) (sw := sw) hq hregs hr rfl rfl rfl
      rw [cvtRegs, ht.count, ht'.count, Nat.max_self, Nat.div_self Nat.one_pos, Nat.one_mul] at hdid
      exact Lanes.laneDid_congr (cvtLane_word ht ht' hsat a) hdid
  · intro sw d a b s h sg w hq hregs helem hwidth hsat
    have ht : IsPacked h.frame.mode.t sg w := ⟨helem, hwidth⟩
    exact ⟨fun hr => Lanes.laneDid_congr (wmadLane_packed ht hsat d a b) (laneDid_of_job hq hregs hr rfl rfl rfl),
      fun hr => Lanes.laneDid_congr (dotLane_packed ht hsat d a b) (laneDid_of_job hq hregs hr rfl rfl rfl)⟩

end Sys2Proof.Proofs.Integers
end

section
/-! Certificates for the family spec/06_instructions_memory.md: control registers, FLAGS and TRAPVEC (R147, R59, R315). -/
namespace Sys2Proof.Proofs.ControlRegs
open Sys2Proof Sys2Proof.Machine Sys2Proof.Proofs.ControlFlow Sys2Proof.Proofs.Scratchpads Sys2Proof.Proofs.Queues

theorem litWords_csrw (sw : Bool) (a : USrc) (r : Csr) : (litWords (.csrw sw a r)).length = usrcLits a := by cases a <;> rfl
theorem litWords_flagsClear (sw : Bool) (a : USrc) : (litWords (.flagsClear sw a)).length = usrcLits a := by cases a <;> rfl
theorem litWords_trapvecWrite (sw : Bool) (a : USrc) : (litWords (.trapvecWrite sw a)).length = usrcLits a := by cases a <;> rfl

section
variable {s : State} {h : Here} (hq : Quiet s h)
include hq

theorem exec_csrr (sw : Bool) (d : SReg) (r : Csr) : exec (.csrr sw d r) s =
    .next (endAt s h sw (nextPc h.tm.pc 0) onePass { h.tm with regs := h.tm.regs.uset d.val (csrVal s h r) }) := by
  have hflags : h.tm.flags ||| (Writes.ofU d.val (csrVal s h r)).flags = h.tm.flags := BitVec.or_zero
  show execCsrr sw d r s = _
  rw [execCsrr, onTeam_issuing hq.1, writeNow_noClaims hq.2.1, hflags]
  rfl

theorem exec_csrw (sw : Bool) (a : USrc) (r : Csr) : exec (.csrw sw a r) s =
    if csrPriv r then raise s h 0x02 h.tm.active 0
    else .next (endAt (csrPut s h r (usrcVal h.frame a)) h sw (after h (.csrw sw a r)) onePass
      (teamNow (csrPut s h r (usrcVal h.frame a)) h)) := by
  show execCsrw sw a r s = _
  rw [execCsrw, onTeam_issuing hq.1, reading_noClaims hq.2.1, nextPc_after (litWords_csrw sw a r)]

theorem exec_flagsClear (sw : Bool) (a : USrc) : exec (.flagsClear sw a) s =
    .next (endAt s h sw (after h (.flagsClear sw a)) onePass
      { h.tm with flags := h.tm.flags &&& ~~~((usrcVal h.frame a).setWidth 7) }) := by
  show execFlagsClear sw a s = _
  rw [execFlagsClear, onTeam_issuing hq.1, reading_noClaims hq.2.1, nextPc_after (litWords_flagsClear sw a)]

theorem exec_trapvecWrite (sw : Bool) (a : USrc) : exec (.trapvecWrite sw a) s =
    .next (endAt s h sw (after h (.trapvecWrite sw a)) onePass { h.tm with trapvec := usrcVal h.frame a &&& ~~~3 }) := by
  show execTrapvecWrite sw a s = _
  rw [execTrapvecWrite, onTeam_issuing hq.1, reading_noClaims hq.2.1, nextPc_after (litWords_trapvecWrite sw a)]

end

/-! ## What a write of a control register changes (R147) -/

section
variable {s : State} {h : Here} (r : Csr) (x : W64)

theorem csrPut_mem : (csrPut s h r x).mem = s.mem := by unfold csrPut; split <;> rfl

/-- The team after the write: RESSTALL, PASSES and CLEARS are its own. -/
theorem teamNow_csrPut (hi : issuing s = some h) : h.t < (csrPut s h r x).teams.length ∧ teamNow (csrPut s h r x) h =
    { h.tm with resstall := if r = .resstall then x else h.tm.resstall
                passes := if r = .passes then x else h.tm.passes
                clears := if r = .clears then x else h.tm.clears } := by
  have hnow := teamNow_issuing hi
  obtain ⟨tm, ht, htm, -⟩ := issuing_some hi
  have hlt := team_lt hi
  have hmod (f : Team → Team) :
      h.t < (s.modTeam h.t f).teams.length ∧ teamNow (s.modTeam h.t f) h = { f tm with status := .running, before := none } := by
    refine ⟨by rwa [State.modTeam_teams, length_modAt], ?_⟩
    rw [teamNow, State.modTeam_teams, modAt_same, ht]; rfl
  unfold csrPut
  split
  · rw [(hmod _).2, htm]; exact ⟨(hmod _).1, rfl⟩
  · rw [(hmod _).2, htm]; exact ⟨(hmod _).1, rfl⟩
  · rw [(hmod _).2, htm]; exact ⟨(hmod _).1, rfl⟩
  · exact ⟨hlt, hnow⟩
  · exact ⟨hlt, hnow⟩
  · rename_i h1 h2 h3 h4 h5
    rw [if_neg h1, if_neg h2, if_neg h3]
    exact ⟨hlt, hnow⟩

/-- SPBANKC is the cohort's: a write stands before the cycles that are still owed. -/
theorem csrPut_spbankc (hi : issuing s = some h) : ((csrPut s h r x).cohorts[h.tm.cohort]?).map Cohort.spbankc
    = some (if r = .spbankc then x + banksDue s h.tm.cohort else h.co.spbankc) := by
  obtain ⟨-, -, -, -, -, hco, -⟩ := issuing_some hi
  have hsame : (s.cohorts[h.tm.cohort]?).map Cohort.spbankc = some h.co.spbankc := by rw [hco]; rfl
  unfold csrPut
  split
  case h_4 => rw [State.modCohort_cohorts, modAt_same, hco]; rfl
  case h_6 h1 h2 h3 h4 h5 => rw [if_neg h4]; exact hsame
  all_goals exact hsame

/-- MFILL is the bench's. -/
theorem csrPut_mfill : ((csrPut s h r x).bench? h.core h.bench).map Bench.mfill
    = (s.bench? h.core h.bench).map fun (b : Bench) => if r = .mfill then x else b.mfill := by
  unfold csrPut
  split
  case h_5 => rw [bench_modBench, if_pos ⟨rfl, rfl⟩, Option.map_map]; rfl
  case h_6 h1 h2 h3 h4 h5 => simp only [if_neg h5]
  all_goals rfl

end

theorem endAt_mfill (s : State) (h : Here) (sw : Bool) (pc : W64) (cost : List (Nat × Nat)) (tm : Team) (c b : Nat) :
    ((endAt s h sw pc cost tm).bench? c b).map Bench.mfill = (s.bench? c b).map Bench.mfill := by
  have hunits := congrArg (Option.map fun x => x.2.2.2.2.2.2.1) ((endAt_outside s h sw pc cost tm).units c b)
  simpa only [Option.map_map, Function.comp_def] using hunits

/-- Settles O48: a register is read from where it is held, a write reaches the one place that holds it, and FLAGS and TRAPVEC have
instructions of their own. -/
theorem controlRegisters : Obligations.ControlRegisters := by
  unfold Obligations.ControlRegisters
  intro sw d a s h hq
  refine ⟨fun r => did1 hq.1 ?_ rfl, fun r => ⟨fun hr => ?_, fun hts hrt hfl htv => ?_⟩,
    did1 hq.1 (exec_flagsClear hq sw a) rfl, did1 hq.1 (exec_trapvecWrite hq sw a) rfl⟩
  · rw [exec_csrr hq]
    cases r <;> simp only [csrVal, BitVec.setWidth_eq] <;> rfl
  · rcases hr with rfl | rfl <;> exact exec_csrw hq sw a _
  · have hpriv : csrPriv r = false := by
      unfold csrPriv
      split
      · exact absurd rfl hts
      · exact absurd rfl hrt
      · rfl
    have hexec := exec_csrw hq sw a r
    rw [hpriv] at hexec
    obtain ⟨hlt, hnow⟩ := teamNow_csrPut r (usrcVal h.frame a) hq.1
    obtain ⟨age, owed, hend⟩ := endAt_noClaims hlt sw (after h (.csrw sw a r)) onePass
      (tm := teamNow (csrPut s h r (usrcVal h.frame a)) h) (by rw [hnow]; exact hq.2.1)
    rw [hnow] at hend hexec
    refine ⟨_, _, hexec, hend, by constructor <;> trivial, csrPut_mem r _, rfl, rfl, rfl, csrPut_spbankc r _ hq.1, ?_⟩
    rw [endAt_mfill, csrPut_mfill]

end Sys2Proof.Proofs.ControlRegs
end

section
/-! Certificates for the family spec/06_instructions_memory.md: rings (R144, R145). -/
namespace Sys2Proof.Proofs.Rings
open Sys2Proof Sys2Proof.Machine Sys2Proof.Proofs.ControlFlow Sys2Proof.Proofs.Scratchpads Sys2Proof.Proofs.Queues

/-! ## The rings of a cohort -/

theorem ring_modRing (co : Cohort) (n q : Nat) (f : Ring → Ring) :
    (co.modRing n f).ring q = if n = q then (co.ring q).map f else co.ring q := by
  simp only [Cohort.ring, Cohort.modRing, getElem?_modAt]
  split
  · cases co.rings[q]? with
    | none => rfl
    | some x => cases x <;> rfl
  · rfl

/-- A change that leaves the entry as it is leaves the list as it is. -/
theorem modAt_eq_self {α : Type} {f : α → α} {l : List α} {n : Nat} {x : α} (hx : l[n]? = some x) (hf : f x = x) : modAt f l n = l := by
  refine List.ext_getElem? fun j => ?_
  rw [getElem?_modAt]
  split
  · rename_i e
    subst e
    rw [hx, Option.map_some, hf]
  · rfl

theorem rings_of_ring {co : Cohort} {n : Nat} {g : Ring} (hg : co.ring n = some g) : co.rings[n]? = some (some g) := by
  obtain ⟨x, hx, he⟩ := Option.bind_eq_some_iff.mp hg
  exact hx.trans (congrArg some he)

theorem modRing_same {co : Cohort} {n : Nat} {g : Ring} (hg : co.ring n = some g) : (co.modRing n fun _ => g) = co := by
  rw [Cohort.modRing, modAt_eq_self (rings_of_ring hg) rfl]

/-- With no request waiting there is nothing to grant. -/
theorem grant_noRequests {co : Cohort} {n : Nat} {g : Ring} (hg : co.ring n = some g) (hq : co.ringq = []) : co.grant n = co := by
  simp only [Cohort.grant, hg, hq, grantKind]
  rw [← hq]
  exact modRing_same hg

/-- The counters allow a request of a kind: a `rsv`, or with `wait` a `wait` (R145). -/
def askOk (wait : Bool) (g : Ring) (k : W32) : Bool := if wait then g.canWait k else g.canRsv k
/-- The counter that a granted request returns, as it stood. -/
def askOld (wait : Bool) (g : Ring) : W32 := if wait then g.cns else g.rsv
/-- The ring after a request has been granted. -/
def askDone (wait : Bool) (g : Ring) (k : W32) : Ring := if wait then { g with cns := g.cns + k } else { g with rsv := g.rsv + k }

/-- The only request on a ring is granted where the counters allow it. -/
theorem grant_ask {co : Cohort} {n : Nat} {g : Ring} (hg : co.ring n = some g) (who : RingAsker) (wait : Bool) (k : W32) :
    ({ co with ringq := [⟨who, n, wait, k, none⟩] } : Cohort).grant n =
      if askOk wait g k then ({ co with ringq := [⟨who, n, wait, k, some (askOld wait g)⟩] } : Cohort).modRing n fun _ => askDone wait g k
      else { co with ringq := [⟨who, n, wait, k, none⟩] } := by
  have hring : ({ co with ringq := [⟨who, n, wait, k, none⟩] } : Cohort).ring n = some g := hg
  have hsame := modRing_same (co := { co with ringq := [⟨who, n, wait, k, none⟩] }) hring
  rw [Cohort.grant, hring]
  cases wait
  · by_cases hok : g.canRsv k = true
    · simp [grantKind, hok, askOk, askOld, askDone]
    · simpa [grantKind, hok, askOk] using hsame
  · by_cases hok : g.canWait k = true
    · simp [grantKind, hok, askOk, askOld, askDone]
    · simpa [grantKind, hok, askOk] using hsame

/-- A commit or a release that the counters allow, with no request waiting. -/
theorem commit_ok {co : Cohort} {n : Nat} {g : Ring} (hg : co.ring n = some g) (hq : co.ringq = []) {k : W32} (hok : g.canCmt k = true) :
    co.commit n k = some (co.modRing n fun r => { r with cmt := r.cmt + k }) := by
  have hring : (co.modRing n fun r => { r with cmt := r.cmt + k }).ring n = some { g with cmt := g.cmt + k } := by
    rw [ring_modRing, if_pos rfl, hg]; rfl
  rw [Cohort.commit, hg, Option.bind_some, if_pos hok, grant_noRequests hring hq]

theorem release_ok {co : Cohort} {n : Nat} {g : Ring} (hg : co.ring n = some g) (hq : co.ringq = []) {k : W32} (hok : g.canRel k = true) :
    co.release n k = some (co.modRing n fun r => { r with rel := r.rel + k }) := by
  have hring : (co.modRing n fun r => { r with rel := r.rel + k }).ring n = some { g with rel := g.rel + k } := by
    rw [ring_modRing, if_pos rfl, hg]; rfl
  rw [Cohort.release, hg, Option.bind_some, if_pos hok, grant_noRequests hring hq]

/-! ## The ends of a ring instruction -/

/-- What a ring instruction that succeeds leaves: its team at the next word with the registers `rg`, the ring `r` as `g`, and the other
rings, the scratchpad and memory as they were. -/
def RingLeft (i : Instr) (s : State) (h : Here) (r : Nat) (g : Ring) (rg : Regs) : Prop := ∃ t tm co', exec i s = .next t
  ∧ t.teams[h.t]? = some tm ∧ tm.pc = after h i ∧ tm.regs = rg ∧ t.cohorts[h.tm.cohort]? = some co' ∧ co'.ring r = some g ∧ co'.ringq = []
  ∧ (∀ q, q ≠ r → co'.ring q = h.co.ring q) ∧ co'.sp = h.co.sp ∧ t.mem = s.mem

/-- A cohort in which at most one ring is another, and no request waits. -/
structure RingSet (co co' : Cohort) (r : Nat) (g : Ring) : Prop where
  ring   : co'.ring r = some g
  queue  : co'.ringq = []
  others : ∀ q, q ≠ r → co'.ring q = co.ring q
  spad   : co'.sp = co.sp

theorem RingSet.same {co : Cohort} {r : Nat} {g : Ring} (hg : co.ring r = some g) (hq : co.ringq = []) : RingSet co co r g :=
  ⟨hg, hq, fun _ _ => rfl, rfl⟩

theorem RingSet.modRing {co co' : Cohort} {r : Nat} {g g' : Ring} (hg : co.ring r = some g) (hrings : co'.rings = co.rings)
    (hq : co'.ringq = []) (hsp : co'.sp = co.sp) {f : Ring → Ring} (hf : f g = g') : RingSet co (co'.modRing r f) r g' := by
  have hring (q : Nat) : co'.ring q = co.ring q := by rw [Cohort.ring, hrings, Cohort.ring]
  refine ⟨?_, hq, fun q hne => ?_, hsp⟩
  · rw [ring_modRing, if_pos rfl, hring, hg, Option.map_some, hf]
  · rw [ring_modRing, if_neg (Ne.symm hne), hring]

section
variable {s s1 : State} {h : Here} {i : Instr} {sw : Bool} {r : Nat} {g : Ring}

theorem ringLeft_of {tm : Team} {co' : Cohort} (he : exec i s = .next (endAt s1 h sw (after h i) onePass tm))
    (hlt : h.t < s1.teams.length) (hclaims : tm.claims = []) (hmem : s1.mem = s.mem)
    (hco : s1.cohorts[h.tm.cohort]? = some co') (hset : RingSet h.co co' r g) : RingLeft i s h r g tm.regs := by
  obtain ⟨age, owed, hend⟩ := endAt_noClaims hlt sw (after h i) onePass hclaims
  exact ⟨_, _, co', he, hend, rfl, rfl, hco, hset.ring, hset.queue, hset.others, hset.spad, hmem⟩

variable (hq : Quiet s h)
include hq

theorem cohort_here : s.cohorts[h.tm.cohort]? = some h.co := by
  obtain ⟨-, -, -, -, -, hco, -⟩ := issuing_some hq.1
  exact hco

/-- A change of the team's cohort, by what it makes of the cohort as it stands. -/
theorem modCohort_here (f : Cohort → Cohort) : s.modCohort h.tm.cohort f = s.modCohort h.tm.cohort fun _ => f h.co := by
  have hlist : modAt f s.cohorts h.tm.cohort = modAt (fun _ => f h.co) s.cohorts h.tm.cohort := by
    refine List.ext_getElem? fun j => ?_
    rw [getElem?_modAt, getElem?_modAt]
    split
    · rename_i e
      rw [← e, cohort_here hq, Option.map_some, Option.map_some]
    · rfl
  rw [State.modCohort, State.modCohort, hlist]

theorem cohort_modCohort (f : Cohort → Cohort) : (s.modCohort h.tm.cohort f).cohorts[h.tm.cohort]? = some (f h.co) := by
  rw [State.modCohort_cohorts, modAt_same, cohort_here hq, Option.map_some]

/-- A ring instruction that changes a ring at most and writes its registers. -/
theorem ringLeft_modCohort {w : Writes} {f : Cohort → Cohort}
    (he : exec i s = .next (endAt (s.modCohort h.tm.cohort f) h sw (after h i) onePass
      { h.tm with regs := h.tm.regs.apply w, flags := h.tm.flags ||| w.flags }))
    (hset : RingSet h.co (f h.co) r g) : RingLeft i s h r g (h.tm.regs.apply w) :=
  ringLeft_of he (team_lt (s := s) hq.1) hq.2.1 rfl (cohort_modCohort hq f) hset

theorem ringLeft_here {w : Writes}
    (he : exec i s = .next (endAt s h sw (after h i) onePass { h.tm with regs := h.tm.regs.apply w, flags := h.tm.flags ||| w.flags }))
    (hg : h.co.ring r = some g) (hrq : h.co.ringq = []) : RingLeft i s h r g (h.tm.regs.apply w) :=
  ringLeft_of he (team_lt hq.1) hq.2.1 rfl (cohort_here hq) (.same hg hrq)

theorem teamNow_same {s1 : State} (hteams : s1.teams = s.teams) : teamNow s1 h = h.tm := by
  rw [teamNow, hteams]; exact teamNow_issuing hq.1

/-- The writes of a team that waits for no value. -/
theorem writeNow_here {s1 : State} (hteams : s1.teams = s.teams) (w : Writes) :
    writeNow s1 (teamNow s1 h) w = (s1, { h.tm with regs := h.tm.regs.apply w, flags := h.tm.flags ||| w.flags }) := by
  rw [teamNow_same hq hteams, writeNow_noClaims hq.2.1]

end

/-! ## RING_RSV and RING_WAIT (R145) -/

theorem whenPosted_none {s : State} {h : Here} (hp : h.tm.posts = []) (r : Nat) (k : Outcome State) : whenPosted s h r k = k := by
  simp [whenPosted, ringPosted, hp]

/-- The writes of the old count of a ring instruction: none where it has no destination. -/
def oldWrites (d : Option SReg) (x : W32) : Writes := match d with
  | some c => Writes.ofU c.val (x.setWidth 64)
  | none => Writes.none

/-- RING_RSV, or with `wait` RING_WAIT. -/
def askInstr (sw : Bool) (r : Fin 16) (d : Option SReg) (k : USrc) (wait : Bool) : Instr :=
  if wait then .ringWait sw r d k else .ringRsv sw r d k

theorem exec_askInstr (sw : Bool) (r : Fin 16) (d : Option SReg) (k : USrc) (wait : Bool) (s : State) :
    exec (askInstr sw r d k wait) s = ringAsk sw r d k wait s := by cases wait <;> rfl

theorem litWords_askInstr (sw : Bool) (r : Fin 16) (d : Option SReg) (k : USrc) (wait : Bool) :
    (litWords (askInstr sw r d k wait)).length = usrcLits k := by cases wait <;> cases k <;> rfl

theorem ringEnd_here {s s1 : State} {h : Here} (hq : Quiet s h) (hteams : s1.teams = s.teams) {sw : Bool} (d : Option SReg) (x : W32)
    {lits : Nat} {pc : W64} (hpc : nextPc h.tm.pc lits = pc) : ringEnd sw s1 h d x lits = .next (endAt s1 h sw pc onePass
      { h.tm with regs := h.tm.regs.apply (oldWrites d x), flags := h.tm.flags ||| (oldWrites d x).flags }) := by
  subst hpc
  have hwrite := writeNow_here hq hteams (oldWrites d x)
  cases d <;> exact congrArg (fun p => Host.Outcome.next (endAt p.1 h sw (nextPc h.tm.pc lits) onePass p.2)) hwrite

theorem modCohort_twice (s : State) (c : Nat) (f : Cohort → Cohort) (x : Cohort) :
    (s.modCohort c f).modCohort c (fun _ => x) = s.modCohort c fun _ => x := by
  have hlist : modAt (fun _ => x) (modAt f s.cohorts c) c = modAt (fun _ => x) s.cohorts c := by
    refine List.ext_getElem? fun j => ?_
    rw [getElem?_modAt, getElem?_modAt, getElem?_modAt]
    split
    · rw [Option.map_map]; rfl
    · rfl
  show ({ s with cohorts := _ } : State) = _
  rw [State.modCohort_cohorts, hlist]
  rfl

theorem takeGrant_own (co : Cohort) (t depth r : Nat) (wait : Bool) (k : W32) (x : Option W32)
    (hq : co.ringq = [⟨.team t depth, r, wait, k, x⟩]) : takeGrant co t depth = x.map fun n => (n, { co with ringq := [] }) := by
  cases x <;> simp [takeGrant, hq]

section
variable {s : State} {h : Here} (hq : Quiet s h) (hwake : h.wake = none) (hposts : h.tm.posts = [])
  (sw : Bool) (r : Fin 16) (d : Option SReg) (k : USrc) (wait : Bool)
include hq hwake hposts

theorem exec_ask_none (hg : h.co.ring r.val = none) : exec (askInstr sw r d k wait) s = queueFault s h := by
  rw [exec_askInstr, ringAsk, onTeam_issuing hq.1]
  simp [hwake, whenDrained_noClaims hq.2.1 hq.2.2.1, whenPosted_none hposts, hg]

variable {g : Ring} (hg : h.co.ring r.val = some g)
include hg

theorem exec_ask_over (hn : g.nslot.toNat < (usrcVal h.frame k).toNat) : exec (askInstr sw r d k wait) s = queueFault s h := by
  rw [exec_askInstr, ringAsk, onTeam_issuing hq.1]
  simp [hwake, whenDrained_noClaims hq.2.1 hq.2.2.1, whenPosted_none hposts, hg, hn]

theorem exec_ask_zero (hn : usrcVal h.frame k = 0) : exec (askInstr sw r d k wait) s =
    .next (endAt s h sw (after h (askInstr sw r d k wait)) onePass
      { h.tm with regs := h.tm.regs.apply (oldWrites d (askOld wait g)), flags := h.tm.flags ||| (oldWrites d (askOld wait g)).flags }) := by
  rw [exec_askInstr, ringAsk, onTeam_issuing hq.1]
  simp only [hwake, whenDrained_noClaims hq.2.1 hq.2.2.1, whenPosted_none hposts, hg, hn]
  exact ringEnd_here hq rfl _ _ (nextPc_after (litWords_askInstr sw r d k wait))

variable (hrq : h.co.ringq = [])
include hrq

/-- A request on a ring without waiters: it is granted at once, or the team blocks behind it. -/
theorem exec_ask (hle : (usrcVal h.frame k).toNat ≤ g.nslot.toNat) (hn : usrcVal h.frame k ≠ 0) :
    let k32 : W32 := (usrcVal h.frame k).setWidth 32
    exec (askInstr sw r d k wait) s =
      if askOk wait g k32 then
        .next (endAt (s.modCohort h.tm.cohort fun _ => h.co.modRing r.val fun _ => askDone wait g k32) h sw
          (after h (askInstr sw r d k wait)) onePass
          { h.tm with regs := h.tm.regs.apply (oldWrites d (askOld wait g)), flags := h.tm.flags ||| (oldWrites d (askOld wait g)).flags })
      else .next (block (s.modCohort h.tm.cohort fun _ =>
        { h.co with ringq := [⟨.team h.t h.tm.handlers, r.val, wait, k32, none⟩] }) h h.tm .ring) := by
  intro k32
  have hdone : ({ h.co.modRing r.val fun _ => askDone wait g k32 with ringq := [] } : Cohort) = h.co.modRing r.val fun _ => askDone wait g k32 := by
    rw [Cohort.modRing, hrq]
  rw [exec_askInstr, ringAsk, onTeam_issuing hq.1]
  simp only [hwake, whenDrained_noClaims hq.2.1 hq.2.2.1, whenPosted_none hposts, hg, Nat.not_lt.mpr hle, hn, if_false, reduceCtorEq]
  rw [modCohort_here hq, hrq, List.nil_append, grant_ask hg]
  by_cases hok : askOk wait g k32 = true
  · have hgrant := takeGrant_own (({ h.co with ringq := [⟨.team h.t h.tm.handlers, r.val, wait, k32, some (askOld wait g)⟩] } : Cohort).modRing
      r.val fun _ => askDone wait g k32) h.t h.tm.handlers r.val wait k32 (some (askOld wait g)) rfl
    rw [if_pos hok, if_pos hok, cohort_modCohort hq, Option.bind_some, hgrant]
    show ringEnd sw (State.modCohort _ h.tm.cohort fun _ => { h.co.modRing r.val fun _ => askDone wait g k32 with ringq := [] }) h d _ _ = _
    rw [hdone, modCohort_twice]
    exact ringEnd_here (s1 := s.modCohort h.tm.cohort fun _ => h.co.modRing r.val fun _ => askDone wait g k32) hq rfl _ _
      (nextPc_after (litWords_askInstr sw r d k wait))
  · have hgrant := takeGrant_own { h.co with ringq := [⟨.team h.t h.tm.handlers, r.val, wait, k32, none⟩] } h.t h.tm.handlers r.val wait k32
      none rfl
    rw [if_neg hok, if_neg hok, cohort_modCohort hq, Option.bind_some, hgrant]
    rfl

end

/-! ## RING_CMT and RING_REL (R145) -/

/-- RING_CMT, or with `rel` RING_REL. -/
def postInstr (sw : Bool) (r : Fin 16) (k : USrc) (rel : Bool) : Instr := if rel then .ringRel sw r k else .ringCmt sw r k

theorem exec_postInstr (sw : Bool) (r : Fin 16) (k : USrc) (rel : Bool) (s : State) :
    exec (postInstr sw r k rel) s = ringPost sw r k rel s := by cases rel <;> rfl

theorem litWords_postInstr (sw : Bool) (r : Fin 16) (k : USrc) (rel : Bool) :
    (litWords (postInstr sw r k rel)).length = usrcLits k := by cases rel <;> cases k <;> rfl

/-- The counters allow a commit, or with `rel` a release. -/
def postOk (rel : Bool) (g : Ring) (k : W32) : Bool := if rel then g.canRel k else g.canCmt k
/-- The ring after a commit, or with `rel` a release. -/
def postDone (rel : Bool) (k : W32) (g : Ring) : Ring := if rel then { g with rel := g.rel + k } else { g with cmt := g.cmt + k }
/-- The update that a commit, or with `rel` a release, posts. -/
def postOf (rel : Bool) (r : Nat) (k : W32) : PostAct := if rel then .rel r k else .cmt r k

/-- With no access before it and no other update, an update takes effect as it is posted. -/
theorem postNow_idle {s : State} {t : Nat} {tm : Team} (ht : s.teams[t]? = some tm) (hposts : tm.posts = []) (hflight : tm.inflight = [])
    (hres : tm.residues = []) (pc : W64) (act : PostAct) : ∃ fail, postNow s t pc act
      = actPost (s.setTeam t { tm with nextId := tm.nextId + 1 }) t ⟨tm.nextId, pc, act⟩ fail := by
  have hlt : t < s.teams.length := (List.getElem?_eq_some_iff.mp ht).1
  have hpost : (s.modTeam t fun tm => { tm with posts := tm.posts ++ [⟨tm.nextId, pc, act⟩], nextId := tm.nextId + 1 }).teams[t]?
      = some { tm with posts := [⟨tm.nextId, pc, act⟩], nextId := tm.nextId + 1 } := by
    rw [State.modTeam_teams, modAt_same, ht, Option.map_some, hposts, List.nil_append]
  have hteams : modAt (fun tm => { tm with posts := tm.posts.filter fun p => !postDue tm p })
      (modAt (fun tm => { tm with posts := tm.posts ++ [⟨tm.nextId, pc, act⟩], nextId := tm.nextId + 1 }) s.teams t) t
      = s.teams.set t { tm with nextId := tm.nextId + 1 } := by
    refine List.ext_getElem? fun j => ?_
    rw [getElem?_modAt, getElem?_modAt]
    split
    · rename_i e
      subst e
      rw [ht, List.getElem?_set_self hlt]
      simp [hposts, postDue, hflight, hres]
    · rw [List.getElem?_set_ne (by assumption)]
  have hstate : ((s.modTeam t fun tm => { tm with posts := tm.posts ++ [⟨tm.nextId, pc, act⟩], nextId := tm.nextId + 1 }).modTeam t
      fun tm => { tm with posts := tm.posts.filter fun p => !postDue tm p }) = s.setTeam t { tm with nextId := tm.nextId + 1 } :=
    congrArg (fun ts => { s with teams := ts }) hteams
  refine ⟨postFault (s.setTeam t { tm with nextId := tm.nextId + 1 }) t pc, ?_⟩
  rw [postNow, applyPosts, hpost]
  dsimp only
  rw [hstate]
  simp [postDue, hflight, hres]

theorem actPost_commit {s : State} {t c : Nat} {tm : Team} {co co' : Cohort} (ht : s.teams[t]? = some tm) (hc : tm.cohort = c)
    (hco : s.cohorts[c]? = some co) (rel : Bool) {r : Nat} {k : W32} (hok : (if rel then co.release r k else co.commit r k) = some co')
    (id : Nat) (pc : W64) (fail : State) : actPost s t ⟨id, pc, postOf rel r k⟩ fail = s.modCohort c fun _ => co' := by
  subst hc
  cases rel
  · have hok : co.commit r k = some co' := hok
    simp [actPost, postOf, ht, hco, hok]
  · have hok : co.release r k = some co' := hok
    simp [actPost, postOf, ht, hco, hok]

section
variable {s : State} {h : Here} (hq : Quiet s h) (hposts : h.tm.posts = []) (sw : Bool) (r : Fin 16) (k : USrc) (rel : Bool)
include hq

theorem exec_post : exec (postInstr sw r k rel) s =
    let n := usrcVal h.frame k
    let go (s : State) : Outcome State := .next (endAt s h sw (after h (postInstr sw r k rel)) onePass (teamNow s h))
    match h.co.ring r.val with
    | none => queueFault s h
    | some g =>
      if g.nslot.toNat < n.toNat then queueFault s h
      else if n = 0 then go s
      else if (if rel then (g.cns - g.rel).toNat else (g.rsv - g.cmt).toNat) < n.toNat + postedSlots s h.tm.cohort r.val rel then queueFault s h
      else go (postNow s h.t h.tm.pc (postOf rel r.val (n.setWidth 32))) := by
  rw [exec_postInstr, ringPost, onTeam_issuing hq.1, reading_noClaims hq.2.1, nextPc_after (litWords_postInstr sw r k rel)]
  rfl

theorem post_faults (hbad : h.co.ring r.val = none ∨ ∃ g, h.co.ring r.val = some g ∧ g.nslot.toNat < (usrcVal h.frame k).toNat) :
    exec (postInstr sw r k rel) s = queueFault s h := by
  rw [exec_post hq]
  rcases hbad with hg | ⟨g, hg, hn⟩
  · rw [hg]
  · rw [hg]; exact if_pos hn

variable {g : Ring} (hg : h.co.ring r.val = some g)
include hg

theorem post_zero (hrq : h.co.ringq = []) (hn : usrcVal h.frame k = 0) : RingLeft (postInstr sw r k rel) s h r.val g h.tm.regs := by
  have hexec := exec_post hq sw r k rel
  simp only [hg, hn, teamNow_issuing hq.1] at hexec
  exact ringLeft_of (tm := h.tm) hexec (team_lt hq.1) hq.2.1 rfl (cohort_here hq) (.same hg hrq)

variable (hle : (usrcVal h.frame k).toNat ≤ g.nslot.toNat) (hn : usrcVal h.frame k ≠ 0) (hnone : postedSlots s h.tm.cohort r.val rel = 0)
include hle hn hnone

/-- An update of at most NSLOT slots acts where the counters allow it, and else is refused. -/
theorem exec_post_some : exec (postInstr sw r k rel) s =
    if postOk rel g ((usrcVal h.frame k).setWidth 32) then
      let s1 := postNow s h.t h.tm.pc (postOf rel r.val ((usrcVal h.frame k).setWidth 32))
      .next (endAt s1 h sw (after h (postInstr sw r k rel)) onePass (teamNow s1 h))
    else queueFault s h := by
  have hroom : (if rel then (g.cns - g.rel).toNat else (g.rsv - g.cmt).toNat) < (usrcVal h.frame k).toNat
      ↔ ¬postOk rel g ((usrcVal h.frame k).setWidth 32) = true := by
    have hk : ((usrcVal h.frame k).setWidth 32).toNat = (usrcVal h.frame k).toNat :=
      (BitVec.toNat_setWidth 32 _).trans (Nat.mod_eq_of_lt (hle.trans_lt g.nslot.isLt))
    cases rel
    · rw [postOk, if_neg Bool.false_ne_true, if_neg Bool.false_ne_true, Ring.canCmt, decide_eq_true_iff, hk, Nat.not_le]
    · rw [postOk, if_pos rfl, if_pos rfl, Ring.canRel, decide_eq_true_iff, hk, Nat.not_le]
  rw [exec_post hq]
  simp only [hg, Nat.not_lt.mpr hle, hn, if_false, hnone, Nat.add_zero, hroom, ite_not]

include hposts
theorem post_done (hrq : h.co.ringq = []) (hok : postOk rel g ((usrcVal h.frame k).setWidth 32) = true) :
    RingLeft (postInstr sw r k rel) s h r.val (postDone rel ((usrcVal h.frame k).setWidth 32) g) h.tm.regs := by
  obtain ⟨tm, ht, htm, -⟩ := issuing_some hq.1
  have hlt := team_lt hq.1
  have hsame : tm.posts = h.tm.posts ∧ tm.inflight = h.tm.inflight ∧ tm.residues = h.tm.residues ∧ tm.cohort = h.tm.cohort := by
    rw [htm]; exact ⟨rfl, rfl, rfl, rfl⟩
  obtain ⟨hp, hf, hr, hc⟩ := hsame
  obtain ⟨fail, hpost⟩ := postNow_idle ht (hp.trans hposts) (hf.trans hq.2.2.2.1) (hr.trans hq.2.2.1) h.tm.pc
    (postOf rel r.val ((usrcVal h.frame k).setWidth 32))
  have hupdate : (if rel then h.co.release r.val ((usrcVal h.frame k).setWidth 32) else h.co.commit r.val ((usrcVal h.frame k).setWidth 32))
      = some (h.co.modRing r.val (postDone rel ((usrcVal h.frame k).setWidth 32))) := by
    cases rel
    · exact commit_ok hg hrq hok
    · exact release_ok hg hrq hok
  have hco := cohort_here hq
  have hact := actPost_commit (s := s.setTeam h.t { tm with nextId := tm.nextId + 1 }) (co := h.co) (List.getElem?_set_self hlt) hc
    hco rel hupdate tm.nextId h.tm.pc fail
  rw [hact] at hpost
  have hexec := exec_post_some hq sw r k rel hg hle hn hnone
  rw [if_pos hok, hpost] at hexec
  dsimp only at hexec
  have hnow : teamNow ((s.setTeam h.t { tm with nextId := tm.nextId + 1 }).modCohort h.tm.cohort
      fun _ => h.co.modRing r.val (postDone rel ((usrcVal h.frame k).setWidth 32))) h = { h.tm with nextId := h.tm.nextId + 1 } := by
    rw [teamNow, State.modCohort_teams, State.setTeam_teams, List.getElem?_set_self hlt, htm]; rfl
  rw [hnow] at hexec
  refine ringLeft_of (tm := { h.tm with nextId := h.tm.nextId + 1 }) hexec ?_ hq.2.1 rfl
    (co' := h.co.modRing r.val (postDone rel ((usrcVal h.frame k).setWidth 32))) ?_ (.modRing hg rfl hrq rfl rfl)
  · show h.t < (s.teams.set h.t _).length
    rwa [List.length_set]
  · show (modAt _ s.cohorts h.tm.cohort)[h.tm.cohort]? = _
    rw [modAt_same, cohort_here hq, Option.map_some]

end

/-! ## RING_STAT and RING_INIT (R144, R145) -/

theorem litWords_ringStat (sw : Bool) (r : Fin 16) (c : SReg) (k : USrc) : (litWords (.ringStat sw r c k)).length = usrcLits k := by
  cases k <;> rfl
theorem litWords_ringInit (sw : Bool) (r : Fin 16) (a : USrc) (b : Byte) : (litWords (.ringInit sw r a b)).length = usrcLits a := by
  cases a <;> rfl

section
variable {s : State} {h : Here} (hq : Quiet s h) (hposts : h.tm.posts = []) (sw : Bool) (r : Fin 16)
include hq hposts

theorem exec_ringStat (c : SReg) (k : USrc) : exec (.ringStat sw r c k) s =
    if usrcVal h.frame k != 0 && usrcVal h.frame k != 1 then illegal s h
    else match h.co.ring r.val with
      | none => queueFault s h
      | some g => .next (endAt s h sw (after h (.ringStat sw r c k)) onePass
          (let w := Writes.ofU c.val (if usrcVal h.frame k = 0 then g.cmt ++ g.rsv else g.rel ++ g.cns)
          { h.tm with regs := h.tm.regs.apply w, flags := h.tm.flags ||| w.flags })) := by
  show execRingStat sw r c k s = _
  rw [execRingStat, onTeam_issuing hq.1, reading_noClaims hq.2.1, whenPosted_none hposts, nextPc_after (litWords_ringStat sw r c k)]
  simp only [teamNow_issuing hq.1, writeNow_noClaims hq.2.1] <;> rfl

theorem exec_ringInit (a : USrc) (b : Byte) : exec (.ringInit sw r a b) s =
    let off : W64 := BitVec.ofNat 64 ((usrcVal h.frame a).toNat % 2 ^ 32)
    if off.toNat % 8 != 0 then raise s h 0x04 h.tm.active off
    else match placeOffset h true ⟨0, off, 16⟩ with
      | .error e => raise s h (rankCode e.rank) h.tm.active e.addr
      | .ok _ => match ringOf (readBytes h.co.sp off.toNat 16) h.share with
        | none => queueFault s h
        | some g => if (h.co.ring r.val).isSome && ringBusy s h r.val then queueFault s h
          else .next (endAt (s.modCohort h.tm.cohort fun co => { co with rings := co.rings.set r.val (some g) }) h sw
            (after h (.ringInit sw r a b)) onePass h.tm) := by
  have hnow (f : Cohort → Cohort) : teamNow (s.modCohort h.tm.cohort f) h = h.tm := teamNow_same hq rfl
  show execRingInit sw r a b s = _
  rw [execRingInit, onTeam_issuing hq.1, reading_noClaims hq.2.1, whenPosted_none hposts, nextPc_after (litWords_ringInit sw r a b), hq.2.2.1]
  simp only [hnow, List.any_nil, Bool.false_eq_true, if_false] <;> rfl

end

/-- A ring is set up with every counter 0 (R144). -/
theorem ringOf_counters {bs : List Byte} {share : Nat} {g : Ring} (hg : ringOf bs share = some g) :
    g.rsv = 0 ∧ g.cmt = 0 ∧ g.cns = 0 ∧ g.rel = 0 := by
  unfold ringOf at hg
  dsimp only at hg
  split at hg
  · obtain rfl := Option.some.inj hg
    exact ⟨rfl, rfl, rfl, rfl⟩
  · cases hg

theorem RingSet.init {co : Cohort} {r : Nat} (hr : r < co.rings.length) (hq : co.ringq = []) (g : Ring) :
    RingSet co { co with rings := co.rings.set r (some g) } r g := by
  refine ⟨?_, hq, fun q hne => ?_, rfl⟩
  · show ((co.rings.set r (some g))[r]?).bind id = _
    rw [List.getElem?_set_self hr]; rfl
  · show ((co.rings.set r (some g))[q]?).bind id = (co.rings[q]?).bind id
    rw [List.getElem?_set_ne (Ne.symm hne)]

/-- An offset is the low 32 bits of its operand (R117). -/
theorem toNat_offsetOf (x : Nat) : (BitVec.ofNat 64 (x % 2 ^ 32)).toNat = x % 2 ^ 32 := by
  rw [BitVec.toNat_ofNat]
  exact Nat.mod_eq_of_lt ((Nat.mod_lt _ (by decide)).trans (by decide))

/-- The offset of an own scratchpad access that fits in the share passes its checks (R119). -/
theorem placeOffset_own {h : Here} {off n : Nat} (hoff : off < 2 ^ 22) (hn : off + n ≤ h.share) (hc : (h.neighbour 0).isSome = true) :
    ∃ p, placeOffset h true ⟨0, BitVec.ofNat 64 off, n⟩ = .ok p := by
  obtain ⟨⟨c, k⟩, hck⟩ := Option.isSome_iff_exists.mp hc
  have hpos : off / 2 ^ 22 = 0 := Nat.div_eq_of_lt hoff
  have hmod : off % 2 ^ 22 = off := Nat.mod_eq_of_lt hoff
  exact ⟨_, placeOffset_fits (c := c) (k := k) hoff (by rwa [hmod]) (by rwa [hpos])⟩

section
variable {s : State} {h : Here} (hq : Quiet s h) (hwake : h.wake = none) (hposts : h.tm.posts = []) (hrq : h.co.ringq = [])
  (sw : Bool) (r : Fin 16) (d : Option SReg) (k : USrc)
include hq hwake hposts hrq

/-- A request of at least one and at most NSLOT slots: granted, or the team blocks with its request in the queue. -/
theorem ask_settled (wait : Bool) {g : Ring} (hg : h.co.ring r.val = some g) (hle : (usrcVal h.frame k).toNat ≤ g.nslot.toNat)
    (hn : usrcVal h.frame k ≠ 0) :
    let i := askInstr sw r d k wait
    let k32 : W32 := (usrcVal h.frame k).setWidth 32
    if askOk wait g k32 then RingLeft i s h r.val (askDone wait g k32) (h.tm.regs.apply (oldWrites d (askOld wait g)))
    else ∃ t tm co', exec i s = .next t ∧ t.teams[h.t]? = some tm ∧ tm.status = .blocked .ring ∧ tm.pc = h.tm.pc ∧ tm.regs = h.tm.regs
      ∧ t.cohorts[h.tm.cohort]? = some co' ∧ co'.ringq = [⟨.team h.t h.tm.handlers, r.val, wait, k32, none⟩] ∧ co'.rings = h.co.rings := by
  intro i k32
  have hexec := exec_ask hq hwake hposts sw r d k wait hg hrq hle hn
  dsimp only at hexec
  split
  · rename_i hok
    rw [if_pos hok] at hexec
    exact ringLeft_modCohort hq hexec (.modRing hg rfl hrq rfl rfl)
  · rename_i hok
    rw [if_neg hok] at hexec
    exact ⟨_, _, _, hexec, List.getElem?_set_self (team_lt (s := s) hq.1), rfl, rfl, rfl, cohort_modCohort hq _, rfl, rfl⟩

end

section
variable {s : State} {h : Here} (hq : Quiet s h) (hposts : h.tm.posts = []) (sw : Bool) (r : Fin 16) (a : USrc) (b : Byte)
include hq hposts

theorem ringInit_misaligned (hal : (usrcVal h.frame a).toNat % 2 ^ 32 % 8 ≠ 0) :
    exec (.ringInit sw r a b) s = raise s h 0x04 h.tm.active (BitVec.ofNat 64 ((usrcVal h.frame a).toNat % 2 ^ 32)) := by
  refine (exec_ringInit hq hposts sw r a b).trans (if_pos ?_)
  rwa [bne_iff_ne, toNat_offsetOf]

variable (hal : (usrcVal h.frame a).toNat % 2 ^ 32 % 8 = 0) (hlt : (usrcVal h.frame a).toNat % 2 ^ 32 < 2 ^ 22)
  (hshare : (usrcVal h.frame a).toNat % 2 ^ 32 + 16 ≤ h.share) (hnb : (h.neighbour 0).isSome = true)
include hal hlt hshare hnb

/-- A descriptor that can be read is put into the cohort, where it is valid and the ring is not in use. -/
theorem exec_ringInit_placed : exec (.ringInit sw r a b) s =
    match ringOf (readBytes h.co.sp ((usrcVal h.frame a).toNat % 2 ^ 32) 16) h.share with
    | none => queueFault s h
    | some g => if (h.co.ring r.val).isSome && ringBusy s h r.val then queueFault s h
      else .next (endAt (s.modCohort h.tm.cohort fun co => { co with rings := co.rings.set r.val (some g) }) h sw
        (after h (.ringInit sw r a b)) onePass h.tm) := by
  obtain ⟨p, hp⟩ := placeOffset_own hlt hshare hnb
  rw [exec_ringInit hq hposts]
  dsimp only
  rw [toNat_offsetOf, if_neg (by rw [bne_iff_ne]; exact not_not_intro hal), hp]

theorem ringInit_refused (hbad : ringOf (readBytes h.co.sp ((usrcVal h.frame a).toNat % 2 ^ 32) 16) h.share = none
    ∨ (h.co.ring r.val).isSome = true ∧ ringBusy s h r.val = true) : exec (.ringInit sw r a b) s = queueFault s h := by
  rw [exec_ringInit_placed hq hposts sw r a b hal hlt hshare hnb]
  split
  · rfl
  · rename_i hdesc
    refine if_pos ?_
    rw [hdesc] at hbad
    rw [Bool.and_eq_true]
    exact hbad.resolve_left (Option.some_ne_none _)

theorem ringInit_done (hrq : h.co.ringq = []) (hr : r.val < h.co.rings.length) {g : Ring}
    (hdesc : ringOf (readBytes h.co.sp ((usrcVal h.frame a).toNat % 2 ^ 32) 16) h.share = some g)
    (hfree : h.co.ring r.val = none ∨ ringBusy s h r.val = false) : RingLeft (.ringInit sw r a b) s h r.val g h.tm.regs := by
  have hexec := exec_ringInit_placed hq hposts sw r a b hal hlt hshare hnb
  rw [hdesc] at hexec
  have hnot : ¬((h.co.ring r.val).isSome && ringBusy s h r.val) = true := by
    rcases hfree with hfree | hfree <;> simp [hfree]
  exact ringLeft_of (tm := h.tm) (hexec.trans (if_neg hnot)) (team_lt (s := s) hq.1) hq.2.1 rfl (cohort_modCohort hq _) (.init hr hrq g)

end

/-- Settles O46: a request on a ring without waiters is granted or blocks its team, an update of a team with nothing before it takes effect
at once, and a descriptor is checked as it stands in the scratchpad. -/
theorem rings : Obligations.Rings := by
  unfold Obligations.Rings
  intro sw r a k b d s h hq hwake hposts hrq n k32 raises faults put old blocked
  have hold (x : W32) : h.tm.regs.apply (oldWrites d x) = old x := by cases d <;> rfl
  have hask (wait : Bool) := exec_ask_none hq hwake hposts sw r d k wait
  refine ⟨fun g hg => ⟨fun hover => ?_, fun hzero => ?_, fun hle hn => ?_, fun c => ⟨fun hzero => ?_, fun hone => ?_⟩⟩, fun hg => ?_,
    fun c h0 h1 => ?_, ?_⟩
  · have hpost (rel : Bool) := post_faults hq sw r k rel (.inr ⟨g, hg, hover⟩)
    have hover (wait : Bool) := exec_ask_over hq hwake hposts sw r d k wait hg hover
    exact ⟨hover false, hover true, hpost false, hpost true⟩
  · have hpost (rel : Bool) := post_zero hq sw r k rel hg hrq hzero
    have hgiven (wait : Bool) := ringLeft_here hq (exec_ask_zero hq hwake hposts sw r d k wait hg hzero) hg hrq
    exact ⟨hold g.rsv ▸ hgiven false, hold g.cns ▸ hgiven true, hpost false, hpost true⟩
  · have hgiven (wait : Bool) := ask_settled hq hwake hposts hrq sw r d k wait hg hle hn
    have hpost (rel : Bool) (hnone : postedSlots s h.tm.cohort r.val rel = 0) :
        if postOk rel g k32 then put (postInstr sw r k rel) (postDone rel k32 g) h.tm.regs else faults (postInstr sw r k rel) := by
      have hexec := exec_post_some hq sw r k rel hg hle hn hnone
      split
      · exact post_done hq hposts sw r k rel hg hle hn hnone hrq (by assumption)
      · exact hexec.trans (if_neg (by assumption))
    exact ⟨hold g.rsv ▸ hgiven false, hold g.cns ▸ hgiven true, hpost false, hpost true⟩
  · have hexec := exec_ringStat hq hposts sw r c k
    simp only [hg, show usrcVal h.frame k = 0 from hzero] at hexec
    exact ringLeft_here hq hexec hg hrq
  · have hexec := exec_ringStat hq hposts sw r c k
    simp only [hg, show usrcVal h.frame k = 1 from hone] at hexec
    exact ringLeft_here hq hexec hg hrq
  · have hpost (rel : Bool) := post_faults hq sw r k rel (.inl hg)
    refine ⟨hask false hg, hask true hg, hpost false, hpost true, fun c hc => ?_⟩
    have hexec := exec_ringStat hq hposts sw r c k
    rw [hg] at hexec
    refine hexec.trans (if_neg ?_)
    rw [Bool.and_eq_true, bne_iff_ne, bne_iff_ne]
    exact fun hno => hc.elim hno.1 hno.2
  · refine (exec_ringStat hq hposts sw r c k).trans (if_pos ?_)
    rw [Bool.and_eq_true, bne_iff_ne, bne_iff_ne]
    exact ⟨h0, h1⟩
  · exact ⟨ringInit_misaligned hq hposts sw r a b, fun hal hlt hshare hnb hr => ⟨ringInit_refused hq hposts sw r a b hal hlt hshare hnb,
      fun g hdesc hfree => ⟨ringInit_done hq hposts sw r a b hal hlt hshare hnb hrq hr hdesc hfree, ringOf_counters hdesc⟩⟩⟩

end Sys2Proof.Proofs.Rings
end

section
/-! Certificates for the family spec/06_instructions_memory.md: what translations and accesses leave of the teams, and what they do as
they issue (R117 to R131). -/
namespace Sys2Proof.Proofs.WriteBacks
open Sys2Proof Sys2Proof.Machine

/-! ## Translations -/

theorem HomeFrame.translate {s s' : State} {quad asid root : Nat} {va : W64} {n : Need} {x : Xlat}
    (h : translate s quad asid root va n = .ok (s', x)) : HomeFrame s s' := by
  unfold Machine.translate at h
  dsimp only at h
  split at h
  · cases h
  split at h
  · cases h
  split at h
  · cases h
  simp only [Except.ok.injEq, Prod.mk.injEq] at h
  obtain ⟨rfl, -⟩ := h
  have htlb (u : State) (b : Prop) [Decidable b] (t : List (List TlbEntry)) : HomeFrame u (if b then u else { u with tlbs := t }) := by
    split
    · exact .refl u
    · exact .of_eq rfl rfl rfl rfl rfl
  refine HomeFrame.trans ?_ (htlb _ _ _)
  split
  · exact .refl s
  · exact (HomeFrame.homeWriteRaw _ _ _).trans (.mscPut _ _)

theorem HomeFrame.xlateFor (s : State) (core asid root : Nat) (va : W64) (n : Need) : HomeFrame s (xlateFor s core asid root va n).1 := by
  unfold Machine.xlateFor
  dsimp only
  have hwalk : HomeFrame s (if (tlbFind (s.tlbs.getD (quadOf core) []) asid (vpage va)).isSome then s
      else Machine.walkClear s (some core) root va) := by
    split
    · exact .refl s
    · exact .walkClear _ _ _ _
  split
  · rename_i ht
    exact hwalk.trans (HomeFrame.translate ht)
  · exact hwalk

theorem HomeFrame.placePage (s : State) (h : Here) (n : Need) (a : Acc) (va : W64) : HomeFrame s (placePage s h n a va).1 := by
  unfold Machine.placePage
  split
  · exact .refl s
  · exact .xlateFor _ _ _ _ _ _

theorem HomeFrame.placeGlob (s : State) (h : Here) (w : Bool) (n : Need) (a : Acc) : HomeFrame s (placeGlob s h w n a).1 := by
  unfold Machine.placeGlob
  split
  · dsimp only
    split <;> exact .refl s
  · dsimp only
    split
    · exact .placePage _ _ _ _ _
    · exact (HomeFrame.placePage _ _ _ _ _).trans (.placePage _ _ _ _ _)

theorem HomeFrame.placeAcc (s : State) (h : Here) (sp : Space) (n : Need) (al : Nat) (a : Acc) : HomeFrame s (placeAcc s h sp n al a).1 := by
  unfold Machine.placeAcc
  cases sp <;> dsimp only <;> split
  case glob.isTrue | glob.isFalse => exact .placeGlob _ _ _ _ _
  case spad.isTrue | spad.isFalse => exact .refl s

theorem HomeFrame.placeAll (s : State) (h : Here) (sp : Space) (n : Need) (al : Nat) (as : List Acc) :
    HomeFrame s (placeAll s h sp n al as).1 :=
  .foldl_fst (fun p a => by dsimp only; split <;> exact .placeAcc _ _ _ _ _ _) _ (s, [], [])

end Sys2Proof.Proofs.WriteBacks

namespace Sys2Proof.Proofs.Accesses
open Sys2Proof Sys2Proof.Machine Sys2Proof.Proofs.Scratchpads Sys2Proof.Proofs.WriteBacks Sys2Proof.Proofs.Queues

/-! ## The teams of an access -/

/-- The team is as it was, but for its wake flag, CLEARS, what it has read of imported pages, and its bank cycles. -/
def TeamKept (tm tm' : Team) : Prop :=
  ∃ w c p g b, tm' = { tm with wake := w, clears := c, podPages := p, podTags := g, banks := b }

/-- Every team is as it was, but for what an access changes of a team before it goes on. -/
def TeamsKept (s s' : State) : Prop :=
  ∀ (j : Nat) (tm : Team), s.teams[j]? = some tm → ∃ tm', s'.teams[j]? = some tm' ∧ TeamKept tm tm'

theorem TeamKept.refl (tm : Team) : TeamKept tm tm := ⟨_, _, _, _, _, rfl⟩
theorem TeamKept.trans {a b c : Team} (h : TeamKept a b) (k : TeamKept b c) : TeamKept a c := by
  obtain ⟨_, _, _, _, _, rfl⟩ := h
  obtain ⟨_, _, _, _, _, rfl⟩ := k
  exact ⟨_, _, _, _, _, rfl⟩

theorem TeamsKept.of_eq {s s' : State} (ht : s'.teams = s.teams) : TeamsKept s s' := fun j tm h => ⟨tm, by rw [ht, h], .refl tm⟩
theorem TeamsKept.refl (s : State) : TeamsKept s s := .of_eq rfl
theorem TeamsKept.trans {a b c : State} (h : TeamsKept a b) (k : TeamsKept b c) : TeamsKept a c := fun j tm hj => by
  obtain ⟨x, hx, hkx⟩ := h j tm hj
  obtain ⟨y, hy, hky⟩ := k j x hx
  exact ⟨y, hy, hkx.trans hky⟩
theorem TeamsKept.of_wakes {s s' : State} (h : OnlyWakes s s') : TeamsKept s s' := fun j tm hj => by
  obtain ⟨b, hb⟩ := h j tm hj
  exact ⟨_, hb, _, _, _, _, _, rfl⟩
theorem TeamsKept.modTeam (s : State) (t : Nat) {f : Team → Team} (hf : ∀ tm, TeamKept tm (f tm)) : TeamsKept s (s.modTeam t f) :=
  fun j tm hj => by
    rw [State.modTeam_teams, getElem?_modAt]
    split
    · exact ⟨f tm, by rw [hj]; rfl, hf tm⟩
    · exact ⟨tm, hj, .refl tm⟩
theorem TeamsKept.foldl {α : Type} {f : State → α → State} (hf : ∀ s x, TeamsKept s (f s x)) (l : List α) (s : State) :
    TeamsKept s (l.foldl f s) :=
  List.foldlRecOn l f (.refl s) fun _ hx y _ => hx.trans (hf _ y)
theorem TeamsKept.foldl_fst {α β : Type} {f : State × β → α → State × β} (hf : ∀ p x, TeamsKept p.1 (f p x).1) (l : List α)
    (p : State × β) : TeamsKept p.1 (l.foldl f p).1 :=
  List.foldlRecOn (motive := fun q => TeamsKept p.1 q.1) l f (.refl p.1) fun _ hx y _ => hx.trans (hf _ y)

theorem TeamsKept.dropClean (s : State) (core : Nat) (p : L1Line → Bool) : TeamsKept s (dropClean s core p) := .of_wakes (.dropClean _ _ _)
theorem TeamsKept.writeBackWhere (s : State) (core : Nat) (p : L1Line → Bool) : TeamsKept s (writeBackWhere s core p) :=
  .of_wakes (HomeFrame.writeBackWhere _ _ _).teams
theorem TeamsKept.homeWrite (s : State) (key : Nat) (ws : List (Nat × Byte)) : TeamsKept s (homeWrite s key ws) :=
  .of_wakes (HomeFrame.homeWrite _ _ _).teams
theorem TeamsKept.dieWrite (s : State) (o : ReqOwner) (core key line : Nat) (who : List (Nat × Author)) (sync : Bool)
    (ws : List (Nat × Byte)) : TeamsKept s (dieWrite s o core key line who sync ws).1 := .of_wakes (HomeFrame.dieWrite _ _ _ _ _ _ _ _).teams
theorem TeamsKept.placeAll (s : State) (h : Here) (sp : Space) (n : Need) (al : Nat) (as : List Acc) :
    TeamsKept s (placeAll s h sp n al as).1 := .of_wakes (HomeFrame.placeAll _ _ _ _ _ _).teams

theorem TeamsKept.countBanks (s : State) (t : Nat) (ps : List Placed) : TeamsKept s (countBanks s t ps) := by
  obtain hsame | ⟨bs, hsome⟩ := countBanks_cases s t ps
  · rw [hsame]; exact .refl s
  · rw [hsome]
    exact (TeamsKept.of_eq (addBanks_teams s bs)).trans (.modTeam _ _ fun tm => ⟨_, _, _, _, _, rfl⟩)

/-! ### Reads -/

theorem fillLine_teams (s : State) (core asid : Nat) (priv : Bool) (line : Nat) : (fillLine s core asid priv line).teams = s.teams := by
  unfold fillLine
  split
  · split
    · split <;> rfl
    · split <;> rfl
  · split <;> rfl

theorem fillSpots_teams (s : State) (h : Here) (sp : List Spot) : (fillSpots s h sp).teams = s.teams := by
  refine List.foldlRecOn (motive := fun (t : State) => t.teams = s.teams) _ _ rfl fun t ht line _ => ?_
  split
  · dsimp only
    split
    · exact (fillLine_teams _ _ _ _ _).trans ht
    · exact (fillLine_teams _ _ _ _ _).trans ht
  · exact ht

theorem mscReads_teams (s : State) (ls : List Nat) : (mscReads s ls).teams = s.teams :=
  List.foldlRecOn (motive := fun (t : State) => t.teams = s.teams) ls _ rfl fun _ ht _ _ => ht

theorem l1Clean_teams (s : State) (core : Nat) (ws : List (Nat × Byte)) : (l1Clean s core ws).teams = s.teams := by
  refine List.foldlRecOn (motive := fun (t : State) => t.teams = s.teams) ws _ rfl fun t ht p _ => ?_
  split <;> exact ht

theorem l1Update_teams (s : State) (core : Nat) (ws : List (Nat × Byte)) : (l1Update s core ws).teams = s.teams := by
  refine List.foldlRecOn (motive := fun (t : State) => t.teams = s.teams) ws _ rfl fun t ht p _ => ?_
  split
  · split <;> exact ht
  · exact ht

theorem askLines_teams (s : State) (h : Here) (o : ReqOwner) (m : List Spot) : (askLines s h o m).1.teams = s.teams :=
  List.foldlRecOn (motive := fun (t : State × List (Nat × Nat)) => t.1.teams = s.teams) _ _ rfl fun _ ht _ _ => ht

theorem constFill_teams (s : State) (core asid line : Nat) : (constFill s core asid line).teams = s.teams := by
  unfold constFill
  dsimp only
  split
  · rfl
  · split <;> rfl

theorem gather_teams (s : State) (h : Here) (o : ReqOwner) (get : State → Here → Spot → Option Byte) (ps : List Placed) :
    (gather s h o get ps).1.teams = s.teams := askLines_teams _ _ _ _

theorem TeamsKept.noteImported (s : State) (h : Here) (sp : List Spot) : TeamsKept s (noteImported s h sp) := by
  unfold Machine.noteImported
  dsimp only
  split
  · exact .refl s
  · exact .modTeam _ _ fun tm => ⟨_, _, _, _, _, rfl⟩

theorem TeamsKept.acquireOn (s : State) (h : Here) (sc : Scope) (line : Nat) : TeamsKept s (acquireOn s h sc line) := by
  have hself (s : State) : TeamsKept s (selfInvalidate s h.core h.asid) := .dropClean _ _ _
  have hclears (s : State) (n : Nat) : TeamsKept s (addClears s h n) := by
    unfold addClears
    split
    · exact .refl s
    · exact .modTeam _ _ fun tm => ⟨_, _, _, _, _, rfl⟩
  have hline : TeamsKept s (acquireLine s h.core h.asid sc line).1 := by
    unfold acquireLine
    split
    · exact hself s
    · split
      · exact .refl s
      · split
        · split
          · exact (TeamsKept.writeBackWhere _ _ _).trans ((TeamsKept.of_eq (s' := setTag _ _) rfl).trans (hself _))
          · exact (TeamsKept.of_eq (s' := setTag _ _) rfl).trans (hself _)
        · exact hself s
  unfold Machine.acquireOn
  split
  · split
    · exact (TeamsKept.of_eq (s' := dieDrop _ _ _) rfl).trans (hself _)
    · exact hself s
  · exact hline.trans (hclears _ _)

theorem TeamsKept.loadPlaced (s : State) (h : Here) (sync : Option Scope) (ps : List Placed) : TeamsKept s (loadPlaced s h sync ps).1 := by
  unfold Machine.loadPlaced
  cases sync with
  | none =>
    refine TeamsKept.trans (.of_eq ?_) (.noteImported _ _ _)
    rw [gather_teams]
    exact (l1Clean_teams _ _ _).trans ((mscReads_teams _ _).trans (fillSpots_teams _ _ _))
  | some sc =>
    refine TeamsKept.trans ?_ (.dropClean _ _ _)
    refine TeamsKept.trans ?_ (.foldl (fun s l => .acquireOn s h sc l) _ _)
    refine TeamsKept.trans ?_ (.noteImported _ _ _)
    refine TeamsKept.trans (.foldl (fun s l => .acquireOn s h sc l) (linesOf ((ps.flatMap Placed.spots).filter fun x => !x.x.imp)) s) (.of_eq ?_)
    rw [gather_teams]
    exact (l1Clean_teams _ _ _).trans (mscReads_teams _ _)

/-! ### Writes -/

theorem TeamsKept.releaseLine (s : State) (core asid : Nat) (sc : Scope) (line : Nat) (ws : List (Nat × Byte)) :
    TeamsKept s (releaseLine s core asid sc line ws) := by
  unfold Machine.releaseLine
  have htag (s : State) (x : Option Tag) : TeamsKept s (match x with
      | some t => clearTag s t (some core)
      | none => s) := by
    cases x with
    | some t => exact .of_wakes (HomeFrame.clearTag _ _ _).teams
    | none => exact .refl s
  exact ((htag s _).trans (.homeWrite _ _ _)).trans (.of_eq (l1Update_teams _ _ _))

theorem spadStore_teams (s : State) (c : Nat) (ws : List (Nat × Byte)) : (spadStore s c ws).teams = s.teams := (spadStore_frame s c ws).2.1

theorem TeamsKept.storeLine (s : State) (h : Here) (sync : Option Scope) (line : Nat) (ws : List (Spot × Byte)) :
    TeamsKept s (storeLine s h sync line ws).1 := by
  unfold Machine.storeLine
  cases sync with
  | none =>
    dsimp only
    split
    · exact .of_eq rfl
    · split
      · exact (TeamsKept.dieWrite _ _ _ _ _ _ _ _).trans (.of_eq (l1Update_teams _ _ _))
      · exact (TeamsKept.homeWrite _ _ _).trans (.of_eq (l1Update_teams _ _ _))
  | some sc =>
    dsimp only
    split
    · exact (TeamsKept.dieWrite _ _ _ _ _ _ _ _).trans (.of_eq (l1Update_teams _ _ _))
    · exact .releaseLine _ _ _ _ _ _

theorem TeamsKept.storePlaced (s : State) (h : Here) (sync : Option Scope) (ps : List (Placed × List Byte)) :
    TeamsKept s (storePlaced s h sync ps).1 := by
  unfold Machine.storePlaced
  refine TeamsKept.trans (.of_eq ?_) (.foldl_fst (fun _ _ => by dsimp only; exact .storeLine _ _ _ _ _) _ (_, []))
  refine List.foldlRecOn (motive := fun (t : State) => t.teams = s.teams) ps _ rfl fun t ht p _ => ?_
  split
  · exact (spadStore_teams _ _ _).trans ht
  · exact ht

theorem TeamsKept.atomElem (s : State) (h : Here) (k : AtomKind) (sync : Option Scope) (size : Nat) (e : ElemAt) (ps : List Placed) :
    TeamsKept s (atomElem s h k sync size e ps).1 := by
  have hdrop (s : State) (core pa : Nat) : TeamsKept s (dropElem s core pa size) := by
    unfold dropElem
    refine TeamsKept.trans (.of_eq ?_) (.dropClean _ _ _)
    split <;> rfl
  unfold Machine.atomElem
  cases e with
  | spad c off => exact .of_eq (spadStore_teams _ _ _)
  | glob pa =>
    dsimp only
    split
    · exact (hdrop _ _ _).trans (.of_eq rfl)
    · cases sync with
      | none => exact (TeamsKept.homeWrite _ _ _).trans (.of_eq (l1Clean_teams _ _ _))
      | some sc => exact .releaseLine _ _ _ _ _ _

theorem TeamsKept.atomElems (s : State) (h : Here) (k : AtomKind) (sync : Option Scope) (size : Nat) (ps : List Placed) :
    TeamsKept s (atomElems s h k sync size ps).1 := by
  unfold Machine.atomElems
  exact TeamsKept.foldl_fst (β := List (Nat × List PByte) × List Nat) (fun _ _ => by dsimp only; exact .atomElem _ _ _ _ _ _ _) _ (s, [], [])

/-! ## What the access of an instruction is (R122, R125, R127, R128) -/

/-- The action of an access, by its kind: a load, a read of the constant path, a store or an atomic of the lanes that take part, or a
uniform load or store. -/
inductive AccessRun (j : Job) (f : Frame) : Space → Need → Nat → List Acc → Prop
  | load {sp al as} (k : Option Nat) (sync : Bool) (fin : Frame → List Byte → Writes) (late : j.late = true) (guarded : j.guarded = true)
      (run : ∀ h s, j.run h f s = loadLanes h f s k sp al sync as fin) : AccessRun j f sp .read al as
  | uload {sp al as} (k : Option Nat) (sync : Bool) (fin : Frame → List Byte → Writes) (late : j.late = true) (guarded : j.guarded = false)
      (run : ∀ h s, j.run h f s = (loadLanes h f s k sp al sync as fin).uniform f) : AccessRun j f sp .read al as
  | const (d : Dst) (a : Base) (o : Offset) (m : MemForm) (late : j.late = true) (guarded : j.guarded = true)
      (run : ∀ h s, j.run h f s = ldcRun d a o m h f s) :
      AccessRun j f (.glob false) .read (formAlign f.mode.t m) (globAccs f a o (formBytes f.mode.t m))
  | store {sp al as} (k : Option Nat) (sync : Bool) (bytes : Nat → List Byte) (late : j.late = false) (guarded : j.guarded = true)
      (run : ∀ h s, j.run h f s = storeLanes h f s k sp al sync as bytes) : AccessRun j f sp .write al as
  | ustore {sp al as} (k : Option Nat) (sync : Bool) (bytes : Nat → List Byte) (late : j.late = false) (guarded : j.guarded = false)
      (run : ∀ h s, j.run h f s = (storeLanes h f s k sp al sync as bytes).uniformStore h f) : AccessRun j f sp .write al as
  | atom {sp al as} (k : Option Nat) (sync : Bool) (g : AtomKind) (d : Option Dst) (late : j.late = d.isSome) (guarded : j.guarded = true)
      (run : ∀ h s, j.run h f s = atomLanes h f s k sp al sync g as (atomFin d)) : AccessRun j f sp .both al as

/-- An instruction whose accesses `accessOf` names issues through a job that makes them. -/
theorem accessRun_of {i : Instr} {jf : Frame → Job} {f : Frame} {sp : Space} {need : Need} {al : Nat} {as : List Acc}
    (hj : jobOf i = some jf) (ha : accessOf i f = some (sp, need, al, as)) :
    (∃ sw, ∀ s, exec i s = issueJob i sw jf s) ∧ AccessRun (jf f) f sp need al as := by
  unfold accessOf at ha
  dsimp only at ha
  split at ha <;> cases ha
  all_goals
    obtain rfl := Option.some.inj hj
    refine ⟨⟨_, fun _ => rfl⟩, ?_⟩
  · exact .load _ _ _ rfl rfl fun _ _ => rfl
  · exact .const _ _ _ _ rfl rfl fun _ _ => rfl
  · exact .load _ _ _ rfl rfl fun _ _ => rfl
  · exact .load _ _ _ rfl rfl fun _ _ => rfl
  · exact .store _ _ _ rfl rfl fun _ _ => rfl
  · exact .store _ _ _ rfl rfl fun _ _ => rfl
  · exact .store _ _ _ rfl rfl fun _ _ => rfl
  · exact .atom _ _ _ _ rfl rfl fun _ _ => rfl
  · exact .atom _ _ _ _ rfl rfl fun _ _ => rfl
  · exact .atom _ _ _ (some _) rfl rfl fun _ _ => rfl
  · exact .atom _ _ _ _ rfl rfl fun _ _ => rfl
  · exact .uload _ _ _ rfl rfl fun _ _ => rfl
  · exact .ustore _ _ _ rfl rfl fun _ _ => rfl

/-! ## The accesses of a quiet team -/

section
variable {s : State} {h : Here} {f : Frame}

/-- A team with nothing in flight orders its access behind nothing, but for a release at POD scope with writes to confirm (R185). -/
theorem inOrder_quiet (hflight : h.tm.inflight = []) (k : Option Nat) {release : Option Scope}
    (hr : release = some .pod → podRelease s h = none) (act : Act) : inOrder s h k release act = act := by
  have htags : streamTags h k release.isSome = [] := by simp [streamTags, hflight]
  rw [inOrder, htags]
  by_cases hp : release = some .pod
  · simp [hp, hr hp]
  · simp [hp]

theorem outerScope_pod {sp : Space} {as : List Acc} {sync : Bool} {sc : Scope} (h : outerScope sp as sync sc = some .pod) : sc = .pod := by
  unfold outerScope at h
  split at h
  · cases h
  · split at h
    · cases h
    · split at h
      · cases h
      · exact Option.some.inj h

theorem pickFault_nil : pickFault [] = none := rfl

/-- The bytes of an access are all known, or it waits for some. -/
theorem finish_done (s : State) (f : Frame) (fin : Frame → List Byte → Writes) (bytes : List PByte) (need : List Nat) (acc : List Touch) :
    ∃ w bs, finish s f fin bytes need acc = .done s w bs need acc ∧ (w = Writes.none ∨ ∃ x, w = fin f x) := by
  unfold finish
  cases knownBytes bytes with
  | none => exact ⟨_, _, rfl, .inl rfl⟩
  | some x => exact ⟨_, _, rfl, .inr ⟨x, rfl⟩⟩

/-- What an action does that ends without a fault or a wait: it leaves the teams but for what an access changes of them, and writes nothing
where it has no destination. -/
def Acts (s : State) (late : Bool) (act : Act) : Prop :=
  ∃ s1 w bytes need acc, act = .done s1 w bytes need acc ∧ TeamsKept s s1 ∧ (late = false → w = Writes.none)

theorem acts_finish {s s1 : State} (hk : TeamsKept s s1) {late : Bool} {fin : Frame → List Byte → Writes}
    (hfin : late = false → ∀ x, fin f x = Writes.none) (bytes : List PByte) (need : List Nat) (acc : List Touch) :
    Acts s late (finish s1 f fin bytes need acc) := by
  obtain ⟨w, bs, he, hw⟩ := finish_done s1 f fin bytes need acc
  refine ⟨s1, w, bs, need, acc, he, hk, fun hl => ?_⟩
  rcases hw with hw | ⟨x, hw⟩
  · exact hw
  · exact hw.trans (hfin hl x)

variable (hflight : h.tm.inflight = []) (k : Option Nat) (sp : Space) (al : Nat) (sync : Bool) (as : List Acc)
include hflight

theorem loadLanes_acts (hok : (placeAll s h sp .read al as).2.2 = []) (fin : Frame → List Byte → Writes) :
    Acts s true (loadLanes h f s k sp al sync as fin) := by
  rw [loadLanes, inOrder_quiet hflight _ (by simp)]
  dsimp only
  rw [hok, pickFault_nil]
  exact acts_finish (((TeamsKept.placeAll _ _ _ _ _ _).trans (.countBanks _ _ _)).trans (.loadPlaced _ _ _ _)) (by simp) _ _ _

theorem storeLanes_acts (hpod : f.mode.sc = .pod → podRelease s h = none) (hok : (placeAll s h sp .write al as).2.2 = [])
    (bytes : Nat → List Byte) : Acts s false (storeLanes h f s k sp al sync as bytes) := by
  rw [storeLanes, inOrder_quiet hflight _ fun hr => hpod (outerScope_pod hr)]
  dsimp only
  rw [hok, pickFault_nil]
  exact ⟨_, _, _, _, _, rfl, ((TeamsKept.placeAll _ _ _ _ _ _).trans (.countBanks _ _ _)).trans (.storePlaced _ _ _ _), fun _ => rfl⟩

theorem atomLanes_acts (hrel : outerScope sp as sync f.mode.sc = some .pod → podRelease s h = none) (hok : (placeAll s h sp .both al as).2.2 = [])
    (g : AtomKind) (d : Option Dst) : Acts s d.isSome (atomLanes h f s k sp al sync g as (atomFin d)) := by
  rw [atomLanes, inOrder_quiet hflight _ hrel]
  dsimp only
  rw [hok, pickFault_nil]
  have hclean (s : State) (b : Bool) (p : L1Line → Bool) : TeamsKept s (if b then writeBackWhere s h.core p else s) := by
    split
    · exact .writeBackWhere _ _ _
    · exact .refl s
  have hacquire (sc : Scope) (ls : List Nat) (s : State) : TeamsKept s (ls.foldl (fun s l => acquireOn s h sc l) s) :=
    .foldl (fun s l => .acquireOn s h sc l) _ _
  have hfin : d.isSome = false → ∀ x, atomFin d f x = Writes.none := fun hd x => by
    cases d with
    | none => rfl
    | some d => cases hd
  cases beyondCore sync f.mode.sc with
  | none =>
    refine acts_finish (TeamsKept.trans ?_ (.atomElems _ _ _ _ _ _)) hfin _ _ _
    refine TeamsKept.trans ?_ (.countBanks _ _ _)
    exact (TeamsKept.placeAll _ _ _ _ _ _).trans (hclean _ _ _)
  | some sc =>
    refine acts_finish (TeamsKept.trans ?_ (.noteImported _ _ _)) hfin _ _ _
    refine TeamsKept.trans ?_ (hacquire _ _ _)
    refine TeamsKept.trans ?_ (.atomElems _ _ _ _ _ _)
    refine TeamsKept.trans ?_ (hacquire _ _ _)
    refine TeamsKept.trans ?_ (.countBanks _ _ _)
    exact (TeamsKept.placeAll _ _ _ _ _ _).trans (hclean _ _ _)

omit hflight in
theorem ldcRun_acts (d : Dst) (a : Base) (o : Offset) (m : MemForm)
    (hok : (placeAll s h (.glob false) .read (formAlign f.mode.t m) (globAccs f a o (formBytes f.mode.t m))).2.2 = []) :
    Acts s true (ldcRun d a o m h f s) := by
  rw [ldcRun]
  dsimp only
  rw [hok, pickFault_nil]
  refine acts_finish (TeamsKept.trans ?_ (.noteImported _ _ _)) (by simp) _ _ _
  refine (TeamsKept.placeAll s h (.glob false) .read (formAlign f.mode.t m) (globAccs f a o (formBytes f.mode.t m))).trans (.of_eq ?_)
  rw [gather_teams]
  exact List.foldlRecOn (motive := fun (t : State) => t.teams = _) _ _ rfl fun _ ht _ _ => (constFill_teams _ _ _ _).trans ht

end

theorem authorsUniform_teams (h : Here) (f : Frame) (s : State) : (authorsUniform h f s).teams = s.teams := rfl

/-- Every access of a quiet team whose lanes take no fault acts. -/
theorem accessRun_acts {s : State} {h : Here} {j : Job} {f : Frame} {sp : Space} {need : Need} {al : Nat} {as : List Acc}
    (hrun : AccessRun j f sp need al as) (hflight : h.tm.inflight = []) (hpod : f.mode.sc = .pod → podRelease s h = none)
    (hok : (placeAll s h sp need al as).2.2 = []) : Acts s j.late (j.run h f s) := by
  cases hrun with
  | load k sync fin late guarded run => rw [run, late]; exact loadLanes_acts hflight _ _ _ _ _ hok _
  | uload k sync fin late guarded run =>
    obtain ⟨s1, w, bytes, need, acc, hdone, hk, hw⟩ := loadLanes_acts (f := f) hflight k sp al sync as hok fin
    rw [run, late, hdone]
    exact ⟨_, _, _, _, _, rfl, hk, hw⟩
  | const d a o m late guarded run => rw [run, late]; exact ldcRun_acts _ _ _ _ hok
  | store k sync bytes late guarded run => rw [run, late]; exact storeLanes_acts hflight _ _ _ _ _ hpod hok _
  | ustore k sync bytes late guarded run =>
    obtain ⟨s1, w, bs, need, acc, hdone, hk, hw⟩ := storeLanes_acts (f := f) hflight k sp al sync as hpod hok bytes
    rw [run, late, hdone]
    exact ⟨_, _, _, _, _, rfl, hk.trans (.of_eq (authorsUniform_teams _ _ _)), hw⟩
  | atom k sync g d late guarded run => rw [run, late]; exact atomLanes_acts hflight _ _ _ _ _ (fun hr => hpod (outerScope_pod hr)) hok _ _

/-! ## The access in flight (R155) -/

section
variable {i : Instr} {sw : Bool} {jf : Frame → Job} {s s1 : State} {h : Here}

/-- The team of an access that has acted, in a state that has changed of it what an access does. -/
theorem teamNow_kept (hi : issuing s = some h) (hk : TeamsKept s s1) : h.t < s1.teams.length ∧ TeamKept h.tm (teamNow s1 h) := by
  obtain ⟨tm, ht, htm, -⟩ := issuing_some hi
  obtain ⟨tm', ht', w, c, p, g, b, hkept⟩ := hk _ _ ht
  refine ⟨(List.getElem?_eq_some_iff.mp ht').1, w, c, p, g, b, ?_⟩
  rw [teamNow, ht', hkept, htm]
  rfl

theorem acted_kept (hq : Quiet s h) {tm : Team} (hk : TeamKept h.tm tm) : Acted i h tm := by
  obtain ⟨w, c, p, g, b, rfl⟩ := hk
  exact ⟨by constructor <;> trivial, hq.2.1, hq.2.2.2.1⟩

/-- What an access leaves of its team: it goes on, and the destinations of a variable-latency one wait for it. -/
def AccessLeft (i : Instr) (j : Job) (f : Frame) (h : Here) (tm : Team) : Prop :=
  GoesOn i h tm ∧ (j.late = true → ∃ a, tm.inflight = [a] ∧ a.id = h.tm.nextId ∧ a.instr = i ∧ a.dests = j.writeKeys f (j.lanesIn f)
    ∧ ∀ k ∈ a.dests, isClaimed tm.claims k = true)

/-- An access is in flight and its destinations wait for it. -/
theorem launch_access {tm : Team} (hteam : Acted i h tm) (a : InFlight) (lanes : RegKey → Mask) :
    ∃ tm', launch s1 { tm with nextId := tm.nextId + 1 } a lanes = (s1, tm') ∧ GoesOn i h { tm' with pc := after h i }
      ∧ tm'.inflight = [a] ∧ ∀ k ∈ a.dests, isClaimed tm'.claims k = true := by
  obtain ⟨hgo, hclaims, hflight⟩ := hteam
  refine ⟨_, launch_noClaims (by exact hclaims), { hgo with }, congrArg (· ++ [a]) hflight, fun k hk => ?_⟩
  exact List.any_eq_true.mpr ⟨_, List.mem_map_of_mem hk, by simp⟩

theorem settleWrites_access (hq : Quiet s h) {tm : Team} (hk : TeamKept h.tm tm) (j : Job) (f : Frame) {w : Writes} (bytes : List PByte)
    (need : List Nat) (hw : j.late = false → w = Writes.none) :
    ∃ tm', settleWrites i j h s1 tm f w bytes need none = (s1, tm') ∧ AccessLeft i j f h { tm' with pc := after h i } := by
  have hteam : Acted i h tm := acted_kept hq hk
  obtain ⟨wk, c, p, g, b, htm⟩ := hk
  have hid : tm.nextId = h.tm.nextId := by rw [htm]
  cases hlate : j.late with
  | true =>
    obtain ⟨tm', hlaunch, hgo, hflight, hclaims⟩ := launch_access (s1 := s1) hteam
      ⟨tm.nextId, i, f, j.stream, j.writeKeys f (j.lanesIn f), bytes, w, need, [], [], j.tile s1 h, none⟩ (j.lanesAt f (j.lanesIn f))
    exact ⟨tm', by rw [settleWrites, if_pos hlate]; exact hlaunch, hgo, fun _ => ⟨_, hflight, hid, rfl, rfl, hclaims⟩⟩
  | false =>
    have hflags : ∀ x : Team, x.flags ||| Writes.none.flags = x.flags := fun x => BitVec.or_zero
    have hnever {q : Prop} (l : j.late = true) : q := by rw [hlate] at l; cases l
    obtain rfl := hw hlate
    cases need with
    | nil => exact ⟨tm, by simp [settleWrites, hlate, writeNow_noClaims hteam.claims, hflags], hteam.goesOn, hnever⟩
    | cons n ns =>
      obtain ⟨tm', hlaunch, hgo, -⟩ := launch_access (s1 := s1) hteam
        ⟨tm.nextId, i, f, j.stream, [], bytes, Writes.none, n :: ns, [], [], none, none⟩ fun _ => 0
      have hwrite : writeNow s1 { tm with nextId := tm.nextId + 1 } Writes.none = (s1, { tm with nextId := tm.nextId + 1 }) := by
        simp [writeNow_noClaims (tm := { tm with nextId := tm.nextId + 1 }) hteam.claims, hflags]
      refine ⟨tm', ?_, hgo, hnever⟩
      rw [settleWrites, hlate, hwrite]
      exact hlaunch

theorem issueJob_access (hq : Quiet s h) (hw : NoWatch h) (hr : Ready jf h.frame)
    (hacts : Acts s (jf h.frame).late ((jf h.frame).run h h.frame s)) :
    ∃ t tm, issueJob i sw jf s = .next t ∧ t.teams[h.t]? = some tm ∧ AccessLeft i (jf h.frame) h.frame h tm := by
  obtain ⟨s1, w, bytes, need, acc, hrun, hk, hnone⟩ := hacts
  obtain ⟨hlt, hkept⟩ := teamNow_kept hq.1 hk
  obtain ⟨tm1, hsettle, hgo, hlate⟩ := settleWrites_access (i := i) (s1 := s1) hq hkept (jf h.frame) h.frame bytes need hnone
  have hexec := issueJob_done (i := i) (sw := sw) hq hw hr hrun
  rw [hsettle] at hexec
  obtain ⟨age, owed, hend⟩ := endAt_team s1 h sw (after h i) ((jf h.frame).passes h.frame) tm1 hlt
  refine ⟨_, _, hexec, hend, goesOn_marker _ { hgo with }, fun hl => ?_⟩
  obtain ⟨a, hflight, hid, hinstr, hdests, hclaims⟩ := hlate hl
  exact ⟨a, (inflight_marker _ _).trans hflight, hid, hinstr, hdests, fun k hkey => (isClaimed_marker _ _ _ _).trans (hclaims k hkey)⟩

end

/-- Settles O32: the action of each access ends without a fault or a wait, and what is in flight then claims its destinations. -/
theorem accessesIssue : Obligations.AccessesIssue := by
  unfold Obligations.AccessesIssue
  intro i jf sp need al as s h hj ha hq hw hr hpod hok
  obtain ⟨⟨sw, hexec⟩, hrun⟩ := accessRun_of hj ha
  obtain ⟨t, tm, hnext, ht, hgo, hlate⟩ := issueJob_access (i := i) (sw := sw) hq hw hr (accessRun_acts hrun hq.2.2.2.1 hpod hok)
  exact ⟨t, tm, (hexec s).trans hnext, ht, hgo, hlate⟩

/-! ## The fault of an access (R120, R121) -/

/-- A page of an access faults by its form or by its translation, below a misaligned address in rank. -/
theorem placePage_rank {s : State} {h : Here} {need : Need} {a : Acc} {va : W64} {x : LaneFault}
    (hx : (placePage s h need a va).2 = .error x) : 2 ≤ x.rank ∧ x.rank ≤ 4 := by
  unfold placePage at hx
  split at hx
  · cases hx; simp
  · dsimp only at hx
    split at hx <;> cases hx <;> simp

theorem placeSpad_rank {h : Here} {a : Acc} {pos off : Nat} {base : W64} {x : LaneFault} (hx : placeSpad h a pos off base = .error x) :
    2 ≤ x.rank ∧ x.rank ≤ 4 := by
  unfold placeSpad at hx
  split at hx
  · cases hx; simp
  · split at hx <;> cases hx
    simp

theorem worse_rank {x y : LaneFault} (hx : 2 ≤ x.rank ∧ x.rank ≤ 4) (hy : 2 ≤ y.rank ∧ y.rank ≤ 4) :
    2 ≤ (worse x y).rank ∧ (worse x y).rank ≤ 4 := by
  unfold worse
  split
  · exact hy
  · exact hx

theorem placeGlob_rank {s : State} {h : Here} {w : Bool} {need : Need} {a : Acc} {x : LaneFault}
    (hx : (placeGlob s h w need a).2 = .error x) : 2 ≤ x.rank ∧ x.rank ≤ 4 := by
  unfold placeGlob at hx
  split at hx
  · dsimp only at hx
    split at hx
    · exact placeSpad_rank hx
    · cases hx; simp
  · dsimp only at hx
    split at hx
    · dsimp only at hx
      split at hx <;> cases hx
      exact placePage_rank ‹_›
    · dsimp only at hx
      split at hx <;> cases hx
      · exact placePage_rank ‹_›
      · exact placePage_rank ‹_›
      · exact worse_rank (placePage_rank ‹_›) (placePage_rank ‹_›)

theorem placeOffset_rank {h : Here} {own : Bool} {a : Acc} {x : LaneFault} (hx : placeOffset h own a = .error x) :
    2 ≤ x.rank ∧ x.rank ≤ 4 := by
  unfold placeOffset at hx
  dsimp only at hx
  split at hx
  · cases hx; simp
  · exact placeSpad_rank hx

/-- The lane's fault is its misaligned address or ranks below (R121). -/
theorem placeAcc_fault (s : State) (h : Here) (sp : Space) (need : Need) (al : Nat) (a : Acc) :
    (a.va.toNat % al ≠ 0 → (placeAcc s h sp need al a).2 = .error ⟨1, a.lane, a.va⟩)
      ∧ (a.va.toNat % al = 0 → ∀ x, (placeAcc s h sp need al a).2 = .error x → 2 ≤ x.rank ∧ x.rank ≤ 4) := by
  unfold placeAcc
  dsimp only
  refine ⟨fun hal => by rw [if_pos (by simpa using hal)], fun hal x hx => ?_⟩
  rw [if_neg (by simpa using hal)] at hx
  dsimp only at hx
  split at hx <;> cases hx
  cases sp with
  | glob w => exact placeGlob_rank ‹_›
  | spad own => exact placeOffset_rank ‹_›

theorem placeAll_append_ok {s : State} {h : Here} {sp : Space} {need : Need} {al : Nat} {as : List Acc} {a : Acc} {p : Placed}
    (hp : (placeAcc (placeAll s h sp need al as).1 h sp need al a).2 = .ok p) :
    placeAll s h sp need al (as ++ [a]) = ((placeAcc (placeAll s h sp need al as).1 h sp need al a).1,
      (placeAll s h sp need al as).2.1 ++ [p], (placeAll s h sp need al as).2.2) := by
  unfold placeAll at hp ⊢
  rw [List.foldl_append, List.foldl_cons, List.foldl_nil]
  dsimp only
  rw [hp]

theorem placeAll_append_error {s : State} {h : Here} {sp : Space} {need : Need} {al : Nat} {as : List Acc} {a : Acc} {x : LaneFault}
    (hx : (placeAcc (placeAll s h sp need al as).1 h sp need al a).2 = .error x) :
    placeAll s h sp need al (as ++ [a]) = ((placeAcc (placeAll s h sp need al as).1 h sp need al a).1,
      (placeAll s h sp need al as).2.1, (placeAll s h sp need al as).2.2 ++ [x]) := by
  unfold placeAll at hx ⊢
  rw [List.foldl_append, List.foldl_cons, List.foldl_nil]
  dsimp only
  rw [hx]

/-- The faults of the lanes: one of rank 1 for each misaligned address, in lane order, and others that rank below. -/
theorem placeAll_faults (s : State) (h : Here) (sp : Space) (need : Need) (al : Nat) (as : List Acc) :
    ((placeAll s h sp need al as).2.2.filter fun x => x.rank = 1) = (as.filter fun a => a.va.toNat % al != 0).map (fun a => ⟨1, a.lane, a.va⟩)
      ∧ ∀ x ∈ (placeAll s h sp need al as).2.2, 1 ≤ x.rank ∧ x.rank ≤ 4 := by
  induction as using List.reverseRecOn with
  | nil => exact ⟨rfl, by simp [placeAll]⟩
  | append_singleton as a ih =>
    obtain ⟨hrank, hle⟩ := ih
    have hsnoc (x : LaneFault) (hx : 1 ≤ x.rank ∧ x.rank ≤ 4) :
        ∀ y ∈ (placeAll s h sp need al as).2.2 ++ [x], 1 ≤ y.rank ∧ y.rank ≤ 4 := fun y hy => by
      rcases List.mem_append.mp hy with hy | hy
      · exact hle y hy
      · rwa [List.mem_singleton.mp hy]
    obtain ⟨hmis, hal⟩ := placeAcc_fault (placeAll s h sp need al as).1 h sp need al a
    by_cases ha : a.va.toNat % al = 0
    · cases hr : (placeAcc (placeAll s h sp need al as).1 h sp need al a).2 with
      | ok p =>
        rw [placeAll_append_ok hr]
        exact ⟨by simp [hrank, ha], hle⟩
      | error x =>
        obtain ⟨h2, h4⟩ := hal ha x hr
        have hne : x.rank ≠ 1 := by omega
        rw [placeAll_append_error hr]
        exact ⟨by simp [hrank, ha, hne], hsnoc x (by omega)⟩
    · rw [placeAll_append_error (hmis ha)]
      exact ⟨by simp [hrank, ha], hsnoc _ (by simp)⟩

theorem foldl_min_le (l : List Nat) (n : Nat) : l.foldl min n ≤ n ∧ ∀ x ∈ l, l.foldl min n ≤ x := by
  induction l generalizing n with
  | nil => simp
  | cons y l ih =>
    obtain ⟨hn, hl⟩ := ih (min n y)
    refine ⟨by rw [List.foldl_cons]; omega, fun x hx => ?_⟩
    rcases List.mem_cons.mp hx with rfl | hx
    · rw [List.foldl_cons]; omega
    · exact hl x hx

theorem le_foldl_min {l : List Nat} {n m : Nat} (hn : m ≤ n) (hl : ∀ x ∈ l, m ≤ x) : m ≤ l.foldl min n :=
  List.foldlRecOn (motive := fun x => m ≤ x) l min hn fun x hx y hy => by have := hl y hy; omega

/-- A misaligned address is the fault of its access: it is raised for every lane with one (R121). -/
theorem pickFault_misaligned {s : State} {h : Here} {sp : Space} {need : Need} {al : Nat} {as : List Acc} {a : Acc} (ha : a ∈ as)
    (hmis : a.va.toNat % al ≠ 0) :
    ∃ addr, pickFault (placeAll s h sp need al as).2.2
      = some (0x04, maskOf ((as.filter fun a => a.va.toNat % al != 0).map (·.lane)), addr) := by
  obtain ⟨hrank, hle⟩ := placeAll_faults s h sp need al as
  generalize (placeAll s h sp need al as).2.2 = fs at hrank hle
  have hone : (⟨1, a.lane, a.va⟩ : LaneFault) ∈ fs.filter fun x => x.rank = 1 := by
    rw [hrank]
    exact List.mem_map.mpr ⟨a, List.mem_filter.mpr ⟨ha, by simpa using hmis⟩, rfl⟩
  have hmin : (fs.map (·.rank)).foldl min 9 = 1 := by
    refine Nat.le_antisymm ((foldl_min_le _ _).2 1 (List.mem_map.mpr ⟨_, (List.mem_filter.mp hone).1, rfl⟩)) (le_foldl_min (by decide) ?_)
    intro x hx
    obtain ⟨y, hy, rfl⟩ := List.mem_map.mp hx
    exact (hle y hy).1
  have hlanes : (fs.filter fun x => x.rank = 1).map (·.lane) = (as.filter fun a => a.va.toNat % al != 0).map (·.lane) := by
    rw [hrank, List.map_map]
    rfl
  unfold pickFault
  rw [hmin, ← hlanes]
  exact ⟨_, rfl⟩

/-- An access with a fault acts by raising it (R121); a uniform one reports the lane mask (R127). -/
theorem accessRun_fault {s : State} {h : Here} {j : Job} {f : Frame} {sp : Space} {need : Need} {al : Nat} {as : List Acc}
    {code : Byte} {lanes : Mask} {addr : W64} (hrun : AccessRun j f sp need al as) (hflight : h.tm.inflight = [])
    (hpod : f.mode.sc = .pod → podRelease s h = none) (hbad : pickFault (placeAll s h sp need al as).2.2 = some (code, lanes, addr)) :
    j.run h f s = .fault (placeAll s h sp need al as).1 (.plain code f.pc (if !j.guarded then f.mask else lanes) addr) := by
  have hload (k : Option Nat) (sync : Bool) (fin : Frame → List Byte → Writes) (hneed : need = .read) :
      loadLanes h f s k sp al sync as fin = .fault (placeAll s h sp need al as).1 (.plain code f.pc lanes addr) := by
    subst hneed
    rw [loadLanes, inOrder_quiet hflight _ (by simp)]
    dsimp only
    rw [hbad]
    rfl
  have hstore (k : Option Nat) (sync : Bool) (bytes : Nat → List Byte) (hneed : need = .write) :
      storeLanes h f s k sp al sync as bytes = .fault (placeAll s h sp need al as).1 (.plain code f.pc lanes addr) := by
    subst hneed
    rw [storeLanes, inOrder_quiet hflight _ fun hr => hpod (outerScope_pod hr)]
    dsimp only
    rw [hbad]
    rfl
  cases hrun with
  | load k sync fin late guarded run => rw [run, guarded]; exact hload _ _ _ rfl
  | uload k sync fin late guarded run => rw [run, guarded, hload _ _ _ rfl]; rfl
  | const d a o m late guarded run =>
    rw [run, guarded, ldcRun]
    dsimp only
    rw [hbad]
    rfl
  | store k sync bytes late guarded run => rw [run, guarded]; exact hstore _ _ _ rfl
  | ustore k sync bytes late guarded run => rw [run, guarded, hstore _ _ _ rfl]; rfl
  | atom k sync g d late guarded run =>
    rw [run, guarded, atomLanes, inOrder_quiet hflight _ fun hr => hpod (outerScope_pod hr)]
    dsimp only
    rw [hbad]
    rfl

/-- A ready instruction of a quiet team whose action faults takes the fault at its PC. -/
theorem issueJob_fault {i : Instr} {sw : Bool} {jf : Frame → Job} {s s1 : State} {h : Here} {x : FaultInfo} (hq : Quiet s h)
    (hr : Ready jf h.frame) (hrun : (jf h.frame).run h h.frame s = .fault s1 x) :
    issueJob i sw jf s = .next (takeFault s1 h (teamNow s1 h) x h.tm.pc) := by
  obtain ⟨hok, hspans, hcheck, hbad⟩ := hr
  rw [issueJob_quiet hq, hok, hspans, hcheck]
  simp [issueNow, hbad, hrun]

/-- Settles O33: the access of each instruction raises the fault that `pickFault` names, and a misaligned address ranks first. -/
theorem accessFaults : Obligations.AccessFaults := by
  unfold Obligations.AccessFaults
  intro i jf sp need al as s h hj ha hq hr hpod
  obtain ⟨⟨sw, hexec⟩, hrun⟩ := accessRun_of hj ha
  refine ⟨fun code lanes addr hbad => ?_, fun a ha hmis => pickFault_misaligned ha hmis⟩
  exact (hexec s).trans (issueJob_fault hq hr (accessRun_fault hrun hq.2.2.2.1 hpod hbad))

end Sys2Proof.Proofs.Accesses
end

section
/-! Certificates for the family spec/06_instructions_memory.md: the L1 caches of the cores, and cache control (R135, R136, R174, R175). -/
namespace Sys2Proof.Proofs.Caches
open Sys2Proof Sys2Proof.Machine Sys2Proof.Proofs.Scratchpads Sys2Proof.Proofs.WriteBacks Sys2Proof.Proofs.Accesses

/-! ## The cores -/

theorem wakeCore_cores (s : State) (core : Nat) (ls : List Nat) : (wakeCore s core ls).cores = s.cores := by
  unfold wakeCore
  split <;> rfl

theorem foldl_mscPut_cores (ls : List Nat) : ∀ s : State, (ls.foldl mscPut s).cores = s.cores := by
  induction ls with
  | nil => exact fun _ => rfl
  | cons l r ih => exact fun s => ih (mscPut s l)

theorem noteTails_cores (s : State) (ws : List (Nat × Byte)) : (noteTails s ws).cores = s.cores := by
  unfold noteTails
  split <;> rfl

theorem noteHeads_cores (s : State) (ws : List (Nat × Byte)) : (noteHeads s ws).cores = s.cores := by
  unfold noteHeads
  dsimp only
  split <;> rfl

/-- A write at home changes no core (R170). -/
theorem homeWrite_cores (s : State) (key : Nat) (ws : List (Nat × Byte)) : (homeWrite s key ws).cores = s.cores := by
  simp only [homeWrite, homeWriteFrom, noteHeads_cores, noteTails_cores, foldl_mscPut_cores]
  rfl

theorem dieWrite_cores (s : State) (o : ReqOwner) (core key line : Nat) (who : List (Nat × Author)) (sync : Bool) (ws : List (Nat × Byte)) :
    (dieWrite s o core key line who sync ws).1.cores = s.cores := by
  unfold dieWrite
  dsimp only
  exact List.foldlRecOn _ _ (motive := fun p : State × List Nat => p.1.cores = s.cores) rfl fun p hp r _ => hp

theorem forwardLine_cores (s : State) (core : Nat) (x : L1Line) (ws : List (Nat × Byte)) : (forwardLine s core x ws).cores = s.cores := by
  unfold forwardLine
  exact List.foldlRecOn _ _ (motive := fun t : State => t.cores = s.cores) rfl fun t ht k _ => (dieWrite_cores _ _ _ _ _ _ _ _).trans ht

theorem modCore_others (s : State) (f : Core → Core) {core k : Nat} (hk : k ≠ core) : (s.modCore core f).cores[k]? = s.cores[k]? := by
  rw [State.modCore_cores, getElem?_modAt, if_neg (Ne.symm hk)]

/-! ## The lines of a core's L1 -/

/-- The lines that a core's L1 holds. -/
def l1Of (s : State) (core : Nat) : List L1Line := ((s.cores[core]?).map Core.l1).getD []

theorem l1Of_some {s : State} {core : Nat} {c : Core} (hc : s.cores[core]? = some c) : l1Of s core = c.l1 := by
  rw [l1Of, hc]
  rfl

theorem l1Of_cores {s s' : State} (hc : s'.cores = s.cores) (core : Nat) : l1Of s' core = l1Of s core := by rw [l1Of, l1Of, hc]

/-- A line of a core whose L1 has changed. -/
theorem mem_l1Of_modCore {s : State} {core : Nat} {f : Core → Core} {x : L1Line} (hx : x ∈ l1Of (s.modCore core f) core) :
    ∃ c, s.cores[core]? = some c ∧ x ∈ (f c).l1 := by
  rw [l1Of, State.modCore_cores, getElem?_modAt, if_pos rfl] at hx
  cases hc : s.cores[core]? with
  | none => rw [hc] at hx; cases hx
  | some c => exact ⟨c, rfl, by rwa [hc] at hx⟩

/-! ## Write-backs (R170, R174) -/

theorem writeBackPart_others (s : State) (core : Nat) (x : L1Line) (p : Nat → Bool) {k : Nat} (hk : k ≠ core) :
    (writeBackPart s core x p).cores[k]? = s.cores[k]? := by
  unfold writeBackPart
  split
  · rfl
  · rw [modCore_others _ _ hk]
    split
    · rw [forwardLine_cores]
    · rw [homeWrite_cores]

theorem writeBackWhere_others (s : State) (core : Nat) (p : L1Line → Bool) {k : Nat} (hk : k ≠ core) :
    (writeBackWhere s core p).cores[k]? = s.cores[k]? := by
  unfold writeBackWhere
  split
  · exact List.foldlRecOn _ _ (motive := fun t : State => t.cores[k]? = s.cores[k]?) rfl fun t ht x _ =>
      (writeBackPart_others _ _ _ _ hk).trans ht
  · rfl

/-- A line of the core after the write-back of one line: it has no dirty byte, or it was there and is another line. -/
theorem mem_l1Of_writeBackLine {s : State} {core : Nat} {x y : L1Line} (hx : x ∈ l1Of (writeBackLine s core y) core) :
    x.dirty = [] ∨ x ∈ l1Of s core ∧ (y.dirty ≠ [] → x.line ≠ y.line) := by
  have hall : y.dirty.filter (fun _ => true) = y.dirty := List.filter_eq_self.mpr fun _ _ => rfl
  rw [writeBackLine, writeBackPart, hall] at hx
  split at hx
  · rename_i hnil
    exact .inr ⟨hx, fun h => absurd hnil h⟩
  · obtain ⟨c, hc, hmem⟩ := mem_l1Of_modCore hx
    have hs : s.cores[core]? = some c := by
      split at hc
      · rwa [forwardLine_cores] at hc
      · rwa [homeWrite_cores] at hc
    have hcleaned (z : L1Line) (hz : z.dirty = []) (hin : x ∈ (if z.useless then { c with l1 := c.l1.filter fun u => u.line != z.line }
        else l1Put c z).l1) : x.dirty = [] ∨ x ∈ c.l1 ∧ x.line ≠ z.line := by
      split at hin
      · exact .inr (by simpa using hin)
      · rcases List.mem_cons.mp hin with rfl | hin
        · exact .inl hz
        · exact .inr (by simpa using hin)
    refine (hcleaned (y.cleaned _ _) (List.filter_eq_nil_iff.mpr fun _ _ => by simp) hmem).imp_right fun ⟨hxc, hne⟩ => ⟨?_, fun _ => hne⟩
    exact l1Of_some hs ▸ hxc

/-- After the lines that a condition picks have been written back, none of them has a dirty byte. -/
theorem writeBackWhere_clean (s : State) (core : Nat) (p : L1Line → Bool) {x : L1Line} (hx : x ∈ l1Of (writeBackWhere s core p) core)
    (hp : p x = true) : x.dirty = [] := by
  have hfold (ls : List L1Line) : ∀ t : State, (∀ z ∈ l1Of t core, p z = true → z.dirty = [] ∨ z ∈ ls) →
      ∀ z ∈ l1Of (ls.foldl (fun s y => writeBackLine s core y) t) core, p z = true → z.dirty = [] := by
    induction ls with
    | nil => exact fun t ht z hz hpz => (ht z hz hpz).resolve_right List.not_mem_nil
    | cons y ls ih =>
      refine fun t ht => ih _ fun z hz hpz => ?_
      rcases mem_l1Of_writeBackLine hz with hd | ⟨hzt, hline⟩
      · exact .inl hd
      · rcases ht z hzt hpz with hd | hmem
        · exact .inl hd
        · rcases List.mem_cons.mp hmem with rfl | hmem
          · exact .inl (Classical.byContradiction fun hd => hline hd rfl)
          · exact .inr hmem
  unfold writeBackWhere at hx
  split at hx
  · rename_i c hc
    refine hfold _ s (fun z hz hpz => ?_) x hx hp
    rw [l1Of_some hc] at hz
    by_cases hd : z.dirty = []
    · exact .inl hd
    · exact .inr ((mem_sortBy _ _ _).mpr (List.mem_filter.mpr ⟨hz, by simp [hpz, hd]⟩))
  · rename_i hc
    rw [l1Of, hc] at hx
    cases hx

/-! ## Discarding clean bytes (R175) -/

/-- A line without its clean bytes where a condition picks it. -/
def withoutClean (p : L1Line → Bool) (x : L1Line) : L1Line := if p x then { x with clean := none } else x

theorem dropClean_others (s : State) (core : Nat) (p : L1Line → Bool) {k : Nat} (hk : k ≠ core) :
    (dropClean s core p).cores[k]? = s.cores[k]? := by
  unfold dropClean
  split
  · rw [wakeCore_cores, modCore_others _ _ hk]
  · rfl

theorem l1Of_dropClean (s : State) (core : Nat) (p : L1Line → Bool) :
    l1Of (dropClean s core p) core = ((l1Of s core).map (withoutClean p)).filter fun x => !x.useless := by
  unfold dropClean
  split
  · rename_i c hc
    rw [l1Of_cores (wakeCore_cores _ _ _), l1Of, State.modCore_cores, getElem?_modAt, if_pos rfl, hc, l1Of_some hc]
    rfl
  · rename_i hc
    rw [l1Of, hc]
    rfl

/-- A line left by the discarding of the clean bytes that a condition picks. -/
theorem mem_l1Of_dropClean {s : State} {core : Nat} {p : L1Line → Bool} {x : L1Line} :
    x ∈ l1Of (dropClean s core p) core ↔ (∃ y ∈ l1Of s core, withoutClean p y = x) ∧ x.useless = false := by
  rw [l1Of_dropClean, List.mem_filter, List.mem_map, Bool.not_eq_true']

theorem withoutClean_fields (p : L1Line → Bool) (x : L1Line) :
    (withoutClean p x).line = x.line ∧ (withoutClean p x).asid = x.asid ∧ (withoutClean p x).priv = x.priv
      ∧ (withoutClean p x).dirty = x.dirty := by
  unfold withoutClean
  split <;> exact ⟨rfl, rfl, rfl, rfl⟩

/-- A core that self-invalidates holds no clean byte of the ASID on a page with P = 0. -/
theorem selfInvalidate_clean {s : State} {core asid : Nat} {x : L1Line} (hx : x ∈ l1Of (selfInvalidate s core asid) core)
    (ha : x.asid = asid) (hp : x.priv = false) : x.clean = none := by
  obtain ⟨⟨y, -, rfl⟩, -⟩ := mem_l1Of_dropClean.mp hx
  obtain ⟨-, hasid, hpriv, -⟩ := withoutClean_fields (fun x : L1Line => x.asid == asid && !x.priv) y
  have hpick : (y.asid == asid && !y.priv) = true := by rw [← hasid, ← hpriv, ha, hp]; simp
  rw [withoutClean, if_pos hpick]

/-- Self-invalidation keeps the dirty bytes. -/
theorem selfInvalidate_dirty {s : State} {core asid : Nat} {x : L1Line} (hx : x ∈ l1Of s core) (hd : x.dirty ≠ []) :
    ∃ y ∈ l1Of (selfInvalidate s core asid) core, y.line = x.line ∧ y.asid = x.asid ∧ y.dirty = x.dirty := by
  obtain ⟨hline, hasid, -, hdirty⟩ := withoutClean_fields (fun x : L1Line => x.asid == asid && !x.priv) x
  refine ⟨_, mem_l1Of_dropClean.mpr ⟨⟨x, hx, rfl⟩, ?_⟩, hline, hasid, hdirty⟩
  rw [L1Line.useless, hdirty, List.isEmpty_eq_false_iff.mpr hd, Bool.and_false]

/-! ## An instruction that acts on the caches and goes on -/

/-- A fixed-latency instruction of a quiet team that writes no register goes on, and nothing else changes but what its action has. -/
theorem issueJob_stood {i : Instr} {sw : Bool} {jf : Frame → Job} {s s1 : State} {h : Here} {acc : List Touch} (hq : Quiet s h) (hw : NoWatch h)
    (hr : Ready jf h.frame) (hlate : (jf h.frame).late = false) (hk : TeamsKept s s1)
    (hrun : (jf h.frame).run h h.frame s = .done s1 Writes.none [] [] acc) :
    ∃ t tm, issueJob i sw jf s = .next t ∧ t.teams[h.t]? = some tm ∧ GoesOn i h tm ∧ tm.inflight = []
      ∧ Outside h.t s1 t ∧ t.mem = s1.mem := by
  obtain ⟨hlt, hkept⟩ := teamNow_kept hq.1 hk
  obtain ⟨hgo, hclaims, hflight⟩ := acted_kept (i := i) hq hkept
  obtain ⟨tm, ht, hg, hin⟩ := endAt_goesOn (sw := sw) hlt (after h i) ((jf h.frame).passes h.frame) hgo
  refine ⟨_, tm, issueJob_done hq hw hr hrun, ?_⟩
  rw [settleWrites_stored hlate hclaims]
  exact ⟨ht, hg, hin.trans hflight, endAt_outside _ _ _ _ _ _, rfl⟩

/-- The lines of a core's L1 are those of the state that an instruction's action has left. -/
theorem l1Of_outside {t : Nat} {s s' : State} (ho : Outside t s s') (core : Nat) : l1Of s' core = l1Of s core := by
  rw [l1Of, l1Of, (ho.caches core).1]

theorem Outside.mem_l1Of {t : Nat} {s s' : State} (ho : Outside t s s') {core : Nat} {c : Core} {x : L1Line}
    (hc : s'.cores[core]? = some c) (hx : x ∈ c.l1) : x ∈ l1Of s core := by
  rw [← l1Of_outside ho core, l1Of_some hc]
  exact hx

/-! ### PREF (R135) -/

theorem prefLane_teams (h : Here) (lvl : PrefLevel) (s : State) (a : Acc) : TeamsKept s (prefLane h lvl s a) := by
  have hplace : TeamsKept s (placeGlob s h false .read a).1 := .of_wakes (HomeFrame.placeGlob _ _ _ _ _).teams
  have hask (s : State) (x : Xlat) (va : W64) : (prefAsk s h lvl x va).teams = s.teams := by
    unfold prefAsk
    dsimp only
    split <;> rfl
  unfold prefLane
  dsimp only
  split
  · refine hplace.trans (.of_eq ?_)
    split
    · rw [hask]
      split
      · exact fillLine_teams _ _ _ _ _
      · rfl
    · split
      · rfl
      · split
        · split
          · exact fillLine_teams _ _ _ _ _
          · exact fillLine_teams _ _ _ _ _
        · rfl
  · exact hplace
  · exact .refl s

/-- An address that fails R118 is dropped. -/
theorem prefLane_bad {h : Here} {lvl : PrefLevel} {s : State} {l : Nat} {va : W64} (hva : ordinary va = false) :
    prefLane h lvl s ⟨l, va, 1⟩ = s := by
  have hfirst : firstPart ⟨l, va, 1⟩ = 1 := by
    show min 1 (65536 - va.toNat % 65536) = 1
    omega
  have hplace : ∃ e, (placeGlob s h false .read ⟨l, va, 1⟩).2 = .error e := by
    unfold placeGlob
    split
    · exact ⟨_, rfl⟩
    · simp [placePage, hva, hfirst]
  obtain ⟨e, he⟩ := hplace
  rw [prefLane, he]

/-! ### CLEAN and INVAL (R136) -/

theorem cleanAddrs_frame (s : State) (h : Here) (as : List Acc) :
    HomeFrame s (cleanAddrs s h as).1 ∧ (MemoryOk s → MemoryOk (cleanAddrs s h as).1) := by
  have hone (s : State) (va : W64) : HomeFrame s (cleanAddr s h va).1 ∧ Keeps s (cleanAddr s h va).1 := by
    unfold cleanAddr
    split
    · exact ⟨.refl s, .refl s⟩
    · exact ⟨.walkClear _ _ _ _, .walkClear _ _ _ _⟩
  exact ⟨.foldl_fst (fun p a => by dsimp only; exact (hone p.1 a.va).1) as (s, []),
    (Keeps.foldl_fst (fun p a => by dsimp only; exact (hone p.1 a.va).2) as (s, [])).memory⟩

/-- What `clean` and `inval` do once nothing of their extents is still to be acknowledged. -/
theorem cleanRun_acts {s : State} {h : Here} {f : Frame} {drop : Bool} {a : Base} {o : Offset} {e : Extent} (hres : h.tm.residues = [])
    (hclear : let r := cleanAddrs s h (globAccs f a o 1)
      let hit := fun line => r.2.any fun pa => inExtent e pa line
      extentTags (writeBackWhere r.1 h.core fun x => hit x.line) h hit = []) :
    cleanRun drop a o e h f s =
      let r := cleanAddrs s h (globAccs f a o 1)
      let hit := fun line => r.2.any fun pa => inExtent e pa line
      let s1 := writeBackWhere r.1 h.core fun x => hit x.line
      .done (if drop then dropClean s1 h.core fun x => hit x.line else s1) Writes.none [] [] [] := by
  rw [cleanRun, hres]
  dsimp only at hclear ⊢
  rw [hclear]
  rfl

/-- The lines of an extent that `inval` leaves: none, where none has a dirty byte. -/
theorem dropClean_gone {s : State} {core : Nat} {p : Nat → Bool} {x : L1Line}
    (hclean : ∀ y ∈ l1Of s core, p y.line = true → y.dirty = []) (hx : x ∈ l1Of (dropClean s core fun x => p x.line) core) :
    p x.line = false := by
  obtain ⟨⟨y, hy, rfl⟩, huse⟩ := mem_l1Of_dropClean.mp hx
  obtain ⟨hline, -, -, hdirty⟩ := withoutClean_fields (fun x : L1Line => p x.line) y
  rw [hline]
  by_contra hp
  have hpy : p y.line = true := by simpa using hp
  rw [L1Line.useless, hdirty, hclean y hy hpy, withoutClean, if_pos hpy] at huse
  cases huse

/-- Settles O40: `clean` and `inval` write the lines of their extents back and discard their copies, and a clearing and a
self-invalidation leave the lines of an ASID as R174 and R175 say. -/
theorem cacheControl : Obligations.CacheControl := by
  unfold Obligations.CacheControl
  refine ⟨fun sw a o s h hq hw hok => ?_, fun s core asid hok => ⟨⟨?_, ?_, ?_⟩, ?_, ?_, ?_, ?_⟩⟩
  · intro f goes r hit clear home
    obtain ⟨hframe, hokr⟩ := cleanAddrs_frame s h (globAccs f a o 1)
    have hback (e : Extent) : TeamsKept s (writeBackWhere r.1 h.core fun x => hit e x.line) :=
      (TeamsKept.of_wakes hframe.teams).trans (.writeBackWhere _ _ _)
    have hdirty (e : Extent) (x : L1Line) (hx : x ∈ l1Of (writeBackWhere r.1 h.core fun x => hit e x.line) h.core)
        (hhit : hit e x.line = true) : x.dirty = [] := writeBackWhere_clean r.1 h.core (fun x => hit e x.line) hx hhit
    have hhome (e : Extent) {t s1 : State} (ho : Outside h.t s1 t)
        (hs1 : s1.mem = (writeBackWhere r.1 h.core fun x => hit e x.line).mem) : home e t := fun hone hp p => by
      rw [ho.memory p, hs1]
      exact writeBackWhere_reached h.core (fun x => hit e x.line) (hokr hok) hone hp p
    refine ⟨fun str lvl hr => ?_, fun e hr hclear => ?_, fun e hr hclear => ?_⟩
    · have hk : TeamsKept s ((globAccs f a o 1).foldl (prefLane h lvl) s) := .foldl (prefLane_teams h lvl) _ _
      obtain ⟨t, tm, hexec, ht, hgo, -, ho, hmem⟩ := issueJob_stood (i := .pref sw a o str lvl) (sw := sw) hq hw hr rfl hk rfl
      refine ⟨t, ⟨hexec, tm, ht, hgo⟩, fun hbad => ?_⟩
      have hsame : (globAccs f a o 1).foldl (prefLane h lvl) s = s := by
        rw [globAccs, List.foldl_map]
        exact List.foldlRecOn (motive := fun t => t = s) _ _ rfl fun u hu l hl => by rw [hu]; exact prefLane_bad (hbad l hl)
      rw [hsame] at ho hmem
      exact ⟨hmem, ho.tlbs⟩
    · obtain ⟨t, tm, hexec, ht, hgo, -, ho, -⟩ := issueJob_stood (i := .clean sw a o e) (sw := sw) hq hw hr rfl (hback e)
        (cleanRun_acts (drop := false) hq.2.2.1 hclear)
      exact ⟨t, ⟨hexec, tm, ht, hgo⟩, hhome e ho rfl, fun c x hc hx hhit => hdirty e x (Outside.mem_l1Of ho hc hx) hhit⟩
    · obtain ⟨t, tm, hexec, ht, hgo, -, ho, -⟩ := issueJob_stood (i := .inval sw a o e) (sw := sw) hq hw hr rfl
        ((hback e).trans (.dropClean _ _ _)) (cleanRun_acts (drop := true) hq.2.2.1 hclear)
      exact ⟨t, ⟨hexec, tm, ht, hgo⟩, hhome e ho (dropClean_mem _ _ _), fun c x hc hx =>
        dropClean_gone (hdirty e) (Outside.mem_l1Of ho hc hx)⟩
  · exact fun c x hc hx ha => writeBackWhere_clean s core (fun x => x.asid == asid) (l1Of_some hc ▸ hx) (by simpa using ha)
  · exact fun k hk => writeBackWhere_others _ _ _ hk
  · exact fun hone hp => writeBackWhere_reached core _ hok hone hp
  · exact dropClean_mem _ _ _
  · exact fun k hk => dropClean_others _ _ _ hk
  · exact fun c x hc hx => selfInvalidate_clean (l1Of_some hc ▸ hx)
  · intro c c' x hc hc' hx hd
    obtain ⟨y, hy, hsame⟩ := selfInvalidate_dirty (asid := asid) (l1Of_some hc ▸ hx) hd
    exact ⟨y, l1Of_some hc' ▸ hy, hsame⟩

end Sys2Proof.Proofs.Caches
end

section
/-! Certificates for the family spec/06_instructions_memory.md: fences and monitors (R132 to R134, R186). -/
namespace Sys2Proof.Proofs.Fences
open Sys2Proof Sys2Proof.Machine Sys2Proof.Proofs.Scratchpads Sys2Proof.Proofs.WriteBacks Sys2Proof.Proofs.Accesses Sys2Proof.Proofs.Caches
  Sys2Proof.Proofs.ControlFlow Sys2Proof.Proofs.Queues

/-! ## The POD acquire of a page (R185, R186) -/

theorem dropClean_dieCopies (s : State) (core : Nat) (p : L1Line → Bool) : (dropClean s core p).dieCopies = s.dieCopies := by
  have hwake (s : State) (ls : List Nat) : (wakeCore s core ls).dieCopies = s.dieCopies := by
    unfold wakeCore
    split <;> rfl
  unfold dropClean
  split
  · exact hwake _ _
  · rfl

/-- A die holds no clean copy of a line of the page. -/
def PageGone (s : State) (die page : Nat) : Prop := ∀ y ∈ s.dieCopies, y.die = die → y.line / 512 = page → y.full = none
/-- A core holds no clean byte of the ASID on a page with P = 0. -/
def SelfInvalidated (s : State) (core asid : Nat) : Prop := ∀ x ∈ l1Of s core, x.asid = asid → x.priv = false → x.clean = none

section
variable (s : State) (core asid page : Nat)

theorem acquirePage_mem : (acquirePage s core asid page).mem = s.mem := dropClean_mem _ _ _

theorem acquirePage_teams : TeamsKept s (acquirePage s core asid page) :=
  (TeamsKept.of_eq (s' := dieDrop _ _ _) rfl).trans (.dropClean _ _ _)

theorem acquirePage_invalidated : SelfInvalidated (acquirePage s core asid page) core asid := fun _ hx => selfInvalidate_clean hx

/-- A copy that the die holds after the acquire of a page. -/
theorem mem_acquirePage {y : DieCopy} (hy : y ∈ (acquirePage s core asid page).dieCopies) :
    ∃ c ∈ s.dieCopies, y = if c.die = dieOf core && c.line / 512 == page then { c with full := none } else c := by
  rw [acquirePage, selfInvalidate, dropClean_dieCopies] at hy
  obtain ⟨c, hc, rfl⟩ := List.mem_map.mp (List.mem_filter.mp hy).1
  exact ⟨c, hc, rfl⟩

theorem acquirePage_gone : PageGone (acquirePage s core asid page) (dieOf core) page := fun y hy hdie hline => by
  obtain ⟨c, -, rfl⟩ := mem_acquirePage s core asid page hy
  split at hdie
  · rw [if_pos ‹_›]
  · rename_i hno
    rw [if_neg hno] at hline
    exact absurd (by simp [hdie, hline]) hno

variable {s page}

theorem acquirePage_keeps {q : Nat} (hq : PageGone s (dieOf core) q) : PageGone (acquirePage s core asid page) (dieOf core) q :=
  fun y hy hdie hline => by
    obtain ⟨c, hc, rfl⟩ := mem_acquirePage s core asid page hy
    split at hdie
    · rw [if_pos ‹_›]
    · rename_i hno
      rw [if_neg hno] at hline ⊢
      exact hq c hc hdie hline

end

/-- The acquire of every page of a list. -/
theorem foldl_acquirePage (core asid : Nat) (ps : List Nat) (s : State) :
    let t := ps.foldl (fun s p => acquirePage s core asid p) s
    t.mem = s.mem ∧ TeamsKept s t ∧ ∀ p ∈ ps, PageGone t (dieOf core) p ∧ SelfInvalidated t core asid := by
  induction ps using List.reverseRecOn with
  | nil => exact ⟨rfl, .refl s, fun _ hp => absurd hp List.not_mem_nil⟩
  | append_singleton ps q ih =>
    obtain ⟨hmem, hteams, hgone⟩ := ih
    simp only [List.foldl_append, List.foldl_cons, List.foldl_nil]
    refine ⟨(acquirePage_mem _ _ _ _).trans hmem, hteams.trans (acquirePage_teams _ _ _ _), fun p hp => ⟨?_, acquirePage_invalidated _ _ _ _⟩⟩
    rcases List.mem_append.mp hp with hp | hp
    · exact acquirePage_keeps core asid (hgone p hp).1
    · rw [List.mem_singleton.mp hp]
      exact acquirePage_gone _ _ _ _

/-! ## FENCE, MONITOR and MWAIT -/

section
variable {s : State} {h : Here} (hq : Quiet s h) (sw : Bool)
include hq

/-- A fence of a team with no deferred access and none in flight. -/
theorem execFence_quiet (mask : BitVec 16) (sc : Scope) (k : FenceKind) :
    exec (.fence sw mask sc k) s =
      if k = .sc && sc = .pod then
        if !(openTags s h.tm.podTags).isEmpty then .next (park s h h.tm (.fabric (openTags s h.tm.podTags)))
        else .next (endAt (podFence s h) h sw (nextPc h.tm.pc 0) onePass (teamNow (podFence s h) h))
      else goTo sw s h (nextPc h.tm.pc 0) := by
  obtain ⟨hi, -, hres, hflight, -⟩ := hq
  show execFence sw mask sc k s = _
  rw [execFence, onTeam_issuing hi, hres, hflight]
  rfl

/-- What `podFence` leaves of its team: it has nothing of imported pages to acquire. -/
theorem teamNow_podFence : h.t < (podFence s h).teams.length
    ∧ ∃ tm, teamNow (podFence s h) h = { tm with podPages := [], podTags := [] } ∧ TeamKept h.tm tm := by
  obtain ⟨tm, ht, htm, -⟩ := issuing_some hq.1
  obtain ⟨-, hteams, -⟩ := foldl_acquirePage h.core h.asid h.tm.podPages s
  obtain ⟨tm', ht', hkept⟩ := hteams _ _ ht
  have hat : (podFence s h).teams[h.t]? = some { tm' with podPages := [], podTags := [] } := by
    show (State.modTeam _ _ _).teams[h.t]? = _
    rw [State.modTeam_teams, getElem?_modAt, if_pos rfl, ht']
    rfl
  refine ⟨(List.getElem?_eq_some_iff.mp hat).1, { tm' with status := .running, before := none }, ?_, ?_⟩
  · rw [teamNow, hat]
    rfl
  · obtain ⟨w, c, p, g, b, rfl⟩ := hkept
    exact ⟨w, c, p, g, b, by rw [htm]⟩

/-- A `fence.sc.pod` whose imported writes are confirmed (R132, R186). -/
theorem podFence_acquires (mask : BitVec 16) (hopen : openTags s h.tm.podTags = []) :
    ∃ t tm, exec (.fence sw mask .pod .sc) s = .next t ∧ t.teams[h.t]? = some tm
      ∧ tm.pc = h.tm.pc + 4 ∧ tm.regs = h.tm.regs ∧ tm.podPages = [] ∧ tm.podTags = [] ∧ t.mem = s.mem
      ∧ ∀ p ∈ h.tm.podPages, PageGone t (dieOf h.core) p ∧ SelfInvalidated t h.core h.asid := by
  obtain ⟨hlt, tm, hnow, w, c, p, g, b, rfl⟩ := teamNow_podFence hq
  obtain ⟨hmem, -, hgone⟩ := foldl_acquirePage h.core h.asid h.tm.podPages s
  have hclaims : (teamNow (podFence s h) h).claims = [] := by rw [hnow]; exact hq.2.1
  obtain ⟨age, owed, hend⟩ := endAt_noClaims hlt sw (nextPc h.tm.pc 0) onePass hclaims
  have hout := endAt_outside (podFence s h) h sw (nextPc h.tm.pc 0) onePass (teamNow (podFence s h) h)
  refine ⟨_, _, ?_, hend, rfl, by rw [hnow], by rw [hnow], by rw [hnow], hmem, fun p hp => ?_⟩
  · rw [execFence_quiet hq, hopen]
    rfl
  · obtain ⟨hpage, hself⟩ := hgone p hp
    refine ⟨fun y hy => hpage y (hout.copies ▸ hy), fun x hx => hself x ?_⟩
    rw [l1Of_outside hout] at hx
    exact hx

/-- A monitored line whose page does not translate (R118, R133). -/
theorem execMonitor_error {a : SReg} {o : Offset} {va : W64} {s1 : State} {e : LaneFault} (hva : h.frame.regs.uget a.val + offVal o = va)
    (hx : placePage s h .read ⟨0, va, 1⟩ va = (s1, .error e)) :
    exec (.monitor sw a o) s = raise s1 h (rankCode e.rank) h.tm.active va := by
  show execMonitor sw a o s = _
  rw [execMonitor, onTeam_issuing hq.1, reading_noClaims hq.2.1]
  dsimp only
  rw [hva, hx]

theorem execMonitor_ok {a : SReg} {o : Offset} {va : W64} {s1 : State} {x : Xlat} (hva : h.frame.regs.uget a.val + offVal o = va)
    (hx : placePage s h .read ⟨0, va, 1⟩ va = (s1, .ok x)) :
    exec (.monitor sw a o) s = .next (endAt s1 h sw (nextPc h.tm.pc (Machine.offLits o)) onePass
      { h.tm with monitor := some (lineOf x.pa), wake := false }) := by
  show execMonitor sw a o s = _
  rw [execMonitor, onTeam_issuing hq.1, reading_noClaims hq.2.1]
  dsimp only
  rw [hva, hx]

theorem execMwait_quiet : exec (.mwait sw) s =
    if h.tm.wake || h.tm.monitor.isNone then
      .next (endAt s h sw (nextPc h.tm.pc 0) onePass { h.tm with monitor := none, wake := false })
    else .next (block s h h.tm .monitor) := by
  show execMwait sw s = _
  rw [execMwait, onTeam_issuing hq.1, whenDrained_noClaims hq.2.1 hq.2.2.1]

end

/-- Settles O39: the POD acquire of each page lasts over those that follow, and a monitor stands or falls with its line's translation. -/
theorem fencesAndMonitors : Obligations.FencesAndMonitors := by
  unfold Obligations.FencesAndMonitors
  intro sw s h hq
  refine ⟨fun mask sc k hk => did_goTo hq.1 ?_, fun mask hopen => ?_, fun a o => ⟨fun hva => ?_, fun s1 e hva hx => ?_, fun s1 x hva hx => ?_⟩,
    fun hwake => did1 hq.1 ?_ rfl, fun hwake hmon => ?_⟩
  · rw [execFence_quiet hq, if_neg (by simpa using hk)]
    rfl
  · obtain ⟨t, tm, hexec, ht, hpc, hregs, hpages, htags, hmem, hgone⟩ := podFence_acquires hq sw mask hopen
    exact ⟨t, tm, hexec, ht, hpc, hregs, hpages, htags, hmem, fun p hp =>
      ⟨(hgone p hp).1, fun c x hc hx => (hgone p hp).2 x (l1Of_some hc ▸ hx)⟩⟩
  · exact execMonitor_error hq sw rfl (e := ⟨2, 0, _⟩) (by rw [placePage, hva]; rfl)
  · cases e with
    | prot => exact execMonitor_error hq sw rfl (e := ⟨3, 0, _⟩) (by rw [placePage, hva, hx]; rfl)
    | page => exact execMonitor_error hq sw rfl (e := ⟨4, 0, _⟩) (by rw [placePage, hva, hx]; rfl)
  · have hlt : h.t < s1.teams.length := by
      have hframe := HomeFrame.xlateFor s h.core h.asid h.cx.ptroot.toNat (h.tm.regs.uget a.val + offVal o) .read
      rw [hx] at hframe
      exact (teamNow_kept hq.1 (.of_wakes hframe.teams)).1
    obtain ⟨age, owed, hend⟩ := endAt_noClaims (h := h) hlt sw (nextPc h.tm.pc (Machine.offLits o)) onePass
      (tm := { h.tm with monitor := some (lineOf x.pa), wake := false }) hq.2.1
    have hplace : placePage s h .read ⟨0, h.tm.regs.uget a.val + offVal o, 1⟩ (h.tm.regs.uget a.val + offVal o) = (s1, .ok x) := by
      rw [placePage, hva, hx]
      rfl
    refine ⟨_, _, execMonitor_ok hq sw rfl hplace, hend, rfl, rfl, nextPc_after ?_, rfl, rfl⟩
    cases o <;> rfl
  · rw [execMwait_quiet hq, if_pos (by simpa using hwake)]
    rfl
  · rw [execMwait_quiet hq, if_neg (by simp [hwake, hmon])]
    rfl

end Sys2Proof.Proofs.Fences
end

section
/-! Certificates for the family spec/06_instructions_memory.md: what a core finds in its L1 and at home (R170), and loads from memory
(R122, R123, R125, R127, R173). -/
namespace Sys2Proof.Proofs.Caches
open Sys2Proof Sys2Proof.Machine Sys2Proof.Proofs.Scratchpads Sys2Proof.Proofs.WriteBacks Sys2Proof.Proofs.Accesses

/-! ## The line that a core finds -/

/-- The line that a core's L1 holds, as its accesses find it. -/
def lineOn (s : State) (core line : Nat) : Option L1Line := (l1Of s core).find? fun x => x.line = line

theorem lineOn_def (s : State) (core line : Nat) : ((s.cores[core]?).bind fun c => l1Find c line) = lineOn s core line := by
  unfold lineOn l1Of
  cases s.cores[core]? <;> rfl

theorem lineOn_line {s : State} {core line : Nat} {x : L1Line} (hx : lineOn s core line = some x) : x.line = line := by
  simpa using List.find?_some hx

theorem lineOn_mem {s : State} {core line : Nat} {x : L1Line} (hx : lineOn s core line = some x) : x ∈ l1Of s core :=
  List.mem_of_find?_eq_some hx

/-- A byte that a line holds, dirty or clean. -/
def lineByte (x : L1Line) (o : Nat) : Option Byte :=
  match dirtyAt x.dirty o with
  | some b => some b
  | none => x.clean.map fun d => sget d o

theorem lineByte_dirty {x : L1Line} {o : Nat} {b : Byte} (hb : dirtyAt x.dirty o = some b) : lineByte x o = some b := by rw [lineByte, hb]
theorem lineByte_clean {x : L1Line} {o : Nat} (hb : dirtyAt x.dirty o = none) : lineByte x o = x.clean.map fun d => sget d o := by
  rw [lineByte, hb]

theorem l1Byte_eq (s : State) (core line o : Nat) : l1Byte s core line o = (lineOn s core line).bind fun x => lineByte x o := by
  rw [l1Byte, lineOn_def]
  rfl

/-- The byte that a core finds at a local address of a cacheable page, from its line and the byte at home. -/
theorem seenByte_eq (s : State) (core pa : Nat) :
    seenByte s core pa = ((lineOn s core (lineOf pa)).bind fun x => lineByte x (pa % 128)).getD (sget s.mem pa) := by
  rw [seenByte, l1Byte_eq]

theorem importedLine_local {pa : Nat} (hpa : pa < apertureBase) : importedLine (lineOf pa) = false := by
  have hlow : lineOf pa * 128 < apertureBase := by unfold lineOf; omega
  simp [importedLine, inAperture, Nat.not_le.mpr hlow]

theorem inAperture_local {pa : Nat} (hpa : pa < apertureBase) : inAperture pa = false := by
  simp [inAperture, Nat.not_le.mpr hpa]

theorem homeByte_local (s : State) (core : Nat) {pa : Nat} (hpa : pa < apertureBase) : homeByte s core pa = some (sget s.mem pa) := by
  rw [homeByte, inAperture_local hpa]
  rfl

/-- The core's own dirty byte, or the one at home. -/
theorem ownByte_local (s : State) (core : Nat) {pa : Nat} (hpa : pa < apertureBase) :
    ownByte s core pa = some (((lineOn s core (lineOf pa)).bind fun x => dirtyAt x.dirty (pa % 128)).getD (sget s.mem pa)) := by
  rw [ownByte, lineOn_def, homeByte_local s core hpa]
  cases (lineOn s core (lineOf pa)).bind fun x => dirtyAt x.dirty (pa % 128) <;> rfl

/-! ## States with the same lines -/

/-- Every core's L1 and memory are as in another state. -/
structure SameLines (s s' : State) : Prop where
  lines : ∀ k, l1Of s' k = l1Of s k
  mem   : s'.mem = s.mem

theorem SameLines.refl (s : State) : SameLines s s := ⟨fun _ => rfl, rfl⟩
theorem SameLines.trans {a b c : State} (h : SameLines a b) (k : SameLines b c) : SameLines a c :=
  ⟨fun i => (k.lines i).trans (h.lines i), k.mem.trans h.mem⟩
theorem SameLines.of_eq {s s' : State} (hc : s'.cores = s.cores) (hm : s'.mem = s.mem) : SameLines s s' := ⟨l1Of_cores hc, hm⟩
theorem SameLines.foldl {α : Type} {f : State → α → State} (hf : ∀ s x, SameLines s (f s x)) (l : List α) (s : State) :
    SameLines s (l.foldl f s) :=
  List.foldlRecOn l f (.refl s) fun _ hx y _ => hx.trans (hf _ y)
theorem SameLines.of_outside {t : Nat} {s s' : State} (ho : Outside t s s') (hm : s'.mem = s.mem) : SameLines s s' :=
  ⟨l1Of_outside ho, hm⟩

theorem SameLines.lineOn {s s' : State} (h : SameLines s s') (core line : Nat) : lineOn s' core line = lineOn s core line := by
  rw [Caches.lineOn, Caches.lineOn, h.lines]
theorem SameLines.seenByte {s s' : State} (h : SameLines s s') (core pa : Nat) : seenByte s' core pa = seenByte s core pa := by
  rw [seenByte_eq, seenByte_eq, h.lineOn, h.mem]
theorem SameLines.ownByte {s s' : State} (h : SameLines s s') (core : Nat) {pa : Nat} (hpa : pa < apertureBase) :
    ownByte s' core pa = ownByte s core pa := by
  rw [ownByte_local _ _ hpa, ownByte_local _ _ hpa, h.lineOn, h.mem]

/-- Bank cycles change cohorts and the team alone (R126). -/
theorem countBanks_eq (s : State) (t : Nat) (ps : List Placed) : ∃ cs ts, countBanks s t ps = { s with cohorts := cs, teams := ts } := by
  obtain hsame | ⟨bs, hsome⟩ := countBanks_cases s t ps
  · exact ⟨s.cohorts, s.teams, hsame⟩
  · have hadd : ∃ cs, addBanks s bs = { s with cohorts := cs } := by
      refine List.foldlRecOn (motive := fun (x : State) => ∃ cs : List Cohort, x = { s with cohorts := cs }) bs _ ⟨s.cohorts, rfl⟩
        fun x hx k _ => ?_
      obtain ⟨cs, rfl⟩ := hx
      exact ⟨_, rfl⟩
    obtain ⟨cs, hcs⟩ := hadd
    exact ⟨cs, _, by rw [hsome, hcs]; rfl⟩

theorem countBanks_sameLines (s : State) (t : Nat) (ps : List Placed) : SameLines s (countBanks s t ps) := by
  obtain ⟨cs, ts, he⟩ := countBanks_eq s t ps
  rw [he]
  exact .of_eq rfl rfl

/-! ## Lines put into a core's L1 -/

theorem l1Of_modCore_ne (s : State) {core k : Nat} (f : Core → Core) (hk : k ≠ core) : l1Of (s.modCore core f) k = l1Of s k := by
  rw [l1Of, modCore_others _ _ hk, l1Of]

theorem l1Of_modCore_put (s : State) {core : Nat} {c : Core} (hc : s.cores[core]? = some c) (f : Core → L1Line) :
    l1Of (s.modCore core fun c => l1Put c (f c)) core = f c :: (l1Of s core).filter fun y => y.line != (f c).line := by
  rw [l1Of, State.modCore_cores, getElem?_modAt, if_pos rfl, hc, l1Of_some hc]
  rfl

theorem lineOn_core {s : State} {core line : Nat} {x : L1Line} (hx : lineOn s core line = some x) : ∃ c, s.cores[core]? = some c := by
  have hmem := lineOn_mem hx
  unfold l1Of at hmem
  cases hc : s.cores[core]? with
  | none => rw [hc] at hmem; cases hmem
  | some c => exact ⟨c, rfl⟩

/-- The line that a core finds after one has been put into its L1. -/
theorem lineOn_put (s : State) {core : Nat} {c : Core} (hc : s.cores[core]? = some c) (f : Core → L1Line) (line : Nat) :
    lineOn (s.modCore core fun c => l1Put c (f c)) core line = if (f c).line = line then some (f c) else lineOn s core line := by
  rw [lineOn, l1Of_modCore_put s hc, List.find?_cons]
  split
  · rename_i h
    rw [if_pos (by simpa using h)]
  · rename_i h
    have hne : (f c).line ≠ line := by simpa using h
    rw [if_neg hne, List.find?_filter, lineOn]
    refine List.find?_congr fun y _ => ?_
    by_cases hy : y.line = line
    · simp [hy, Ne.symm hne]
    · simp [hy]

theorem lineOn_put_ne (s : State) {core k : Nat} (f : Core → Core) (line : Nat) (hk : k ≠ core) :
    lineOn (s.modCore core f) k line = lineOn s k line := by rw [lineOn, l1Of_modCore_ne s f hk, lineOn]

/-! ## What cores find -/

/-- Memory is as in another state, and every core finds the bytes of cacheable local pages that it found there, but for those that a
condition on core and address names. -/
structure SeenBut (but : Nat → Nat → Prop) (s s' : State) : Prop where
  mem  : s'.mem = s.mem
  seen : ∀ k p, p < apertureBase → ¬but k p → seenByte s' k p = seenByte s k p

section
variable {but : Nat → Nat → Prop} {a b c : State}

theorem SeenBut.refl (s : State) : SeenBut but s s := ⟨rfl, fun _ _ _ _ => rfl⟩
theorem SeenBut.trans (h : SeenBut but a b) (k : SeenBut but b c) : SeenBut but a c :=
  ⟨k.mem.trans h.mem, fun i p hp hb => (k.seen i p hp hb).trans (h.seen i p hp hb)⟩
theorem SeenBut.of_lines (h : SameLines a b) : SeenBut but a b := ⟨h.mem, fun k p _ _ => h.seenByte k p⟩

/-- A core's L1 takes a line in place of its copy: what the core finds outside that line stays. -/
theorem SeenBut.put (s : State) {core : Nat} {x : Core → L1Line} (hcore : ∀ c, s.cores[core]? = some c → ∀ p, p < apertureBase →
    lineOf p = (x c).line → ¬but core p → (lineByte (x c) (p % 128)).getD (sget s.mem p) = seenByte s core p) :
    SeenBut but s (s.modCore core fun c => l1Put c (x c)) := by
  refine ⟨rfl, fun k p hp hb => ?_⟩
  rw [seenByte_eq]
  by_cases hk : k = core
  · subst hk
    cases hc : s.cores[k]? with
    | none =>
      have hsame : l1Of (s.modCore k fun c => l1Put c (x c)) k = l1Of s k := by
        rw [l1Of, State.modCore_cores, getElem?_modAt, if_pos rfl, hc, l1Of, hc]
        rfl
      rw [lineOn, hsame, ← lineOn, seenByte_eq]
      rfl
    | some c =>
      rw [lineOn_put s hc]
      split
      · rename_i hline
        exact hcore c hc p hp hline.symm hb
      · rw [seenByte_eq]
        rfl
  · rw [lineOn_put_ne _ _ _ hk, seenByte_eq]
    rfl

end

theorem sget_lineData (m : Sparse 8) (line o : Nat) (ho : o < 128) : sget (lineData m line) o = sget m (line * 128 + o) := by
  induction m with
  | nil => rfl
  | cons p m ih =>
    rw [lineData, List.filterMap_cons]
    obtain ⟨a, b⟩ := p
    by_cases ha : a / 128 = line
    · simp only [ha, if_true, sget]
      rw [← lineData, ih]
      by_cases h : a % 128 = o
      · rw [if_pos h, if_pos (by omega)]
      · rw [if_neg h, if_neg (by omega)]
    · simp only [ha, if_false, sget]
      rw [← lineData, ih, if_neg (by omega)]

/-- A line filled from home changes no byte that a core finds (R123, R170). -/
theorem SeenBut.fillLine {but : Nat → Nat → Prop} (s : State) (core asid : Nat) (priv : Bool) {line : Nat} (hloc : importedLine line = false) :
    SeenBut but s (fillLine s core asid priv line) := by
  have hhome {p : Nat} (hp : lineOf p = line) : sget (lineData s.mem line) (p % 128) = sget s.mem p := by
    rw [sget_lineData _ _ _ (by omega), ← hp]
    congr 1
    unfold lineOf
    omega
  have hdata : fillData s core line = some (lineData s.mem line) := by rw [fillData, hloc]; rfl
  unfold Machine.fillLine
  rw [lineOn_def, hdata]
  split
  · rename_i x hx
    have hline := lineOn_line hx
    split
    · split
      · exact .refl s
      · refine .put s fun c hc p _ hp _ => ?_
        rw [seenByte_eq, hp]
        simp only [hline, hx, Option.bind_some]
        rfl
    · rename_i hclean
      have hnone : x.clean = none := by simpa using hclean
      refine .put s fun c hc p _ hp _ => ?_
      have hpl : lineOf p = line := hp.trans hline
      rw [seenByte_eq, hpl, hx, Option.bind_some]
      cases hd : dirtyAt x.dirty (p % 128) with
      | some b => rw [lineByte_dirty hd, lineByte_dirty (by exact hd)]
      | none =>
        rw [lineByte_clean hd, lineByte_clean (by exact hd), hnone]
        exact hhome hpl
  · rename_i hx
    refine .put s fun c hc p _ hp _ => ?_
    rw [seenByte_eq, hp, hx]
    exact hhome hp

/-- Clean copies brought up to date at some addresses (R170): a core finds at others what it found. -/
theorem SeenBut.l1Clean {but : Nat → Nat → Prop} (s : State) (core : Nat) (ws : List (Nat × Byte)) (hbut : ∀ p ∈ ws, but core p.1) :
    SeenBut but s (l1Clean s core ws) := by
  refine List.foldlRecOn ws _ (.refl s) fun t ht w hw => ht.trans ?_
  rw [lineOn_def]
  split
  · rename_i x hx
    have hline := lineOn_line hx
    refine .put t fun c hc p _ hp hb => ?_
    have hne : p ≠ w.1 := fun e => hb (e ▸ hbut w hw)
    have hpl : lineOf p = lineOf w.1 := hp.trans hline
    have hoff : p % 128 ≠ w.1 % 128 := fun e => hne (by unfold lineOf at hpl; omega)
    rw [seenByte_eq, hpl, hx, Option.bind_some]
    cases hd : dirtyAt x.dirty (p % 128) with
    | some b => rw [lineByte_dirty hd, lineByte_dirty (by exact hd)]
    | none =>
      rw [lineByte_clean hd, lineByte_clean (by exact hd)]
      cases x.clean with
      | none => rfl
      | some d => exact sget_sset_ne _ hoff d
  · exact .refl t

end Sys2Proof.Proofs.Caches

namespace Sys2Proof.Proofs.Loads
open Sys2Proof Sys2Proof.Machine Sys2Proof.Proofs.Scratchpads Sys2Proof.Proofs.WriteBacks Sys2Proof.Proofs.Accesses Sys2Proof.Proofs.Caches

/-! ## The accesses of the lanes, placed in memory -/

theorem placeAcc_acc {s : State} {h : Here} {sp : Space} {need : Need} {al : Nat} {a : Acc} {p : Placed}
    (hp : (placeAcc s h sp need al a).2 = .ok p) : p.acc = a := by
  unfold placeAcc at hp
  dsimp only at hp
  split at hp
  · cases hp
  · dsimp only at hp
    split at hp <;> cases hp
    rfl

/-- Accesses without a fault are placed in their order. -/
theorem placeAll_accs (s : State) (h : Here) (sp : Space) (need : Need) (al : Nat) (as : List Acc)
    (hok : (placeAll s h sp need al as).2.2 = []) : (placeAll s h sp need al as).2.1.map (·.acc) = as := by
  induction as using List.reverseRecOn with
  | nil => rfl
  | append_singleton as a ih =>
    cases hr : (placeAcc (placeAll s h sp need al as).1 h sp need al a).2 with
    | ok p =>
      rw [placeAll_append_ok hr] at hok ⊢
      rw [List.map_append, ih hok, List.map_singleton, placeAcc_acc hr]
    | error x =>
      rw [placeAll_append_error hr] at hok
      exact absurd hok (by simp)

/-- Every access lies in memory, in pages of the package (R118, R329). -/
def AllLocal (ps : List Placed) : Prop := ∀ p ∈ ps, p.spots ≠ [] ∧ ∀ x ∈ p.spots, x.x.imp = false ∧ x.pa < apertureBase

theorem AllLocal.spot {ps : List Placed} (hloc : AllLocal ps) {x : Spot} (hx : x ∈ ps.flatMap Placed.spots) :
    x.x.imp = false ∧ x.pa < apertureBase := by
  obtain ⟨p, hp, hxp⟩ := List.mem_flatMap.mp hx
  exact (hloc p hp).2 x hxp

theorem place_glob {p : Placed} (hp : p.spots ≠ []) : ∃ x n y, p.place = .glob x n y := by
  cases hplace : p.place with
  | spad c k off => exact absurd (by rw [Placed.spots, hplace]) hp
  | glob x n y => exact ⟨x, n, y, rfl⟩

theorem length_spots {p : Placed} (hp : p.spots ≠ []) : p.spots.length = p.acc.size := by
  obtain ⟨x, n, y, hplace⟩ := place_glob hp
  rw [Placed.spots, hplace]
  simp

/-- Bytes of this package's pages that are all there: no request is sent for them. -/
theorem gather_whole {s : State} {h : Here} (owner : ReqOwner) {get : State → Here → Spot → Option Byte} {ps : List Placed}
    (himp : ∀ x ∈ ps.flatMap Placed.spots, x.x.imp = false) (hwhole : ∀ p ∈ ps, p.spots = [] → p.acc.size = 0) (g : Spot → Byte)
    (hg : ∀ x ∈ ps.flatMap Placed.spots, get s h x = some (g x)) :
    gather s h owner get ps = (s, (ps.flatMap fun p => p.spots.map g).map .known, []) := by
  have hnone : (ps.flatMap Placed.spots).any (fun x => x.x.imp) = false :=
    List.any_eq_false.mpr fun x hx => by simp [himp x hx]
  have hask : askLines s h owner [] = (s, []) := rfl
  have hbytes : ∀ p ∈ ps, (match p.place with
      | .spad c _ off => (List.range p.acc.size).map fun j => PByte.known (((s.cohorts[c]?).map fun co => sget co.sp (off + j)).getD 0)
      | .glob .. => p.spots.map fun x => match get s h x with
        | some b => .known b
        | none => .hole 0 (x.pa % 128)) = (p.spots.map g).map PByte.known := fun p hp => by
    cases hplace : p.place with
    | spad c k off =>
      have hspots : p.spots = [] := by rw [Placed.spots, hplace]
      rw [hspots, hwhole p hp hspots]
      rfl
    | glob x n y =>
      rw [List.map_map]
      exact List.map_congr_left fun x hx => by rw [hg x (List.mem_flatMap.mpr ⟨p, hp, hx⟩)]; rfl
  unfold gather
  dsimp only
  rw [hnone]
  simp only [Bool.false_eq_true, if_false, hask, List.map_nil, List.map_flatMap]
  refine congrArg (fun bs => (s, bs, [])) ?_
  exact List.flatMap_congr fun p hp => hbytes p hp

theorem gather_local {s : State} {h : Here} (owner : ReqOwner) {get : State → Here → Spot → Option Byte} {ps : List Placed}
    (hloc : AllLocal ps) (g : Spot → Byte) (hg : ∀ x ∈ ps.flatMap Placed.spots, get s h x = some (g x)) :
    gather s h owner get ps = (s, (ps.flatMap fun p => p.spots.map g).map .known, []) :=
  gather_whole owner (fun _ hx => (hloc.spot hx).1) (fun p hp he => absurd he (hloc p hp).1) g hg

theorem mem_linesOf {sp : List Spot} {line : Nat} : line ∈ linesOf sp ↔ ∃ x ∈ sp, lineOf x.pa = line := by
  rw [linesOf, mem_sortBy, List.mem_eraseDups, List.mem_map]

theorem noteImported_local {s : State} {h : Here} {sp : List Spot} (hloc : ∀ x ∈ sp, x.x.imp = false) : noteImported s h sp = s := by
  have hnone : sp.filter (fun x => x.x.imp) = [] := List.filter_eq_nil_iff.mpr fun x hx => by simp [hloc x hx]
  rw [noteImported, hnone]
  rfl

theorem sameLines_mscReads (s : State) (ls : List Nat) : SameLines s (mscReads s ls) :=
  SameLines.foldl (f := mscRead) (fun _ _ => .of_eq rfl rfl) ls s

/-- Clean copies refreshed at some addresses. -/
theorem seenBut_l1Refresh {but : Nat → Nat → Prop} (s : State) (core : Nat) (pas : List Nat) (hbut : ∀ p ∈ pas, but core p) :
    SeenBut but s (l1Refresh s core pas) := by
  refine .l1Clean s core _ fun w hw => ?_
  obtain ⟨pa, hpa, hw⟩ := List.mem_filterMap.mp hw
  obtain ⟨b, -, rfl⟩ := Option.map_eq_some_iff.mp hw
  exact hbut pa hpa

theorem seenBut_fillSpots {but : Nat → Nat → Prop} (s : State) (h : Here) {sp : List Spot} (hloc : ∀ x ∈ sp, x.pa < apertureBase) :
    SeenBut but s (fillSpots s h sp) := by
  refine List.foldlRecOn _ _ (.refl s) fun t ht line hline => ht.trans ?_
  obtain ⟨x, hx, rfl⟩ := mem_linesOf.mp hline
  have hfill (priv : Bool) : SeenBut but t (fillLine t h.core h.asid priv (lineOf x.pa)) :=
    .fillLine _ _ _ _ (importedLine_local (hloc x (List.mem_filter.mp hx).1))
  split
  · dsimp only
    split
    · exact hfill _
    · exact (hfill _).trans (.of_lines (.of_eq rfl rfl))
  · exact .refl t

/-- The byte that a plain load finds (R170): what the core finds in its L1, or its own dirty byte or the one at home. -/
def foundByte (s : State) (core : Nat) (x : Spot) : Byte := if x.x.cach then seenByte s core x.pa else (ownByte s core x.pa).getD 0

theorem spotByte_local {s : State} {h : Here} {x : Spot} (hpa : x.pa < apertureBase) : spotByte s h x = some (foundByte s h.core x) := by
  unfold spotByte foundByte
  split
  · rw [homeByte_local _ _ hpa, seenByte]
    cases l1Byte s h.core (lineOf x.pa) (x.pa % 128) <;> rfl
  · rw [ownByte_local _ _ hpa]
    rfl

/-- A spot of an uncacheable page that the core has read. -/
def ReadPast (core : Nat) (sp : List Spot) (k p : Nat) : Prop := k = core ∧ ∃ x ∈ sp, x.x.cach = false ∧ x.pa = p

/-- A plain load of local pages (R123, R170). -/
theorem loadPlaced_plain {s : State} {h : Here} {ps : List Placed} (hloc : AllLocal ps) :
    ∃ s1, loadPlaced s h none ps = (s1, (ps.flatMap fun p => p.spots.map (foundByte s1 h.core)).map .known, [])
      ∧ SeenBut (ReadPast h.core (ps.flatMap Placed.spots)) s s1 := by
  let out := (ps.flatMap Placed.spots).filter fun x => !x.x.cach
  refine ⟨l1Refresh (mscReads (fillSpots s h (ps.flatMap Placed.spots)) (linesOf out)) h.core (out.map (·.pa)), ?_, ?_⟩
  · unfold loadPlaced
    dsimp only
    rw [gather_local (nextOwner h) hloc _ fun x hx => spotByte_local (hloc.spot hx).2]
    rw [noteImported_local fun x hx => (hloc.spot hx).1]
  · refine ((seenBut_fillSpots s h fun x hx => (hloc.spot hx).2).trans (.of_lines (sameLines_mscReads _ (linesOf out)))).trans ?_
    refine seenBut_l1Refresh _ _ _ fun p hp => ?_
    obtain ⟨x, hx, rfl⟩ := List.mem_map.mp hp
    obtain ⟨hx, hcach⟩ := List.mem_filter.mp hx
    exact ⟨rfl, x, hx, by simpa using hcach, rfl⟩

/-! ### The acquire of lines without a tag (R173) -/

theorem dropClean_tags (s : State) (core : Nat) (p : L1Line → Bool) : (dropClean s core p).tags = s.tags := by
  have hwake (s : State) (ls : List Nat) : (wakeCore s core ls).tags = s.tags := by
    unfold wakeCore
    split <;> rfl
  unfold dropClean
  split
  · exact hwake _ _
  · rfl

theorem acquireOn_untagged {s : State} {h : Here} {sc : Scope} {line : Nat} (hloc : importedLine line = false) (ht : tagOf s line = none) :
    acquireOn s h sc line = selfInvalidate s h.core h.asid := by
  rw [acquireOn, hloc, acquireLine, ht]
  rfl

theorem foldl_acquireOn {s : State} {h : Here} {sc : Scope} {ls : List Nat} (hls : ∀ l ∈ ls, importedLine l = false ∧ tagOf s l = none) :
    ls.foldl (fun s l => acquireOn s h sc l) s = ls.foldl (fun s _ => selfInvalidate s h.core h.asid) s := by
  have hfold (ls : List Nat) (hls : ∀ l ∈ ls, importedLine l = false ∧ tagOf s l = none) : ∀ t : State, t.tags = s.tags →
      ls.foldl (fun s l => acquireOn s h sc l) t = ls.foldl (fun s _ => selfInvalidate s h.core h.asid) t := by
    induction ls with
    | nil => exact fun _ _ => rfl
    | cons l ls ih =>
      intro t ht
      obtain ⟨hloc, htag⟩ := hls l List.mem_cons_self
      rw [List.foldl_cons, List.foldl_cons, acquireOn_untagged hloc (by rw [tagOf, ht]; exact htag)]
      exact ih (fun k hk => hls k (List.mem_cons_of_mem _ hk)) _ ((dropClean_tags _ _ _).trans ht)
  exact hfold ls hls s rfl

/-- A core that has self-invalidated: it holds no useless line, and no clean byte of the ASID on a page with P = 0. -/
def Invalidated (s : State) (core asid : Nat) : Prop :=
  ∀ x ∈ l1Of s core, x.useless = false ∧ (x.asid = asid → x.priv = false → x.clean = none)

theorem selfInvalidate_invalidated (s : State) (core asid : Nat) : Invalidated (selfInvalidate s core asid) core asid := fun _ hx =>
  ⟨(mem_l1Of_dropClean.mp hx).2, selfInvalidate_clean hx⟩

theorem Invalidated.of_lines {s s' : State} {core asid : Nat} (hi : Invalidated s core asid) (h : SameLines s s') :
    Invalidated s' core asid := fun x hx => hi x (h.lines core ▸ hx)

theorem Invalidated.l1Clean {s : State} {core asid : Nat} (hi : Invalidated s core asid) (ws : List (Nat × Byte)) :
    Invalidated (l1Clean s core ws) core asid := by
  refine List.foldlRecOn (motive := fun t => Invalidated t core asid) ws _ hi fun t ht w _ => ?_
  rw [lineOn_def]
  split
  · rename_i x hx
    intro y hy
    obtain ⟨c, hc, hy⟩ := mem_l1Of_modCore hy
    rcases List.mem_cons.mp hy with rfl | hy
    · obtain ⟨huse, hclean⟩ := ht x (lineOn_mem hx)
      refine ⟨?_, fun ha hp => ?_⟩
      · rw [← huse, L1Line.useless, L1Line.useless, Option.isNone_map]
      · show x.clean.map _ = none
        rw [hclean ha hp]
        rfl
    · exact ht y (l1Of_some hc ▸ (List.mem_filter.mp hy).1)
  · exact ht

/-- Where no line is useless and none is picked, nothing is discarded. -/
theorem dropClean_sameLines {s : State} {core asid : Nat} (hi : Invalidated s core asid) {p : L1Line → Bool} (hp : ∀ x, p x = false) :
    SameLines s (dropClean s core p) := by
  refine ⟨fun k => ?_, dropClean_mem _ _ _⟩
  by_cases hk : k = core
  · subst hk
    have hid : withoutClean p = id := funext fun x => by rw [withoutClean, hp]; rfl
    rw [l1Of_dropClean, hid, List.map_id]
    exact List.filter_eq_self.mpr fun x hx => by rw [(hi x hx).1]; rfl
  · rw [l1Of, dropClean_others _ _ _ hk, l1Of]

theorem foldl_selfInvalidate {s : State} {core asid : Nat} : ∀ {ls : List Nat}, ls ≠ [] →
    Invalidated (ls.foldl (fun s _ => selfInvalidate s core asid) s) core asid := by
  intro ls
  induction ls using List.reverseRecOn with
  | nil => exact fun h => absurd rfl h
  | append_singleton ls l _ =>
    intro _
    rw [List.foldl_append]
    exact selfInvalidate_invalidated _ _ _

theorem foldl_selfInvalidate_mem (s : State) (core asid : Nat) (ls : List Nat) :
    (ls.foldl (fun s _ => selfInvalidate s core asid) s).mem = s.mem :=
  List.foldlRecOn (motive := fun (t : State) => t.mem = s.mem) ls _ rfl fun _ ht _ _ => (dropClean_mem _ _ _).trans ht

theorem l1Clean_mem (s : State) (core : Nat) (ws : List (Nat × Byte)) : (l1Clean s core ws).mem = s.mem := by
  refine List.foldlRecOn (motive := fun (t : State) => t.mem = s.mem) ws _ rfl fun t ht p _ => ?_
  split <;> exact ht

/-- A synchronising load of local lines without a tag (R123, R173). -/
theorem loadPlaced_sync {s : State} {h : Here} {ps : List Placed} {sc : Scope} (hloc : AllLocal ps)
    (htag : ∀ x ∈ ps.flatMap Placed.spots, tagOf s (lineOf x.pa) = none) :
    ∃ s1, loadPlaced s h (some sc) ps
        = (s1, (ps.flatMap fun p => p.spots.map fun x => (ownByte s1 h.core x.pa).getD 0).map .known, [])
      ∧ s1.mem = s.mem ∧ (ps.flatMap Placed.spots ≠ [] → Invalidated s1 h.core h.asid) := by
  have himp : (ps.flatMap Placed.spots).filter (fun x => x.x.imp) = [] :=
    List.filter_eq_nil_iff.mpr fun x hx => by simp [(hloc.spot hx).1]
  have hall : (ps.flatMap Placed.spots).filter (fun x => !x.x.imp) = ps.flatMap Placed.spots :=
    List.filter_eq_self.mpr fun x hx => by simp [(hloc.spot hx).1]
  have hacquire := foldl_acquireOn (h := h) (sc := sc) (ls := linesOf (ps.flatMap Placed.spots)) (s := s) fun l hl => by
    obtain ⟨x, hx, rfl⟩ := mem_linesOf.mp hl
    exact ⟨importedLine_local (hloc.spot hx).2, htag x hx⟩
  let s1 := (linesOf (ps.flatMap Placed.spots)).foldl (fun s _ => selfInvalidate s h.core h.asid) s
  let s2 := l1Refresh (mscReads s1 (linesOf (ps.flatMap Placed.spots))) h.core ((ps.flatMap Placed.spots).map (·.pa))
  have hmem : s2.mem = s.mem := (l1Clean_mem _ _ _).trans ((sameLines_mscReads _ _).mem.trans (foldl_selfInvalidate_mem _ _ _ _))
  have hinv (hne : ps.flatMap Placed.spots ≠ []) : Invalidated s2 h.core h.asid := by
    obtain ⟨x, hx⟩ := List.exists_mem_of_ne_nil _ hne
    exact ((foldl_selfInvalidate (List.ne_nil_of_mem (mem_linesOf.mpr ⟨x, hx, rfl⟩))).of_lines (sameLines_mscReads _ _)).l1Clean _
  have hsame (hne : ps.flatMap Placed.spots ≠ []) : SameLines s2 (dropClean s2 h.core fun _ => false) :=
    dropClean_sameLines (hinv hne) fun _ => rfl
  refine ⟨dropClean s2 h.core fun _ => false, ?_, (dropClean_mem _ _ _).trans hmem, fun hne => (hinv hne).of_lines (hsame hne)⟩
  unfold loadPlaced
  dsimp only
  rw [hall, himp, hacquire]
  rw [gather_local (nextOwner h) hloc (fun x => (ownByte (dropClean s2 h.core fun _ => false) h.core x.pa).getD 0) fun x hx => ?_]
  · rw [noteImported_local fun x hx => (hloc.spot hx).1]
    rfl
  · obtain ⟨-, hpa⟩ := hloc.spot hx
    rw [(hsame (List.ne_nil_of_mem hx)).ownByte _ hpa, spotHome, ownByte_local _ _ hpa]
    rfl

/-! ## What the lanes take (R122) -/

/-- The bytes of a lane are those of its one access. -/
theorem flatMap_lanes (g : Placed → List Byte) : ∀ {ps : List Placed}, (ps.map (·.acc.lane)).Nodup →
    ps.flatMap g = (ps.map (·.acc.lane)).flatMap fun l => ((ps.find? fun p => p.acc.lane = l).map g).getD []
  | [], _ => rfl
  | p :: ps, hnd => by
    obtain ⟨hp, hps⟩ := List.nodup_cons.mp hnd
    have htail : (ps.map (·.acc.lane)).flatMap (fun l => ((ps.find? fun p => p.acc.lane = l).map g).getD [])
        = (ps.map (·.acc.lane)).flatMap fun l => (((p :: ps).find? fun p => p.acc.lane = l).map g).getD [] := by
      refine List.flatMap_congr fun l hl => ?_
      have hne : p.acc.lane ≠ l := fun e => hp (by show p.acc.lane ∈ _; rw [e]; exact hl)
      rw [List.find?_cons_of_neg (by simpa using hne)]
    rw [List.flatMap_cons, flatMap_lanes g hps, htail, List.map_cons, List.flatMap_cons, List.find?_cons_of_pos (by simp)]
    rfl

/-- The number that a lane loads, from the bytes of its access. -/
def laneLoad (ps : List Placed) (g : Spot → Byte) (l : Nat) : Nat :=
  ((ps.find? fun p => p.acc.lane = l).map fun p => natOf (p.spots.map g)).getD 0

/-- The writes of a load whose accesses are those of the lanes that take part. -/
theorem loadFin_lanes {d : Dst} {m : MemForm} {f : Frame} {ps : List Placed} {addr : Nat → W64} (hloc : AllLocal ps)
    (haccs : ps.map (·.acc) = f.on.map fun l => ⟨l, addr l, formBytes f.mode.t m⟩) (g : Spot → Byte) :
    loadFin d m f (ps.flatMap fun p => p.spots.map g)
      = Writes.ofV (f.on.flatMap fun l => dstWrites f d (formRegs f.mode.t m) l (laneLoad ps g l)) := by
  have hlanes : ps.map (·.acc.lane) = f.on := by
    simpa [List.map_map, Function.comp_def] using congrArg (List.map Acc.lane) haccs
  have hnd : (ps.map (·.acc.lane)).Nodup := hlanes ▸ (sorted_on f).imp Nat.ne_of_lt
  rw [flatMap_lanes (fun p => p.spots.map g) hnd, hlanes, loadFin_flatMap]
  · refine congrArg Writes.ofV (List.flatMap_congr fun l _ => congrArg _ ?_)
    unfold laneLoad
    cases ps.find? fun p => p.acc.lane = l <;> rfl
  · intro l hl
    have hsome : ∃ p, ps.find? (fun p => p.acc.lane = l) = some p := by
      rw [← hlanes] at hl
      obtain ⟨p, hp, hpl⟩ := List.mem_map.mp hl
      exact Option.isSome_iff_exists.mp (List.find?_isSome.mpr ⟨p, hp, by simpa using hpl⟩)
    obtain ⟨p, hp⟩ := hsome
    have hmem := List.mem_of_find?_eq_some hp
    have hacc : p.acc ∈ f.on.map fun l => (⟨l, addr l, formBytes f.mode.t m⟩ : Acc) := haccs ▸ List.mem_map_of_mem hmem
    obtain ⟨k, -, hk⟩ := List.mem_map.mp hacc
    rw [hp, Option.map_some, Option.getD_some, List.length_map, length_spots (hloc p hmem).1, ← hk]

/-! ## Loads as instructions -/

theorem Acts.teams {s s1 : State} {late : Bool} {act : Act} {w : Writes} {bytes : List PByte} {need : List Nat} {acc : List Touch}
    (ha : Acts s late act) (he : act = .done s1 w bytes need acc) : TeamsKept s s1 := by
  obtain ⟨s2, w2, b2, n2, a2, he2, hk, -⟩ := ha
  rw [he] at he2
  cases he2
  exact hk

/-- A variable-latency access of a quiet team is in flight with its writes, and nothing else changes but what its action has (R155). -/
theorem issueJob_sent {i : Instr} {sw : Bool} {jf : Frame → Job} {s s1 : State} {h : Here} {w : Writes} {acc : List Touch} (hq : Quiet s h)
    (hw : NoWatch h) (hr : Ready jf h.frame) (hlate : (jf h.frame).late = true) (hk : TeamsKept s s1)
    (hrun : (jf h.frame).run h h.frame s = .done s1 w [] [] acc) :
    ∃ t tm fl, issueJob i sw jf s = .next t ∧ t.teams[h.t]? = some tm ∧ GoesOn i h tm ∧ tm.inflight = [fl]
      ∧ fl.bytes = [] ∧ fl.need = [] ∧ fl.writes = w ∧ Outside h.t s1 t ∧ t.mem = s1.mem := by
  obtain ⟨hlt, hkept⟩ := teamNow_kept hq.1 hk
  obtain ⟨tm1, fl, hsettle, hgo, hflight, hbytes, hneed, hwrites⟩ :=
    settleWrites_late (i := i) (s := s1) (f := h.frame) (w := w) (bytes := []) (need := []) hlate (acted_kept hq hkept)
  obtain ⟨tm, ht, hg, hin⟩ := endAt_goesOn (sw := sw) hlt (after h i) ((jf h.frame).passes h.frame) hgo
  refine ⟨_, tm, fl, issueJob_done hq hw hr hrun, ?_⟩
  rw [hsettle]
  exact ⟨ht, hg, hin.trans hflight, hbytes, hneed, hwrites, endAt_outside _ _ _ _ _ _, rfl⟩

theorem loadLanes_done {s s1 : State} {h : Here} {f : Frame} {sp : Space} {al : Nat} {as : List Acc} {bytes : List Byte} {sync : Bool}
    (hflight : h.tm.inflight = []) (hok : (placeAll s h sp .read al as).2.2 = [])
    (hload : loadPlaced (countBanks (placeAll s h sp .read al as).1 h.t (placeAll s h sp .read al as).2.1) h (beyondCore sync f.mode.sc)
      (placeAll s h sp .read al as).2.1 = (s1, bytes.map .known, [])) (k : Option Nat) (fin : Frame → List Byte → Writes) :
    loadLanes h f s k sp al sync as fin = .done s1 (fin f bytes) [] [] (touches as true false) := by
  rw [loadLanes, inOrder_quiet hflight _ (by simp)]
  dsimp only
  rw [hok, pickFault_nil]
  dsimp only
  rw [hload]
  simp [finish]

section
variable {s : State} {h : Here} {sw : Bool} {i : Instr} {jf : Frame → Job} {sp : Space} {al : Nat} {as : List Acc} {sync : Bool}

/-- What a load of local pages leaves in flight: its writes from the bytes that `byte` names in the state left, with memory as the
translations left it. -/
def Lands (i : Instr) (s : State) (h : Here) (w : State → Writes) (P : State → Prop) : Prop :=
  ∃ t tm fl, exec i s = .next t ∧ t.teams[h.t]? = some tm ∧ GoesOn i h tm ∧ tm.inflight = [fl] ∧ fl.bytes = [] ∧ fl.need = []
    ∧ fl.writes = w t ∧ P t

/-- The bytes of local accesses in lane order, each as `byte` finds it. -/
def bytesAt (ps : List Placed) (byte : Spot → Byte) : List Byte := ps.flatMap fun p => p.spots.map byte

theorem bytesAt_congr {ps : List Placed} {b b' : Spot → Byte} (hb : ∀ x ∈ ps.flatMap Placed.spots, b x = b' x) :
    bytesAt ps b = bytesAt ps b' :=
  List.flatMap_congr fun p hp => List.map_congr_left fun x hx => hb x (List.mem_flatMap.mpr ⟨p, hp, hx⟩)

variable {f : Frame} {fin : Frame → List Byte → Writes}

/-- A plain load of local pages that a job performs with `loadLanes`. -/
theorem lands_plain (hq : Quiet s h) (hw : NoWatch h) (hr : Ready jf h.frame) (he : exec i s = issueJob i sw jf s)
    (hlate : (jf h.frame).late = true) (k : Option Nat) (hbeyond : beyondCore sync h.tm.mode.sc = none)
    (hok : (placeAll s h sp .read al as).2.2 = []) (hloc : AllLocal (placeAll s h sp .read al as).2.1)
    (hrun : (jf h.frame).run h h.frame s = loadLanes h h.frame s k sp al sync as fin
      ∨ (jf h.frame).run h h.frame s = (loadLanes h h.frame s k sp al sync as fin).uniform h.frame) :
    let r := placeAll s h sp .read al as
    Lands i s h (fun t => fin h.frame (bytesAt r.2.1 (foundByte t h.core)))
      fun t => SeenBut (ReadPast h.core (r.2.1.flatMap Placed.spots)) r.1 t := by
  intro r
  obtain ⟨s1, hload, hseen⟩ := loadPlaced_plain (s := countBanks r.1 h.t r.2.1) (h := h) hloc
  rw [← hbeyond] at hload
  have hdone := loadLanes_done (f := h.frame) hq.2.2.2.1 hok hload k fin
  have hk := Acts.teams (loadLanes_acts (f := h.frame) hq.2.2.2.1 k sp al sync as hok fin) hdone
  have hact : ∃ acc, (jf h.frame).run h h.frame s = .done s1 (fin h.frame (bytesAt r.2.1 (foundByte s1 h.core))) [] [] acc := by
    rcases hrun with hrun | hrun <;> rw [hrun, hdone] <;> exact ⟨_, rfl⟩
  obtain ⟨acc, hact⟩ := hact
  obtain ⟨t, tm, fl, hnext, ht, hgo, hflight, hbytes, hneed, hwrites, ho, hmem⟩ := issueJob_sent (i := i) (sw := sw) hq hw hr hlate hk hact
  have hsame : SameLines s1 t := .of_outside ho hmem
  refine ⟨t, tm, fl, he.trans hnext, ht, hgo, hflight, hbytes, hneed, hwrites.trans (congrArg _ (bytesAt_congr fun x hx => ?_)),
    ((SeenBut.of_lines (countBanks_sameLines _ _ _)).trans hseen).trans (.of_lines hsame)⟩
  rw [foundByte, foundByte, hsame.seenByte, hsame.ownByte _ (hloc.spot hx).2]

/-- A synchronising load of local lines without a tag that a job performs with `loadLanes`. -/
theorem lands_sync (hq : Quiet s h) (hw : NoWatch h) (hr : Ready jf h.frame) (he : exec i s = issueJob i sw jf s)
    (hlate : (jf h.frame).late = true) (k : Option Nat) {sc : Scope} (hbeyond : beyondCore sync h.tm.mode.sc = some sc)
    (hok : (placeAll s h sp .read al as).2.2 = []) (hloc : AllLocal (placeAll s h sp .read al as).2.1)
    (htag : ∀ x ∈ (placeAll s h sp .read al as).2.1.flatMap Placed.spots, tagOf (placeAll s h sp .read al as).1 (lineOf x.pa) = none)
    (hrun : (jf h.frame).run h h.frame s = loadLanes h h.frame s k sp al sync as fin
      ∨ (jf h.frame).run h h.frame s = (loadLanes h h.frame s k sp al sync as fin).uniform h.frame) :
    let r := placeAll s h sp .read al as
    Lands i s h (fun t => fin h.frame (bytesAt r.2.1 fun x => (ownByte t h.core x.pa).getD 0))
      fun t => t.mem = r.1.mem ∧ (r.2.1.flatMap Placed.spots ≠ [] → Invalidated t h.core h.asid) := by
  intro r
  obtain ⟨cs, ts, hcount⟩ := countBanks_eq r.1 h.t r.2.1
  obtain ⟨s1, hload, hmem1, hinv⟩ := loadPlaced_sync (s := countBanks r.1 h.t r.2.1) (h := h) (sc := sc) hloc fun x hx => by
    rw [hcount]
    exact htag x hx
  rw [← hbeyond] at hload
  have hdone := loadLanes_done (f := h.frame) hq.2.2.2.1 hok hload k fin
  have hk := Acts.teams (loadLanes_acts (f := h.frame) hq.2.2.2.1 k sp al sync as hok fin) hdone
  have hact : ∃ acc, (jf h.frame).run h h.frame s
      = .done s1 (fin h.frame (bytesAt r.2.1 fun x => (ownByte s1 h.core x.pa).getD 0)) [] [] acc := by
    rcases hrun with hrun | hrun <;> rw [hrun, hdone] <;> exact ⟨_, rfl⟩
  obtain ⟨acc, hact⟩ := hact
  obtain ⟨t, tm, fl, hnext, ht, hgo, hflight, hbytes, hneed, hwrites, ho, hmem⟩ := issueJob_sent (i := i) (sw := sw) hq hw hr hlate hk hact
  have hsame : SameLines s1 t := .of_outside ho hmem
  refine ⟨t, tm, fl, he.trans hnext, ht, hgo, hflight, hbytes, hneed, hwrites.trans (congrArg _ (bytesAt_congr fun x hx => ?_)),
    hmem.trans (hmem1.trans (countBanks_sameLines _ _ _).mem), fun hne => (hinv hne).of_lines hsame⟩
  rw [hsame.ownByte _ (hloc.spot hx).2]

end

/-! ## The constant path (R125) -/

/-- The line of an ASID that a core's constant cache holds. -/
def constOn (s : State) (core line asid : Nat) : Option CLine :=
  (s.cores[core]?).bind fun c => c.ccache.find? fun y => y.line == line && y.asid == asid

theorem constByte_eq (s : State) (h : Here) (x : Spot) :
    constByte s h x = (constOn s h.core (lineOf x.pa) h.asid).map fun y => sget y.data (x.pa % 128) := rfl

/-- The line of local bytes that a core's constant cache holds, or takes from home. -/
def constLine (s : State) (core line asid : Nat) : CLine := (constOn s core line asid).getD ⟨line, asid, lineData s.mem line⟩

theorem l1Of_modCore_keep (s : State) (core : Nat) {f : Core → Core} (hf : ∀ c, (f c).l1 = c.l1) (k : Nat) :
    l1Of (s.modCore core f) k = l1Of s k := by
  rw [l1Of, State.modCore_cores, getElem?_modAt, l1Of]
  split
  · cases s.cores[k]? with
    | none => rfl
    | some c => exact hf c
  · rfl

/-- The constant cache after a line has been asked for. -/
theorem constFill_spec {s : State} {core asid line : Nat} (hc : core < s.cores.length) (hloc : importedLine line = false) :
    SameLines s (constFill s core asid line) ∧ (constFill s core asid line).cores.length = s.cores.length
      ∧ ∀ l, constOn (constFill s core asid line) core l asid
          = if l = line then some (constLine s core line asid) else constOn s core l asid := by
  have hcore : s.cores[core]? = some s.cores[core] := List.getElem?_eq_getElem hc
  have hdata : fillData s core line = some (lineData s.mem line) := by rw [fillData, hloc]; rfl
  unfold constFill
  dsimp only
  rw [hcore, hdata]
  split
  · rename_i hheld
    refine ⟨.refl s, rfl, fun l => ?_⟩
    split
    · rename_i hl
      obtain ⟨y, hy⟩ := Option.isSome_iff_exists.mp (List.find?_isSome.mpr (List.any_eq_true.mp hheld))
      rw [constLine, constOn, constOn, hcore, hl, Option.bind_some, hy]
      rfl
    · rfl
  · rename_i hheld
    have hnone : constOn s core line asid = none := by
      rw [constOn, hcore]
      exact List.find?_eq_none.mpr fun y hy hyl => hheld (List.any_eq_true.mpr ⟨y, hy, hyl⟩)
    dsimp only
    refine ⟨⟨fun k => l1Of_modCore_keep (mscRead s line) core (by exact fun _ => rfl) k, rfl⟩, length_modAt .., fun l => ?_⟩
    have hread : (mscRead s line).cores[core]? = some s.cores[core] := hcore
    rw [constLine, hnone, constOn, State.modCore_cores, getElem?_modAt, if_pos rfl, hread, constOn, hcore]
    simp only [Option.map_some, Option.bind_some, Option.getD_none]
    by_cases hl : l = line
    · rw [if_pos hl, hl]
      exact List.find?_cons_of_pos (by simp)
    · rw [if_neg hl]
      exact List.find?_cons_of_neg (by simpa using Ne.symm hl)

theorem foldl_constFill {s : State} {core asid : Nat} (hc : core < s.cores.length) {ls : List Nat}
    (hloc : ∀ l ∈ ls, importedLine l = false) :
    let t := ls.foldl (fun s l => constFill s core asid l) s
    SameLines s t ∧ t.cores.length = s.cores.length
      ∧ ∀ l, constOn t core l asid = if l ∈ ls then some (constLine s core l asid) else constOn s core l asid := by
  induction ls using List.reverseRecOn with
  | nil => exact ⟨.refl s, rfl, fun l => by simp⟩
  | append_singleton ls k ih =>
    obtain ⟨hsame, hlen, hon⟩ := ih fun l hl => hloc l (List.mem_append_left _ hl)
    simp only [List.foldl_append, List.foldl_cons, List.foldl_nil]
    obtain ⟨hsame', hlen', hon'⟩ := constFill_spec (asid := asid) (by rw [hlen]; exact hc) (hloc k (List.mem_append_right _ List.mem_cons_self))
    refine ⟨hsame.trans hsame', hlen'.trans hlen, fun l => ?_⟩
    rw [hon' l]
    by_cases hl : l = k
    · have hline : constLine (ls.foldl (fun s l => constFill s core asid l) s) core k asid = constLine s core k asid := by
        rw [constLine, hon k, hsame.mem]
        split <;> rfl
      rw [if_pos hl, hl, if_pos (List.mem_append_right _ List.mem_cons_self), hline]
    · simp [hl, hon l]

/-- The byte that `ldc` finds (R125): what the core's constant cache holds of the line, or the byte at home. -/
def constFound (s : State) (h : Here) (x : Spot) : Byte := (constByte s h x).getD (sget s.mem x.pa)

theorem constByte_filled {s t : State} {h : Here} {x : Spot}
    (ht : constOn t h.core (lineOf x.pa) h.asid = some (constLine s h.core (lineOf x.pa) h.asid)) :
    constByte t h x = some (constFound s h x) := by
  rw [constByte_eq, ht, Option.map_some, constFound, constByte_eq, constLine]
  cases constOn s h.core (lineOf x.pa) h.asid with
  | some y => rfl
  | none =>
    refine congrArg some ((sget_lineData _ _ _ (by omega)).trans (congrArg _ ?_))
    unfold lineOf
    omega

/-- `ldc` of local pages. -/
theorem lands_const {s : State} {h : Here} {sw : Bool} {d : Dst} {a : Base} {o : Offset} {m : MemForm} (hq : Quiet s h) (hw : NoWatch h)
    (hr : Ready (jobLdc d a o m) h.frame) :
    let r := placeAll s h (.glob false) .read (formAlign h.frame.mode.t m) (globAccs h.frame a o (formBytes h.frame.mode.t m))
    r.2.2 = [] → AllLocal r.2.1 → h.core < r.1.cores.length →
      Lands (.ldc sw d a o m) s h (fun _ => loadFin d m h.frame (bytesAt r.2.1 (constFound r.1 h))) fun t => SameLines r.1 t := by
  intro r hok hloc hcore
  obtain ⟨hfill, -, hon⟩ := foldl_constFill (asid := h.asid) (ls := linesOf (r.2.1.flatMap Placed.spots)) hcore fun l hl => by
    obtain ⟨x, hx, rfl⟩ := mem_linesOf.mp hl
    exact importedLine_local (hloc.spot hx).2
  have hgather := gather_local (nextOwner h) hloc (constFound r.1 h) (get := constByte) fun x hx =>
    constByte_filled (by rw [hon, if_pos (mem_linesOf.mpr ⟨x, hx, rfl⟩)])
  have hdone : ldcRun d a o m h h.frame s = .done ((linesOf (r.2.1.flatMap Placed.spots)).foldl (fun s l => constFill s h.core h.asid l) r.1)
      (loadFin d m h.frame (bytesAt r.2.1 (constFound r.1 h))) [] []
      (touches (globAccs h.frame a o (formBytes h.frame.mode.t m)) true false) := by
    rw [ldcRun]
    dsimp only
    rw [hok, pickFault_nil]
    dsimp only
    rw [hgather, noteImported_local fun x hx => (hloc.spot hx).1]
    simp [finish, bytesAt]
  obtain ⟨t, tm, fl, hnext, ht, hgo, hflight, hbytes, hneed, hwrites, ho, hmem⟩ :=
    issueJob_sent (i := .ldc sw d a o m) (sw := sw) hq hw hr rfl (Acts.teams (ldcRun_acts d a o m hok) hdone) hdone
  exact ⟨t, tm, fl, hnext, ht, hgo, hflight, hbytes, hneed, hwrites, hfill.trans (.of_outside ho hmem)⟩

/-! ## The acquire of one line (R173, R190) -/

theorem tagOf_setTag (s : State) {g : Tag} {line : Nat} (hline : g.line = line) : tagOf (setTag s g) line = some g := by
  rw [tagOf, setTag]
  exact List.find?_cons_of_pos (by simpa using hline)

theorem tagOf_line {s : State} {line : Nat} {g : Tag} (hg : tagOf s line = some g) : g.line = line := by
  simpa using List.find?_some hg

theorem tagOf_tags {s s' : State} (ht : s'.tags = s.tags) (line : Nat) : tagOf s' line = tagOf s line := by rw [tagOf, ht, tagOf]

section
variable {s : State} {core asid line : Nat} {sc : Scope} {g : Tag}

/-- No line of the core has a clean byte of the ASID on a page with P = 0 after an acquire of a line of which the core is not the
releaser. -/
theorem acquireLine_invalidated (hg : ∀ g, tagOf s line = some g → g.by_ ≠ .core core) {x : L1Line}
    (hx : x ∈ l1Of (acquireLine s core asid sc line).1 core) (ha : x.asid = asid) (hp : x.priv = false) : x.clean = none := by
  unfold acquireLine at hx
  split at hx
  · exact selfInvalidate_clean hx ha hp
  · rename_i t ht
    rw [if_neg (hg t ht)] at hx
    split at hx
    · split at hx
      · exact selfInvalidate_clean hx ha hp
      · exact selfInvalidate_clean hx ha hp
    · exact selfInvalidate_clean hx ha hp

/-- The acquire of a line that another core has released and that has not been cleared: that core is cleared. -/
theorem acquireLine_core {a : Nat} (hg : tagOf s line = some g) (ha : g.by_ = .core a) (hne : a ≠ core)
    (hmatch : scopesMatch g.by_ g.scope core sc = true) (hcleared : g.cleared = false) :
    acquireLine s core asid sc line
      = (selfInvalidate (setTag (clearCore s a g.asid) { g with cleared := true }) core asid, 1) := by
  rw [acquireLine, hg]
  simp [ha ▸ hmatch, hcleared, ha, hne]

theorem acquireLine_link {p : Fin 16} (hg : tagOf s line = some g) (hp : g.by_ = .link p)
    (hmatch : scopesMatch g.by_ g.scope core sc = true) (hcleared : g.cleared = false) :
    acquireLine s core asid sc line = (selfInvalidate (setTag s { g with cleared := true }) core asid, 0) := by
  rw [acquireLine, hg]
  simp [hp ▸ hmatch, hcleared, hp]

theorem acquireLine_other (hg : tagOf s line = some g) (hne : g.by_ ≠ .core core)
    (hno : scopesMatch g.by_ g.scope core sc = false ∨ g.cleared = true) :
    acquireLine s core asid sc line = (selfInvalidate s core asid, 0) := by
  have hcond : (scopesMatch g.by_ g.scope core sc && !g.cleared) = false := by rcases hno with h | h <;> simp [h]
  rw [acquireLine, hg]
  simp [hne, hcond]

end

/-- Settles O35: a load gathers what its core finds, fills and refreshes leave what cores find elsewhere, and an acquire clears the
releaser of its line. -/
theorem globalLoads : Obligations.GlobalLoads := by
  unfold Obligations.GlobalLoads
  refine ⟨fun sw i jf str o m s h hq hw hok hr => ?_, fun s core asid line sc hmok => ?_⟩
  · intro f size plain spots local_ own found num lane kept synced untagged lands
    have hwf := team_wf hq.1 hok
    have hplain (hp : plain) : beyondCore (m == .sync) h.tm.mode.sc = none := by
      rcases hp with hp | hp <;> simp [beyondCore, hp]
    have hsync (hp : ¬plain) : beyondCore (m == .sync) h.tm.mode.sc = some h.tm.mode.sc := by
      obtain ⟨hm, hsc⟩ := not_or.mp hp
      simp [beyondCore, not_not.mp hm, hsc]
    have hkept {r : State × List Placed × List LaneFault} {t : State} (ht : SeenBut (ReadPast h.core (spots r)) r.1 t) : kept r t :=
      ⟨fun p => by rw [ht.mem], fun k p hp hno => ht.seen k p hp fun ⟨hk, x, hx, hcach, hpa⟩ => hno hk x hx hcach hpa⟩
    have hsynced {r : State × List Placed × List LaneFault} {t : State} (ht : t.mem = r.1.mem)
        (hi : spots r ≠ [] → Invalidated t h.core h.asid) : synced r t :=
      ⟨fun p => by rw [ht], fun hne c x hc hx => (hi hne x (l1Of_some hc ▸ hx)).2⟩
    refine ⟨fun d a hi hjf => ?_, fun d a hi hjf => ?_, fun d a hi hjf => ?_⟩
    · subst hi hjf
      intro r holds hloc
      have haccs := placeAll_accs s h (.glob true) .read (formAlign f.mode.t m) (globAccs f a o size) hloc.1
      have hholds (t : State) (fl : InFlight) (g : Spot → Byte) (hfl : fl.writes = loadFin d m f (bytesAt r.2.1 g)) : holds fl g := by
        show LaneResult f (h.tm.regs.apply fl.writes) d _ _
        rw [hfl, bytesAt, loadFin_lanes hloc.2 haccs]
        exact laneResult_of (f := f) hwf
      refine ⟨fun hp => ?_, fun hp htag => ?_⟩
      · obtain ⟨t, tm, fl, hnext, ht, hgo, hflight, hbytes, hneed, hwrites, hseen⟩ :=
          lands_plain (i := .ld sw d a o str m) (sw := sw) hq hw hr rfl rfl (some str.val) (hplain hp) hloc.1 hloc.2 (.inl rfl)
        exact ⟨t, tm, fl, hnext, ht, hgo, hflight, hbytes, hneed, hholds t fl _ hwrites, hkept hseen⟩
      · obtain ⟨t, tm, fl, hnext, ht, hgo, hflight, hbytes, hneed, hwrites, hmem, hinv⟩ :=
          lands_sync (i := .ld sw d a o str m) (sw := sw) hq hw hr rfl rfl (some str.val) (hsync hp) hloc.1 hloc.2 htag (.inl rfl)
        exact ⟨t, tm, fl, hnext, ht, hgo, hflight, hbytes, hneed, hholds t fl _ hwrites, hsynced hmem hinv⟩
    · subst hi hjf
      intro r holds hloc
      obtain ⟨p, hp, -⟩ := List.map_eq_singleton_iff.mp (placeAll_accs s h (.glob true) .read (uniBytes m) (uniAccs f a o m) hloc.1)
      have hholds (t : State) (fl : InFlight) (g : Spot → Byte) (hfl : fl.writes = uldFin d f (bytesAt r.2.1 g)) : holds fl g := by
        show fl.writes = _
        rw [hfl, bytesAt, show r.2.1 = [p] from hp]
        simp [uldFin, num]
      refine ⟨fun hp => ?_, fun hp htag => ?_⟩
      · obtain ⟨t, tm, fl, hnext, ht, hgo, hflight, hbytes, hneed, hwrites, hseen⟩ :=
          lands_plain (i := .uld sw d a o str m) (sw := sw) hq hw hr rfl rfl (some str.val) (hplain hp) hloc.1 hloc.2 (.inr rfl)
        exact ⟨t, tm, fl, hnext, ht, hgo, hflight, hbytes, hneed, hholds t fl _ hwrites, hkept hseen⟩
      · obtain ⟨t, tm, fl, hnext, ht, hgo, hflight, hbytes, hneed, hwrites, hmem, hinv⟩ :=
          lands_sync (i := .uld sw d a o str m) (sw := sw) hq hw hr rfl rfl (some str.val) (hsync hp) hloc.1 hloc.2 htag (.inr rfl)
        exact ⟨t, tm, fl, hnext, ht, hgo, hflight, hbytes, hneed, hholds t fl _ hwrites, hsynced hmem hinv⟩
    · subst hi hjf
      intro r const hloc hcore
      have haccs := placeAll_accs s h (.glob false) .read (formAlign f.mode.t m) (globAccs f a o size) hloc.1
      obtain ⟨t, tm, fl, hnext, ht, hgo, hflight, hbytes, hneed, hwrites, hsame⟩ := lands_const (sw := sw) hq hw hr hloc.1 hloc.2 hcore
      refine ⟨t, tm, fl, hnext, ht, hgo, hflight, hbytes, hneed, ?_, fun p => by rw [hsame.mem], fun k p => hsame.seenByte k p⟩
      rw [hwrites, bytesAt, loadFin_lanes hloc.2 haccs]
      exact laneResult_of (f := f) hwf
  · intro r invalid
    have hinvalid (hno : ∀ g, tagOf s line = some g → g.by_ ≠ .core core) : invalid r.1 := fun c x hc hx ha hp =>
      acquireLine_invalidated hno (l1Of_some hc ▸ hx) ha hp
    refine ⟨fun hnone => ?_, fun g hg => ⟨fun hself => ?_, fun hne => hinvalid fun g' hg' => ?_, fun a ha hac hmatch hcleared => ?_,
      fun p hp hmatch hcleared => ?_, fun hne hno => ?_⟩⟩
    · have hr : r = (selfInvalidate s core asid, 0) := by
        show acquireLine s core asid sc line = _
        rw [acquireLine, hnone]
      exact ⟨hinvalid fun g hg => absurd (hnone.symm.trans hg) (by simp), by rw [hr], by rw [hr]; exact dropClean_mem _ _ _⟩
    · show acquireLine s core asid sc line = _
      rw [acquireLine, hg]
      exact if_pos hself
    · rw [hg] at hg'
      cases hg'
      exact hne
    · intro d
      have hr : r = _ := acquireLine_core hg ha hac hmatch hcleared
      rw [hr]
      refine ⟨rfl, ?_, fun c x hc hx hasid => ?_, fun hone hplain => ?_⟩
      · exact (tagOf_tags (dropClean_tags _ _ _) line).trans (tagOf_setTag _ (show g.line = line from tagOf_line hg))
      · rw [selfInvalidate, dropClean_others _ _ _ hac] at hc
        exact writeBackWhere_clean s a (fun x => x.asid == g.asid) (l1Of_some hc ▸ hx) (by simpa using hasid)
      · show Reached d s.mem (selfInvalidate _ core asid).mem
        rw [selfInvalidate, dropClean_mem]
        exact writeBackWhere_reached a _ hmok hone hplain
    · have hr : r = _ := acquireLine_link hg hp hmatch hcleared
      rw [hr]
      refine ⟨rfl, dropClean_mem _ _ _, ?_⟩
      exact (tagOf_tags (dropClean_tags _ _ _) line).trans (tagOf_setTag _ (show g.line = line from tagOf_line hg))
    · have hr : r = _ := acquireLine_other hg hne hno
      rw [hr]
      exact ⟨rfl, dropClean_mem _ _ _, dropClean_tags _ _ _⟩

end Sys2Proof.Proofs.Loads
end

section
/-! Certificates for the family spec/06_instructions_memory.md: a global store beside a copy that is not in its canonical form (R172). -/
namespace Sys2Proof.Proofs.StaleCopy
open Sys2Proof Sys2Proof.Machine

/-- A machine of one team whose core's L1 holds a clean copy of the line at 0x100020040000, with the bytes 1 at offset 5 and 2 at offset 3
listed in falling order, and whose s6 holds the line's virtual address. -/
def machine : State :=
  ((State.reset.withFetchWord 32 0).modTeam 0 fun tm =>
      { tm with regs := tm.regs.uset 6 0x40000, mode := { tm.mode with sc := .quad } }).modCore 0 fun c =>
    { c with l1 := [⟨lineOf 0x100020040000, 0, false, some [(5, 1), (3, 2)], [], []⟩] }

/-- The release of the zero in s1 to the line. -/
def store : Instr := .ust false (.s 1) 6 none 0 .sync

/-- The accesses of the store, placed. -/
def placed (h : Here) : State × List Placed × List LaneFault :=
  placeAll machine h (.glob true) .write (uniBytes .sync) (uniAccs h.frame 6 none .sync)

/-- The bytes that it stores, with their places. -/
def stored (h : Here) : List (Spot × Byte) :=
  (placed h).2.1.flatMap fun p => p.spots.zip (bytesOf (uniBytes .sync) (usrcVal h.frame (.s 1)).toNat)

/-- Its team is quiet and can use its operands, at QUAD scope on core 0. -/
def canIssue (h : Here) : Bool :=
  h.tm.claims.isEmpty && h.tm.residues.isEmpty && h.tm.inflight.isEmpty && !h.tm.stalled
    && (h.cx.comps.all fun c => c.action != 1 && c.action != 2)
    && (jobUst (.s 1) 6 none 0 .sync h.frame).ok h.frame && (jobUst (.s 1) 6 none 0 .sync h.frame).spansOk
    && (jobUst (.s 1) 6 none 0 .sync h.frame).check h.frame == none
    && ((jobUst (.s 1) 6 none 0 .sync h.frame).badLanes h.frame ((jobUst (.s 1) 6 none 0 .sync h.frame).lanesIn h.frame)).isEmpty
    && h.tm.mode.sc == .quad && h.core == 0

/-- It goes to plain bytes of local memory, in lines without a tag. -/
def goesHome (h : Here) : Bool :=
  (placed h).2.2.isEmpty && ((placed h).2.1.all fun p => p.spots.all fun x => !x.x.imp && decide (x.pa < apertureBase))
    && decide (h.core < (placed h).1.cores.length)
    && (placed h).1.ctxs.all (Laws.plainRec ((stored h).map fun p => p.1.pa))
    && (placed h).1.queues.all (Laws.plainFor (placed h).1 ((stored h).map fun p => p.1.pa))
    && ((stored h).all fun p => (tagOf (placed h).1 (lineOf p.1.pa)).isNone)

/-- Its fourth byte is a zero, and the last for its address. -/
def fourthIsZero (h : Here) : Bool :=
  match (stored h).drop 3 with
  | p :: later => p.1.pa == 0x100020040003 && p.2 == 0 && later.all fun q => q.1.pa != p.1.pa
  | [] => false

theorem issuing_machine : ∃ h, issuing machine = some h ∧ canIssue h = true ∧ goesHome h = true ∧ fourthIsZero h = true := by
  have hrun : (match issuing machine with
      | some h => canIssue h && goesHome h && fourthIsZero h
      | none => false) = true := by decide +kernel
  cases hi : issuing machine with
  | none => rw [hi] at hrun; cases hrun
  | some h =>
    rw [hi] at hrun
    simp only [Bool.and_eq_true] at hrun
    exact ⟨h, rfl, hrun.1.1, hrun.1.2, hrun.2⟩

/-- The core then finds 2 where home has the zero: a write below a key that is out of order is no write. -/
theorem seen_after_store : ∃ t, exec store machine = .next t ∧ seenByte t 0 0x100020040003 = 2 := by
  have hrun : (match exec store machine with
      | .next t => seenByte t 0 0x100020040003 == 2
      | _ => false) = true := by decide +kernel
  split at hrun
  · rename_i t ht
    exact ⟨t, ht, by simpa using hrun⟩
  · cases hrun

theorem canIssue_spec {h : Here} (hi : issuing machine = some h) (hc : canIssue h = true) :
    Quiet machine h ∧ NoWatch h ∧ Ready (jobUst (.s 1) 6 none 0 .sync) h.frame ∧ h.tm.mode.sc = .quad ∧ h.core = 0 := by
  simp only [canIssue, Bool.and_eq_true, List.isEmpty_iff, Bool.not_eq_true', beq_iff_eq] at hc
  obtain ⟨⟨⟨⟨⟨⟨⟨⟨⟨⟨hclaims, hres⟩, hflight⟩, hstalled⟩, hcomps⟩, hok⟩, hspans⟩, hcheck⟩, hbad⟩, hsc⟩, hcore⟩ := hc
  refine ⟨⟨hi, hclaims, hres, hflight, hstalled⟩, fun c hcm => ?_, ⟨hok, hspans, hcheck, hbad⟩, hsc, hcore⟩
  simpa using List.all_eq_true.mp hcomps c hcm

theorem goesHome_spec {h : Here} (hc : goesHome h = true) :
    ((placed h).2.2 = [] ∧ ∀ p ∈ (placed h).2.1, ∀ x ∈ p.spots, x.x.imp = false ∧ x.pa < apertureBase) ∧ h.core < (placed h).1.cores.length
      ∧ PlainAt (placed h).1 ((stored h).map fun p => p.1.pa) ∧ ∀ p ∈ stored h, tagOf (placed h).1 (lineOf p.1.pa) = none := by
  simp only [goesHome, Bool.and_eq_true, List.isEmpty_iff, decide_eq_true_eq] at hc
  obtain ⟨⟨⟨⟨⟨hok, hloc⟩, hcore⟩, hctxs⟩, hqueues⟩, htags⟩ := hc
  refine ⟨⟨hok, fun p hp x hx => ?_⟩, hcore, Laws.plainAt_of hctxs hqueues, fun p hp => ?_⟩
  · simpa using List.all_eq_true.mp (List.all_eq_true.mp hloc p hp) x hx
  · simpa using List.all_eq_true.mp htags p hp

/-- The fourth byte, with those before and after it. -/
theorem fourthIsZero_spec {h : Here} (hc : fourthIsZero h = true) :
    ∃ before p later, stored h = before ++ p :: later ∧ (∀ q ∈ later, q.1.pa ≠ p.1.pa) ∧ p.1.pa = 0x100020040003 ∧ p.2 = 0 := by
  unfold fourthIsZero at hc
  split at hc
  · rename_i p later hdrop
    simp only [Bool.and_eq_true, beq_iff_eq] at hc
    obtain ⟨⟨hpa, hzero⟩, hlater⟩ := hc
    refine ⟨(stored h).take 3, p, later, ?_, fun q hq => ?_, hpa, hzero⟩
    · rw [← hdrop, List.take_append_drop]
    · simpa using List.all_eq_true.mp hlater q hq
  · cases hc

/-- Refutes O36: nothing asks that the clean copies of the core's L1 be in their canonical form. Where the copy of the line lists its
bytes out of order, the zero that a release stores reaches its home, but not the copy, where the core still finds the byte 2. -/
theorem not_globalStores : ¬ Obligations.GlobalStores := by
  unfold Obligations.GlobalStores
  intro hall
  obtain ⟨h, hi, hissue, hhome, hfourth⟩ := issuing_machine
  obtain ⟨hq, hw, hr, hsc, hcore⟩ := canIssue_spec hi hissue
  obtain ⟨hloc, hlen, hplain, htags⟩ := goesHome_spec hhome
  obtain ⟨before, p, later, hstored, hlast, hpa, hzero⟩ := fourthIsZero_spec hfourth
  obtain ⟨t, hexec, htwo⟩ := seen_after_store
  have hmem : MemoryOk machine := by unfold MemoryOk; decide +kernel
  obtain ⟨-, hust⟩ := hall.1 false store (jobUst (.s 1) 6 none 0 .sync) 0 none .sync machine h hq hw hr hmem
  obtain ⟨-, hrelease⟩ := hust (.s 1) 6 rfl rfl hloc hlen
  have hscope : ¬((MemForm.sync ≠ .sync) ∨ h.tm.mode.sc = .core) := by rw [hsc]; decide
  obtain ⟨t', -, hexec', -, -, -, hends, -⟩ := hrelease hscope (fun hpod => by rw [hsc] at hpod; cases hpod) hplain
    fun q hq g hg => absurd ((htags q hq).symm.trans hg) (by simp)
  have hsame : t' = t := by injection hexec'.symm.trans hexec
  have hseen : seenByte t h.core p.1.pa = p.2 := hsame ▸ (hends p ⟨before, later, hstored, hlast⟩).2
  rw [hcore, hpa, hzero, htwo] at hseen
  exact absurd hseen (by decide)

end Sys2Proof.Proofs.StaleCopy
end

section
/-! Certificates for the family spec/06_instructions_memory.md: atomics at home (R128 to R131, R172, R178). -/
namespace Sys2Proof.Proofs.WriteBacks
open Sys2Proof Sys2Proof.Machine

/-! ## States with the same records (R294, R318) -/

/-- The queues, the configuration and, but for FHEAD, the contexts of a state: what the records at home take a write by. -/
structure RecordsKept (s s' : State) : Prop where
  queues : s'.queues = s.queues
  cfg    : s'.cfg = s.cfg
  ctxs   : s'.ctxs.map withoutHead = s.ctxs.map withoutHead

theorem RecordsKept.refl (s : State) : RecordsKept s s := ⟨rfl, rfl, rfl⟩
theorem RecordsKept.trans {a b c : State} (h : RecordsKept a b) (k : RecordsKept b c) : RecordsKept a c :=
  ⟨k.queues.trans h.queues, k.cfg.trans h.cfg, k.ctxs.trans h.ctxs⟩
theorem HomeFrame.records {s s' : State} (h : HomeFrame s s') : RecordsKept s s' := ⟨h.queues, h.cfg, h.ctxs⟩
theorem RecordsKept.of_eq {s s' : State} (hq : s'.queues = s.queues) (hcfg : s'.cfg = s.cfg) (hx : s'.ctxs = s.ctxs) : RecordsKept s s' :=
  ⟨hq, hcfg, by rw [hx]⟩
theorem RecordsKept.foldl {α : Type} {f : State → α → State} (hf : ∀ s x, RecordsKept s (f s x)) (l : List α) (s : State) :
    RecordsKept s (l.foldl f s) :=
  List.foldlRecOn l f (.refl s) fun _ hx y _ => hx.trans (hf _ y)

theorem RecordsKept.dropClean (s : State) (core : Nat) (p : L1Line → Bool) : RecordsKept s (dropClean s core p) := by
  have hwake (s : State) (ls : List Nat) : RecordsKept s (wakeCore s core ls) := by
    unfold wakeCore
    split <;> exact .of_eq rfl rfl rfl
  unfold Machine.dropClean
  split
  · exact (RecordsKept.of_eq (s := s) (s' := s.modCore core _) rfl rfl rfl).trans (hwake _ _)
  · exact .refl s

theorem RecordsKept.l1Update (s : State) (core : Nat) (ws : List (Nat × Byte)) : RecordsKept s (l1Update s core ws) := by
  refine .foldl (fun t p => ?_) ws s
  split
  · split <;> exact .of_eq rfl rfl rfl
  · exact .refl t

theorem RecordsKept.l1Clean (s : State) (core : Nat) (ws : List (Nat × Byte)) : RecordsKept s (l1Clean s core ws) := by
  refine .foldl (fun t p => ?_) ws s
  split
  · exact .of_eq rfl rfl rfl
  · exact .refl t

/-- Plain addresses stay plain in a state with the same records, whatever has been written at them (R294, R318). -/
theorem recordWrite_kept {s s' : State} {as : List Nat} (hp : PlainAt s as) (hk : RecordsKept s s')
    (hm : ∀ a, a ∉ as → sget s'.mem a = sget s.mem a) {ws : List (Nat × Byte)} (hws : ∀ a ∈ ws.map (·.1), a ∈ as) :
    recordWrite s' ws = ws := by
  have hsame : SameRecords as s { s with mem := s'.mem, queues := s'.queues, cfg := s'.cfg, ctxs := s'.ctxs } :=
    ⟨⟨.of_eq rfl, fun _ => rfl, hk.queues, hk.cfg, hk.ctxs⟩, hm⟩
  exact recordWrite_plain hp hsame hws

end Sys2Proof.Proofs.WriteBacks

namespace Sys2Proof.Proofs.Atomics
open Sys2Proof Sys2Proof.Machine Sys2Proof.Proofs.Scope Sys2Proof.Proofs.Scratchpads Sys2Proof.Proofs.WriteBacks Sys2Proof.Proofs.Accesses
  Sys2Proof.Proofs.Caches Sys2Proof.Proofs.Loads

/-! ## The lanes of one element (R131) -/

/-- The value that lanes leave, each acting on the one before. -/
def chain (k : AtomKind) (ls : List Nat) (v : Nat) : Nat := ls.foldl (fun v l => k.new l v) v

theorem applyLanes_left (k : AtomKind) : ∀ (ls : List Nat) (v : Nat), (applyLanes k ls v).2 = chain k ls v
  | [], _ => rfl
  | l :: ls, v => applyLanes_left k ls (k.new l v)

theorem applyLanes_lanes (k : AtomKind) : ∀ (ls : List Nat) (v : Nat), (applyLanes k ls v).1.map (·.1) = ls
  | [], _ => rfl
  | l :: ls, v => by rw [applyLanes, List.map_cons, applyLanes_lanes k ls]

/-- A lane finds what the lanes before it have left. -/
theorem applyLanes_find (k : AtomKind) {l : Nat} : ∀ {ls : List Nat} (v : Nat), ls.Pairwise (· < ·) → l ∈ ls →
    (applyLanes k ls v).1.find? (fun x => x.1 = l) = some (l, chain k (ls.filter fun j => decide (j < l)) v)
  | [], _, _, hl => absurd hl List.not_mem_nil
  | j :: ls, v, hs, hl => by
    obtain ⟨hj, hs⟩ := List.pairwise_cons.mp hs
    rw [applyLanes]
    by_cases he : j = l
    · subst he
      have hnone : (j :: ls).filter (fun i => decide (i < j)) = [] := List.filter_eq_nil_iff.mpr fun i hi => by
        rcases List.mem_cons.mp hi with rfl | hi
        · simp
        · have := hj i hi
          simp; omega
      rw [hnone, List.find?_cons_of_pos (by simp)]
      rfl
    · have hmem : l ∈ ls := (List.mem_cons.mp hl).resolve_left (Ne.symm he)
      rw [List.find?_cons_of_neg (by simpa using he), applyLanes_find k _ hs hmem, List.filter_cons_of_pos (by simpa using hj l hmem)]
      rfl

/-! ## The elements of an access, one after another -/

theorem nodup_eraseDups {α : Type} [BEq α] [LawfulBEq α] : ∀ l : List α, l.eraseDups.Nodup
  | [] => List.nodup_nil
  | x :: l => by
    rw [List.eraseDups_cons, List.nodup_cons, List.mem_eraseDups]
    exact ⟨by simp, nodup_eraseDups _⟩
termination_by l => l.length
decreasing_by exact Nat.lt_succ_of_le (List.length_filter_le _ _)

/-- The value of an element. -/
def elemVal (s : State) (size : Nat) : ElemAt → Nat
  | .glob pa => readNat s.mem pa size
  | .spad c off => readNat (spadOf s c) off size

/-- What the lanes of an element find, each with its old value's bytes. -/
def oldBytes (k : AtomKind) (size : Nat) (ls : List Nat) (v : Nat) : List (Nat × List PByte) :=
  (applyLanes k ls v).1.map fun x => (x.1, (bytesOf size x.2).map PByte.known)

section
variable {h : Here} {k : AtomKind} {sync : Option Scope} {size : Nat} {on : List Nat} {E : Nat → ElemAt} {at_ : ElemAt → List Placed}
  {inv : State → Prop} {post : ElemAt → State → Prop} {all : List ElemAt}

/-- The lanes that address an element. -/
def lanesOn (on : List Nat) (E : Nat → ElemAt) (e : ElemAt) : List Nat := on.filter fun l => E l = e

/-- What one element's atomic does, of those of an access: it gives its lanes what they find, leaves its value, and leaves the other
elements alone; an invariant holds on, and what has been reached for an element stays. -/
def ElemStep (h : Here) (k : AtomKind) (sync : Option Scope) (size : Nat) (on : List Nat) (E : Nat → ElemAt) (at_ : ElemAt → List Placed)
    (inv : State → Prop) (post : ElemAt → State → Prop) (all : List ElemAt) : Prop :=
  ∀ (t : State) (e : ElemAt), inv t → e ∈ all → ∃ t', atomElem t h k sync size e (at_ e)
      = (t', oldBytes k size (lanesOn on E e) (elemVal t size e), [])
    ∧ inv t' ∧ post e t' ∧ elemVal t' size e = chain k (lanesOn on E e) (elemVal t size e) % 2 ^ (8 * size)
    ∧ ∀ e' ∈ all, e' ≠ e → elemVal t' size e' = elemVal t size e' ∧ (post e' t → post e' t')

theorem foldl_atomElem (hstep : ElemStep h k sync size on E at_ inv post all) : ∀ {es : List ElemAt}, es.Nodup → (∀ e ∈ es, e ∈ all) →
    ∀ {s : State} (olds : List (Nat × List PByte)), inv s →
    ∃ t, es.foldl (fun (st : State × List (Nat × List PByte) × List Nat) e =>
        let r := atomElem st.1 h k sync size e (at_ e)
        (r.1, st.2.1 ++ r.2.1, st.2.2 ++ r.2.2)) (s, olds, [])
          = (t, olds ++ es.flatMap (fun e => oldBytes k size (lanesOn on E e) (elemVal s size e)), [])
      ∧ inv t ∧ (∀ e ∈ es, post e t ∧ elemVal t size e = chain k (lanesOn on E e) (elemVal s size e) % 2 ^ (8 * size))
      ∧ ∀ e ∈ all, e ∉ es → elemVal t size e = elemVal s size e ∧ (post e s → post e t)
  | [], _, _, s, olds, hs => ⟨s, by simp, hs, fun _ he => absurd he List.not_mem_nil, fun _ _ _ => ⟨rfl, id⟩⟩
  | e :: es, hnd, hall, s, olds, hs => by
    obtain ⟨he, hnd⟩ := List.nodup_cons.mp hnd
    obtain ⟨t1, hrun, hinv, hpost, hval, hothers⟩ := hstep s e hs (hall e List.mem_cons_self)
    obtain ⟨t, hfold, hinv', hdone, hrest⟩ := foldl_atomElem hstep hnd (fun e' he' => hall e' (List.mem_cons_of_mem _ he'))
      (olds ++ oldBytes k size (lanesOn on E e) (elemVal s size e)) hinv
    have hlater (e' : ElemAt) (he' : e' ∈ es) : elemVal t1 size e' = elemVal s size e' :=
      (hothers e' (hall e' (List.mem_cons_of_mem _ he')) fun heq => he (heq ▸ he')).1
    refine ⟨t, ?_, hinv', fun e' he' => ?_, fun e' he' hno => ?_⟩
    · rw [List.foldl_cons, hrun]
      refine hfold.trans ?_
      rw [List.flatMap_cons, List.append_assoc, List.flatMap_congr fun e' he' => by rw [hlater e' he']]
    · rcases List.mem_cons.mp he' with rfl | he'
      · obtain ⟨hkeep, hkept⟩ := hrest e' (hall e' List.mem_cons_self) he
        exact ⟨hkept hpost, hkeep.trans hval⟩
      · obtain ⟨hp, hv⟩ := hdone e' he'
        exact ⟨hp, by rw [hv, hlater e' he']⟩
    · obtain ⟨hne, hnes⟩ := not_or.mp fun hor => hno (List.mem_cons.mpr hor)
      obtain ⟨hkeep, hkept⟩ := hrest e' he' hnes
      obtain ⟨hkeep1, hkept1⟩ := hothers e' he' hne
      exact ⟨hkeep.trans hkeep1, fun hp => hkept (hkept1 hp)⟩

/-- The atomics of an access whose placed accesses are those of the lanes. -/
theorem atomElems_spec {P : Nat → Placed} (helem : ∀ l, (P l).elemAt = E l)
    (hstep : ElemStep h k sync size on E (fun e => (on.map P).filter fun p => p.elemAt = e) inv post (on.map E)) {s : State} (hs : inv s) :
    ∃ t, atomElems s h k sync size (on.map P)
        = (t, (on.map E).eraseDups.flatMap (fun e => oldBytes k size (lanesOn on E e) (elemVal s size e)), [])
      ∧ inv t ∧ ∀ l ∈ on, post (E l) t ∧ elemVal t size (E l) = chain k (lanesOn on E (E l)) (elemVal s size (E l)) % 2 ^ (8 * size) := by
  have helems : ((on.map P).map Placed.elemAt).eraseDups = (on.map E).eraseDups := by
    rw [List.map_map]
    exact congrArg _ (List.map_congr_left fun l _ => helem l)
  obtain ⟨t, hfold, hinv, hdone, -⟩ := foldl_atomElem hstep (es := (on.map E).eraseDups) (nodup_eraseDups _)
    (fun e he => List.mem_eraseDups.mp he) [] hs
  refine ⟨t, ?_, hinv, fun l hl => hdone _ (List.mem_eraseDups.mpr (List.mem_map_of_mem hl))⟩
  rw [atomElems, helems]
  exact hfold

/-- A lane takes the old value of its element. -/
theorem find_oldBytes {V : ElemAt → Nat} (hs : on.Pairwise (· < ·)) {l : Nat} (hl : l ∈ on) :
    ((on.map E).eraseDups.flatMap fun e => oldBytes k size (lanesOn on E e) (V e)).find? (fun x => x.1 = l)
      = some (l, (bytesOf size (chain k ((lanesOn on E (E l)).filter fun j => decide (j < l)) (V (E l)))).map PByte.known) := by
  have hblock (e : ElemAt) : (oldBytes k size (lanesOn on E e) (V e)).find? (fun x => x.1 = l)
      = if e = E l then some (l, (bytesOf size (chain k ((lanesOn on E (E l)).filter fun j => decide (j < l)) (V (E l)))).map PByte.known)
        else none := by
    rw [oldBytes, List.find?_map]
    split
    · rename_i he
      subst he
      have hfind := applyLanes_find k (V (E l)) (hs.filter fun j => E j = E l) (List.mem_filter.mpr ⟨hl, by simp⟩)
      rw [lanesOn]
      simp only [Function.comp_def]
      rw [hfind]
      rfl
    · rename_i he
      rw [Option.map_eq_none_iff, List.find?_eq_none]
      intro x hx hxl
      have hmem : x.1 ∈ lanesOn on E e := applyLanes_lanes k (lanesOn on E e) (V e) ▸ List.mem_map_of_mem hx
      have hxe : x.1 = l := by simpa using hxl
      have hEl : E l = e := by simpa [hxe] using (List.mem_filter.mp hmem).2
      exact he hEl.symm
  have hfind (es : List ElemAt) (he : E l ∈ es) : (es.flatMap fun e => oldBytes k size (lanesOn on E e) (V e)).find? (fun x => x.1 = l)
      = some (l, (bytesOf size (chain k ((lanesOn on E (E l)).filter fun j => decide (j < l)) (V (E l)))).map PByte.known) := by
    induction es with
    | nil => cases he
    | cons e es ih =>
      rw [List.flatMap_cons, List.find?_append, hblock]
      split
      · rfl
      · rename_i hne
        exact ih ((List.mem_cons.mp he).resolve_left fun h => hne h.symm)
  exact hfind _ (List.mem_eraseDups.mpr (List.mem_map_of_mem hl))

/-- A lane finds a value in its element, where the lanes before it have left that value there. -/
theorem lane_found {f : Frame} {V : ElemAt → Nat} {l : Nat} (hl : l ∈ f.on) {v : Nat}
    (hv : chain k ((lanesOn f.on E (E l)).filter fun j => decide (j < l)) (V (E l)) = v) :
    ((f.on.map E).eraseDups.flatMap fun e => oldBytes k size (lanesOn f.on E e) (V e)).find? (fun x => x.1 = l)
      = some (l, (bytesOf size v).map PByte.known) := by
  rw [find_oldBytes (sorted_on f) hl, hv]

end

/-! ## Elements in memory -/

/-- Memory of a state in which, of the package's, only elements have changed beside the bytes of a list, with the records of another. -/
structure AtHome (r : State) (own : List (Nat × Byte)) (elems : List Nat) (t : State) : Prop where
  records : RecordsKept r t
  wf      : swf t.mem = true
  others  : ∀ p, p ∉ elems → sget t.mem p = byteOver own r.mem p

section
variable {r t : State} {own : List (Nat × Byte)} {elems : List Nat}

theorem AtHome.of_mem (hat : AtHome r own elems t) {t' : State} (hk : RecordsKept t t') (hm : t'.mem = t.mem) : AtHome r own elems t' :=
  ⟨hat.records.trans hk, by rw [hm]; exact hat.wf, fun p hp => by rw [hm]; exact hat.others p hp⟩

theorem mem_elems {pa size x : Nat} (hin : ∀ j, j < size → pa + j ∈ elems) {a : Nat} (ha : a ∈ (atAddrs pa (bytesOf size x)).map (·.1)) :
    a ∈ elems := by
  obtain ⟨w, hw, rfl⟩ := List.mem_map.mp ha
  obtain ⟨hlo, hhi⟩ := mem_atAddrs_range hw
  rw [length_bytesOf] at hhi
  have := hin (w.1 - pa) (by omega)
  rwa [Nat.add_sub_cancel' hlo] at this

/-- The write of an element at home, where the records take it as it stands. -/
theorem homeWrite_elem (hat : AtHome r own elems t) (hp : PlainAt r (own.map (·.1) ++ elems)) {pa size : Nat}
    (hin : ∀ j, j < size → pa + j ∈ elems) (key x : Nat) :
    (homeWrite t key (atAddrs pa (bytesOf size x))).mem = ssetAll t.mem (atAddrs pa (bytesOf size x))
      ∧ AtHome r own elems (homeWrite t key (atAddrs pa (bytesOf size x))) := by
  have hplain : recordWrite t (atAddrs pa (bytesOf size x)) = atAddrs pa (bytesOf size x) := by
    refine recordWrite_kept hp hat.records (fun a ha => ?_) fun a ha => List.mem_append_right _ (mem_elems hin ha)
    obtain ⟨hown, helem⟩ := not_or.mp fun hor => ha (List.mem_append.mpr hor)
    rw [hat.others a helem]
    exact byteOver_not_mem _ fun u hu e => hown (e ▸ List.mem_map_of_mem hu)
  have hmem : (homeWrite t key (atAddrs pa (bytesOf size x))).mem = ssetAll t.mem (atAddrs pa (bytesOf size x)) := by
    rw [homeWrite_mem, hplain]
  refine ⟨hmem, hat.records.trans (HomeFrame.homeWrite _ _ _).records, by rw [hmem]; exact swf_ssetAll _ hat.wf, fun p hp' => ?_⟩
  rw [hmem, ← hat.others p hp']
  exact sget_ssetAll_ne _ (fun w hw e => hp' (by rw [← e]; exact mem_elems hin (List.mem_map_of_mem hw))) _

/-- An element apart from the one written keeps its value. -/
theorem readNat_apart {m : Sparse 8} {pa pa' size x : Nat} (hapart : pa' + size ≤ pa ∨ pa + size ≤ pa') :
    readNat (ssetAll m (atAddrs pa (bytesOf size x))) pa' size = readNat m pa' size := by
  refine Laws.readNat_congr fun j hj => sget_ssetAll_ne _ (fun w hw e => ?_) _
  obtain ⟨hlo, hhi⟩ := mem_atAddrs_range hw
  rw [length_bytesOf] at hhi
  omega

/-- Two elements are the same or apart, where both are aligned (R120). -/
theorem aligned_apart {pa pa' size : Nat} (h : pa % size = 0) (h' : pa' % size = 0) (hne : pa' ≠ pa) :
    pa' + size ≤ pa ∨ pa + size ≤ pa' := by
  obtain ⟨i, rfl⟩ := Nat.dvd_of_mod_eq_zero h
  obtain ⟨j, rfl⟩ := Nat.dvd_of_mod_eq_zero h'
  rcases Nat.lt_or_ge j i with hlt | hge
  · exact .inl (by rw [← Nat.mul_succ]; exact Nat.mul_le_mul_left _ hlt)
  · have hlt : i < j := Nat.lt_of_le_of_ne hge fun e => hne (by rw [e])
    exact .inr (by rw [← Nat.mul_succ]; exact Nat.mul_le_mul_left _ hlt)

end

theorem l1Update_mem (s : State) (core : Nat) (ws : List (Nat × Byte)) : (l1Update s core ws).mem = s.mem := by
  refine List.foldlRecOn (motive := fun (t : State) => t.mem = s.mem) ws _ rfl fun t ht p _ => ?_
  split
  · split <;> exact ht
  · exact ht

theorem l1Update_tags (s : State) (core : Nat) (ws : List (Nat × Byte)) : (l1Update s core ws).tags = s.tags := by
  refine List.foldlRecOn (motive := fun (t : State) => t.tags = s.tags) ws _ rfl fun t ht p _ => ?_
  split
  · split <;> exact ht
  · exact ht

theorem homeWrite_tags (s : State) (key : Nat) (ws : List (Nat × Byte)) : (homeWrite s key ws).tags = s.tags := by
  have htails (s : State) (ws : List (Nat × Byte)) : (noteTails s ws).tags = s.tags := by
    unfold noteTails
    split <;> rfl
  have hheads (s : State) (ws : List (Nat × Byte)) : (noteHeads s ws).tags = s.tags := by
    unfold noteHeads
    dsimp only
    split <;> rfl
  have hput (ls : List Nat) (s : State) : (ls.foldl mscPut s).tags = s.tags :=
    List.foldlRecOn (motive := fun (t : State) => t.tags = s.tags) ls _ rfl fun _ ht _ _ => ht
  simp only [homeWrite, homeWriteFrom, hheads, htails, hput]
  rfl

section
variable {s : State} {h : Here} {k : AtomKind} {size pa : Nat} {ps : List Placed}

/-- An atomic of a local element at CORE scope. -/
theorem atomElem_plain (hpa : inAperture pa = false) :
    ∃ t, atomElem s h k none size (.glob pa) ps = (t, oldBytes k size (ps.map fun p => p.acc.lane) (readNat s.mem pa size), [])
      ∧ RecordsKept (homeWrite s (keyOfAsid s h.asid) (atAddrs pa (bytesOf size (applyLanes k (ps.map fun p => p.acc.lane)
          (readNat s.mem pa size)).2))) t
      ∧ t.mem = (homeWrite s (keyOfAsid s h.asid) (atAddrs pa (bytesOf size (applyLanes k (ps.map fun p => p.acc.lane)
          (readNat s.mem pa size)).2))).mem := by
  rw [atomElem]
  dsimp only
  rw [hpa]
  exact ⟨_, rfl, .l1Clean _ _ _, l1Clean_mem _ _ _⟩

/-- The release of bytes of a line that no other core is tagged on. -/
theorem releaseLine_own {core asid line : Nat} {sc : Scope} {ws : List (Nat × Byte)}
    (htag : tagOf s line = none ∨ tagOf s line = some ⟨line, .core core, asid, sc, false⟩) :
    let u := homeWrite s (keyOfAsid s asid) ws
    releaseLine s core asid sc line ws = setTag (l1Update u core (asHome s u ws)) ⟨line, .core core, asid, sc, false⟩ := by
  rcases htag with ht | ht
  · rw [releaseLine, ht]
  · rw [releaseLine, ht]
    simp [clearTag]

/-- An atomic of a local element that releases its line. -/
theorem atomElem_release {sc : Scope} (hpa : inAperture pa = false)
    (htag : tagOf s (lineOf pa) = none ∨ tagOf s (lineOf pa) = some ⟨lineOf pa, .core h.core, h.asid, sc, false⟩) :
    ∃ t, atomElem s h k (some sc) size (.glob pa) ps = (t, oldBytes k size (ps.map fun p => p.acc.lane) (readNat s.mem pa size), [])
      ∧ RecordsKept (homeWrite s (keyOfAsid s h.asid) (atAddrs pa (bytesOf size (applyLanes k (ps.map fun p => p.acc.lane)
          (readNat s.mem pa size)).2))) t
      ∧ t.mem = (homeWrite s (keyOfAsid s h.asid) (atAddrs pa (bytesOf size (applyLanes k (ps.map fun p => p.acc.lane)
          (readNat s.mem pa size)).2))).mem
      ∧ t.tags = ⟨lineOf pa, .core h.core, h.asid, sc, false⟩ :: s.tags.filter fun x => x.line != lineOf pa := by
  rw [atomElem]
  dsimp only
  rw [hpa]
  refine ⟨_, rfl, ?_⟩
  rw [releaseLine_own htag]
  refine ⟨(RecordsKept.l1Update _ _ _).trans (.of_eq rfl rfl rfl), l1Update_mem _ _ _, ?_⟩
  show _ :: (l1Update _ _ _).tags.filter _ = _
  rw [l1Update_tags, homeWrite_tags]

end

/-! ### The steps of an access -/

section
variable {r : State} {own : List (Nat × Byte)} {h : Here} {k : AtomKind} {size : Nat} {on : List Nat} {pa : Nat → Nat} {P : Nat → Placed}
  {elems : List Nat}

/-- The lanes of the accesses to an element. -/
theorem lanes_at {E : Nat → ElemAt} (hlane : ∀ l, (P l).acc.lane = l) (helem : ∀ l, (P l).elemAt = E l) (e : ElemAt) :
    ((on.map P).filter fun p => p.elemAt = e).map (fun p => p.acc.lane) = lanesOn on E e := by
  rw [List.filter_map, List.map_map, lanesOn]
  simp only [Function.comp_def, hlane, helem, List.map_id']

/-- Of aligned local elements: what a write at home of one leaves of all. -/
theorem elems_after (hloc : ∀ l ∈ on, pa l % size = 0 ∧ pa l + size ≤ apertureBase) {t t' : State} {l : Nat} (hl : l ∈ on) {x : Nat}
    (hwf : swf t.mem = true) (hm : t'.mem = ssetAll t.mem (atAddrs (pa l) (bytesOf size x))) :
    elemVal t' size (.glob (pa l)) = x % 2 ^ (8 * size)
      ∧ ∀ e' ∈ on.map fun l => ElemAt.glob (pa l), e' ≠ .glob (pa l) → elemVal t' size e' = elemVal t size e' := by
  refine ⟨?_, fun e' he' hne => ?_⟩
  · rw [elemVal, hm]
    exact readNat_ssetAll_bytesOf hwf _ _ _
  · obtain ⟨j, hj, rfl⟩ := List.mem_map.mp he'
    rw [elemVal, elemVal, hm]
    exact readNat_apart (aligned_apart (hloc l hl).1 (hloc j hj).1 fun e => hne (by rw [e]))

variable (hp : PlainAt r (own.map (·.1) ++ elems)) (hin : ∀ l ∈ on, ∀ j, j < size → pa l + j ∈ elems)
  (hloc : ∀ l ∈ on, pa l % size = 0 ∧ pa l + size ≤ apertureBase) (hsize : 0 < size)
  (hlane : ∀ l, (P l).acc.lane = l) (helem : ∀ l, (P l).elemAt = .glob (pa l))
include hp hin hloc hsize hlane helem

theorem elemStep_plain : ElemStep h k none size on (fun l => .glob (pa l)) (fun e => (on.map P).filter fun p => p.elemAt = e)
    (AtHome r own elems) (fun _ _ => True) (on.map fun l => .glob (pa l)) := by
  intro t e hat he
  obtain ⟨l, hl, rfl⟩ := List.mem_map.mp he
  have hap : inAperture (pa l) = false := inAperture_local (by have := (hloc l hl).2; omega)
  obtain ⟨t', hrun, hrec, hmem⟩ := atomElem_plain (s := t) (h := h) (k := k) (size := size)
    (ps := (on.map P).filter fun p => p.elemAt = .glob (pa l)) hap
  obtain ⟨hwrite, hat'⟩ := homeWrite_elem hat hp (hin l hl) (keyOfAsid t h.asid)
    (applyLanes k (((on.map P).filter fun p => p.elemAt = .glob (pa l)).map fun p => p.acc.lane) (readNat t.mem (pa l) size)).2
  obtain ⟨hval, hothers⟩ := elems_after hloc hl hat.wf (hmem.trans hwrite)
  rw [lanes_at hlane helem] at hrun
  rw [applyLanes_left, lanes_at hlane helem] at hval
  exact ⟨t', hrun, hat'.of_mem hrec hmem, trivial, hval, fun e' he' hne => ⟨hothers e' he' hne, id⟩⟩

/-- Every line of a list is untagged, or the core has released it. -/
def OwnTags (h : Here) (sc : Scope) (lines : List Nat) (t : State) : Prop :=
  ∀ k ∈ lines, tagOf t k = none ∨ tagOf t k = some ⟨k, .core h.core, h.asid, sc, false⟩

theorem elemStep_release (sc : Scope) : ElemStep h k (some sc) size on (fun l => .glob (pa l))
    (fun e => (on.map P).filter fun p => p.elemAt = e)
    (fun t => AtHome r own elems t ∧ OwnTags h sc (on.map fun l => lineOf (pa l)) t)
    (fun e t => ∀ l ∈ on, e = .glob (pa l) → tagOf t (lineOf (pa l)) = some ⟨lineOf (pa l), .core h.core, h.asid, sc, false⟩)
    (on.map fun l => .glob (pa l)) := by
  intro t e ⟨hat, htags⟩ he
  obtain ⟨l, hl, rfl⟩ := List.mem_map.mp he
  have hap : inAperture (pa l) = false := inAperture_local (by have := (hloc l hl).2; omega)
  obtain ⟨t', hrun, hrec, hmem, htag'⟩ := atomElem_release (s := t) (h := h) (k := k) (size := size) (sc := sc)
    (ps := (on.map P).filter fun p => p.elemAt = .glob (pa l)) hap (htags _ (List.mem_map.mpr ⟨l, hl, rfl⟩))
  obtain ⟨hwrite, hat'⟩ := homeWrite_elem hat hp (hin l hl) (keyOfAsid t h.asid)
    (applyLanes k (((on.map P).filter fun p => p.elemAt = .glob (pa l)).map fun p => p.acc.lane) (readNat t.mem (pa l) size)).2
  obtain ⟨hval, hothers⟩ := elems_after hloc hl hat.wf (hmem.trans hwrite)
  rw [lanes_at hlane helem] at hrun
  rw [applyLanes_left, lanes_at hlane helem] at hval
  have htagOf (line : Nat) : tagOf t' line
      = if line = lineOf (pa l) then some ⟨lineOf (pa l), .core h.core, h.asid, sc, false⟩ else tagOf t line := by
    rw [tagOf, htag', List.find?_cons, tagOf]
    by_cases hline : line = lineOf (pa l)
    · rw [if_pos hline, hline]
      simp
    · rw [if_neg hline, List.find?_filter]
      have hne : ¬lineOf (pa l) = line := fun e => hline e.symm
      simp only [hne, decide_false]
      refine List.find?_congr fun y _ => ?_
      by_cases hy : y.line = line
      · simp [hy, hline]
      · simp [hy]
  refine ⟨t', hrun, ⟨hat'.of_mem hrec hmem, fun line hline => ?_⟩, fun j hj hjl => ?_, hval, fun e' he' hne =>
    ⟨hothers e' he' hne, fun hpost j hj hje => ?_⟩⟩
  · rw [htagOf]
    split
    · rename_i he
      exact .inr (by rw [he])
    · exact htags line hline
  · obtain hjl := ElemAt.glob.inj hjl
    rw [htagOf, if_pos (by rw [hjl]), hjl]
  · rw [htagOf]
    split
    · rename_i he
      rw [he]
    · exact hpost j hj hje

end

/-! ## Elements in scratchpads -/

theorem atomElem_spad {s : State} {h : Here} {k : AtomKind} {sync : Option Scope} {size c off : Nat} {ps : List Placed}
    (hc : c < s.cohorts.length) :
    atomElem s h k sync size (.spad c off) ps
      = (spadStore s c (atAddrs off (bytesOf size (chain k (ps.map fun p => p.acc.lane) (readNat (spadOf s c) off size)))),
        oldBytes k size (ps.map fun p => p.acc.lane) (readNat (spadOf s c) off size), []) := by
  have hval : (((s.cohorts[c]?).map fun co => readNat co.sp off size).getD 0) = readNat (spadOf s c) off size := by
    rw [spadOf, List.getElem?_eq_getElem hc]
    rfl
  rw [atomElem]
  dsimp only
  rw [hval, applyLanes_left]
  rfl

/-- A state in which, of another's scratchpads, only the elements of lanes have changed. -/
structure InSpads (r : State) (n : Nat) (on : List Nat) (x c : Nat → Nat) (t : State) : Prop where
  mem     : t.mem = r.mem
  cohorts : t.cohorts.length = r.cohorts.length
  wf      : ∀ q, swf (spadOf t q) = true
  others  : ∀ q p, (∀ l ∈ on, c l = q → ¬(x l ≤ p ∧ p < x l + n)) → sget (spadOf t q) p = sget (spadOf r q) p

section
variable {r : State} {h : Here} {k : AtomKind} {n : Nat} {on : List Nat} {x c : Nat → Nat} {P : Nat → Placed}

theorem elemStep_spad (hlane : ∀ l, (P l).acc.lane = l) (helem : ∀ l, (P l).elemAt = .spad (c l) (x l)) (hal : ∀ l ∈ on, x l % n = 0)
    (hc : ∀ l ∈ on, c l < r.cohorts.length) :
    ElemStep h k none n on (fun l => .spad (c l) (x l)) (fun e => (on.map P).filter fun p => p.elemAt = e) (InSpads r n on x c)
      (fun _ _ => True) (on.map fun l => .spad (c l) (x l)) := by
  intro t e hat he
  obtain ⟨l, hl, rfl⟩ := List.mem_map.mp he
  have hlt : c l < t.cohorts.length := by rw [hat.cohorts]; exact hc l hl
  have hrun := atomElem_spad (s := t) (h := h) (k := k) (sync := none) (size := n) (off := x l)
    (ps := (on.map P).filter fun p => p.elemAt = .spad (c l) (x l)) hlt
  rw [lanes_at hlane helem] at hrun
  obtain ⟨hmem, -, hlen⟩ := spadStore_frame t (c l) (atAddrs (x l)
    (bytesOf n (chain k (lanesOn on (fun l => ElemAt.spad (c l) (x l)) (.spad (c l) (x l))) (readNat (spadOf t (c l)) (x l) n))))
  refine ⟨_, hrun, ⟨hmem.trans hat.mem, hlen.trans hat.cohorts, fun q => ?_, fun q p hno => ?_⟩, trivial, ?_, fun e' he' hne =>
    ⟨?_, id⟩⟩
  · rw [spadOf_spadStore _ hlt]
    split
    · exact swf_ssetAll _ (hat.wf q)
    · exact hat.wf q
  · rw [spadOf_spadStore _ hlt, ← hat.others q p hno]
    split
    · rename_i hq
      refine sget_ssetAll_ne _ (fun w hw e => hno l hl hq ?_) _
      have hrange := mem_atAddrs_range hw
      rw [length_bytesOf] at hrange
      omega
    · rfl
  · rw [elemVal, spadOf_spadStore _ hlt, if_pos rfl]
    exact readNat_ssetAll_bytesOf (hat.wf _) _ _ _
  · obtain ⟨j, hj, rfl⟩ := List.mem_map.mp he'
    rw [elemVal, elemVal, spadOf_spadStore _ hlt]
    split
    · rename_i hq
      exact readNat_apart (aligned_apart (hal l hl) (hal j hj) fun e => hne (by rw [e, hq]))
    · rfl

end

/-! ## The atomics of the lanes that take part -/

/-- What the lanes find, in their order. -/
theorem bytes_found {n : Nat} {on : List Nat} {P : Nat → Placed} {olds : List (Nat × List PByte)} {got : Nat → Nat}
    (hlane : ∀ l, (P l).acc.lane = l)
    (hfind : ∀ l ∈ on, olds.find? (fun x => x.1 = l) = some (l, (bytesOf n (got l)).map PByte.known)) :
    (on.map P).flatMap (fun p => ((olds.find? fun x => x.1 = p.acc.lane).map (·.2)).getD [])
      = (on.flatMap fun l => bytesOf n (got l)).map PByte.known := by
  rw [List.flatMap_map, List.map_flatMap]
  exact List.flatMap_congr fun l hl => by rw [hlane, hfind l hl]; rfl

section
variable {s : State} {h : Here} {f : Frame} {sp : Space} {as : List Acc} {sync : Bool} {k : AtomKind} {fin : Frame → List Byte → Writes}
  {n : Nat} {P : Nat → Placed} {got : Nat → Nat} {t : State} {olds : List (Nat × List PByte)}

/-- An access whose atomics act at CORE scope, or do not synchronise. -/
theorem atomLanes_core (hflight : h.tm.inflight = []) (hrel : outerScope sp as sync f.mode.sc = some .pod → podRelease s h = none)
    (str : Option Nat)
    (hbeyond : beyondCore sync f.mode.sc = none) (hplaced : (placeAll s h sp .both n as).2 = (f.on.map P, []))
    (helems : let r := placeAll s h sp .both n as
      atomElems (countBanks (if sync then writeBackWhere r.1 h.core fun x => (linesOf (r.2.1.flatMap Placed.spots)).contains x.line else r.1)
        h.t r.2.1) h k none n r.2.1 = (t, olds, []))
    (hlane : ∀ l, (P l).acc.lane = l)
    (hfind : ∀ l ∈ f.on, olds.find? (fun x => x.1 = l) = some (l, (bytesOf n (got l)).map PByte.known)) :
    atomLanes h f s str sp n sync k as fin = .done t (fin f (f.on.flatMap fun l => bytesOf n (got l))) [] [] (touches as true true) := by
  rw [atomLanes, inOrder_quiet hflight _ hrel]
  dsimp only at helems ⊢
  rw [hplaced] at helems ⊢
  rw [pickFault_nil, hbeyond]
  simp only [Option.isNone_none, Bool.and_true, Option.isSome_none, Bool.false_eq_true, if_false]
  rw [helems, bytes_found hlane hfind]
  simp [finish]

/-- An access whose atomics acquire and release at a scope above CORE. -/
theorem atomLanes_beyond (hflight : h.tm.inflight = []) (hrel : outerScope sp as sync f.mode.sc = some .pod → podRelease s h = none)
    (str : Option Nat) {sc : Scope}
    (hbeyond : beyondCore sync f.mode.sc = some sc) (hplaced : (placeAll s h sp .both n as).2 = (f.on.map P, []))
    (hlocal : ∀ l ∈ linesOf ((f.on.map P).flatMap Placed.spots), importedLine l = false)
    (helems : let r := placeAll s h sp .both n as
      atomElems ((linesOf (r.2.1.flatMap Placed.spots)).foldl (fun s l => acquireOn s h sc l) (countBanks r.1 h.t r.2.1)) h k (some sc) n r.2.1
        = (t, olds, []))
    (hlane : ∀ l, (P l).acc.lane = l)
    (hfind : ∀ l ∈ f.on, olds.find? (fun x => x.1 = l) = some (l, (bytesOf n (got l)).map PByte.known)) :
    atomLanes h f s str sp n sync k as fin = .done (noteImported t h ((f.on.map P).flatMap Placed.spots))
      (fin f (f.on.flatMap fun l => bytesOf n (got l))) [] [] (touches as true true) := by
  have hall : (linesOf ((f.on.map P).flatMap Placed.spots)).filter (fun l => importedLine l == false)
      = linesOf ((f.on.map P).flatMap Placed.spots) := List.filter_eq_self.mpr fun l hl => by simp [hlocal l hl]
  have hnone : (linesOf ((f.on.map P).flatMap Placed.spots)).filter (fun l => importedLine l == true) = [] :=
    List.filter_eq_nil_iff.mpr fun l hl => by simp [hlocal l hl]
  rw [atomLanes, inOrder_quiet hflight _ hrel]
  dsimp only at helems ⊢
  rw [hplaced] at helems ⊢
  rw [pickFault_nil, hbeyond]
  simp only [Option.isNone_some, Bool.and_false, Bool.false_eq_true, if_false, hall, hnone, List.foldl_nil, Option.isSome_some, if_true]
  rw [helems, bytes_found hlane hfind]
  simp [finish]

end

section
variable {s t : State} {h : Here} {sw : Bool} {i : Instr} {jf : Frame → Job} {d : Option Dst} {got : Nat → Nat} {acc : List Touch}

/-- An atomic that has acted: its destination, where it has one, takes what the lanes have found. -/
theorem atomic_ends (hq : Quiet s h) (hw : NoWatch h) (hok : RegistersOk s) (hr : Ready jf h.frame) (he : exec i s = issueJob i sw jf s)
    (hlate : (jf h.frame).late = d.isSome) (hk : TeamsKept s t)
    (hrun : (jf h.frame).run h h.frame s
      = .done t (atomFin d h.frame (h.frame.on.flatMap fun l => bytesOf h.frame.mode.t.bytes (got l))) [] [] acc) :
    ∃ u tm, exec i s = .next u ∧ u.teams[h.t]? = some tm ∧ GoesOn i h tm ∧ (Outside h.t t u ∧ u.mem = t.mem) ∧ (d = none → tm.inflight = [])
      ∧ ∀ d', d = some d' → ∃ fl, tm.inflight = [fl] ∧ LaneResult h.frame (h.tm.regs.apply fl.writes) d' h.frame.mode.t.regs got := by
  cases d with
  | none =>
    obtain ⟨u, tm, hnext, ht, hgo, hflight, ho, hmem⟩ := issueJob_stood (i := i) (sw := sw) hq hw hr hlate hk hrun
    exact ⟨u, tm, he.trans hnext, ht, hgo, ⟨ho, hmem⟩, fun _ => hflight, fun d' hd => by cases hd⟩
  | some d =>
    obtain ⟨u, tm, fl, hnext, ht, hgo, hflight, -, -, hwrites, ho, hmem⟩ := issueJob_sent (i := i) (sw := sw) hq hw hr hlate hk hrun
    refine ⟨u, tm, he.trans hnext, ht, hgo, ⟨ho, hmem⟩, by simp, fun d' hd => ⟨fl, hflight, ?_⟩⟩
    obtain rfl := Option.some.inj hd
    have hfin : fl.writes = Writes.ofV (h.frame.on.flatMap fun l =>
        dstWrites h.frame d h.frame.mode.t.regs l (natOf (bytesOf h.frame.mode.t.bytes (got l)))) := by
      rw [hwrites]
      exact loadFin_flatMap (m := .nat) fun l _ => length_bytesOf _ _
    have hres := laneResult_of (f := h.frame) (d := d) (n := h.frame.mode.t.regs) (fl := 0)
      (val := fun l => natOf (bytesOf h.frame.mode.t.bytes (got l))) (team_wf hq.1 hok)
    have hbits : 8 * h.frame.mode.t.bytes = 32 * h.frame.mode.t.regs := by
      unfold Ty.bytes Ty.regs
      split <;> rfl
    rw [hfin]
    refine { hres with result := fun l hl => ?_ }
    have hval := hres.result l hl
    rwa [natOf_bytesOf, hbits, Nat.mod_mod] at hval

end

/-- What the lanes of an element leave or find, by the place of each. -/
theorem chain_eq {k : AtomKind} {on : List Nat} {E : Nat → ElemAt} {at_ : Nat → Nat × Nat} {new : Nat → Nat → Nat}
    (hat : ∀ i j, E i = E j ↔ at_ i = at_ j) (hnew : ∀ l v, k.new l v = new l v) (l v : Nat) :
    chain k (lanesOn on E (E l)) v = (on.filter fun j => at_ j = at_ l).foldl (fun v j => new j v) v
      ∧ chain k ((lanesOn on E (E l)).filter fun j => decide (j < l)) v
        = ((on.filter fun j => decide (j < l)).filter fun j => at_ j = at_ l).foldl (fun v j => new j v) v := by
  have hlanes : lanesOn on E (E l) = on.filter fun j => at_ j = at_ l := by
    rw [lanesOn]
    exact List.filter_congr fun j _ => by simp only [hat]
  have hfun : (fun v l => k.new l v) = fun v j => new j v := funext fun v => funext fun j => hnew j v
  rw [chain, chain, hlanes, hfun, List.filter_comm]
  exact ⟨rfl, rfl⟩

/-! ## Atomics as instructions -/

/-- What the lanes `ls` have left in the element of a lane. -/
def seenBy (at_ : Nat → Nat × Nat) (new : Nat → Nat → Nat) (old : Nat → Nat) (ls : List Nat) (l : Nat) : Nat :=
  (ls.filter fun k => at_ k = at_ l).foldl (fun v k => new k v) (old l)

/-- An atomic goes on in a state of which `P` holds, and its destination takes `got`. -/
def Ends (i : Instr) (s : State) (h : Here) (d : Option Dst) (got : Nat → Nat) (P : State → Prop) : Prop :=
  ∃ u tm, exec i s = .next u ∧ u.teams[h.t]? = some tm ∧ GoesOn i h tm ∧ P u ∧ (d = none → tm.inflight = [])
    ∧ ∀ d', d = some d' → ∃ fl, tm.inflight = [fl] ∧ LaneResult h.frame (h.tm.regs.apply fl.writes) d' h.frame.mode.t.regs got

theorem PlainAt.mono {s : State} {as bs : List Nat} (hp : PlainAt s bs) (hsub : ∀ a ∈ as, a ∈ bs) : PlainAt s as :=
  ⟨fun c hc hd a ha => hp.1 c hc hd a (hsub a ha), fun m hm q hq a ha => hp.2 m (fun b hb => hm b fun hb' => hb (hsub b hb')) q hq a (hsub a ha)⟩

/-- The memory accesses of an atomic, each to one element under one translation. -/
def globPlaced (addr : Nat → W64) (n : Nat) (x y : Nat → Xlat) (l : Nat) : Placed := ⟨⟨l, addr l, n⟩, .glob (x l) n (y l)⟩

section
variable {addr : Nat → W64} {n : Nat} {x y : Nat → Xlat} {on : List Nat}

theorem spots_globPlaced (l : Nat) : (globPlaced addr n x y l).spots
    = (List.range n).map fun j => ⟨x l, (x l).pa + j, l, addr l + BitVec.ofNat 64 j⟩ := by
  rw [Placed.spots, globPlaced]
  exact List.map_congr_left fun j hj => by rw [if_pos (List.mem_range.mp hj)]

/-- The lines of aligned elements. -/
theorem mem_lines_globPlaced (hn : 0 < n) (hdvd : n ∣ 128) (hal : ∀ l ∈ on, (x l).pa % n = 0) {line : Nat} :
    line ∈ linesOf ((on.map (globPlaced addr n x y)).flatMap Placed.spots) ↔ ∃ l ∈ on, lineOf (x l).pa = line := by
  have hline {l j : Nat} (hl : l ∈ on) (hj : j < n) : lineOf ((x l).pa + j) = lineOf (x l).pa := by
    obtain ⟨m, hm⟩ := hdvd
    obtain ⟨i, hi⟩ := Nat.dvd_of_mod_eq_zero (hal l hl)
    have hin : n * (i % m) + n ≤ 128 := by
      have : i % m < m := Nat.mod_lt _ (Nat.pos_of_ne_zero fun h0 => by rw [h0] at hm; omega)
      rw [hm, ← Nat.mul_succ]
      exact Nat.mul_le_mul_left _ this
    have hsplit : (x l).pa = 128 * (i / m) + n * (i % m) := by
      rw [hi, hm, Nat.mul_assoc, ← Nat.mul_add, Nat.div_add_mod]
    unfold lineOf
    omega
  rw [mem_linesOf]
  constructor
  · rintro ⟨sp, hsp, rfl⟩
    obtain ⟨p, hp, hspots⟩ := List.mem_flatMap.mp hsp
    obtain ⟨l, hl, rfl⟩ := List.mem_map.mp hp
    rw [spots_globPlaced] at hspots
    obtain ⟨j, hj, rfl⟩ := List.mem_map.mp hspots
    exact ⟨l, hl, (hline hl (List.mem_range.mp hj)).symm⟩
  · rintro ⟨l, hl, rfl⟩
    refine ⟨⟨x l, (x l).pa + 0, l, addr l + BitVec.ofNat 64 0⟩, List.mem_flatMap.mpr ⟨_, List.mem_map_of_mem hl, ?_⟩, hline hl hn⟩
    rw [spots_globPlaced]
    exact List.mem_map.mpr ⟨0, List.mem_range.mpr hn, rfl⟩

end

theorem bytes_pos (t : Ty) : 0 < t.bytes ∧ t.bytes ∣ 128 := by
  unfold Ty.bytes
  split <;> decide

section
variable {s : State} {h : Here} {sw : Bool} {i : Instr} {jf : Frame → Job} {str : Option Nat} {as : List Acc} {d : Option Dst} {k : AtomKind}
  {sync : Bool} {own : List (Nat × Byte)} {new : Nat → Nat → Nat} {addr : Nat → W64} {x y : Nat → Xlat}

/-- The bytes of the elements. -/
def elemBytes (on : List Nat) (x : Nat → Xlat) (n : Nat) : List Nat := on.flatMap fun l => (List.range n).map fun j => (x l).pa + j

theorem mem_elemBytes {on : List Nat} {x : Nat → Xlat} {n l j : Nat} (hl : l ∈ on) (hj : j < n) : (x l).pa + j ∈ elemBytes on x n :=
  List.mem_flatMap.mpr ⟨l, hl, List.mem_map.mpr ⟨j, List.mem_range.mpr hj, rfl⟩⟩

/-- What an atomic in memory leaves and finds, where its elements act on the bytes of a state with those of a list over them. -/
theorem home_values {r s1 t : State} {n : Nat} {on : List Nat} (hnew : ∀ l v, k.new l v = new l v)
    (hall : ∀ a, sget s1.mem a = byteOver own r.mem a)
    (hdone : ∀ l ∈ on, elemVal t n (.glob (x l).pa)
      = chain k (lanesOn on (fun l => .glob (x l).pa) (.glob (x l).pa)) (elemVal s1 n (.glob (x l).pa)) % 2 ^ (8 * n)) :
    let old (l : Nat) : Nat := natOf ((List.range n).map fun j => byteOver own r.mem ((x l).pa + j))
    (∀ l ∈ on, readNat t.mem (x l).pa n = seenBy (fun k => (0, (x k).pa)) new old on l % 2 ^ (8 * n))
      ∧ ∀ l, chain k ((lanesOn on (fun l => .glob (x l).pa) (.glob (x l).pa)).filter fun j => decide (j < l)) (elemVal s1 n (.glob (x l).pa))
        = seenBy (fun k => (0, (x k).pa)) new old (on.filter fun k => decide (k < l)) l := by
  intro old
  have hold (l : Nat) : elemVal s1 n (.glob (x l).pa) = old l :=
    congrArg natOf (List.map_congr_left fun j _ => hall ((x l).pa + j))
  have hchain (l v : Nat) := chain_eq (k := k) (on := on) (E := fun l => .glob (x l).pa) (at_ := fun k => (0, (x k).pa)) (new := new)
    (fun i j => by simp) hnew l v
  refine ⟨fun l hl => ?_, fun l => ?_⟩
  · have hval := hdone l hl
    rw [hold, (hchain l _).1] at hval
    exact hval
  · rw [hold, (hchain l _).2]
    rfl

variable (hq : Quiet s h) (hw : NoWatch h) (hok : RegistersOk s) (hr : Ready jf h.frame) (he : exec i s = issueJob i sw jf s)
  (hlate : (jf h.frame).late = d.isSome) (hrel : outerScope (.glob true) as sync h.tm.mode.sc = some .pod → podRelease s h = none)
  (hjob : (jf h.frame).run h h.frame s = atomLanes h h.frame s str (.glob true) h.frame.mode.t.bytes sync k as (atomFin d))
  (hplaced : (placeAll s h (.glob true) .both h.frame.mode.t.bytes as).2 = (h.frame.on.map (globPlaced addr h.frame.mode.t.bytes x y), []))
  (hloc : ∀ l ∈ h.frame.on, (x l).pa % h.frame.mode.t.bytes = 0 ∧ (x l).pa + h.frame.mode.t.bytes ≤ apertureBase)
  (hplain : PlainAt (placeAll s h (.glob true) .both h.frame.mode.t.bytes as).1
    (own.map (·.1) ++ elemBytes h.frame.on x h.frame.mode.t.bytes)) (hnew : ∀ l v, k.new l v = new l v)
include hq hw hok hr he hlate hrel hjob hplaced hloc hplain hnew

/-- An atomic in memory that acts at CORE scope, or does not synchronise. -/
theorem ends_core (hbeyond : beyondCore sync h.tm.mode.sc = none)
    (hown : let r := placeAll s h (.glob true) .both h.frame.mode.t.bytes as
      let s0 := if sync then writeBackWhere r.1 h.core fun x => (linesOf (r.2.1.flatMap Placed.spots)).contains x.line else r.1
      RecordsKept r.1 s0 ∧ swf s0.mem = true ∧ ∀ a, sget s0.mem a = byteOver own r.1.mem a) :
    let r := placeAll s h (.glob true) .both h.frame.mode.t.bytes as
    let n := h.frame.mode.t.bytes
    let old (l : Nat) : Nat := natOf ((List.range n).map fun j => byteOver own r.1.mem ((x l).pa + j))
    Ends i s h d (fun l => seenBy (fun k => (0, (x k).pa)) new old (h.frame.on.filter fun k => decide (k < l)) l) fun u =>
      (∀ l ∈ h.frame.on, readNat u.mem (x l).pa n = seenBy (fun k => (0, (x k).pa)) new old h.frame.on l % 2 ^ (8 * n))
        ∧ ∀ p, p ∉ elemBytes h.frame.on x n → sget u.mem p = byteOver own r.1.mem p := by
  intro r n old
  dsimp only at hown
  obtain ⟨hrec, hwf, hall⟩ := hown
  generalize hs0 : (if sync then writeBackWhere (placeAll s h (.glob true) .both h.frame.mode.t.bytes as).1 h.core
    (fun x => (linesOf ((placeAll s h (.glob true) .both h.frame.mode.t.bytes as).2.1.flatMap Placed.spots)).contains x.line)
    else (placeAll s h (.glob true) .both h.frame.mode.t.bytes as).1) = s0 at hrec hwf hall
  obtain ⟨cs, ts, hcount⟩ := countBanks_eq s0 h.t (h.frame.on.map (globPlaced addr n x y))
  have hat : AtHome r.1 own (elemBytes h.frame.on x n) (countBanks s0 h.t (h.frame.on.map (globPlaced addr n x y))) :=
    AtHome.of_mem ⟨hrec, hwf, fun p _ => hall p⟩ (by rw [hcount]; exact .of_eq rfl rfl rfl) (by rw [hcount])
  obtain ⟨hn, -⟩ := bytes_pos h.frame.mode.t
  obtain ⟨t, helems, hatt, hdone⟩ := atomElems_spec (P := globPlaced addr n x y) (fun _ => rfl)
    (elemStep_plain (h := h) (k := k) hplain (fun l hl j hj => mem_elemBytes hl hj) hloc hn (fun _ => rfl) fun _ => rfl) hat
  obtain ⟨hleft, hgot⟩ := home_values (s1 := countBanks s0 h.t (h.frame.on.map (globPlaced addr n x y))) (r := r.1) (own := own) hnew
    (fun a => by rw [hcount]; exact hall a)
    fun l hl => (hdone l hl).2
  have hrun := atomLanes_core (fin := atomFin d) (k := k) (t := t) hq.2.2.2.1 hrel str hbeyond hplaced
    (by dsimp only; rw [hs0, hplaced]; exact helems) (fun _ => rfl) fun l hl => lane_found hl (hgot l)
  have hk := Acts.teams (atomLanes_acts hq.2.2.2.1 str (.glob true) n sync as hrel (congrArg Prod.snd hplaced) k d) hrun
  obtain ⟨u, tm, hnext, hu, hgo, ⟨-, hmem⟩, hnone, hsome⟩ := atomic_ends hq hw hok hr he hlate hk (hjob.trans hrun)
  exact ⟨u, tm, hnext, hu, hgo, ⟨fun l hl => by rw [hmem]; exact hleft l hl, fun p hp => by rw [hmem]; exact hatt.others p hp⟩, hnone, hsome⟩

/-- An atomic in memory that acquires and releases untagged lines at a scope above CORE. -/
theorem ends_beyond {sc : Scope} (hbeyond : beyondCore sync h.tm.mode.sc = some sc) (hown : own = [])
    (hok' : MemoryOk s)
    (htags : ∀ l ∈ h.frame.on, tagOf (placeAll s h (.glob true) .both h.frame.mode.t.bytes as).1 (lineOf (x l).pa) = none) :
    let r := placeAll s h (.glob true) .both h.frame.mode.t.bytes as
    let n := h.frame.mode.t.bytes
    let old (l : Nat) : Nat := natOf ((List.range n).map fun j => byteOver own r.1.mem ((x l).pa + j))
    Ends i s h d (fun l => seenBy (fun k => (0, (x k).pa)) new old (h.frame.on.filter fun k => decide (k < l)) l) fun u =>
      (∀ l ∈ h.frame.on, readNat u.mem (x l).pa n = seenBy (fun k => (0, (x k).pa)) new old h.frame.on l % 2 ^ (8 * n))
        ∧ (∀ p, p ∉ elemBytes h.frame.on x n → sget u.mem p = byteOver own r.1.mem p)
        ∧ ∀ l ∈ h.frame.on, tagOf u (lineOf (x l).pa) = some ⟨lineOf (x l).pa, .core h.core, h.asid, sc, false⟩ := by
  subst hown
  intro r n old
  obtain ⟨hn, hdvd⟩ := bytes_pos h.frame.mode.t
  let ps := h.frame.on.map (globPlaced addr n x y)
  have hlines {line : Nat} (hl : line ∈ linesOf (ps.flatMap Placed.spots)) : ∃ l ∈ h.frame.on, lineOf (x l).pa = line :=
    (mem_lines_globPlaced hn hdvd fun l hl => (hloc l hl).1).mp hl
  have hlocal (line : Nat) (hl : line ∈ linesOf (ps.flatMap Placed.spots)) : importedLine line = false := by
    obtain ⟨l, hon, rfl⟩ := hlines hl
    have := (hloc l hon).2
    exact importedLine_local (by omega)
  obtain ⟨cs, ts, hcount⟩ := countBanks_eq r.1 h.t ps
  have hacquire := foldl_acquireOn (s := countBanks r.1 h.t ps) (h := h) (sc := sc) (ls := linesOf (ps.flatMap Placed.spots)) fun line hl => by
    obtain ⟨l, hon, rfl⟩ := hlines hl
    exact ⟨hlocal _ hl, by rw [hcount]; exact htags l hon⟩
  generalize hs1 : (linesOf (ps.flatMap Placed.spots)).foldl (fun s l => acquireOn s h sc l) (countBanks r.1 h.t ps) = s1
  rw [hs1] at hacquire
  have hmem1 : s1.mem = r.1.mem := by
    rw [hacquire, foldl_selfInvalidate_mem, hcount]
  have htags1 : s1.tags = r.1.tags := by
    rw [hacquire]
    exact (List.foldlRecOn (motive := fun t : State => t.tags = (countBanks r.1 h.t ps).tags) _ _ rfl
      fun _ ht _ _ => (dropClean_tags _ _ _).trans ht).trans (by rw [hcount])
  have hrec : RecordsKept r.1 s1 := by
    rw [hacquire]
    exact RecordsKept.trans (by rw [hcount]; exact .of_eq rfl rfl rfl) (.foldl (fun _ _ => .dropClean _ _ _) _ _)
  have hat : AtHome r.1 [] (elemBytes h.frame.on x n) s1 :=
    ⟨hrec, by rw [hmem1]; exact (Keeps.placeAll _ _ _ _ _ _).memory hok', fun p _ => by rw [hmem1]; rfl⟩
  have hown1 : OwnTags h sc (h.frame.on.map fun l => lineOf (x l).pa) s1 := fun line hl => by
    obtain ⟨l, hon, rfl⟩ := List.mem_map.mp hl
    exact .inl ((tagOf_tags htags1 _).trans (htags l hon))
  obtain ⟨t, helems, ⟨hatt, -⟩, hdone⟩ := atomElems_spec (P := globPlaced addr n x y) (fun _ => rfl)
    (elemStep_release (h := h) (k := k) hplain (fun l hl j hj => mem_elemBytes hl hj) hloc hn (fun _ => rfl) (fun _ => rfl) sc) ⟨hat, hown1⟩
  obtain ⟨hleft, hgot⟩ := home_values (s1 := s1) (r := r.1) (own := []) hnew (fun a => by rw [hmem1]; rfl)
    fun l hl => (hdone l hl).2
  have hrun := atomLanes_beyond (fin := atomFin d) (k := k) (t := t) hq.2.2.2.1 hrel str hbeyond hplaced hlocal
    (by dsimp only; rw [hplaced, hs1]; exact helems) (fun _ => rfl) fun l hl => lane_found hl (hgot l)
  have hk := Acts.teams (atomLanes_acts hq.2.2.2.1 str (.glob true) n sync as hrel (congrArg Prod.snd hplaced) k d) hrun
  obtain ⟨u, tm, hnext, hu, hgo, ⟨hout, hmem⟩, hnone, hsome⟩ := atomic_ends hq hw hok hr he hlate hk (hjob.trans hrun)
  have hnote : (noteImported t h (ps.flatMap Placed.spots)).mem = t.mem ∧ (noteImported t h (ps.flatMap Placed.spots)).tags = t.tags := by
    unfold noteImported
    dsimp only
    split <;> exact ⟨rfl, rfl⟩
  have humem : u.mem = t.mem := hmem.trans hnote.1
  refine ⟨u, tm, hnext, hu, hgo, ⟨fun l hl => by rw [humem]; exact hleft l hl, fun p hp => by rw [humem]; exact hatt.others p hp,
    fun l hl => ?_⟩, hnone, hsome⟩
  rw [tagOf_tags (hout.tags.trans hnote.2)]
  exact (hdone l hl).1 l hl rfl

end

section
variable {s : State} {h : Here} {sw : Bool} {i : Instr} {jf : Frame → Job} {str : Option Nat} {off c kk : Nat → Nat} {d : Option Dst}
  {k : AtomKind} {new : Nat → Nat → Nat}

/-- An atomic in scratchpads. -/
theorem ends_spad (hq : Quiet s h) (hw : NoWatch h) (hok : RegistersOk s) (hr : Ready jf h.frame) (he : exec i s = issueJob i sw jf s)
    (hlate : (jf h.frame).late = d.isSome)
    (hjob : (jf h.frame).run h h.frame s = atomLanes h h.frame s str (.spad false) h.frame.mode.t.bytes false k
      (h.frame.on.map fun l => ⟨l, BitVec.ofNat 64 (off l), h.frame.mode.t.bytes⟩) (atomFin d))
    (hf : Fits s h false h.frame.mode.t.bytes h.frame.mode.t.bytes h.frame.on off c kk) (hwf : ∀ q, swf (spadOf s q) = true)
    (hnew : ∀ l v, k.new l v = new l v) :
    let n := h.frame.mode.t.bytes
    let x (l : Nat) : Nat := off l % 2 ^ 22
    let old (l : Nat) : Nat := readNat (spadOf s (c l)) (x l) n
    Ends i s h d (fun l => seenBy (fun k => (c k, x k)) new old (h.frame.on.filter fun k => decide (k < l)) l) fun u =>
      (∀ l ∈ h.frame.on, readNat (spadOf u (c l)) (x l) n = seenBy (fun k => (c k, x k)) new old h.frame.on l % 2 ^ (8 * n))
        ∧ (∀ q p, (∀ l ∈ h.frame.on, c l = q → ¬(x l ≤ p ∧ p < x l + n)) → sget (spadOf u q) p = sget (spadOf s q) p) ∧ u.mem = s.mem := by
  intro n x old
  obtain ⟨hn, hdvd⟩ := bytes_pos h.frame.mode.t
  let ps := h.frame.on.map (spadPlaced n off c kk)
  have hplaced := placeAll_fits (need := .both) hf
  have hcount := countBanks_sameBytes s h.t ps
  have hat : InSpads s n h.frame.on x c (countBanks s h.t ps) :=
    ⟨hcount.mem, hcount.cohorts, fun q => by rw [hcount.spads]; exact hwf q, fun q p _ => by rw [hcount.spads]⟩
  have hal (l : Nat) (hl : l ∈ h.frame.on) : x l % n = 0 := by
    have hpow : n ∣ 2 ^ 22 := hdvd.trans (by decide)
    rw [Nat.mod_mod_of_dvd _ hpow]
    exact (hf l hl).1
  obtain ⟨t, helems, hatt, hdone⟩ := atomElems_spec (P := spadPlaced n off c kk) (fun _ => rfl)
    (elemStep_spad (r := s) (h := h) (k := k) (n := n) (x := x) (c := c) (fun _ => rfl) (fun _ => rfl) hal
      fun l hl => (hf l hl).2.2.2.2) hat
  have hold (l : Nat) : elemVal (countBanks s h.t ps) n (.spad (c l) (x l)) = old l := by rw [elemVal, hcount.spads]
  have hchain (l v : Nat) := chain_eq (k := k) (on := h.frame.on) (E := fun l => .spad (c l) (x l)) (at_ := fun k => (c k, x k)) (new := new)
    (fun i j => by simp) hnew l v
  have hrun := atomLanes_core (fin := atomFin d) (k := k) (t := t) (sync := false)
    (got := fun l => seenBy (fun k => (c k, x k)) new old (h.frame.on.filter fun k => decide (k < l)) l) hq.2.2.2.1
    (fun hr => absurd hr (outerScope_spad_ne_pod _ _ _ _)) str rfl (congrArg Prod.snd hplaced)
    (by dsimp only; rw [hplaced]; exact helems) (fun _ => rfl) fun l hl => lane_found hl ((congrArg _ (hold l)).trans (hchain l _).2)
  have hk := Acts.teams (atomLanes_acts hq.2.2.2.1 str (.spad false) n false _ (fun hr => absurd hr (outerScope_spad_ne_pod _ _ _ _))
    (by rw [hplaced]) k d) hrun
  obtain ⟨u, tm, hnext, hu, hgo, ⟨hout, hmem⟩, hnone, hsome⟩ := atomic_ends hq hw hok hr he hlate hk (hjob.trans hrun)
  have hspad (q : Nat) : spadOf u q = spadOf t q := spadOf_congr hout.cohorts q
  refine ⟨u, tm, hnext, hu, hgo, ⟨fun l hl => ?_, fun q p hp => by rw [hspad]; exact hatt.others q p hp, hmem.trans hatt.mem⟩, hnone, hsome⟩
  have hval := (hdone l hl).2
  rw [hspad]
  refine hval.trans ?_
  show chain k (lanesOn h.frame.on (fun l => .spad (c l) (x l)) (.spad (c l) (x l))) (elemVal (countBanks s h.t ps) n (.spad (c l) (x l))) % _ = _
  rw [hold, (hchain l _).1]
  rfl

end

/-- The core's own dirty bytes of the elements' lines reach their homes before an atomic that acquires at CORE scope (log 42). -/
theorem own_reached {r : State} {core n : Nat} {addr : Nat → W64} {x y : Nat → Xlat} {on : List Nat} (hok : MemoryOk r) (hn : 0 < n)
    (hdvd : n ∣ 128) (hal : ∀ l ∈ on, (x l).pa % n = 0) {elems : List Nat}
    (hone : OneEach (dirtyOf r core fun z => (on.map fun l => lineOf (x l).pa).contains z.line))
    (hplain : PlainAt r ((dirtyOf r core fun z => (on.map fun l => lineOf (x l).pa).contains z.line).map (·.1) ++ elems)) :
    let s0 := writeBackWhere r core fun z => (linesOf ((on.map (globPlaced addr n x y)).flatMap Placed.spots)).contains z.line
    RecordsKept r s0 ∧ swf s0.mem = true
      ∧ ∀ a, sget s0.mem a = byteOver (dirtyOf r core fun z => (on.map fun l => lineOf (x l).pa).contains z.line) r.mem a := by
  have hlines : (fun z : L1Line => (linesOf ((on.map (globPlaced addr n x y)).flatMap Placed.spots)).contains z.line)
      = fun z => (on.map fun l => lineOf (x l).pa).contains z.line := funext fun z => by
    rw [Bool.eq_iff_iff, List.contains_iff_mem, List.contains_iff_mem, mem_lines_globPlaced hn hdvd hal, List.mem_map]
  intro s0
  refine ⟨(HomeFrame.writeBackWhere _ _ _).records, (Keeps.writeBackWhere _ _ _).memory hok, ?_⟩
  show ∀ a, sget (writeBackWhere _ _ _).mem a = _
  rw [hlines]
  exact writeBackWhere_reached core _ hok hone (PlainAt.mono hplain fun a ha => List.mem_append_left _ ha)

/-- Settles O37: the lanes of an element act one after another on what the one before left, and its write at home leaves every other
byte alone. -/
theorem atomicsAtHome : Obligations.AtomicsAtHome := by
  unfold Obligations.AtomicsAtHome
  intro sw str a o s h hq hw hok f t n seen ends
  constructor
  · intro hmem x y r pa hplaced hloc lines elems does fn
    have hdata (d : Option Dst) (g : AtomFn) (l v : Nat) : (AtomKind.fn g t (atomData f d)).new l v = fn d g l v := by
      cases d <;> rfl
    have hnoRelease {q : Prop} (hrel : outerScope (.glob true) (globAccs f a o n) false h.tm.mode.sc = some .pod) : q := by cases hrel
    have hrmem : MemoryOk r.1 := (Keeps.placeAll _ _ _ _ _ _).memory hmem
    obtain ⟨hn, hdvd⟩ := bytes_pos t
    refine ⟨fun d g hr hone hplain => ?_, fun d hr hone hplain => ?_, fun d g hcore hr hone hplain => ?_,
      fun d g hbeyond hpod htags hr hone hplain => ?_⟩
    · obtain ⟨u, tm, hnext, hu, hgo, ⟨hleft, hothers⟩, hnone, hsome⟩ :=
        ends_core (i := .atom sw d a o str g) (sw := sw) hq hw hok hr rfl rfl hnoRelease rfl hplaced hloc hplain
        (hdata d g) rfl ⟨.refl _, hrmem, fun _ => rfl⟩
      exact ⟨u, tm, hnext, hu, hgo, ⟨hleft, hothers, trivial⟩, hnone, hsome⟩
    · obtain ⟨u, tm, hnext, hu, hgo, ⟨hleft, hothers⟩, hnone, hsome⟩ :=
        ends_core (i := .cas sw d a o str) (sw := sw) (d := some d) hq hw hok hr rfl rfl hnoRelease rfl hplaced hloc
        hplain (fun _ _ => rfl) rfl ⟨.refl _, hrmem, fun _ => rfl⟩
      exact ⟨u, tm, hnext, hu, hgo, ⟨hleft, hothers, trivial⟩, hnone, hsome⟩
    · have hpod (hrel : outerScope (.glob true) (globAccs f a o n) true h.tm.mode.sc = some .pod) : podRelease s h = none := by
        have := outerScope_pod hrel
        rw [hcore] at this
        cases this
      obtain ⟨u, tm, hnext, hu, hgo, ⟨hleft, hothers⟩, hnone, hsome⟩ :=
        ends_core (i := .atomar sw d a o str g) (sw := sw) hq hw hok hr rfl rfl hpod rfl hplaced hloc hplain
        (hdata d g) (by rw [beyondCore, hcore]; rfl) (by
          dsimp only
          rw [hplaced]
          exact own_reached hrmem hn hdvd (fun l hl => (hloc l hl).1) hone hplain)
      exact ⟨u, tm, hnext, hu, hgo, ⟨hleft, hothers, trivial⟩, hnone, hsome⟩
    · obtain ⟨u, tm, hnext, hu, hgo, ⟨hleft, hothers, htag⟩, hnone, hsome⟩ :=
        ends_beyond (i := .atomar sw d a o str g) (sw := sw) hq hw hok hr rfl rfl
        (fun hrel => hpod (outerScope_pod hrel)) rfl hplaced hloc hplain (hdata d g) (by rw [beyondCore, if_pos (by simpa using hbeyond)]) rfl hmem
        fun l hl => htags _ (List.mem_map_of_mem hl)
      refine ⟨u, tm, hnext, hu, hgo, ⟨hleft, hothers, fun line hline => ?_⟩, hnone, hsome⟩
      obtain ⟨l, hl, rfl⟩ := List.mem_map.mp hline
      exact htag l hl
  · intro d g c k sp x old new hr hwf hfits
    exact ends_spad hq hw hok hr rfl rfl rfl (fun l hl => by
      obtain ⟨hal, hlt, hshare, hc, hlen⟩ := hfits l hl
      exact ⟨hal, hlt, hshare, hc, hlen⟩) hwf fun l v => by cases d <;> rfl

end Sys2Proof.Proofs.Atomics
end

section
/-! Certificates for the family spec/06_instructions_memory.md: barriers (R146, R199, R274 to R279). -/
namespace Sys2Proof.Proofs.Barriers
open Sys2Proof Sys2Proof.Machine Sys2Proof.Proofs.ControlFlow Sys2Proof.Proofs.Scratchpads Sys2Proof.Proofs.Queues Sys2Proof.Proofs.Rings
  Sys2Proof.Proofs.Leaving Sys2Proof.Proofs.WriteBacks Sys2Proof.Proofs.Accesses Sys2Proof.Proofs.Caches Sys2Proof.Proofs.Fences

/-! ## The barriers -/

/-- What is asked of an entry after its change, where the change does to it what `f` does to the answer. -/
theorem bind_modAt {α β : Type} {l : List α} {n : Nat} {F : α → α} {G : α → Option β} {f : β → β} (h : ∀ x, G (F x) = (G x).map f) :
    ((modAt F l n)[n]?).bind G = ((l[n]?).bind G).map f := by
  rw [modAt_same]
  cases l[n]? with
  | none => rfl
  | some x => exact h x

theorem bar_modBar (s : State) (b : BarRef) (f : Bar → Bar) : (s.modBar b f).bar? b = (s.bar? b).map f := by
  obtain ⟨u, i⟩ := b
  have hlist (l : List Bar) : (modAt f l i.val)[i.val]? = (l[i.val]?).map f := modAt_same _ _ _
  cases u with
  | cohort c => exact bind_modAt (F := fun x : Cohort => { x with bars := modAt f x.bars i.val }) fun x => hlist x.bars
  | gang g => exact bind_modAt (F := fun x : Gang => { x with bars := modAt f x.bars i.val }) fun x => hlist x.bars
  | die k d =>
    exact bind_modAt (F := fun x : Kernel => { x with dieBars := modAt (fun l => modAt f l i.val) x.dieBars d }) fun x => bind_modAt hlist
  | pkg k => exact bind_modAt (F := fun x : Kernel => { x with pkgBars := modAt f x.pkgBars i.val }) fun x => hlist x.pkgBars
  | pod k => exact bind_modAt (F := fun x : Kernel => { x with podBars := modAt f x.podBars i.val }) fun x => hlist x.podBars

/-- The cohorts, the gangs and the kernels are the same, and with them every barrier. -/
structure SameUnits (s s' : State) : Prop where
  cohorts : s'.cohorts = s.cohorts
  gangs   : s'.gangs = s.gangs
  kernels : s'.kernels = s.kernels

theorem SameUnits.refl (s : State) : SameUnits s s := ⟨rfl, rfl, rfl⟩
theorem SameUnits.trans {a b c : State} (h : SameUnits a b) (k : SameUnits b c) : SameUnits a c :=
  ⟨k.cohorts.trans h.cohorts, k.gangs.trans h.gangs, k.kernels.trans h.kernels⟩
theorem SameUnits.foldl {α : Type} {f : State → α → State} (hf : ∀ s x, SameUnits s (f s x)) (l : List α) (s : State) :
    SameUnits s (l.foldl f s) :=
  List.foldlRecOn l f (.refl s) fun _ hx y _ => hx.trans (hf _ y)
theorem SameUnits.bar {s s' : State} (h : SameUnits s s') (b : BarRef) : s'.bar? b = s.bar? b := by
  rw [State.bar?, State.bar?, h.cohorts, h.gangs, h.kernels]

/-! ## The members of a unit (R146) -/

/-- A gang but for its barriers. -/
def withoutBars (ga : Gang) : Gang := { ga with bars := [] }

/-- The members of every unit are the same. -/
structure SameMembers (s s' : State) : Prop where
  length : s'.teams.length = s.teams.length
  teams  : ∀ t : Nat, (s'.teams[t]?).map (fun tm => (tm.cohort, tm.alive)) = (s.teams[t]?).map fun tm => (tm.cohort, tm.alive)
  gangs  : s'.gangs.map withoutBars = s.gangs.map withoutBars
  deps   : ∀ k : Nat, (s'.kernels[k]?).map Kernel.deps = (s.kernels[k]?).map Kernel.deps

theorem SameMembers.refl (s : State) : SameMembers s s := ⟨rfl, fun _ => rfl, rfl, fun _ => rfl⟩
theorem SameMembers.trans {a b c : State} (h : SameMembers a b) (k : SameMembers b c) : SameMembers a c :=
  ⟨k.length.trans h.length, fun t => (k.teams t).trans (h.teams t), k.gangs.trans h.gangs, fun n => (k.deps n).trans (h.deps n)⟩

theorem map_modAt {α β : Type} {f : α → α} {g : α → β} (hg : ∀ x, g (f x) = g x) (l : List α) (n : Nat) : (modAt f l n).map g = l.map g := by
  refine List.ext_getElem? fun j => ?_
  rw [List.getElem?_map, List.getElem?_map, getElem?_modAt]
  split
  · rw [Option.map_map]
    exact congrArg (fun k => (l[j]?).map k) (funext hg)
  · rfl

theorem SameMembers.modBar (s : State) (b : BarRef) (f : Bar → Bar) : SameMembers s (s.modBar b f) := by
  have hkernels (k : Nat) {g : Kernel → Kernel} (hg : ∀ x, (g x).deps = x.deps) : SameMembers s (s.modKernel k g) := by
    refine ⟨rfl, fun _ => rfl, rfl, fun n => ?_⟩
    rw [State.modKernel_kernels, ← List.getElem?_map, map_modAt hg, List.getElem?_map]
  obtain ⟨u, i⟩ := b
  cases u with
  | cohort c => exact ⟨rfl, fun _ => rfl, rfl, fun _ => rfl⟩
  | gang g =>
    refine ⟨rfl, fun _ => rfl, ?_, fun _ => rfl⟩
    exact map_modAt (f := fun x : Gang => { x with bars := modAt f x.bars i.val }) (fun _ => rfl) _ _
  | die k d => exact hkernels k fun _ => rfl
  | pkg k => exact hkernels k fun _ => rfl
  | pod k => exact hkernels k fun _ => rfl

theorem SameMembers.setTeam {s : State} {t : Nat} {tm tm' : Team} (ht : s.teams[t]? = some tm) (hc : tm'.cohort = tm.cohort)
    (ha : tm'.alive = tm.alive) : SameMembers s (s.setTeam t tm') := by
  refine ⟨List.length_set .., fun j => ?_, rfl, fun _ => rfl⟩
  rw [State.setTeam_teams, List.getElem?_set]
  split
  · rename_i e
    subst e
    rw [if_pos (List.getElem?_eq_some_iff.mp ht).1, ht, Option.map_some, Option.map_some, hc, ha]
  · rfl

section
variable {s s' : State} (hm : SameMembers s s')
include hm

theorem SameMembers.alive (t : Nat) : ((s'.teams[t]?).map Team.alive).getD false = ((s.teams[t]?).map Team.alive).getD false := by
  have h := congrArg (Option.map Prod.snd) (hm.teams t)
  rw [Option.map_map, Option.map_map] at h
  exact congrArg (·.getD false) h

theorem SameMembers.inCohort (c t : Nat) :
    ((s'.teams[t]?).map fun tm => tm.cohort == c).getD false = ((s.teams[t]?).map fun tm => tm.cohort == c).getD false := by
  have h := congrArg (Option.map fun x => x.1 == c) (hm.teams t)
  rw [Option.map_map, Option.map_map] at h
  exact congrArg (·.getD false) h

/-- What is asked of a gang but for its barriers. -/
theorem SameMembers.gang {α : Type} {f : Gang → α} (hf : ∀ x, f (withoutBars x) = f x) (g : Nat) :
    (s'.gangs[g]?).map f = (s.gangs[g]?).map f := by
  have h := congrArg (fun l : List Gang => (l[g]?).map f) hm.gangs
  simp only [List.getElem?_map, Option.map_map] at h
  rwa [show f ∘ withoutBars = f from funext hf] at h

theorem SameMembers.gangsOf {p : Gang → Bool} (hp : ∀ x, p (withoutBars x) = p x) (k : Nat) : gangsOf s' k p = gangsOf s k p := by
  have hpick (l : List Gang) : (l.zipIdx.filter fun g => g.1.kernel = k && p g.1).map (·.2)
      = ((l.map withoutBars).zipIdx.filter fun g => g.1.kernel = k && p g.1).map (·.2) := by
    rw [List.zipIdx_map, List.filter_map, List.map_map]
    refine congrArg (List.map _) (List.filter_congr fun g _ => ?_)
    show _ = (decide ((withoutBars g.1).kernel = k) && p (withoutBars g.1))
    rw [hp]
    rfl
  rw [Machine.gangsOf, Machine.gangsOf, hpick, hm.gangs, ← hpick]

theorem SameMembers.unitGangs (u : BarUnit) : unitGangs s' u = unitGangs s u := by
  cases u with
  | cohort c => rfl
  | gang g => rfl
  | die k d => exact hm.gangsOf (p := fun ga => ga.group == d) (fun _ => rfl) k
  | pkg k => exact hm.gangsOf (p := fun _ => true) (fun _ => rfl) k
  | pod k => exact hm.gangsOf (p := fun _ => true) (fun _ => rfl) k

theorem SameMembers.unitTeams (u : BarUnit) : unitTeams s' u = unitTeams s u := by
  have halive : (fun t => ((s'.teams[t]?).map Team.alive).getD false) = fun t => ((s.teams[t]?).map Team.alive).getD false := funext hm.alive
  have hteams (g : Nat) := hm.gang (f := Gang.teams) (fun _ => rfl) g
  have hgangs (k : Nat) {p : Gang → Bool} (hp : ∀ x, p (withoutBars x) = p x) := hm.gangsOf hp k
  cases u with
  | cohort c => simp only [Machine.unitTeams, hm.length, hm.inCohort, hm.alive]
  | gang g => simp only [Machine.unitTeams, halive, hteams]
  | die k d => simp only [Machine.unitTeams, halive, hteams, hgangs k (p := fun ga => ga.group == d) fun _ => rfl]
  | pkg k => simp only [Machine.unitTeams, halive, hteams, hgangs k (p := fun _ => true) fun _ => rfl]
  | pod k => simp only [Machine.unitTeams, halive, hteams, hgangs k (p := fun _ => true) fun _ => rfl]

theorem SameMembers.gangAlive (ga : Gang) : gangAlive s' ga = gangAlive s ga := by simp only [Machine.gangAlive, hm.alive]

theorem SameMembers.liveMembers (u : BarUnit) : liveMembers s' u = liveMembers s u := by
  have hgang (g : Nat) : ((s'.gangs[g]?).map (Machine.gangAlive s')).getD false = ((s.gangs[g]?).map (Machine.gangAlive s)).getD false := by
    rw [show Machine.gangAlive s' = Machine.gangAlive s from funext hm.gangAlive, hm.gang fun _ => rfl]
  simp only [Machine.liveMembers, hm.unitTeams, hm.unitGangs, hgang]

theorem SameMembers.arrivals (u : BarUnit) (members : List Nat) : arrivals s' u members = arrivals s u members := by
  have harrived (g : Nat) : (match s'.gangs[g]? with
      | some (ga : Gang) => ga.teams.any members.contains
          && ga.teams.all fun t => members.contains t || !((s'.teams[t]?).map Team.alive).getD false
      | none => false) = match s.gangs[g]? with
      | some (ga : Gang) => ga.teams.any members.contains
          && ga.teams.all fun t => members.contains t || !((s.teams[t]?).map Team.alive).getD false
      | none => false := by
    have hteams := hm.gang (f := Gang.teams) (fun _ => rfl) g
    simp only [hm.alive]
    cases hg : s.gangs[g]? <;> cases hg' : s'.gangs[g]? <;> rw [hg, hg'] at hteams
    · cases hteams
    · cases hteams
    · dsimp only
      rw [Option.some.inj hteams]
  unfold Machine.arrivals
  rw [hm.unitGangs]
  split
  · rfl
  · exact congrArg List.length (List.filter_congr fun g _ => harrived g)

theorem SameMembers.joined (u : BarUnit) : joined s' u = joined s u := by
  cases u with
  | pod k =>
    have hdeps := congrArg (Option.map fun l : List Dep => l.any fun d => match d with
      | .join .. => true
      | .timeline .. => false | .edge .. => false) (hm.deps k)
    rw [Option.map_map, Option.map_map] at hdeps
    exact congrArg (·.getD false) hdeps
  | cohort c => rfl
  | gang g => rfl
  | die k d => rfl
  | pkg k => rfl

end

/-! ## Arrivals (R276, R277) -/

/-- The barrier is of a cohort, whose generation goes on at once (R276). -/
def ofCohort : BarUnit → Bool
  | .cohort _ => true | .gang _ => false | .die .. => false | .pkg _ => false | .pod _ => false

/-- The target of a generation to which an arrival with the count `v` is added. -/
def targetOf (s : State) (b : BarRef) (x : Bar) (v : W64) : Nat :=
  if x.state = .idle then (if v = 0 then liveMembers s b.unit else v.toNat) else x.target

/-- The arrival of team `t` meets the target. -/
def Full (s : State) (b : BarRef) (x : Bar) (v : W64) (t : Nat) : Prop :=
  (joined s b.unit = false ∨ v ≠ 0) ∧ targetOf s b x v ≤ arrivals s b.unit (x.members ++ [t])

/-- The barrier after an arrival that counts. -/
def Counted (s : State) (b : BarRef) (x : Bar) (v : W64) (t : Nat) (y : Bar) : Prop :=
  (Full s b x v t → ofCohort b.unit = true → y = ⟨x.gen + 1, none, 0, .idle, []⟩)
    ∧ (Full s b x v t → ofCohort b.unit = false → y = ⟨x.gen, some v, targetOf s b x v, .complete, x.members ++ [t]⟩)
    ∧ (¬Full s b x v t → y = ⟨x.gen, some v, targetOf s b x v, .counting, x.members ++ [t]⟩)

theorem settleBar_counting {s : State} {b : BarRef} {x : Bar} (hx : s.bar? b = some x) (hs : x.state = .counting) :
    (settleBar s b).bar? b = some (if (x.explicit = true ∨ joined s b.unit = false) ∧ x.target ≤ arrivals s b.unit x.members then
      (if ofCohort b.unit then x.next else { x with state := .complete }) else x) := by
  unfold settleBar
  rw [hx]
  dsimp only
  by_cases hfull : (x.explicit = true ∨ joined s b.unit = false) ∧ x.target ≤ arrivals s b.unit x.members
  · rw [if_pos hfull, if_pos (by simpa [hs] using hfull)]
    cases hu : b.unit <;> simp [bar_modBar, hx, ofCohort]
  · rw [if_neg hfull, if_neg (by simpa [hs] using hfull), hx]

/-- An arrival in the generation that counts, or is about to, counts. -/
theorem countArrival_counts {s : State} {b : BarRef} {x : Bar} {v : W64} (hx : s.bar? b = some x)
    (hs : x.state = .idle ∨ x.state = .counting) (hop : x.operand = some v) (t : Nat) :
    ∃ y, (countArrival s b t x.gen).bar? b = some y ∧ Counted s b x v t y := by
  let f (z : Bar) : Bar := { z with members := z.members ++ [t], target := if z.state == .idle then
    (match x.operand with
      | some n => if n = 0 then liveMembers s b.unit else n.toNat
      | none => liveMembers s b.unit) else z.target, state := .counting }
  have hnot : (x.gen != x.gen || x.state == .complete || x.state == .faulted) = false := by
    rcases hs with hs | hs <;> simp [hs]
  have hcount : countArrival s b t x.gen = settleBar (s.modBar b f) b := by
    rw [countArrival, hx]
    dsimp only
    rw [hnot]
    rfl
  have hf : f x = ⟨x.gen, some v, targetOf s b x v, .counting, x.members ++ [t]⟩ := by
    simp [f, hop, targetOf]
  have hbar : (s.modBar b f).bar? b = some ⟨x.gen, some v, targetOf s b x v, .counting, x.members ++ [t]⟩ := by
    rw [bar_modBar, hx, Option.map_some, hf]
  have hm := SameMembers.modBar s b f
  have hfull : ((⟨x.gen, some v, targetOf s b x v, .counting, x.members ++ [t]⟩ : Bar).explicit = true ∨ joined (s.modBar b f) b.unit = false)
      ∧ targetOf s b x v ≤ arrivals (s.modBar b f) b.unit (x.members ++ [t]) ↔ Full s b x v t := by
    rw [hm.joined, hm.arrivals, Bar.explicit, Full, or_comm]
    simp
  refine ⟨_, (congrArg (State.bar? · b) hcount).trans (settleBar_counting hbar rfl), fun h hu => ?_, fun h hu => ?_, fun h => ?_⟩
  · rw [if_pos (hfull.mpr h), if_pos hu]
    rfl
  · rw [if_pos (hfull.mpr h), if_neg (by simp [hu])]
  · rw [if_neg fun h' => h (hfull.mp h')]

/-- The team after its arrival. -/
def arrived (h : Here) (b : BarRef) (g : W32) : Team := { h.tm.setBar ⟨b, true, g⟩ with nextId := h.tm.nextId + 1 }

theorem barUse_setBar (tm : Team) (u : BarUse) : (tm.setBar u).barUse u.bar = u := by simp [Team.setBar, Team.barUse]

/-- The checks of an arrival refuse it (R279). -/
theorem arriveOk_refused {s : State} {h : Here} {b : BarRef} {x : Bar} {v : W64}
    (hr : (h.tm.barUse b).arr = true ∨ liveMembers s b.unit + otherGangs s b.unit < v.toNat ∨ x.state = .faulted
      ∨ (x.state = .counting ∧ ∃ m, x.operand = some m ∧ m ≠ v)) : arriveOk s h b x v = false := by
  unfold arriveOk
  rcases hr with hr | hr | hr | ⟨hr, m, hm, hne⟩
  · simp [hr]
  · simp [Nat.not_le.mpr hr]
  · simp [hr]
  · simp [hr, hm, hne]

/-- The arrival is the first of its generation. -/
def FirstArrival (s : State) (b : BarRef) (x : Bar) : Prop := x.state = .idle ∧ arrivalPosted s b x.gen = false

theorem arriveOk_ok {s : State} {h : Here} {b : BarRef} {x : Bar} {v : W64} (harr : (h.tm.barUse b).arr = false)
    (hv : v.toNat ≤ liveMembers s b.unit + otherGangs s b.unit) (hf : x.state ≠ .faulted)
    (hop : ¬FirstArrival s b x → x.state ≠ .complete → x.operand = some v) : arriveOk s h b x v = true := by
  have hcases : x.operand = none ∨ ∃ m, x.operand = some m ∧ (m = v ∨ x.state = .complete ∨ FirstArrival s b x) := by
    by_cases hfirst : FirstArrival s b x
    · cases hm : x.operand with
      | none => exact .inl rfl
      | some m => exact .inr ⟨m, rfl, .inr (.inr hfirst)⟩
    · by_cases hc : x.state = .complete
      · cases hm : x.operand with
        | none => exact .inl rfl
        | some m => exact .inr ⟨m, rfl, .inr (.inl hc)⟩
      · exact .inr ⟨v, hop hfirst hc, .inl rfl⟩
  unfold arriveOk
  rcases hcases with hnone | ⟨m, hm, rfl | hc | ⟨hi, hp⟩⟩
  · simp [harr, hv, hf, hnone]
  · simp [harr, hv, hf, hm]
  · simp [harr, hv, hm, hc]
  · simp [harr, hv, hm, hi, hp]

theorem Counted.congr {s s' : State} {b : BarRef} {x x' : Bar} {v : W64} {t : Nat} {y : Bar} (hc : Counted s' b x' v t y)
    (hm : SameMembers s s') (hg : x'.gen = x.gen) (hs : x'.state = x.state) (ht : x'.target = x.target) (hl : x'.members = x.members) :
    Counted s b x v t y := by
  simpa only [Counted, Full, targetOf, hm.joined, hm.arrivals, hm.liveMembers, hg, hs, ht, hl] using hc

/-- The state in which an arrival is posted: the first of a generation brings the count. -/
def opened (s : State) (b : BarRef) (x : Bar) (v : W64) : State :=
  let s0 := if joined s b.unit then s.bump else s
  if x.state == .idle && !arrivalPosted s b x.gen then s0.modBar b fun y => { y with operand := some v } else s0

theorem opened_spec {s : State} {b : BarRef} {x : Bar} {v : W64} (hx : s.bar? b = some x)
    (hop : ¬FirstArrival s b x → x.state ≠ .complete → x.operand = some v) :
    let s1 := opened s b x v
    s1.teams = s.teams ∧ s1.mem = s.mem ∧ SameMembers s s1 ∧ ∃ x1, s1.bar? b = some x1 ∧ x1.gen = x.gen ∧ x1.state = x.state
      ∧ x1.target = x.target ∧ x1.members = x.members ∧ (x.state ≠ .complete → x1.operand = some v) ∧ (x.state = .complete → x1 = x) := by
  have hbump (s' : State) (hs' : s' = if joined s b.unit then s.bump else s) :
      s'.teams = s.teams ∧ s'.mem = s.mem ∧ SameMembers s s' ∧ s'.bar? b = some x := by
    subst hs'
    split
    · exact ⟨rfl, rfl, ⟨rfl, fun _ => rfl, rfl, fun _ => rfl⟩, hx⟩
    · exact ⟨rfl, rfl, .refl s, hx⟩
  obtain ⟨hteams, hmem, hsame, hbar⟩ := hbump _ rfl
  unfold opened
  dsimp only
  split
  · rename_i hfirst
    have hidle : x.state = .idle := by
      rw [Bool.and_eq_true] at hfirst
      exact eq_of_beq hfirst.1
    have hmod := SameTeams.modBar (if joined s b.unit then s.bump else s) b fun y => { y with operand := some v }
    refine ⟨hmod.teams.trans hteams, hmod.memory.trans hmem, hsame.trans (.modBar _ _ _), { x with operand := some v }, ?_,
      rfl, rfl, rfl, rfl, fun _ => rfl, fun hc => ?_⟩
    · rw [bar_modBar, hbar]
      rfl
    · rw [hidle] at hc
      cases hc
  · rename_i hno
    refine ⟨hteams, hmem, hsame, x, hbar, rfl, rfl, rfl, rfl, hop fun hfirst => hno ?_, fun _ => rfl⟩
    simp [hfirst.1, hfirst.2]

section
variable {s : State} {h : Here} {b : BarRef} {x : Bar} {v : W64}

theorem barArriveNow_refused (hx : s.bar? b = some x) (hr : arriveOk s h b x v = false) (k : State → Outcome State) :
    barArriveNow s h b v k = .next (takeFault (faultBar s b) h h.tm (.plain 0x13 h.tm.pc h.tm.active 0) h.tm.pc) := by
  rw [barArriveNow, hx]
  simp [hr, barrierFault]

/-- An arrival whose checks pass: the team has arrived in the generation, which counts it unless it is COMPLETE. -/
theorem barArriveNow_ok (hq : Quiet s h) (hx : s.bar? b = some x) (hposts : h.tm.posts = []) (hok : arriveOk s h b x v = true)
    (hf : x.state ≠ .faulted) (hop : ¬FirstArrival s b x → x.state ≠ .complete → x.operand = some v) (k : State → Outcome State) :
    ∃ s1, barArriveNow s h b v k = k s1 ∧ s1.teams[h.t]? = some (arrived h b x.gen) ∧ s1.mem = s.mem
      ∧ (x.state = .complete → s1.bar? b = some x) ∧ (x.state ≠ .complete → ∃ y, s1.bar? b = some y ∧ Counted s b x v h.t y) := by
  obtain ⟨tm, ht, htm, -, hissue, -⟩ := issuing_some hq.1
  obtain ⟨hteams, hmem, hsame, x1, hx1, hgen, hstate, htarget, hmembers, hoperand, hcomplete⟩ := opened_spec hx hop
  have hlt : h.t < (opened s b x v).teams.length := by rw [hteams]; exact team_lt hq.1
  have hset : ((opened s b x v).setTeam h.t (h.tm.setBar ⟨b, true, x.gen⟩)).teams[h.t]? = some (h.tm.setBar ⟨b, true, x.gen⟩) :=
    List.getElem?_set_self hlt
  obtain ⟨fail, hpost⟩ := postNow_idle hset hposts hq.2.2.2.1 hq.2.2.1 h.tm.pc (.arrive b x.gen)
  let s3 : State := ((opened s b x v).setTeam h.t (h.tm.setBar ⟨b, true, x.gen⟩)).setTeam h.t (arrived h b x.gen)
  have halive : tm.alive = h.tm.alive := by
    have hrun : tm.status ≠ .retired := fun hret => by
      simp [canIssue, hret] at hissue
    rw [htm, Team.alive, Team.alive, bne_iff_ne.mpr hrun]
    rfl
  have hsame3 : SameMembers s s3 :=
    (hsame.trans (.setTeam (tm := tm) (tm' := h.tm.setBar ⟨b, true, x.gen⟩) (by rw [hteams, ht]) (by rw [htm]; rfl) halive.symm)).trans
      (.setTeam hset rfl rfl)
  have hbar3 : s3.bar? b = some x1 := hx1
  have hcount := SameTeams.countArrival s3 b h.t x.gen
  refine ⟨countArrival s3 b h.t x.gen, ?_, ?_, ?_, fun hc => ?_, fun hc => ?_⟩
  · have hnow : teamNow (opened s b x v) h = h.tm := teamNow_same hq hteams
    rw [barArriveNow, hx]
    dsimp only
    rw [hok]
    show k (postNow ((opened s b x v).setTeam h.t ((teamNow (opened s b x v) h).setBar ⟨b, true, x.gen⟩)) h.t h.tm.pc (.arrive b x.gen)) = _
    rw [hnow, hpost]
    rfl
  · rw [hcount.teams]
    exact List.getElem?_set_self (by rw [State.setTeam_teams, List.length_set]; exact hlt)
  · exact hcount.memory.trans hmem
  · have hdone : countArrival s3 b h.t x.gen = s3 := by
      rw [countArrival, hbar3]
      simp [hstate, hc]
    rw [hdone, hbar3, hcomplete hc]
  · have hcounts : x1.state = .idle ∨ x1.state = .counting := by
      rw [hstate]
      cases hs : x.state with
      | idle => exact .inl rfl
      | counting => exact .inr rfl
      | complete => exact absurd hs hc
      | faulted => exact absurd hs hf
    obtain ⟨y, hy, hcounted⟩ := countArrival_counts hbar3 hcounts (hoperand hc) h.t
    rw [hgen] at hy
    exact ⟨y, hy, hcounted.congr hsame3 hgen hstate htarget hmembers⟩

end

/-! ## Waits (R277, R279) -/

/-- Leaving a generation: memory and the teams stay, and above the cohort level the core self-invalidates. -/
theorem barLeave_spec (s : State) (h : Here) (l : BarLevel) : (barLeave s h l).mem = s.mem ∧ TeamsKept s (barLeave s h l)
    ∧ (l ≠ .cohort → SelfInvalidated (barLeave s h l) h.core h.asid) := by
  have hself : (selfInvalidate s h.core h.asid).mem = s.mem ∧ TeamsKept s (selfInvalidate s h.core h.asid)
      ∧ SelfInvalidated (selfInvalidate s h.core h.asid) h.core h.asid :=
    ⟨dropClean_mem _ _ _, .dropClean _ _ _, fun _ hx => selfInvalidate_clean hx⟩
  obtain ⟨hmem, hteams, hgone⟩ := hself
  cases l with
  | cohort => exact ⟨rfl, .refl s, fun h => absurd rfl h⟩
  | gang => exact ⟨hmem, hteams, fun _ => hgone⟩
  | die => exact ⟨hmem, hteams, fun _ => hgone⟩
  | pkg => exact ⟨hmem, hteams, fun _ => hgone⟩
  | pod =>
    obtain ⟨hmem', hteams', -⟩ := foldl_acquirePage h.core h.asid (diePages s (dieOf h.core)) (selfInvalidate s h.core h.asid)
    exact ⟨hmem'.trans hmem, hteams.trans hteams', fun _ => List.foldlRecOn (motive := fun t => SelfInvalidated t h.core h.asid) _ _ hgone
      fun _ _ _ _ => acquirePage_invalidated _ _ _ _⟩

section
variable {s : State} {h : Here} {b : BarRef} {x : Bar} (hx : s.bar? b = some x) (sw : Bool) (l : BarLevel) (lits : Nat)
include hx

theorem barWaitNow_goes {tm0 : Team} (ht : s.teams[h.t]? = some tm0) (htm : h.tm = { tm0 with status := .running, before := none })
    (hclaims : h.tm.claims = []) (hst : x.state ≠ .faulted ∨ waitedFor h b = true) (harr : (h.tm.barUse b).arr = true)
    (hgen : x.gen ≠ (h.tm.barUse b).g) : ∃ s1 tm, barWaitNow sw s h l b lits = .next (endAt s1 h sw (nextPc h.tm.pc lits) onePass tm)
      ∧ h.t < s1.teams.length ∧ tm.claims = [] ∧ tm.regs = h.tm.regs ∧ (tm.barUse b).arr = false ∧ s1.mem = s.mem
      ∧ (l ≠ .cohort → SelfInvalidated s1 h.core h.asid) := by
  obtain ⟨hmem, hteams, hgone⟩ := barLeave_spec s h l
  obtain ⟨tm', ht', w, c, p, g, bs, rfl⟩ := hteams _ _ ht
  have hgo : (!(h.tm.barUse b).arr || (x.state == .faulted && !(x.gen != (h.tm.barUse b).g && waitedFor h b))) = false := by
    rcases hst with hst | hst
    · simp [harr, hst]
    · simp [harr, hgen, hst]
  refine ⟨barLeave s h l, (teamNow (barLeave s h l) h).setBar ⟨b, false, (h.tm.barUse b).g⟩, ?_, (List.getElem?_eq_some_iff.mp ht').1, ?_, ?_,
    by rw [barUse_setBar (u := ⟨b, false, (h.tm.barUse b).g⟩)], hmem, hgone⟩
  · rw [barWaitNow, hx]
    dsimp only
    rw [hgo, if_neg Bool.false_ne_true, if_pos (bne_iff_ne.mpr hgen)]
  · show (teamNow (barLeave s h l) h).claims = []
    rw [teamNow, ht', ← hclaims, htm]
    rfl
  · show (teamNow (barLeave s h l) h).regs = h.tm.regs
    rw [teamNow, ht', htm]
    rfl

theorem barWaitNow_blocks (hst : x.state ≠ .faulted) (harr : (h.tm.barUse b).arr = true) (hgen : x.gen = (h.tm.barUse b).g) :
    barWaitNow sw s h l b lits = .next (block s h h.tm (.barrier b (h.tm.barUse b).g)) := by
  rw [barWaitNow, hx]
  simp [harr, hst, hgen]

theorem barWaitNow_refused (hr : (h.tm.barUse b).arr = false ∨ x.state = .faulted ∧ (x.gen = (h.tm.barUse b).g ∨ waitedFor h b = false)) :
    barWaitNow sw s h l b lits = .next (takeFault (faultBar s b) h h.tm (.plain 0x13 h.tm.pc h.tm.active 0) h.tm.pc) := by
  rw [barWaitNow, hx]
  rcases hr with hr | ⟨hf, hr | hr⟩
  · simp [hr, barrierFault]
  · simp [hf, hr, barrierFault]
  · simp [hf, hr, barrierFault]

end

theorem waitedFor_iff {h : Here} {b : BarRef} : waitedFor h b = true ↔ ∃ g, h.wake = some (.barrier b g) := by
  unfold waitedFor
  split
  · rename_i c g hw
    simp [hw]
  · rename_i hno
    simp only [Bool.false_eq_true, false_iff, not_exists]
    exact fun g => hno b g

/-! ## Barriers as instructions -/

theorem litWords_barArrive (sw : Bool) (l : BarLevel) (id : Fin 16) (n : Cnt) : (litWords (.barArrive sw l id n)).length = cntLits n := by
  cases n <;> rfl
theorem litWords_barWait (sw : Bool) (l : BarLevel) (id : Fin 16) (n : Cnt) : (litWords (.barWait sw l id n)).length = cntLits n := by
  cases n <;> rfl
theorem litWords_barSync (sw : Bool) (l : BarLevel) (id : Fin 16) (n : Cnt) : (litWords (.barSync sw l id n)).length = cntLits n := by
  cases n <;> rfl

section
variable {s : State} {h : Here} (hq : Quiet s h) (sw : Bool) (l : BarLevel) (id : Fin 16) (n : Cnt)
include hq

/-- Without a barrier each of them raises BARRIER (R146). -/
theorem exec_bar_none (hb : barRefOf h l id = none) (i : Instr)
    (hi : i = .barArrive sw l id n ∨ i = .barWait sw l id n ∨ i = .barSync sw l id n) :
    exec i s = .next (takeFault s h h.tm (.plain 0x13 h.tm.pc h.tm.active 0) h.tm.pc) := by
  rcases hi with rfl | rfl | rfl
  · show execBarArrive sw l id n s = _
    rw [execBarArrive, onTeam_issuing hq.1, reading_noClaims hq.2.1, hb]
    rfl
  · show execBarWait sw l id n s = _
    rw [execBarWait, onTeam_issuing hq.1, whenDrained_noClaims hq.2.1 hq.2.2.1, hb]
    rfl
  · show execBarSync sw l id n s = _
    rw [execBarSync, onTeam_issuing hq.1, whenDrained_noClaims hq.2.1 hq.2.2.1, hb]
    rfl

variable {b : BarRef} (hb : barRefOf h l id = some b)
include hb

theorem exec_barArrive : exec (.barArrive sw l id n) s = barArriveNow s h b (cntVal h.frame n) fun s1 =>
    .next (endAt s1 h sw (after h (.barArrive sw l id n)) onePass (teamNow s1 h)) := by
  show execBarArrive sw l id n s = _
  rw [execBarArrive, onTeam_issuing hq.1, reading_noClaims hq.2.1, hb, nextPc_after (litWords_barArrive sw l id n)]

theorem exec_barWait : exec (.barWait sw l id n) s = barWaitNow sw s h l b (cntLits n) := by
  show execBarWait sw l id n s = _
  rw [execBarWait, onTeam_issuing hq.1, whenDrained_noClaims hq.2.1 hq.2.2.1, hb]

theorem exec_barSync : exec (.barSync sw l id n) s = if waitedFor h b then barWaitNow sw s h l b (cntLits n)
    else barArriveNow s h b (cntVal h.frame n) fun s1 => barWaitNow sw s1 { h with tm := teamNow s1 h } l b (cntLits n) := by
  show execBarSync sw l id n s = _
  rw [execBarSync, onTeam_issuing hq.1, whenDrained_noClaims hq.2.1 hq.2.2.1, hb]

end

/-- A barrier instruction goes on in the state `t`, its team's use of the barrier as said. -/
def Goes (i : Instr) (s : State) (h : Here) (b : BarRef) (g : W32) (t : State) (arr : Bool) : Prop := exec i s = .next t
  ∧ ∃ tm, t.teams[h.t]? = some tm ∧ tm.pc = after h i ∧ tm.regs = h.tm.regs ∧ (tm.barUse b).arr = arr
    ∧ (arr = true → (tm.barUse b).g = g) ∧ t.mem = s.mem

theorem goes_of {i : Instr} {sw : Bool} {s s1 : State} {h h' : Here} {b : BarRef} {g : W32} {tm : Team} {arr : Bool} (ht : h'.t = h.t)
    (he : exec i s = .next (endAt s1 h' sw (after h i) onePass tm)) (hlt : h'.t < s1.teams.length) (hclaims : tm.claims = [])
    (hregs : tm.regs = h.tm.regs) (harr : (tm.barUse b).arr = arr) (hg : arr = true → (tm.barUse b).g = g) (hmem : s1.mem = s.mem) :
    Goes i s h b g (endAt s1 h' sw (after h i) onePass tm) arr := by
  obtain ⟨age, owed, hend⟩ := endAt_noClaims (h := h') hlt sw (after h i) onePass hclaims
  rw [ht] at hend
  exact ⟨he, _, hend, rfl, hregs, harr, hg, hmem⟩

/-- The core holds no clean byte of the ASID on a page with P = 0, where the level is above the cohort's. -/
def Left (l : BarLevel) (h : Here) (t : State) : Prop := l ≠ .cohort →
  ∀ c y, t.cores[h.core]? = some c → y ∈ c.l1 → y.asid = h.asid → y.priv = false → y.clean = none

/-- What `wait` does, and a `sync` that has waited: it goes on, blocks, or raises BARRIER. -/
def Waits (i : Instr) (s : State) (h : Here) (l : BarLevel) (b : BarRef) (x : Bar) : Prop :=
  let u := h.tm.barUse b
  ((x.state ≠ .faulted ∨ ∃ g, h.wake = some (.barrier b g)) → u.arr = true → x.gen ≠ u.g → ∃ t, Goes i s h b x.gen t false ∧ Left l h t)
    ∧ (x.state ≠ .faulted → u.arr = true → x.gen = u.g →
      exec i s = .next { s with teams := s.teams.set h.t { h.tm with status := .blocked (.barrier b u.g) } })
    ∧ ((u.arr = false ∨ (x.state = .faulted ∧ (x.gen = u.g ∨ ∀ g, h.wake ≠ some (.barrier b g)))) →
      exec i s = .next (takeFault (faultBar s b) h h.tm (.plain 0x13 h.tm.pc h.tm.active 0) h.tm.pc))

theorem waits_of {i : Instr} {sw : Bool} {s : State} {h : Here} {l : BarLevel} {b : BarRef} {x : Bar} {n : Nat} (hq : Quiet s h)
    (hx : s.bar? b = some x) (he : exec i s = barWaitNow sw s h l b n) (hn : nextPc h.tm.pc n = after h i) : Waits i s h l b x := by
  refine ⟨fun hst harr hgen => ?_, fun hst harr hgen => he.trans (barWaitNow_blocks hx sw l n hst harr hgen),
    fun hr => he.trans (barWaitNow_refused hx sw l n (hr.imp_right fun ⟨hf, hw⟩ => ⟨hf, hw.imp_right fun hno => ?_⟩))⟩
  · obtain ⟨tm0, ht, htm, -⟩ := issuing_some hq.1
    obtain ⟨s1, tm, hwait, hlt, hclaims, hregs, hfalse, hmem, hgone⟩ :=
      barWaitNow_goes hx sw l n ht htm hq.2.1 (hst.imp_right waitedFor_iff.mpr) harr hgen
    rw [hn] at hwait
    refine ⟨_, goes_of rfl (he.trans hwait) hlt hclaims hregs hfalse (by simp) hmem, fun hl c y hc hy => ?_⟩
    exact hgone hl y (Outside.mem_l1Of (endAt_outside _ _ _ _ _ _) hc hy)
  · exact Bool.eq_false_iff.mpr fun hw => (waitedFor_iff.mp hw).elim fun g hg => hno g hg

section
variable {s : State} {h : Here} (hq : Quiet s h) (sw : Bool) {l : BarLevel} {id : Fin 16} {n : Cnt} {b : BarRef} {x : Bar}
  (hb : barRefOf h l id = some b) (hx : s.bar? b = some x) (hposts : h.tm.posts = [])
  (hok : arriveOk s h b x (cntVal h.frame n) = true) (hf : x.state ≠ .faulted)
  (hop : ¬FirstArrival s b x → x.state ≠ .complete → x.operand = some (cntVal h.frame n))
include hq hb hx hposts hok hf hop

/-- An arrival goes on at the next word. -/
theorem barArrive_done : ∃ t, Goes (.barArrive sw l id n) s h b x.gen t true ∧ (x.state = .complete → t.bar? b = some x)
    ∧ (x.state ≠ .complete → ∃ y, t.bar? b = some y ∧ Counted s b x (cntVal h.frame n) h.t y) := by
  obtain ⟨s1, harrive, ht, hmem, hcomplete, hcounts⟩ := barArriveNow_ok hq hx hposts hok hf hop
    fun s1 => .next (endAt s1 h sw (after h (.barArrive sw l id n)) onePass (teamNow s1 h))
  have hnow : teamNow s1 h = { arrived h b x.gen with status := .running, before := none } := by rw [teamNow, ht]; rfl
  have huse : (teamNow s1 h).barUse b = ⟨b, true, x.gen⟩ := by
    rw [hnow]
    exact barUse_setBar h.tm ⟨b, true, x.gen⟩
  have hbar : (endAt s1 h sw (after h (.barArrive sw l id n)) onePass (teamNow s1 h)).bar? b = s1.bar? b := rfl
  refine ⟨_, goes_of rfl ((exec_barArrive hq sw l id n hb).trans harrive) (List.getElem?_eq_some_iff.mp ht).1 ?_ ?_ (by rw [huse])
    (fun _ => by rw [huse]) hmem, fun hc => hbar.trans (hcomplete hc), fun hc => ?_⟩
  · rw [hnow]
    exact hq.2.1
  · rw [hnow]
    rfl
  · obtain ⟨y, hy, hcounted⟩ := hcounts hc
    exact ⟨y, hbar.trans hy, hcounted⟩

/-- A `sync` that has not waited: it arrives, and then goes on or blocks as its generation has passed or not. -/
theorem barSync_done (hwait : waitedFor h b = false) : ∃ y,
    (x.state = .complete → y = x) ∧ (x.state ≠ .complete → Counted s b x (cntVal h.frame n) h.t y)
    ∧ (y.state ≠ .faulted → y.gen = x.gen → ∃ t tm, exec (.barSync sw l id n) s = .next t ∧ t.teams[h.t]? = some tm
        ∧ tm.status = .blocked (.barrier b x.gen) ∧ tm.pc = h.tm.pc ∧ t.bar? b = some y)
    ∧ (y.state ≠ .faulted → y.gen ≠ x.gen → ∃ t, Goes (.barSync sw l id n) s h b x.gen t false) := by
  obtain ⟨s1, harrive, ht, hmem, hcomplete, hcounts⟩ := barArriveNow_ok hq hx hposts hok hf hop
    fun s1 => barWaitNow sw s1 { h with tm := teamNow s1 h } l b (cntLits n)
  have hexec := exec_barSync hq sw l id n hb
  rw [hwait, if_neg Bool.false_ne_true, harrive] at hexec
  have hnow : teamNow s1 h = { arrived h b x.gen with status := .running, before := none } := by rw [teamNow, ht]; rfl
  have huse : (teamNow s1 h).barUse b = ⟨b, true, x.gen⟩ := by
    rw [hnow]
    exact barUse_setBar h.tm ⟨b, true, x.gen⟩
  have hbar : ∃ y, s1.bar? b = some y ∧ (x.state = .complete → y = x) ∧ (x.state ≠ .complete → Counted s b x (cntVal h.frame n) h.t y) := by
    by_cases hc : x.state = .complete
    · exact ⟨x, hcomplete hc, fun _ => rfl, fun h => absurd hc h⟩
    · obtain ⟨y, hy, hcounted⟩ := hcounts hc
      exact ⟨y, hy, fun h => absurd h hc, fun _ => hcounted⟩
  obtain ⟨y, hy, hyc, hyn⟩ := hbar
  refine ⟨y, hyc, hyn, fun hs hg => ?_, fun hs hg => ?_⟩
  · have hblocks := barWaitNow_blocks (h := { h with tm := teamNow s1 h }) hy sw l (cntLits n) hs (by rw [huse]) (by rw [huse, hg])
    rw [huse] at hblocks
    refine ⟨_, _, hexec.trans hblocks, List.getElem?_set_self (List.getElem?_eq_some_iff.mp ht).1, rfl, ?_, hy⟩
    show (teamNow s1 h).pc = h.tm.pc
    rw [hnow]
    rfl
  · obtain ⟨s2, tm, hgoes, hlt, hclaims, hregs, hfalse, hmem2, -⟩ := barWaitNow_goes (h := { h with tm := teamNow s1 h }) hy sw l (cntLits n) ht
      hnow (by show (teamNow s1 h).claims = []; rw [hnow]; exact hq.2.1) (.inl hs) (by rw [huse]) (by rw [huse]; exact hg)
    have hpc : (teamNow s1 h).pc = h.tm.pc := by rw [hnow]; rfl
    have hregs' : (teamNow s1 h).regs = h.tm.regs := by rw [hnow]; rfl
    have hnext : nextPc (teamNow s1 h).pc (cntLits n) = after h (.barSync sw l id n) := by
      rw [hpc]
      exact nextPc_after (litWords_barSync sw l id n)
    rw [show ({ h with tm := teamNow s1 h } : Here).tm.pc = (teamNow s1 h).pc from rfl, hnext] at hgoes
    exact ⟨_, goes_of (h' := { h with tm := teamNow s1 h }) rfl (hexec.trans hgoes)
      hlt hclaims (hregs.trans hregs') hfalse (by simp) (hmem2.trans hmem)⟩

end

/-! ## The end of a generation (R199, R276) -/

theorem SameUnits.dieWrite (s : State) (o : ReqOwner) (core key line : Nat) (who : List (Nat × Author)) (sync : Bool) (ws : List (Nat × Byte)) :
    SameUnits s (dieWrite s o core key line who sync ws).1 := by
  unfold Machine.dieWrite
  dsimp only
  exact List.foldlRecOn _ _ (motive := fun p : State × List Nat => SameUnits s p.1) ⟨rfl, rfl, rfl⟩ fun p hp r _ => hp.trans ⟨rfl, rfl, rfl⟩

theorem SameUnits.homeWrite (s : State) (key : Nat) (ws : List (Nat × Byte)) : SameUnits s (homeWrite s key ws) := by
  have hput (s : State) (ls : List Nat) : SameUnits s (ls.foldl mscPut s) :=
    .foldl (f := mscPut) (fun _ _ => ⟨rfl, rfl, rfl⟩) ls s
  have htails (s : State) (ws : List (Nat × Byte)) : SameUnits s (noteTails s ws) := by
    unfold noteTails
    split <;> exact ⟨rfl, rfl, rfl⟩
  have hheads (s : State) (ws : List (Nat × Byte)) : SameUnits s (noteHeads s ws) := by
    unfold noteHeads
    dsimp only
    split <;> exact ⟨rfl, rfl, rfl⟩
  have hexp (ws : List (Nat × Byte)) : SameUnits s (homeWriteExp none s key ws) := ⟨rfl, rfl, rfl⟩
  exact (((hexp _).trans (hput _ _)).trans (htails _ _)).trans (hheads _ _)

theorem SameUnits.writeBackWhere (s : State) (core : Nat) (p : L1Line → Bool) : SameUnits s (writeBackWhere s core p) := by
  unfold Machine.writeBackWhere
  split
  · refine .foldl (fun s x => ?_) _ s
    unfold writeBackLine writeBackPart
    split
    · exact .refl s
    · dsimp only
      refine SameUnits.trans (b := if importedLine x.line then _ else _) ?_ ⟨rfl, rfl, rfl⟩
      split
      · exact .foldl (fun _ _ => .dieWrite _ _ _ _ _ _ _ _) _ _
      · exact .homeWrite _ _ _
  · exact .refl s

/-- Addresses that a record takes as they are written stay so in a state with the same records, whatever has been written at them. -/
theorem plainAt_same {s t : State} {as : List Nat} (hp : PlainAt s as) (hr : SameRecords as s t) : PlainAt t as := by
  refine ⟨fun c hc hd a ha => ?_, fun m hm q hq a ha => ?_⟩
  · have hmem : withoutHead c ∈ s.ctxs.map withoutHead := hr.frame.ctxs ▸ List.mem_map_of_mem hc
    obtain ⟨c0, hc0, he⟩ := List.mem_map.mp hmem
    have hstate : c0.state = c.state := (congrArg Ctx.state he :)
    have hat : c0.recAt = c.recAt := (congrArg Ctx.recAt he :)
    rw [← hat]
    exact hp.1 c0 hc0 (by rwa [hstate]) a ha
  · have hfield (off : Nat) : queueField { t with mem := m } q off = queueField { s with mem := m } q off := by
      have hframe : HomeFrame s { t with mem := m } :=
        hr.frame.trans ⟨.of_eq rfl, fun _ => rfl, rfl, rfl, rfl⟩
      exact queueField_frame hframe q off
    rw [hfield, hfield]
    exact hp.2 m (fun b hb => (hm b hb).trans (hr.memory b hb)) q (hr.frame.queues ▸ hq) a ha

theorem dirtyOf_l1 {s t : State} {core : Nat} (h : l1Of t core = l1Of s core) (p : L1Line → Bool) : dirtyOf t core p = dirtyOf s core p := by
  have hd (s : State) : dirtyOf s core p = ((l1Of s core).filter fun x => p x && !importedLine x.line).flatMap fun x =>
      x.dirty.map fun q => (x.line * 128 + q.1, q.2) := by
    rw [dirtyOf, l1Of]
    cases s.cores[core]? <;> rfl
  rw [hd, hd, h]

/-- The dirty bytes of the lines of an ASID on each core of a list. -/
def dirtySets (s : State) (cs : List (Nat × Nat)) : List (Nat × Byte) := cs.flatMap fun c => dirtyOf s c.1 fun y => y.asid == c.2

theorem clearCore_l1 (s : State) {core k : Nat} (asid : Nat) (hk : k ≠ core) : l1Of (clearCore s core asid) k = l1Of s k := by
  rw [l1Of, l1Of, clearCore, writeBackWhere_others _ _ _ hk]

theorem clears_l1 {cs : List (Nat × Nat)} {k : Nat} (hk : k ∉ cs.map (·.1)) (t : State) :
    l1Of (cs.foldl (fun s c => clearCore s c.1 c.2) t) k = l1Of t k :=
  List.foldlRecOn (motive := fun u : State => l1Of u k = l1Of t k) _ _ rfl fun u hu c hc =>
    (clearCore_l1 u c.2 fun e => hk (List.mem_map.mpr ⟨c, hc, e.symm⟩)).trans hu

/-- Clearings of different cores leave no dirty byte of the ASID on any of them. -/
theorem clears_clean : ∀ {cs : List (Nat × Nat)}, (cs.map (·.1)).Nodup → ∀ (t : State), ∀ c ∈ cs,
    ∀ x ∈ l1Of (cs.foldl (fun s c => clearCore s c.1 c.2) t) c.1, x.asid = c.2 → x.dirty = []
  | c0 :: cs, hnd, t, c, hc, x, hx, ha => by
    rw [List.map_cons, List.nodup_cons] at hnd
    rw [List.foldl_cons] at hx
    rcases List.mem_cons.mp hc with rfl | hc
    · rw [clears_l1 hnd.1] at hx
      exact writeBackWhere_clean t c.1 _ hx (by simp [ha])
    · exact clears_clean hnd.2 _ c hc x hx ha

section
variable {s : State} {d : List (Nat × Byte)} (hone : OneEach d) (hp : PlainAt s (d.map (·.1)))
include hone hp

/-- Clearings of different cores bring their dirty sets to their homes. -/
theorem clears_reached : ∀ {cs : List (Nat × Nat)}, (cs.map (·.1)).Nodup → (∀ u ∈ dirtySets s cs, u ∈ d) → ∀ {t : State},
    SameRecords (d.map (·.1)) s t → MemoryOk t → (∀ c ∈ cs, l1Of t c.1 = l1Of s c.1) →
    let t' := cs.foldl (fun s c => clearCore s c.1 c.2) t
    (∀ u ∈ dirtySets s cs, sget t'.mem u.1 = u.2) ∧ ∀ a, (∀ u ∈ dirtySets s cs, u.1 ≠ a) → sget t'.mem a = sget t.mem a
  | [], _, _, t, _, _, _ => ⟨fun _ hu => absurd hu List.not_mem_nil, fun _ _ => rfl⟩
  | c :: cs, hnd, hd, t, hr, hm, hl => by
    obtain ⟨hc, hnd⟩ := List.nodup_cons.mp (List.map_cons ▸ hnd)
    have hfirst : ∀ u ∈ dirtyOf s c.1 fun y => y.asid == c.2, u ∈ d := fun u hu =>
      hd u (List.mem_flatMap.mpr ⟨c, List.mem_cons_self, hu⟩)
    have hrest : ∀ u ∈ dirtySets s cs, u ∈ d := fun u hu => by
      obtain ⟨c', hc', hu⟩ := List.mem_flatMap.mp hu
      exact hd u (List.mem_flatMap.mpr ⟨c', List.mem_cons_of_mem _ hc', hu⟩)
    have hsame : dirtyOf t c.1 (fun y => y.asid == c.2) = dirtyOf s c.1 fun y => y.asid == c.2 := dirtyOf_l1 (hl c List.mem_cons_self) _
    have hone1 : OneEach (dirtyOf s c.1 fun y => y.asid == c.2) := fun u hu v hv => hone u (hfirst u hu) v (hfirst v hv)
    have hreached := writeBackWhere_reached c.1 (fun y => y.asid == c.2) hm (by rw [hsame]; exact hone1) (by
      rw [hsame]
      exact Atomics.PlainAt.mono (plainAt_same hp hr) fun a ha => by
        obtain ⟨u, hu, rfl⟩ := List.mem_map.mp ha
        exact List.mem_map_of_mem (hfirst u hu))
    rw [hsame] at hreached
    have hin : ∀ u ∈ dirtyOf s c.1 fun y => y.asid == c.2, sget (clearCore t c.1 c.2).mem u.1 = u.2 := fun u hu =>
      (hreached u.1).trans (byteOver_mem hone1 _ hu)
    have hout : ∀ a, (∀ u ∈ dirtyOf s c.1 fun y => y.asid == c.2, u.1 ≠ a) → sget (clearCore t c.1 c.2).mem a = sget t.mem a := fun a ha =>
      (hreached a).trans (byteOver_not_mem _ ha)
    obtain ⟨hin', hout'⟩ := clears_reached hnd hrest (t := clearCore t c.1 c.2)
      ⟨hr.frame.trans (.writeBackWhere _ _ _), fun a ha => (hout a fun u hu e => ha (e ▸ List.mem_map_of_mem (hfirst u hu))).trans (hr.memory a ha)⟩
      ((Keeps.writeBackWhere _ _ _).memory hm) fun c' hc' =>
        (clearCore_l1 t c.2 fun e => hc (List.mem_map.mpr ⟨c', hc', e⟩)).trans (hl c' (List.mem_cons_of_mem _ hc'))
    refine ⟨fun u hu => ?_, fun a ha => ?_⟩
    · by_cases hlater : ∃ v ∈ dirtySets s cs, v.1 = u.1
      · obtain ⟨v, hv, he⟩ := hlater
        rw [List.foldl_cons, ← he, hin' v hv]
        exact hone v (hrest v hv) u (hd u hu) he
      · obtain ⟨c', hc', huc⟩ := List.mem_flatMap.mp hu
        rcases List.mem_cons.mp hc' with rfl | hc'
        · rw [List.foldl_cons, hout' u.1 fun v hv e => hlater ⟨v, hv, e⟩, hin u huc]
        · exact absurd ⟨u, List.mem_flatMap.mpr ⟨c', hc', huc⟩, rfl⟩ hlater
    · rw [List.foldl_cons, hout' a fun u hu => ?_, hout a fun u hu => ?_]
      · exact ha u (List.mem_flatMap.mpr ⟨c, List.mem_cons_self, hu⟩)
      · obtain ⟨c', hc', huc⟩ := List.mem_flatMap.mp hu
        exact ha u (List.mem_flatMap.mpr ⟨c', List.mem_cons_of_mem _ hc', huc⟩)

end

theorem kernel_of_gangsOf {s : State} {k : Nat} {p : Gang → Bool} {g : Nat} (hg : g ∈ gangsOf s k p) {ga : Gang}
    (hga : s.gangs[g]? = some ga) : ga.kernel = k := by
  obtain ⟨⟨ga', j⟩, hmem, rfl⟩ := List.mem_map.mp hg
  obtain ⟨hzip, hk⟩ := List.mem_filter.mp hmem
  have hsame : ga' = ga := Option.some.inj ((List.mem_zipIdx_iff_getElem?.mp hzip).symm.trans hga)
  rw [Bool.and_eq_true] at hk
  exact hsame ▸ of_decide_eq_true hk.1

/-- The gangs whose cores take part in a generation. -/
def barGangs (s : State) : BarUnit → List Nat
  | .cohort _ => []
  | .gang g => [g]
  | u => unitGangs s u

/-- The cores of one gang that take part, with the ASID of its context. -/
def gangCores (s : State) (g : Nat) : List (Nat × Nat) :=
  match s.gangs[g]? with
  | some ga =>
    if ga.state == .resident || ga.state == .capturing || ga.state == .retired then
      (match (s.ctx? (s.ctxOfKernel ga.kernel)).bind fun c => c.asid with
      | some asid => ga.cores.map fun c => (c, asid)
      | none => [])
    else []
  | none => []

theorem barCores_eq (s : State) (u : BarUnit) : barCores s u = (barGangs s u).flatMap (gangCores s) := by
  cases u <;> rfl

theorem mem_gangCores {s : State} {g : Nat} {c : Nat × Nat} (hc : c ∈ gangCores s g) :
    ∃ ga, s.gangs[g]? = some ga ∧ (s.ctx? (s.ctxOfKernel ga.kernel)).bind (fun c => c.asid) = some c.2 := by
  unfold gangCores at hc
  split at hc
  · rename_i ga hga
    split at hc
    · split at hc
      · rename_i asid hasid
        obtain ⟨c', -, rfl⟩ := List.mem_map.mp hc
        exact ⟨ga, hga, hasid⟩
      · cases hc
    · cases hc
  · cases hc

/-- The cores of a unit take part with one ASID: the unit is of one kernel. -/
theorem barCores_asid {s : State} {u : BarUnit} {c c' : Nat × Nat} (hc : c ∈ barCores s u) (hc' : c' ∈ barCores s u) : c.2 = c'.2 := by
  rw [barCores_eq] at hc hc'
  obtain ⟨g, hg, hcg⟩ := List.mem_flatMap.mp hc
  obtain ⟨g', hg', hcg'⟩ := List.mem_flatMap.mp hc'
  obtain ⟨ga, hga, hasid⟩ := mem_gangCores hcg
  obtain ⟨ga', hga', hasid'⟩ := mem_gangCores hcg'
  have hkernel : ga.kernel = ga'.kernel := by
    cases u with
    | cohort c => cases hg
    | gang k =>
      obtain rfl := List.mem_singleton.mp hg
      obtain rfl := List.mem_singleton.mp hg'
      rw [Option.some.inj (hga.symm.trans hga')]
    | die k d =>
      exact (kernel_of_gangsOf (k := k) (p := fun ga => ga.group == d) hg hga).trans
        (kernel_of_gangsOf (k := k) (p := fun ga => ga.group == d) hg' hga').symm
    | pkg k => exact (kernel_of_gangsOf (k := k) (p := fun _ => true) hg hga).trans (kernel_of_gangsOf (k := k) (p := fun _ => true) hg' hga').symm
    | pod k => exact (kernel_of_gangsOf (k := k) (p := fun _ => true) hg hga).trans (kernel_of_gangsOf (k := k) (p := fun _ => true) hg' hga').symm
  rw [hkernel, hasid'] at hasid
  exact (Option.some.inj hasid).symm

theorem barCores_nodup (s : State) (u : BarUnit) : ((barCores s u).eraseDups.map (·.1)).Nodup := by
  refine List.Nodup.map_on (fun c hc c' hc' he => ?_) (Atomics.nodup_eraseDups _)
  exact Prod.ext he (barCores_asid (List.mem_eraseDups.mp hc) (List.mem_eraseDups.mp hc'))

/-- The unit is a pod. -/
def isPod : BarUnit → Bool
  | .pod _ => true | .cohort _ => false | .gang _ => false | .die .. => false | .pkg _ => false

theorem isPod_iff {u : BarUnit} : isPod u = true ↔ ∃ k, u = .pod k := by
  cases u <;> simp [isPod]

theorem exec_complete {s : State} {b : BarRef} {x : Bar} (hx : s.bar? b = some x) :
    let cs := (barCores s b.unit).eraseDups
    let s1 := cs.foldl (fun s c => clearCore s c.1 c.2) s
    exec (.barrierGenerationComplete b) s = if x.state != .complete && !othersMay s b x then .fault .notEnabled
      else if isPod b.unit && cs.any (fun c => s.forwardsFrom c.1) then .fault .notEnabled
      else if isPod b.unit && cs.any (fun c => s1.forwardsFrom c.1) then .next s1 else .next (s1.modBar b Bar.next) := by
  show execBarrierGenerationComplete b s = _
  rw [execBarrierGenerationComplete, hx]
  cases b.unit <;> rfl

/-- BARRIER_GENERATION_COMPLETE (R199, R276). -/
theorem generation_completes {s : State} {b : BarRef} {x : Bar} (hx : s.bar? b = some x) :
    let cs := (barCores s b.unit).eraseDups
    let open_ (t : State) : Prop := (∃ k, b.unit = .pod k) ∧ ∃ c ∈ cs, t.forwardsFrom c.1 = true
    let d := dirtySets s cs
    ((x.state ≠ .complete ∧ othersMay s b x = false) ∨ open_ s → exec (.barrierGenerationComplete b) s = .fault .notEnabled)
      ∧ ((x.state = .complete ∨ othersMay s b x = true) → ¬open_ s → ∃ t, exec (.barrierGenerationComplete b) s = .next t
        ∧ (open_ t → t.bar? b = some x) ∧ (¬open_ t → t.bar? b = some ⟨x.gen + 1, none, 0, .idle, []⟩)
        ∧ (∀ c ∈ cs, ∀ k, t.cores[c.1]? = some k → ∀ y ∈ k.l1, y.asid = c.2 → y.dirty = [])
        ∧ (MemoryOk s → OneEach d → PlainAt s (d.map (·.1)) → Reached d s.mem t.mem)) := by
  intro cs open_ d
  have hopen (t : State) : (isPod b.unit && cs.any fun c => t.forwardsFrom c.1) = true ↔ open_ t := by
    rw [Bool.and_eq_true, isPod_iff, List.any_eq_true]
  have hexec := exec_complete hx
  have hnd : (cs.map (·.1)).Nodup := barCores_nodup s b.unit
  refine ⟨fun hno => ?_, fun hyes hclosed => ?_⟩
  · rw [hexec]
    rcases hno with ⟨hs, ho⟩ | ho
    · exact if_pos (by simp [hs, ho])
    · split
      · rfl
      · exact if_pos ((hopen s).mpr ho)
  · let s1 := cs.foldl (fun s c => clearCore s c.1 c.2) s
    have hgo : ¬(x.state != .complete && !othersMay s b x) = true := by
      rcases hyes with h | h <;> simp [h]
    have hunits : SameUnits s s1 := .foldl (fun _ _ => .writeBackWhere _ _ _) _ _
    have hbar : s1.bar? b = some x := (hunits.bar b).trans hx
    have hstep : ∃ t, exec (.barrierGenerationComplete b) s = .next t ∧ t.mem = s1.mem ∧ t.cores = s1.cores
        ∧ (open_ t → t.bar? b = some x) ∧ (¬open_ t → t.bar? b = some ⟨x.gen + 1, none, 0, .idle, []⟩) := by
      rw [hexec, if_neg hgo, if_neg fun h => hclosed ((hopen s).mp h)]
      by_cases ho : open_ s1
      · rw [if_pos ((hopen s1).mpr ho)]
        exact ⟨s1, rfl, rfl, rfl, fun _ => hbar, fun hno => absurd ho hno⟩
      · have hkept : (s1.modBar b Bar.next).mem = s1.mem ∧ (s1.modBar b Bar.next).cores = s1.cores
            ∧ (s1.modBar b Bar.next).reqs = s1.reqs := by
          unfold State.modBar
          split <;> exact ⟨rfl, rfl, rfl⟩
        obtain ⟨hmem, hcores, hreqs⟩ := hkept
        have hsame : open_ (s1.modBar b Bar.next) ↔ open_ s1 := by
          simp only [open_, State.forwardsFrom, hreqs]
        rw [if_neg fun h => ho ((hopen s1).mp h)]
        refine ⟨_, rfl, hmem, hcores, fun h => absurd (hsame.mp h) ho, fun _ => ?_⟩
        rw [bar_modBar, hbar]
        rfl
    obtain ⟨t, hnext, hmem, hcores, hopened, hended⟩ := hstep
    refine ⟨t, hnext, hopened, hended, fun c hc k hk y hy ha => ?_, fun hok hone hp a => ?_⟩
    · rw [hcores] at hk
      exact clears_clean hnd s c hc y (l1Of_some hk ▸ hy) ha
    · obtain ⟨hin, hout⟩ := clears_reached hone hp hnd (fun u hu => hu) ⟨.refl s, fun _ _ => rfl⟩ hok fun _ _ => rfl
      rw [hmem]
      by_cases ha : ∃ u ∈ d, u.1 = a
      · obtain ⟨u, hu, rfl⟩ := ha
        rw [hin u hu, byteOver_mem hone _ hu]
      · have hno : ∀ u ∈ d, u.1 ≠ a := fun u hu e => ha ⟨u, hu, e⟩
        rw [hout a hno, byteOver_not_mem _ hno]

theorem ofCohort_iff {h : Here} {l : BarLevel} {id : Fin 16} {b : BarRef} (hb : barRefOf h l id = some b) :
    ofCohort b.unit = true ↔ l = .cohort := by
  cases l with
  | cohort => obtain rfl := Option.some.inj hb; simp [ofCohort]
  | gang => obtain rfl := Option.some.inj hb; simp [ofCohort]
  | die =>
    obtain ⟨-, hsome⟩ := Option.ite_none_right_eq_some.mp hb
    obtain rfl := Option.some.inj hsome
    simp [ofCohort]
  | pkg =>
    obtain ⟨-, hsome⟩ := Option.ite_none_right_eq_some.mp hb
    obtain rfl := Option.some.inj hsome
    simp [ofCohort]
  | pod =>
    obtain ⟨-, hsome⟩ := Option.ite_none_right_eq_some.mp hb
    obtain rfl := Option.some.inj hsome
    simp [ofCohort]

/-- Settles O47: by the checks of an arrival, the state of its barrier and whether it meets the target; a wait by the generation of its
team's arrival; and the end of a generation by what the clearings of its cores leave. -/
theorem barriers : Obligations.Barriers := by
  unfold Obligations.Barriers
  refine ⟨fun sw l id n s h hq => ⟨fun hl hcoop => ?_, fun b x hb hx => ?_⟩, fun s b x hx => generation_completes hx⟩
  · have hnone : barRefOf h l id = none := by
      rcases hl with rfl | rfl | rfl <;> simp [barRefOf, hcoop]
    have hraises (i : Instr) := exec_bar_none hq sw l id n hnone i
    exact ⟨hraises _ (.inl rfl), hraises _ (.inr (.inl rfl)), hraises _ (.inr (.inr rfl))⟩
  · intro u live first members' ok refused target members full counted left goes waits
    have hwait : waits (.barWait sw l id n) :=
      waits_of hq hx (exec_barWait hq sw l id n hb) (nextPc_after (litWords_barWait sw l id n))
    refine ⟨hwait, fun g hw => ?_, fun hnot hposts => ?_⟩
    · have hexec := exec_barSync hq sw l id n hb
      rw [if_pos (waitedFor_iff.mpr ⟨g, hw⟩)] at hexec
      exact waits_of hq hx hexec (nextPc_after (litWords_barSync sw l id n))
    · have hno : waitedFor h b = false := Bool.eq_false_iff.mpr fun hw => (waitedFor_iff.mp hw).elim fun g hg => hnot b g hg
      have hcount {y : Bar} (hy : Counted s b x (cntVal h.frame n) h.t y) : counted y := by
        obtain ⟨hnext, hcomplete, hcounting⟩ := hy
        exact ⟨fun hf hl => hnext hf ((ofCohort_iff hb).mpr hl),
          fun hf hl => hcomplete hf (Bool.eq_false_iff.mpr fun hc => hl ((ofCohort_iff hb).mp hc)), hcounting⟩
      refine ⟨fun hr => ?_, fun ⟨harr, hv, hf, hop⟩ hc => ?_, fun ⟨harr, hv, hf, hop⟩ hs => ?_⟩
      · have hbad := arriveOk_refused hr
        have hexec := exec_barSync hq sw l id n hb
        rw [hno, if_neg Bool.false_ne_true, barArriveNow_refused hx hbad] at hexec
        exact ⟨(exec_barArrive hq sw l id n hb).trans (barArriveNow_refused hx hbad _), hexec⟩
      · have hok := arriveOk_ok harr hv hf hop
        obtain ⟨t, hgoes, hcomplete, -⟩ := barArrive_done hq sw hb hx hposts hok hf hop
        obtain ⟨y, hyc, -, hblocks, -⟩ := barSync_done hq sw hb hx hposts hok hf hop hno
        obtain rfl := hyc hc
        exact ⟨⟨t, hgoes, hcomplete hc⟩, hblocks hf rfl⟩
      · have hok := arriveOk_ok harr hv hf hop
        have hnc : x.state ≠ .complete := by rcases hs with hs | hs <;> simp [hs]
        obtain ⟨t, hgoes, -, hcounts⟩ := barArrive_done hq sw hb hx hposts hok hf hop
        obtain ⟨y, hy, hcounted⟩ := hcounts hnc
        obtain ⟨z, -, hzn, hblocks, hpasses⟩ := barSync_done hq sw hb hx hposts hok hf hop hno
        obtain ⟨hnext, hcomplete, hcounting⟩ := hcount (hzn hnc)
        refine ⟨⟨t, y, hgoes, hy, hcount hcounted⟩, fun hfull hl => ?_, fun hnf => ?_⟩
        · obtain rfl := hnext hfull hl
          exact hpasses (by simp) (by simp)
        · have hz : z.state ≠ .faulted ∧ z.gen = x.gen := by
            by_cases hfull : full
            · obtain rfl := hcomplete hfull fun hl => hnf ⟨hfull, hl⟩
              exact ⟨by simp, rfl⟩
            · obtain rfl := hcounting hfull
              exact ⟨by simp, rfl⟩
          obtain ⟨t, tm, hexec, ht, hst, hpc, hbar⟩ := hblocks hz.1 hz.2
          exact ⟨t, tm, z, hexec, ht, hst, hpc, hbar, hcount (hzn hnc)⟩

end Sys2Proof.Proofs.Barriers
end

section
/-! Certificates for the family spec/06_instructions_memory.md: what Carter's and Sifter's commands leave (R138 to R141, R179, R253 to R255). -/
namespace Sys2Proof.Proofs.Barriers
open Sys2Proof Sys2Proof.Machine

/-! ## Reports leave the units alone (R318, R327) -/

theorem SameUnits.clearTag (s : State) (t : Tag) (b : Option Nat) : SameUnits s (clearTag s t b) := by
  unfold Machine.clearTag
  split
  · split
    · exact .refl s
    · exact (SameUnits.writeBackWhere _ _ _).trans ⟨rfl, rfl, rfl⟩
  · exact .refl s

theorem SameUnits.acquireEntry (s : State) (core : Option Nat) (pa : Nat) : SameUnits s (acquireEntry s core pa) := by
  have hread (s : State) (line : Nat) : SameUnits s (mscRead s line) := ⟨rfl, rfl, rfl⟩
  unfold Machine.acquireEntry
  refine SameUnits.trans ?_ (hread _ _)
  split
  · split
    · exact .clearTag _ _ _
    · exact .refl s
  · exact .refl s

theorem SameUnits.devWalk (s : State) (root : Nat) (va : W64) (n : Nat) : SameUnits s (devWalk s root va n) := by
  have hclear (s : State) (core : Option Nat) (root : Nat) (va : W64) : SameUnits s (walkClear s core root va) := by
    unfold walkClear
    dsimp only
    split
    · exact .acquireEntry _ _ _
    · split
      · exact (SameUnits.acquireEntry _ _ _).trans (.acquireEntry _ _ _)
      · exact ((SameUnits.acquireEntry _ _ _).trans (.acquireEntry _ _ _)).trans (.acquireEntry _ _ _)
  refine .foldl (fun s _ => ?_) _ s
  split
  · exact hclear _ _ _ _
  · exact .refl s

theorem SameUnits.report (s : State) (ctx : Nat) (body : List Byte) : SameUnits s (report s ctx body) := by
  have hwrite (c : Ctx) (va : W64) (bs : List Byte) : SameUnits s (devWrite s c va bs) := by
    unfold devWrite
    dsimp only
    split
    · exact (SameUnits.devWalk _ _ _ _).trans ⟨rfl, rfl, rfl⟩
    · exact .devWalk _ _ _ _
  unfold Machine.report
  split
  · exact .refl s
  · split
    · exact .refl s
    · split
      · exact (hwrite _ _ _).trans ⟨rfl, rfl, rfl⟩
      · exact ⟨rfl, rfl, rfl⟩

end Sys2Proof.Proofs.Barriers

namespace Sys2Proof.Proofs.Engines
open Sys2Proof Sys2Proof.Machine Sys2Proof.Proofs.Scope Sys2Proof.Proofs.ControlFlow Sys2Proof.Proofs.Scratchpads Sys2Proof.Proofs.Queues
  Sys2Proof.Proofs.Rings Sys2Proof.Proofs.WriteBacks Sys2Proof.Proofs.Accesses Sys2Proof.Proofs.Loads Sys2Proof.Proofs.Barriers

/-! ## What an engine reads (R179) -/

theorem enginePlace_ok {s s' : State} {h : Here} {sp : Space} {need : Need} {as : List Acc} {ps : List Placed}
    (hp : enginePlace s h sp need as = .ok s' ps) : s' = (placeAll s h sp need 1 as).1 ∧ ps = (placeAll s h sp need 1 as).2.1 := by
  unfold enginePlace at hp
  dsimp only at hp
  split at hp
  · cases hp
  · cases hp
    exact ⟨rfl, rfl⟩

theorem mscReads_cores (s : State) (ls : List Nat) : (mscReads s ls).cores = s.cores :=
  List.foldlRecOn (motive := fun t : State => t.cores = s.cores) ls _ rfl fun _ ht _ _ => ht

theorem askLines_cores (s : State) (h : Here) (o : ReqOwner) (m : List Spot) : (askLines s h o m).1.cores = s.cores :=
  List.foldlRecOn (motive := fun p : State × List (Nat × Nat) => p.1.cores = s.cores) _ _ rfl fun _ ht _ _ => ht

/-- What an engine reads of its own package's memory is at home. -/
theorem engineRead_home {s : State} {h : Here} {e : EngRef} {as : List Acc} (hok : (placeAll s h (.glob true) .read 1 as).2.2 = [])
    (himp : ∀ x ∈ (placeAll s h (.glob true) .read 1 as).2.1.flatMap Placed.spots, x.x.imp = false)
    (hwhole : ∀ p ∈ (placeAll s h (.glob true) .read 1 as).2.1, p.spots.length = p.acc.size) :
    let r := placeAll s h (.glob true) .read 1 as
    ∃ t, engineRead s h e false (.glob true) as = .ok t ((r.2.1.flatMap Placed.spots).map fun x => sget r.1.mem x.pa) ∧ t.mem = r.1.mem := by
  intro r
  have hplace : enginePlace s h (.glob true) .read as = .ok r.1 r.2.1 := by
    rw [enginePlace, hok, pickFault_nil]
  have hmem : (mscReads r.1 (linesOf (r.2.1.flatMap Placed.spots))).mem = r.1.mem := (sameLines_mscReads _ _).mem
  have hgather := gather_whole (s := mscReads r.1 (linesOf (r.2.1.flatMap Placed.spots))) (h := h) (.engine e) (get := spotBare e) himp
    (fun p hp he => by rw [← hwhole p hp, he]; rfl) (fun x => sget r.1.mem x.pa) fun x hx => by
      rw [spotBare, himp x hx, hmem]
      rfl
  refine ⟨mscReads r.1 (linesOf (r.2.1.flatMap Placed.spots)), ?_, hmem⟩
  rw [engineRead, hplace]
  dsimp only
  rw [if_neg Bool.false_ne_true, if_neg Bool.false_ne_true, hgather]
  dsimp only
  rw [knownBytes_map_known, List.map_flatMap]

/-- The engine contexts are the same. -/
def SameEngines (s s' : State) : Prop := ∀ e, s'.engine? e = s.engine? e

theorem SameEngines.trans {a b c : State} (h : SameEngines a b) (k : SameEngines b c) : SameEngines a c := fun e => (k e).trans (h e)
theorem SameEngines.of_cores {s s' : State} (hc : s'.cores = s.cores) : SameEngines s s' := engine_congr hc

theorem enginePlace_engines {s s' : State} {h : Here} {sp : Space} {need : Need} {as : List Acc} {ps : List Placed}
    (hp : enginePlace s h sp need as = .ok s' ps) : SameEngines s s' := by
  obtain ⟨rfl, -⟩ := enginePlace_ok hp
  exact (HomeFrame.placeAll _ _ _ _ _ _).engines

theorem engineRead_engines {s s' : State} {h : Here} {e : EngRef} {sp : Space} {as : List Acc} {bs : List Byte}
    (hr : engineRead s h e false sp as = .ok s' bs) : SameEngines s s' := by
  unfold engineRead at hr
  cases hp : enginePlace s h sp .read as with
  | fault s c a => rw [hp] at hr; cases hr
  | ask s t => rw [hp] at hr; cases hr
  | ok s1 ps =>
    rw [hp] at hr
    dsimp only at hr
    rw [if_neg Bool.false_ne_true] at hr
    split at hr
    · cases hr
      refine (enginePlace_engines hp).trans (.of_cores ?_)
      exact (askLines_cores _ _ _ _).trans (mscReads_cores _ _)
    · cases hr

theorem carterSource_engines {s s' : State} {h : Here} {e : EngRef} {k : Carter} {x : List Byte × List Nat}
    (hr : carterSource s h e k = .ok s' x) : SameEngines s s' := by
  unfold carterSource at hr
  split at hr
  · cases hr
    exact fun _ => rfl
  · dsimp only at hr
    split at hr
    · cases hr
    · cases hr
    · rename_i s1 bs hread
      split at hr
      · rename_i s2 ps hplace
        cases hr
        exact (engineRead_engines hread).trans (enginePlace_engines hplace)
      · cases hr
      · cases hr

/-! ## Commands (R138) -/

theorem tl_of_engine {s : State} {e : EngRef} {g : Engine} (he : s.engine? e = some g) : s.tl e = g.tl := by
  cases e with
  | matrix core b => cases he
  | copy core c => exact congrArg (fun x : Option Engine => (x.map fun x => x.tl).getD 0) he
  | sift core c => exact congrArg (fun x : Option Engine => (x.map fun x => x.tl).getD 0) he
  | settle core => exact congrArg (fun x : Option Engine => (x.map fun x => x.tl).getD 0) he

theorem modEngine_cohorts (s : State) (e : EngRef) (f : Engine → Engine) : (s.modEngine e f).cohorts = s.cohorts := by cases e <;> rfl

/-- The command has left the queue of its context, whose timeline has taken its number where no abort has taken one below it. -/
def Done (g : Engine) (e : EngRef) (c : Cmd) (t : State) : Prop :=
  t.tl e = tlPast g.stuck c.n ∧ (g.stuck = none → t.tl e = c.n) ∧ ∃ g', t.engine? e = some g' ∧ g'.queue = g.queue.drop 1

theorem engineDone_done {s : State} {e : EngRef} {g : Engine} (he : s.engine? e = some g) (c : Cmd) : Done g e c (engineDone s e c) := by
  have hg := engine_modEngine he fun x => { x with queue := x.queue.drop 1, tl := tlPast x.stuck c.n, need := [], got := [] }
  have htl : (engineDone s e c).tl e = tlPast g.stuck c.n := tl_of_engine hg
  exact ⟨htl, fun hs => by rw [htl, hs]; rfl, _, hg, rfl⟩

/-- Of an engine the done command depends on the queue and the number that an abort has taken. -/
theorem Done.of_same {g g' : Engine} {e : EngRef} {c : Cmd} {t : State} (hd : Done g' e c t) (hq : g'.queue = g.queue)
    (hs : g'.stuck = g.stuck) : Done g e c t := by
  rwa [Done, hq, hs] at hd

/-- The oldest command of a context runs, where nothing holds it up. -/
theorem onCmd_ready {s : State} {e : EngRef} {g : Engine} {c : Cmd} {h : Here} {p : Cmd → Bool} (he : s.engine? e = some g)
    (hc : g.queue.head? = some c) (hf : g.fault = none) (hn : g.need = []) (hp : p c = true) (hh : here s c.origin.team = some h)
    (k : Here → Cmd → Outcome State) : onCmd s e p k = k h c := by
  simp [onCmd, he, hc, hf, hn, hp, hh]

/-! ## The end of a Carter command (R139) -/

theorem carterEnd_plain (s : State) (e : EngRef) {c : Cmd} (hr : (carterOf c.words).rce = false) : carterEnd s e c = engineDone s e c := by
  simp [carterEnd, hr]

/-- With RCE a slot is committed, where the ring allows that. -/
theorem carterEnd_commits {s : State} (e : EngRef) {c : Cmd} {co : Cohort} {rg : Ring} (hr : (carterOf c.words).rce = true)
    (hco : s.cohorts[c.origin.cohort]? = some co) (hring : co.ring (carterOf c.words).ring = some rg) (hok : rg.canCmt 1 = true)
    (hq : co.ringq = []) : carterEnd s e c = engineDone (s.modCohort c.origin.cohort fun _ =>
      co.modRing (carterOf c.words).ring fun r => { r with cmt := r.cmt + 1 }) e c := by
  rw [carterEnd, if_pos hr, hco, Option.bind_some, commit_ok hring hq hok]

theorem carterEnd_refused {s : State} (e : EngRef) {c : Cmd} {co : Cohort} (hr : (carterOf c.words).rce = true)
    (hco : s.cohorts[c.origin.cohort]? = some co) (hno : ∀ rg, co.ring (carterOf c.words).ring = some rg → rg.canCmt 1 = false) :
    carterEnd s e c = engineHalt s e (cmdFault s e c 0x0E 0) := by
  have hcommit : co.commit (carterOf c.words).ring 1 = none := by
    rw [Cohort.commit]
    cases hring : co.ring (carterOf c.words).ring with
    | none => rfl
    | some rg => rw [Option.bind_some, hno rg hring, if_neg Bool.false_ne_true]
  rw [carterEnd, if_pos hr, hco, Option.bind_some, hcommit]

/-! ### A context that halts (R138) -/

theorem report_engines (s : State) (ctx : Nat) (body : List Byte) : SameEngines s (report s ctx body) := by
  unfold report
  split
  · exact fun _ => rfl
  · split
    · exact fun _ => rfl
    · split
      · exact SameEngines.trans (HomeFrame.devWrite _ _ _ _).engines (.of_cores rfl)
      · exact .of_cores rfl

/-- A Carter context that halts: its queue is discarded, and its timeline and the cohorts stay. -/
theorem engineHalt_copy {s : State} {core ctx : Nat} {g : Engine} {c : Cmd} (he : s.engine? (.copy core ctx) = some g)
    (hc : g.queue.head? = some c) (f : FaultInfo) :
    let t := engineHalt s (.copy core ctx) f
    ∃ g', t.engine? (.copy core ctx) = some g' ∧ g'.halted = true ∧ g'.queue = [] ∧ t.tl (.copy core ctx) = g.tl ∧ t.cohorts = s.cohorts := by
  have hhalt : engineHalt s (.copy core ctx) f = report (s.modEngine (.copy core ctx) fun x =>
      { x with queue := [], halted := true, fault := none, need := [], got := [] }) c.origin.ctx (recordBody (originParty s c.origin f) f) := by
    rw [engineHalt, he, Option.bind_some, hc]
    rfl
  have hg := (report_engines _ c.origin.ctx (recordBody (originParty s c.origin f) f) (.copy core ctx)).trans
    (engine_modEngine he fun x => { x with queue := [], halted := true, fault := none, need := [], got := [] })
  intro t
  refine ⟨_, (congrArg (State.engine? · (.copy core ctx)) hhalt).trans hg, rfl, rfl, ?_, ?_⟩
  · exact (congrArg (State.tl · (.copy core ctx)) hhalt).trans ((tl_of_engine hg).trans rfl)
  · exact (congrArg State.cohorts hhalt).trans ((SameUnits.report _ _ _).cohorts.trans (modEngine_cohorts _ _ _))

/-! ## What a copy or a fill writes (R139, R179) -/

/-- The write of one placed access of this package: into its scratchpad, or at home. -/
def writeOne (key : Nat) (s : State) (p : Placed) (now : List Byte) : State :=
  match p.place with
  | .spad c _ off => spadStore s c (atAddrs off now)
  | .glob .. => homeWrite s key ((p.spots.zip now).map fun w => (w.1.pa, w.2))

/-- The writes of placed accesses, each taking its bytes of the list. -/
def writeEach (key : Nat) : State → List Placed → List Byte → State
  | s, [], _ => s
  | s, p :: ps, bs => writeEach key (writeOne key s p (bs.take p.acc.size)) ps (bs.drop p.acc.size)

theorem foldl_writeEach {key : Nat} {F : State × List Nat × List Byte → Placed → State × List Nat × List Byte} : ∀ {ps : List Placed},
    (∀ p ∈ ps, ∀ t bs, F (t, [], bs) p = (writeOne key t p (bs.take p.acc.size), [], bs.drop p.acc.size)) → ∀ (s : State) (bs : List Byte),
    ((ps.foldl F (s, [], bs)).1, (ps.foldl F (s, [], bs)).2.1) = (writeEach key s ps bs, [])
  | [], _, _, _ => rfl
  | p :: ps, hF, s, bs => by
    rw [List.foldl_cons, hF p List.mem_cons_self, writeEach]
    exact foldl_writeEach (fun q hq => hF q (List.mem_cons_of_mem _ hq)) _ _

/-- An engine's write sends no request where every access is of this package. -/
theorem engineWrite_local {s : State} {h : Here} (e : EngRef) {ps : List Placed}
    (hloc : ∀ p ∈ ps, ∀ x n y, p.place = .glob x n y → x.imp = false) (bs : List Byte) :
    engineWrite s h e ps bs = (writeEach (keyOfAsid s h.asid) s ps bs, []) := by
  refine foldl_writeEach (fun p hp t bs => ?_) s bs
  cases hplace : p.place with
  | spad c k off => simp only [writeOne, hplace]
  | glob x n y => simp [writeOne, hplace, hloc p hp x n y hplace]

/-- A cohort but for its scratchpad. -/
def withoutSpad (co : Cohort) : Cohort := { co with sp := [] }

/-- The engine contexts are the same, and of the cohorts all but the scratchpads. -/
structure SpadsAside (s s' : State) : Prop where
  engines : SameEngines s s'
  cohorts : s'.cohorts.map withoutSpad = s.cohorts.map withoutSpad

theorem SpadsAside.refl (s : State) : SpadsAside s s := ⟨fun _ => rfl, rfl⟩
theorem SpadsAside.trans {a b c : State} (h : SpadsAside a b) (k : SpadsAside b c) : SpadsAside a c :=
  ⟨h.engines.trans k.engines, k.cohorts.trans h.cohorts⟩

theorem SpadsAside.writeEach (key : Nat) : ∀ (ps : List Placed) (s : State) (bs : List Byte), SpadsAside s (writeEach key s ps bs)
  | [], s, _ => .refl s
  | p :: ps, s, bs => by
    refine SpadsAside.trans ?_ (SpadsAside.writeEach key ps (writeOne key s p (bs.take p.acc.size)) (bs.drop p.acc.size))
    unfold writeOne
    split
    · unfold spadStore
      split
      · exact .refl s
      · exact ⟨.of_cores rfl, map_modAt (f := fun co : Cohort => { co with sp := ssetAll co.sp _ }) (fun _ => rfl) _ _⟩
    · exact ⟨(HomeFrame.homeWrite _ _ _).engines, by rw [(SameUnits.homeWrite _ _ _).cohorts]⟩

/-- A cohort's rings and the requests on them stay. -/
theorem SpadsAside.cohort {s s' : State} (h : SpadsAside s s') {q : Nat} {co : Cohort} (hco : s.cohorts[q]? = some co) :
    ∃ co', s'.cohorts[q]? = some co' ∧ co'.rings = co.rings ∧ co'.ringq = co.ringq := by
  have hsame := congrArg (·[q]?) h.cohorts
  simp only [List.getElem?_map, hco, Option.map_some] at hsame
  obtain ⟨co', hco', he⟩ := Option.map_eq_some_iff.mp hsame
  exact ⟨co', hco', (congrArg Cohort.rings he :), (congrArg Cohort.ringq he :)⟩

/-! ### The places of bytes -/

theorem placeByte_home {k : Nat} (hk : k < 2 ^ 60) (s : State) : placeByte s k = sget s.mem k := if_pos hk
theorem placeByte_away {k : Nat} (hk : ¬k < 2 ^ 60) (s : State) :
    placeByte s k = sget (spadOf s ((k - 2 ^ 60) / 2 ^ 22)) ((k - 2 ^ 60) % 2 ^ 22) := if_neg hk
theorem placeByte_congr {s t : State} (hm : t.mem = s.mem) (hs : ∀ q, spadOf t q = spadOf s q) (k : Nat) : placeByte t k = placeByte s k := by
  by_cases hk : k < 2 ^ 60
  · rw [placeByte_home hk, placeByte_home hk, hm]
  · rw [placeByte_away hk, placeByte_away hk, hs]

/-- The number of the place of an offset in a scratchpad. -/
def spadKey (c o : Nat) : Nat := 2 ^ 60 + c * 2 ^ 22 + o

theorem placeByte_spadKey (s : State) (c : Nat) {o : Nat} (ho : o < 2 ^ 22) : placeByte s (spadKey c o) = sget (spadOf s c) o := by
  have hsub : spadKey c o - 2 ^ 60 = c * 2 ^ 22 + o := by unfold spadKey; omega
  rw [placeByte_away (by unfold spadKey; omega), hsub, show (c * 2 ^ 22 + o) / 2 ^ 22 = c by omega, show (c * 2 ^ 22 + o) % 2 ^ 22 = o by omega]

theorem eq_spadKey {a : Nat} (ha : ¬a < 2 ^ 60) : ∃ c o, a = spadKey c o ∧ o < 2 ^ 22 :=
  ⟨(a - 2 ^ 60) / 2 ^ 22, (a - 2 ^ 60) % 2 ^ 22, by unfold spadKey; omega, Nat.mod_lt _ (by decide)⟩

theorem byteKeys_spad {p : Placed} {c k o : Nat} (hp : p.place = .spad c k o) :
    byteKeys p = (List.range p.acc.size).map fun i => spadKey c (o + i) := by
  rw [byteKeys, hp]
  exact List.map_congr_left fun i _ => by unfold spadKey; omega

theorem byteKeys_glob {p : Placed} {x : Xlat} {n : Nat} {y : Xlat} (hp : p.place = .glob x n y) : byteKeys p = p.spots.map Spot.pa := by
  rw [byteKeys, hp]

theorem spots_spad {p : Placed} {c k o : Nat} (hp : p.place = .spad c k o) : p.spots = [] := by rw [Placed.spots, hp]

/-! ### The writes of placed accesses -/

/-- A state in which an engine writes, of another's bytes only scratchpads' and memory's at some addresses. -/
structure Writing (base : State) (as : List Nat) (t : State) : Prop where
  records : RecordsKept base t
  others  : ∀ a, a ∉ as → sget t.mem a = sget base.mem a
  wf      : swf t.mem = true
  spads   : ∀ q, swf (spadOf t q) = true
  length  : t.cohorts.length = base.cohorts.length

section
variable {base t : State} {as : List Nat} (hw : Writing base as t)
include hw

/-- Bytes written into a scratchpad. -/
theorem Writing.spadStore {c : Nat} (hc : c < base.cohorts.length) (ws : List (Nat × Byte)) : Writing base as (spadStore t c ws) := by
  have hrec : RecordsKept t (Machine.spadStore t c ws) := by
    unfold Machine.spadStore
    split
    · exact .refl t
    · exact .of_eq rfl rfl rfl
  obtain ⟨hmem, -, hlen⟩ := spadStore_frame t c ws
  refine ⟨hw.records.trans hrec, fun a ha => by rw [hmem]; exact hw.others a ha, by rw [hmem]; exact hw.wf, fun q => ?_, hlen.trans hw.length⟩
  rw [spadOf_spadStore t (by rw [hw.length]; exact hc)]
  split
  · exact swf_ssetAll _ (hw.spads q)
  · exact hw.spads q

/-- Bytes written at home, where the records take them as they stand. -/
theorem Writing.homeWrite (hp : PlainAt base as) {ws : List (Nat × Byte)} (hws : ∀ a ∈ ws.map (·.1), a ∈ as) (key : Nat) :
    Writing base as (homeWrite t key ws) ∧ (homeWrite t key ws).mem = ssetAll t.mem ws
      ∧ ∀ q, spadOf (homeWrite t key ws) q = spadOf t q := by
  have hmem : (Machine.homeWrite t key ws).mem = ssetAll t.mem ws := by
    rw [homeWrite_mem, recordWrite_kept hp hw.records hw.others hws]
  have hframe := HomeFrame.homeWrite t key ws
  have hcohorts : (Machine.homeWrite t key ws).cohorts = t.cohorts := (SameUnits.homeWrite t key ws).cohorts
  refine ⟨⟨hw.records.trans hframe.records, fun a ha => ?_, by rw [hmem]; exact swf_ssetAll _ hw.wf,
    fun q => by rw [spadOf_congr hcohorts]; exact hw.spads q, by rw [hcohorts]; exact hw.length⟩, hmem, spadOf_congr hcohorts⟩
  rw [hmem, ← hw.others a ha]
  exact sget_ssetAll_ne _ (fun w hw' e => ha (by rw [← e]; exact hws w.1 (List.mem_map_of_mem hw'))) _

/-- The write of one placed access leaves its bytes in their places, and every other byte as it was. -/
theorem writeOne_spec (hp : PlainAt base as) (key : Nat) {p : Placed} {now : List Byte} (hlen : (byteKeys p).length = p.acc.size)
    (hnow : now.length = p.acc.size) (hnd : (byteKeys p).Nodup) (hglob : ∀ x ∈ p.spots, x.pa ∈ as ∧ x.pa < 2 ^ 60)
    (hspad : ∀ c k o, p.place = .spad c k o → c < base.cohorts.length ∧ o + p.acc.size ≤ 2 ^ 22) :
    let t' := writeOne key t p now
    Writing base as t' ∧ (∀ w ∈ (byteKeys p).zip now, placeByte t' w.1 = w.2) ∧ ∀ a, a ∉ byteKeys p → placeByte t' a = placeByte t a := by
  intro t'
  cases hplace : p.place with
  | spad c k o =>
    obtain ⟨hc, ho⟩ := hspad c k o hplace
    have hkeys := byteKeys_spad hplace
    have ht' : t' = spadStore t c (atAddrs o now) := by simp only [t', writeOne, hplace]
    have hspadOf := spadOf_spadStore t (by rw [hw.length]; exact hc) (atAddrs o now)
    rw [ht']
    refine ⟨hw.spadStore hc _, fun w hmem => ?_, fun a ha => ?_⟩
    · obtain ⟨i, hi, rfl⟩ := List.mem_iff_getElem.mp hmem
      have hi' : i < now.length := by rw [List.length_zip] at hi; omega
      have hkey : ((byteKeys p).zip now)[i].1 = spadKey c (o + i) := by simp [hkeys]
      have hval : ((byteKeys p).zip now)[i].2 = now[i] := by simp
      rw [hkey, hval, placeByte_spadKey _ _ (by omega), hspadOf, if_pos rfl]
      exact sget_ssetAll_mem _ (nodup_map_fst_atAddrs _ _) (getElem_mem_atAddrs _ hi') (hw.spads c)
    · by_cases hk : a < 2 ^ 60
      · rw [placeByte_home hk, placeByte_home hk, (spadStore_frame t c _).1]
      · obtain ⟨q, x, rfl, hx⟩ := eq_spadKey hk
        rw [placeByte_spadKey _ _ hx, placeByte_spadKey _ _ hx, hspadOf]
        split
        · rename_i hq
          subst hq
          refine sget_ssetAll_ne _ (fun w hmem e => ha ?_) _
          obtain ⟨hlo, hhi⟩ := mem_atAddrs_range hmem
          rw [hkeys]
          exact List.mem_map.mpr ⟨x - o, List.mem_range.mpr (by omega), by rw [show o + (x - o) = x by omega]⟩
        · rfl
  | glob x n y =>
    have hkeys := byteKeys_glob hplace
    have hzip : (p.spots.zip now).map (fun w => (w.1.pa, w.2)) = (byteKeys p).zip now := by
      rw [hkeys, List.zip_map_left]
      rfl
    have ht' : t' = homeWrite t key ((byteKeys p).zip now) := by simp only [t', writeOne, hplace, hzip]
    have hfst : ((byteKeys p).zip now).map (·.1) = byteKeys p := List.map_fst_zip (by omega)
    have hin {a : Nat} (ha : a ∈ byteKeys p) : a ∈ as ∧ a < 2 ^ 60 := by
      rw [hkeys] at ha
      obtain ⟨x, hx, rfl⟩ := List.mem_map.mp ha
      exact hglob x hx
    obtain ⟨hwriting, hmem, hspads⟩ := hw.homeWrite hp (ws := (byteKeys p).zip now) (fun a ha => (hin (hfst ▸ ha)).1) key
    rw [ht']
    refine ⟨hwriting, fun w hwmem => ?_, fun a ha => ?_⟩
    · have hw1 : w.1 ∈ byteKeys p := hfst ▸ List.mem_map_of_mem hwmem
      rw [placeByte_home (hin hw1).2, hmem]
      exact sget_ssetAll_mem _ (by rw [hfst]; exact hnd) hwmem hw.wf
    · by_cases hk : a < 2 ^ 60
      · rw [placeByte_home hk, placeByte_home hk, hmem]
        exact sget_ssetAll_ne _ (fun w hwmem e => ha (by rw [← e, ← hfst]; exact List.mem_map_of_mem hwmem)) _
      · rw [placeByte_away hk, placeByte_away hk, hspads]

end

/-- The writes of placed accesses whose places are all different leave each byte in its place, and every other byte as it was. -/
theorem writeEach_spec {base : State} {as : List Nat} (hp : PlainAt base as) (key : Nat) : ∀ {ps : List Placed} {t : State} {bs : List Byte},
    Writing base as t → (∀ p ∈ ps, (byteKeys p).length = p.acc.size) → (∀ x ∈ ps.flatMap Placed.spots, x.pa ∈ as ∧ x.pa < 2 ^ 60) →
    (∀ p ∈ ps, ∀ c k o, p.place = .spad c k o → c < base.cohorts.length ∧ o + p.acc.size ≤ 2 ^ 22) →
    (ps.flatMap byteKeys).Nodup → (ps.flatMap byteKeys).length = bs.length →
    let t' := writeEach key t ps bs
    Writing base as t' ∧ (∀ w ∈ (ps.flatMap byteKeys).zip bs, placeByte t' w.1 = w.2)
      ∧ ∀ a, a ∉ ps.flatMap byteKeys → placeByte t' a = placeByte t a
  | [], t, bs, hw, _, _, _, _, _ => ⟨hw, fun w hmem => absurd hmem (by simp), fun _ _ => rfl⟩
  | p :: ps, t, bs, hw, hlen, hglob, hspad, hnd, hbs => by
    rw [List.flatMap_cons] at hnd hbs
    obtain ⟨hnd1, hnd2, hdis⟩ := List.nodup_append.mp hnd
    have hp1 := hlen p List.mem_cons_self
    rw [List.length_append, hp1] at hbs
    have hnow : (bs.take p.acc.size).length = p.acc.size := by rw [List.length_take]; omega
    obtain ⟨hw1, hin1, hout1⟩ := writeOne_spec hw hp key hp1 hnow hnd1
      (fun x hx => hglob x (List.mem_flatMap.mpr ⟨p, List.mem_cons_self, hx⟩)) (hspad p List.mem_cons_self)
    obtain ⟨hw2, hin2, hout2⟩ := writeEach_spec hp key hw1 (bs := bs.drop p.acc.size) (fun q hq => hlen q (List.mem_cons_of_mem _ hq))
      (fun x hx => hglob x (by rw [List.flatMap_cons]; exact List.mem_append_right _ hx))
      (fun q hq => hspad q (List.mem_cons_of_mem _ hq)) hnd2 (by rw [List.length_drop]; omega)
    have hzip : ((p :: ps).flatMap byteKeys).zip bs
        = (byteKeys p).zip (bs.take p.acc.size) ++ (ps.flatMap byteKeys).zip (bs.drop p.acc.size) := by
      rw [List.flatMap_cons, ← List.zip_append (by rw [hp1, hnow]), List.take_append_drop]
    refine ⟨hw2, fun w hmem => ?_, fun a ha => ?_⟩
    · rw [hzip] at hmem
      rcases List.mem_append.mp hmem with hmem | hmem
      · rw [writeEach, hout2 w.1 fun hin => hdis w.1 (List.of_mem_zip hmem).1 w.1 hin rfl]
        exact hin1 w hmem
      · exact hin2 w hmem
    · rw [List.flatMap_cons, List.mem_append, not_or] at ha
      rw [writeEach, hout2 a ha.2, hout1 a ha.1]

/-! ## Carter's commands (R139) -/

/-- The instruction that runs a Carter command, by its operation. -/
def CarterRuns (core ctx : Nat) (i : Instr) (k : Carter) : Prop :=
  (i = .carterCopy core ctx ∧ k.op = 0) ∨ (i = .carterCopy2d core ctx ∧ k.op = 1) ∨ (i = .carterFill core ctx ∧ k.op = 2)

section
variable {s : State} {core ctx : Nat} {g : Engine} {c : Cmd} {h : Here} (he : s.engine? (.copy core ctx) = some g)
  (hc : g.queue.head? = some c) (hf : g.fault = none) (hn : g.need = []) (hh : here s c.origin.team = some h) {i : Instr}
  (hi : CarterRuns core ctx i (carterOf c.words))
include he hc hf hn hh hi

theorem exec_carter : exec i s = .next (carterRun s h (.copy core ctx) c) := by
  have hrun {op : Nat} (hop : (carterOf c.words).op = op) :
      onCmd s (.copy core ctx) (isCarter op) (fun h c => .next (carterRun s h (.copy core ctx) c)) = .next (carterRun s h (.copy core ctx) c) :=
    onCmd_ready he hc hf hn (by simp [isCarter, hop]) hh _
  rcases hi with ⟨rfl, hop⟩ | ⟨rfl, hop⟩ | ⟨rfl, hop⟩
  · exact hrun hop
  · exact hrun hop
  · exact hrun hop

/-- A command whose bytes are all written ends (R138, R139). -/
theorem carter_ends (hemit : c.emit = some []) (hr : (carterOf c.words).rce = true) {co : Cohort}
    (hco : s.cohorts[c.origin.cohort]? = some co) :
    (∀ rg, co.ring (carterOf c.words).ring = some rg → rg.canCmt 1 = true → co.ringq = [] → ∃ t co', exec i s = .next t
        ∧ Done g (.copy core ctx) c t ∧ t.cohorts[c.origin.cohort]? = some co'
        ∧ co'.ring (carterOf c.words).ring = some { rg with cmt := rg.cmt + 1 } ∧ co'.sp = co.sp ∧ t.mem = s.mem)
      ∧ ((∀ rg, co.ring (carterOf c.words).ring = some rg → rg.canCmt 1 = false) → ∃ t g', exec i s = .next t
        ∧ t.engine? (.copy core ctx) = some g' ∧ g'.halted = true ∧ g'.queue = [] ∧ t.tl (.copy core ctx) = g.tl ∧ t.cohorts = s.cohorts) := by
  have hexec := exec_carter he hc hf hn hh hi
  have hend : carterRun s h (.copy core ctx) c = carterEnd s (.copy core ctx) c := by
    rw [carterRun, hemit]
    rfl
  rw [hend] at hexec
  refine ⟨fun rg hring hok hq => ?_, fun hno => ?_⟩
  · rw [carterEnd_commits _ hr hco hring hok hq] at hexec
    refine ⟨_, co.modRing (carterOf c.words).ring fun r => { r with cmt := r.cmt + 1 }, hexec, engineDone_done he c, ?_, ?_, rfl, rfl⟩
    · rw [engineDone, modEngine_cohorts, State.modCohort_cohorts, modAt_same, hco]
      rfl
    · rw [ring_modRing, if_pos rfl, hring]
      rfl
  · rw [carterEnd_refused _ hr hco hno] at hexec
    obtain ⟨g', hg, hhalt, hqueue, htl, hcohorts⟩ := engineHalt_copy he hc (cmdFault s (.copy core ctx) c 0x0E 0)
    exact ⟨_, g', hexec, hg, hhalt, hqueue, htl, hcohorts⟩

/-- A copy or a fill whose source has been read, and whose destination lies apart from it in this package (R139). -/
theorem carter_copies (hemit : c.emit = none) {s1 s2 : State} {bs : List Byte} {ks : List Nat} {ps : List Placed}
    (hsource : carterSource s h (.copy core ctx) (carterOf c.words) = .ok s1 (bs, ks))
    (hplace : enginePlace s1 h (if (carterOf c.words).dsp then .spad false else .glob true) .write
      (rowAccs (carterOf c.words).dsp (carterOf c.words).dstRow (carterOf c.words).rows (carterOf c.words).len) = .ok s2 ps)
    (hapart : ∀ x ∈ ks, x ∉ ps.flatMap byteKeys) (hloc : ∀ p ∈ ps, ∀ x n y, p.place = .glob x n y → x.imp = false) :
    ∃ t1, exec i s = .next (carterEnd t1 (.copy core ctx) c) ∧ t1.mem = (writeEach (keyOfAsid s2 h.asid) s2 ps bs).mem
      ∧ t1.cohorts = (writeEach (keyOfAsid s2 h.asid) s2 ps bs).cohorts
      ∧ ∀ g', (writeEach (keyOfAsid s2 h.asid) s2 ps bs).engine? (.copy core ctx) = some g' →
        t1.engine? (.copy core ctx) = some { g' with ranges := g'.ranges ++ destRanges c h ps } := by
  have hcopy : copyBytes s2 ks (ps.flatMap byteKeys) bs = (s2, bs) := by
    rw [copyBytes, if_neg]
    rw [List.any_eq_true]
    rintro ⟨x, hx, hin⟩
    exact hapart x hx (List.contains_iff_mem.mp hin)
  have hrun : carterRun s h (.copy core ctx) c = carterEnd ((writeEach (keyOfAsid s2 h.asid) s2 ps bs).modEngine (.copy core ctx)
      fun x => { x with ranges := x.ranges ++ destRanges c h ps }) (.copy core ctx) c := by
    rw [carterRun, hemit, hsource]
    dsimp only [Got.stop]
    rw [if_neg (by simp), hplace]
    dsimp only [Got.stop]
    rw [hcopy, engineWrite_local _ hloc]
    rfl
  exact ⟨_, (exec_carter he hc hf hn hh hi).trans (congrArg _ hrun), modEngine_mem _ _ _, modEngine_cohorts _ _ _,
    fun g' hg => engine_modEngine hg _⟩

/-- Such a command ends, and its bytes are in their places (R138, R139). -/
theorem carter_done (hemit : c.emit = none) {s1 s2 : State} {bs : List Byte} {ks : List Nat} {ps : List Placed}
    (hsource : carterSource s h (.copy core ctx) (carterOf c.words) = .ok s1 (bs, ks))
    (hplace : enginePlace s1 h (if (carterOf c.words).dsp then .spad false else .glob true) .write
      (rowAccs (carterOf c.words).dsp (carterOf c.words).dstRow (carterOf c.words).rows (carterOf c.words).len) = .ok s2 ps)
    (hapart : ∀ x ∈ ks, x ∉ ps.flatMap byteKeys) (hloc : ∀ p ∈ ps, ∀ x n y, p.place = .glob x n y → x.imp = false)
    {co : Cohort} {rg : Ring} (hring : (carterOf c.words).rce = true → s2.cohorts[c.origin.cohort]? = some co
      ∧ co.ring (carterOf c.words).ring = some rg ∧ rg.canCmt 1 = true ∧ co.ringq = []) :
    ∃ t, exec i s = .next t ∧ Done g (.copy core ctx) c t
      ∧ ((carterOf c.words).rce = true → ∃ co', t.cohorts[c.origin.cohort]? = some co'
        ∧ co'.ring (carterOf c.words).ring = some { rg with cmt := rg.cmt + 1 })
      ∧ ∀ a, placeByte t a = placeByte (writeEach (keyOfAsid s2 h.asid) s2 ps bs) a := by
  obtain ⟨t1, hexec, hmem, hcohorts, hengine⟩ := carter_copies he hc hf hn hh hi hemit hsource hplace hapart hloc
  have haside := SpadsAside.writeEach (keyOfAsid s2 h.asid) ps s2 bs
  have hg := hengine g (((haside.engines _).trans (enginePlace_engines hplace _)).trans ((carterSource_engines hsource _).trans he))
  have hdone (t : State) (ht : t.engine? (.copy core ctx) = t1.engine? (.copy core ctx)) :
      Done g (.copy core ctx) c (engineDone t (.copy core ctx) c) :=
    (engineDone_done (ht.trans hg) c).of_same rfl rfl
  have hspads (q : Nat) : spadOf t1 q = spadOf (writeEach (keyOfAsid s2 h.asid) s2 ps bs) q := spadOf_congr hcohorts q
  cases hr : (carterOf c.words).rce with
  | false =>
    rw [carterEnd_plain _ _ hr] at hexec
    refine ⟨_, hexec, hdone t1 rfl, fun hno => absurd hno Bool.false_ne_true, fun a => placeByte_congr (by exact hmem) hspads a⟩
  | true =>
    obtain ⟨hco, hrg, hok, hq⟩ := hring hr
    obtain ⟨co1, hco1, hrings, hringq⟩ := haside.cohort hco
    have hco1' : t1.cohorts[c.origin.cohort]? = some co1 := by rw [hcohorts]; exact hco1
    have hrg1 : co1.ring (carterOf c.words).ring = some rg := by rw [← hrg, Cohort.ring, Cohort.ring, hrings]
    rw [carterEnd_commits _ hr hco1' hrg1 hok (hringq.trans hq)] at hexec
    refine ⟨_, hexec, hdone _ rfl, fun _ => ⟨co1.modRing (carterOf c.words).ring fun r => { r with cmt := r.cmt + 1 }, ?_, ?_⟩,
      fun a => placeByte_congr (by exact hmem) (fun q => ?_) a⟩
    · rw [engineDone, modEngine_cohorts, State.modCohort_cohorts, modAt_same, hco1']
      rfl
    · rw [ring_modRing, if_pos rfl, hrg1]
      rfl
    · rw [← hspads, spadOf, spadOf, engineDone, modEngine_cohorts, State.modCohort_cohorts, getElem?_modAt]
      split
      · rename_i hq
        subst hq
        rw [hco1']
        rfl
      · rfl

end

/-! ## Sifter's entries (R140, R253) -/

theorem risingLen_sorted : ∀ {l : List Nat}, l.Pairwise (· ≤ ·) → risingLen l = l.length
  | [], _ => rfl
  | [_], _ => rfl
  | a :: b :: r, hs => by
    obtain ⟨ha, hs⟩ := List.pairwise_cons.mp hs
    rw [risingLen, if_neg (Nat.not_lt.mpr (ha b List.mem_cons_self)), risingLen_sorted hs, List.length_cons (a := a), Nat.add_comm]

theorem length_words32 : ∀ (n : Nat) (bs : List Byte), (words32 n bs).length = n
  | 0, _ => rfl
  | n + 1, bs => by rw [words32, List.length_cons, length_words32 n]

theorem toNat_siftEntry {i j : Nat} (hi : i < 2 ^ 32) (hj : j < 2 ^ 32) : (siftEntry i j).toNat = j * 2 ^ 32 + i := by
  rw [siftEntry, BitVec.toNat_ofNat, Nat.mod_eq_of_lt (by omega)]

theorem siftEntry_fields {i j : Nat} (hi : i < 2 ^ 32) (hj : j < 2 ^ 32) :
    (siftEntry i j).toNat % 2 ^ 32 = i ∧ (siftEntry i j).toNat / 2 ^ 32 = j := by
  rw [toNat_siftEntry hi hj]
  omega

theorem mem_sortedPairs {as bs : List Nat} {x : W64} :
    x ∈ sortedPairs as bs ↔ ∃ i j v, as[i]? = some v ∧ bs[j]? = some v ∧ siftEntry i j = x := by
  simp only [sortedPairs, List.mem_flatMap, List.mem_map, List.mem_filter, List.mem_zipIdx_iff_getElem?, Prod.exists, decide_eq_true_eq]
  constructor
  · rintro ⟨v, i, hi, w, j, ⟨hj, rfl⟩, hx⟩
    exact ⟨i, j, w, hi, hj, hx⟩
  · rintro ⟨i, j, v, hi, hj, hx⟩
    exact ⟨v, i, hi, v, j, ⟨hj, rfl⟩, hx⟩

section
variable {as bs : List Nat} (ha : as.length ≤ 2 ^ 32) (hb : bs.length ≤ 2 ^ 32)
include ha hb

/-- There is an entry for every pair of positions with one value. -/
theorem entry_mem_sortedPairs {i j : Nat} (hi : i < 2 ^ 32) (hj : j < 2 ^ 32) :
    siftEntry i j ∈ sortedPairs as bs ↔ ∃ v, as[i]? = some v ∧ bs[j]? = some v := by
  rw [mem_sortedPairs]
  constructor
  · rintro ⟨i', j', v, hi', hj', he⟩
    have hlti : i' < 2 ^ 32 := (List.getElem?_eq_some_iff.mp hi').1.trans_le ha
    have hltj : j' < 2 ^ 32 := (List.getElem?_eq_some_iff.mp hj').1.trans_le hb
    obtain ⟨h1, h2⟩ := siftEntry_fields hlti hltj
    obtain ⟨h3, h4⟩ := siftEntry_fields hi hj
    rw [he] at h1 h2
    obtain rfl := h3.symm.trans h1
    obtain rfl := h4.symm.trans h2
    exact ⟨v, hi', hj'⟩
  · rintro ⟨v, hi', hj'⟩
    exact ⟨i, j, v, hi', hj', rfl⟩

/-- An entry comes before another: by i, and then by j. -/
def Before (x y : W64) : Prop := x.toNat % 2 ^ 32 < y.toNat % 2 ^ 32
  ∨ (x.toNat % 2 ^ 32 = y.toNat % 2 ^ 32 ∧ x.toNat / 2 ^ 32 < y.toNat / 2 ^ 32)

omit ha hb in
theorem zipIdx_sorted (l : List Nat) : l.zipIdx.Pairwise fun a b => a.2 < b.2 := by
  have hs : (l.zipIdx.map Prod.snd).Pairwise (· < ·) := by
    rw [List.zipIdx_map_snd]
    exact List.pairwise_lt_range'
  exact List.pairwise_map.mp hs

theorem sortedPairs_sorted : (sortedPairs as bs).Pairwise Before := by
  have hlt {l : List Nat} (hl : l.length ≤ 2 ^ 32) {a : Nat × Nat} (hm : a ∈ l.zipIdx) : a.2 < 2 ^ 32 :=
    (List.getElem?_eq_some_iff.mp (List.mem_zipIdx_iff_getElem?.mp hm)).1.trans_le hl
  rw [sortedPairs, List.pairwise_flatMap]
  refine ⟨fun a hma => ?_, (zipIdx_sorted as).imp_of_mem fun {a a'} hma hma' haa x hx y hy => ?_⟩
  · rw [List.pairwise_map]
    refine ((zipIdx_sorted bs).filter _).imp_of_mem fun {b b'} hmb hmb' hbb => ?_
    obtain ⟨h1, h2⟩ := siftEntry_fields (hlt ha hma) (hlt hb (List.mem_filter.mp hmb).1)
    obtain ⟨h3, h4⟩ := siftEntry_fields (hlt ha hma) (hlt hb (List.mem_filter.mp hmb').1)
    exact .inr ⟨h1.trans h3.symm, by rw [h2, h4]; exact hbb⟩
  · obtain ⟨b, hmb, rfl⟩ := List.mem_map.mp hx
    obtain ⟨b', hmb', rfl⟩ := List.mem_map.mp hy
    obtain ⟨h1, -⟩ := siftEntry_fields (hlt ha hma) (hlt hb (List.mem_filter.mp hmb).1)
    obtain ⟨h3, -⟩ := siftEntry_fields (hlt ha hma') (hlt hb (List.mem_filter.mp hmb').1)
    exact .inl (by rw [h1, h3]; exact haa)

end

end Sys2Proof.Proofs.Engines
end

section
/-! Certificates for the family spec/06_instructions_memory.md: the commands of Sifter, and what every command leaves (R138 to R141). -/
namespace Sys2Proof.Proofs.Engines
open Sys2Proof Sys2Proof.Machine Sys2Proof.Proofs.Scope Sys2Proof.Proofs.ControlFlow Sys2Proof.Proofs.Scratchpads Sys2Proof.Proofs.Queues
  Sys2Proof.Proofs.Rings Sys2Proof.Proofs.WriteBacks Sys2Proof.Proofs.Accesses Sys2Proof.Proofs.Loads Sys2Proof.Proofs.Barriers

/-- What an engine's writes leave, of a memory and scratchpads that are well formed. -/
theorem writes_placed {s : State} {ps : List Placed} {bs : List Byte} (hok : MemoryOk s) (hsp : ∀ co ∈ s.cohorts, swf co.sp = true)
    (hplain : PlainAt s ((ps.flatMap Placed.spots).map Spot.pa)) (hlow : ∀ a ∈ (ps.flatMap Placed.spots).map Spot.pa, a < 2 ^ 60)
    (hlen : ∀ p ∈ ps, (byteKeys p).length = p.acc.size)
    (hspad : ∀ p ∈ ps, ∀ c k o, p.place = .spad c k o → c < s.cohorts.length ∧ o + p.acc.size ≤ 2 ^ 22)
    (hnd : (ps.flatMap byteKeys).Nodup) (hbs : (ps.flatMap byteKeys).length = bs.length) (key : Nat) :
    (∀ w ∈ (ps.flatMap byteKeys).zip bs, placeByte (writeEach key s ps bs) w.1 = w.2)
      ∧ ∀ a, a ∉ ps.flatMap byteKeys → placeByte (writeEach key s ps bs) a = placeByte s a := by
  have hspads (q : Nat) : swf (spadOf s q) = true := by
    rw [spadOf]
    cases hq : s.cohorts[q]? with
    | none => rfl
    | some co => exact hsp co (List.mem_of_getElem? hq)
  have hstart : Writing s ((ps.flatMap Placed.spots).map Spot.pa) s := ⟨.refl s, fun _ _ => rfl, hok, hspads, rfl⟩
  exact (writeEach_spec hplain key hstart hlen (fun x hx => ⟨List.mem_map_of_mem hx, hlow _ (List.mem_map_of_mem hx)⟩) hspad hnd hbs).2

/-! ## Sifter's commands (R140, R141) -/

/-- The instruction that runs a Sifter command, by its operation. -/
def SifterRuns (core ctx : Nat) (i : Instr) (k : Sift) : Prop :=
  (i = .sifterSortedIndex core ctx ∧ k.op = 0) ∨ (i = .sifterBitmap core ctx ∧ k.op = 1)

/-! ### Slots -/

/-- A Sifter context takes a slot at once, where the ring has room and nothing waits. -/
theorem siftSlot_room {co : Cohort} {ring : Nat} {g : Ring} (hg : co.ring ring = some g) (hq : co.ringq = []) (ctx : Nat)
    (hroom : g.canRsv 1 = true) : siftSlot co ctx ring = (co.modRing ring fun _ => { g with rsv := g.rsv + 1 }, some g.rsv) := by
  have hgrant := grant_ask hg (.sifter ctx) false 1
  rw [if_pos (show askOk false g 1 = true from hroom)] at hgrant
  rw [siftSlot, hq]
  dsimp only [List.nil_append]
  rw [hgrant]
  simp [Cohort.modRing, askOld, askDone, hq]

/-- Without room it waits. -/
theorem siftSlot_full {co : Cohort} {ring : Nat} {g : Ring} (hg : co.ring ring = some g) (hq : co.ringq = []) (ctx : Nat)
    (hfull : g.canRsv 1 = false) : siftSlot co ctx ring = ({ co with ringq := [⟨.sifter ctx, ring, false, 1, none⟩] }, none) := by
  have hgrant := grant_ask hg (.sifter ctx) false 1
  rw [if_neg (by rw [askOk, if_neg Bool.false_ne_true, hfull]; exact Bool.false_ne_true)] at hgrant
  rw [siftSlot, hq]
  dsimp only [List.nil_append]
  rw [hgrant]
  simp

/-- The start of the slot of a ring that its next reservation takes. -/
def nextSlot (g : Ring) : Nat := g.base.toNat + g.rsv.toNat % g.nslot.toNat * g.slotsz.toNat

/-- A cohort with an entry in the next slot of a ring, which is reserved and committed. -/
def entered (co : Cohort) (ring : Nat) (g : Ring) (x : W64) : Cohort :=
  { co with sp := ssetAll co.sp (atAddrs (nextSlot g) (bytesOf 8 x.toNat)) }.modRing ring
    fun _ => { g with rsv := g.rsv + 1, cmt := g.cmt + 1 }

section
variable {co : Cohort} {ring : Nat} {g : Ring} (hg : co.ring ring = some g)
include hg

theorem entered_ring (x : W64) : (entered co ring g x).ring ring = some { g with rsv := g.rsv + 1, cmt := g.cmt + 1 } := by
  have hg' : ({ co with sp := ssetAll co.sp (atAddrs (nextSlot g) (bytesOf 8 x.toNat)) } : Cohort).ring ring = some g := hg
  rw [entered, ring_modRing, if_pos rfl, hg', Option.map_some]

theorem ne_of_ring {co' : Cohort} {g' : Ring} (hg' : co'.ring ring = some g') (hr : g'.rsv = g.rsv + 1) : co' ≠ co := by
  rintro rfl
  rw [hg] at hg'
  obtain rfl := Option.some.inj hg'
  exact absurd hr (by bv_omega)

end

/-- The entry of a slot stands at its start, and nothing else of the scratchpad changes. -/
theorem entered_spad {co : Cohort} (ring : Nat) (g : Ring) (x : W64) (hwf : swf co.sp = true) :
    readNat (entered co ring g x).sp (nextSlot g) 8 = x.toNat
      ∧ ∀ p, ¬(nextSlot g ≤ p ∧ p < nextSlot g + 8) → sget (entered co ring g x).sp p = sget co.sp p := by
  refine ⟨?_, fun p hp => sget_ssetAll_ne _ (fun w hw e => hp ?_) _⟩
  · exact (readNat_ssetAll_bytesOf hwf _ _ _).trans (Nat.mod_eq_of_lt x.isLt)
  · obtain ⟨hlo, hhi⟩ := mem_atAddrs_range hw
    rw [length_bytesOf] at hhi
    exact e ▸ ⟨hlo, hhi⟩

/-- An entry with room in the ring is written, and the emission goes on behind it. -/
theorem siftEmit_room {co : Cohort} {ring : Nat} {g : Ring} (hg : co.ring ring = some g) (hq : co.ringq = []) (ctx : Nat)
    (hroom : g.canRsv 1 = true) (hcmt : { g with rsv := g.rsv + 1 }.canCmt 1 = true) (x : W64) (es : List W64) (n : Nat) :
    siftEmit ctx ring (x :: es) co n = siftEmit ctx ring es (entered co ring g x) (if x = siftMarker then n else n + 1) := by
  have hring : (co.modRing ring fun _ => { g with rsv := g.rsv + 1 }).ring ring = some { g with rsv := g.rsv + 1 } := by
    rw [ring_modRing, if_pos rfl, hg, Option.map_some]
  have htwice : modAt (Option.map fun r : Ring => { r with cmt := r.cmt + 1 })
      (modAt (Option.map fun _ => { g with rsv := g.rsv + 1 }) co.rings ring) ring = modAt (Option.map fun _ => { g with rsv := g.rsv + 1, cmt := g.cmt + 1 }) co.rings ring := by
    refine List.ext_getElem? fun j => ?_
    simp only [getElem?_modAt]
    split
    · rw [Option.map_map]
      congr 1
      funext y
      cases y <;> rfl
    · rfl
  rw [siftEmit, siftSlot_room hg hq ctx hroom]
  dsimp only
  rw [hring]
  dsimp only
  rw [commit_ok (k := 1) (by exact hring) (by exact hq) hcmt]
  dsimp only [Cohort.modRing]
  rw [htwice]
  rfl

/-- An entry without room in the ring waits. -/
theorem siftEmit_full {co : Cohort} {ring : Nat} {g : Ring} (hg : co.ring ring = some g) (hq : co.ringq = []) (ctx : Nat)
    (hfull : g.canRsv 1 = false) (x : W64) (es : List W64) (n : Nat) :
    siftEmit ctx ring (x :: es) co n = some ({ co with ringq := [⟨.sifter ctx, ring, false, 1, none⟩] }, x :: es, n) := by
  rw [siftEmit, siftSlot_full hg hq ctx hfull]

/-- One entry is written, and the rest waits or there is none. -/
theorem siftEmit_one {co : Cohort} {ring : Nat} {g : Ring} (hg : co.ring ring = some g) (hq : co.ringq = []) (ctx : Nat)
    (hroom : g.canRsv 1 = true) (hcmt : { g with rsv := g.rsv + 1 }.canCmt 1 = true) (x : W64) {es : List W64} (n : Nat)
    (hend : es = [] ∨ { g with rsv := g.rsv + 1 }.canRsv 1 = false) :
    ∃ q, siftEmit ctx ring (x :: es) co n
      = some ({ entered co ring g x with ringq := q }, es, if x = siftMarker then n else n + 1) := by
  rw [siftEmit_room hg hq ctx hroom hcmt]
  cases es with
  | nil => exact ⟨co.ringq, rfl⟩
  | cons y es =>
    have hfull := hend.resolve_left (List.cons_ne_nil _ _)
    exact ⟨_, siftEmit_full (entered_ring hg x) hq ctx hfull y es _⟩

/-! ### Commands -/

section
variable {s : State} {core ctx : Nat} {g : Engine} {c : Cmd} {h : Here} (he : s.engine? (.sift core ctx) = some g)
  (hc : g.queue.head? = some c) (hf : g.fault = none) (hn : g.need = []) (hh : here s c.origin.team = some h) {i : Instr}
  (hi : SifterRuns core ctx i (siftOf c.words))
include he hc hf hn hh hi

theorem exec_sifter : exec i s = siftRun s h (.sift core ctx) ctx c := by
  rcases hi with ⟨rfl, hop⟩ | ⟨rfl, hop⟩
  · exact onCmd_ready he hc hf hn (by simp [hop]) hh fun h c => siftRun s h (.sift core ctx) ctx c
  · exact onCmd_ready he hc hf hn (by simp [hop]) hh fun h c => siftRun s h (.sift core ctx) ctx c

omit hf hn hh hi in
/-- A change of the oldest command of a context. -/
theorem engine_modFirst {t : State} (ht : t.engine? (.sift core ctx) = s.engine? (.sift core ctx)) (f : Cmd → Cmd) :
    ∃ g', (t.modEngine (.sift core ctx) fun x => { x with queue := modAt f x.queue 0 }).engine? (.sift core ctx) = some g'
      ∧ g'.queue = f c :: g.queue.drop 1 := by
  refine ⟨_, engine_modEngine (ht.trans he) _, ?_⟩
  obtain ⟨r, hr⟩ := List.head?_eq_some_iff.mp hc
  rw [hr]
  rfl

/-- The entries of a command that has read its lists stand with it (R140). -/
theorem sifter_reads (hemit : c.emit = none) {s1 s2 : State} {xs ys : List Byte}
    (ha : engineRead s h (.sift core ctx) false (.glob true) (rangePieces (siftOf c.words).a (4 * (siftOf c.words).na)) = .ok s1 xs)
    (hb : engineRead s1 h (.sift core ctx) false (.glob true) (rangePieces (siftOf c.words).b (4 * (siftOf c.words).lenB)) = .ok s2 ys)
    {es : List W64} (hes : (if (siftOf c.words).op = 0 then sortedEmit s2 (words32 (siftOf c.words).na xs) (words32 (siftOf c.words).lenB ys)
      else (s2, bitmapPairs ((words32 (siftOf c.words).na xs).zip (words32 (siftOf c.words).lenB ys)) 0 0 ++ [siftMarker]))
        = (s2, es ++ [siftMarker])) :
    ∃ t g' c', exec i s = .next t ∧ t.engine? (.sift core ctx) = some g' ∧ g'.queue = c' :: g.queue.drop 1
      ∧ c' = { c with emit := some (es ++ [siftMarker]) } ∧ t.mem = s2.mem := by
  have hexec := exec_sifter he hc hf hn hh hi
  have hread : siftRun s h (.sift core ctx) ctx c = .next (s2.modEngine (.sift core ctx)
      fun x => { x with queue := modAt (fun y => { y with emit := some (es ++ [siftMarker]) }) x.queue 0 }) := by
    rw [siftRun, hemit, siftRead, ha]
    dsimp only [Got.stop]
    rw [hb]
    dsimp only [Got.stop]
    rw [hes]
    simp
  obtain ⟨g', hg, hqueue⟩ := engine_modFirst he hc ((engineRead_engines ha).trans (engineRead_engines hb) _) fun y =>
    { y with emit := some (es ++ [siftMarker]) }
  exact ⟨_, g', _, hexec.trans hread, hg, hqueue, rfl, modEngine_mem _ _ _⟩

/-- While the ring has room the next entry goes into its slot (R140). -/
theorem sifter_emits {x : W64} {es : List W64} (hemit : c.emit = some (x :: es)) {co : Cohort} {rg : Ring}
    (hco : s.cohorts[c.origin.cohort]? = some co) (hring : co.ring (siftOf c.words).ring = some rg) (hq : co.ringq = [])
    (hroom : rg.canRsv 1 = true) (hcmt : { rg with rsv := rg.rsv + 1 }.canCmt 1 = true)
    (hend : es = [] ∧ x = siftMarker ∨ es ≠ [] ∧ { rg with rsv := rg.rsv + 1 }.canRsv 1 = false) :
    ∃ t co' g', exec i s = .next t ∧ t.cohorts[c.origin.cohort]? = some co' ∧ t.engine? (.sift core ctx) = some g' ∧ t.mem = s.mem
      ∧ co'.ring (siftOf c.words).ring = some { rg with rsv := rg.rsv + 1, cmt := rg.cmt + 1 }
      ∧ g'.queue = { c with emit := some es, pairs := if x = siftMarker then c.pairs else c.pairs + 1 } :: g.queue.drop 1
      ∧ co'.sp = (entered co (siftOf c.words).ring rg x).sp := by
  obtain ⟨q, hone⟩ := siftEmit_one hring hq ctx hroom hcmt x c.pairs (hend.imp And.left And.right)
  have hring' := entered_ring hring x
  have hne : ({ entered co (siftOf c.words).ring rg x with ringq := q } : Cohort) ≠ co := ne_of_ring hring (by exact hring') rfl
  have hmarked : ¬(es.isEmpty && (x :: es).getLast? != some siftMarker) = true := by
    rcases hend with ⟨rfl, rfl⟩ | ⟨hes, -⟩
    · simp
    · simp [hes]
  have hgo : siftRun s h (.sift core ctx) ctx c = .next ((s.modCohort c.origin.cohort
      fun _ => { entered co (siftOf c.words).ring rg x with ringq := q }).modEngine (.sift core ctx) fun e =>
        { e with queue := modAt (fun y => { y with emit := some es, pairs := if x = siftMarker then c.pairs else c.pairs + 1 }) e.queue 0 }) := by
    rw [siftRun, hemit]
    dsimp only
    rw [siftGo, hco]
    dsimp only
    rw [if_neg (by simp), hone]
    dsimp only
    rw [if_neg hne, if_neg hmarked]
  obtain ⟨g', hg, hqueue⟩ := engine_modFirst he hc (t := s.modCohort c.origin.cohort
    fun _ => { entered co (siftOf c.words).ring rg x with ringq := q }) rfl fun y =>
      { y with emit := some es, pairs := if x = siftMarker then c.pairs else c.pairs + 1 }
  refine ⟨_, { entered co (siftOf c.words).ring rg x with ringq := q }, g', (exec_sifter he hc hf hn hh hi).trans hgo, ?_, hg,
    modEngine_mem _ _ _, hring', hqueue, rfl⟩
  rw [modEngine_cohorts, State.modCohort_cohorts, modAt_same, hco]
  rfl

/-- With no entry left the completion word is queued, and the command ends (R141). -/
theorem sifter_ends (hemit : c.emit = some []) {co : Cohort} (hco : s.cohorts[c.origin.cohort]? = some co) (hroom : co.compq.length < 64) :
    ∃ t co', exec i s = .next t ∧ Done g (.sift core ctx) c t ∧ t.cohorts[c.origin.cohort]? = some co'
      ∧ co'.compq = co.compq ++ [siftWord c ctx] := by
  have hgo : siftRun s h (.sift core ctx) ctx c = .next (engineDone
      (s.modCohort c.origin.cohort fun co => { co with compq := co.compq ++ [siftWord c ctx] }) (.sift core ctx) c) := by
    rw [siftRun, hemit]
    dsimp only
    rw [siftGo, hco]
    dsimp only
    rw [if_pos List.isEmpty_nil, if_neg (by omega)]
  refine ⟨_, { co with compq := co.compq ++ [siftWord c ctx] }, (exec_sifter he hc hf hn hh hi).trans hgo, engineDone_done (by exact he) c, ?_, rfl⟩
  rw [engineDone, modEngine_cohorts, State.modCohort_cohorts, modAt_same, hco]
  rfl

end

/-- Lists that do not decrease give all their pairs and the marker (R253). -/
theorem sortedEmit_sorted (s : State) {as bs : List Nat} (ha : as.Pairwise (· ≤ ·)) (hb : bs.Pairwise (· ≤ ·)) :
    sortedEmit s as bs = (s, sortedPairs as bs ++ [siftMarker]) := by
  rw [sortedEmit, risingLen_sorted ha, risingLen_sorted hb]
  simp

/-- The lists of a sorted-index command have at most 2^32 words. -/
theorem length_siftLists {ws : List W64} (hop : (siftOf ws).op = 0) (xs ys : List Byte) :
    (words32 (siftOf ws).na xs).length ≤ 2 ^ 32 ∧ (words32 (siftOf ws).lenB ys).length ≤ 2 ^ 32 := by
  have hw : cmdWord ws 3 < 2 ^ 64 := BitVec.isLt _
  rw [length_words32, length_words32, Sift.lenB, if_pos hop]
  dsimp only [siftOf]
  omega

/-- Settles O42: an engine reads at home; a copy or a fill writes its bytes access by access, each to its own places, and ends with its
slot committed; a Sifter command forms its entries, writes them slot by slot and ends with its completion word. -/
theorem engineCommands : Obligations.EngineCommands := by
  unfold Obligations.EngineCommands
  constructor
  · intro s h e as r spots hok himp hwhole
    exact engineRead_home hok himp hwhole
  intro core ctx s h g c hh ready done carter sifter
  refine ⟨?_, ?_, ?_, ?_, ?_⟩
  · intro e k hready hemit i hi s1 bs ks s2 ps hsource hplace hapart hloc co rg hring
    obtain ⟨he, hc, hf, hn⟩ := hready
    obtain ⟨t, hexec, hdone, hcommit, hbytes⟩ := carter_done he hc hf hn hh hi hemit hsource hplace hapart hloc hring
    refine ⟨t, hexec, hdone, hcommit, ?_⟩
    intro pas keys hok hsp hplain hlow hlen hspad hnd hbs
    obtain ⟨hin, hout⟩ := writes_placed hok hsp hplain hlow hlen hspad hnd hbs (keyOfAsid s2 h.asid)
    exact ⟨fun w hw => (hbytes w.1).trans (hin w hw), fun a ha => (hbytes a).trans (hout a ha)⟩
  · intro e k hready hemit hr i hi co hco
    obtain ⟨he, hc, hf, hn⟩ := hready
    exact carter_ends he hc hf hn hh hi hemit hr hco
  · intro e k hready hemit s1 xs s2 ys ha hb as bs emits
    obtain ⟨he, hc, hf, hn⟩ := hready
    constructor
    · intro hop hsa hsb
      obtain ⟨hla, hlb⟩ := length_siftLists hop xs ys
      exact ⟨sortedPairs as bs, sifter_reads he hc hf hn hh (.inl ⟨rfl, hop⟩) hemit ha hb (by rw [if_pos hop, sortedEmit_sorted _ hsa hsb]),
        fun i j hi hj => entry_mem_sortedPairs hla hlb hi hj, sortedPairs_sorted hla hlb⟩
    · intro hop
      exact sifter_reads he hc hf hn hh (.inr ⟨rfl, hop⟩) hemit ha hb (if_neg (by rw [hop]; exact Nat.one_ne_zero))
  · intro e k hready x es co rg hemit hco hring hq hroom hcmt hend i hi
    obtain ⟨he, hc, hf, hn⟩ := hready
    obtain ⟨t, co', g', hexec, hco', hg', hmem, hring', hqueue, hsp⟩ :=
      sifter_emits he hc hf hn hh hi hemit hco hring hq hroom hcmt hend
    refine ⟨t, co', g', hexec, hco', hg', hmem, hring', hqueue, ?_⟩
    intro off hwf
    rw [hsp]
    exact entered_spad _ rg x hwf
  · intro e hready hemit co hco hroom i hi
    obtain ⟨he, hc, hf, hn⟩ := hready
    exact sifter_ends he hc hf hn hh hi hemit hco hroom

end Sys2Proof.Proofs.Engines
end

section
/-! Certificates for the family spec/07_issue_and_deferring.md: an instruction with a pending input (R157 to R159, R162, R166). -/
namespace Sys2Proof.Proofs.Deferring
open Sys2Proof Sys2Proof.Machine

/-! ## Registers that are read in a group (R19) -/

/-- Of registers without an outstanding claim a team reads its own values: no value of its group is free. -/
theorem groupReads_pending (s : State) {tm : Team} {ks : List RegKey}
    (hpending : ∀ k ∈ ks, ∀ c ∈ tm.claims, c.key = k → c.pending = true) : groupReads s tm ks = (s, tm.regs) := by
  have hnone : ∀ k ∈ ks, (tm.claims.filter fun c => c.key = k && !c.pending) = [] := by
    intro k hk
    rw [List.filter_eq_nil_iff]
    intro c hc
    by_cases hkey : c.key = k
    · simp [hpending k hk c hc hkey]
    · simp [hkey]
  unfold groupReads
  generalize hacc : (s, tm.regs) = acc
  clear hacc hpending
  induction ks with
  | nil => rfl
  | cons k ks ih =>
    rw [List.foldl_cons, hnone k List.mem_cons_self]
    exact ih fun x hx => hnone x (List.mem_cons_of_mem _ hx)

/-! ## Issue through a job (R48, R150) -/

/-- An instruction that has a job issues through it. -/
theorem exec_of_jobOf {i : Instr} {jf : Frame → Job} (hj : jobOf i = some jf) : ∃ sw, ∀ s, exec i s = issueJob i sw jf s := by
  unfold jobOf at hj
  split at hj <;> cases hj <;> exact ⟨_, fun _ => rfl⟩

section
variable {i : Instr} {sw : Bool} {jf : Frame → Job} {s : State} {h : Here}

/-- A team that reads no register outstanding in its group issues in its own frame. -/
theorem issueJob_ownValues (hi : issuing s = some h)
    (hreads : ∀ k ∈ (jf h.frame).okKeys ++ (jf h.frame).mightKeys h.frame ((jf h.frame).lanesAll h.frame), ∀ c ∈ h.tm.claims,
      c.key = k → c.pending = true)
    (hok : pendingOf h.tm.claims (jf h.frame).okKeys = []) : issueJob i sw jf s = issueIn i sw (jf h.frame) s h h.frame := by
  have hgroup := groupReads_pending s fun k hk => hreads k (List.mem_eraseDups.mp hk)
  rw [issueJob, onTeam_issuing hi]
  dsimp only
  rw [hgroup, ite_self, whenReady, hok]
  rfl

/-- An instruction whose checks pass, whose guard has its value and which has an input to wait for does not issue: it defers where its job
and MODE.DF allow, and waits where they do not. -/
theorem issueIn_held {j : Job} {f : Frame} (hok : j.ok f = true) (hspans : j.spansOk = true) (hcheck : j.check f = none)
    (hguard : isPending h.tm.claims (.p f.mode.g.val) = false)
    (hheld : pendingOf h.tm.claims (j.waitKeys h.tm.claims f (j.lanesIn f)) ≠ [] ∨ chained s h f i = true ∨ mustDefer h.tm = true) :
    issueIn i sw j s h f =
      let pend := pendingOf h.tm.claims (j.waitKeys h.tm.claims f (j.lanesIn f))
      if j.defers && h.tm.mode.df then deferJob i sw j s h f true (j.lanesIn f) pend else .next (park s h h.tm (.ready pend)) := by
  have hwait : ((pendingOf h.tm.claims (j.waitKeys h.tm.claims f (j.lanesIn f))).isEmpty && !chained s h f i && !mustDefer h.tm) = false := by
    rcases hheld with hpend | hchain | hentry
    · simp [hpend]
    · simp [hchain]
    · simp [hentry]
  simp only [issueIn, hok, hspans, hcheck, hguard, Bool.and_self, Bool.and_false, Bool.not_true, Bool.not_false, if_true, hwait,
    Bool.false_eq_true, if_false]

/-! ## The residue (R159) -/

theorem isPending_iff {cs : List Claim} {k : RegKey} : isPending cs k = true ↔ ∃ c ∈ cs, c.pending = true ∧ c.key = k := by
  simp [isPending]

/-- At the end of an instruction of a deferring team what was pending is pending still, whatever its marker (R157); its registers, flags,
residues and status stay. -/
theorem endAt_deferring (hl : h.t < s.teams.length) (hdf : h.tm.mode.df = true) (pc : W64) (cost : List (Nat × Nat)) (tm : Team) :
    ∃ tm', (endAt s h sw pc cost tm).teams[h.t]? = some tm' ∧ (∀ k, isPending tm.claims k = true → isPending tm'.claims k = true)
      ∧ tm'.residues = tm.residues ∧ tm'.regs = tm.regs ∧ tm'.flags = tm.flags ∧ tm'.pc = pc ∧ tm'.status = tm.status := by
  obtain ⟨age, owed, hend⟩ := endAt_team s h sw pc cost tm hl
  rw [hdf] at hend
  cases sw with
  | false => exact ⟨_, hend, fun _ hk => hk, rfl, rfl, rfl, rfl, rfl⟩
  | true =>
    refine ⟨_, hend, fun k hk => ?_, rfl, rfl, rfl, rfl, rfl⟩
    obtain ⟨c, hc, -, hkey⟩ := isPending_iff.mp hk
    exact isPending_iff.mpr ⟨_, List.mem_map_of_mem hc, rfl, hkey⟩

/-- The residue of an instruction that is deferred in a frame. -/
def residueOf (i : Instr) (j : Job) (h : Here) (f : Frame) (ls : List Nat) : Residue :=
  ⟨h.tm.nextId, i, f, accStream i, j.destKeys f ls,
    h.tm.claims.filter fun c => c.pending && (j.waitKeys h.tm.claims f ls).contains c.key⟩

/-- The team that has deferred it. -/
def deferred (i : Instr) (j : Job) (h : Here) (f : Frame) (ls : List Nat) : Team :=
  { h.tm with
    residues := h.tm.residues ++ [residueOf i j h f ls], nextId := h.tm.nextId + 1
    claims := h.tm.claims ++ (j.destKeys f ls).map fun k => ⟨k, h.tm.nextId, true, 0, j.lanesAt f ls k⟩ }

theorem deferNow_eq (j : Job) (f : Frame) (ls : List Nat) : deferNow i sw j s h f ls =
    .next (endAt s h sw (nextPc h.tm.pc (litWords i).length) (j.deferPasses f h.tm.claims) (deferred i j h f ls)) := rfl

theorem isPending_deferred {j : Job} {f : Frame} {ls : List Nat} {k : RegKey} (hk : k ∈ j.destKeys f ls) :
    isPending (deferred i j h f ls).claims k = true :=
  isPending_iff.mpr ⟨_, List.mem_append_right _ (List.mem_map_of_mem hk), rfl, rfl⟩

/-- A deferral queues the residue and makes every destination pending; the team goes on at the next word, and neither its registers and
flags nor memory change. -/
theorem deferNow_queues (hi : issuing s = some h) (hdf : h.tm.mode.df = true) (j : Job) (f : Frame) (ls : List Nat) :
    ∃ t tm, deferNow i sw j s h f ls = .next t ∧ t.teams[h.t]? = some tm ∧ tm.residues = h.tm.residues ++ [residueOf i j h f ls]
      ∧ (∀ k ∈ j.destKeys f ls, isPending tm.claims k = true)
      ∧ tm.regs = h.tm.regs ∧ tm.flags = h.tm.flags ∧ tm.pc = after h i ∧ tm.status = .running ∧ ∀ a, sget t.mem a = sget s.mem a := by
  obtain ⟨tm0, ht, htm, -⟩ := issuing_some hi
  obtain ⟨hl, -⟩ := List.getElem?_eq_some_iff.mp ht
  have hrunning : h.tm.status = .running := by rw [htm]
  obtain ⟨tm, hteam, hpending, hres, hregs, hflags, hpc, hstatus⟩ :=
    endAt_deferring (sw := sw) hl hdf (nextPc h.tm.pc (litWords i).length) (j.deferPasses f h.tm.claims) (deferred i j h f ls)
  exact ⟨_, tm, deferNow_eq j f ls, hteam, hres, fun k hk => hpending k (isPending_deferred hk), hregs, hflags,
    hpc.trans (nextPc_encode i h.tm.pc), hstatus.trans hrunning, (endAt_outside s h sw _ _ _).memory⟩

/-! ## The choice between deferring and waiting (R159, R166) -/

theorem deferJob_entry {j : Job} {f : Frame} {ls : List Nat} {pend : List RegKey} (hbad : j.badLanes f ls = [])
    (hfree : h.tm.residues.length < h.tm.rescap) : deferJob i sw j s h f true ls pend = deferNow i sw j s h f ls := by
  simp [deferJob, hbad, hfree]

/-- With no entry free the instruction raises RESIDUE, where the launch record says so, for the active mask (R166). -/
theorem deferJob_residue {j : Job} {f : Frame} {ls : List Nat} {pend : List RegKey} (hbad : j.badLanes f ls = [])
    (hfull : h.tm.rescap ≤ h.tm.residues.length) (hflt : h.tm.resflt = true) :
    deferJob i sw j s h f true ls pend = raise s h 0x0A h.tm.active 0 := by
  simp [deferJob, hbad, hfull, hflt]

/-- With no entry free the team waits for one, and the stall is counted, where the launch record does not ask for RESIDUE (R166). -/
theorem deferJob_stall {j : Job} {f : Frame} {ls : List Nat} {pend : List RegKey} (hbad : j.badLanes f ls = [])
    (hfull : h.tm.rescap ≤ h.tm.residues.length) (hflt : h.tm.resflt = false) (hstalled : h.tm.stalled = false) :
    deferJob i sw j s h f true ls pend
      = .next (park s h { h.tm with resstall := h.tm.resstall + 1, stalled := true } (.entry pend)) := by
  simp [deferJob, hbad, hfull, hflt, hstalled]

end

/-- Settles O31: with no outstanding register of its group read, the instruction is checked in its own frame and is held; it then waits,
or is deferred while an entry is free. -/
theorem pendingInputs : Obligations.PendingInputs := by
  unfold Obligations.PendingInputs
  intro i jf s h hj hi f j hreads ls pend parks hok hspans hcheck hready hguard hbad hheld
  obtain ⟨sw, hexec⟩ := exec_of_jobOf hj
  have hchoice : exec i s = if j.defers && h.tm.mode.df then deferJob i sw j s h f true ls pend else .next (park s h h.tm (.ready pend)) :=
    calc exec i s = issueIn i sw j s h f := (hexec s).trans (issueJob_ownValues hi hreads hready)
      _ = _ := issueIn_held hok hspans hcheck hguard hheld
  refine ⟨?_, ?_, ?_⟩
  · intro hno
    have hwaits : (j.defers && h.tm.mode.df) = false := Bool.and_eq_false_iff.mpr hno
    rw [hwaits] at hchoice
    exact hchoice
  · intro hdefers hdf hfree
    obtain ⟨t, tm, hnext, ht, hres, hpending, hrest⟩ := deferNow_queues (i := i) (sw := sw) hi hdf j f ls
    rw [hdefers, hdf, Bool.and_self, if_pos rfl, deferJob_entry hbad hfree, hnext] at hchoice
    exact ⟨t, tm, residueOf i j h f ls, hchoice, ht, hres, rfl, rfl, rfl, rfl, rfl, hpending, hrest⟩
  · intro hdefers hdf hfull
    rw [hdefers, hdf, Bool.and_self, if_pos rfl] at hchoice
    exact ⟨fun hflt => hchoice.trans (deferJob_residue hbad hfull hflt),
      fun hflt hstalled => hchoice.trans (deferJob_stall hbad hfull hflt hstalled)⟩

end Sys2Proof.Proofs.Deferring
end

section
/-! Certificates for the family spec/07_issue_and_deferring.md: values that land and residues that run (R155, R160, R161, R167). -/
namespace Sys2Proof.Proofs.Landings
open Sys2Proof Sys2Proof.Machine

/-! ## What a producer writes of the registers that it claims (R155) -/

/-- A table in its canonical form does not change where an entry is written as it stands. -/
theorem sset_sget {w : Nat} {m : Sparse w} (hm : swf m = true) (k : Nat) : sset m k (sget m k) = m :=
  swf_ext (swf_sset k _ hm) hm fun j => by
    by_cases hj : j = k
    · rw [hj, sget_sset_same _ hm]
    · exact sget_sset_ne _ hj m

theorem and_not_noLanes (m : Mask) : m &&& ~~~0 = m := by
  rw [show ~~~(0 : Mask) = BitVec.allOnes 1024 from BitVec.not_zero, BitVec.and_allOnes]

/-- A predicate written in no lane is unchanged (R71). -/
theorem pset_noLanes {g : Regs} (hg : g.wf = true) (n : Nat) (b : Mask) : g.pset n 0 b = g := by
  simp only [Regs.wf, Bool.and_eq_true] at hg
  obtain ⟨⟨-, hp⟩, -⟩ := hg
  unfold Regs.pset
  split
  · rfl
  · rw [and_not_noLanes, show b &&& 0 = 0 from BitVec.and_zero, show sget g.p n ||| 0 = sget g.p n from BitVec.or_zero, sset_sget hp]

section
variable {w : Writes} {cs : List Claim}

theorem owned_v (hskip : ∀ c ∈ cs, c.skip = 0) (hkeys : ∀ k ∈ w.keys, isClaimed cs k = true) : (w.owned cs).v = w.v := by
  refine List.filter_eq_self.mpr fun p hp => ?_
  have hk : RegKey.v (p.1 / 1024) ∈ w.keys :=
    List.mem_append_left _ (List.mem_append_left _ (List.mem_eraseDups.mpr (List.mem_map.mpr ⟨p, hp, rfl⟩)))
  obtain ⟨c, hc, hkey⟩ := List.any_eq_true.mp (hkeys _ hk)
  exact List.any_eq_true.mpr ⟨c, hc, by simp [of_decide_eq_true hkey, hskip c hc]⟩

theorem owned_u (hskip : ∀ c ∈ cs, c.skip = 0) (hkeys : ∀ k ∈ w.keys, isClaimed cs k = true) : (w.owned cs).u = w.u := by
  refine List.filter_eq_self.mpr fun p hp => ?_
  have hk : RegKey.s p.1 ∈ w.keys := List.mem_append_left _ (List.mem_append_right _ (List.mem_map.mpr ⟨p, hp, rfl⟩))
  obtain ⟨c, hc, hkey⟩ := List.any_eq_true.mp (hkeys _ hk)
  exact List.any_eq_true.mpr ⟨c, hc, by simp [of_decide_eq_true hkey, hskip c hc]⟩

/-- Predicate writes of which those without a claim are in no lane. -/
theorem psetAll_claimed (hskip : ∀ c ∈ cs, c.skip = 0) (ps : List (Nat × Mask × Mask))
    (hkeys : ∀ p ∈ ps, p.2.1 ≠ 0 → isClaimed cs (.p p.1) = true) : ∀ {g : Regs}, g.wf = true →
    g.psetAll (ps.filterMap fun p => (cs.find? fun c => c.key = .p p.1).map fun c => (p.1, p.2.1 &&& ~~~c.skip, p.2.2)) = g.psetAll ps := by
  induction ps with
  | nil => exact fun _ => rfl
  | cons p ps ih =>
    intro g hg
    have hrest : ∀ q ∈ ps, q.2.1 ≠ 0 → isClaimed cs (.p q.1) = true := fun q hq => hkeys q (List.mem_cons_of_mem _ hq)
    cases hfind : cs.find? fun c => c.key = .p p.1 with
    | none =>
      have hlanes : p.2.1 = 0 := by
        by_contra hne
        obtain ⟨c, hc, hkey⟩ := List.any_eq_true.mp (hkeys p List.mem_cons_self hne)
        exact List.find?_eq_none.mp hfind c hc hkey
      have hsame : g.pset p.1 p.2.1 p.2.2 = g := by rw [hlanes, pset_noLanes hg]
      rw [List.filterMap_cons, hfind]
      exact (ih hrest hg).trans (by rw [Regs.psetAll, Regs.psetAll, List.foldl_cons, hsame])
    | some c =>
      have hall : p.2.1 &&& ~~~c.skip = p.2.1 := by rw [hskip c (List.mem_of_find?_eq_some hfind), and_not_noLanes]
      rw [List.filterMap_cons, hfind, Option.map_some, hall]
      exact ih hrest (Regs.wf_pset hg p.1 p.2.1 p.2.2)

/-- A producer that claims every register it writes, and has yielded no lane, writes all that it has to write. -/
theorem apply_owned {g : Regs} (hg : g.wf = true) (hskip : ∀ c ∈ cs, c.skip = 0) (hkeys : ∀ k ∈ w.keys, isClaimed cs k = true) :
    g.apply (w.owned cs) = g.apply w := by
  have hp : ∀ p ∈ w.p, p.2.1 ≠ 0 → isClaimed cs (.p p.1) = true := fun p hp hne =>
    hkeys _ (List.mem_append_right _ (List.mem_map.mpr ⟨p, List.mem_filter.mpr ⟨hp, by simpa using hne⟩, rfl⟩))
  rw [Regs.apply, Regs.apply, owned_v hskip hkeys, owned_u hskip hkeys]
  exact congrArg (Regs.xsetAll · w.x) (psetAll_claimed hskip w.p hp (Regs.wf_usetAll (Regs.wf_vsetAll hg w.v) w.u))

end

/-! ## LOAD_LANDS (R155, R160) -/

/-- A team that has posted no update has none to apply. -/
theorem applyPosts_noPosts {s : State} {t : Nat} {tm : Team} (ht : s.teams[t]? = some tm) (hposts : tm.posts = []) :
    applyPosts s t = s := by
  rw [applyPosts, ht]
  dsimp only
  rw [hposts]
  rfl

/-- The team after its one access has landed: the access has written what it owned of its writes, and raised its flags. -/
def landed (tm : Team) (a : InFlight) : Team :=
  { tm with inflight := [], claims := [], regs := tm.regs.apply (a.writes.owned tm.claims), flags := tm.flags ||| a.writes.flags }

theorem deliver_landed {tm : Team} {a : InFlight} (hin : tm.inflight = [a]) (hres : tm.residues = [])
    (hclaims : ∀ c ∈ tm.claims, c.id = a.id) :
    deliver { tm with inflight := tm.inflight.filter fun x => x.id != a.id } a.id a.writes = landed tm a := by
  have hmine : (tm.claims.filter fun c => c.id = a.id) = tm.claims := List.filter_eq_self.mpr fun c hc => by simp [hclaims c hc]
  have hothers : (tm.claims.filter fun c => c.id != a.id) = [] := List.filter_eq_nil_iff.mpr fun c hc => by simp [hclaims c hc]
  simp [deliver, landed, hin, hres, hmine, hothers, skipOlder]

/-- The one access of a team lands once it is ready, and changes nothing but its team. -/
theorem loadLands_landed {s : State} {t : Nat} {tm : Team} {a : InFlight} (ht : s.teams[t]? = some tm) (hin : tm.inflight = [a])
    (hres : tm.residues = []) (hposts : tm.posts = []) (hready : a.ready = true) (hnacked : a.nacked = []) (hlate : a.late = [])
    (hclaims : ∀ c ∈ tm.claims, c.id = a.id) :
    ∃ u, exec (.loadLands t a.id) s = .next u ∧ u.mem = s.mem ∧ u.teams[t]? = some (landed tm a) := by
  have hmod : (s.modTeam t fun tm => deliver { tm with inflight := tm.inflight.filter fun x => x.id != a.id } a.id a.writes).teams[t]?
      = some (landed tm a) := by
    rw [State.modTeam_teams, modAt_same, ht, Option.map_some, deliver_landed hin hres hclaims]
  have hland : landNow s t a.id a = s.modTeam t fun tm => deliver { tm with inflight := tm.inflight.filter fun x => x.id != a.id } a.id a.writes :=
    applyPosts_noPosts hmod hposts
  refine ⟨landNow s t a.id a, ?_, by rw [hland, State.modTeam_mem], by rw [hland, hmod]⟩
  show execLoadLands t a.id s = _
  rw [execLoadLands, ht]
  simp [hin, hready, hnacked, hlate]

/-- LOAD_LANDS of an access that is not ready is no step (log 91): the second clause of O49, which holds as it stands. -/
theorem loadLands_notReady {s : State} {t id : Nat} {tm : Team} (ht : s.teams[t]? = some tm)
    (hready : ∀ a ∈ tm.inflight, a.id = id → a.ready = false) :
    exec (.loadLands t id) s = .fault .noSuch ∨ exec (.loadLands t id) s = .fault .notEnabled := by
  show execLoadLands t id s = _ ∨ execLoadLands t id s = _
  rw [execLoadLands, ht]
  dsimp only
  cases hfind : tm.inflight.find? fun a => a.id = id with
  | none => exact .inl rfl
  | some a =>
    have hno := hready a (List.mem_of_find?_eq_some hfind) (by simpa using List.find?_some hfind)
    exact .inr (by simp [hno])

/-- Where the team's registers are in their canonical form, the access delivers all its writes to the registers that wait for it: the
first clause of O49, with what RegistersOk says of its team. -/
theorem loadLands_delivers {s : State} {t : Nat} {tm : Team} {a : InFlight} {lanes : RegKey → Mask} (hregs : tm.regs.wf = true)
    (ht : s.teams[t]? = some tm) (hin : tm.inflight = [a]) (hres : tm.residues = []) (hposts : tm.posts = []) (hready : a.ready = true)
    (hnacked : a.nacked = []) (hlate : a.late = []) (hclaims : tm.claims = a.dests.map fun k => ⟨k, a.id, false, 0, lanes k⟩)
    (hkeys : ∀ k ∈ a.writes.keys, k ∈ a.dests) :
    ∃ u, exec (.loadLands t a.id) s = .next u ∧ u.mem = s.mem ∧ u.teams[t]? = some { tm with
      inflight := [], claims := [], regs := tm.regs.apply a.writes, flags := tm.flags ||| a.writes.flags } := by
  have hown : ∀ c ∈ tm.claims, c.id = a.id ∧ c.skip = 0 := by
    rw [hclaims]
    intro c hc
    obtain ⟨k, -, rfl⟩ := List.mem_map.mp hc
    exact ⟨rfl, rfl⟩
  have hclaimed : ∀ k ∈ a.writes.keys, isClaimed tm.claims k = true := by
    rw [hclaims]
    intro k hk
    exact List.any_eq_true.mpr ⟨_, List.mem_map_of_mem (hkeys k hk), by simp⟩
  obtain ⟨u, hexec, hmem, hteam⟩ := loadLands_landed ht hin hres hposts hready hnacked hlate fun c hc => (hown c hc).1
  rw [landed, apply_owned hregs (fun c hc => (hown c hc).2) hclaimed] at hteam
  exact ⟨u, hexec, hmem, hteam⟩

/-! ## RESIDUE_RUN (R160, R167) -/

theorem here_some {s : State} {t : Nat} {h : Here} (hh : here s t = some h) : h.t = t ∧ s.teams[t]? = some h.tm := by
  simp only [here, Option.bind_eq_some_iff] at hh
  obtain ⟨tm, ht, co, -, ga, -, ke, -, cx, -, asid, -, he⟩ := hh
  cases he
  exact ⟨rfl, ht⟩

/-- The state and the team that a residue leaves that computes at once, of a team that holds no other: its passes are paid for. -/
def paid (s : State) (h : Here) (r : Residue) (j : Job) (w : Writes) : State × Team :=
  spend s h r.frame (j.cost r.frame) (deliver { h.tm with residues := [] } r.id w)

theorem residueDone_paid {s : State} {h : Here} {r : Residue} {j : Job} (w : Writes) (ht : s.teams[h.t]? = some h.tm)
    (hres : h.tm.residues = [r]) (hposts : h.tm.posts = []) (hlate : j.late = false) :
    residueDone s h r j w [] [] none = (paid s h r j w).1.setTeam h.t (paid s h r j w).2 := by
  obtain ⟨hl, -⟩ := List.getElem?_eq_some_iff.mp ht
  have hlast : h.tm.residues.filter (fun x => x.id != r.id) = [] := by simp [hres]
  have hset : ((paid s h r j w).1.setTeam h.t (paid s h r j w).2).teams[h.t]? = some (paid s h r j w).2 := List.getElem?_set_self hl
  unfold residueDone
  simp only [ht, Option.getD_some, hlast, hlate, Bool.false_eq_true, if_false, List.isEmpty_nil, if_true]
  exact applyPosts_noPosts hset hposts

/-- A residue that computes at once, of a team that holds no other, writes what it owned of its writes and leaves the queue; its team's
PC, stack and MODE stay, and so does memory: the third clause of O49, which holds as it stands. -/
theorem residueRun_acts {s : State} {t : Nat} {h : Here} {r : Residue} {jf : Frame → Job} {w : Writes} (hh : here s t = some h)
    (hres : h.tm.residues = [r]) (hposts : h.tm.posts = []) (hj : jobOf r.instr = some jf) (hwaits : r.waits = [])
    (hbad : (jf r.frame).badLanes r.frame r.frame.on = []) (hlate : (jf r.frame).late = false)
    (hrun : (jf r.frame).run { h with tm := { h.tm with pc := r.frame.pc, nextId := r.id } } r.frame s = .done s w [] [] []) :
    ∃ u tm, exec (.residueRun t) s = .next u ∧ u.teams[t]? = some tm ∧ tm.residues = [] ∧ tm.pc = h.tm.pc
      ∧ tm.flags = h.tm.flags ||| w.flags ∧ tm.stack = h.tm.stack ∧ tm.mode = h.tm.mode
      ∧ tm.regs = h.tm.regs.apply (w.owned (h.tm.claims.filter fun c => c.id = r.id)) ∧ u.mem = s.mem := by
  obtain ⟨rfl, ht⟩ := here_some hh
  obtain ⟨hl, -⟩ := List.getElem?_eq_some_iff.mp ht
  refine ⟨(paid s h r (jf r.frame) w).1.setTeam h.t (paid s h r (jf r.frame) w).2, (paid s h r (jf r.frame) w).2, ?_,
    List.getElem?_set_self hl, rfl, rfl, rfl, rfl, rfl, rfl, rfl⟩
  show execResidueRun h.t s = .next ((paid s h r (jf r.frame) w).1.setTeam h.t (paid s h r (jf r.frame) w).2)
  rw [← residueDone_paid w ht hres hposts hlate, execResidueRun, hh]
  have hhead : h.tm.residues.head? = some r := by rw [hres]; rfl
  simp only [hhead, hj, hwaits, hbad, List.isEmpty_nil, Bool.not_true, Bool.false_eq_true, if_false, hrun]
  rfl

/-! ## A table that lists a zero

RegistersOk, the invariant of O9, admits no such table; the first clause of O49 does not ask for it. -/

/-- An access that is ready and writes p5 in no lane, so that it has no destination. -/
def access : InFlight :=
  ⟨7, .nop false, ⟨0, .launch false, 1, .zero, 0, 0, 0, 32, []⟩, none, [], [], { Writes.none with p := [(5, 0, 0)] }, [], [], [], none, none⟩

theorem access_keys : access.writes.keys = [] := by decide +kernel

/-- A team with this access in flight, whose table of predicates lists the zero of p5. -/
def listsZero (tm : Team) : Team := { tm with regs := { tm.regs with p := [(5, 0)] }, inflight := [access], claims := [] }

/-- The small machine with such a team. -/
def machine : State := (State.reset.withFetchWord 32 0).modTeam 0 listsZero

theorem machine_team : ∃ tm, machine.teams[0]? = some tm ∧ tm.inflight = [access] ∧ tm.claims = [] ∧ tm.regs.p = [(5, 0)]
    ∧ tm.residues = [] ∧ tm.posts = [] := by
  have hrun : (match (State.reset.withFetchWord 32 0).teams[0]? with
      | some tm => tm.residues.isEmpty && tm.posts.isEmpty
      | none => false) = true := by decide +kernel
  split at hrun
  · rename_i tm ht
    rw [Bool.and_eq_true, List.isEmpty_iff, List.isEmpty_iff] at hrun
    exact ⟨listsZero tm, by rw [machine, State.modTeam_teams, modAt_same, ht]; rfl, rfl, rfl, rfl, hrun.1, hrun.2⟩
  · cases hrun

/-- Refutes O49: nothing asks that the team's registers be in their canonical form. Where their table lists p5 with the value zero, an
access that writes p5 in no lane, and so does not wait with it as a destination, lands without a write and leaves the table, while
applying its writes takes the zero off the list. -/
theorem not_landings : ¬ Obligations.Landings := by
  unfold Obligations.Landings
  rintro ⟨hlands, -, -⟩
  obtain ⟨tm, ht, hin, hclaims, hp, hres, hposts⟩ := machine_team
  obtain ⟨u, hexec, -, hteam⟩ := loadLands_landed ht hin hres hposts rfl rfl rfl (by simp [hclaims])
  obtain ⟨u', hexec', -, hteam'⟩ := hlands 0 machine tm access (fun _ => 0) ht hin hres hposts rfl rfl rfl hclaims
    (by simp [access_keys]) rfl
  have hsame : u' = u := by injection hexec'.symm.trans hexec
  have hregs : tm.regs.apply access.writes = tm.regs.apply (access.writes.owned tm.claims) :=
    congrArg Team.regs (Option.some.inj ((hsame ▸ hteam').symm.trans hteam))
  have hwritten : (tm.regs.apply access.writes).p = sset tm.regs.p 5 0 := by
    simp [Regs.apply, Regs.psetAll, Regs.pset, access, hp, Regs.vsetAll, Regs.usetAll, Regs.xsetAll, ssetAll, Writes.none, sget]
  have hkept : (tm.regs.apply (access.writes.owned tm.claims)).p = tm.regs.p := by
    rw [hclaims]
    rfl
  rw [hregs, hkept, hp] at hwritten
  exact absurd hwritten (by simp [sset])

end Sys2Proof.Proofs.Landings
end

section
/-! Certificates for the family spec/08_memory_model.md: every operation keeps the canonical forms of memory and of registers. What the
parts of an instruction keep: the outcome of a step, the team that issues, faults, units. -/
namespace Sys2Proof.Machine

/-! ## Outcomes -/

/-- The next state of an outcome, where there is one, keeps both forms. -/
def KeepsNext (s : State) : Outcome State → Prop
  | .next t => Keeps s t
  | .fault _ => True
  | .refused _ => True

/-- The state that an action leaves keeps both forms. -/
def KeepsAct (s : State) : Act → Prop
  | .done t _ _ _ _ => Keeps s t
  | .fault t _ => Keeps s t
  | .wait t _ => Keeps s t

/-- Whatever a job does keeps both forms. -/
def Job.Keeps (j : Job) : Prop := ∀ h f s, KeepsAct s (j.run h f s)

/-- The registers of a team have their form where those of every team of the state have theirs. -/
def Team.Registered (tm : Team) (s : State) : Prop := RegistersOk s → tm.regs.wf = true

theorem Keeps.same {s t t' : State} (k : Keeps s t) (hm : t'.mem = t.mem) (ht : t'.teams = t.teams) : Keeps s t' :=
  k.trans (.of_eq hm ht)
/-- As `trans`, from the last operation to the first. -/
theorem Keeps.after {a b c : State} (h : Keeps b c) (k : Keeps a b) : Keeps a c := k.trans h
theorem Keeps.ite {s a b : State} {c : Prop} [Decidable c] (ha : Keeps s a) (hb : Keeps s b) : Keeps s (if c then a else b) := by
  split
  · exact ha
  · exact hb
theorem Keeps.ite_fst {β : Type} {s : State} {a b : State × β} {c : Prop} [Decidable c] (ha : Keeps s a.1) (hb : Keeps s b.1) :
    Keeps s (if c then a else b).1 := by
  split
  · exact ha
  · exact hb
theorem Keeps.ite_pair {β : Type} {s a : State} {x : β} {b : State × β} {c : Prop} [Decidable c] (ha : Keeps s a) (hb : Keeps s b.1) :
    Keeps s (if c then (a, x) else b).1 := .ite_fst ha hb
theorem Keeps.ite_self {s a b : State} {c : Prop} [Decidable c] (ha : Keeps s a) (hb : Keeps a b) : Keeps s (if c then b else a) :=
  .ite (ha.trans hb) ha
theorem Keeps.self_ite {s a b : State} {c : Prop} [Decidable c] (ha : Keeps s a) (hb : Keeps a b) : Keeps s (if c then a else b) :=
  .ite ha (ha.trans hb)
theorem KeepsNext.ite {s : State} {a b : Outcome State} {c : Prop} [Decidable c] (ha : KeepsNext s a) (hb : KeepsNext s b) :
    KeepsNext s (if c then a else b) := by
  split
  · exact ha
  · exact hb
theorem KeepsAct.ite {s : State} {a b : Act} {c : Prop} [Decidable c] (ha : KeepsAct s a) (hb : KeepsAct s b) :
    KeepsAct s (if c then a else b) := by
  split
  · exact ha
  · exact hb
theorem KeepsNext.of_next {s t : State} {o : Outcome State} (k : KeepsNext s o) (ho : o = .next t) : Keeps s t := by
  rw [ho] at k
  exact k
theorem KeepsNext.trans {a b : State} {o : Outcome State} (ho : KeepsNext b o) (k : Keeps a b) : KeepsNext a o :=
  match o with
  | .next _ => k.trans ho
  | .fault _ => trivial
  | .refused _ => trivial
theorem KeepsAct.trans {a b : State} {x : Act} (hx : KeepsAct b x) (k : Keeps a b) : KeepsAct a x :=
  match x with
  | .done .. => k.trans hx
  | .fault .. => k.trans hx
  | .wait .. => k.trans hx

theorem KeepsAct.of_done {s t : State} {x : Act} {w : Writes} {bs : List PByte} {need : List Nat} {acc : List Touch} (k : KeepsAct s x)
    (hx : x = .done t w bs need acc) : Keeps s t := by
  rw [hx] at k
  exact k
theorem KeepsAct.of_fault {s t : State} {x : Act} {f : FaultInfo} (k : KeepsAct s x) (hx : x = .fault t f) : Keeps s t := by
  rw [hx] at k
  exact k
theorem KeepsAct.of_wait {s t : State} {x : Act} {w : Wake} (k : KeepsAct s x) (hx : x = .wait t w) : Keeps s t := by
  rw [hx] at k
  exact k

/-! ## Teams changed one by one -/

/-- Every team is changed by its number, and no registers. -/
theorem Keeps.of_mapIdx {s s' : State} (f : Nat → Team → Team) (hm : s'.mem = s.mem) (ht : s'.teams = s.teams.mapIdx f)
    (hf : ∀ t tm, (f t tm).regs = tm.regs) : Keeps s s' :=
  .of_regs hm fun tm h => by
    rw [ht] at h
    obtain ⟨i, hi, rfl⟩ := List.mem_mapIdx.mp h
    exact ⟨_, List.getElem_mem hi, hf _ _⟩

/-! ## The team that issues -/

theorem Team.registered_of_getElem {s : State} {t : Nat} {tm : Team} (ht : s.teams[t]? = some tm) : tm.Registered s :=
  fun hr => hr tm (List.mem_of_getElem? ht)
theorem Team.registered_ite {s : State} {a b : Team} {c : Prop} [Decidable c] (ha : a.Registered s) (hb : b.Registered s) :
    (if c then a else b).Registered s := by
  split
  · exact ha
  · exact hb
theorem Team.registered_ite_pair {s a : State} {tm : Team} {b : State × Team} {c : Prop} [Decidable c] (ha : tm.Registered s)
    (hb : b.2.Registered s) : (if c then (a, tm) else b).2.Registered s := by
  split
  · exact ha
  · exact hb
theorem here_registered {s : State} {t : Nat} {h : Here} (hh : here s t = some h) : h.tm.Registered s := by
  unfold here at hh
  simp only [Option.bind_eq_some_iff] at hh
  obtain ⟨tm, ht, co, -, ga, -, ke, -, cx, -, asid, -, he⟩ := hh
  injection he with he
  subst he
  exact Team.registered_of_getElem ht
theorem KeepsNext.onTeam {s : State} {f : Here → Outcome State} (hf : ∀ h : Here, h.tm.Registered s → KeepsNext s (f h)) :
    KeepsNext s (onTeam s f) := by
  unfold Machine.onTeam
  split
  · trivial
  · rename_i h hh
    have ht : h.tm.Registered s := here_registered hh
    exact .ite (hf _ ht) trivial

section
variable {s0 s : State} {h : Here} (k : Keeps s0 s) (ht : h.tm.Registered s0)
include k ht

theorem KeepsNext.whenReady {ks : List RegKey} {o : Outcome State} (ho : KeepsNext s0 o) : KeepsNext s0 (whenReady s h ks o) := by
  unfold Machine.whenReady
  split
  · exact ho
  · exact k.park h _ ht
theorem KeepsNext.whenDrained {o : Outcome State} (ho : KeepsNext s0 o) : KeepsNext s0 (whenDrained s h o) := by
  unfold Machine.whenDrained
  split
  · exact ho
  · exact k.park h _ ht
theorem KeepsNext.raise (code : Byte) (mask : Mask) (addr : W64) : KeepsNext s0 (raise s h code mask addr) := k.takeFault h _ _ ht
theorem KeepsNext.illegal : KeepsNext s0 (illegal s h) := .raise k ht _ _ _
theorem KeepsNext.stackFault : KeepsNext s0 (stackFault s h) := .raise k ht _ _ _
theorem KeepsNext.queueFault : KeepsNext s0 (queueFault s h) := .raise k ht _ _ _
theorem KeepsNext.goTo (sw : Bool) (pc : W64) : KeepsNext s0 (goTo sw s h pc) := k.endAt h _ _ _ ht

end

/-! ## Halts -/

theorem Keeps.haltBy (s : State) (c : Ctx) (ns : List Nat) (pc seq : W64) : Keeps s (haltBy s c ns pc seq) := by
  unfold Machine.haltBy
  split
  · exact .refl s
  · exact (Keeps.haltCtx s _).same rfl rfl
theorem Keeps.haltPod (s : State) (g : Nat × W64) : Keeps s (haltPod s g) :=
  .foldl (fun s _ => .ite (.haltCtx s _) (.refl s)) _ s

/-! ## Issue -/

theorem Keeps.groupReads (s : State) (tm : Team) (ks : List RegKey) : Keeps s (groupReads s tm ks).1 := by
  refine .foldl_fst (β := Regs) (fun p k => ?_) ks (s, tm.regs)
  refine .foldl_fst (β := Regs) (fun p c => ?_) _ p
  split
  · split <;> exact .bump _
  · exact .refl _
theorem teamAt_registered {s0 s : State} {h : Here} (k : Keeps s0 s) (ht : h.tm.Registered s0) :
    ((s.teams[h.t]?).getD h.tm).Registered s0 := by
  intro hr
  cases hx : s.teams[h.t]? with
  | none => exact ht hr
  | some tm => exact Team.registered_of_getElem hx (k.registers hr)
theorem teamNow_registered {s0 s : State} {h : Here} (k : Keeps s0 s) (ht : h.tm.Registered s0) : (teamNow s h).Registered s0 :=
  fun hr => teamAt_registered k ht hr
/-- An instruction ends with its team as the state holds it. -/
theorem Keeps.endNow {s0 s : State} {h : Here} (k : Keeps s0 s) (ht : h.tm.Registered s0) (sw : Bool) (pc : W64)
    (cost : List (Nat × Nat)) : Keeps s0 (Machine.endAt s h sw pc cost (teamNow s h)) := k.endAt h _ _ _ (teamNow_registered k ht)
/-- An instruction writes at issue, and ends. -/
theorem Keeps.writeNowEnd {s0 s : State} {h : Here} (k : Keeps s0 s) (ht : h.tm.Registered s0) (sw : Bool) (w : Writes) (pc : W64)
    (cost : List (Nat × Nat)) :
    Keeps s0 (Machine.endAt (Machine.writeNow s (teamNow s h) w).1 h sw pc cost (Machine.writeNow s (teamNow s h) w).2) :=
  (k.trans (.writeNow _ _ _)).endAt h _ _ _ fun hr => wf_writeNow _ _ (teamNow_registered k ht hr)
theorem launch_registered {s0 s : State} {tm : Team} {a : InFlight} {lanes : RegKey → Mask} (ht : tm.Registered s0) :
    (launch s tm a lanes).2.Registered s0 := ht
theorem Keeps.watch (s : State) (h : Here) (fpc : W64) (x : Option Seen) : Keeps s (watch s h fpc x) := by
  unfold Machine.watch
  split
  · exact .refl s
  · dsimp only
    have k := fun y : List Nat => Keeps.haltBy s h.cx y fpc 0
    split
    · rename_i htm
      exact (k _).trans ((Keeps.refl _).takeFault h _ _ (Team.registered_of_getElem htm))
    · exact k _

theorem KeepsNext.reading {s0 s : State} {h : Here} {ks : List RegKey} {f : State → Frame → Outcome State} (k : Keeps s0 s)
    (ht : h.tm.Registered s0) (hf : ∀ t fr, Keeps s0 t → KeepsNext s0 (f t fr)) : KeepsNext s0 (reading s h ks f) := by
  refine .whenReady k ht ?_
  dsimp only
  refine hf _ _ ?_
  split
  · exact k
  · exact k.trans (.groupReads s _ _)

theorem Keeps.settleWrites {s0 s : State} (k : Keeps s0 s) (i : Instr) (j : Job) (h : Here) {tm : Team} (ht : tm.Registered s0) (f : Frame)
    (w : Writes) (bytes : List PByte) (need : List Nat) (x : Option Seen) :
    Keeps s0 (settleWrites i j h s tm f w bytes need x).1 ∧ (settleWrites i j h s tm f w bytes need x).2.Registered s0 := by
  unfold Machine.settleWrites
  dsimp only
  split
  · exact ⟨k.trans (.launch _ _ _ _), ht⟩
  · have hw : ∀ u : Team, u.regs = tm.regs → (Machine.writeNow s u w).2.Registered s0 := fun u hu hr =>
      wf_writeNow s w (by rw [hu]; exact ht hr)
    split
    · exact ⟨k.trans (.writeNow _ _ _), hw tm rfl⟩
    · exact ⟨k.trans ((Keeps.writeNow _ _ _).trans (.launch _ _ _ _)), hw _ rfl⟩

section
variable {i : Instr} {sw : Bool} {j : Job} {s0 s : State} {h : Here} {f : Frame} (k : Keeps s0 s) (ht : h.tm.Registered s0)
include k ht

theorem KeepsNext.issueNow (hj : j.Keeps) (ls : List Nat) : KeepsNext s0 (issueNow i sw j s h f ls) := by
  refine .ite (.raise k ht _ _ _) ?_
  have hrun := (hj h f s).trans k
  split
  · have k1 := hrun.of_fault ‹_›
    exact k1.takeFault h _ _ (teamNow_registered k1 ht)
  · have k1 := hrun.of_wait ‹_›
    exact k1.park h _ (teamNow_registered k1 ht)
  · rename_i s1 w bytes need acc hx
    have k1 := hrun.of_done hx
    obtain ⟨hs, hw⟩ := k1.settleWrites i j h (teamNow_registered k1 ht) f w bytes need (whileOpen need (seenBy h none acc))
    exact (hs.endAt h _ _ _ hw).trans (.watch _ _ _ _)
theorem KeepsNext.deferNow (ls : List Nat) : KeepsNext s0 (deferNow i sw j s h f ls) := k.endAt h _ _ _ ht
theorem KeepsNext.deferJob (g : Bool) (ls : List Nat) (pend : List RegKey) : KeepsNext s0 (deferJob i sw j s h f g ls pend) :=
  .ite (.raise k ht _ _ _) <| .ite (.deferNow k ht _) <| .ite (.raise k ht _ _ _) <| k.park h _ fun hr => by
    split
    · exact ht hr
    · exact ht hr
theorem KeepsNext.issueIn (hj : j.Keeps) : KeepsNext s0 (issueIn i sw j s h f) := by
  refine .ite (.illegal k ht) ?_
  split
  · exact .raise k ht _ _ _
  · exact .ite (.issueNow k ht hj _) (.ite (.deferJob k ht _ _ _) (k.park h _ ht))

end

/-- An instruction that issues as a job keeps both forms if its job does. -/
theorem KeepsNext.issueJob {i : Instr} {sw : Bool} {jf : Frame → Job} (hj : ∀ f, (jf f).Keeps) (s : State) :
    KeepsNext s (issueJob i sw jf s) :=
  .onTeam fun h ht => .whenReady (.refl s) ht <| .issueIn (by
    split
    · exact .refl s
    · exact .groupReads s _ _) ht (hj _)

end Sys2Proof.Machine
end

section
/-! Certificates for the family spec/08_memory_model.md: what the accesses of the lanes, barriers, retirement and the instructions of control keep. -/
namespace Sys2Proof.Machine

/-! ## Accesses by lanes -/

theorem KeepsAct.inOrder {s : State} {h : Here} {a : Act} (ha : KeepsAct s a) (st : Option Nat) (r : Option Scope) :
    KeepsAct s (inOrder s h st r a) := by
  refine .ite (.refl s) (.ite ?_ ha)
  split
  · rename_i s1 hr
    unfold podRelease at hr
    dsimp only at hr
    split at hr
    · injection hr with hr
      subst hr
      exact .podWriteBack _ _ _
    · cases hr
  · exact ha
theorem KeepsAct.finish {s0 s : State} (k : Keeps s0 s) (f : Frame) (fin : Frame → List Byte → Writes) (bs : List PByte) (need : List Nat)
    (acc : List Touch) : KeepsAct s0 (finish s f fin bs need acc) := by
  unfold Machine.finish
  split
  · exact k
  · exact k

section
variable (h : Here) (f : Frame) (s : State) (st : Option Nat) (sp : Space) (n : Nat) (sync : Bool) (as : List Acc)

theorem KeepsAct.loadLanes (fin : Frame → List Byte → Writes) : KeepsAct s (loadLanes h f s st sp n sync as fin) := by
  refine .inOrder ?_ _ _
  have k := Keeps.placeAll s h sp .read n as
  dsimp only
  split
  · exact k
  · exact .finish (k.trans ((Keeps.countBanks _ _ _).trans (.loadPlaced _ _ _ _))) _ _ _ _ _
theorem KeepsAct.storeLanes (bytes : Nat → List Byte) : KeepsAct s (storeLanes h f s st sp n sync as bytes) := by
  refine .inOrder ?_ _ _
  have k := Keeps.placeAll s h sp .write n as
  dsimp only
  split
  · exact k
  · exact k.trans ((Keeps.countBanks _ _ _).trans (.storePlaced _ _ _ _))
theorem KeepsAct.atomLanes (a : AtomKind) (fin : Frame → List Byte → Writes) : KeepsAct s (atomLanes h f s st sp n sync a as fin) := by
  refine .inOrder ?_ _ _
  have k := Keeps.placeAll s h sp .both n as
  have acquire (t : State) (o : Option Scope) (ls : List Nat) : Keeps t (match o with
      | some sc => ls.foldl (fun s l => acquireOn s h sc l) t
      | none => t) := by
    split
    · exact .foldl (fun _ _ => .acquireOn _ _ _ _) _ _
    · exact .refl t
  dsimp only
  split
  · exact k
  · refine .finish (.ite_self (.trans ?_ (acquire _ _ _)) (.noteImported _ _ _)) _ _ _ _ _
    refine .trans (.trans ?_ (acquire _ _ _)) (.atomElems _ _ _ _ _ _)
    exact .trans (.ite (k.trans (.writeBackWhere _ _ _)) k) (.countBanks _ _ _)

end

/-! ## Barriers, posted updates, retirement -/

theorem Keeps.faultBar (s : State) (b : BarRef) : Keeps s (faultBar s b) := by
  unfold Machine.faultBar
  dsimp only
  split
  · exact (Keeps.modBar s b _).same rfl rfl
  all_goals exact .modBar s b _
theorem KeepsNext.barrierFault {s0 s : State} {h : Here} (k : Keeps s0 s) (ht : h.tm.Registered s0) (b : Option BarRef) :
    KeepsNext s0 (barrierFault s h b) := by
  have hb : Keeps s0 (match b with
      | some b => faultBar s b
      | none => s) := by
    split
    · exact k.trans (.faultBar _ _)
    · exact k
  exact hb.takeFault h _ _ ht
theorem Keeps.loseMember (s : State) (u : BarUnit) : Keeps s (loseMember s u) := by
  refine .foldl (fun s i => ?_) _ s
  dsimp only
  split
  · exact .ite ((Keeps.modBar _ _ _).trans (.settleBar _ _)) (.settleBar _ _)
  · exact .refl s
theorem Keeps.postFault (s : State) (t : Nat) (pc : W64) : Keeps s (postFault s t pc) := by
  unfold Machine.postFault
  split
  · rename_i h hh
    have k := fun f q => (Keeps.refl s).takeFault h (tm := h.tm) f q (here_registered hh)
    split
    exacts [k _ _, k _ _, .refl s, k _ _, .refl s, .refl s, .refl s]
  · exact .refl s
theorem Keeps.applyPosts (s : State) (t : Nat) : Keeps s (applyPosts s t) := by
  unfold Machine.applyPosts
  split
  · exact .ite (.refl s) (.after (.foldl (fun s p => .actPost t p (.postFault s t p.pc)) _ _) (.modTeam s t fun _ => id))
  · exact .refl s
theorem Keeps.postNow (s : State) (t : Nat) (pc : W64) (a : PostAct) : Keeps s (postNow s t pc a) :=
  .after (.applyPosts _ _) (.modTeam s t fun _ => id)
theorem Keeps.ctxLeft (s : State) (c : Nat) : Keeps s (ctxLeft s c) := .ite (.refl s) (.of_eq rfl rfl)
theorem Keeps.gangRetired (s : State) (g : Nat) : Keeps s (gangRetired s g) := by
  unfold Machine.gangRetired
  split
  · exact .ite (.refl s) (.after (.ctxLeft _ _) (.after (.foldl .loseMember _ _) (.of_eq rfl rfl)))
  · exact .refl s
theorem Keeps.teamRetired (s : State) (t : Nat) : Keeps s (teamRetired s t) := by
  unfold Machine.teamRetired
  split
  · split
    · refine .after (.gangRetired _ _) (.after (.foldl (fun s u => .foldl (fun s i => .settleBar s _) _ s) _ _) ?_)
      exact .after (.loseMember _ _) (.loseMember _ _)
    · exact .refl s
  · exact .refl s

/-! ## Control flow -/

section
variable (sw : Bool) (s : State)

theorem KeepsNext.execNop : KeepsNext s (execNop sw s) := .onTeam fun _ ht => .goTo (.refl s) ht _ _
theorem KeepsNext.execBra (off : BitVec 24) : KeepsNext s (execBra sw off s) := .onTeam fun _ ht => .goTo (.refl s) ht _ _
theorem KeepsNext.execSetm (f : ModeField) : KeepsNext s (execSetm sw f s) := by
  refine .onTeam fun h ht => ?_
  have go : Keeps s (endAt s h sw (pcNext h) onePass { h.tm with mode := h.tm.mode.set f }) := (Keeps.refl s).endAt h _ _ _ ht
  cases f
  case df => exact .ite go ((Keeps.refl s).park h _ ht)
  all_goals exact go
theorem KeepsNext.execBrall (p : PReg) (neg : Bool) (off : BitVec 20) : KeepsNext s (execBrall sw p neg off s) :=
  .onTeam fun _ ht => .reading (.refl s) ht fun _ _ k => .goTo k ht _ _
theorem KeepsNext.execBrany (p : PReg) (neg : Bool) (off : BitVec 20) : KeepsNext s (execBrany sw p neg off s) :=
  .onTeam fun _ ht => .reading (.refl s) ht fun _ _ k => .goTo k ht _ _
theorem KeepsNext.execBrd (p : PReg) (neg : Bool) (off : BitVec 20) (j : W32) : KeepsNext s (execBrd sw p neg off j s) :=
  .onTeam fun h ht => .reading (.refl s) ht fun _ _ k =>
    .ite (.stackFault k ht) (.ite (k.endAt h _ _ _ ht) (.ite (k.endAt h _ _ _ ht) (k.endAt h _ _ _ ht)))
theorem KeepsNext.execCall (off : BitVec 24) : KeepsNext s (execCall sw off s) :=
  .onTeam fun h ht => .ite (.stackFault (.refl s) ht) ((Keeps.refl s).endAt h _ _ _ ht)
theorem KeepsNext.execJmpi (a : USrc) : KeepsNext s (execJmpi sw a s) :=
  .onTeam fun _ ht => .reading (.refl s) ht fun _ _ k => .ite (.raise k ht _ _ _) (.goTo k ht _ _)
theorem KeepsNext.execTrap (code : BitVec 24) : KeepsNext s (execTrap sw code s) :=
  .onTeam fun h ht => .ite ((Keeps.refl s).takeFault h _ _ ht) (Keeps.takeFault (.spend s h _ _ _) h _ _ ht)
theorem KeepsNext.execYield : KeepsNext s (execYield sw s) :=
  .onTeam fun h ht => .ite (.whenDrained (.refl s) ht (((Keeps.refl s).endAt h _ _ _ ht).trans (.modTeam _ _ fun _ => id)))
    (.goTo (.refl s) ht _ _)
theorem KeepsNext.execRegion : KeepsNext s (execRegion sw s) :=
  .onTeam fun h ht => .whenDrained (.refl s) ht ((Keeps.refl s).endAt h _ _ _ ht)
theorem KeepsNext.execDrain : KeepsNext s (execDrain sw s) :=
  .onTeam fun _ ht => .whenDrained (.refl s) ht (.goTo (.refl s) ht _ _)
theorem KeepsNext.execLoop (c : SReg) (off : BitVec 16) : KeepsNext s (execLoop sw c off s) :=
  .onTeam fun h ht => .reading (.refl s) ht fun _ _ k => (k.trans (.writeNow _ _ _)).endAt h _ _ _ fun hr => wf_writeNow _ _ (ht hr)

theorem wf_popTop {tm : Team} (e : Entry) (r : List Entry) (h : tm.regs.wf = true) : (popTop tm e r).regs.wf = true := by
  unfold popTop
  dsimp only
  split
  · exact wf_popLive r (by rw [regs_closeRegion]; exact wf_takeEntry e h)
  · exact wf_takeEntry e h
theorem dropTrap_keeps (s : State) (tm tm' : Team) : Keeps s (dropTrap s tm tm').1 ∧ (dropTrap s tm tm').2.regs = tm'.regs := by
  unfold dropTrap
  split
  · exact ⟨.refl s, rfl⟩
  · exact ⟨.dropClaims _ _ _, rfl⟩
theorem KeepsNext.endPop {s0 s : State} {h : Here} {tm : Team} (k : Keeps s0 s) (ht : h.tm.Registered s0) (htm : tm.Registered s0) :
    KeepsNext s0 (endPop sw s h tm) := by
  obtain ⟨hs, hregs⟩ := dropTrap_keeps s h.tm (closeRegion tm)
  have go := (k.trans hs).endAt h sw (dropTrap s h.tm (closeRegion tm)).2.pc onePass fun hr => by
    rw [hregs, regs_closeRegion]
    exact htm hr
  exact .ite (.whenDrained k ht go) go
theorem KeepsNext.execJoin : KeepsNext s (execJoin sw s) := by
  refine .onTeam fun h ht => ?_
  split
  · exact .stackFault (.refl s) ht
  · exact .ite (.stackFault (.refl s) ht) (.endPop sw (.refl s) ht fun hr => wf_popTop _ _ (ht hr))
theorem KeepsNext.execRet : KeepsNext s (execRet sw s) := by
  refine .onTeam fun h ht => ?_
  split
  · exact .stackFault (.refl s) ht
  · exact .ite (.endPop sw (.refl s) ht fun hr => wf_popTop _ _ (ht hr)) (.stackFault (.refl s) ht)
theorem wf_leave {tm : Team} (h : tm.regs.wf = true) : (leave tm).regs.wf = true := by
  unfold leave
  dsimp only
  split
  · unfold retireIfDead
    split
    · exact h
    · exact h
  · rw [regs_closeRegion]
    exact wf_popLive _ h
theorem KeepsNext.execExit : KeepsNext s (execExit sw s) :=
  .onTeam fun h ht => .whenDrained (.refl s) ht <| by
    have k : Keeps s (endAt s h sw (leave h.tm).pc onePass (leave h.tm)) := (Keeps.refl s).endAt h _ _ _ fun hr => wf_leave (ht hr)
    exact Keeps.ite (k.trans (.teamRetired _ _)) k

end

end Sys2Proof.Machine
end

section
/-! Certificates for the family spec/08_memory_model.md: what loads, stores and atomics, fences, cache control and lattices keep. -/
namespace Sys2Proof.Machine

/-! ## Loads, stores, atomics -/

theorem loadJob_keeps (sp : Space) (d : Dst) (a : Base) (o : Offset) (str : Stream) (m : MemForm) (f : Frame) :
    (loadJob sp d a o str m f).Keeps := fun h f s => .loadLanes h f s _ _ _ _ _ _
theorem storeJob_keeps (sp : Space) (b : Src) (a : Base) (o : Offset) (str : Stream) (m : MemForm) (f : Frame) :
    (storeJob sp b a o str m f).Keeps := fun h f s => .storeLanes h f s _ _ _ _ _ _
theorem atomJob_keeps (sp : Space) (sync : Bool) (d : Option Dst) (a : Base) (o : Offset) (str : Stream) (fn : AtomFn) (f : Frame) :
    (atomJob sp sync d a o str fn f).Keeps := fun h f s => .atomLanes h f s _ _ _ _ _ _ _
theorem jobCas_keeps (d : Dst) (a : Base) (o : Offset) (str : Stream) (f : Frame) : (jobCas d a o str f).Keeps :=
  fun h f s => .atomLanes h f s _ _ _ _ _ _ _
theorem KeepsAct.uniform {s : State} {a : Act} (ha : KeepsAct s a) (f : Frame) : KeepsAct s (a.uniform f) :=
  match a with
  | .done .. => ha
  | .fault .. => ha
  | .wait .. => ha
theorem KeepsAct.uniformStore {s : State} {a : Act} (ha : KeepsAct s a) (h : Here) (f : Frame) : KeepsAct s (a.uniformStore h f) :=
  match a with
  | .done .. => Keeps.after (.modCore _ _ _) ha
  | .fault .. => ha
  | .wait .. => ha
theorem jobUld_keeps (d a : SReg) (o : Offset) (str : Stream) (m : MemForm) (f : Frame) : (jobUld d a o str m f).Keeps :=
  fun h f s => .uniform (.loadLanes h f s _ _ _ _ _ _) _
theorem jobUst_keeps (b : USrc) (a : SReg) (o : Offset) (str : Stream) (m : MemForm) (f : Frame) : (jobUst b a o str m f).Keeps :=
  fun h f s => .uniformStore (.storeLanes h f s _ _ _ _ _ _) _ _

theorem Keeps.constFill (s : State) (core asid line : Nat) : Keeps s (constFill s core asid line) := by
  refine .ite (.refl s) ?_
  split
  · exact .after (.modCore _ _ _) (.mscRead _ _)
  · exact .refl s
theorem jobLdc_keeps (d : Dst) (a : Base) (o : Offset) (m : MemForm) (f : Frame) : (jobLdc d a o m f).Keeps := by
  intro h f s
  show KeepsAct s (ldcRun d a o m h f s)
  have k := Keeps.placeAll s h (.glob false) .read (formAlign f.mode.t m) (globAccs f a o (formBytes f.mode.t m))
  unfold ldcRun
  dsimp only
  split
  · exact k
  · exact .finish (.after (.noteImported _ _ _) (.after (.gather _ _ _ _ _) (.after (.foldl (fun s l => .constFill s _ _ _) _ _) k))) _ _ _ _ _

/-! ## Fences, monitors, cache control -/

theorem Keeps.podFence (s : State) (h : Here) : Keeps s (podFence s h) :=
  .after (.modTeam _ _ fun _ => id) (.foldl (fun s _ => .acquirePage s _ _ _) _ _)
theorem KeepsNext.execFence (sw : Bool) (mask : BitVec 16) (sc : Scope) (k : FenceKind) (s : State) :
    KeepsNext s (execFence sw mask sc k s) :=
  .onTeam fun h ht =>
    have hpark (w : Wake) : Keeps s (park s h h.tm w) := (Keeps.refl s).park h w ht
    .ite (hpark _) <| .ite (hpark _) <| .ite (.ite (hpark _) ((Keeps.podFence s h).endNow ht _ _ _))
      (.goTo (.refl s) ht _ _)
theorem KeepsNext.execMonitor (sw : Bool) (a : SReg) (o : Offset) (s : State) : KeepsNext s (execMonitor sw a o s) := by
  refine .onTeam fun h ht => .reading (.refl s) ht fun s1 f k => ?_
  have hp := k.trans (.placePage s1 h .read ⟨0, f.regs.uget a.val + offVal o, 1⟩ (f.regs.uget a.val + offVal o))
  dsimp only
  split
  · exact .raise hp ht _ _ _
  · exact hp.endAt h _ _ _ ht
theorem KeepsNext.execMwait (sw : Bool) (s : State) : KeepsNext s (execMwait sw s) :=
  .onTeam fun h ht => .whenDrained (.refl s) ht (.ite ((Keeps.refl s).endAt h _ _ _ ht) ((Keeps.refl s).block h _ ht))

theorem Keeps.prefAsk (s : State) (h : Here) (l : PrefLevel) (x : Xlat) (va : W64) : Keeps s (prefAsk s h l x va) :=
  .ite (.refl s) (.sendReq _ _ _ _ _ _ _ _ _ _ _)
theorem Keeps.prefLane (h : Here) (l : PrefLevel) (s : State) (a : Acc) : Keeps s (prefLane h l s a) := by
  have k := Keeps.placeGlob s h false .read a
  unfold Machine.prefLane
  dsimp only
  split
  · refine .ite (.after (.prefAsk _ _ _ _ _) (.ite (.after (.fillLine _ _ _ _ _) k) k)) ?_
    refine .ite (.after (.mscPut _ _) k) (.ite ?_ (.after (.mscRead _ _) k))
    exact .self_ite (.after (.fillLine _ _ _ _ _) k) (.mscRead _ _)
  · exact k
  · exact .refl s
theorem jobPref_keeps (a : Base) (o : Offset) (str : Stream) (lvl : PrefLevel) (f : Frame) : (jobPref a o str lvl f).Keeps :=
  fun h f s => Keeps.foldl (.prefLane h lvl) (globAccs f a o 1) s

theorem Keeps.cleanAddr (s : State) (h : Here) (va : W64) : Keeps s (cleanAddr s h va).1 := by
  unfold Machine.cleanAddr
  split
  · exact .refl s
  · exact .walkClear _ _ _ _
theorem Keeps.cleanAddrs (s : State) (h : Here) (as : List Acc) : Keeps s (cleanAddrs s h as).1 :=
  .foldl_fst (β := List Nat) (fun p a => .cleanAddr p.1 h a.va) as (s, [])
theorem cleanJob_keeps (drop : Bool) (a : Base) (o : Offset) (e : Extent) (f : Frame) : (cleanJob drop a o e f).Keeps := by
  intro h f s
  refine .ite (.refl s) ?_
  have k (p : L1Line → Bool) : Keeps s (writeBackWhere (cleanAddrs s h (globAccs f a o 1)).1 h.core p) :=
    .after (.writeBackWhere _ _ _) (.cleanAddrs s h _)
  dsimp only
  split
  · exact Keeps.ite_self (k _) (.dropClean _ _ _)
  · exact k _

/-! ## Lattices -/

theorem KeepsNext.parkedLoad {i : Instr} {s0 s : State} {h : Here} {f : Frame} {al : Nat} {as : List Acc}
    {g : State → Here → List Byte → Outcome State} (k : Keeps s0 s) (ht : h.tm.Registered s0)
    (hg : ∀ t (h' : Here) bs, Keeps s0 t → h'.tm.Registered s0 → KeepsNext s0 (g t h' bs)) :
    KeepsNext s0 (parkedLoad i s h f al as g) := by
  refine .ite (k.park h _ ht) (.ite (k.park h _ ht) ?_)
  have hp := k.trans (.placeAll s h (.glob true) .read al as)
  dsimp only
  split
  · exact .raise hp ht _ _ _
  · have hq := hp.trans (.loadPlaced _ h none (placeAll s h (.glob true) .read al as).2.1)
    have htm := teamNow_registered hq ht
    split
    · exact hg _ _ _ hq htm
    · exact (hq.trans (.launch _ _ _ _)).park h _ htm
theorem KeepsNext.execLdlat (sw : Bool) (n : Fin 16) (a : USrc) (s : State) : KeepsNext s (execLdlat sw n a s) :=
  .onTeam fun _ ht => .reading (.refl s) ht fun _ _ k => .parkedLoad k ht fun _ _ _ kt htm =>
    .ite (.raise kt htm _ _ _) (Keeps.after (.watch _ _ _ _)
      (Keeps.endNow (.after (.modCohort _ _ _) kt) htm _ _ _))
theorem Keeps.placeCorners (s : State) (h : Here) (n : Need) (as : List Acc) : Keeps s (placeCorners s h n as).1 := by
  refine .foldl_fst (β := List Placed × List (LaneFault × W64)) (fun p a => ?_) as (s, [], [])
  dsimp only
  split
  · exact .placeGlob _ _ _ _ _
  · exact .placeGlob _ _ _ _ _
theorem jobLdi_keeps (d : Fin 192) (grad : Bool) (crd : Fin 128) (str : Stream) (lat : Fin 16) (f : Frame) :
    (jobLdi d grad crd str lat f).Keeps := by
  intro h f s
  show KeepsAct s (ldiRun d grad crd str lat h f s)
  unfold ldiRun
  split
  · exact .refl s
  · refine .ite (.refl s) (.inOrder ?_ _ _)
    dsimp only
    split
    · exact .placeCorners _ _ _ _
    · exact .finish (.after (.loadPlaced _ _ _ _) (.after (.countBanks _ _ _) (.placeCorners _ _ _ _))) _ _ _ _ _
theorem Keeps.splatAt (s : State) (h : Here) (e : ElemAt) (n : Nat) (va : W64) (m : Mask) (g : Nat → Nat) (op : FabricOp) :
    Keeps s (splatAt s h e n va m g op).1 := by
  unfold Machine.splatAt
  dsimp only
  split
  · exact .spadStore _ _ _
  · split
    · exact .after (.sendReq _ _ _ _ _ _ _ _ _ _ _) (.dropElem _ _ _ _)
    · exact .after (.dropClean _ _ _) (.homeWrite _ _ _)
theorem Keeps.applySplats (s : State) (h : Here) (l : Lat) (at_ : W64 → Option ElemAt) (ps : List Splat) :
    Keeps s (applySplats s h l at_ ps).1 := by
  refine .foldl_fst (β := List Nat) (fun p key => ?_) _ (s, [])
  dsimp only
  split
  · exact .refl _
  · exact .ite_fst (.splatAt _ _ _ _ _ _ _ _) (.ite_fst (.splatAt _ _ _ _ _ _ _ _) (.splatAt _ _ _ _ _ _ _ _))
theorem jobSpl_keeps (d : Fin 192) (grad : Bool) (crd : Fin 128) (str : Stream) (lat : Fin 16) (f : Frame) :
    (jobSpl d grad crd str lat f).Keeps := by
  intro h f s
  show KeepsAct s (splRun d grad crd str lat h f s)
  unfold splRun
  split
  · exact .refl s
  · refine .ite (.refl s) (.inOrder ?_ _ _)
    have k (as : List Acc) := Keeps.placeCorners s h .both as
    dsimp only
    split
    · exact k _
    · exact .ite (.refl s) (Keeps.after (.applySplats _ _ _ _ _) (.after (.countBanks _ _ _) (k _)))
theorem KeepsNext.execSettle (sw : Bool) (n : Fin 16) (s : State) : KeepsNext s (execSettle sw n s) := by
  refine .onTeam fun h ht => ?_
  split
  · exact .raise (.refl s) ht _ _ _
  · exact .ite (.raise (.refl s) ht _ _ _) (.whenDrained (.refl s) ht
      (.ite ((Keeps.refl s).park h _ ht) (.ite (.queueFault (.refl s) ht) ((Keeps.modEngine s _ _).endAt h _ _ _ ht))))

theorem KeepsNext.execXwin (sw : Bool) (x : Fin 4) (base : Fin 192) (len : Cnt) (s : State) : KeepsNext s (execXwin sw x base len s) :=
  .onTeam fun h ht => .reading (.refl s) ht fun _ _ k => .ite (.illegal k ht) (k.endAt h _ _ _ ht)

end Sys2Proof.Machine
end

section
/-! Certificates for the family spec/08_memory_model.md: what the engines of a core keep. -/
namespace Sys2Proof.Machine

/-! ## Faults of an engine -/

theorem Keeps.withdrawSifter (s : State) (e : EngRef) (c : Nat) : Keeps s (withdrawSifter s e c) := by
  cases e
  case sift => exact .modCohort _ _ _
  all_goals exact .refl s
theorem Keeps.engineHalt (s : State) (e : EngRef) (f : FaultInfo) : Keeps s (engineHalt s e f) := by
  unfold Machine.engineHalt
  split
  · exact .refl s
  · exact .after (.report _ _ _) (.after (.modEngine _ _ _) (.withdrawSifter _ _ _))
theorem Keeps.engineFault (s : State) (e : EngRef) (c : Cmd) (code : Byte) (a : W64) : Keeps s (engineFault s e c code a) :=
  .ite (.modEngine _ _ _) (.engineHalt _ _ _)
theorem Keeps.engineDone (s : State) (e : EngRef) (c : Cmd) : Keeps s (engineDone s e c) := .modEngine _ _ _

/-! ## Pushes, completion words, timelines -/

theorem Keeps.targetedClear (s : State) (h : Here) (r : List (W64 × Nat)) : Keeps s (targetedClear s h r) := .writeBackWhere _ _ _
theorem KeepsNext.pushCmd {s0 s : State} {h : Here} {e : EngRef} {m : BitVec 16} {ws : List W64} {r : List (W64 × Nat)}
    {g : State → Outcome State} (k : Keeps s0 s) (ht : h.tm.Registered s0) (hg : ∀ t, Keeps s0 t → KeepsNext s0 (g t)) :
    KeepsNext s0 (pushCmd s h e m ws r g) := by
  unfold Machine.pushCmd
  split
  · trivial
  · have hpark (w : Wake) : Keeps s0 (park s h h.tm w) := k.park h w ht
    exact .ite (hpark _) (.ite (hpark _) (.ite (hpark _) (hg _ (.after (.modEngine _ _ _) (k.trans (.targetedClear _ _ _))))))
theorem KeepsNext.execUmovPushQ0 (sw : Bool) (a : USrc) (s : State) : KeepsNext s (execUmovPushQ0 sw a s) :=
  .onTeam fun h ht => .reading (.refl s) ht fun _ _ k =>
    .ite (k.endAt h _ _ _ ht) <| .ite (.queueFault k ht) <|
      .pushCmd k ht fun _ kt => kt.endAt h _ _ _ (teamNow_registered kt ht)
theorem KeepsNext.execUmovPushQ2 (sw : Bool) (a : USrc) (s : State) : KeepsNext s (execUmovPushQ2 sw a s) :=
  .onTeam fun h ht => .reading (.refl s) ht fun _ _ k =>
    .ite (k.endAt h _ _ _ ht) <| .ite (.queueFault k ht) <|
      .pushCmd k ht fun _ kt => kt.endAt h _ _ _ (teamNow_registered kt ht)
theorem KeepsNext.execUmovPopQ3 (sw : Bool) (d : SReg) (s : State) : KeepsNext s (execUmovPopQ3 sw d s) := by
  refine .onTeam fun h ht => .whenDrained (.refl s) ht ?_
  split
  · exact (Keeps.refl s).block h _ ht
  · exact Keeps.endAt (.after (.launch _ _ _ _) (.modCohort _ _ _)) h _ _ _ ht
theorem Keeps.tlAcquire (s : State) (h : Here) (e : EngRef) (n : W64) : Keeps s (tlAcquire s h e n) := by
  unfold Machine.tlAcquire
  split
  · exact .refl s
  · exact .ite (.refl s) (.dropClean _ _ _)
theorem KeepsNext.execTlwait (sw : Bool) (c : TlCtx) (n : Cnt) (s : State) : KeepsNext s (execTlwait sw c n s) :=
  .onTeam fun h ht => .whenDrained (.refl s) ht <| .ite (.raise (.refl s) ht _ _ _) <|
    .ite ((Keeps.tlAcquire _ _ _ _).endNow ht _ _ _) <|
    .ite (.queueFault (.refl s) ht) ((Keeps.refl s).block h _ ht)

/-! ## Accesses of an engine -/

/-- The state that an engine's access leaves keeps both forms. -/
def KeepsGot {α : Type} (s : State) : Got α → Prop
  | .ok t _ => Keeps s t
  | .fault t _ _ => Keeps s t
  | .ask t _ => Keeps s t

theorem KeepsGot.of_ok {α : Type} {s t : State} {a : α} {x : Got α} (k : KeepsGot s x) (hx : x = .ok t a) : Keeps s t := by
  rw [hx] at k
  exact k
theorem KeepsGot.of_fault {α : Type} {s t : State} {x : Got α} {code : Byte} {a : W64} (k : KeepsGot s x) (hx : x = .fault t code a) :
    Keeps s t := by
  rw [hx] at k
  exact k
theorem KeepsGot.of_ask {α : Type} {s t : State} {x : Got α} {tags : List Nat} (k : KeepsGot s x) (hx : x = .ask t tags) : Keeps s t := by
  rw [hx] at k
  exact k
theorem KeepsGot.ite {α : Type} {s : State} {a b : Got α} {c : Prop} [Decidable c] (ha : KeepsGot s a) (hb : KeepsGot s b) :
    KeepsGot s (if c then a else b) := by
  split
  · exact ha
  · exact hb
theorem Keeps.stop {α : Type} {s0 : State} {e : EngRef} {c : Cmd} {g : State → α → State} {x : Got α} (hx : KeepsGot s0 x)
    (hg : ∀ t a, Keeps s0 t → Keeps s0 (g t a)) : Keeps s0 (x.stop e c g) :=
  match x with
  | .ok t a => hg t a hx
  | .fault .. => Keeps.after (.engineFault _ _ _ _ _) hx
  | .ask .. => Keeps.after (.modEngine _ _ _) hx
theorem KeepsGot.enginePlace {s0 s : State} (k : Keeps s0 s) (h : Here) (sp : Space) (n : Need) (as : List Acc) :
    KeepsGot s0 (enginePlace s h sp n as) := by
  unfold Machine.enginePlace
  have hp := k.trans (.placeAll s h sp n 1 as)
  dsimp only
  split
  · exact hp
  · exact hp
theorem KeepsGot.engineRead {s0 s : State} (k : Keeps s0 s) (h : Here) (e : EngRef) (l1 : Bool) (sp : Space) (as : List Acc) :
    KeepsGot s0 (engineRead s h e l1 sp as) := by
  have hp := enginePlace k h sp .read as
  unfold Machine.engineRead
  split
  · exact hp.of_fault ‹_›
  · exact hp.of_ask ‹_›
  · rename_i s1 ps hx
    have k1 := hp.of_ok hx
    have hr := Keeps.ite (c := l1 = true) (.after (.mscReads _ (linesOf ((ps.flatMap Placed.spots).filter fun x => !x.x.cach)))
      (.after (.fillSpots s1 h (ps.flatMap Placed.spots)) k1)) (.after (.mscReads s1 (linesOf (ps.flatMap Placed.spots))) k1)
    have hg := hr.trans (.gather _ h (.engine e) (if l1 then spotByte else spotBare e) ps)
    dsimp only
    split
    · exact hg
    · exact hg

/-! ## Carter -/

theorem Keeps.copyBytes (s : State) (src dst : List Nat) (old : List Byte) : Keeps s (copyBytes s src dst old).1 := by
  unfold Machine.copyBytes
  dsimp only
  split
  · split
    · exact .of_eq rfl rfl
    · exact .of_eq rfl rfl
  · exact .refl s
theorem Keeps.engineSend (s : State) (h : Here) (e : EngRef) (line : Nat) (va : W64) (ws : List (Nat × Byte)) :
    Keeps s (engineSend s h e line va ws).1 :=
  .foldl_fst (β := List Nat) (fun _ _ => by
    dsimp only
    exact .after (.sendReq _ _ _ _ _ _ _ _ _ _ _) (.dropElem _ _ _ _)) _ (s, [])
theorem Keeps.engineWrite (s : State) (h : Here) (e : EngRef) (ps : List Placed) (bs : List Byte) : Keeps s (engineWrite s h e ps bs).1 := by
  refine Keeps.foldl_fst (β := List Nat × List Byte) (fun p a => ?_) ps (s, [], bs)
  dsimp only
  split
  · exact .spadStore _ _ _
  · split
    · refine .foldl_fst (β := List Nat) (fun q line => ?_) (linesOf a.spots) (p.1, p.2.1)
      exact .engineSend _ _ _ _ _ _
    · exact .homeWrite _ _ _
theorem Keeps.carterEnd (s : State) (e : EngRef) (c : Cmd) : Keeps s (carterEnd s e c) := by
  refine .ite ?_ (.engineDone _ _ _)
  split
  · exact .after (.engineDone _ _ _) (.modCohort _ _ _)
  · exact .engineHalt _ _ _
theorem KeepsGot.carterSource (s : State) (h : Here) (e : EngRef) (k : Carter) : KeepsGot s (carterSource s h e k) := by
  unfold Machine.carterSource
  split
  · exact .refl s
  · have hr := engineRead (.refl s) h e false (if k.ssp then .spad false else .glob true) (rowAccs k.ssp k.srcRow k.rows k.len)
    dsimp only
    split
    · exact hr.of_fault ‹_›
    · exact hr.of_ask ‹_›
    · have hp := enginePlace (hr.of_ok ‹_›) h (if k.ssp then .spad false else .glob true) .read (rowAccs k.ssp k.srcRow k.rows k.len)
      split
      · exact hp.of_ok ‹_›
      · exact hp.of_fault ‹_›
      · exact hp.of_ask ‹_›
theorem Keeps.carterRun (s : State) (h : Here) (e : EngRef) (c : Cmd) : Keeps s (carterRun s h e c) := by
  refine .ite (.carterEnd _ _ _) (.stop (.carterSource s h e _) fun t x k => .stop (.enginePlace k _ _ _ _) fun t ps kp => ?_)
  refine .ite (.after (.carterEnd _ _ _) ?_) (.after (.modEngine _ _ _) ?_)
  all_goals exact .after (.modEngine _ _ _) (.after (.engineWrite _ _ _ _ _) (.after (.copyBytes _ _ _ _) kp))
theorem KeepsNext.onCmd {s : State} {e : EngRef} {p : Cmd → Bool} {g : Here → Cmd → Outcome State} (hg : ∀ h c, KeepsNext s (g h c)) :
    KeepsNext s (onCmd s e p g) := by
  unfold Machine.onCmd
  split
  · trivial
  · split
    · trivial
    · refine .ite trivial ?_
      split
      · exact hg _ _
      · trivial
theorem KeepsNext.execCarterCopy (core ctx : Nat) (s : State) : KeepsNext s (execCarterCopy core ctx s) :=
  .onCmd fun h c => Keeps.carterRun s h _ c
theorem KeepsNext.execCarterCopy2d (core ctx : Nat) (s : State) : KeepsNext s (execCarterCopy2d core ctx s) :=
  .onCmd fun h c => Keeps.carterRun s h _ c
theorem KeepsNext.execCarterFill (core ctx : Nat) (s : State) : KeepsNext s (execCarterFill core ctx s) :=
  .onCmd fun h c => Keeps.carterRun s h _ c

/-! ## Sifter -/

theorem Keeps.sortedEmit (s : State) (as bs : List Nat) : Keeps s (sortedEmit s as bs).1 := by
  unfold Machine.sortedEmit
  dsimp only
  split
  · exact .refl s
  · exact .bump s
theorem Keeps.siftRead (s : State) (h : Here) (e : EngRef) (c : Cmd) : Keeps s (siftRead s h e c) := by
  refine .stop (.engineRead (.refl s) _ _ _ _ _) fun t xs k => .stop (.engineRead k _ _ _ _ _) fun u ys kp => ?_
  have hr := Keeps.ite_fst (c := (siftOf c.words).op = 0)
    (b := (u, bitmapPairs ((words32 (siftOf c.words).na xs).zip (words32 (siftOf c.words).lenB ys)) 0 0 ++ [siftMarker]))
    (.after (.sortedEmit u (words32 (siftOf c.words).na xs) (words32 (siftOf c.words).lenB ys)) kp) kp
  exact .ite (.after (.engineHalt _ _ _) hr) (.after (.modEngine _ _ _) hr)
theorem KeepsNext.siftGo (s : State) (e : EngRef) (ctx : Nat) (c : Cmd) (es : List W64) : KeepsNext s (siftGo s e ctx c es) := by
  unfold Machine.siftGo
  dsimp only
  split
  · trivial
  · refine .ite (.ite trivial (Keeps.after (.engineDone _ _ _) (.modCohort _ _ _))) ?_
    split
    · exact Keeps.engineHalt _ _ _
    · exact .ite trivial (.ite (Keeps.after (.engineHalt _ _ _) (.modCohort _ _ _)) (Keeps.after (.modEngine _ _ _) (.modCohort _ _ _)))
theorem KeepsNext.siftRun (s : State) (h : Here) (e : EngRef) (ctx : Nat) (c : Cmd) : KeepsNext s (siftRun s h e ctx c) := by
  unfold Machine.siftRun
  split
  · exact Keeps.siftRead _ _ _ _
  · exact .siftGo _ _ _ _ _
theorem KeepsNext.execSifterSortedIndex (core ctx : Nat) (s : State) : KeepsNext s (execSifterSortedIndex core ctx s) :=
  .onCmd fun _ _ => .siftRun _ _ _ _ _
theorem KeepsNext.execSifterBitmap (core ctx : Nat) (s : State) : KeepsNext s (execSifterBitmap core ctx s) :=
  .onCmd fun _ _ => .siftRun _ _ _ _ _

/-! ## Settle -/

theorem Keeps.placedPut (s : State) (asid : Nat) (p : Placed) (x : Nat) : Keeps s (placedPut s asid p x) := by
  unfold Machine.placedPut
  dsimp only
  split
  · exact .spadStore _ _ _
  · exact .homeWrite _ _ _
theorem Keeps.settleAsk (s : State) (h : Here) (e : EngRef) (pa n : Nat) (va : W64) (op : FabricOp) :
    Keeps s (settleAsk s h e pa n va op).1 := .after (.sendReq _ _ _ _ _ _ _ _ _ _ _) (.dropElem _ _ _ _)
theorem Keeps.settleEntry (s : State) (h : Here) (e : EngRef) (l : Lat) (en : Placed) (z : Nat) : Keeps s (settleEntry s h e l en z).1 := by
  unfold Machine.settleEntry
  dsimp only
  split
  · exact .refl s
  · split
    · exact .placedPut _ _ _ _
    · dsimp only
      exact .settleAsk _ _ _ _ _ _ _
theorem KeepsGot.settlePair {s0 s : State} (k : Keeps s0 s) (h : Here) (e : EngRef) (l : Lat) (sh en : Placed) :
    KeepsGot s0 (settlePair s h e l sh en) := by
  unfold Machine.settlePair
  dsimp only
  split
  · exact Keeps.after (.placedPut _ _ _ _) (.after (.placedPut _ _ _ _) k)
  · exact Keeps.after (.settleEntry _ _ _ _ _ _) (.after (.placedPut _ _ _ _) k)
  · split
    · exact Keeps.after (.settleAsk _ _ _ _ _ _ _) (.after (.dropElem _ _ _ _) k)
    · split
      · exact Keeps.after (.settleEntry _ _ _ _ _ _) (.after (.modEngine _ _ _) k)
      · exact Keeps.after (.settleAsk _ _ _ _ _ _ _) k
theorem KeepsGot.settleOne {s0 s : State} (k : Keeps s0 s) (h : Here) (e : EngRef) (l : Lat) (i : Nat) :
    KeepsGot s0 (settleOne s h e l i) := by
  have hp := enginePlace k h (.glob true) .both [⟨0, shadowAddr l (i / l.channels) (i % l.channels), 16⟩]
  unfold Machine.settleOne
  dsimp only
  split
  · exact hp.of_fault ‹_›
  · exact hp.of_ask ‹_›
  · have k1 := hp.of_ok ‹_›
    refine .ite k1 ?_
    have hq := enginePlace k1 h (.glob true) .both
      [⟨0, l.entryAddr (i / l.channels) + BitVec.ofNat 64 (i % l.channels * latSize l.etype), latSize l.etype⟩]
    split
    · exact hq.of_fault ‹_›
    · exact hq.of_ask ‹_›
    · have k2 := hq.of_ok ‹_›
      split
      · exact .settlePair k2 _ _ _ _ _
      · exact k2
theorem Keeps.settleFrom (h : Here) (e : EngRef) (l : Lat) (c : Cmd) :
    ∀ (n i : Nat) (s : State) (tags : List Nat), Keeps s (settleFrom h e l c n i s tags).1
  | 0, _, s, _ => .refl s
  | n + 1, i, s, tags => by
    have hp := KeepsGot.settleOne (.refl s) h e l i
    unfold Machine.settleFrom
    split
    · exact .after (.settleFrom h e l c n _ _ _) (hp.of_ok ‹_›)
    · exact .after (.engineFault _ _ _ _ _) (.after (.modEngine _ _ _) (hp.of_fault ‹_›))
    · exact .after (.modEngine _ _ _) (hp.of_ask ‹_›)
theorem KeepsNext.execSettleExecute (core : Nat) (s : State) : KeepsNext s (execSettleExecute core s) := by
  refine .onCmd fun h c => .ite (Keeps.engineDone _ _ _) ?_
  have k := Keeps.settleFrom h (.settle core) (latOf c.desc) c ((latOf c.desc).elems - c.pairs) c.pairs s []
  dsimp only
  split
  · exact k
  · exact Keeps.ite (.after (.engineDone _ _ _) (.after (.modEngine _ _ _) k)) (.after (.modEngine _ _ _) (.after (.modEngine _ _ _) k))

end Sys2Proof.Machine
end

section
/-! Certificates for the family spec/08_memory_model.md: what the matrix units keep. -/
namespace Sys2Proof.Machine

/-! ## Matrix instructions at issue -/

section
variable {s0 s : State} {h : Here} (k : Keeps s0 s) (ht : h.tm.Registered s0)
include k ht

theorem KeepsNext.numbered (sw : Bool) (i : Instr) (args : List W64) (lits : Nat) : KeepsNext s0 (numbered sw s h i args lits) :=
  (k.trans (.after (.modBench _ _ _ _) (.bump s))).endAt h _ _ _ ht
theorem KeepsNext.matrixFault : KeepsNext s0 (matrixFault s h) := .raise k ht _ _ _
theorem KeepsNext.tileChecks {ok : Bool} {n : Nat} {o : Outcome State} (ho : KeepsNext s0 o) : KeepsNext s0 (tileChecks s h ok n o) :=
  .ite (.illegal k ht) (.ite (.matrixFault k ht) ho)
theorem KeepsNext.matAddrs {al : List (Nat × W64)} {st fm : List W64} {o : Outcome State} (ho : KeepsNext s0 o) :
    KeepsNext s0 (matAddrs s h al st fm o) := by
  unfold Machine.matAddrs
  split
  · exact .raise k ht _ _ _
  · refine .ite (.raise k ht _ _ _) ?_
    split
    · exact .raise k ht _ _ _
    · exact ho

end

section
variable (sw : Bool) (n : Fin 8) (s : State)

theorem KeepsNext.execMma (a b : Fin 30) : KeepsNext s (execMma sw n a b s) :=
  .onTeam fun _ ht => .reading (.refl s) ht fun _ _ k => .tileChecks k ht <|
    .ite (.matrixFault k ht) (.matAddrs k ht (.numbered k ht _ _ _ _))
theorem KeepsNext.sparseIssue (i : Instr) (ok : Ty → Bool) (a : SReg) (b : Fin 30) : KeepsNext s (sparseIssue sw i ok n a b s) :=
  .onTeam fun _ ht => .reading (.refl s) ht fun _ _ k => .tileChecks k ht <|
    .ite (.matrixFault k ht) (.matAddrs k ht (.numbered k ht _ _ _ _))
theorem KeepsNext.execAclr : KeepsNext s (execAclr sw n s) :=
  .onTeam fun _ ht => .tileChecks (.refl s) ht (.numbered (.refl s) ht _ _ _ _)
theorem KeepsNext.execAcld (a : ASrc) (b : USrc) : KeepsNext s (execAcld sw n a b s) :=
  .onTeam fun _ ht => .reading (.refl s) ht fun _ _ k => .tileChecks k ht (.matAddrs k ht (.numbered k ht _ _ _ _))
theorem KeepsNext.execMhint (a : USrc) : KeepsNext s (execMhint sw a s) :=
  .onTeam fun h ht => .reading (.refl s) ht fun s1 _ k => (k.trans (.after (.modBench _ _ _ _) (.bump s1))).endAt h _ _ _ ht

end

theorem jobAcrd_keeps (d : Dst) (n : Fin 8) (b : USrc) (f : Frame) : (jobAcrd d n b f).Keeps := fun _ _ s => .ite (.refl s) (.refl s)

/-! ## The matrix unit -/

theorem regs_captureTiles (s : State) (t : Nat) (tm : Team) (core bench : Nat) :
    (if tm.inflight.any fun a => a.tile.isSome then { tm with inflight := tm.inflight.map (captureOne s t tm core bench) }
      else tm).regs = tm.regs := by
  split
  · rfl
  · rfl
theorem Keeps.captureTiles (s : State) (core bench : Nat) : Keeps s (captureTiles s core bench) :=
  .of_mapIdx _ rfl rfl fun t tm => regs_captureTiles s t tm core bench
theorem Keeps.matrixEnd (s : State) (core bench : Nat) : Keeps s (matrixEnd s core bench) :=
  .after (.captureTiles _ _ _) (.modBench _ _ _ _)
theorem Keeps.stopOutside (s : State) (t : Nat) (f : FaultInfo) : Keeps s (stopOutside s t f) := by
  unfold Machine.stopOutside
  split
  · rename_i h hh
    have k := (Keeps.refl s).stopTeam h f .stopped (here_registered hh)
    split
    exacts [k, k, .refl s, k, .refl s, .refl s, .refl s]
  · exact .refl s
theorem Keeps.matrixUnresolved (s : State) (core bench : Nat) (f : FaultInfo) : Keeps s (matrixUnresolved s core bench f) := by
  unfold Machine.matrixUnresolved
  split
  · exact .refl s
  · refine .after (.matrixEnd _ _ _) (.after (.modBench _ _ _ _) (.after (.modGang _ _ _) (.after (.stopOutside _ _ _) ?_)))
    exact .ite (.refl s) (.report _ _ _)
theorem Keeps.unitFault (s : State) (core bench : Nat) (c : MCmd) (code : Byte) (a : W64) : Keeps s (unitFault s core bench c code a) :=
  .ite (.modBench _ _ _ _) (.matrixUnresolved _ _ _ _)
theorem Keeps.unitStop {α : Type} {s0 : State} {core bench : Nat} {c : MCmd} {g : State → α → State} {x : Got α} (hx : KeepsGot s0 x)
    (hg : ∀ t a, Keeps s0 t → Keeps s0 (g t a)) : Keeps s0 (unitStop core bench c g x) :=
  match x with
  | .ok t a => hg t a hx
  | .fault .. => Keeps.after (.unitFault _ _ _ _ _ _) hx
  | .ask .. => Keeps.after (.modBench _ _ _ _) hx
theorem Keeps.chunkDone (core bench n cols : Nat) (t : MatTy) (wide : Bool) (c : MCmd) (s : State) (ch : Chunk) (j : Nat) :
    Keeps s (chunkDone core bench n cols t wide c s ch j) :=
  .after (.modBench _ _ _ _) (.ite_self (.modCohort _ _ _) (.modTeam _ _ fun _ => id))
theorem Keeps.runChunks {s0 : State} {core bench n cols : Nat} {t : MatTy} {wide : Bool} {c : MCmd} {read : State → Nat → Got Chunk}
    (hread : ∀ s j, KeepsGot s (read s j)) :
    ∀ (m j : Nat) (s : State), Keeps s0 s → Keeps s0 (runChunks core bench n cols t wide c read m j s)
  | 0, _, _, k => k.trans (.matrixEnd _ _ _)
  | m + 1, j, s, k => k.trans <| .unitStop (hread s j) fun _ _ kt =>
      runChunks hread m (j + 1) _ (kt.trans (.chunkDone _ _ _ _ _ _ _ _ _ _))

theorem KeepsGot.unitRead {s0 s : State} (k : Keeps s0 s) (h : Here) (e : EngRef) (as : List (W64 × Nat)) :
    KeepsGot s0 (unitRead s h e as) := by
  have hr := engineRead k h e true (.glob true) (as.flatMap fun a => rangePieces a.1 a.2)
  unfold Machine.unitRead
  split
  · exact hr.of_ok ‹_›
  · exact hr.of_fault ‹_›
  · exact hr.of_ask ‹_›
theorem KeepsGot.denseChunk (h : Here) (e : EngRef) (t : MatTy) (mx : Bool) (args : List W64) (s : State) (j : Nat) :
    KeepsGot s (denseChunk h e t mx args s j) := by
  have hr (as : List (W64 × Nat)) := unitRead (.refl s) h e as
  unfold Machine.denseChunk
  dsimp only
  split
  · exact (hr _).of_fault ‹_›
  · exact (hr _).of_ask ‹_›
  · exact (hr _).of_ok ‹_›
theorem KeepsGot.sparseChunk (csr : Bool) (h : Here) (e : EngRef) (t : MatTy) (args : List W64) (d : Sparse2) (ps : List (List (Nat × Nat)))
    (s : State) (j : Nat) : KeepsGot s (sparseChunk csr h e t args d ps s j) := by
  have hr (as : List (W64 × Nat)) := unitRead (.refl s) h e as
  unfold Machine.sparseChunk
  dsimp only
  split
  · exact (hr _).of_fault ‹_›
  · exact (hr _).of_ask ‹_›
  · exact (hr _).of_ok ‹_›
theorem KeepsGot.sparseRead (csr : Bool) (h : Here) (e : EngRef) (args : List W64) (s : State) : KeepsGot s (sparseRead csr h e args s) := by
  have hr (t : State) (k : Keeps s t) (as : List (W64 × Nat)) := unitRead k h e as
  unfold Machine.sparseRead
  split
  · exact (hr _ (.refl s) _).of_fault ‹_›
  · exact (hr _ (.refl s) _).of_ask ‹_›
  · have k1 := (hr _ (.refl s) _).of_ok ‹_›
    split
    · exact k1
    · refine .ite k1 (.ite k1 (.ite k1 ?_))
      dsimp only
      split
      · exact (hr _ k1 _).of_fault ‹_›
      · exact (hr _ k1 _).of_ask ‹_›
      · have k2 := (hr _ k1 _).of_ok ‹_›
        refine .ite k2 ?_
        split
        · exact (hr _ k2 _).of_fault ‹_›
        · exact (hr _ k2 _).of_ask ‹_›
        · have k3 := (hr _ k2 _).of_ok ‹_›
          exact .ite k3 k3
theorem Keeps.unitRun (s : State) (h : Here) (core bench : Nat) (c : MCmd) (m : Nat) : Keeps s (unitRun s h core bench c m) := by
  unfold Machine.unitRun
  dsimp only
  split
  · exact .runChunks (.denseChunk h _ _ _ _) _ _ _ (.refl s)
  · exact .unitStop (.sparseRead _ _ _ _ _) fun _ _ k => .runChunks (.sparseChunk _ _ _ _ _ _ _) _ _ _ k
  · exact .unitStop (.sparseRead _ _ _ _ _) fun _ _ k => .runChunks (.sparseChunk _ _ _ _ _ _ _) _ _ _ k
  · exact .after (.matrixEnd _ _ _) (.modCohort _ _ _)
  · exact .unitStop (.unitRead (.refl s) _ _ _) fun _ _ k => .after (.matrixEnd _ _ _) (.after (.modCohort _ _ _) k)
  · exact .matrixEnd _ _ _
theorem KeepsNext.execMatrixUnitExecute (core bench : Nat) (s : State) : KeepsNext s (execMatrixUnitExecute core bench s) := by
  unfold Machine.execMatrixUnitExecute
  split
  · trivial
  · split
    · trivial
    · refine .ite trivial ?_
      split
      · exact Keeps.after (.unitRun _ _ _ _ _ _) (.modBench _ _ _ _)
      · trivial
theorem KeepsNext.rampEvent (core bench : Nat) (r : Ramp) (n : Nat) (next : Bench → Ramp) (s : State) :
    KeepsNext s (rampEvent core bench r n next s) := by
  unfold Machine.rampEvent
  split
  · trivial
  · exact .ite (Keeps.modBench _ _ _ _) trivial

/-! ## Quantisation -/

theorem jobQnt_keeps (d : Dst) (a : Src) (f : Frame) : (jobQnt d a f).Keeps := by
  intro h f s
  unfold jobQnt
  dsimp only
  split
  · exact .refl s
  · exact .refl s
theorem jobHadq_keeps (d : Dst) (a : Src) (b : Fin 31) (f : Frame) : (jobHadq d a b f).Keeps := fun _ _ s =>
  Keeps.ite (.refl s) (.of_eq rfl rfl)
theorem KeepsNext.acstStore {s0 s : State} {h : Here} (k : Keeps s0 s) (ht : h.tm.Registered s0) (sw : Bool) (i : Instr) (f : Frame)
    (hd : Header) (sc : List Nat) (n lits : Nat) (loads : List Acc) : KeepsNext s0 (acstStore sw i s h f hd sc n lits loads) := by
  have kp := k.trans (.placeAll s h (.glob true) .write 1 ((List.range hd.rows).flatMap hd.rowAccs))
  unfold Machine.acstStore
  dsimp only
  split
  · exact .raise kp ht _ _ _
  · have kq := kp.trans (.storePlaced _ h none ((placeAll s h (.glob true) .write 1 ((List.range hd.rows).flatMap hd.rowAccs)).2.1.zip
      (acstRows hd f.mode f.mode.t sc (tileGet h.co h.bench n f.mode.t.wide)).1))
    have htm := teamNow_registered kq ht
    generalize teamNow _ h = tm at htm ⊢
    exact Keeps.after (.watch _ _ _ _) (Keeps.endAt (.ite_pair kq (.after (.launch _ _ _ _) kq)) h _ _ _
      (Team.registered_ite_pair htm (launch_registered htm)))
theorem KeepsNext.execAcst (sw : Bool) (n : Fin 8) (a b : USrc) (s : State) : KeepsNext s (execAcst sw n a b s) := by
  refine .onTeam fun _ ht => .reading (.refl s) ht fun _ _ k => .tileChecks k ht (.parkedLoad k ht fun t h bs kt htm => ?_)
  split
  · exact .matrixFault kt htm
  · refine .ite (.matrixFault kt htm) (.ite (.raise kt htm _ _ _) (.ite (.raise kt htm _ _ _) ?_))
    split
    · exact kt.park h _ (teamNow_registered kt htm)
    · exact .ite (.acstStore kt htm _ _ _ _ _ _ _ _) (.parkedLoad kt htm fun _ _ _ ku htu => .acstStore ku htu _ _ _ _ _ _ _ _)

end Sys2Proof.Machine
end

section
/-! Certificates for the family spec/08_memory_model.md: what rings, barriers, control registers, landings and residues
keep, and the job of every instruction. -/
namespace Sys2Proof.Machine

/-! ## Rings -/

section
variable {s0 s : State} {h : Here} (k : Keeps s0 s) (ht : h.tm.Registered s0)
include k ht

theorem KeepsNext.whenPosted {r : Nat} {o : Outcome State} (ho : KeepsNext s0 o) : KeepsNext s0 (whenPosted s h r o) :=
  .ite (k.park h _ ht) ho
theorem KeepsNext.ringEnd (sw : Bool) (a : Option SReg) (x : W32) (lits : Nat) : KeepsNext s0 (ringEnd sw s h a x lits) :=
  Keeps.writeNowEnd k ht _ _ _ _

end

section
variable (sw : Bool) (s : State)

theorem KeepsNext.execRingInit (r : Fin 16) (a : USrc) (b : Byte) : KeepsNext s (execRingInit sw r a b s) := by
  refine .onTeam fun h ht => .reading (.refl s) ht fun s1 f k => .whenPosted k ht ?_
  refine .ite (k.park h _ ht) (.ite (.raise k ht _ _ _) ?_)
  split
  · exact .raise k ht _ _ _
  · split
    · exact .queueFault k ht
    · exact .ite (.queueFault k ht) (Keeps.endNow (.after (.modCohort _ _ _) k) ht _ _ _)
theorem KeepsNext.ringAsk (r : Fin 16) (a : Option SReg) (k : USrc) (wait : Bool) : KeepsNext s (ringAsk sw r a k wait s) := by
  refine .onTeam fun h ht => ?_
  refine .ite ?_ (.whenDrained (.refl s) ht (.whenPosted (.refl s) ht ?_))
  · dsimp only
    split
    · exact .ringEnd (.modCohort _ _ _) ht _ _ _ _
    · exact (Keeps.refl s).block h _ ht
  · dsimp only
    split
    · exact .queueFault (.refl s) ht
    · refine .ite (.queueFault (.refl s) ht) (.ite (.ringEnd (.refl s) ht _ _ _ _) ?_)
      split
      · exact .ringEnd (.after (.modCohort _ _ _) (.modCohort _ _ _)) ht _ _ _ _
      · exact Keeps.block (.modCohort _ _ _) h _ ht
theorem KeepsNext.ringPost (r : Fin 16) (u : USrc) (rel : Bool) : KeepsNext s (ringPost sw r u rel s) := by
  refine .onTeam fun h ht => .reading (.refl s) ht fun s1 f k => ?_
  have go (t : State) (kt : Keeps s t) : Keeps s (endAt t h sw (nextPc h.tm.pc (usrcLits u)) onePass (teamNow t h)) :=
    kt.endNow ht _ _ _
  dsimp only
  split
  · exact .queueFault k ht
  · exact .ite (.queueFault k ht) (.ite (go _ k) (.ite (.queueFault k ht) (go _ (k.trans (.postNow _ _ _ _)))))
theorem KeepsNext.execRingStat (r : Fin 16) (a : SReg) (u : USrc) : KeepsNext s (execRingStat sw r a u s) := by
  refine .onTeam fun h ht => .reading (.refl s) ht fun s1 f k => .whenPosted k ht (.ite (.illegal k ht) ?_)
  split
  · exact .queueFault k ht
  · exact Keeps.writeNowEnd k ht _ _ _ _

end

/-! ## Barriers -/

section
variable {s0 s : State} {h : Here} (k : Keeps s0 s) (ht : h.tm.Registered s0)
include k ht

theorem Keeps.setBar (u : BarUse) : Keeps s0 (s.setTeam h.t ((teamNow s h).setBar u)) := k.setTeam _ (teamNow_registered k ht)
theorem KeepsNext.barArriveNow {b : BarRef} {n : W64} {g : State → Outcome State} (hg : ∀ t, Keeps s0 t → KeepsNext s0 (g t)) :
    KeepsNext s0 (barArriveNow s h b n g) := by
  unfold Machine.barArriveNow
  split
  · exact .barrierFault k ht _
  · exact .ite (.barrierFault k ht _) (hg _ (.after (.postNow _ _ _ _)
      (.setBar (.ite_self (.ite (k.trans (.bump s)) k) (.modBar _ _ _)) ht _)))
theorem KeepsNext.barWaitNow (sw : Bool) (l : BarLevel) (b : BarRef) (lits : Nat) : KeepsNext s0 (barWaitNow sw s h l b lits) := by
  have hleave : Keeps s0 (barLeave s h l) := by
    refine k.trans ?_
    cases l
    case cohort => exact .refl s
    case pod => exact .after (.foldl (fun s _ => .acquirePage s _ _ _) _ _) (.selfInvalidate _ _ _)
    all_goals exact .selfInvalidate _ _ _
  unfold Machine.barWaitNow
  split
  · exact .barrierFault k ht _
  · exact .ite (.barrierFault k ht _) (.ite (hleave.endAt h _ _ _ (teamNow_registered hleave ht)) (k.block h _ ht))

end

section
variable (sw : Bool) (l : BarLevel) (id : Fin 16) (n : Cnt) (s : State)

theorem KeepsNext.execBarArrive : KeepsNext s (execBarArrive sw l id n s) := by
  refine .onTeam fun h ht => .reading (.refl s) ht fun s1 f k => ?_
  split
  · exact .barrierFault k ht _
  · exact .barArriveNow k ht fun _ kt => kt.endNow ht _ _ _
theorem KeepsNext.execBarWait : KeepsNext s (execBarWait sw l id n s) := by
  refine .onTeam fun h ht => .whenDrained (.refl s) ht ?_
  split
  · exact .barrierFault (.refl s) ht _
  · exact .barWaitNow (.refl s) ht _ _ _ _
theorem KeepsNext.execBarSync : KeepsNext s (execBarSync sw l id n s) := by
  refine .onTeam fun h ht => .whenDrained (.refl s) ht ?_
  split
  · exact .barrierFault (.refl s) ht _
  · exact .ite (.barWaitNow (.refl s) ht _ _ _ _)
      (.barArriveNow (.refl s) ht fun _ kt => .barWaitNow kt (teamNow_registered kt ht) _ _ _ _)

end

theorem KeepsNext.execBarrierGenerationComplete (b : BarRef) (s : State) : KeepsNext s (execBarrierGenerationComplete b s) := by
  unfold Machine.execBarrierGenerationComplete
  split
  · trivial
  · have k (cs : List (Nat × Nat)) := Keeps.foldl (fun s (c : Nat × Nat) => .clearCore s c.1 c.2) cs s
    exact .ite trivial (.ite trivial (.ite (k _) (Keeps.after (.modBar _ _ _) (k _))))

/-! ## Control registers -/

theorem Keeps.csrPut (s : State) (h : Here) (r : Csr) (x : W64) : Keeps s (csrPut s h r x) := by
  unfold Machine.csrPut
  split
  · exact .modTeam _ _ fun _ => id
  · exact .modTeam _ _ fun _ => id
  · exact .modTeam _ _ fun _ => id
  · exact .modCohort _ _ _
  · exact .modBench _ _ _ _
  · exact .refl s

section
variable (sw : Bool) (s : State)

theorem KeepsNext.execCsrr (d : SReg) (r : Csr) : KeepsNext s (execCsrr sw d r s) :=
  .onTeam fun h ht => (Keeps.writeNow _ _ _).endAt h _ _ _ fun hr => wf_writeNow _ _ (ht hr)
theorem KeepsNext.execCsrw (a : USrc) (r : Csr) : KeepsNext s (execCsrw sw a r s) :=
  .onTeam fun _ ht => .reading (.refl s) ht fun _ _ k => .ite (.raise k ht _ _ _)
    (Keeps.endNow (.after (.csrPut _ _ _ _) k) ht _ _ _)
theorem KeepsNext.execFlagsClear (a : USrc) : KeepsNext s (execFlagsClear sw a s) :=
  .onTeam fun h ht => .reading (.refl s) ht fun _ _ k => k.endAt h _ _ _ ht
theorem KeepsNext.execTrapvecWrite (a : USrc) : KeepsNext s (execTrapvecWrite sw a s) :=
  .onTeam fun h ht => .reading (.refl s) ht fun _ _ k => k.endAt h _ _ _ ht

end

/-! ## Instructions that issue through a job -/

/-- The job of every instruction that has one keeps both forms; those of lane arithmetic leave the state alone. -/
theorem jobOf_keeps {i : Instr} {jf : Frame → Job} (hj : jobOf i = some jf) (f : Frame) : (jf f).Keeps := by
  unfold jobOf at hj
  cases i <;> cases hj
  case ld => exact loadJob_keeps _ _ _ _ _ _ _
  case lds => exact loadJob_keeps _ _ _ _ _ _ _
  case ldq => exact loadJob_keeps _ _ _ _ _ _ _
  case st => exact storeJob_keeps _ _ _ _ _ _ _
  case sts => exact storeJob_keeps _ _ _ _ _ _ _
  case stq => exact storeJob_keeps _ _ _ _ _ _ _
  case ldc => exact jobLdc_keeps _ _ _ _ _
  case atom => exact atomJob_keeps _ _ _ _ _ _ _ _
  case atoms => exact atomJob_keeps _ _ _ _ _ _ _ _
  case atomar => exact atomJob_keeps _ _ _ _ _ _ _ _
  case cas => exact jobCas_keeps _ _ _ _ _
  case uld => exact jobUld_keeps _ _ _ _ _ _
  case ust => exact jobUst_keeps _ _ _ _ _ _
  case pref => exact jobPref_keeps _ _ _ _ _
  case clean => exact cleanJob_keeps _ _ _ _ _
  case inval => exact cleanJob_keeps _ _ _ _ _
  case ldi => exact jobLdi_keeps _ _ _ _ _ _
  case spl => exact jobSpl_keeps _ _ _ _ _ _
  case acrd => exact jobAcrd_keeps _ _ _ _
  case qnt => exact jobQnt_keeps _ _ _
  case hadq => exact jobHadq_keeps _ _ _ _
  case rdlane => exact fun _ _ s => Keeps.ite (.refl s) (.bump s)
  all_goals exact fun _ _ s => .refl s

/-! ## Landings and residues -/

theorem Team.Registered.deliver {s : State} {tm : Team} (ht : tm.Registered s) (id : Nat) (w : Writes) : (deliver tm id w).Registered s :=
  fun hr => Regs.wf_apply (ht hr) _
theorem spend_registered {s0 s : State} {h : Here} {f : Frame} {cost : List (Nat × Nat)} {tm : Team} (ht : tm.Registered s0) :
    (spend s h f cost tm).2.Registered s0 := ht
theorem Keeps.landNow (s : State) (t id : Nat) (a : InFlight) : Keeps s (landNow s t id a) :=
  .after (.applyPosts _ _) (.modTeam _ _ fun _ h => Regs.wf_apply h _)
theorem KeepsNext.execLoadLands (t id : Nat) (s : State) : KeepsNext s (execLoadLands t id s) := by
  unfold Machine.execLoadLands
  split
  · trivial
  · split
    · trivial
    · exact .ite (Keeps.landNow _ _ _ _) trivial
theorem Keeps.residueFault {s0 s : State} {h : Here} (k : Keeps s0 s) (ht : h.tm.Registered s0) (r : Residue) (f : FaultInfo) :
    Keeps s0 (residueFault s h r f) := by
  have htm := teamNow_registered k ht
  unfold Machine.residueFault
  generalize teamNow s h = tm at htm
  exact k.takeFault h _ _ htm
theorem Keeps.residueDone {s0 s : State} {h : Here} (k : Keeps s0 s) (ht : h.tm.Registered s0) (r : Residue) (j : Job) (w : Writes)
    (bytes : List PByte) (need : List Nat) (x : Option Seen) : Keeps s0 (residueDone s h r j w bytes need x) := by
  have htm := teamAt_registered k ht
  unfold Machine.residueDone
  generalize (s.teams[h.t]?).getD h.tm = tm at htm
  refine .after (.applyPosts _ _) ((k.trans (.spend _ _ _ _ _)).setTeam _ (spend_registered ?_))
  exact Team.registered_ite htm (Team.registered_ite (Team.Registered.deliver htm _ _) (Team.Registered.deliver htm _ _))
theorem KeepsNext.execResidueRun (t : Nat) (s : State) : KeepsNext s (execResidueRun t s) := by
  unfold Machine.execResidueRun
  split
  · trivial
  rename_i h hh
  have ht := here_registered hh
  split
  · trivial
  split
  · trivial
  rename_i jf hj
  refine .ite trivial (.ite (Keeps.residueFault (.refl s) ht _ _) ?_)
  have k (own : Here) (f : Frame) := jobOf_keeps hj f own f s
  split
  · exact Keeps.residueFault ((k _ _).of_fault ‹_›) ht _ _
  · exact .ite ((k _ _).of_wait ‹_›) trivial
  · exact Keeps.after (.watch _ _ _ _) (.residueDone ((k _ _).of_done ‹_›) ht _ _ _ _ _ _)

end Sys2Proof.Machine
end

section
/-! Certificates for the family spec/08_memory_model.md: what queues, kernels, gangs and contexts keep. -/
namespace Sys2Proof.Machine

/-! ## Tables other than memory and the teams -/

theorem Keeps.setSlots (s : State) (l : List Slot) : Keeps s { s with slots := l } := .of_eq rfl rfl
theorem Keeps.setQueues (s : State) (l : List Queue) : Keeps s { s with queues := l } := .of_eq rfl rfl

/-! ## Queues -/

theorem Keeps.seeQueue (s : State) (c : Ctx) (q : Queue) : Keeps s (seeQueue s c q) := .devSee _ _ _ _
theorem Keeps.qput (s : State) (c : Ctx) (q : Queue) (off n x : Nat) : Keeps s (qput s c q off n x) := .devWrite _ _ _ _
theorem Keeps.qflagSet (s : State) (c : Ctx) (q : Queue) (n : Nat) : Keeps s (qflagSet s c q n) := .qput _ _ _ _ _ _
theorem Keeps.freeSlot (s : State) (ctx q : Nat) : Keeps s (freeSlot s ctx q) := .of_eq rfl rfl
theorem Keeps.order (s : State) : Keeps s s.order := .of_eq rfl rfl
theorem Keeps.qsettle (s : State) (ctx qn : Nat) : Keeps s (qsettle s ctx qn) := by
  unfold Machine.qsettle
  split
  · exact .refl s
  · refine .ite (.refl s) (.ite (.ite ?_ (.refl s)) (.ite ?_ (.refl s)))
    · exact .after (.freeSlot _ _ _) (.setQueue _ _)
    · exact .after (.setQueue _ _) (.order s)
theorem Keeps.tailTaken (s : State) (c : Ctx) (q : Queue) (tail : Nat) : Keeps s (tailTaken s c q tail) := by
  refine .ite (.after (.qsettle _ _ _) (.after (.qflagSet _ _ _ _) (.qflagSet _ _ _ _))) (.ite (.qsettle _ _ _) ?_)
  split
  · exact .setQueue _ _
  · exact .setQueue _ _
  all_goals exact .refl s
theorem Keeps.tailNoted (s : State) (ctx qn : Nat) (x : W64) : Keeps s (tailNoted s ctx qn x) := by
  unfold Machine.tailNoted
  split
  · exact .refl s
  · exact .after (.tailTaken _ _ _ _) (.after (.order _) (.seeQueue _ _ _))
theorem KeepsNext.execTailWrite (ctx qn : Nat) (x : W64) (s : State) : KeepsNext s (execTailWrite ctx qn x s) := by
  unfold Machine.execTailWrite
  split
  · trivial
  · exact Keeps.after (.tailTaken _ _ _ _) (.after (.order _) (.after (.qput _ _ _ _ _ _) (.seeQueue _ _ _)))
theorem Keeps.seeEntry (s : State) (c : Ctx) (qn : Nat) : Keeps s (seeEntry s c qn) := .devSee _ _ _ _
theorem KeepsNext.execQueueEnable (ctx qn : Nat) (s : State) : KeepsNext s (execQueueEnable ctx qn s) := by
  refine .ite (Keeps.refl s) ?_
  split
  · trivial
  · have k (c : Ctx) (q : Queue) : Keeps s (Machine.qflagSet (Machine.seeQueue (Machine.seeEntry s c qn) c q) c q qflagEn) :=
      .after (.qflagSet _ _ _ _) (.after (.seeQueue _ _ _) (.seeEntry _ _ _))
    exact .ite (Keeps.after (.setQueue _ _) (k _ _)) (Keeps.after (.setQueue _ _) (k _ _))
theorem KeepsNext.execSlotAssignment (ctx qn : Nat) (s : State) : KeepsNext s (execSlotAssignment ctx qn s) := by
  unfold Machine.execSlotAssignment
  split
  · trivial
  · refine .ite trivial ?_
    split
    · trivial
    · refine Keeps.after (.qsettle _ _ _) (.after (.setSlots _ _) (.after (.setQueue _ _) ?_))
      split
      · exact .after (.setQueue _ _) (.seeQueue _ _ _)
      · exact .seeQueue _ _ _

/-! ## Kernels -/

theorem Keeps.finishKernel (s : State) (i : Nat) : Keeps s (finishKernel s i) := by
  unfold Machine.finishKernel
  split
  · exact .refl s
  · split
    · exact .modKernel _ _ _
    · refine .ite (.after (.modKernel _ _ _) (.seeQueue _ _ _)) (.after (.qsettle _ _ _) (.after (.qput _ _ _ _ _ _) ?_))
      exact .after (.modKernel _ _ _) (.after (.qput _ _ _ _ _ _) (.after (.devWrite _ _ _ _) (.seeQueue _ _ _)))
theorem Keeps.endKernel (s : State) (i : Nat) (st code : Byte) : Keeps s (endKernel s i st code) :=
  .after (.finishKernel _ _) (.modKernel _ _ _)
theorem Keeps.seeDeps (s : State) (c : Ctx) (n : Nat) (va : W64) : Keeps s (seeDeps s c n va) :=
  .after (.foldl (fun s _ => .ite (.seeEntry s _ _) (.refl s)) _ _) (.devSee _ _ _ _)
theorem Keeps.seeOuts (s : State) (c : Ctx) (va : W64) : Keeps s (seeOuts s c va) := .after (.devSee _ _ _ _) (.devSee _ _ _ _)
theorem Keeps.seeLists (s : State) (c : Ctx) (x : Nat) : Keeps s (seeLists s c x) :=
  .ite (.after (.seeOuts _ _ _) (.ite (.seeDeps _ _ _ _) (.refl s))) (.ite (.seeDeps _ _ _ _) (.refl s))
theorem Keeps.acceptRecord (s : State) (c : Ctx) (q : Queue) (x : Nat) : Keeps s (acceptRecord s c q x) := by
  unfold Machine.acceptRecord
  dsimp only
  split
  · exact (Keeps.seeLists s c x).same rfl rfl
  · exact .after (.endKernel _ _ _ _) (.after (.modKernel _ _ _) ((Keeps.seeLists s c x).same rfl rfl))
theorem KeepsNext.execLaunchRecord (ctx qn : Nat) (s : State) : KeepsNext s (execLaunchRecord ctx qn s) := by
  unfold Machine.execLaunchRecord
  split
  · trivial
  · have kput {a b : State} {c : Ctx} {q : Queue} {off n x : Nat} (k : Keeps a b) : Keeps a (Machine.qput b c q off n x) :=
      .after (.qput _ _ _ _ _ _) k
    have kread (c : Ctx) (q : Queue) (va : W64) : Keeps s (devSee (Machine.seeQueue s c q) c.ptroot.toNat va 64) :=
      .after (.devSee _ _ _ _) (.seeQueue _ _ _)
    refine .ite trivial (.ite (Keeps.after (.qsettle _ _ _) (kput (kput (kread _ _ _)))) ?_)
    refine Keeps.after (.qsettle _ _ _) (kput (.after (.acceptRecord _ _ _ _) ?_))
    refine .ite (kput (kput (kread _ _ _))) (.ite ?_ (.after (.qflagSet _ _ _ _) (kput ?_)))
    all_goals exact kput (kput (kput (kread _ _ _)))
theorem Keeps.seeEdges (s : State) (k : Kernel) : Keeps s (seeEdges s k) := by
  refine .foldl (fun s d => ?_) _ s
  split
  · split
    · exact .seeQueue _ _ _
    · exact .refl s
  · exact .refl s
  · exact .refl s
theorem KeepsNext.execDependencesSatisfied (i : Nat) (s : State) : KeepsNext s (execDependencesSatisfied i s) := by
  unfold Machine.execDependencesSatisfied
  split
  · trivial
  · exact .ite trivial (.ite (Keeps.after (.endKernel _ _ _ _) (.seeEdges _ _))
      (.ite (Keeps.after (.modKernel _ _ _) (.seeEdges _ _)) trivial))
theorem Keeps.drainCore (c : Ctx) (ps : List (Nat × Nat)) (s : State) (core : Nat) : Keeps s (drainCore c ps s core) := by
  unfold Machine.drainCore
  split
  · exact .refl s
  · exact .writeBackBytes _ _ _ _
theorem KeepsNext.execKernelDrain (i : Nat) (s : State) : KeepsNext s (execKernelDrain i s) := by
  unfold Machine.execKernelDrain
  split
  · trivial
  · refine .ite trivial ?_
    split
    · trivial
    · exact Keeps.after (.modKernel _ _ _) (.after (.foldl (.drainCore _ _) _ _) (.modKernel _ _ _))
theorem KeepsNext.execKernelCompletion (i : Nat) (s : State) : KeepsNext s (execKernelCompletion i s) := by
  unfold Machine.execKernelCompletion
  split
  · trivial
  · refine .ite trivial ?_
    split
    · trivial
    · exact .ite (Keeps.finishKernel _ _) trivial

/-! ## Placement -/

theorem Keeps.reclaimAsid (s : State) (asid : Nat) : Keeps s (reclaimAsid s asid) :=
  (Keeps.foldl (fun _ _ => .after (.dropLines _ _ _) (.clearCore _ _ _)) (List.range s.cores.length) s).same rfl rfl
theorem Keeps.ensureAsid {s t : State} {c : Ctx} {a : Nat} (h : ensureAsid s c = some (t, a)) : Keeps s t := by
  unfold Machine.ensureAsid at h
  split at h
  · cases h
    exact .refl s
  · dsimp only at h
    split at h
    · cases h
      exact .setCtx _ _
    · simp only [Option.bind_eq_some_iff, Option.map_eq_some_iff, Prod.mk.injEq] at h
      obtain ⟨x, -, b, -, rfl, rfl⟩ := h
      exact .after (.setCtx _ _) (.reclaimAsid _ _)
theorem Keeps.acquireTimeline (s : State) (core : Nat) (e : EngRef) (n : W64) : Keeps s (acquireTimeline s core e n) := by
  unfold Machine.acquireTimeline
  split
  · exact .refl s
  · exact .ite (.refl s) (.dropClean _ _ _)
theorem Keeps.acquireDeps (s : State) (c : Ctx) (core : Nat) (k : Kernel) : Keeps s (acquireDeps s c core k) := by
  refine .foldl (fun s d => ?_) _ s
  split
  · exact .acquireTimeline _ _ _ _
  · split
    · exact .dropClean _ _ _
    · exact .refl s
  · exact .refl s
theorem Keeps.takeCore (asid : Nat) (s : State) (core : Nat) : Keeps s (takeCore asid s core) :=
  .after (.modCore _ _ _) (.writeBackWhere _ _ _)
theorem Keeps.ctxActive (s : State) (c : Nat) : Keeps s (ctxActive s c) := .of_eq rfl rfl
theorem Keeps.noteCores (s : State) (i : Nat) (cs : List Nat) : Keeps s (noteCores s i cs) := .modKernel _ _ _
theorem wf_launchTeam (r : LaunchRec) (index : W64) (co k t age : Nat) (halted : Bool) :
    (launchTeam r index co k t age halted).regs.wf = true := Regs.wf_usetAll rfl _
theorem Keeps.addTeams {s s' : State} (ts : List Team) (hm : s'.mem = s.mem) (ht : s'.teams = s.teams ++ ts)
    (hw : ∀ tm ∈ ts, tm.regs.wf = true) : Keeps s s' :=
  ⟨fun h => by unfold MemoryOk; rw [hm]; exact h, fun hr tm h => by
    rw [ht, List.mem_append] at h
    rcases h with h | h
    · exact hr tm h
    · exact hw tm h⟩
theorem Keeps.placeNew (i : Nat) (c : Ctx) (asid : Nat) (s : State) (a : Nat × Nat) : Keeps s (placeNew i c asid s a) := by
  unfold Machine.placeNew
  split
  · exact .refl s
  · rename_i k _
    have hk := Keeps.foldl (f := fun s core => Machine.acquireDeps (Machine.takeCore asid s core) c core k)
      (fun _ _ => .after (.acquireDeps _ _ _ _) (.takeCore _ _ _)) (coresAt a.1 a.2 k.launch.cores) s
    refine .after (.modKernel _ _ _) (.after (.noteCores _ _ _) (hk.trans (.addTeams _ rfl rfl fun tm htm => ?_)))
    simp only [List.mem_flatMap, List.mem_map] at htm
    obtain ⟨j, -, t, -, rfl⟩ := htm
    exact wf_launchTeam _ _ _ _ _ _ _
theorem Keeps.pend (s : State) (g : Nat) : Keeps s (pend s g) := by
  refine .after (.modGang _ _ _) (.foldl (fun _ _ => ?_) _ s)
  exact .modTeam _ _ fun _ => id
theorem Keeps.preempt {s t : State} {i : Nat} {x : Slot} {o : Offer} {a : Nat × Nat} (h : preempt s i x o a = some t) : Keeps s t := by
  unfold Machine.preempt at h
  split at h
  · cases h
  · dsimp only at h
    split at h
    · cases h
    · split at h
      · split at h
        · cases h
        · cases h
          exact .foldl .pend _ s
      · cases h
theorem Keeps.slotPlaced (s : State) (i : Nat) : Keeps s (slotPlaced s i) := .of_eq rfl rfl
theorem KeepsNext.tryOffer {s : State} {i : Nat} {x : Slot} {o : Offer} {a : Nat × Nat} {g : State → Ctx → Nat → List (Nat × Nat) → State}
    (hg : ∀ t c asid ps, Keeps t (g t c asid ps)) : KeepsNext s (tryOffer s i x o a g) := by
  unfold Machine.tryOffer
  split
  · trivial
  · refine .ite trivial ?_
    split
    · exact .ite trivial (Keeps.setCtx _ _)
    · trivial
    · split
      · split
        · rename_i hasid
          split
          · exact Keeps.after (.slotPlaced _ _) (.after (.ctxActive _ _) (.after (hg _ _ _ _) (.ensureAsid hasid)))
          · trivial
        · trivial
      · refine .ite trivial ?_
        split
        · exact Keeps.preempt ‹_›
        · trivial
theorem KeepsNext.execGangPlacement (i quad base : Nat) (s : State) : KeepsNext s (execGangPlacement i quad base s) := by
  unfold Machine.execGangPlacement
  split
  · trivial
  · exact .ite trivial (.tryOffer fun _ _ _ _ => .foldl (.placeNew _ _ _) _ _)
theorem KeepsNext.execTimeSliceExpiry (i : Nat) (s : State) : KeepsNext s (execTimeSliceExpiry i s) := by
  unfold Machine.execTimeSliceExpiry
  split
  · trivial
  · exact .ite trivial (Keeps.of_eq rfl rfl)
theorem KeepsNext.execTokenBucketRefill (ctx cls ch us : Nat) (s : State) : KeepsNext s (execTokenBucketRefill ctx cls ch us s) := by
  unfold Machine.execTokenBucketRefill
  split
  · trivial
  · exact .ite trivial (Keeps.after (.setCtx _ _) (.bump s))

/-! ## Capture and restoration -/

theorem Keeps.saveTeam (s : State) (t : Nat) : Keeps s (saveTeam s t) := by
  unfold Machine.saveTeam
  split
  · exact .refl s
  · rename_i tm htm
    have ht := Team.registered_of_getElem htm
    refine .ite (.refl s) (.ite ?_ ((Keeps.refl s).setTeam t ht))
    obtain ⟨hs, hw⟩ := discardAll_keeps s tm
    exact .after (.settlePosts _ _) (hs.setTeam t fun hr => wf_resumeTeam (hw (ht hr)))
theorem Keeps.saveGangs (s : State) (c : Ctx) (gs : List Gang) : Keeps s (saveGangs s c gs) :=
  .after (.homeWriteExp _ _ _ _) (.after (.bump _) (.foldl (fun _ _ => .devWalk _ _ _ _) _ s))
theorem KeepsNext.execGangCapture (g : Nat) (s : State) : KeepsNext s (execGangCapture g s) := by
  unfold Machine.execGangCapture
  split
  · trivial
  · dsimp only
    split
    · refine .ite trivial (Keeps.after (.ctxLeft _ _) (.after (.setSlots _ _) (.after (.foldl (fun _ _ => .modGang _ _ _) _ _) ?_)))
      exact .after (.saveGangs _ _ _) (.after (.foldl .saveTeam _ _) (.foldl (fun _ _ => .clearCore _ _ _) _ s))
    · trivial
theorem Keeps.restoreTeam (s : State) (t : Nat) : Keeps s (restoreTeam s t) :=
  .modTeam _ _ fun tm h => by
    cases hs : tm.status
    case captured w =>
      cases w
      · exact h
      · exact h
    all_goals exact h
theorem Keeps.restoreGang (asid : Nat) (keep : Bool) (s : State) (x : Nat × (Nat × Nat)) : Keeps s (restoreGang asid keep s x) := by
  unfold Machine.restoreGang
  split
  · exact .refl s
  · refine .after (.foldl (fun s t => ?_) _ _) (.after (.noteCores _ _ _) (.after (.modGang _ _ _) (.foldl (fun s c => ?_) _ s)))
    · refine .after (.modTeam _ _ ?_) (.restoreTeam _ _)
      exact fun _ => id
    · exact .after (.dropClean _ _ _) (.takeCore _ _ _)
theorem KeepsNext.execGangRestoration (g quad base : Nat) (s : State) : KeepsNext s (execGangRestoration g quad base s) := by
  unfold Machine.execGangRestoration
  split
  · trivial
  · split
    · trivial
    · exact .ite trivial (.tryOffer fun t _ _ _ => .after (.setSlots _ _) (.foldl (.restoreGang _ _) _ t))

/-! ## Contexts -/

theorem KeepsNext.chandler {s : State} {o : Outcome State} (ho : KeepsNext s o) : KeepsNext s (chandler s o) := .ite ho (Keeps.refl s)
theorem Keeps.giveNode (s : State) (pa : Nat) : Keeps s (giveNode s pa) := .of_mem (fun h => swf_clearRange _ _ h) rfl
theorem Keeps.createQueue (c : Ctx) (s : State) (q : QueueInit) : Keeps s (createQueue c s q) := .after (.devWrite _ _ _ _) (.devWrite _ _ _ _)
theorem Keeps.createMap (c : Ctx) (s : State) (m : W64 × Fin 3 × W64) : Keeps s (createMap c s m) := by
  unfold Machine.createMap
  dsimp only
  split
  · exact .refl s
  · exact .ite (.refl s) (.ite (.ite (.mapFrame _ _ _ _ _) (.refl s)) (.ite (.after (.writeEntry _ _ _) (.giveNode _ _)) (.refl s)))
theorem KeepsNext.execContextCreate (c : CtxInit) (s : State) : KeepsNext s (execContextCreate c s) :=
  .chandler <| .ite trivial <| Keeps.after (.foldl (.createQueue _) _ _) <| .after (.foldl (.createMap _) _ _) <|
    (Keeps.giveNode s c.ptroot.toNat).same rfl rfl
theorem regs_abortTeam (tm : Team) : (abortTeam tm).regs = tm.regs := rfl
theorem Keeps.abortGangs (s : State) (ctx : Nat) : Keeps s (abortGangs s ctx) :=
  .of_regs rfl fun tm h => by
    obtain ⟨x, hx, rfl⟩ := List.mem_map.mp h
    obtain ⟨hi, he⟩ := List.mem_zipIdx' hx
    refine ⟨x.1, he ▸ List.getElem_mem hi, ?_⟩
    split
    · exact regs_abortTeam _
    · rfl
theorem Keeps.freeCtxSlots (s : State) (ctx : Nat) : Keeps s (freeCtxSlots s ctx) := .of_eq rfl rfl
theorem Keeps.abortCtx (s : State) (ctx : Nat) (code : Byte) : Keeps s (abortCtx s ctx code) := by
  unfold Machine.abortCtx
  split
  · exact .refl s
  · refine .ite (.refl s) (.after (.freeCtxSlots _ _) (.after (.setQueues _ _) (.after (.foldl (fun _ _ => .endKernel _ _ _ _) _ _) ?_)))
    refine .after (.setCtx _ _) ?_
    split
    · exact (Keeps.abortGangs s ctx).same rfl rfl
    · exact (Keeps.abortGangs s ctx).same rfl rfl
theorem KeepsNext.execContextAbort (ctx : Nat) (code : Byte) (s : State) : KeepsNext s (execContextAbort ctx code s) := by
  refine .chandler ?_
  split
  · trivial
  · exact Keeps.abortCtx _ _ _
theorem Keeps.discardKey (s : State) (key : Nat) : Keeps s (discardKey s key) := (Keeps.loseLines s _).same rfl rfl
theorem Keeps.destroyCtx (s : State) (c : Ctx) : Keeps s (destroyCtx s c) := by
  unfold Machine.destroyCtx
  split
  · exact (Keeps.discardKey s _).same rfl rfl
  · exact (Keeps.discardKey s _).same rfl rfl
theorem KeepsNext.execContextDestroy (ctx : Nat) (s : State) : KeepsNext s (execContextDestroy ctx s) := by
  refine .chandler ?_
  split
  · trivial
  · split
    · exact Keeps.refl s
    · exact Keeps.destroyCtx _ _
    · dsimp only
      split
      · exact Keeps.after (.destroyCtx _ _) (.abortCtx _ _ _)
      · trivial
    all_goals exact .ite trivial (Keeps.destroyCtx _ _)

end Sys2Proof.Machine
end

section
/-! Certificates for the family spec/08_memory_model.md: what the work on pages, inbound accesses and exports keeps. -/
namespace Sys2Proof.Machine

/-! ## Shoot-downs and faults that Chandler serves -/

theorem Keeps.passTime (s : State) : Keeps s (passTime s) := .of_eq rfl rfl
theorem Keeps.shootEntry (s : State) (home : Nat) : Keeps s (shootEntry s home) := .of_eq rfl rfl
theorem Keeps.shootPage (s : State) (pa n : Nat) (drop : Bool) : Keeps s (shootPage s pa n drop) :=
  .onCores s fun s _ => .ite (.after (.dropCopies _ _ _) (.writeBackWhere s _ _)) (.writeBackWhere s _ _)
theorem Keeps.refuseSpan (s : State) (a : W64) (r : SpanReq) (reason : Byte) : Keeps s (refuseSpan s a r reason) := .of_eq rfl rfl
theorem Keeps.setInbound (s : State) (l : List Inbound) : Keeps s { s with inbound := l } := .of_eq rfl rfl
theorem Keeps.setSpanOut (s : State) (l : List SpanPkt) : Keeps s { s with spanOut := l } := .of_eq rfl rfl
theorem Keeps.reportParty (s : State) (p : FaultParty) (f : FaultInfo) : Keeps s (reportParty s p f) := by
  unfold Machine.reportParty
  cases p
  case team t =>
    have k : Keeps s (s.modTeam t fun tm =>
        { tm with status := if tm.status = .blocked .chandler then .stopped else .captured none }) := .modTeam _ _ fun _ => id
    dsimp only
    split
    · exact .after (.report _ _ _) k
    · exact k
  case matrix core bench => exact .matrixUnresolved _ _ _ _
  case inbound n =>
    dsimp only
    split
    · exact .after (.refuseSpan _ _ _ _) (.setInbound _ _)
    · exact .refl s
  all_goals exact .engineHalt _ _ _
theorem KeepsNext.execChandlerFaultService (p : FaultParty) (act : FaultAct) (s : State) :
    KeepsNext s (execChandlerFaultService p act s) := by
  refine .chandler ?_
  split
  · trivial
  · split
    · trivial
    · cases act
      case hold => exact .ite (Keeps.refl s) trivial
      case report => exact .ite (Keeps.reportParty _ _ _) trivial
      case map pte fill =>
        dsimp only
        split
        · trivial
        · exact .ite trivial (Keeps.mapFrame _ _ _ _ _)

/-! ## Inbound fabric accesses -/

theorem Keeps.hotNote (s : State) (pa : Nat) (src : BitVec 10) : Keeps s (hotNote s pa src) := .of_eq rfl rfl
theorem Keeps.directoryNote (s : State) (page die : Nat) : Keeps s (directoryNote s page die) := by
  unfold Machine.directoryNote
  split
  · exact .of_eq rfl rfl
  · exact .ite (.refl s) (.of_eq rfl rfl)
theorem Keeps.linkWrite (s : State) (r : SpanReq) (key : Nat) (own : Bool) (ws : List (Nat × Byte)) :
    Keeps s (linkWrite s r key own ws) := by
  refine .ite (.after (.foldl (fun _ _ => .setTag _ _) _ _) ?_) ?_
  all_goals
    refine .after (.homeWriteFrom _ _ _ _) (.ite (.foldl (fun s l => ?_) _ s) (.refl s))
    split
    · exact .clearTag _ _ _
    · exact .refl s
theorem Keeps.linkAcquire (s : State) (line : Nat) : Keeps s (linkAcquire s line).1 := by
  unfold Machine.linkAcquire
  split
  · exact .ite_fst (.clearTag _ _ _) (.refl s)
  · exact .refl s
theorem Keeps.linkPerform (s : State) (r : SpanReq) (key pa pb : Nat) : Keeps s (linkPerform s r key pa pb).1 := by
  have kw (ws : List (Nat × Byte)) :
      Keeps s (Machine.linkWrite (if r.sync then Machine.linkAcquire s (lineOf pa) else (s, 0)).1 r key false ws) :=
    .after (.linkWrite _ _ _ _ _) (.ite_fst (.linkAcquire s _) (.refl s))
  unfold Machine.linkPerform
  dsimp only
  cases r.op
  case read n => exact .after (.directoryNote _ _ _) (.mscReads _ _)
  case write bs => exact .linkWrite _ _ _ _ _
  case engine bs => exact .linkWrite _ _ _ _ _
  case settle e elo o =>
    dsimp only
    refine .ite_pair (.refl s) ?_
    exact .after (.linkWrite _ _ _ _ _) (.linkWrite _ _ _ _ _)
  case settleTake =>
    dsimp only
    exact .ite (.refl s) (.linkWrite _ _ _ _ _)
  all_goals exact kw _
theorem Keeps.spanXlat (s : State) (root : Nat) (va : W64) (n : Need) : Keeps s (spanXlat s root va n).1 := by
  have kw : Keeps s (walkFor s none root va).1 := .walkClear _ _ _ _
  unfold Machine.spanXlat
  refine .ite_pair (.refl s) ?_
  dsimp only
  split
  · exact kw
  · split
    · exact kw
    · exact .ite_pair kw (.ite kw (.after (.writeEntry _ _ _) kw))
theorem Keeps.of_spanXlat {s t : State} {root : Nat} {va : W64} {n : Need} {x : Except WalkFault Nat}
    (h : Machine.spanXlat s root va n = (t, x)) : Keeps s t := by
  have k := Keeps.spanXlat s root va n
  rw [h] at k
  exact k
theorem Keeps.spanServe (s : State) (a : W64) (r : SpanReq) : Keeps s (spanServe s a r) := by
  unfold Machine.spanServe
  dsimp only
  split
  · exact .refuseSpan _ _ _ _
  · exact .refuseSpan _ _ _ _
  · split
    · exact .refuseSpan _ _ _ _
    · split
      · rename_i h1
        have k1 := Keeps.of_spanXlat h1
        exact .after (.setInbound _ _) k1
      · rename_i h1
        have k1 := Keeps.of_spanXlat h1
        split
        · rename_i h2
          have k2 := Keeps.of_spanXlat h2
          exact .after (.setInbound _ _) (.after k2 k1)
        · rename_i h2
          have k2 := Keeps.of_spanXlat h2
          refine .after (.setSpanOut _ _) (.after (.linkPerform _ _ _ _ _) (.after ?_ (.after k2 k1)))
          split
          · exact .ite (.hotNote _ _ _) (.after (.hotNote _ _ _) (.hotNote _ _ _))
          · exact .hotNote _ _ _
theorem Keeps.expireInbound (s : State) : Keeps s (expireInbound s) :=
  .after (.foldl (fun _ _ => .refuseSpan _ _ _ _) _ _) (.setInbound _ _)
theorem KeepsNext.execChandlerResumption (p : FaultParty) (s : State) : KeepsNext s (execChandlerResumption p s) := by
  refine .chandler ?_
  split
  · trivial
  · split
    · trivial
    · refine .ite trivial ?_
      cases p
      case team t =>
        refine Keeps.modTeam _ _ fun tm h => ?_
        split
        · exact wf_resumeTeam h
        · exact wf_resumeTeam h
      case matrix core bench => exact Keeps.modBench _ _ _ _
      case inbound n =>
        dsimp only
        split
        · exact Keeps.ite (.after (.refuseSpan _ _ _ _) (.setInbound _ _)) (.after (.spanServe _ _ _) (.setInbound _ _))
        · trivial
      all_goals exact Keeps.modEngine _ _ _

/-! ## Changes of entries, migration -/

theorem Keeps.changeLeaf (s : State) (c : Ctx) (home old new : Nat) (large : Bool) : Keeps s (changeLeaf s c home old new large) := by
  unfold Machine.changeLeaf
  dsimp only
  have k {t : State} (hk : Keeps s t) : Keeps s (Machine.shootEntry t home) := .after (.shootEntry _ _) hk
  refine .ite (.after (.shootPage _ _ _ _) (k ?_)) (.ite (.after (.shootPage _ _ _ _) (k ?_)) (k ?_))
  all_goals exact .ite (.mapFrame _ _ _ _ _) (.writeEntry _ _ _)
theorem Keeps.setTlbs (s : State) (l : List (List TlbEntry)) : Keeps s { s with tlbs := l } := .of_eq rfl rfl
theorem Keeps.changeNode (s : State) (home old new : Nat) : Keeps s (changeNode s home old new) := by
  have k : Keeps s (Machine.writeEntry (if !pteBit old 0 && pteBit new 0 then Machine.giveNode s (ptePage new) else s) home new) :=
    .after (.writeEntry _ _ _) (.ite (.giveNode _ _) (.refl s))
  refine .ite k (.after (.onCores _ fun _ _ => .after (.dropCopies _ _ _) (.writeBackWhere _ _ _)) (.after (.setTlbs _ _) k))
theorem KeepsNext.execPteChange (ctx : Nat) (va : W64) (level : Fin 3) (pte : W64) (eg : Option (BitVec 12 × Egress)) (s : State) :
    KeepsNext s (execPteChange ctx va level pte eg s) := by
  refine .chandler ?_
  split
  · trivial
  · split
    · trivial
    · cases eg
      all_goals
        refine .ite ?_ (.ite trivial (Keeps.after (.changeNode _ _ _ _) (.of_eq rfl rfl)))
        split
        · exact .ite (Keeps.after (.changeLeaf _ _ _ _ _ _) (.of_eq rfl rfl)) trivial
        · trivial
theorem KeepsNext.execPageMigration (ctx : Nat) (va pte : W64) (s : State) : KeepsNext s (execPageMigration ctx va pte s) := by
  refine .chandler ?_
  split
  · trivial
  · split
    · trivial
    · refine .ite trivial (Keeps.after (.shootEntry _ _) (.after (.writeEntry _ _ _) (.after (.copyFrame _ _ _ _) ?_)))
      exact .after (.foldl .evictHomeLine _ _) (.shootPage _ _ _ _)

/-! ## Exports -/

theorem Keeps.markExport (on : Bool) (s : State) (l : Leaf) : Keeps s (markExport on s l) := .after (.shootEntry _ _) (.writeEntry _ _ _)
theorem Keeps.setIngress (s : State) (l : List (Nat × Ingress)) : Keeps s { s with ingress := l } := .of_eq rfl rfl
theorem KeepsNext.execExportGrant (n : BitVec 12) (x : Ingress) (s : State) : KeepsNext s (execExportGrant n x s) := by
  refine .chandler ?_
  split
  · trivial
  · refine .ite trivial (Keeps.after (.foldl (fun s va => ?_) _ _) (.setIngress _ _))
    split
    · exact .ite (.markExport _ _ _) (.refl s)
    · exact .refl s
theorem Keeps.settleRevoke (s : State) (n : BitVec 12) : Keeps s (settleRevoke s n) := by
  unfold Machine.settleRevoke
  split
  · exact .of_eq rfl rfl
  · exact .ite (.refl s) (.after (.foldl (fun s _ => .ite (.markExport _ _ _) (.refl s)) _ _) (.of_eq rfl rfl))
theorem Keeps.setDirectory (s : State) (l : List DirEntry) : Keeps s { s with directory := l } := .of_eq rfl rfl
theorem Keeps.ackPage (s : State) (page : Nat) (die : Option Nat) : Keeps s (ackPage s page die) :=
  .after (.foldl .settleRevoke _ _) (.setDirectory _ _)
theorem KeepsNext.execExportRevoke (n : BitVec 12) (s : State) : KeepsNext s (execExportRevoke n s) := by
  refine .chandler ?_
  split
  · trivial
  · refine .ite trivial ?_
    dsimp only
    split
    · exact Keeps.setIngress _ _
    · exact Keeps.after (.settleRevoke _ _) (.of_eq rfl rfl)

/-! ## The memory system on its own -/

theorem KeepsNext.execBloomFilterRotation (slice : Nat) (s : State) : KeepsNext s (execBloomFilterRotation slice s) :=
  .ite trivial (Keeps.of_eq rfl rfl)
theorem KeepsNext.execHeldRowRefresh (channel : Nat) (s : State) : KeepsNext s (execHeldRowRefresh channel s) := Keeps.passTime s
theorem KeepsNext.execHotnessEntryClear (die block src : Nat) (s : State) : KeepsNext s (execHotnessEntryClear die block src s) :=
  .chandler (Keeps.of_eq rfl rfl)
theorem KeepsNext.execImportedCopyInvalidation (die page : Nat) (s : State) : KeepsNext s (execImportedCopyInvalidation die page s) := by
  refine .ite trivial (.ite (Keeps.refl s) ?_)
  exact Keeps.after (.setSpanOut _ _) (.after (.foldl (fun _ _ => .dropClean _ _ _) _ _) (.dieDrop _ _ _))

end Sys2Proof.Machine
end

section
/-! Certificates for the family spec/08_memory_model.md: what debug, errors and bring-up keep. -/
namespace Sys2Proof.Machine

/-! ## Debug -/

theorem KeepsNext.execIllegalInstruction (w : W32) (s : State) : KeepsNext s (execIllegalInstruction w s) :=
  .onTeam fun _ ht => .illegal (.refl s) ht
theorem KeepsNext.execComparatorWrite (ctx i : Nat) (addr : W64) (ctl : CompCtl) (s : State) :
    KeepsNext s (execComparatorWrite ctx i addr ctl s) := by
  refine .chandler ?_
  split
  · trivial
  · exact .ite trivial (.ite (Keeps.setCtx _ _) (Keeps.refl s))
theorem KeepsNext.execContextResume (ctx : Nat) (s : State) : KeepsNext s (execContextResume ctx s) := by
  refine .chandler ?_
  split
  · trivial
  · refine Keeps.of_map (fun tm => if tm.halted && teamOfCtx s ctx tm then { tm with halted := false } else tm) rfl rfl fun tm => ?_
    split
    · rfl
    · rfl
theorem Keeps.laneRead (s : State) (core bench : Nat) (b : Bench) : Keeps s (laneRead s core bench b).1 :=
  .after (.modBench _ _ _ _) (.bump s)
theorem Keeps.setSvcQ (s : State) (l : List SvcRec) : Keeps s { s with svcQ := l } := .of_eq rfl rfl
theorem KeepsNext.execLaneCycleReadClear (core bench : Nat) (s : State) : KeepsNext s (execLaneCycleReadClear core bench s) := by
  refine .chandler ?_
  split
  · trivial
  · exact Keeps.after (.setSvcQ _ _) (.laneRead _ _ _ _)
theorem KeepsNext.execFreeze (s : State) : KeepsNext s (execFreeze s) := Keeps.of_eq rfl rfl
/-- A cold reset leaves no byte listed and no team. -/
theorem Keeps.coldState (s : State) : Keeps s (coldState s) := ⟨fun _ => reset_ok.1, fun _ => reset_ok.2⟩
theorem KeepsNext.execColdReset (s : State) : KeepsNext s (execColdReset s) := Keeps.coldState s

/-! ## Errors -/

theorem Keeps.lateFault (s : State) (t : Nat) (f : FaultInfo) : Keeps s (lateFault s t f) := by
  unfold Machine.lateFault
  split
  · exact .refl s
  · rename_i h hh
    have k : Keeps s (Machine.takeFault s h h.tm f h.tm.pc) := (Keeps.refl s).takeFault h f _ (here_registered hh)
    split
    case h_3 => exact .refl s
    case h_5 => exact .refl s
    case h_6 => exact .refl s
    case h_7 => exact .refl s
    all_goals exact k
theorem Keeps.takeEcc (s : State) (u : EccUse) : Keeps s (takeEcc s u) := by
  cases u
  case access t id lanes addr =>
    unfold Machine.takeEcc
    dsimp only
    split
    · exact .lateFault _ _ _
    · exact .refl s
  case issued t pc lanes addr => exact .lateFault _ _ _
  case team t =>
    unfold Machine.takeEcc
    dsimp only
    split
    · exact .lateFault _ _ _
    · exact .refl s
  case command p =>
    cases p
    case matrix core bench =>
      unfold Machine.takeEcc
      dsimp only
      split
      · exact .matrixUnresolved _ _ _ _
      · exact .refl s
    case inbound n =>
      unfold Machine.takeEcc
      dsimp only
      split
      · exact .after (.refuseSpan _ _ _ _) (.setInbound _ _)
      · exact .refl s
    all_goals
      unfold Machine.takeEcc
      dsimp only
      split
      · exact .engineHalt _ _ _
      · exact .refl s
  case request r => exact .ite (.refuseSpan _ _ _ _) (.refl s)
theorem Keeps.uncorrectable (s : State) (key : Nat) (use : Option EccUse) : Keeps s (uncorrectable s key use) := by
  refine .ite (.coldState s) (.after (.foldl (fun _ _ => .abortCtx _ _ _) _ _) ?_)
  cases use
  case none => exact .refl s
  case some u => exact .takeEcc s u
theorem Keeps.disable (s : State) (u : UnitRef) (dis : Disable) : Keeps s (disable s u dis) := by
  unfold Machine.disable
  dsimp only
  split
  · exact (Keeps.foldl (fun _ _ => .evictHomeLine _ _) _ s).same rfl rfl
  · exact .of_eq rfl rfl
theorem KeepsNext.execErrorSelfTest (u : UnitRef) (key : Option Nat) (use : Option EccUse) (pass : Bool) (dis : Disable) (s : State) :
    KeepsNext s (execErrorSelfTest u key use pass dis s) := by
  refine .ite trivial (.ite trivial ?_)
  split
  · exact Keeps.after (.uncorrectable _ _ _) (.ite (.setSvcQ _ _) (.ite (.of_eq rfl rfl) (.disable _ _ _)))
  · exact Keeps.ite (.setSvcQ _ _) (.ite (.of_eq rfl rfl) (.disable _ _ _))

/-! ## Bring-up -/

theorem Keeps.bootStep {s t : State} (h : bootStep s = some t) : Keeps s t := by
  unfold Machine.bootStep at h
  split at h
  · split at h
    · cases h
      exact .of_eq rfl rfl
    · cases h
  · split at h
    · cases h
      exact .of_eq rfl rfl
    · cases h
      exact .of_eq rfl rfl
  all_goals cases h
theorem KeepsNext.execFirmwareImage (image : List Byte) (s : State) : KeepsNext s (execFirmwareImage image s) :=
  .ite (Keeps.of_eq rfl rfl) (Keeps.refl s)
theorem KeepsNext.execConfigurationRecord (record signature : List Byte) (s : State) :
    KeepsNext s (execConfigurationRecord record signature s) := .ite (Keeps.of_eq rfl rfl) (Keeps.of_eq rfl rfl)
theorem KeepsNext.execAttestationRequest (nonce : W64) (s : State) : KeepsNext s (execAttestationRequest nonce s) := Keeps.of_eq rfl rfl

end Sys2Proof.Machine
end

section
/-! Certificates for the family spec/08_memory_model.md: what the links and ports keep. -/
namespace Sys2Proof.Machine

/-! ## RMA -/

theorem KeepsNext.whenUp {s : State} {o : Outcome State} (ho : KeepsNext s o) : KeepsNext s (whenUp s o) := .ite ho (Keeps.refl s)
theorem Keeps.setUeOut (s : State) (l : List UePkt) : Keeps s { s with ueOut := l } := .of_eq rfl rfl
theorem Keeps.rmaRefuse (s : State) (sess : Nat) (flow : RmaFlow) (ctx : Nat) (va : W64) (n : Nat) (why : Byte) :
    Keeps s (rmaRefuse s sess flow ctx va n why) := .of_eq rfl rfl
theorem Keeps.rmaPlaces (s : State) (c : Ctx) (va : W64) (n : Nat) : Keeps s (rmaPlaces s c va n).1 := by
  refine .foldl_fst (β := Option (List Nat)) (fun acc p => ?_) _ (s, some [])
  refine .ite_pair (.refl _) ?_
  have k : Keeps acc.1 (walkFor acc.1 none c.ptroot.toNat p.va).1 := .walkClear _ _ _ _
  dsimp only
  split
  · exact k
  · exact k
theorem Keeps.rmaServe (sess ctx : Nat) (va : W64) (n : Nat) (s : State) {f : Ctx → List Nat → State → State × UePkt}
    (hf : ∀ c l t, Keeps t (f c l t).1) : Keeps s (rmaServe sess ctx va n s f) := by
  unfold Machine.rmaServe
  split
  · exact .setUeOut _ _
  · refine .after (.setUeOut _ _) ?_
    split
    · exact .after (hf _ _ _) (.rmaPlaces _ _ _ _)
    · exact .rmaPlaces _ _ _ _
theorem KeepsNext.execRmaWrite (sess : Nat) (flow : RmaFlow) (ctx : Nat) (va : W64) (bytes : List Byte) (tss : Bool) (s : State) :
    KeepsNext s (execRmaWrite sess flow ctx va bytes tss s) := by
  refine .whenUp ?_
  split
  · exact Keeps.rmaRefuse _ _ _ _ _ _ _
  · exact Keeps.rmaServe _ _ _ _ _ fun _ _ _ => .homeWrite _ _ _
theorem KeepsNext.execRmaRead (sess : Nat) (flow : RmaFlow) (ctx : Nat) (va : W64) (len : Nat) (tss : Bool) (s : State) :
    KeepsNext s (execRmaRead sess flow ctx va len tss s) := by
  refine .whenUp ?_
  split
  · exact Keeps.rmaRefuse _ _ _ _ _ _ _
  · exact Keeps.rmaServe _ _ _ _ _ fun _ _ _ => .mscReads _ _

/-! ## Requests to Chandler -/

theorem Keeps.qflagClear (s : State) (c : Ctx) (q : Queue) (n : Nat) : Keeps s (qflagClear s c q n) :=
  .ite (.qput _ _ _ _ _ _) (.refl s)
theorem Keeps.asAnswer {s : State} {o : Outcome State} (ho : KeepsNext s o) : Keeps s (asAnswer s o).1 := by
  cases o
  case next t => exact ho
  all_goals exact .refl s
theorem Keeps.chPerform (s : State) (x : Session) (r : ChReq) : Keeps s (chPerform s x r).1 := by
  cases r
  case create c => exact .asAnswer (.execContextCreate _ _)
  case enable ctx q => exact .asAnswer (.execQueueEnable _ _ _)
  case abort ctx => exact .asAnswer (.execContextAbort _ _ _)
  case destroy ctx => exact .asAnswer (.execContextDestroy _ _)
  case comparator ctx i addr ctl pod => exact .ite_fst (.asAnswer (.execComparatorWrite _ _ _ _ _)) (.refl s)
  case resume ctx => exact .asAnswer (.execContextResume _ _)
  case freeze => exact .asAnswer (.execFreeze _)
  case attest nonce => exact .refl s
  case session => exact .refl s
  case clearHalt ctx qn =>
    unfold Machine.chPerform
    dsimp only
    split
    · exact .qflagClear _ _ _ _
    · exact .refl s
  case register g =>
    unfold Machine.chPerform
    dsimp only
    split
    · exact .of_eq rfl rfl
    · exact .refl s
  case ranges ctx rs =>
    unfold Machine.chPerform
    dsimp only
    split
    · exact .ite_fst (.setCtx _ _) (.refl s)
    · exact .refl s
  case laneCycles core bench =>
    unfold Machine.chPerform
    dsimp only
    split
    · exact .laneRead s core bench ‹_›
    · exact .refl s
  case faultHead ctx head =>
    unfold Machine.chPerform
    dsimp only
    split
    · exact .after (.flushHeld _ _ _) (.setCtx _ _)
    · exact .refl s
theorem Keeps.setSession (s : State) (x : Session) : Keeps s (setSession s x) := .of_eq rfl rfl
theorem KeepsNext.execChandlerRequest (sess : Nat) (rseq : W64) (msg : ChMsg) (s : State) :
    KeepsNext s (execChandlerRequest sess rseq msg s) := by
  refine .ite (Keeps.refl s) (.ite (Keeps.setUeOut _ _) ?_)
  refine .ite (Keeps.after (.setUeOut _ _) (.after (.setSession _ _) (.chPerform _ _ _))) ?_
  split
  · exact Keeps.setUeOut _ _
  · exact Keeps.setUeOut _ _

/-! ## Answers, refusals and deadlines -/

theorem Keeps.dropReq (s : State) (tag : Nat) : Keeps s (dropReq s tag) := .of_eq rfl rfl
theorem Keeps.confirmCopy (s : State) (die line : Nat) : Keeps s (confirmCopy s die line) := by
  unfold Machine.confirmCopy
  split
  · exact .refl s
  · exact .ite (.after (.closeFills _ _ _) (.diePut _ _)) (.diePut _ _)
theorem Keeps.loseCopy (s : State) (r : Req) : Keeps s (loseCopy s r) := by
  unfold Machine.loseCopy
  dsimp only
  split
  · exact .refl s
  · exact .diePut _ _
theorem Keeps.fillCopy (s : State) (die line key : Nat) (bytes : List Byte) : Keeps s (fillCopy s die line key bytes) := .diePut _ _
theorem Keeps.answerAcquire (s : State) (r : Req) (t id : Nat) (bytes : List Byte) : Keeps s (answerAcquire s r t id bytes) := by
  unfold Machine.answerAcquire
  split
  · split
    · exact .ite (.refl s) (.ite (.after (.acquirePage _ _ _ _) (.addClears _ _ _)) (.after (.selfInvalidate _ _ _) (.addClears _ _ _)))
    · exact .refl s
  · exact .refl s
/-- The accesses in flight of a team are changed, and no registers. -/
theorem Keeps.modInflight (s : State) (t : Nat) (f : InFlight → InFlight) :
    Keeps s (s.modTeam t fun tm => { tm with inflight := tm.inflight.map f }) := .modTeam _ _ fun _ => id
theorem Keeps.accessFault (s : State) (t : Nat) (a : InFlight) : Keeps s (accessFault s t a) :=
  .after (.lateFault _ _ _) (.modInflight _ _ _)
theorem Keeps.accessSeen (s : State) (t : Nat) (a : InFlight) (x : Seen) : Keeps s (accessSeen s t a x) := by
  unfold Machine.accessSeen
  dsimp only
  cases x.hit
  all_goals
    dsimp only
    split
  · exact .after (.haltBy _ _ _ _ _) (.modInflight _ _ _)
  · exact .modInflight _ _ _
  · exact .after (.lateFault _ _ _) (.after (.haltBy _ _ _ _ _) (.modInflight _ _ _))
  · exact .after (.lateFault _ _ _) (.modInflight _ _ _)
theorem Keeps.onAccess (s : State) (t id : Nat) (f : InFlight → InFlight) : Keeps s (onAccess s t id f) := by
  have k := Keeps.modInflight s t fun a => if a.id = id then f a else a
  unfold Machine.onAccess
  dsimp only
  split
  · refine .ite k (.ite (.after (.accessFault _ _ _) k) ?_)
    split
    · exact .after (.accessSeen _ _ _ _) k
    · exact k
  · exact k
theorem Keeps.engineAnswered (s : State) (e : EngRef) (r : Req) (bytes : List Byte) : Keeps s (engineAnswered s e r bytes) := by
  cases e
  case matrix core bench => exact .modBench _ _ _ _
  all_goals
    unfold Machine.engineAnswered
    exact .modEngine _ _ _
theorem Keeps.engineFailed (s : State) (e : EngRef) (r : Req) (code : Byte) : Keeps s (engineFailed s e r code) := by
  cases e
  case matrix core bench =>
    unfold Machine.engineFailed
    dsimp only
    split
    · split
      · exact .ite (.matrixUnresolved _ _ _ _) (.refl s)
      · exact .refl s
    · exact .refl s
  all_goals
    unfold Machine.engineFailed
    dsimp only
    split
    · split
      · exact .ite (.engineHalt _ _ _) (.refl s)
      · exact .refl s
    · exact .refl s
theorem Keeps.modLost (s : State) (t : Nat) (f : List Lost → List Lost) : Keeps s (s.modTeam t fun tm => { tm with lost := f tm.lost }) :=
  .modTeam _ _ fun _ => id
theorem Keeps.forwardEnded (s : State) (t tick : Nat) (pc : W64) (x : List Lost) : Keeps s (forwardEnded s t tick pc x) := by
  have k := Keeps.modLost s t fun l => l ++ x
  exact .ite k (.after (.lateFault _ _ _) (.after (.modLost _ _ _) k))
theorem Keeps.l1Renew (s : State) (core line : Nat) : Keeps s (l1Renew s core line) := by
  unfold Machine.l1Renew
  split
  · exact .ite (.modCore _ _ _) (.refl s)
  · exact .refl s
theorem Keeps.answerRead (s : State) (r : Req) (bytes : List Byte) : Keeps s (answerRead s r bytes) :=
  .ite (.after (.l1Renew _ _ _) (.after (.closeFills _ _ _) (.fillCopy _ _ _ _ _))) (.after (.dropClean _ _ _) (.dieDrop _ _ _))
theorem Keeps.answerCopy (s : State) (r : Req) (bytes : List Byte) : Keeps s (answerCopy s r bytes) :=
  .ite (.confirmCopy _ _ _) (.ite (.dropElem _ _ _ _) (.ite (.refl s) (.answerRead _ _ _)))
theorem KeepsNext.execSpanResponse (tag : BitVec 16) (bytes : List Byte) (s : State) : KeepsNext s (execSpanResponse tag bytes s) := by
  unfold Machine.execSpanResponse
  split
  · exact Keeps.refl s
  · refine .ite (Keeps.refl s) ?_
    dsimp only
    split
    · exact Keeps.after (.onAccess _ _ _ _) (.after (.answerCopy _ _ _) (.after (.answerAcquire _ _ _ _ _) (.dropReq _ _)))
    · exact Keeps.after (.engineAnswered _ _ _ _) (.after (.answerCopy _ _ _) (.dropReq _ _))
    · exact Keeps.after (.forwardEnded _ _ _ _ _) (.after (.answerCopy _ _ _) (.dropReq _ _))
    · exact Keeps.ite (.after (.fillLine _ _ _ _ _) (.after (.answerCopy _ _ _) (.dropReq _ _))) (.after (.answerCopy _ _ _) (.dropReq _ _))
theorem Keeps.requestFailed (s : State) (r : Req) (remote : Bool) : Keeps s (requestFailed s r remote) := by
  have k : Keeps s (if r.forward = 0 then Machine.dropReq s r.tag else if remote then Machine.loseCopy (Machine.dropReq s r.tag) r
      else Machine.confirmCopy (Machine.dropReq s r.tag) (dieOf r.core) (lineOf r.pa)) :=
    .ite (.dropReq _ _) (.ite (.after (.loseCopy _ _) (.dropReq _ _)) (.after (.confirmCopy _ _ _) (.dropReq _ _)))
  unfold Machine.requestFailed
  dsimp only
  split
  · exact .after (.onAccess _ _ _ _) k
  · exact .after (.engineFailed _ _ _ _) k
  · exact .after (.forwardEnded _ _ _ _ _) k
  · exact k
theorem KeepsNext.execNackReceived (tag : BitVec 16) (s : State) : KeepsNext s (execNackReceived tag s) := by
  unfold Machine.execNackReceived
  split
  · exact Keeps.refl s
  · exact .ite (Keeps.refl s) (Keeps.requestFailed _ _ _)
theorem KeepsNext.execRequestDeadline (tag : BitVec 16) (s : State) : KeepsNext s (execRequestDeadline tag s) := by
  unfold Machine.execRequestDeadline
  split
  · trivial
  · exact .ite (Keeps.requestFailed _ _ _) trivial

/-! ## Packets and flits -/

theorem KeepsNext.execSpanRequest (r : SpanReq) (s : State) : KeepsNext s (execSpanRequest r s) := .whenUp (Keeps.spanServe _ _ _)
theorem Keeps.packetIn (s : State) (p : SpanIn) : Keeps s (packetIn s p) := by
  unfold Machine.packetIn
  dsimp only
  split
  · rename_i t ho
    cases p
    case request r => exact (KeepsNext.execSpanRequest r s).of_next ho
    case response tag bytes => exact (KeepsNext.execSpanResponse tag bytes s).of_next ho
    case nack tag => exact (KeepsNext.execNackReceived tag s).of_next ho
  · exact .refl s
  · exact .refl s
theorem Keeps.setSpanPorts (s : State) (l : List Port) : Keeps s { s with spanPorts := l } := .of_eq rfl rfl
theorem Keeps.takePackets (p : Fin 16) : ∀ (n : Nat) (s : State), Keeps s (takePackets n s p)
  | 0, s => .refl s
  | n + 1, s => by
    unfold Machine.takePackets
    split
    · exact .refl s
    · refine .after (.takePackets p n _) ?_
      split
      · exact .after (.packetIn _ _) (.setSpanPorts _ _)
      · exact .setSpanPorts _ _
theorem KeepsNext.execFlitReceived (p : Fin 16) (f : Flit) (s : State) : KeepsNext s (execFlitReceived p f s) := by
  unfold Machine.execFlitReceived
  split
  · trivial
  · exact .ite trivial (.ite (Keeps.after (.takePackets _ _ _) (.setSpanPorts _ _)) (Keeps.setSpanPorts _ _))
theorem Keeps.sendFlit (p : Fin 16) (s : State) (payload : List Byte) : Keeps s (sendFlit p s payload) := by
  unfold Machine.sendFlit
  split
  · exact .refl s
  · exact .of_eq rfl rfl
theorem Keeps.transmit (s : State) (p : Fin 16) : Keeps s (transmit s p) := by
  unfold Machine.transmit
  split
  · exact .refl s
  · refine .ite (.refl s) ?_
    split
    · exact .refl s
    · exact .after (.foldl (.sendFlit _) _ _) (.setSpanPorts _ _)
theorem Keeps.replayFrom (s : State) (p : Fin 16) (fseq : BitVec 12) : Keeps s (replayFrom s p fseq) := by
  unfold Machine.replayFrom
  split
  · exact .refl s
  · exact .ite (.refl s) (.of_eq rfl rfl)

/-! ## Ports -/

theorem Keeps.setPort (s : State) (p : PortRef) (old new : Port) : Keeps s (setPort s p old new) := by
  cases p
  case ue i => exact .ite (.of_eq rfl rfl) (.of_eq rfl rfl)
  case span i => exact .ite (.of_eq rfl rfl) (.of_eq rfl rfl)
theorem KeepsNext.onPort (s : State) (p : PortRef) (f : Port → Port) : KeepsNext s (onPort s p f) := by
  unfold Machine.onPort
  split
  · trivial
  · exact Keeps.setPort _ _ _ _
theorem KeepsNext.execPortEnable (p : PortRef) (s : State) : KeepsNext s (execPortEnable p s) := .ite (Keeps.refl s) (.onPort _ _ _)
theorem KeepsNext.execTrainingEnd (p : PortRef) (lanes : Nat) (s : State) : KeepsNext s (execTrainingEnd p lanes s) := .onPort _ _ _
theorem KeepsNext.execLaneLoss (p : PortRef) (s : State) : KeepsNext s (execLaneLoss p s) := .onPort _ _ _
theorem KeepsNext.execReplayThreshold (p : PortRef) (s : State) : KeepsNext s (execReplayThreshold p s) := .onPort _ _ _
theorem KeepsNext.execPortDrain (p : PortRef) (s : State) : KeepsNext s (execPortDrain p s) := .chandler (.onPort _ _ _)
theorem KeepsNext.execDrainComplete (p : PortRef) (s : State) : KeepsNext s (execDrainComplete p s) := .ite trivial (.onPort _ _ _)
theorem KeepsNext.execPortReset (p : PortRef) (s : State) : KeepsNext s (execPortReset p s) := .chandler (.onPort _ _ _)

end Sys2Proof.Machine
end

section
/-! Certificates for the family spec/08_memory_model.md: what dispatch, fetch, turns and a step keep: the canonical
form of memory (R170, log 4). -/
namespace Sys2Proof.Machine

/-! ## The dispatch -/

/-- An instruction that issues as a job keeps both forms. -/
theorem KeepsNext.of_job {i : Instr} {jf : Frame → Job} (hj : jobOf i = some jf) (s : State) : KeepsNext s (exec i s) := by
  obtain ⟨sw, hexec⟩ := Proofs.Deferring.exec_of_jobOf hj
  rw [hexec]
  exact .issueJob (jobOf_keeps hj) s

/-- What an instruction of the current team, or an event of another agent, leaves keeps both forms. -/
theorem KeepsNext.exec (i : Instr) (s : State) : KeepsNext s (exec i s) := by
  cases i
  case nop => exact .execNop _ _
  case setm => exact .execSetm _ _ _
  case bra => exact .execBra _ _ _
  case brall => exact .execBrall _ _ _ _ _
  case brany => exact .execBrany _ _ _ _ _
  case brd => exact .execBrd _ _ _ _ _ _
  case join => exact .execJoin _ _
  case call => exact .execCall _ _ _
  case ret => exact .execRet _ _
  case jmpi => exact .execJmpi _ _ _
  case exit => exact .execExit _ _
  case trap sw code => exact .execTrap sw s code
  case yield => exact .execYield _ _
  case region => exact .execRegion _ _
  case drain => exact .execDrain _ _
  case loop => exact .execLoop _ _ _ _
  case xwin => exact .execXwin _ _ _ _ _
  case umovPushQ0 => exact .execUmovPushQ0 _ _ _
  case umovPushQ2 => exact .execUmovPushQ2 _ _ _
  case umovPopQ3 => exact .execUmovPopQ3 _ _ _
  case fence => exact .execFence _ _ _ _ _
  case monitor => exact .execMonitor _ _ _ _
  case mwait => exact .execMwait _ _
  case ldlat => exact .execLdlat _ _ _ _
  case settle => exact .execSettle _ _ _
  case mma => exact .execMma _ _ _ _ _
  case aclr => exact .execAclr _ _ _
  case acst => exact .execAcst _ _ _ _ _
  case acld => exact .execAcld _ _ _ _ _
  case mhint => exact .execMhint _ _ _
  case tlwait => exact .execTlwait _ _ _ _
  case ringInit sw r a unused => exact .execRingInit sw s r a unused
  case ringStat => exact .execRingStat _ _ _ _ _
  case barSync => exact .execBarSync _ _ _ _ _
  case barArrive => exact .execBarArrive _ _ _ _ _
  case barWait => exact .execBarWait _ _ _ _ _
  case csrr => exact .execCsrr _ _ _ _
  case csrw => exact .execCsrw _ _ _ _
  case flagsClear => exact .execFlagsClear _ _ _
  case trapvecWrite => exact .execTrapvecWrite _ _ _
  case loadLands => exact .execLoadLands _ _ _
  case residueRun => exact .execResidueRun _ _
  case carterCopy => exact .execCarterCopy _ _ _
  case carterCopy2d => exact .execCarterCopy2d _ _ _
  case carterFill => exact .execCarterFill _ _ _
  case sifterSortedIndex => exact .execSifterSortedIndex _ _ _
  case sifterBitmap => exact .execSifterBitmap _ _ _
  case matrixUnitExecute => exact .execMatrixUnitExecute _ _ _
  case settleExecute => exact .execSettleExecute _ _
  case barrierGenerationComplete => exact .execBarrierGenerationComplete _ _
  case tailWrite => exact .execTailWrite _ _ _ _
  case launchRecord => exact .execLaunchRecord _ _ _
  case slotAssignment => exact .execSlotAssignment _ _ _
  case dependencesSatisfied => exact .execDependencesSatisfied _ _
  case gangPlacement => exact .execGangPlacement _ _ _ _
  case timeSliceExpiry => exact .execTimeSliceExpiry _ _
  case gangCapture => exact .execGangCapture _ _
  case gangRestoration => exact .execGangRestoration _ _ _ _
  case kernelDrain => exact .execKernelDrain _ _
  case kernelCompletion => exact .execKernelCompletion _ _
  case chandlerFaultService => exact .execChandlerFaultService _ _ _
  case chandlerResumption => exact .execChandlerResumption _ _
  case contextCreate => exact .execContextCreate _ _
  case queueEnable => exact .execQueueEnable _ _ _
  case contextAbort => exact .execContextAbort _ _ _
  case contextDestroy => exact .execContextDestroy _ _
  case pteChange => exact .execPteChange _ _ _ _ _ _
  case pageMigration => exact .execPageMigration _ _ _ _
  case exportGrant => exact .execExportGrant _ _ _
  case exportRevoke => exact .execExportRevoke _ _
  case bloomFilterRotation => exact .execBloomFilterRotation _ _
  case heldRowRefresh channel => exact .execHeldRowRefresh channel s
  case errorSelfTest => exact .execErrorSelfTest _ _ _ _ _ _
  case rmaWrite => exact .execRmaWrite _ _ _ _ _ _ _
  case rmaRead => exact .execRmaRead _ _ _ _ _ _ _
  case chandlerRequest => exact .execChandlerRequest _ _ _ _
  case flitReceived => exact .execFlitReceived _ _ _
  case spanRequest => exact .execSpanRequest _ _
  case nackReceived => exact .execNackReceived _ _
  case requestDeadline => exact .execRequestDeadline _ _
  case portEnable => exact .execPortEnable _ _
  case trainingEnd => exact .execTrainingEnd _ _ _
  case laneLoss => exact .execLaneLoss _ _
  case replayThreshold => exact .execReplayThreshold _ _
  case portDrain => exact .execPortDrain _ _
  case drainComplete => exact .execDrainComplete _ _
  case portReset => exact .execPortReset _ _
  case freeze => exact .execFreeze _
  case comparatorWrite => exact .execComparatorWrite _ _ _ _ _
  case contextResume => exact .execContextResume _ _
  case laneCycleReadClear => exact .execLaneCycleReadClear _ _ _
  case coldReset => exact .execColdReset _
  case firmwareImage => exact .execFirmwareImage _ _
  case configurationRecord => exact .execConfigurationRecord _ _ _
  case attestationRequest => exact .execAttestationRequest _ _
  case illegalInstruction w => exact .execIllegalInstruction w s
  case spanResponse => exact .execSpanResponse _ _ _
  case importedCopyInvalidation => exact .execImportedCopyInvalidation _ _ _
  case tokenBucketRefill => exact .execTokenBucketRefill _ _ _ _ _
  case hotnessEntryClear => exact .execHotnessEntryClear _ _ _ _
  case mmab => exact .sparseIssue _ _ _ _ _ _ _
  case mmar => exact .sparseIssue _ _ _ _ _ _ _
  case ringRsv => exact .ringAsk _ _ _ _ _ _
  case ringWait => exact .ringAsk _ _ _ _ _ _
  case ringCmt => exact .ringPost _ _ _ _ _
  case ringRel => exact .ringPost _ _ _ _ _
  case matrixRampUpDone => exact .rampEvent _ _ _ _ _ _
  case matrixHoldExpiry => exact .rampEvent _ _ _ _ _ _
  case matrixRampDownDone => exact .rampEvent _ _ _ _ _ _
  all_goals exact .of_job rfl s

/-! ## Fetch -/

/-- Whatever fetching a word gives keeps both forms. -/
def KeepsWord (s : State) : WordGot → Prop
  | .ok t _ => Keeps s t
  | .fault t _ _ => Keeps s t
  | .ask t _ _ => Keeps s t

/-- Whatever fetching the further words of an instruction gives keeps both forms. -/
def KeepsWords (s : State) : Except WordGot (State × List W32) → Prop
  | .ok x => Keeps s x.1
  | .error g => KeepsWord s g

/-- The state in which a team issues, or does not, keeps both forms. -/
def KeepsIssue (s : State) : Issue → Prop
  | .run t _ => Keeps s t
  | .stop t => Keeps s t

theorem KeepsIssue.ite {s : State} {a b : Issue} {c : Prop} [Decidable c] (ha : KeepsIssue s a) (hb : KeepsIssue s b) :
    KeepsIssue s (if c then a else b) := by
  split
  · exact ha
  · exact hb
theorem KeepsWord.ite {s : State} {a b : WordGot} {c : Prop} [Decidable c] (ha : KeepsWord s a) (hb : KeepsWord s b) :
    KeepsWord s (if c then a else b) := by
  split
  · exact ha
  · exact hb

theorem Keeps.codeLine (s : State) (core line : Nat) : Keeps s (codeLine s core line).1 := by
  unfold Machine.codeLine
  split
  · exact .refl s
  · split
    · exact .after (.modCore _ _ _) (.mscRead s _)
    · exact .refl s
theorem Keeps.of_codeLine {s t : State} {core line : Nat} {x : Option (Sparse 8)} (h : Machine.codeLine s core line = (t, x)) : Keeps s t := by
  have k := Keeps.codeLine s core line
  rw [h] at k
  exact k
theorem Keeps.of_xlateFor {s t : State} {core asid root : Nat} {va : W64} {n : Need} {x : Except WalkFault Xlat}
    (h : Machine.xlateFor s core asid root va n = (t, x)) : Keeps s t := by
  have k := Keeps.xlateFor s core asid root va n
  rw [h] at k
  exact k
theorem KeepsWord.fetchWord (s : State) (h : Here) (va : W64) : KeepsWord s (fetchWord s h va) := by
  refine .ite (Keeps.refl s) ?_
  split
  · exact Keeps.of_xlateFor ‹_›
  · have k := Keeps.of_xlateFor ‹_›
    split
    · exact k.trans (.of_codeLine ‹_›)
    · exact k.trans (.of_codeLine ‹_›)
theorem KeepsWord.trans {a b : State} {g : WordGot} (hg : KeepsWord b g) (k : Keeps a b) : KeepsWord a g :=
  match g with
  | .ok .. => k.trans hg
  | .fault .. => k.trans hg
  | .ask .. => k.trans hg
theorem KeepsWords.fetchMore (h : Here) : ∀ (n : Nat) (va : W64) (ws : List W32) {s0 s : State}, Keeps s0 s →
    KeepsWords s0 (fetchMore h n va ws s)
  | 0, _, _, _, _, k => k
  | n + 1, va, ws, s0, s, k => by
    have kw : KeepsWord s0 (Machine.fetchWord s h va) := (KeepsWord.fetchWord s h va).trans k
    unfold Machine.fetchMore
    split
    · rename_i hw
      rw [hw] at kw
      exact .fetchMore h n _ _ kw
    · exact kw
theorem Keeps.askCode {s0 s : State} {h : Here} (k : Keeps s0 s) (ht : h.tm.Registered s0) (pa : Nat) (va : W64) :
    Keeps s0 (askCode s h pa va) := (k.trans (.sendReq _ _ _ _ _ _ _ _ _ _ _)).setTeam h.t ht
theorem Keeps.fetchStop {s0 : State} {h : Here} {g : WordGot} (k : KeepsWord s0 g) (ht : h.tm.Registered s0) :
    Keeps s0 (fetchStop h g) := by
  cases g
  case ok t w => exact k
  case fault t code va => exact Keeps.takeFault k h _ _ ht
  case ask t pa va => exact .askCode k ht _ _
theorem KeepsIssue.fetchInstr {s0 s : State} {h : Here} (k : Keeps s0 s) (ht : h.tm.Registered s0) : KeepsIssue s0 (fetchInstr s h) := by
  have kw : KeepsWord s0 (Machine.fetchWord s h h.tm.pc) := (KeepsWord.fetchWord s h _).trans k
  unfold Machine.fetchInstr
  split
  · rename_i s1 w hw
    rw [hw] at kw
    have km := KeepsWords.fetchMore h (wordCount w - 1) (h.tm.pc + 4) [w] kw
    split
    · rename_i hm
      rw [hm] at km
      split
      · exact km
      · exact km
    · rename_i hm
      rw [hm] at km
      exact Keeps.fetchStop km ht
  · exact Keeps.fetchStop kw ht
theorem KeepsIssue.prepare {s : State} {h : Here} (ht : h.tm.Registered s) : KeepsIssue s (prepare s h) := by
  have k : Keeps s { s with cur := h.t } := .of_eq rfl rfl
  have kf : KeepsIssue s (Machine.fetchInstr { s with cur := h.t } h) := .fetchInstr k ht
  have kh (ns : List Nat) :
      Keeps s (Machine.haltBy (State.modTeam { s with cur := h.t } h.t fun tm => { tm with resumed := true }) h.cx ns h.tm.pc 0) :=
    .after (.haltBy _ _ _ _ _) (k.trans (.modTeam _ _ fun _ => id))
  unfold Machine.prepare
  dsimp only
  split
  · exact k.enterHandler h _ _ _ _ _ _ ht
  · exact k.enterHandler h _ _ _ _ _ _ ht
  all_goals exact .ite kf (kh _)

/-! ## Turns -/

/-- The state in which a turn acts, or which it leaves, keeps both forms. -/
def KeepsTurn (s : State) : Turn → Prop
  | .run t _ => Keeps s t
  | .issue t _ _ _ => Keeps s t
  | .done t => Keeps s t
  | .no _ => True

theorem KeepsTurn.ite {s : State} {a b : Turn} {c : Prop} [Decidable c] (ha : KeepsTurn s a) (hb : KeepsTurn s b) :
    KeepsTurn s (if c then a else b) := by
  split
  · exact ha
  · exact hb
theorem KeepsTurn.trans {a b : State} {x : Turn} (hx : KeepsTurn b x) (k : Keeps a b) : KeepsTurn a x :=
  match x with
  | .run .. => k.trans hx
  | .issue .. => k.trans hx
  | .done .. => k.trans hx
  | .no _ => trivial

theorem Keeps.afterTurn (core bench : Nat) (s : State) : Keeps s (afterTurn core bench s) :=
  .of_mapIdx _ rfl rfl fun t tm => by
    split
    · split
      · rfl
      · rfl
    · rfl
theorem Keeps.payTurn (s : State) (h : Here) : Keeps s (payTurn s h) := by
  have k : Keeps s (State.modTeam s h.t fun tm => { tm with
      owed := (turnCut 0 h.tm.owed).2, banks := keepBanks (turnCut 0 h.tm.owed).2 tm.banks
      age := (((s.modBench h.core h.bench fun b => { b with issued := b.issued + (turnCut 0 h.tm.owed).1 }).bench? h.core h.bench).map
        fun (b : Bench) => b.issued).getD 0 }) := .modTeam _ _ fun _ => id
  exact k.same rfl rfl
theorem KeepsTurn.issueTurn {s : State} {h : Here} (ht : h.tm.Registered s) : KeepsTurn s (issueTurn s h) := by
  refine .ite (Keeps.after (.afterTurn _ _ _) (.payTurn _ _)) (.ite (Keeps.refl s) ?_)
  have k := KeepsIssue.prepare ht
  split
  · rename_i hp
    rw [hp] at k
    exact k
  · rename_i hp
    rw [hp] at k
    exact Keeps.after (.afterTurn _ _ _) k
theorem KeepsTurn.residueTurn (s : State) (t : Nat) : KeepsTurn s (residueTurn s t) := by
  unfold Machine.residueTurn
  split
  · trivial
  · exact .ite (.issueTurn (here_registered ‹_›)) trivial
theorem KeepsTurn.eventTurn (s : State) (i : Instr) : KeepsTurn s (eventTurn s i) := by
  unfold Machine.eventTurn
  split
  · trivial
  · exact .residueTurn _ _
  · exact .ite trivial (Keeps.refl s)
theorem readyTeams_registered {s : State} {h : Here} (hh : h ∈ readyTeams s) : h.tm.Registered s := by
  unfold readyTeams at hh
  simp only [List.mem_filterMap, Option.bind_eq_some_iff] at hh
  obtain ⟨t, -, g, hg, he⟩ := hh
  split at he
  · cases he
    exact here_registered hg
  · cases he
theorem benchPick_registered {s : State} {core bench : Nat} {h : Here} (hh : benchPick s (readyTeams s) core bench = some h) :
    h.tm.Registered s :=
  readyTeams_registered (List.mem_of_mem_filter (List.mem_of_find?_eq_some hh))
theorem pickTeam_registered {s : State} {h : Here} (hh : pickTeam s = some h) : h.tm.Registered s :=
  readyTeams_registered (List.mem_of_mem_filter (List.mem_of_find?_eq_some hh))
theorem Keeps.barrierPod (s : State) (group : Nat × W64) (id : Fin 16) : Keeps s (barrierPod s group id) :=
  .foldl (fun _ _ => .modBar _ _ _) _ s
theorem KeepsTurn.headTurn (s : State) (a : Happening) : KeepsTurn s (headTurn s a) := by
  cases a
  case event i => exact .eventTurn _ _
  case issue core bench =>
    unfold Machine.headTurn
    dsimp only
    split
    · exact .issueTurn (benchPick_registered ‹_›)
    · trivial
  case evictL1 core line => exact .ite trivial (Keeps.evictL1Line _ _ _)
  case evictHome line => exact Keeps.evictHomeLine _ _
  case podHalt group => exact Keeps.haltPod _ _
  case podBarrier group id => exact Keeps.barrierPod _ _ _
  case ack die page => exact Keeps.ackPage _ _ _
  case ackAll page => exact Keeps.ackPage _ _ _
  case tail ctx q value => exact Keeps.tailNoted _ _ _ _
  case transmit p => exact Keeps.transmit _ _
  case replay p fseq => exact Keeps.replayFrom _ _ _
  case bringUp =>
    unfold Machine.headTurn
    dsimp only
    split
    · exact Keeps.bootStep ‹_›
    · trivial
  case hthresh die n => exact .ite trivial (Keeps.of_eq rfl rfl)
  case evictInstr core line => exact Keeps.modCore _ _ _
  case evictMsc line => exact Keeps.of_eq rfl rfl
  case evictConst core line => exact Keeps.modCore _ _ _
theorem KeepsNext.act {s : State} {x : Turn} (hx : KeepsTurn s x) : KeepsNext s x.act := by
  cases x
  case run t i => exact (KeepsNext.exec i t).trans hx
  case issue t i core bench =>
    have k := (KeepsNext.exec i t).trans hx
    unfold Turn.act
    dsimp only
    split
    · rename_i ho
      exact Keeps.after (.afterTurn _ _ _) (k.of_next ho)
    · trivial
    · trivial
  case done t => exact hx
  case no f => trivial

/-! ## A step -/

theorem Keeps.firstNext {s t : State} : ∀ {l : List Instr}, firstNext s l = some t → Keeps s t
  | [], h => by cases h
  | i :: r, h => by
    unfold Machine.firstNext at h
    split at h
    · rename_i ho
      cases h
      exact (KeepsNext.exec i s).of_next ho
    · exact .firstNext h
    · exact .firstNext h
theorem Keeps.eventStep {s t : State} (h : eventStep s = some t) : Keeps s t := by
  obtain ⟨u, hu, rfl⟩ := Option.map_eq_some_iff.mp h
  exact .after (.order _) (.firstNext hu)
theorem Keeps.idleStep (s : State) : Keeps s (idleStep s) := by
  unfold Machine.idleStep
  split
  · exact .bootStep ‹_›
  · exact .passTime s
theorem KeepsNext.restStep (s : State) : KeepsNext s (restStep s) := by
  unfold Machine.restStep
  split
  · exact Keeps.firstNext ‹_›
  · exact Keeps.idleStep s
theorem KeepsNext.defaultStep (s : State) : KeepsNext s (defaultStep s) := by
  refine .ite ?_ ?_
  · split
    · exact .act (.issueTurn (pickTeam_registered ‹_›))
    · split
      · exact Keeps.eventStep ‹_›
      · exact .restStep s
  · split
    · exact Keeps.eventStep ‹_›
    · split
      · exact .act (.issueTurn (pickTeam_registered ‹_›))
      · exact .restStep s
theorem Keeps.setAgenda (s : State) (l : List Happening) : Keeps s { s with agenda := l } := .of_eq rfl rfl
theorem KeepsNext.stepBody (s : State) : KeepsNext s (stepBody s) := by
  unfold Machine.stepBody
  split
  · exact .ite trivial (.act ((KeepsTurn.headTurn _ _).trans (.setAgenda _ _)))
  · exact .ite trivial (.defaultStep s)
theorem Keeps.parkNext (s : State) (t : Nat) : Keeps s (parkNext s t) := by
  unfold Machine.parkNext
  split
  · exact .refl s
  · rename_i h hh
    refine .ite ?_ (.refl s)
    have k := KeepsIssue.prepare (here_registered hh)
    split
    · exact .refl s
    · rename_i s1 i hp
      rw [hp] at k
      split
      · rename_i s2 ho
        exact .ite (.after ((Keeps.refl s2).same rfl rfl) (.after ((KeepsNext.exec i s1).of_next ho) k)) (.refl s)
      · exact .refl s
      · exact .refl s
theorem Keeps.parkTeams (s : State) : Keeps s (parkTeams s) := .foldl .parkNext _ s
theorem Keeps.blockQ3 (s : State) : Keeps s (blockQ3 s) :=
  .of_mapIdx _ rfl rfl fun t tm => by
    split
    · rfl
    · rfl
/-- What goes with every step keeps both forms of what the step has left. -/
theorem Keeps.afterStep (s t : State) : Keeps t (afterStep s t) :=
  .after (.syncRecords _ _) (.after (.flushRings _) (.after (.expireInbound _) (.after (.parkTeams _) (.blockQ3 t))))
/-- A step keeps both forms. -/
theorem KeepsNext.step (s : State) : KeepsNext s (step s) := by
  unfold Machine.step
  split
  · rename_i t ho
    exact Keeps.after (.afterStep s t) ((KeepsNext.stepBody s).of_next ho)
  · trivial
  · trivial

/-- Reset, whose memory has its form, takes a step. -/
theorem step_reset : ∃ t, step State.reset = .next t ∧ MemoryOk t :=
  ⟨_, rfl, ((KeepsNext.step State.reset).of_next rfl).memory reset_ok.1⟩

/-- Settles O8: bytes reach home memory only through `ssetAll` and leave it only through `clearRange` and a cold reset, each of which
keeps the form; every other part of a step leaves memory as it is. -/
theorem memoryStaysCanonical : Obligations.MemoryStaysCanonical := by
  unfold Obligations.MemoryStaysCanonical
  intro s t hs hstep
  exact ((KeepsNext.step s).of_next hstep).memory hs

end Sys2Proof.Machine
end
